-- ==== Sys2Proof/Word.lean ====
section
/-!
DEFINITION. The words of the YB-3200: bytes, 16-, 32- and 64-bit words, and the little-endian reading of
R3 (every multi-byte field is little-endian; word n occupies bytes 4n + 3:4n).
-/
namespace Sys2Proof

/-- One byte of memory. -/
abbrev Byte := BitVec 8

/-- A 32-bit word: a register, a word of a command, of a descriptor or of a record (R3). -/
abbrev Word := BitVec 32

/-- A command tag or a baton token (R82, R87). -/
abbrev Tag := BitVec 16

end Sys2Proof
end

