-- ==== Sys2Proof/Syntax.lean ====
section
/-!
DEFINITION. The commands of the device: one constructor of `Instr` for every row of spec/opcode_table.json, in the
table's order, with the operands that the rule of the row gives the step (which unit it happens at, what arrives
there). The dies, cores, engines and ports are the ones of R9, R10 and R40, each a number below its count.
-/
namespace Sys2Proof

/-- A core number, die × 8 + position (R9, R10). -/
abbrev CoreId := Fin 128
/-- A larder die LD0–LD7. -/
abbrev LarderId := Fin 8
/-- An HBM3E stack. -/
abbrev StackId := Fin 16
/-- A hub die MH0–MH3, and its update-and-thinning engine. -/
abbrev HubId := Fin 4
/-- A port die PD0, PD1, and its slow-tier update engine. -/
abbrev PortDieId := Fin 2
/-- A Naulo port. -/
abbrev NauloId := Fin 16
/-- A relay engine. -/
abbrev RelayId := Fin 16
/-- A CXL port. -/
abbrev CxlId := Fin 4
/-- A die as error records and the proxy pages name it: 0–30 of R9, 32 for SB (R40). -/
abbrev DieId := Fin 33
/-- A device ID (R34). -/
abbrev DeviceId := Fin 32768

/-- The three memories of a core (R26). -/
inductive CoreMem where
  | wm | am | pm
  deriving DecidableEq, Repr

/-- The blocks that carry a register page, with their instances (R38, R40). -/
inductive Block where
  | cp (c : CoreId)
  | gme (c : CoreId)
  | vu (c : CoreId)
  | array (c : CoreId)
  | mem (c : CoreId) (m : CoreMem)
  | sem (c : CoreId)
  | dma (c : CoreId) (ch : Fin 8)
  | larder (d : LarderId)
  | dir (d : LarderId)
  | hbm (s : StackId)
  | adder (s : StackId)
  | hub (h : HubId)
  | host
  | cxl (p : CxlId)
  | naulo (p : NauloId)
  | relay (e : RelayId)
  | slow (p : PortDieId)
  | mgmt (k : Fin 2)
  | stride (k : Fin 2)
  | errq (k : Fin 2)
  | security (k : Fin 2)
  | proxy (d : DieId)
  | router (d : DieId)
  | clock (d : DieId)
  | sensors (d : DieId)
  | glob (page : Fin 256)
  deriving DecidableEq, Repr

/-- A command front end: the CP of a core, or the front end of a hub or port engine (R91, R100). The same number
names the semaphores it owns: those of the core, or the engine's bank of 256. -/
inductive FrontId where
  | cp (c : CoreId)
  | hub (h : HubId)
  | slow (p : PortDieId)
  | relay (e : RelayId)
  deriving DecidableEq, Repr

/-- An owner of a descriptor table and an allocation table: a core's GME (R151, R153) or a hub or port engine
(R294, R397). -/
abbrev TableOwner := FrontId

/-- The service classes of a request (R87, R361). -/
inductive SvcClass where
  | critical | bulk | speculative
  deriving DecidableEq, Repr

/-- What a request does at the memory it reaches. -/
inductive Access where
  | read (bytes : Nat)
  | write (data : List Byte)
  deriving DecidableEq, Repr

/-- One device's contribution to the step vote, or the combined contribution of a subtree (R264). The norm is
counted in units of 2^-280 (R263). -/
structure Contribution where
  stepMin     : Nat
  stepMax     : Nat
  skip        : Bool
  nonfinite   : Bool
  torn        : Bool
  firstDevice : Option DeviceId
  norm        : Nat
  deriving DecidableEq, Repr

/-- A tick message (R55, R383). -/
structure TickMsg where
  stride   : Nat
  fire     : Nat
  planned  : Nat
  holdLead : Nat
  hurdle   : Bool
  deriving DecidableEq, Repr

/-- A packet header's common part (R382). -/
structure PacketHead where
  cls   : SvcClass
  tag   : Tag
  dst   : DeviceId
  src   : DeviceId
  unit  : Word
  xid   : Nat
  addr  : Nat
  bytes : Nat
  deriving DecidableEq, Repr

/-- What every Naulo flit carries beside its units (R372): the SEQ of the latest DATA flit received in order, and the count
of units freed on one virtual channel. -/
structure FlitControl where
  ack         : Nat
  creditVc    : Fin 8
  creditCount : Nat
  deriving DecidableEq, Repr

/-- The types of a Naulo flit (R372). -/
inductive FlitType where
  | data | idle | nak | link
  deriving DecidableEq, Repr

/-- A Naulo flit (R372): SEQ, type, the units that it holds with their virtual channels, and its control fields. -/
structure Flit where
  seq   : Nat
  type  : FlitType
  units : List (Fin 8 × List Byte)
  ctl   : FlitControl
  deriving DecidableEq, Repr

/-- A collective segment's header words (R383, R414) and its data. `poisoned` is STATUS POISONED (R415). -/
structure Segment where
  group    : Fin 256
  kind     : Fin 16
  seqId    : Nat
  offset   : Nat
  total    : Nat
  rank     : Nat
  addr     : Nat
  src      : DeviceId
  poisoned : Bool
  data     : List Byte
  deriving DecidableEq, Repr

/-- The kinds of hold source that a device's stride master gathers (R62). -/
inductive HoldSource where
  | front (f : FrontId)
  | park (p : PortDieId)
  deriving DecidableEq, Repr

/-- A receiver of a publish lock: the die boundary proxy of a CD, or an update-and-thinning engine (R247). -/
inductive LockHolder where
  | proxy (cd : Fin 16)
  | engine (h : HubId)
  deriving DecidableEq, Repr

/-- An engine that receives the ledger's decision (R265). -/
inductive DecisionEngine where
  | hub (h : HubId)
  | slow (p : PortDieId)
  deriving DecidableEq, Repr

/-- One signal of the TAP, sampled at an edge of DBG_TCK (R520). -/
structure TapPins where
  tms   : Bool
  tdi   : Bool
  trstN : Bool
  rising : Bool
  deriving DecidableEq, Repr

/-- What a training of a host, CXL or Naulo link found (R356, R371, R505). -/
structure LinkTrain where
  linked : Bool
  width  : Nat
  speed  : Nat
  good   : Bool
  deriving DecidableEq, Repr

/-- The commands and events of the device: one constructor per row of the table. -/
inductive Instr where
  -- commands run by a core's engines: the core and the in-flight slot
  | matmul (c : CoreId) (slot : Nat)
  | matmulCascade (c : CoreId) (slot : Nat)
  | matmulElementWise (c : CoreId) (slot : Nat)
  | matmulPod (c : CoreId) (slot : Nat)
  | matmulPodT (c : CoreId) (slot : Nat)
  | maskedProduct (c : CoreId) (slot : Nat)
  | predict (c : CoreId) (slot : Nat)
  | eltwise (c : CoreId) (slot : Nat)
  | reduce (c : CoreId) (slot : Nat)
  | gather (c : CoreId) (slot : Nat)
  | scatterAdd (c : CoreId) (slot : Nat)
  | copy (c : CoreId) (slot : Nat)
  | transposeCopy (c : CoreId) (slot : Nat)
  | fill (c : CoreId) (slot : Nat)
  | semOp (f : FrontId) (slot : Nat)
  | strideWait (f : FrontId)
  | dma (c : CoreId) (slot : Nat)
  -- commands run by the hub and port engines
  | apply (h : HubId) (slot : Nat)
  | normPass (h : HubId) (slot : Nat)
  | thin (h : HubId) (slot : Nat)
  | sprout (h : HubId) (slot : Nat)
  | driftAudit (h : HubId) (slot : Nat)
  | park (p : PortDieId) (slot : Nat)
  | run (p : PortDieId) (slot : Nat)
  | collectiveReduce (e : RelayId) (slot : Nat)
  | allReduce (e : RelayId) (slot : Nat)
  | reduceScatter (e : RelayId) (slot : Nat)
  | allGather (e : RelayId) (slot : Nat)
  | broadcast (e : RelayId) (slot : Nat)
  | allToAll (e : RelayId) (slot : Nat)
  | permute (e : RelayId) (slot : Nat)
  | move (e : RelayId) (slot : Nat)
  | stepVote (e : RelayId) (slot : Nat)
  -- the command machinery
  | ringFetch (f : FrontId)
  | dispatch (f : FrontId)
  | waitSatisfied (f : FrontId) (queue : Fin 12)
  | batonTake (c : CoreId) (queue : Fin 12)
  | batonStall (c : CoreId) (slot : Nat)
  | completion (f : FrontId) (slot : Nat)
  | semOperation (f : FrontId) (index : Nat)
  | requestTimeout (who : Block) (k : Nat)
  | ringTail (f : FrontId) (v : Word)
  | syncMode (f : FrontId) (batons : Bool)
  -- the tick
  | tickAnnounce
  | holdBudgetExpiry
  | tickFire
  | holdPoint
  | holdChange (src : HoldSource)
  | tick (port : NauloId) (from_ : DeviceId) (m : TickMsg)
  | strideOut
  | strideInPulse (rise : Nat) (width : Nat)
  | strideInStuck
  | strideInMissing
  | start
  | stop
  | holdSw (v : Bool)
  | stridePeriod (v : Word)
  | tickLead (v : Word)
  | holdLead (v : Word)
  | holdBudget (v : Word)
  | strideCount (high : Bool) (v : Word)
  | hold (from_ : DeviceId) (stride : Nat) (v : Bool) (firstId : DeviceId)
  -- the vote and the ledger
  | vote (port : NauloId) (group : Fin 256) (from_ : DeviceId) (v : Contribution)
  | voteResult (port : NauloId) (group : Fin 256) (from_ : DeviceId) (v : Contribution) (voteStride : Nat)
  | stepClose
  | decision (e : DecisionEngine)
  | standIn (e : RelayId) (child : DeviceId)
  | voteResultLost (e : RelayId)
  | swSkip
  | tornClear
  -- publishing
  | pubArmGo (h : HubId)
  | pendingLock (r : LockHolder) (h : HubId)
  | lockActivate (r : LockHolder)
  | oldDone (cd : Fin 16) (h : HubId)
  | publish (h : HubId)
  | publishTimeout (h : HubId)
  | unlock (r : LockHolder) (h : HubId)
  -- descriptors, allocations and the directory
  | descCreate (o : TableOwner)
  | descDelete (o : TableOwner)
  | descBatch (o : TableOwner)
  | descTableOffset (c : CoreId) (v : Word)
  | descTableLog2 (c : CoreId) (v : Word)
  | tableCommit (o : TableOwner) (v : Word)
  | tableFill (o : TableOwner)
  | arm (o : TableOwner) (entry : Fin 128)
  | allocBase (o : TableOwner) (entry : Fin 128) (high : Bool) (v : Word)
  | allocSize (o : TableOwner) (entry : Fin 128) (v : Word)
  | directoryWrite (who : Block) (offset : Nat) (data : List Byte)
  -- core memories, the larder, HBM and the slow tier
  | coreMemoryRequest (c : CoreId) (m : CoreMem) (who : Block) (tag : Tag) (offset : Nat) (a : Access)
  | patrolRead (c : CoreId) (m : CoreMem)
  | parityInject (c : CoreId) (m : CoreMem) (v : Word)
  | segOff (c : CoreId) (m : CoreMem) (v : Word) (ahead : List (Block × Tag × Nat × List Byte))
  | drainComplete (c : CoreId) (m : CoreMem) (seg : Fin 11)
  | wakeComplete (c : CoreId) (m : CoreMem) (seg : Fin 11)
  | larderRead (d : LarderId) (who : Block) (cls : SvcClass) (offset bytes : Nat)
  | larderWrite (d : LarderId) (who : Block) (cls : SvcClass) (offset : Nat) (data : List Byte)
  | mergeWait (d : LarderId) (block : Nat)
  | larderScrub (d : LarderId)
  | hbmRequest (who : Block) (tag : Tag) (cls : SvcClass) (addr : Nat) (a : Access)
  | hbmScrub (stack : StackId)
  | pcRetire (stack : StackId) (pc : Fin 32)
  | pcRetired (stack : StackId)
  | stackTemp (stack : StackId) (temp : BitVec 16) (corrections : Nat) (trip : Bool)
  | refresh (stack : StackId) (parityFails : Fin 3)
  | memorySideAdd (e : RelayId) (tag : Tag) (cls : SvcClass) (addr : Nat) (fmt : Fin 16) (data : List Byte)
  | cxlRequest (p : CxlId) (who : Block) (tag : Tag) (cls : SvcClass) (offset : Nat) (a : Access)
  | expanderResponse (p : CxlId) (xid : Nat) (late poison : Bool) (devLoad : Fin 4) (data : List Byte)
  | cxlLinkDown (p : CxlId)
  | cxlRetrain (p : CxlId) (t : LinkTrain) (capacity : Nat) (expId : Word)
  | expEvent (p : CxlId)
  | svcClear (b : Block)
  -- the package network
  | flitCrcError (d : DieId) (link : Fin 4) (wire : Nat)
  | wireLimit (d : DieId) (link : Fin 4) (wire : Nat)
  | wireChange (d : DieId) (link : Fin 4)
  -- Naulo links
  | dataFlit (p : NauloId) (f : Flit) (crc : BitVec 64)
  | nak (p : NauloId) (c : FlitControl)
  | replayTimeout (p : NauloId)
  | laneRetire (p : NauloId) (lane : Fin 4)
  | laneLockLoss (p : NauloId) (lane : Fin 4)
  | laneLimit (p : NauloId) (lane : Fin 4) (uncorrectable : Nat)
  | retire (p : NauloId) (lane : Fin 4) (c : FlitControl)
  | retireAck (p : NauloId) (lane : Fin 4) (c : FlitControl)
  | laneRetired (p : NauloId)
  | linkDown (p : NauloId)
  | nauloRetrain (p : NauloId) (lanes : BitVec 4)
  | ident (p : NauloId) (peer : DeviceId)
  | read (p : NauloId) (h : PacketHead)
  | write (p : NauloId) (h : PacketHead) (data : List Byte)
  | add (p : NauloId) (h : PacketHead) (fmt : Fin 16) (data : List Byte)
  | sem (p : NauloId) (h : PacketHead) (operand : Word) (baton : Bool)
  | readResp (p : NauloId) (h : PacketHead) (status : Fin 16) (data : List Byte)
  | ack (p : NauloId) (h : PacketHead) (status : Fin 16)
  | delay (p : NauloId) (h : PacketHead)
  -- time alignment
  | syncInterval
  | syncReq (from_ : DeviceId) (t1 : Nat)
  | syncResp (from_ : DeviceId) (t1 t2 t3 t4 : Nat)
  | syncLost
  -- collectives
  | segment (p : NauloId) (xid : Nat) (sg : Segment)
  | segAck (p : NauloId) (xid : Nat) (busy : Bool)
  | busyResend (e : RelayId) (xid : Nat)
  | collTimeout (e : RelayId)
  -- faults
  | errorRecord (b : Block)
  | recordResend (b : Block)
  | handling
  | logSize (v : Word)
  | heartbeat (delivered acked : Bool)
  | switchover
  | switchReq
  | sentinelSample (slack : List Int) (failing : List (BitVec 8))
  | relock (d : DieId)
  | fence (b : Block)
  | coreFence (c : CoreId)
  | dieFence (d : DieId)
  | softReset (b : Block)
  | softResetDone (b : Block)
  | enable (b : Block) (v : Bool)
  | errStatus (b : Block) (v : Word)
  | snapshot (b : Block)
  | checkClear (c : CoreId)
  | semData (c : CoreId) (v : Word)
  | semFill (c : CoreId) (v : Word)
  | semFillDone (c : CoreId)
  | batonPass (c : CoreId) (v : Word)
  | batonPop (c : CoreId) (v : Word)
  | dmaRetry (c : CoreId) (ch : Fin 8)
  | resume (c : CoreId) (ch : Fin 8)
  -- trace and check values
  | traceRecord
  | traceCtrl (v : Word)
  | traceBase (offset : Fin 3) (v : Word)
  | digest (ch : Fin 16)
  | seal (ch : Fin 16)
  | verify (ch : Fin 16)
  | jobEnd (ch : Fin 16)
  -- reset and start-up
  | powerOn
  | resetN (asserted : Bool)
  | resetReq (v : Word)
  | deviceReset
  | brownOut (rail : Fin 4)
  | rom (saGood sbGood : Bool)
  | identity
  | image
  | configure (stacksGood : List Bool) (feedsA feedsB : BitVec 4)
  | test (results : List (Option (Tag × Tag)))
  -- supplies
  | feedLost (rail : Fin 4) (feedB : Bool)
  | throttleEnd
  | feedRejoin (rail : Fin 4) (feedB : Bool)
  | rearm
  | feedShare (v : Word)
  -- security operations
  | attest
  | imageReplace
  | imageReplaceOwner
  | reenrol
  | debugNonce
  | debugUnlock
  | readLifetime
  | clearLifetime
  | lifetimeRecord
  | presenceN (asserted : Bool)
  | presenceWindowClose
  | presenceStuck
  -- the host port
  | perstN (asserted : Bool)
  | hotReset
  | hostLinkDown
  | hostFlr
  | configurationRequest (offset : Nat) (wr : Option Word)
  | bar0Access (offset bytes : Nat) (wr : Option (BitVec 64))
  | bar2Access (offset : Nat) (a : Access)
  | bar2BaseHi (v : Word)
  | msiXUnmask (vector : Fin 2048)
  -- board inputs and temperature
  | boardAlarm
  | alarmRelease
  | alarmStuck
  | tempSample (dies : List Int) (hot : List Int)
  -- registers with no behaviour of their own, and the rows added last in the table
  | registerWrite (b : Block) (offset : Nat) (v : Word)
  | ttParent (v : Word)
  | spareSlots (stack : StackId) (offset : Nat) (v : Word)
  | parkCfg (p : PortDieId) (offset : Nat) (v : Word)
  | idle (p : NauloId) (c : FlitControl)
  | protocol (p : NauloId) (op : BitVec 8)
  | hostLinkUp (t : LinkTrain) (flit : Bool)
  | dbgTck (pins : TapPins)
  deriving DecidableEq, Repr

end Sys2Proof
end

