-- ==== Sys2Proof/WellFormed.lean ====
section
/-!
DEFINITION. Which commands are well formed: the operands that the Syntax leaves as plain numbers and lists lie in the
ranges of the fields that carry them. `exec` is total and does not look at this check; it says which terms stand for
something that can arrive at the device.
-/
namespace Sys2Proof

/-- Does a number fit in `w` bits? -/
def fits (w n : Nat) : Bool := n < 2 ^ w

/-- In-flight slots of a front end (R98, R100). -/
def FrontId.slotLimit : FrontId → Nat
  | .cp _ => 256
  | _ => 64

/-- An access of 1 to 512 bytes (R10, R328, R382) at an offset. -/
def Access.ok (a : Access) : Bool :=
  match a with
  | .read n => 0 < n && n ≤ 512
  | .write d => 0 < d.length && d.length ≤ 512

/-- A contribution's numbers fit their fields (R264). -/
def Contribution.ok (v : Contribution) : Bool := fits 64 v.stepMin && fits 64 v.stepMax && fits 640 v.norm

/-- A header's numbers fit their fields, and it addresses 1 to 512 bytes (R382). -/
def PacketHead.ok (h : PacketHead) : Bool := fits 32 h.xid && fits 48 h.addr && 0 < h.bytes && h.bytes ≤ 512

/-- A SEGMENT carries at most 512 bytes and fields of their widths (R383, R414). -/
def Segment.ok (s : Segment) : Bool :=
  fits 32 s.seqId && fits 64 s.offset && fits 64 s.total && fits 16 s.rank && fits 48 s.addr && s.data.length ≤ 512

/-- A tick message's fields fit (R383). -/
def TickMsg.ok (m : TickMsg) : Bool := fits 64 m.stride && fits 64 m.fire && fits 64 m.planned && fits 21 m.holdLead

/-- A register offset: a word in a page (R37). -/
def regOffsetOk (o : Nat) : Bool := o % 4 = 0 && o < 4096

/-- At most four units of 64 bytes travel in a flit (R372). -/
def unitsOk (l : List (Fin 8 × List Byte)) : Bool := l.length ≤ 4 && l.all (fun u => u.2.length = 64)

/-- The control fields of a flit within their widths. -/
def FlitControl.ok (c : FlitControl) : Bool := fits 12 c.ack && fits 16 c.creditCount

/-- Bytes of a core memory (R26). -/
def coreMemBytes : CoreMem → Nat
  | .wm => 0x1000000
  | .am => 0x1600000
  | .pm => 0x0700000

/-- The check of every command. -/
def Instr.wellFormed : Instr → Bool
  | .matmul _ n | .matmulCascade _ n | .matmulElementWise _ n | .matmulPod _ n | .matmulPodT _ n
  | .maskedProduct _ n | .predict _ n | .eltwise _ n | .reduce _ n | .gather _ n | .scatterAdd _ n | .copy _ n
  | .transposeCopy _ n | .fill _ n | .dma _ n | .batonStall _ n => n < 256
  | .semOp f n | .completion f n => n < f.slotLimit
  | .apply _ n | .normPass _ n | .thin _ n | .sprout _ n | .driftAudit _ n | .park _ n | .run _ n
  | .collectiveReduce _ n | .allReduce _ n | .reduceScatter _ n | .allGather _ n | .broadcast _ n | .allToAll _ n
  | .permute _ n | .move _ n | .stepVote _ n => n < 64
  | .strideWait _ | .ringFetch _ | .dispatch _ | .waitSatisfied _ _ | .batonTake _ _ => true
  | .requestTimeout _ _ => true
  | .semOperation f i => match f with
    | .cp _ => i < 4096
    | _ => i < 256
  | .ringTail _ _ | .syncMode _ _ => true
  | .tickAnnounce | .holdBudgetExpiry | .tickFire | .holdPoint | .holdChange _ => true
  | .tick _ _ m => m.ok
  | .strideOut | .strideInStuck | .strideInMissing | .start | .stop | .holdSw _ | .stridePeriod _ | .tickLead _
  | .holdLead _ | .holdBudget _ | .strideCount _ _ => true
  | .strideInPulse r w => fits 64 r && fits 64 w
  | .hold _ n _ _ => fits 64 n
  | .vote _ _ _ v => v.ok
  | .voteResult _ _ _ v n => v.ok && fits 64 n
  | .stepClose | .decision _ | .standIn _ _ | .voteResultLost _ | .swSkip | .tornClear => true
  | .pubArmGo _ | .pendingLock _ _ | .lockActivate _ | .oldDone _ _ | .publish _ | .publishTimeout _
  | .unlock _ _ => true
  | .descCreate _ | .descDelete _ | .descBatch _ | .descTableOffset _ _ | .descTableLog2 _ _ | .tableFill _
  | .arm _ _ | .allocBase _ _ _ _ | .allocSize _ _ _ => true
  | .tableCommit o _ => match o with
    | .cp _ => false
    | _ => true
  | .directoryWrite _ o d => o < 0x04000000 && 0 < d.length && d.length ≤ 512
  | .coreMemoryRequest _ _ _ _ o a => fits 25 o && a.ok
  | .segOff _ m _ l => l.all (fun x => 0 < x.2.2.2.length && x.2.2.1 % 64 + x.2.2.2.length ≤ 64 && x.2.2.1 < coreMemBytes m)
  | .patrolRead _ _ | .parityInject _ _ _ | .drainComplete _ _ _ | .wakeComplete _ _ _ => true
  | .larderRead _ _ _ o n => o < 0x53000000 && 0 < n && n ≤ 512
  | .larderWrite _ _ _ o d => o < 0x53000000 && 0 < d.length && d.length ≤ 512
  | .mergeWait _ b => fits 25 b
  | .larderScrub _ | .hbmScrub _ | .pcRetire _ _ | .pcRetired _ | .stackTemp _ _ _ _ | .refresh _ _ => true
  | .hbmRequest _ _ _ a x => fits 48 a && x.ok
  | .memorySideAdd _ _ _ a _ d => fits 48 a && 0 < d.length && d.length ≤ 512
  | .cxlRequest _ _ _ _ o x => o < 0x020000000000 && x.ok
  | .expanderResponse _ x _ _ _ d => fits 32 x && d.length ≤ 64
  | .cxlLinkDown _ | .expEvent _ | .svcClear _ => true
  | .cxlRetrain _ _ n _ => fits 14 n
  | .flitCrcError _ _ w | .wireLimit _ _ w => fits 16 w
  | .wireChange _ _ => true
  | .dataFlit _ f _ => fits 12 f.seq && f.type = .data && unitsOk f.units && f.ctl.ok
  | .nak _ c => c.ok
  | .replayTimeout _ | .laneRetire _ _ | .laneLockLoss _ _ | .laneLimit _ _ _ | .laneRetired _ | .linkDown _
  | .nauloRetrain _ _ | .ident _ _ => true
  | .retire _ _ c | .retireAck _ _ c => c.ok
  | .read _ h => h.ok
  | .write _ h d => h.ok && d.length = h.bytes
  | .add _ h _ d => h.ok && d.length = h.bytes
  | .sem _ h _ _ => h.ok
  | .readResp _ h _ d => h.ok && d.length ≤ 512
  | .ack _ h _ | .delay _ h => h.ok
  | .syncInterval | .syncLost => true
  | .syncReq _ a => fits 64 a
  | .syncResp _ a b c d => fits 64 a && fits 64 b && fits 64 c && fits 64 d
  | .segment _ x g => fits 32 x && g.ok
  | .segAck _ x _ | .busyResend _ x => fits 32 x
  | .collTimeout _ => true
  | .errorRecord _ | .recordResend _ | .handling | .logSize _ | .heartbeat _ _ | .switchover | .switchReq => true
  | .sentinelSample l f => l.length = 33 && f.length = 33
  | .relock _ | .fence _ | .coreFence _ | .dieFence _ | .softReset _ | .softResetDone _ | .enable _ _ | .errStatus _ _
  | .snapshot _ | .checkClear _ | .semData _ _ | .semFill _ _ | .semFillDone _ | .batonPass _ _ | .batonPop _ _
  | .dmaRetry _ _ | .resume _ _ => true
  | .traceRecord | .traceCtrl _ | .traceBase _ _ | .digest _ | .seal _ | .verify _ | .jobEnd _ => true
  | .powerOn | .resetN _ | .resetReq _ | .deviceReset | .brownOut _ | .rom _ _ | .identity | .image => true
  | .configure l _ _ => l.length = 16
  | .test l => l.length = 128
  | .feedLost _ _ | .throttleEnd | .feedRejoin _ _ | .rearm | .feedShare _ => true
  | .attest | .imageReplace | .imageReplaceOwner | .reenrol | .debugNonce | .debugUnlock | .readLifetime
  | .clearLifetime | .lifetimeRecord | .presenceN _ | .presenceWindowClose | .presenceStuck => true
  | .perstN _ | .hotReset | .hostLinkDown | .hostFlr => true
  | .configurationRequest o _ => o % 4 = 0 && o < 4096
  | .bar0Access o n _ => fits 26 o && 0 < n && n ≤ 8
  | .bar2Access o a => fits 48 o && a.ok
  | .bar2BaseHi _ | .msiXUnmask _ | .boardAlarm | .alarmRelease | .alarmStuck => true
  | .tempSample l h => l.length = 33 && h.length = 16
  | .registerWrite _ o _ => regOffsetOk o
  | .ttParent _ => true
  | .spareSlots _ o _ | .parkCfg _ o _ => regOffsetOk o
  | .idle _ c => c.ok
  | .protocol _ _ | .hostLinkUp _ _ | .dbgTck _ => true

end Sys2Proof
end

