-- ==== Sys2Proof/Decode.lean ====
section
/-!
DEFINITION. The command that a word spells. The opcode table of this device gives no row any bits: its rows are events
and register writes, and the commands of a ring are 64-byte structures in memory that the front ends fetch
(Machine/Operands.lean reads their fields). So no word of the table spells a command.
-/
namespace Sys2Proof

/-- The command that a word of the opcode table spells: none, since no row has bits. -/
def decodeTableWord (_nbits _w : Nat) : Option Instr := none

end Sys2Proof
end

