-- ==== Sys2Proof/Config.lean ====
section
/-!
DEFINITION. What the specification leaves open and the model therefore leaves free: every constant of this file is
OPAQUE, with no body, so that nothing proved of the model rests on a value of it. The assumption log names the
entry of each one. A value that must be fresh at each use is applied to State.fresh, a plain counter.
-/
namespace Sys2Proof.Config

/-- The byte an expander holds at an address that the device has not written since its latest reset (R535: the device
makes no statement about that content): number of resets, address. -/
opaque expanderByte : Nat → Nat → Byte

/-- The byte of a memory before the device reaches READY (R535: undefined content): number of resets, address. -/
opaque startupByte : Nat → Nat → Byte

/-- Whether a write whose response never came had been applied (R90 ends the request and does not say): use number. -/
opaque lapsedDone : Nat → Bool

/-- Whether the expander's response to an access of a command comes later than RESP_LIMIT (R367): use number. -/
opaque respLate : Nat → Bool

/-- The byte that another device returns to a read that an engine makes over the fabric: use number, byte number. -/
opaque remoteByte : Nat → Nat → Byte

/-- How another device answers an engine's request: 0 OK, 3 ABORTED, 4 BANK_OFF, 5 POISONED in the code of R99. -/
opaque remoteStatus : Nat → Nat

/-- A byte of memory that a command writes with a value that the specification does not give: use number, byte
number. -/
opaque freeByte : Nat → Nat → Byte

/-- A free 32-bit value for a result that the specification does not state: use number. -/
opaque freeWord : Nat → Word

/-- Random bytes drawn by the active steward (R496, R497, R503): use number, byte number. -/
opaque randomByte : Nat → Nat → Byte

/-- The identity key's private number, derived by HKDF-SHA-512 (R496 gives no salt, label or length): which device secret
it derives from. -/
opaque identityKey : Nat → Nat

/-- Whether the image region reads back as it was programmed (R502: erasing, programming or reading back may fail): use
number. -/
opaque flashGood : Nat → Bool

/-- A register of the PCIe configuration space that R505 does not state: its offset. -/
opaque pcieReg : Nat → Word

/-- The offset of the control register of BAR2/3 in the Resizable BAR capability (R505, R508). -/
opaque rebarControl : Nat

/-- Bits of the TAP's instruction register beyond the two that IEEE 1149.1 requires (R520). -/
opaque tapIrExtra : Nat

/-- What an instruction word of the TAP selects (R520): 1 IDCODE, 2 a debug port, any other BYPASS. -/
opaque tapDecode : List Bool → Nat

/-- The secret number of an ECDSA signature (R499): use number. -/
opaque ecdsaNonce : Nat → Nat

/-- The Fenand release key whose hash both ROMs hold (R488): the affine coordinates of the point. -/
opaque releaseKeyX : Nat

/-- The second coordinate of the Fenand release key (R488). -/
opaque releaseKeyY : Nat

/-- The factory serial number (identity page, from flash). -/
opaque serialNumber : Nat

/-- LOG2 of a zero or of a negative number (R142, R143 state no result), by the operand's FP32 word. -/
opaque log2Open : Word → Word

/-- SILU of minus infinity (R143 states no result). -/
opaque siluOpen : Word

/-- CLAMP where IMM_A exceeds IMM_B or one of them is a NaN (R143 states no result): x, IMM_A, IMM_B. -/
opaque clampOpen : Word → Word → Word → Word

/-- The sign of MAX (true) or MIN (false) of two zeros of opposite signs (R143 states none), by the sign of x. -/
opaque zeroSign : Bool → Bool → Bool

/-- The 24-bit draw that the VU takes from a generator state for a stochastic rounding (R136, R137 give the form for
array lanes and for 32-bit draws). -/
opaque vuDraw24 : BitVec 64 → BitVec 24

/-- The CAUSE of a record that the steward makes of its own, where R437 or R480 names none. -/
opaque degradeCause : Nat

/-- The class of an error record where no rule states one (R420, R427): block type, cause. -/
opaque recordClass : Nat → Nat → Nat

/-- The length in ns of a pause that the specification only bounds: use number. -/
opaque pauseNs : Nat → Nat

/-- A measurement that the device makes by itself and no row delivers (RAIL_MV, RO_COUNT, CREDIT_RTT, the worst service times
of R368): page offset in register space, offset in the page, time. -/
opaque measured : Nat → Nat → Nat → Word

/-- Which way half a nanosecond rounds in TIME_OFFSET and PATH_DELAY (R392 states no rounding): up, by twice the value. -/
opaque halfUp : Int → Bool

/-- In whose subtree of a group's tree a rank lies, which R404 needs and no table of R398 gives: group, rank; 0 in none
of this device's children's, k + 1 in that of child k. -/
opaque shardChild : Nat → Nat → Nat

end Sys2Proof.Config
end

