-- ==== Sys2Proof/Machine/State.lean ====
section
/-!
DEFINITION. The state of the device: every register, memory, queue, counter and mode that the specification gives
it, as plain data, and the state right after a device reset (R477, R478). Registers stand in one table keyed by
their place in register space (R37), each unlisted one at the reset value of its page's table (Machine/Regs.lean);
what a chapter describes as a queue, a counter or a machine of its own is a structure below, and the registers
that show it are computed from it.
-/
namespace Sys2Proof.Machine

/-- Why a step stops the machine. The specification answers every access and every command, so no command of this
device stops it: the type has no constructor, and nothing raises one. -/
inductive Fault : Type
  deriving DecidableEq, Repr

/-- Why a command has no meaning here. -/
inductive Refusal where
  /-- An arm of `exec` that has no meaning yet; safe: the model claims nothing of it. -/
  | notModelled (mnemonic : String)
  /-- DBG_TCK while SEC_STATE.DEBUG is 1 and the TAP shifts or updates a register that reaches the steward debug
  port or the IEEE 1500 ports (R520): functions that the specification places outside the device's interface and
  does not describe. Raised by `execDbgTck`; safe: the model claims nothing of them. -/
  | debugPort
  deriving DecidableEq, Repr

/-- The response codes of R99. -/
inductive Status where
  | ok | delayed | refused | aborted | bankOff | poisoned | defect
  deriving DecidableEq, Repr

/-- The source that R460 keeps with a semaphore or a token: block type and instance, device, command tag. -/
structure Source where
  unit : Word
  node : Nat
  tag  : Tag
  deriving DecidableEq, Repr

/-- A semaphore (R73), with the source of its latest operation (R460). -/
structure Sem where
  count  : Nat
  poison : Bool
  src    : Source
  deriving DecidableEq, Repr

/-- The semaphores of a core or of an engine: those not listed hold `dflt`. -/
structure SemBank where
  dflt  : Sem
  cells : List (Nat × Sem)
  deriving DecidableEq, Repr

/-- A baton token (R82) and its passer (R460). -/
structure Token where
  value : Tag
  src   : Source
  deriving DecidableEq, Repr

/-- Who is answered when a semaphore operation has been applied (R92, R388). -/
inductive Reply where
  | slot (f : FrontId) (slot : Nat)
  | remote (port : NauloId) (node : DeviceId) (unit : Word) (xid : Nat)
  | nobody
  deriving DecidableEq, Repr

/-- A semaphore or baton operation on its way to its target (R74, R92). `ready` is the time from which it can be
applied, `port` the arrival port of R77. -/
structure SemMsg where
  ready  : Nat
  target : FrontId
  index  : Nat
  baton  : Bool
  sub    : Bool
  amount : Nat
  port   : Nat
  src    : Source
  reply  : Reply
  deriving DecidableEq, Repr

/-- Why a command's fetch failed (R94). -/
inductive FetchFail where
  | memory | address | bankOff | timeout
  deriving DecidableEq, Repr

/-- A command fetched and not yet dispatched (R97): its 16 words, or the failure of its fetch. -/
structure Fetched where
  words : List Word
  fail  : Option FetchFail
  deriving DecidableEq, Repr

/-- Where a command in flight stands (R98, R99). -/
inductive Phase where
  /-- in its queue, its wait not yet satisfied -/
  | waiting
  /-- its wait is over: it starts when its engine accepts it (R98) -/
  | ready
  /-- started by its engine, its work not yet ended -/
  | running
  /-- started by its engine, where it waits before its work: at the update gate, at a publish lock or for a parking slot
  (R248, R275, R286) -/
  | held
  /-- its work has ended with this status; it has not completed yet -/
  | ended (st : Status)
  /-- it has ended, and the `left` tokens of its pass wait for room in a baton (R84) -/
  | passing (st : Status) (left : Nat)
  deriving DecidableEq, Repr

/-- When a wait was first found unsatisfied (R459): stride count, ns since the tick, and time-base ns. -/
structure WaitStart where
  stride : Nat
  ns     : Nat
  at_    : Nat
  deriving DecidableEq, Repr

/-- The generator seeds in effect on a core or an engine since the latest tick (R135); none before the first. -/
structure Seeds where
  seed   : Nat
  domain : Nat
  stride : Nat
  deriving DecidableEq, Repr

/-- A command in flight (R98). -/
structure Slot where
  id          : Nat
  words       : List Word
  queue       : Nat
  phase       : Phase
  /-- the STEP_ID of the ledger at dispatch (R267) -/
  step        : Nat
  /-- the stride count when the command started -/
  startStride : Nat
  /-- the pages that latch at the command's end, by COUNTER_MODE at its start edge there (R46, R456) -/
  latches     : List Nat
  /-- since when its wait is unsatisfied (R459) -/
  waitFrom    : Option WaitStart
  /-- since when a publish lock holds its first read, at which entry, and whose lock (R248, R458) -/
  held        : Option (WaitStart × Nat × HubId)
  /-- the generator seeds in effect at its engine when it started; none before that (R233, R274) -/
  began       : Option Seeds
  /-- what the command read at its start, by number: descriptors, group registers, its schedule (R165, R271) -/
  memo        : List (Nat × List Word)
  deriving DecidableEq, Repr

/-- The STRIDE_WAIT at which dispatch stands (R93, R97): its words, whether its own wait is over, its status once it
has ended and only its post waits (R84), and the latch of R456. -/
structure StrideWaiter where
  words    : List Word
  waitDone : Bool
  ended    : Option (Status × Nat)
  latches  : List Nat
  waitFrom : Option WaitStart
  deriving DecidableEq, Repr

/-- A command front end (R95–R100). `slots` is in dispatch order. `retried` says that the next fetch has timed out
once (R90). `hold` is the hold it asserts, `seen` the one its stride master has received (R62). -/
structure Front where
  fetched    : List Fetched
  slots      : List Slot
  strideWait : Option StrideWaiter
  retried    : Bool
  hold       : Bool
  seen       : Bool
  slotWait   : Option WaitStart
  deriving DecidableEq, Repr

/-- The predictor counts of a layer (R222, R223). -/
structure PredLayer where
  audited     : Nat
  misses      : Nat
  lastAudited : Nat
  lastMisses  : Nat
  deriving DecidableEq, Repr

/-- The states of a memory segment (R308). -/
inductive SegPhase where
  | on | draining | off | waking
  deriving DecidableEq, Repr

/-- A segment: its state and the writes in flight, accepted and not yet in its arrays (R308, R310): offset in the memory
and bytes. WIF_COUNT shows their number. -/
structure Segm where
  phase : SegPhase
  wif   : List (Nat × List Byte)
  deriving DecidableEq, Repr

/-- A part of an array that may be faulty: a unit, the row check unit of a lane, the column check unit of a column
(R124, R425). -/
inductive ArrayPart where
  | unit (lane col : Fin 32)
  | rowCheck (lane : Fin 32)
  | colCheck (col : Fin 32)
  deriving DecidableEq, Repr

/-- A part of the array that adds `delta` units of 2^-280 to its accumulator in each chunk: a hardware fault, which the
comparisons of R126 find. -/
structure ArrayFault where
  core  : CoreId
  part  : ArrayPart
  delta : Int
  deriving DecidableEq, Repr

/-- A larder pending-read entry (R324): its block, and the requesters that joined it with their byte ranges. The first
256 of a die are its table; the others wait for an entry. -/
structure PendingRead where
  die     : LarderId
  block   : Nat
  /-- a bulk read made the entry or joined it -/
  bulk    : Bool
  readers : List (Block × Nat × Nat)
  /-- the proxy has answered its requesters on the die's behalf (R443 step 2) -/
  answered : Bool
  deriving DecidableEq, Repr

/-- Who is answered when a request that waited has been served. -/
inductive HeldReply where
  /-- the unit of this device that made it -/
  | unit
  /-- nobody: a record, whose writer goes on -/
  | nobody
  /-- the host, for a BAR2 access to this global address (R509) -/
  | host (ga : Nat)
  /-- another device, whose packet came through this port (R388) -/
  | packet (port : NauloId) (head : PacketHead)
  deriving DecidableEq, Repr

/-- A request that waits: at a pseudo-channel that is being retired (R349), on a way that is paused (R436, R441), or behind
an earlier request to its slow-tier block (R357). `fmt` is the format of a memory-side add (R351). -/
structure HeldReq where
  who  : Block
  tag  : Tag
  opc  : Nat
  cls  : SvcClass
  addr : Nat
  acc  : Access
  fmt  : Option Nat
  reply : HeldReply
  /-- the proxy has answered it on its block's behalf (R443 step 2) -/
  answered : Bool
  deriving DecidableEq, Repr

/-- A request of a command that waits, and has had its DELAYED notice (R364): requester, tag, address, and the
destination that gave the notice. -/
structure Noticed where
  who  : Block
  tag  : Tag
  addr : Nat
  dest : Block
  deriving DecidableEq, Repr

/-- A piece of a request at a CXL port (R357): transaction number, the request that it is a piece of, requester and
access; whether the transaction has been issued, and what the expander has answered. -/
structure CxlReq where
  xid  : Nat
  port : CxlId
  whole : Nat
  issued : Bool
  done : Option (Status × List Byte)
  who  : Block
  tag  : Tag
  cls  : SvcClass
  addr : Nat
  acc  : Access
  /-- when it left the port, against which RESP_LIMIT counts (R367) -/
  issuedAt : Nat
  /-- the proxy has answered it on the port's behalf (R443 step 2) -/
  answered : Bool
  /-- its requester has ended it (R90) -/
  lost     : Bool
  deriving DecidableEq, Repr

/-- A write of a DMA command to another device, not yet acknowledged (R335): its transaction, address and bytes, the
retries left to it, and whether it has failed and waits for its re-issue (R333). -/
structure DmaWrite where
  xid    : Nat
  addr   : Nat
  data   : List Byte
  left   : Nat
  failed : Bool
  deriving DecidableEq, Repr

/-- How a DMA command ends once every write it issued has been answered (R334, R335): with a status, or in a halt with
the last response, the cause, WRITE and the address of HALT_INFO. -/
inductive DmaStop where
  | ends (st : Status)
  | halts (st : Status) (cause : Nat) (write : Bool) (addr : Nat)
  deriving DecidableEq, Repr

/-- The state of a DMA command in progress (R330, R333): the bases that it was checked against, the pieces of the stream
done, the bytes of the next piece that have been read, whether a request was refused, the retries left to the request
that failed and waits for its re-issue, the writes to other devices not yet acknowledged, and how it ends after them. -/
structure DmaRun where
  slot    : Nat
  src     : Nat
  dst     : Nat
  pos     : Nat
  got     : List Byte
  refused : Bool
  retry   : Option Nat
  owed    : List DmaWrite
  stop    : Option DmaStop
  deriving DecidableEq, Repr

/-- A request sent over the fabric and not yet answered (R388, R389). -/
inductive RemoteUse where
  /-- a SEM_OP of a ring -/
  | semOp (f : FrontId) (slot : Nat)
  /-- a write of a DMA channel (R335) -/
  | dmaWrite (c : CoreId) (ch : Fin 8)
  /-- a BAR2 read of the host -/
  | hostRead (bytes : Nat)
  /-- a BAR2 write of the host -/
  | hostWrite (addr bytes : Nat)
  deriving DecidableEq, Repr

/-- One entry of the table of requests outstanding on the fabric. -/
structure RemoteReq where
  xid  : Nat
  node : DeviceId
  port : NauloId
  use  : RemoteUse
  deriving DecidableEq, Repr

/-- A tick that the root has announced and not yet fired, or that a follower has received (R55, R58, R61). -/
structure PlannedTick where
  msg     : TickMsg
  stretch : Nat
  deriving DecidableEq, Repr

/-- The runtime of the stride master (R51–R72, R103); its registers stand in the register table. -/
structure StrideM where
  /-- 0 STOPPED, 1 ARMED, 2 RUNNING, 3 HELD, 4 HURDLE_WAIT -/
  state     : Nat
  count     : Nat
  /-- fire time of the latest tick -/
  lastFire  : Nat
  /-- the ticks announced, received or accepted, and not yet fired, oldest first -/
  next      : List PlannedTick
  /-- the planned fire time of the tick after the latest one, and the hold lead L sent with it -/
  planned   : Nat
  lead      : Nat
  /-- TICK_LEAD and HOLD_BUDGET in force at the announce of the latest tick (R61) -/
  tickLead  : Nat
  budget    : Nat
  /-- the latest tick fired was a hurdle tick (R65) -/
  afterHurdle : Bool
  /-- the next tick is the first after STOPPED, and the root's fire time of it (R532) -/
  first     : Bool
  startAt   : Nat
  /-- the hold point of the next tick has passed -/
  holdOpen  : Bool
  /-- STOP was written with a tick announced (R103) -/
  stopping  : Bool
  /-- the children that hold, with the FIRST_ID of their latest HOLD, oldest first (R395) -/
  childHolds : List (DeviceId × DeviceId)
  /-- the combined hold last reported upstream -/
  reported  : Bool
  /-- HOLD_SOURCES of the stretch in progress, and the FIRST_ID of the remote hold that took part in it first; before
  A(n+1) those of the holds that stand (R66) -/
  held      : Word
  firstHeld : Option DeviceId
  /-- rising edge of the latest accepted pulse; the input is stuck high or has not yet been low for 1,000 ns after
  that; its latest falling edge since then (R68, R70) -/
  lastPulse : Option Nat
  stuck     : Bool
  fell      : Option Nat
  missing   : Bool
  /-- STRIDE_OUT rises for the tick announced (R67) -/
  outDue    : Option (Nat × Nat × Bool)
  deriving DecidableEq, Repr

/-- The time alignment of a follower (R392, R393): when it sent its latest SYNC_REQ, the d of its last 16 samples, newest
first, the intervals since its latest accepted sample, and what it still has to slew. -/
structure SyncM where
  sentAt   : Nat
  delays   : List Int
  missed   : Nat
  /-- what the time base still has to slew, and since when -/
  slew     : Int
  slewAt   : Nat
  deriving DecidableEq, Repr

/-- One set of the ledger's flags and norm (R261–R263). `norm` counts units of 2^-280. -/
structure LedgerSet where
  skip      : Bool
  nonfinite : Bool
  sources   : BitVec 11
  norm      : Nat
  deriving DecidableEq, Repr

/-- The states of the ledger (R261). -/
inductive LedgerPhase where
  | open_ | voting | decided
  deriving DecidableEq, Repr

/-- The step ledger (R261–R268). -/
structure Ledger where
  stepId     : Nat
  phase      : LedgerPhase
  current    : LedgerSet
  next       : LedgerSet
  torn       : Bool
  committed  : Nat
  lastStep   : Nat
  /-- none before the first decision; true for COMMIT -/
  lastDecision : Option Bool
  norm       : Word
  voteStride : Nat
  lastFirst  : Option DeviceId
  /-- SKIP, NONFINITE, TORN and MISMATCH of the latest vote -/
  lastFlags  : Bool × Bool × Bool × Bool
  deriving DecidableEq, Repr

/-- What an engine has received of the latest decision (R265): whether there is one, step, COMMIT, COMMITTED and
NORM. -/
structure Decision where
  known     : Bool
  step      : Nat
  commit    : Bool
  committed : Nat
  norm      : Word
  deriving DecidableEq, Repr

/-- A list in an engine's publish queue (R247). -/
structure PubList where
  id     : Nat
  base   : Nat
  count  : Nat
  first  : Nat
  last   : Nat
  target : Nat
  late   : Bool
  /-- receivers that have not registered the lock yet -/
  waiting : List LockHolder
  /-- the command that arms it completes when every reply has arrived; none where it has been given up, and for a manual
  arming (R256) -/
  slot   : Option Nat
  /-- the status that this command has so far -/
  status : Status
  /-- it is armed by PUB_ARM_GO, which its last reply clears (R256) -/
  manual : Bool
  /-- CDs whose "old done" has arrived (R248) -/
  oldDone : List (Fin 16)
  /-- the tick of its target has fired -/
  fired  : Bool
  /-- time of that fire -/
  fireNs : Nat
  deriving DecidableEq, Repr

/-- A publish lock at a receiver (R248). -/
structure Lock where
  holder : LockHolder
  hub    : HubId
  id     : Nat
  first  : Nat
  last   : Nat
  target : Nat
  active : Bool
  /-- this CD has reported "old done" -/
  done   : Bool
  /-- old commands: those that had started when the lock became active and have not ended, by core and slot (R248) -/
  old    : List (Nat × Nat)
  deriving DecidableEq, Repr

/-- The parking ring's place (R283, R286); the slots themselves lie in HBM. `seen` is the hold that the stride master
has received (R62). -/
structure ParkRing where
  head  : Nat
  tail  : Nat
  used  : Nat
  /-- a PARK waits for a slot (R286), and since when -/
  hold  : Bool
  since : Nat
  seen  : Bool
  deriving DecidableEq, Repr

/-- A vote kept or combined for a child of a group (R533). -/
structure KeptVote where
  group : Fin 256
  child : DeviceId
  vote  : Contribution
  deriving DecidableEq, Repr

/-- A STEP_VOTE in progress (R413): its group's entry, the step and time of its sample, the children heard from or
stood in for, the combined vote, and when that was sent up. -/
structure VoteRun where
  slot     : Nat
  group    : Fin 256
  entry    : List Word
  step     : Nat
  sampled  : Nat
  combined : Contribution
  heard    : List DeviceId
  sent     : Option Nat
  deriving DecidableEq, Repr

/-- A segment that a collective has still to send: its data, or the global address and length that they are read from
when it leaves; for PERMUTE, the block of which it is the last piece. -/
structure OutSeg where
  dst      : DeviceId
  offset   : Nat
  addr     : Nat
  poisoned : Bool
  src      : Option (Nat × Nat)
  data     : List Byte
  block    : Option Nat
  deriving DecidableEq, Repr

/-- A collective in progress on a relay engine (R400–R415): the group entry, the member list and the descriptors read
at its start (SRC, DST, AUX, AUX2), and how far it has come. -/
structure CollRun where
  slot     : Nat
  group    : Fin 256
  kind     : Fin 16
  seqId    : Nat
  entry    : List Word
  members  : List Nat
  descs    : List (List Word)
  /-- time of the latest segment sent or received -/
  lastSeg  : Nat
  unsent   : List OutSeg
  /-- partials of children that wait for their chunk -/
  parts    : List Segment
  /-- elements reduced so far -/
  next     : Nat
  /-- elements of results or blocks received, bytes for PERMUTE -/
  got      : Nat
  /-- PERMUTE: offsets of the pieces that have arrived, blocks still to be read, pieces in the scratch: offset, length
  and place -/
  seen     : List Nat
  unread   : List Nat
  scratch  : List (Nat × Nat × Nat)
  /-- the status gathered so far -/
  status   : Status
  /-- a result element that is not finite was written (R406), and the sum of squares (R405) -/
  nf       : Bool
  sum      : Nat × Bool
  deriving DecidableEq, Repr

/-- A segment sent and not yet acknowledged (R414); `busy` says since when it waits for its resend. -/
structure SentSeg where
  xid    : Nat
  engine : RelayId
  dst    : DeviceId
  cls    : SvcClass
  seg    : Segment
  busy   : Option Nat
  deriving DecidableEq, Repr

/-- A segment that arrived before its command (R407, R414): `seg` without its data where they are written already,
their number of bytes, and what their write was answered. -/
structure EarlySeg where
  seg   : Segment
  bytes : Nat
  st    : Status
  deriving DecidableEq, Repr

/-- The running state of a relay engine. `combined` and `stood` hold, for each group and child, the step of the latest
vote combined or stood in for. -/
structure Relay where
  votes    : List KeptVote
  combined : List (Nat × DeviceId × Nat)
  stood    : List (Nat × DeviceId × Nat)
  vote     : Option VoteRun
  coll     : Option CollRun
  early    : List EarlySeg
  deriving DecidableEq, Repr

/-- An unacknowledged DATA flit in a port's replay buffer (R377): its sequence number, its units and how often it
has been sent. -/
structure ReplayFlit where
  seq   : Nat
  units : List (Fin 8 × List Byte)
  sends : Nat
  deriving DecidableEq, Repr

/-- The running state of a Naulo port (R371–R381). -/
structure NauloPort where
  /-- 0 DOWN, 1 TRAINING, 2 UP, 3 RETIRING -/
  state     : Nat
  active    : BitVec 4
  txSeq     : Nat
  rxNext    : Nat
  nakSent   : Bool
  replay    : List ReplayFlit
  ackMoved  : Nat
  /-- units sent, CREDIT_COUNT last received and units freed, for each virtual channel -/
  sent      : List Nat
  credit    : List Nat
  freed     : List Nat
  /-- units of packets not yet whole, for each virtual channel (R373) -/
  partials  : List (List (List Byte))
  /-- units waiting to leave, with their virtual channels (R375, R376) -/
  queue     : List (Fin 8 × List Byte)
  /-- the virtual channel of VCs 1, 2 and 6, and of VCs 3, 4 and 7, that was served last, and the slots in succession that
  VCs 0, 1, 2 and 6 have taken while another unit waited (R376) -/
  critTurn  : Nat
  bulkTurn  : Nat
  critRun   : Nat
  /-- the virtual channel whose counter the next flit carries (R375) -/
  creditTurn : Fin 8
  /-- lanes being retired, and since when; those that the peer has acknowledged (R380) -/
  retiring  : Option (BitVec 4 × Nat)
  retireAck : BitVec 4
  deriving DecidableEq, Repr

/-- An error record (R419), less the fields that the steward writes. -/
structure ErrRecord where
  seq    : Nat
  unit   : Block
  opcode : Nat
  tag    : Tag
  cause  : Nat
  merged : Nat
  stride : Nat
  ns     : Nat
  /-- temperature and rail of the unit's die -/
  temp   : Nat
  rail   : Nat
  syndrome : List Word
  /-- when the block sent it last (R421) -/
  sentAt : Nat
  /-- class that the maker gives a steward's own record (R437, R449); none: the steward classifies it -/
  cls    : Option Nat
  /-- the event of PC_CORR_LIMIT: more corrected symbols of a pseudo-channel in one second than it allows (R427) -/
  limit  : Bool
  deriving DecidableEq, Repr

/-- The units that the steward charges (R427). -/
inductive Unit_ where
  | lane (c : CoreId) (l : Fin 32)
  | column (c : CoreId) (u : Fin 32)
  | core (c : CoreId)
  | pc (s : StackId) (p : Fin 32)
  | nauloLane (p : NauloId) (l : Fin 4)
  | path (d : DieId) (k : Fin 4)
  | die (d : DieId)
  deriving DecidableEq, Repr

/-- The states of a unit (R428); CLEAR is the absence of an entry. -/
inductive UnitPhase where
  | handling | watch | suspect | retired | unretirable
  deriving DecidableEq, Repr

/-- An entry of the steward's unit table (R428). -/
structure UnitEntry where
  unit    : Unit_
  phase   : UnitPhase
  events  : Nat
  steps   : Nat
  /-- the margin step of a SUSPECT unit has taken effect -/
  stepped : Bool
  /-- every event since CLEAR named a BF16 or FP16 operand (R431) -/
  wide    : Bool
  /-- tag, stride and class of the events charged (R429) -/
  seen    : List (Tag × Nat × Nat)
  deriving DecidableEq, Repr

/-- The pending changes of a die (R435): retired lanes and columns of its cores, precision limits, power-down. -/
structure PendingChange where
  lanes   : List (CoreId × Word)
  columns : List (CoreId × Word)
  precision : List CoreId
  powerDown : List CoreId
  deriving DecidableEq, Repr

/-- The error queue and the pair of stewards (R421–R450). -/
structure Steward where
  queue     : List ErrRecord
  peak      : Nat
  seqNo     : Nat
  units     : List UnitEntry
  handling  : Option ErrRecord
  logBase   : Nat
  logLog2   : Nat
  activeSb  : Bool
  standbyOk : Bool
  failed    : Bool
  saPassed  : Bool
  sbPassed  : Bool
  missedBeats : Nat
  missedAcks  : Nat
  /-- a switch-over has been requested or detected, and when (R447) -/
  switching : Option Nat
  /-- SLACK samples of each die, newest first, and the samples still to be taken at a new margin (R439) -/
  slacks    : List (Nat × List Int)
  holdOff   : List (Nat × Nat)
  deriving DecidableEq, Repr

/-- A feed of a rail (R492–R495): within limits, in use, held out, whether FEED_LOST has been raised for its latest loss,
and the times of its latest losses, newest first. -/
structure Feed where
  good   : Bool
  ok     : Bool
  held   : Bool
  told   : Bool
  lostAt : List Nat
  deriving DecidableEq, Repr

/-- The filtered board inputs and their history (R500, R521). -/
structure Inputs where
  resetHeld    : Bool
  perst        : Bool
  presence     : Bool
  presenceAt   : Option Nat
  presenceStuck : Bool
  windowOpen   : Option Nat
  alarm        : Bool
  alarmPin     : Bool
  alarmAt      : List Nat
  alarmStuck   : Bool
  chatter      : Bool
  /-- when ALARM became asserted -/
  alarmSince   : Nat
  deriving DecidableEq, Repr

/-- The states of start-up (R478). -/
inductive BootPhase where
  | rom | identity | image | configure | test | ready | recovery
  deriving DecidableEq, Repr

/-- What stands in the flash (R482): the stream programmed into the image region (none where it is erased or a
programming of it failed), the owner record, the lifetime record, and what the factory record and the helper data hold. -/
structure Flash where
  image        : List Byte
  /-- none: the region is erased; some (stands, SHA-512 of the owner's key) otherwise -/
  owner        : Option (Bool × List Byte)
  lifetime     : List Nat
  restarted    : Bool
  lifetimeSeq  : Nat
  certValid    : Bool
  minSerial    : Nat
  /-- which secret the helper data wrap: how often a secret has been drawn (R496, R497) -/
  secretNo     : Nat
  /-- the helper data of SA and of SB reconstruct the secret -/
  pufGood      : Bool × Bool
  deriving DecidableEq, Repr

/-- What the device runs of its image (R491), and the security state. -/
structure Boot where
  phase       : BootPhase
  reason      : Nat
  secret      : Bool
  debug       : Bool
  nonce       : Option (List Byte)
  nodeId      : DeviceId
  hbmShared   : Nat
  serial      : Nat
  imageHash   : List Byte
  ownerKey    : List Byte
  subsys      : Nat
  bar2Sizes   : Nat
  bar2Default : Nat
  /-- DEVICE_CONFIG and the entries of REPAIR_MAP: KIND, die, UNIT, ITEM -/
  config      : List Byte
  repair      : List (Nat × Nat × Nat × Nat)
  /-- when start-up began, and whether a steward has passed ROM since power-on (R520) -/
  resetAt     : Nat
  romPassed   : Bool
  deriving DecidableEq, Repr

/-- The host port function (R505–R512): configuration space, base in force, MSI-X mask and pending bits. -/
structure HostPort where
  /-- BAR2 reads that wait until every earlier write has been answered (R509): global address, bytes -/
  reads      : List (Nat × Nat)
  bar2Base   : Nat
  bar2Size   : Nat
  bar2Resize : Option Nat
  memEnable  : Bool
  unmasked   : List Nat
  pendingMsi : List Nat
  config     : List (Nat × Word)
  deriving DecidableEq, Repr

/-- The TAP of IEEE 1149.1 (R520). -/
inductive TapState where
  | testLogicReset | runTestIdle | selectDr | captureDr | shiftDr | exit1Dr | pauseDr | exit2Dr | updateDr
  | selectIr | captureIr | shiftIr | exit1Ir | pauseIr | exit2Ir | updateIr
  deriving DecidableEq, Repr

/-- The instructions that the TAP offers (R520). -/
inductive TapInstr where
  | bypass | idcode | debugPort
  deriving DecidableEq, Repr

/-- The TAP: its state, instruction, shift registers and the level of DBG_TDO (none: high impedance). -/
structure Tap where
  state : TapState
  instr : TapInstr
  shift : List Bool
  ir    : List Bool
  tdo   : Option Bool
  deriving DecidableEq, Repr

/-- A trace record on its way to the collector: its 16 words and the data slots that follow it (R461, R462). -/
structure TraceRec where
  source : Block
  words  : List Word
  slots  : List (List Word)
  deriving DecidableEq, Repr

/-- The trace collector (R458–R465): the controls in force since the latest tick, the records queued at the sources
and the drops not yet reported. -/
structure Trace where
  en      : Bool
  kinds   : Word
  minNs   : Nat
  cores   : List Word
  engines : Word
  queued  : List TraceRec
  seq     : Nat
  drops   : Nat
  fullSeen : Bool
  deriving DecidableEq, Repr

/-- The running CRC of a check-value channel, and what CONTINUE carries on (R472). -/
structure CvChan where
  crc      : Nat
  expected : Nat
  last     : Option Nat
  /-- MODE, POLY and STREAM_ID of the latest job, when it ended DONE -/
  done     : Option (Nat × Nat × Nat)
  /-- the job has processed its range and has not ended yet: true for success -/
  finished : Option Bool
  deriving DecidableEq, Repr

/-- What leaves the device, or a unit of it, as a step acts: the lands and links of R1, and the responses that the
package network carries back to a requester. It is the model's record of its outputs, oldest first. -/
inductive Output where
  /-- a response to a unit's request -/
  | response (who : Block) (st : Status) (data : List Byte)
  /-- one response packet of a larder die for several cores of a CD die, with the mask of their positions (R325); the
  copies that the die's router hands out follow as responses -/
  | shared (die : Fin 16) (mask : BitVec 8) (st : Status) (data : List Byte)
  /-- a PCIe completion with data: successful, and whether marked poisoned (R509) -/
  | hostData (poisoned : Bool) (data : List Byte)
  | hostAbort
  | hostRetry
  | msix (vector : Nat)
  /-- packets of the fabric (R383), by the port that they leave through -/
  | packet (port : NauloId) (op : Nat) (vc : Nat) (head : PacketHead) (extra : List Nat) (data : List Byte)
  | tick (dst : DeviceId) (m : TickMsg)
  | hold (dst : DeviceId) (stride : Nat) (v : Bool) (first : DeviceId)
  | syncReq (dst : DeviceId) (t1 : Nat)
  | syncResp (dst : DeviceId) (t1 t2 t3 : Nat)
  | vote (dst : DeviceId) (group : Nat) (v : Contribution)
  | voteResult (dst : DeviceId) (group : Nat) (v : Contribution) (voteStride : Nat)
  /-- a flit of a Naulo port, and the bytes that each active lane carries of it (R370, R372) -/
  | flit (port : NauloId) (f : Flit) (lanes : List (Fin 4 × List Byte))
  /-- CXL.mem transactions (R357): 0 MemRd, 1 MemWr, 2 MemWrPtl -/
  | cxl (port : CxlId) (kind : Nat) (xid : Nat) (addr : Nat) (data : List Byte)
  /-- a pulse of STRIDE_OUT: rising edge, width (R67) -/
  | strideOut (rise width : Nat)
  /-- a replay of package-network flits (R12) -/
  | replay (die : DieId) (link : Fin 4)
  | thermTrip
  deriving DecidableEq, Repr

/-- A package-network path as it arrives at a die (R12, R441): free spare wires, half width, LINK_FATAL, stopped, since
when it pauses for a wire change, the CRC errors of the millisecond in progress (its start, the count), and those of one
flit in succession (time of the latest, count). -/
structure PathState where
  spares : Nat
  half   : Bool
  fatal  : Bool
  stopped : Bool
  paused : Option Nat
  errs   : Nat × Nat
  run    : Nat × Nat
  deriving DecidableEq, Repr

/-- The state of the device. -/
structure State where
  /-- commands waiting, first in first out: the model's own queue -/
  pending  : List Instr
  /-- the time base in ns (R24) -/
  now      : Nat
  /-- the model's own counter: how many free values have been used -/
  fresh    : Nat
  /-- the model's own record of what left the device -/
  outputs  : List Output
  /-- registers, by their offset in register space (R37) -/
  regs     : List (Nat × Word)
  /-- registers that show a device's own value kept beside a write, by offset: the high-word shadows of R50 -/
  shadows  : List (Nat × Word)
  /-- always-on counters, by page × 24 + k (R453), and the latched set of R454 -/
  counters : List (Nat × Nat)
  latched  : List (Nat × Nat)
  /-- memory, by local address (R25): HBM, the larder, the core memories, the slow tier -/
  mem      : List Host.Cell
  /-- addresses of core-memory bytes with a bad parity bit (R304) -/
  badParity : List Nat
  /-- error patterns in stored larder words, by word address (R320), and HBM blocks, by block address (R344) -/
  larderFlips : List (Nat × BitVec 44)
  hbmFlips : List (Nat × BitVec 640)
  /-- slow-tier blocks that the expander holds poisoned, by local address (R358) -/
  slowPoison : List Nat
  /-- the model's own counter of device resets, which free contents of memories depend on -/
  epoch    : Nat
  /-- semaphores, batons and operations on their way -/
  banks    : List (Nat × SemBank)
  batons   : List (Nat × List Token)
  semMsgs  : List SemMsg
  /-- cores whose semaphore memory is being filled, with VALUE (R80) -/
  filling  : List (Nat × Nat)
  /-- first poisoning still shown in FIRST_POISON, by core: tag and index -/
  firstPoison : List (Nat × (Tag × Nat))
  fronts   : List (Nat × Front)
  /-- generator seeds in effect, by core, and beats since the latest tick, by lane ID (R135, R136) -/
  seeds    : List (Nat × Seeds)
  beats    : List (Nat × Nat)
  preds    : List (Nat × PredLayer)
  segms    : List (Nat × Segm)
  arrayFaults : List ArrayFault
  /-- committed table base and LOG2 of the hub and port engines, by front number (R294) -/
  tables   : List (Nat × (Nat × Nat))
  pendingReads : List PendingRead
  retiringPc : List (Nat × Nat)
  /-- requests that wait, in the order of their arrival, and those of commands that have had their notice (R364) -/
  held     : List HeldReq
  noticed  : List Noticed
  /-- the block of which a coming request receives no response, and the number of its requests before that one (R90): the
  model's own -/
  lapse    : Option (Block × Nat)
  cxlReqs  : List CxlReq
  cxlXid   : Nat
  /-- symbols corrected in the second in progress, by stack × 32 + pseudo-channel: its start, the count (R427) -/
  pcCorr   : List (Nat × (Nat × Nat))
  dmas     : List (Nat × DmaRun)
  remotes  : List RemoteReq
  xid      : Nat
  stride   : StrideM
  sync     : SyncM
  /-- route masks, by device ID (R384) -/
  routes   : List (Nat × BitVec 16)
  lost     : List DeviceId
  ledger   : Ledger
  /-- decisions on their way, and the latest one each engine holds, by engine (hub 0–3, slow 4–5) -/
  decisionMsgs : List (Nat × Decision)
  decisions : List (Nat × Decision)
  pubs     : List (Nat × List PubList)
  pubNext  : Nat
  locks    : List Lock
  lockMsgs : List Lock
  oldMsgs  : List (Fin 16 × HubId × Nat)
  unlockMsgs : List (LockHolder × HubId × Nat)
  parks    : List (Nat × ParkRing)
  relays   : List (Nat × Relay)
  sentSegs : List SentSeg
  nauloPorts : List (Nat × NauloPort)
  /-- locations whose failure has already made an event, and which nothing has rewritten since (R418): local address
  of the byte, the larder word or the HBM block -/
  reported : List Nat
  /-- error records waiting at their blocks, by page offset (R421) -/
  records  : List (Nat × ErrRecord)
  /-- events already recorded: page offset, cause, tag, stride (R418) -/
  events   : List (Nat × Nat × Tag × Nat)
  steward  : Steward
  changes  : List (Nat × PendingChange)
  /-- dies paused for a rail or clock change: since when, and the longest pause (R436) -/
  relocks  : List (Nat × (Nat × Nat))
  /-- blocks being soft-reset, and blocks fenced by the proxy for their core, their die or a soft reset, by page -/
  resetting : List Nat
  /-- a step has closed since the latest tick (R435) -/
  replan   : Bool
  feeds    : List (Nat × Feed)
  throttleUntil : Option Nat
  inputs   : Inputs
  /-- samples in succession at or above the trip limit, by die or 48 + stack (R526) -/
  hotRuns  : List (Nat × Nat)
  tripped  : Bool
  flash    : Flash
  boot     : Boot
  host     : HostPort
  resetReq : Option Nat
  tap      : Tap
  trace    : Trace
  cvs      : List (Nat × CvChan)
  /-- package-network paths, by die × 4 + link -/
  paths    : List (Nat × PathState)
  deriving DecidableEq, Repr

/-- A path at reset: no spare wire taken. -/
def PathState.reset : PathState :=
  { spares := 64, half := false, fatal := false, stopped := false, paused := none, errs := (0, 0), run := (0, 0) }

/-- No source: no operation has been applied yet. -/
def Source.none : Source := { unit := 0, node := 0, tag := 0 }

/-- A semaphore at reset: count 0, not poisoned (R535). -/
def Sem.reset : Sem := { count := 0, poison := false, src := Source.none }

/-- A semaphore bank at reset. -/
def SemBank.reset : SemBank := { dflt := Sem.reset, cells := [] }

/-- A front end at reset: nothing fetched, nothing in flight. -/
def Front.reset : Front :=
  { fetched := [], slots := [], strideWait := none, retried := false, hold := false, seen := false,
    slotWait := none }

/-- Seeds before the first tick. -/
def Seeds.reset : Seeds := { seed := 0, domain := 0, stride := 0 }

/-- A predictor layer at reset. -/
def PredLayer.reset : PredLayer := { audited := 0, misses := 0, lastAudited := 0, lastMisses := 0 }

/-- A segment at reset: ON (R308). -/
def Segm.reset : Segm := { phase := .on, wif := [] }

/-- A DMA channel with no command. -/
def DmaRun.reset : DmaRun :=
  { slot := 0, src := 0, dst := 0, pos := 0, got := [], refused := false, retry := none, owed := [], stop := none }

/-- The stride master at reset: STOPPED, count 0 (R51). -/
def StrideM.reset : StrideM :=
  { state := 0, count := 0, lastFire := 0, next := [], planned := 0, lead := 0, tickLead := 0, budget := 0,
    afterHurdle := false, first := false, startAt := 0, holdOpen := false, stopping := false, childHolds := [],
    reported := false, held := 0, firstHeld := none, lastPulse := none, stuck := false, fell := none, missing := false, outDue := none }

/-- Time alignment at reset. -/
def SyncM.reset : SyncM := { sentAt := 0, delays := [], missed := 0, slew := 0, slewAt := 0 }

/-- A ledger set with nothing in it. -/
def LedgerSet.clear : LedgerSet := { skip := false, nonfinite := false, sources := 0, norm := 0 }

/-- The ledger at device reset (R261). -/
def Ledger.reset : Ledger :=
  { stepId := 0, phase := .open_, current := LedgerSet.clear, next := LedgerSet.clear, torn := false,
    committed := 0, lastStep := 0, lastDecision := none, norm := 0, voteStride := 0, lastFirst := none,
    lastFlags := (false, false, false, false) }

/-- No decision received. -/
def Decision.reset : Decision := { known := false, step := 0, commit := false, committed := 0, norm := 0 }

/-- An empty parking ring. -/
def ParkRing.reset : ParkRing := { head := 0, tail := 0, used := 0, hold := false, since := 0, seen := false }

/-- A relay engine at reset. -/
def Relay.reset : Relay := { votes := [], combined := [], stood := [], vote := none, coll := none, early := [] }

/-- A Naulo port at reset: DOWN, every sequence number and counter zero (R371). -/
def NauloPort.reset : NauloPort :=
  { state := 0, active := 0, txSeq := 0, rxNext := 0, nakSent := false, replay := [], ackMoved := 0,
    sent := [0, 0, 0, 0, 0, 0, 0, 0], credit := [0, 0, 0, 0, 0, 0, 0, 0], freed := [0, 0, 0, 0, 0, 0, 0, 0],
    partials := [[], [], [], [], [], [], [], []], queue := [],
    critTurn := 6, bulkTurn := 7, critRun := 0, creditTurn := 0, retiring := none, retireAck := 0 }

/-- No change pending on a die. -/
def PendingChange.reset : PendingChange := { lanes := [], columns := [], precision := [], powerDown := [] }

/-- The stewards at reset: SA active until ROM has chosen (R478), an empty queue, the log ring at base 0. -/
def Steward.reset : Steward :=
  { queue := [], peak := 0, seqNo := 0, units := [], handling := none, logBase := 0, logLog2 := 6,
    activeSb := false, standbyOk := true, failed := false, saPassed := false, sbPassed := false, missedBeats := 0,
    missedAcks := 0, switching := none, slacks := [], holdOff := [] }

/-- A feed before CONFIGURE has found it. -/
def Feed.reset : Feed := { good := false, ok := false, held := false, told := true, lostAt := [] }

/-- The board inputs at reset: nothing asserted. -/
def Inputs.reset : Inputs :=
  { resetHeld := false, perst := false, presence := false, presenceAt := none, presenceStuck := false,
    windowOpen := none, alarm := false, alarmPin := false, alarmAt := [], alarmStuck := false, chatter := false,
    alarmSince := 0 }

/-- The flash that nothing has programmed: erased, and enrolled at the factory (R490, R496). -/
def Flash.reset : Flash :=
  { image := [], owner := none, lifetime := [0, 0, 0, 0, 0, 0, 0, 0], restarted := false,
    lifetimeSeq := 0, certValid := true, minSerial := 0, secretNo := 0, pufGood := (true, true) }

/-- The device at the start of start-up (R478): the state ROM. -/
def Boot.reset : Boot :=
  { phase := .rom, reason := 0, secret := false, debug := false, nonce := none, nodeId := 0, hbmShared := 0,
    serial := 0, imageHash := [], ownerKey := [], subsys := 0, bar2Sizes := 1, bar2Default := 0, config := [],
    repair := [], resetAt := 0, romPassed := false }

/-- The host port at reset (R508): BAR2 at the start of the larder. -/
def HostPort.reset : HostPort :=
  { reads := [], bar2Base := 0x010000000000, bar2Size := 0, bar2Resize := none, memEnable := false,
    unmasked := [], pendingMsi := [], config := [] }

/-- The TAP at reset. -/
def Tap.reset : Tap := { state := .testLogicReset, instr := .idcode, shift := [], ir := [], tdo := none }

/-- The trace collector at reset: off. -/
def Trace.reset : Trace :=
  { en := false, kinds := 0, minNs := 1000, cores := [0, 0, 0, 0], engines := 0, queued := [], seq := 0,
    drops := 0, fullSeen := false }

/-- A check-value channel at reset. -/
def CvChan.reset : CvChan := { crc := 0, expected := 0, last := none, done := none, finished := none }

/-- The machine right after a device reset (R477): every register at its page's reset value, the memories as R535
leaves them, nothing in flight, start-up in its first state. -/
def State.reset : State :=
  { pending := [], now := 0, fresh := 0, outputs := [], regs := [], shadows := [], counters := [], latched := [],
    mem := [], badParity := [], larderFlips := [], hbmFlips := [], slowPoison := [], epoch := 0, banks := [],
    batons := [], semMsgs := [],
    filling := [], firstPoison := [], fronts := [], seeds := [], beats := [], preds := [], segms := [],
    arrayFaults := [], tables := [], pendingReads := [], retiringPc := [], held := [],
    noticed := [], lapse := none, cxlReqs := [], cxlXid := 0, pcCorr := [], dmas := [],
    remotes := [], xid := 0, stride := StrideM.reset, sync := SyncM.reset, routes := [], lost := [],
    ledger := Ledger.reset, decisionMsgs := [], decisions := [], pubs := [], pubNext := 0, locks := [],
    lockMsgs := [], oldMsgs := [], unlockMsgs := [], parks := [], relays := [], sentSegs := [], nauloPorts := [],
    reported := [], records := [], events := [], steward := Steward.reset, changes := [], relocks := [], resetting := [],
    replan := false,
    feeds := [], throttleUntil := none, inputs := Inputs.reset, hotRuns := [], tripped := false,
    flash := Flash.reset, boot := Boot.reset, host := HostPort.reset, resetReq := none, tap := Tap.reset,
    trace := Trace.reset, cvs := [], paths := [] }

end Sys2Proof.Machine
end

