-- ==== Sys2Proof/Machine/Table.lean ====
section
/-!
DEFINITION. Sparse tables: a list of (key, value) pairs with rising keys, in which no key stands with the value that
an unlisted key reads as. Registers, counters, memory bytes and the per-unit structures of State are held so.
-/
namespace Sys2Proof.Machine

/-- The value at key `k`; `d` where the key is not listed. -/
def tget {α : Type} (d : α) : List (Nat × α) → Nat → α
  | [], _ => d
  | (j, v) :: t, k => if j = k then v else if k < j then d else tget d t k

/-- Put `v` at key `k`, in the canonical form whose unlisted value at `k` is `d`. -/
def tset {α : Type} [DecidableEq α] (d : α) : List (Nat × α) → Nat → α → List (Nat × α)
  | [], k, v => if v = d then [] else [(k, v)]
  | (j, w) :: t, k, v =>
    if k < j then (if v = d then (j, w) :: t else (k, v) :: (j, w) :: t)
    else if j = k then (if v = d then t else (k, v) :: t)
    else (j, w) :: tset d t k v

/-- The canonical form: keys strictly rising from `lo`, and no entry equal to its key's unlisted value. -/
def twfFrom {α : Type} [DecidableEq α] (d : Nat → α) : Nat → List (Nat × α) → Bool
  | _, [] => true
  | lo, (k, v) :: t => decide (lo ≤ k) && decide (v ≠ d k) && twfFrom d (k + 1) t

/-- The canonical form of a whole table. -/
def twf {α : Type} [DecidableEq α] (d : Nat → α) (l : List (Nat × α)) : Bool := twfFrom d 0 l

/-- Insert a number into a sorted list without repeats. -/
def sinsert : List Nat → Nat → List Nat
  | [], k => [k]
  | j :: t, k => if k < j then k :: j :: t else if j = k then j :: t else j :: sinsert t k

/-- Remove a number from a list. -/
def sremove (l : List Nat) (k : Nat) : List Nat := l.filter (fun j => j ≠ k)

/-- The bits `hi : lo` of a word, as a number. -/
def bits (w : Word) (hi lo : Nat) : Nat := (w.toNat >>> lo) % 2 ^ (hi - lo + 1)

/-- One bit of a word. -/
def bit (w : Word) (i : Nat) : Bool := w.getLsbD i

/-- The word `w` with the bits `hi : lo` replaced by `v`. -/
def withBits (w : Word) (hi lo v : Nat) : Word :=
  let m : Nat := (2 ^ (hi - lo + 1) - 1) <<< lo
  BitVec.ofNat 32 ((w.toNat &&& (0xFFFFFFFF ^^^ m)) ||| ((v <<< lo) &&& m))

/-- The word `w` with bit `i` set to `b`. -/
def withBit (w : Word) (i : Nat) (b : Bool) : Word := withBits w i i (if b then 1 else 0)

/-- A word from a number, modulo 2^32. -/
def wordOf (n : Nat) : Word := BitVec.ofNat 32 n

/-- The high half of a 64-bit number as a word. -/
def wordHi (n : Nat) : Word := BitVec.ofNat 32 (n / 2 ^ 32)

/-- A signed number in two's complement of `w` bits (R87, R159). -/
def signed (w n : Nat) : Int := if n < 2 ^ (w - 1) then (n : Int) else (n : Int) - 2 ^ w

/-- A number read from bytes, least significant first (R3). -/
def leNat : List Byte → Nat
  | [] => 0
  | b :: t => b.toNat + 256 * leNat t

/-- `n` bytes of a number, least significant first (R3). -/
def leBytes : Nat → Nat → List Byte
  | 0, _ => []
  | n + 1, v => BitVec.ofNat 8 v :: leBytes n (v / 256)

/-- The words of a byte list, 4 bytes each (R3). -/
def wordsOf (n : Nat) (l : List Byte) : List Word :=
  (List.range n).map (fun i => wordOf (leNat ((l.drop (4 * i)).take 4)))

/-- The bytes of a list of words (R3). -/
def bytesOf (l : List Word) : List Byte := l.flatMap (fun w => leBytes 4 w.toNat)

/-- Word `n` of a list; zero past its end. -/
def wordAt (l : List Word) (n : Nat) : Word := l.getD n 0

/-- The largest of a list; `d` for none. -/
def maxOf (d : Nat) (l : List Nat) : Nat := l.foldl Nat.max d

/-- Element `i` of a list replaced. -/
def setAt {α : Type} (l : List α) (i : Nat) (v : α) : List α := l.set i v

/-- Round `n` up to a multiple of 64 (R205, R227). -/
def r64 (n : Nat) : Nat := (n + 63) / 64 * 64

/-- Quotient rounded up. -/
def cdiv (a b : Nat) : Nat := (a + b - 1) / b

end Sys2Proof.Machine
end

