-- ==== Sys2Proof/Machine/Regs.lean ====
section
/-!
DEFINITION. Register pages: the place of every block's page in register space (R37–R40, R528), the offsets of its
registers, and for each of them the bits that a plain write changes and the reset value (the register tables of every
chapter). A bit of access RO, WO, W1C or RW1S is not in the write mask: what a write of it does stands with the
block's behaviour (Machine/Bus.lean). A value 'as recorded', 'from image' or 'from flash' is the one that CONFIGURE
and IDENTITY put there; before them it reads zero (assumption 12).
-/
namespace Sys2Proof.Machine

/-- A register, or `count` registers `step` bytes apart: offset in its page, write mask, reset value. -/
structure RegRow where
  off   : Nat
  count : Nat
  step  : Nat
  mask  : Nat
  reset : Nat
  deriving DecidableEq, Repr

/-! The common header (R40–R50). -/
namespace Reg.Hdr
abbrev ID : Nat := 0x000
abbrev VERSION : Nat := 0x004
abbrev CTRL : Nat := 0x008
abbrev STATUS : Nat := 0x00C
abbrev ERR_STATUS : Nat := 0x010
abbrev ERR_ENABLE : Nat := 0x014
abbrev ERR_FIRST : Nat := 0x018
abbrev ERR_COUNT : Nat := 0x01C
abbrev LATCH_CTRL : Nat := 0x020
abbrev LATCH_TAG : Nat := 0x024
abbrev LATCH_STRIDE_LO : Nat := 0x028
abbrev LATCH_STRIDE_HI : Nat := 0x02C
abbrev LATCH_NS : Nat := 0x030
end Reg.Hdr

/-- The common header: CTRL and ERR_STATUS have behaviours of their own; the counters of 0x040–0x0FF stand in
`State.counters`. -/
def headerRows : List RegRow := [
  ⟨Reg.Hdr.ID, 1, 0, 0, 0⟩,
  ⟨Reg.Hdr.VERSION, 1, 0, 0, 0x01000000⟩,
  ⟨Reg.Hdr.CTRL, 1, 0, 0xD, 0⟩,
  ⟨Reg.Hdr.STATUS, 1, 0, 0, 0⟩,
  ⟨Reg.Hdr.ERR_STATUS, 1, 0, 0, 0⟩,
  ⟨Reg.Hdr.ERR_ENABLE, 1, 0, 0xFFFFFFFF, 0xFFFFFFFF⟩,
  ⟨Reg.Hdr.ERR_FIRST, 1, 0, 0, 0⟩,
  ⟨Reg.Hdr.ERR_COUNT, 1, 0, 0, 0⟩,
  ⟨Reg.Hdr.LATCH_CTRL, 1, 0, 0x2, 0⟩,
  ⟨Reg.Hdr.LATCH_TAG, 1, 0, 0, 0⟩,
  ⟨Reg.Hdr.LATCH_STRIDE_LO, 1, 0, 0, 0⟩,
  ⟨Reg.Hdr.LATCH_STRIDE_HI, 1, 0, 0, 0⟩,
  ⟨Reg.Hdr.LATCH_NS, 1, 0, 0, 0⟩]

/-! The CP page and front ends (R100): offsets 0x100–0x147. -/
namespace Reg.Cp
abbrev RING_BASE_LO : Nat := 0x100
abbrev RING_BASE_HI : Nat := 0x104
abbrev RING_SIZE : Nat := 0x108
abbrev RING_CTRL : Nat := 0x10C
abbrev RING_HEAD : Nat := 0x110
abbrev RING_TAIL : Nat := 0x114
abbrev LOOP_START : Nat := 0x118
abbrev INFLIGHT : Nat := 0x11C
abbrev CQ_BASE_LO : Nat := 0x120
abbrev CQ_BASE_HI : Nat := 0x124
abbrev CQ_SIZE : Nat := 0x128
abbrev CQ_HEAD : Nat := 0x12C
abbrev CQ_TAIL : Nat := 0x130
abbrev CQ_CTRL : Nat := 0x134
abbrev STRIDE_BASE_LO : Nat := 0x138
abbrev STRIDE_BASE_HI : Nat := 0x13C
abbrev HOLD_STATE : Nat := 0x140
abbrev DEFECT_TAG : Nat := 0x144
end Reg.Cp

/-- Write masks and reset values of the CP page and front ends (R100): offsets 0x100–0x147. -/
def frontRows : List RegRow := [
  ⟨Reg.Cp.RING_BASE_LO, 1, 0, 0xFFFFFFC0, 0x0⟩,
  ⟨Reg.Cp.RING_BASE_HI, 1, 0, 0xFFFF, 0x0⟩,
  ⟨Reg.Cp.RING_SIZE, 1, 0, 0x1F, 0x6⟩,
  ⟨Reg.Cp.RING_CTRL, 1, 0, 0x3, 0x2⟩,
  ⟨Reg.Cp.RING_HEAD, 1, 0, 0x0, 0x0⟩,
  ⟨Reg.Cp.RING_TAIL, 1, 0, 0xFFFFFFFF, 0x0⟩,
  ⟨Reg.Cp.LOOP_START, 1, 0, 0xFFFFFFFF, 0x0⟩,
  ⟨Reg.Cp.INFLIGHT, 1, 0, 0x0, 0x0⟩,
  ⟨Reg.Cp.CQ_BASE_LO, 1, 0, 0xFFFFFFF0, 0x0⟩,
  ⟨Reg.Cp.CQ_BASE_HI, 1, 0, 0xFFFF, 0x0⟩,
  ⟨Reg.Cp.CQ_SIZE, 1, 0, 0x1F, 0x6⟩,
  ⟨Reg.Cp.CQ_HEAD, 1, 0, 0xFFFFFFFF, 0x0⟩,
  ⟨Reg.Cp.CQ_TAIL, 1, 0, 0x0, 0x0⟩,
  ⟨Reg.Cp.CQ_CTRL, 1, 0, 0x7FF0001, 0x0⟩,
  ⟨Reg.Cp.STRIDE_BASE_LO, 1, 0, 0x0, 0x0⟩,
  ⟨Reg.Cp.STRIDE_BASE_HI, 1, 0, 0x0, 0x0⟩,
  ⟨Reg.Cp.HOLD_STATE, 1, 0, 0x0, 0x0⟩,
  ⟨Reg.Cp.DEFECT_TAG, 1, 0, 0x0, 0x0⟩]

/-! The semaphore memory page. -/
namespace Reg.Sm
abbrev SEM_INDEX : Nat := 0x100
abbrev SEM_DATA : Nat := 0x104
abbrev SEM_FILL : Nat := 0x108
abbrev POISON_COUNT : Nat := 0x10C
abbrev FIRST_POISON : Nat := 0x110
abbrev FAULT_INFO : Nat := 0x114
abbrev FAULT_DELTA : Nat := 0x118
abbrev BATON_LEVEL : Nat := 0x120
abbrev BATON_PASS : Nat := 0x160
abbrev BATON_POP : Nat := 0x164
abbrev BATON_TOKEN : Nat := 0x168
end Reg.Sm

/-- Write masks and reset values of the semaphore memory page. -/
def semRows : List RegRow := [
  ⟨Reg.Sm.SEM_INDEX, 1, 0, 0xFFF, 0x0⟩,
  ⟨Reg.Sm.SEM_DATA, 1, 0, 0xFFFFFFFF, 0x0⟩,
  ⟨Reg.Sm.SEM_FILL, 1, 0, 0x0, 0x0⟩,
  ⟨Reg.Sm.POISON_COUNT, 1, 0, 0x0, 0x0⟩,
  ⟨Reg.Sm.FIRST_POISON, 1, 0, 0x0, 0x0⟩,
  ⟨Reg.Sm.FAULT_INFO, 1, 0, 0x0, 0x0⟩,
  ⟨Reg.Sm.FAULT_DELTA, 1, 0, 0x0, 0x0⟩,
  ⟨Reg.Sm.BATON_LEVEL, 16, 4, 0x0, 0x0⟩,
  ⟨Reg.Sm.BATON_PASS, 1, 0, 0x0, 0x0⟩,
  ⟨Reg.Sm.BATON_POP, 1, 0, 0x0, 0x0⟩,
  ⟨Reg.Sm.BATON_TOKEN, 1, 0, 0x0, 0x0⟩]

/-! The stride master page. -/
namespace Reg.Str
abbrev STRIDE_CTRL : Nat := 0x100
abbrev STRIDE_PERIOD : Nat := 0x104
abbrev TICK_LEAD : Nat := 0x108
abbrev HOLD_BUDGET : Nat := 0x10C
abbrev HOLD_LEAD : Nat := 0x110
abbrev PIN_CTRL : Nat := 0x114
abbrev PIN_OUT_LEAD : Nat := 0x118
abbrev PIN_FIRE_DELAY : Nat := 0x11C
abbrev STRIDE_STATE : Nat := 0x120
abbrev STRIDE_COUNT_LO : Nat := 0x124
abbrev STRIDE_COUNT_HI : Nat := 0x128
abbrev START_AT_LO : Nat := 0x12C
abbrev START_AT_HI : Nat := 0x130
abbrev LAST_STRETCH : Nat := 0x134
abbrev HOLD_SOURCES : Nat := 0x138
abbrev FIRST_HOLD_DEVICE : Nat := 0x13C
end Reg.Str

/-- Write masks and reset values of the stride master page. -/
def strideRows : List RegRow := [
  ⟨Reg.Str.STRIDE_CTRL, 1, 0, 0x4B, 0x0⟩,
  ⟨Reg.Str.STRIDE_PERIOD, 1, 0, 0x3FFFFFF, 0xF4240⟩,
  ⟨Reg.Str.TICK_LEAD, 1, 0, 0xFFFFF, 0x1F40⟩,
  ⟨Reg.Str.HOLD_BUDGET, 1, 0, 0x3FFFFFF, 0x4E20⟩,
  ⟨Reg.Str.HOLD_LEAD, 1, 0, 0xFFFFF, 0xFA0⟩,
  ⟨Reg.Str.PIN_CTRL, 1, 0, 0x3, 0x0⟩,
  ⟨Reg.Str.PIN_OUT_LEAD, 1, 0, 0xFFFFF, 0x7D0⟩,
  ⟨Reg.Str.PIN_FIRE_DELAY, 1, 0, 0xFFFFF, 0x3E8⟩,
  ⟨Reg.Str.STRIDE_STATE, 1, 0, 0x0, 0x0⟩,
  ⟨Reg.Str.STRIDE_COUNT_LO, 1, 0, 0xFFFFFFFF, 0x0⟩,
  ⟨Reg.Str.STRIDE_COUNT_HI, 1, 0, 0xFFFFFFFF, 0x0⟩,
  ⟨Reg.Str.START_AT_LO, 1, 0, 0xFFFFFFFF, 0x0⟩,
  ⟨Reg.Str.START_AT_HI, 1, 0, 0xFFFFFFFF, 0x0⟩,
  ⟨Reg.Str.LAST_STRETCH, 1, 0, 0x0, 0x0⟩,
  ⟨Reg.Str.HOLD_SOURCES, 1, 0, 0x0, 0x0⟩,
  ⟨Reg.Str.FIRST_HOLD_DEVICE, 1, 0, 0x0, 0x0⟩]

/-! The array page. -/
namespace Reg.Arr
abbrev CHECK_CTRL : Nat := 0x100
abbrev CHECK_ROW_MASK : Nat := 0x104
abbrev CHECK_COL_MASK : Nat := 0x108
abbrev CHECK_FAULT : Nat := 0x10C
abbrev CHECK_CLEAR : Nat := 0x110
abbrev RNG_SEED_LO : Nat := 0x114
abbrev RNG_SEED_HI : Nat := 0x118
abbrev RNG_DOMAIN : Nat := 0x11C
abbrev RNG_PEEK_SEL : Nat := 0x120
abbrev RNG_PEEK_LO : Nat := 0x124
abbrev RNG_PEEK_HI : Nat := 0x128
abbrev LANE_RETIRED : Nat := 0x12C
abbrev PRECISION : Nat := 0x130
abbrev CHECK_COL_RETIRED : Nat := 0x134
end Reg.Arr

/-- Write masks and reset values of the array page. -/
def arrayRows : List RegRow := [
  ⟨Reg.Arr.CHECK_CTRL, 1, 0, 0x3, 0x0⟩,
  ⟨Reg.Arr.CHECK_ROW_MASK, 1, 0, 0x0, 0x0⟩,
  ⟨Reg.Arr.CHECK_COL_MASK, 1, 0, 0x0, 0x0⟩,
  ⟨Reg.Arr.CHECK_FAULT, 1, 0, 0x0, 0x0⟩,
  ⟨Reg.Arr.CHECK_CLEAR, 1, 0, 0x0, 0x0⟩,
  ⟨Reg.Arr.RNG_SEED_LO, 1, 0, 0xFFFFFFFF, 0x0⟩,
  ⟨Reg.Arr.RNG_SEED_HI, 1, 0, 0xFFFFFFFF, 0x0⟩,
  ⟨Reg.Arr.RNG_DOMAIN, 1, 0, 0xFFFF, 0x0⟩,
  ⟨Reg.Arr.RNG_PEEK_SEL, 1, 0, 0x1FF, 0x0⟩,
  ⟨Reg.Arr.RNG_PEEK_LO, 1, 0, 0x0, 0x0⟩,
  ⟨Reg.Arr.RNG_PEEK_HI, 1, 0, 0x0, 0x0⟩,
  ⟨Reg.Arr.LANE_RETIRED, 1, 0, 0x0, 0x0⟩,
  ⟨Reg.Arr.PRECISION, 1, 0, 0x0, 0x0⟩,
  ⟨Reg.Arr.CHECK_COL_RETIRED, 1, 0, 0x0, 0x0⟩]

/-! The GME page. -/
namespace Reg.Gme
abbrev DESC_STAGE : Nat := 0x100
abbrev DESC_CREATE : Nat := 0x140
abbrev DESC_RESULT : Nat := 0x144
abbrev DESC_TABLE_OFFSET : Nat := 0x148
abbrev DESC_TABLE_LOG2 : Nat := 0x14C
abbrev BATCH_SRC : Nat := 0x150
abbrev BATCH_FIRST : Nat := 0x154
abbrev BATCH_COUNT : Nat := 0x158
abbrev POD_FAULT : Nat := 0x15C
abbrev PRED_SEL : Nat := 0x160
abbrev PRED_AUDITED : Nat := 0x164
abbrev PRED_MISSES : Nat := 0x168
abbrev PRED_LAST_AUDITED : Nat := 0x16C
abbrev PRED_LAST_MISSES : Nat := 0x170
abbrev INDEX_FAULT_POS : Nat := 0x174
abbrev INDEX_FAULT_VALUE : Nat := 0x178
abbrev T_FAULT : Nat := 0x17C
abbrev SCRATCH_USE : Nat := 0x180
abbrev PRED_LAYER : Nat := 0x400
abbrev ALLOC_BASE_LO : Nat := 0x800
abbrev ALLOC_BASE_HI : Nat := 0x804
abbrev ALLOC_SIZE : Nat := 0x808
abbrev ALLOC_CTRL : Nat := 0x80C
end Reg.Gme

/-- Write masks and reset values of the GME page. -/
def gmeRows : List RegRow := [
  ⟨Reg.Gme.DESC_STAGE, 16, 4, 0xFFFFFFFF, 0x0⟩,
  ⟨Reg.Gme.DESC_CREATE, 1, 0, 0x3FFFF, 0x0⟩,
  ⟨Reg.Gme.DESC_RESULT, 1, 0, 0x0, 0x0⟩,
  ⟨Reg.Gme.DESC_TABLE_OFFSET, 1, 0, 0x1FFFFC0, 0x80000000⟩,
  ⟨Reg.Gme.DESC_TABLE_LOG2, 1, 0, 0x1F, 0x6⟩,
  ⟨Reg.Gme.BATCH_SRC, 1, 0, 0x1FFFFC0, 0x0⟩,
  ⟨Reg.Gme.BATCH_FIRST, 1, 0, 0xFFFF, 0x0⟩,
  ⟨Reg.Gme.BATCH_COUNT, 1, 0, 0xFFFF, 0x0⟩,
  ⟨Reg.Gme.POD_FAULT, 1, 0, 0x0, 0x0⟩,
  ⟨Reg.Gme.PRED_SEL, 1, 0, 0xFF, 0x0⟩,
  ⟨Reg.Gme.PRED_AUDITED, 1, 0, 0x0, 0x0⟩,
  ⟨Reg.Gme.PRED_MISSES, 1, 0, 0x0, 0x0⟩,
  ⟨Reg.Gme.PRED_LAST_AUDITED, 1, 0, 0x0, 0x0⟩,
  ⟨Reg.Gme.PRED_LAST_MISSES, 1, 0, 0x0, 0x0⟩,
  ⟨Reg.Gme.INDEX_FAULT_POS, 1, 0, 0x0, 0x0⟩,
  ⟨Reg.Gme.INDEX_FAULT_VALUE, 1, 0, 0x0, 0x0⟩,
  ⟨Reg.Gme.T_FAULT, 1, 0, 0x0, 0x0⟩,
  ⟨Reg.Gme.SCRATCH_USE, 1, 0, 0x0, 0x0⟩,
  ⟨Reg.Gme.PRED_LAYER, 256, 4, 0x8000FFFF, 0x400⟩,
  ⟨Reg.Gme.ALLOC_BASE_LO, 128, 16, 0xFFFFFFC0, 0x0⟩,
  ⟨Reg.Gme.ALLOC_BASE_HI, 128, 16, 0xFFFFFFFF, 0x0⟩,
  ⟨Reg.Gme.ALLOC_SIZE, 128, 16, 0xFFFFFFFF, 0x0⟩,
  ⟨Reg.Gme.ALLOC_CTRL, 128, 16, 0x0, 0x0⟩]

/-! The mask directory slice page. -/
namespace Reg.Dir
abbrev LAST_WRITE_ENTRY : Nat := 0x100
abbrev LAST_WRITE_SOURCE : Nat := 0x104
abbrev DENIED_SOURCE : Nat := 0x108
end Reg.Dir

/-- Write masks and reset values of the mask directory slice page. -/
def dirRows : List RegRow := [
  ⟨Reg.Dir.LAST_WRITE_ENTRY, 1, 0, 0x0, 0x0⟩,
  ⟨Reg.Dir.LAST_WRITE_SOURCE, 1, 0, 0x0, 0x0⟩,
  ⟨Reg.Dir.DENIED_SOURCE, 1, 0, 0x0, 0x0⟩]

/-! The update-and-thinning engine page, 0x200 onward. -/
namespace Reg.Hub
abbrev RNG_SEED_LO : Nat := 0x200
abbrev RNG_SEED_HI : Nat := 0x204
abbrev RNG_DOMAIN : Nat := 0x208
abbrev PUB_WAIT_LIMIT : Nat := 0x20C
abbrev PUB_STATUS : Nat := 0x210
abbrev PUB_NEXT_STRIDE_LO : Nat := 0x214
abbrev PUB_NEXT_STRIDE_HI : Nat := 0x218
abbrev PUB_LAST_COUNT : Nat := 0x21C
abbrev PUB_LAST_CONFLICTS : Nat := 0x220
abbrev PUB_LAST_WAIT : Nat := 0x224
abbrev CONFLICT_ENTRY : Nat := 0x228
abbrev FAULT_ENTRY : Nat := 0x22C
abbrev PUB_ARM_LIST_LO : Nat := 0x230
abbrev PUB_ARM_LIST_HI : Nat := 0x234
abbrev PUB_ARM_COUNT : Nat := 0x238
abbrev PUB_ARM_STRIDE_LO : Nat := 0x23C
abbrev PUB_ARM_STRIDE_HI : Nat := 0x240
abbrev PUB_ARM_GO : Nat := 0x244
abbrev PUB_ARM_RESULT : Nat := 0x248
abbrev LAST_TILES : Nat := 0x24C
abbrev LAST_ENTERED : Nat := 0x250
abbrev LAST_LEFT : Nat := 0x254
abbrev LAST_NNZ : Nat := 0x258
end Reg.Hub

/-- Write masks and reset values of the update-and-thinning engine page, 0x200 onward. -/
def hubThinRows : List RegRow := [
  ⟨Reg.Hub.RNG_SEED_LO, 1, 0, 0xFFFFFFFF, 0x0⟩,
  ⟨Reg.Hub.RNG_SEED_HI, 1, 0, 0xFFFFFFFF, 0x0⟩,
  ⟨Reg.Hub.RNG_DOMAIN, 1, 0, 0xFFFF, 0x0⟩,
  ⟨Reg.Hub.PUB_WAIT_LIMIT, 1, 0, 0x3FFFFFF, 0xC350⟩,
  ⟨Reg.Hub.PUB_STATUS, 1, 0, 0x0, 0x0⟩,
  ⟨Reg.Hub.PUB_NEXT_STRIDE_LO, 1, 0, 0x0, 0x0⟩,
  ⟨Reg.Hub.PUB_NEXT_STRIDE_HI, 1, 0, 0x0, 0x0⟩,
  ⟨Reg.Hub.PUB_LAST_COUNT, 1, 0, 0x0, 0x0⟩,
  ⟨Reg.Hub.PUB_LAST_CONFLICTS, 1, 0, 0x0, 0x0⟩,
  ⟨Reg.Hub.PUB_LAST_WAIT, 1, 0, 0x0, 0x0⟩,
  ⟨Reg.Hub.CONFLICT_ENTRY, 1, 0, 0x0, 0x0⟩,
  ⟨Reg.Hub.FAULT_ENTRY, 1, 0, 0x0, 0x0⟩,
  ⟨Reg.Hub.PUB_ARM_LIST_LO, 1, 0, 0xFFFFFFC0, 0x0⟩,
  ⟨Reg.Hub.PUB_ARM_LIST_HI, 1, 0, 0xFFFFFFFF, 0x0⟩,
  ⟨Reg.Hub.PUB_ARM_COUNT, 1, 0, 0x3FFFFF, 0x0⟩,
  ⟨Reg.Hub.PUB_ARM_STRIDE_LO, 1, 0, 0xFFFFFFFF, 0x0⟩,
  ⟨Reg.Hub.PUB_ARM_STRIDE_HI, 1, 0, 0xFFFFFFFF, 0x0⟩,
  ⟨Reg.Hub.PUB_ARM_GO, 1, 0, 0x0, 0x0⟩,
  ⟨Reg.Hub.PUB_ARM_RESULT, 1, 0, 0x0, 0x0⟩,
  ⟨Reg.Hub.LAST_TILES, 1, 0, 0x0, 0x0⟩,
  ⟨Reg.Hub.LAST_ENTERED, 1, 0, 0x0, 0x0⟩,
  ⟨Reg.Hub.LAST_LEFT, 1, 0, 0x0, 0x0⟩,
  ⟨Reg.Hub.LAST_NNZ, 1, 0, 0x0, 0x0⟩]

/-! The update-and-thinning engine page, 0x300 onward; also the slow-tier engine. -/
namespace Reg.Upd
abbrev DESC_STAGE : Nat := 0x300
abbrev DESC_CREATE : Nat := 0x340
abbrev DESC_RESULT : Nat := 0x344
abbrev DESC_TABLE_BASE_LO : Nat := 0x348
abbrev DESC_TABLE_BASE_HI : Nat := 0x34C
abbrev DESC_TABLE_LOG2 : Nat := 0x350
abbrev BATCH_SRC_LO : Nat := 0x354
abbrev BATCH_SRC_HI : Nat := 0x358
abbrev BATCH_FIRST : Nat := 0x35C
abbrev BATCH_COUNT : Nat := 0x360
abbrev SCHED_BASE_LO : Nat := 0x364
abbrev SCHED_BASE_HI : Nat := 0x368
abbrev SCHED_COUNT : Nat := 0x36C
abbrev DRIFT_POS_LO : Nat := 0x370
abbrev DRIFT_POS_HI : Nat := 0x374
abbrev LAST_APPLIED : Nat := 0x378
abbrev GROUP_CTRL : Nat := 0x400
abbrev GROUP_BETA1 : Nat := 0x404
abbrev GROUP_BETA2 : Nat := 0x408
abbrev GROUP_EPS : Nat := 0x40C
abbrev GROUP_DECAY : Nat := 0x410
abbrev GROUP_LR_SCALE : Nat := 0x414
abbrev GROUP_CLIP_NORM : Nat := 0x418
abbrev GROUP_GRAD_SCALE : Nat := 0x41C
abbrev ALLOC_BASE_LO : Nat := 0x800
abbrev ALLOC_BASE_HI : Nat := 0x804
abbrev ALLOC_SIZE : Nat := 0x808
abbrev ALLOC_CTRL : Nat := 0x80C
end Reg.Upd

/-- Write masks and reset values of the update-and-thinning engine page, 0x300 onward; also the slow-tier engine. -/
def updateRows : List RegRow := [
  ⟨Reg.Upd.DESC_STAGE, 16, 4, 0xFFFFFFFF, 0x0⟩,
  ⟨Reg.Upd.DESC_CREATE, 1, 0, 0x3FFFF, 0x0⟩,
  ⟨Reg.Upd.DESC_RESULT, 1, 0, 0x0, 0x0⟩,
  ⟨Reg.Upd.DESC_TABLE_BASE_LO, 1, 0, 0xFFFFFFC0, 0x0⟩,
  ⟨Reg.Upd.DESC_TABLE_BASE_HI, 1, 0, 0xFFFF, 0x0⟩,
  ⟨Reg.Upd.DESC_TABLE_LOG2, 1, 0, 0x1F, 0x80000006⟩,
  ⟨Reg.Upd.BATCH_SRC_LO, 1, 0, 0xFFFFFFC0, 0x0⟩,
  ⟨Reg.Upd.BATCH_SRC_HI, 1, 0, 0xFFFF, 0x0⟩,
  ⟨Reg.Upd.BATCH_FIRST, 1, 0, 0xFFFF, 0x0⟩,
  ⟨Reg.Upd.BATCH_COUNT, 1, 0, 0xFFFF, 0x0⟩,
  ⟨Reg.Upd.SCHED_BASE_LO, 1, 0, 0xFFFFFFF0, 0x0⟩,
  ⟨Reg.Upd.SCHED_BASE_HI, 1, 0, 0xFFFFFFFF, 0x0⟩,
  ⟨Reg.Upd.SCHED_COUNT, 1, 0, 0x1FFF, 0x1⟩,
  ⟨Reg.Upd.DRIFT_POS_LO, 1, 0, 0x0, 0x0⟩,
  ⟨Reg.Upd.DRIFT_POS_HI, 1, 0, 0x0, 0x0⟩,
  ⟨Reg.Upd.LAST_APPLIED, 1, 0, 0x0, 0x0⟩,
  ⟨Reg.Upd.GROUP_CTRL, 32, 32, 0xFFFF03F7, 0x0⟩,
  ⟨Reg.Upd.GROUP_BETA1, 32, 32, 0xFFFFFFFF, 0x3F666666⟩,
  ⟨Reg.Upd.GROUP_BETA2, 32, 32, 0xFFFFFFFF, 0x3F7FBE77⟩,
  ⟨Reg.Upd.GROUP_EPS, 32, 32, 0xFFFFFFFF, 0x322BCC77⟩,
  ⟨Reg.Upd.GROUP_DECAY, 32, 32, 0xFFFFFFFF, 0x0⟩,
  ⟨Reg.Upd.GROUP_LR_SCALE, 32, 32, 0xFFFFFFFF, 0x3F800000⟩,
  ⟨Reg.Upd.GROUP_CLIP_NORM, 32, 32, 0xFFFFFFFF, 0x0⟩,
  ⟨Reg.Upd.GROUP_GRAD_SCALE, 32, 32, 0xFFFFFFFF, 0x3F800000⟩,
  ⟨Reg.Upd.ALLOC_BASE_LO, 128, 16, 0xFFFFFFC0, 0x0⟩,
  ⟨Reg.Upd.ALLOC_BASE_HI, 128, 16, 0xFFFFFFFF, 0x0⟩,
  ⟨Reg.Upd.ALLOC_SIZE, 128, 16, 0xFFFFFFFF, 0x0⟩,
  ⟨Reg.Upd.ALLOC_CTRL, 128, 16, 0x0, 0x0⟩]

/-! The step ledger page. -/
namespace Reg.Led
abbrev LEDGER_STATE : Nat := 0x100
abbrev STEP_ID_LO : Nat := 0x104
abbrev STEP_ID_HI : Nat := 0x108
abbrev LAST_STEP_ID_LO : Nat := 0x10C
abbrev LAST_STEP_ID_HI : Nat := 0x110
abbrev COMMITTED_LO : Nat := 0x114
abbrev COMMITTED_HI : Nat := 0x118
abbrev NORM : Nat := 0x11C
abbrev VOTE_STRIDE_LO : Nat := 0x120
abbrev VOTE_STRIDE_HI : Nat := 0x124
abbrev CLOSE_DELAY : Nat := 0x128
abbrev LEDGER_CTRL : Nat := 0x12C
abbrev SKIP_SOURCES : Nat := 0x130
abbrev LAST_FIRST_DEVICE : Nat := 0x134
abbrev LAST_FLAGS : Nat := 0x138
abbrev NORM_LOCAL : Nat := 0x13C
end Reg.Led

/-- Write masks and reset values of the step ledger page. -/
def ledgerRows : List RegRow := [
  ⟨Reg.Led.LEDGER_STATE, 1, 0, 0x0, 0x0⟩,
  ⟨Reg.Led.STEP_ID_LO, 1, 0, 0x0, 0x0⟩,
  ⟨Reg.Led.STEP_ID_HI, 1, 0, 0x0, 0x0⟩,
  ⟨Reg.Led.LAST_STEP_ID_LO, 1, 0, 0x0, 0x0⟩,
  ⟨Reg.Led.LAST_STEP_ID_HI, 1, 0, 0x0, 0x0⟩,
  ⟨Reg.Led.COMMITTED_LO, 1, 0, 0x0, 0x0⟩,
  ⟨Reg.Led.COMMITTED_HI, 1, 0, 0x0, 0x0⟩,
  ⟨Reg.Led.NORM, 1, 0, 0x0, 0x0⟩,
  ⟨Reg.Led.VOTE_STRIDE_LO, 1, 0, 0x0, 0x0⟩,
  ⟨Reg.Led.VOTE_STRIDE_HI, 1, 0, 0x0, 0x0⟩,
  ⟨Reg.Led.CLOSE_DELAY, 1, 0, 0xFF, 0x1⟩,
  ⟨Reg.Led.LEDGER_CTRL, 1, 0, 0x0, 0x0⟩,
  ⟨Reg.Led.SKIP_SOURCES, 1, 0, 0x0, 0x0⟩,
  ⟨Reg.Led.LAST_FIRST_DEVICE, 1, 0, 0x0, 0x0⟩,
  ⟨Reg.Led.LAST_FLAGS, 1, 0, 0x0, 0x0⟩,
  ⟨Reg.Led.NORM_LOCAL, 1, 0, 0x0, 0x0⟩]

/-! The slow-tier update engine page. -/
namespace Reg.Slow
abbrev RNG_SEED_LO : Nat := 0x200
abbrev RNG_SEED_HI : Nat := 0x204
abbrev RNG_DOMAIN : Nat := 0x208
abbrev PARK_BASE_LO : Nat := 0x210
abbrev PARK_BASE_HI : Nat := 0x214
abbrev PARK_SLOT_UNITS : Nat := 0x218
abbrev PARK_CFG : Nat := 0x21C
abbrev PARK_STATUS : Nat := 0x220
abbrev PARK_HEAD : Nat := 0x224
abbrev PARK_TAIL : Nat := 0x228
abbrev LAST_LAP_STEP_LO : Nat := 0x22C
abbrev LAST_LAP_STEP_HI : Nat := 0x230
end Reg.Slow

/-- Write masks and reset values of the slow-tier update engine page. -/
def slowRows : List RegRow := [
  ⟨Reg.Slow.RNG_SEED_LO, 1, 0, 0xFFFFFFFF, 0x0⟩,
  ⟨Reg.Slow.RNG_SEED_HI, 1, 0, 0xFFFFFFFF, 0x0⟩,
  ⟨Reg.Slow.RNG_DOMAIN, 1, 0, 0xFFFF, 0x0⟩,
  ⟨Reg.Slow.PARK_BASE_LO, 1, 0, 0xFFFFFFC0, 0x0⟩,
  ⟨Reg.Slow.PARK_BASE_HI, 1, 0, 0xFFFF, 0x0⟩,
  ⟨Reg.Slow.PARK_SLOT_UNITS, 1, 0, 0xFFFFFFFF, 0x0⟩,
  ⟨Reg.Slow.PARK_CFG, 1, 0, 0x7F0F, 0x201⟩,
  ⟨Reg.Slow.PARK_STATUS, 1, 0, 0x0, 0x0⟩,
  ⟨Reg.Slow.PARK_HEAD, 1, 0, 0x0, 0x0⟩,
  ⟨Reg.Slow.PARK_TAIL, 1, 0, 0x0, 0x0⟩,
  ⟨Reg.Slow.LAST_LAP_STEP_LO, 1, 0, 0x0, 0x0⟩,
  ⟨Reg.Slow.LAST_LAP_STEP_HI, 1, 0, 0x0, 0x0⟩]

/-! The WM, AM and PM pages; the width of SEG_OFF is that of the memory. -/
namespace Reg.Mem
abbrev SEG_OFF : Nat := 0x100
abbrev SEG_STATE : Nat := 0x104
abbrev WIF_SEL : Nat := 0x108
abbrev WIF_COUNT : Nat := 0x10C
abbrev PARITY_ADDR : Nat := 0x110
abbrev PARITY_INFO : Nat := 0x114
abbrev PATROL_CTRL : Nat := 0x118
abbrev PATROL_POS : Nat := 0x11C
abbrev PARITY_INJECT : Nat := 0x120
end Reg.Mem

/-- Write masks and reset values of the WM, AM and PM pages; the width of SEG_OFF is that of the memory. -/
def memRows : List RegRow := [
  ⟨Reg.Mem.SEG_OFF, 1, 0, 0x0, 0x0⟩,
  ⟨Reg.Mem.SEG_STATE, 1, 0, 0x0, 0x0⟩,
  ⟨Reg.Mem.WIF_SEL, 1, 0, 0xF, 0x0⟩,
  ⟨Reg.Mem.WIF_COUNT, 1, 0, 0x0, 0x0⟩,
  ⟨Reg.Mem.PARITY_ADDR, 1, 0, 0x0, 0x0⟩,
  ⟨Reg.Mem.PARITY_INFO, 1, 0, 0x0, 0x0⟩,
  ⟨Reg.Mem.PATROL_CTRL, 1, 0, 0x8000FFFF, 0x1000⟩,
  ⟨Reg.Mem.PATROL_POS, 1, 0, 0x0, 0x0⟩,
  ⟨Reg.Mem.PARITY_INJECT, 1, 0, 0x1FFFFC0, 0x0⟩]

/-! The DMA channel page. -/
namespace Reg.Dma
abbrev DMA_CFG : Nat := 0x100
abbrev DMA_RATE : Nat := 0x104
abbrev DMA_CMD : Nat := 0x108
abbrev DMA_STATE : Nat := 0x10C
abbrev PROGRESS_LO : Nat := 0x110
abbrev PROGRESS_HI : Nat := 0x114
abbrev HALT_INFO : Nat := 0x118
abbrev HALT_ADDR_LO : Nat := 0x11C
abbrev HALT_ADDR_HI : Nat := 0x120
abbrev LAST_RETRIES : Nat := 0x124
end Reg.Dma

/-- Write masks and reset values of the DMA channel page. -/
def dmaRows : List RegRow := [
  ⟨Reg.Dma.DMA_CFG, 1, 0, 0xF, 0x3⟩,
  ⟨Reg.Dma.DMA_RATE, 1, 0, 0x1FF, 0x0⟩,
  ⟨Reg.Dma.DMA_CMD, 1, 0, 0x0, 0x0⟩,
  ⟨Reg.Dma.DMA_STATE, 1, 0, 0x0, 0x0⟩,
  ⟨Reg.Dma.PROGRESS_LO, 1, 0, 0x0, 0x0⟩,
  ⟨Reg.Dma.PROGRESS_HI, 1, 0, 0x0, 0x0⟩,
  ⟨Reg.Dma.HALT_INFO, 1, 0, 0x0, 0x0⟩,
  ⟨Reg.Dma.HALT_ADDR_LO, 1, 0, 0x0, 0x0⟩,
  ⟨Reg.Dma.HALT_ADDR_HI, 1, 0, 0x0, 0x0⟩,
  ⟨Reg.Dma.LAST_RETRIES, 1, 0, 0x0, 0x0⟩]

/-! The larder controller page. -/
namespace Reg.Ldr
abbrev MERGE_WAIT : Nat := 0x100
abbrev SCRUB_CTRL : Nat := 0x104
abbrev SCRUB_POS : Nat := 0x108
abbrev CORR_ADDR : Nat := 0x10C
abbrev CORR_SYNDROME : Nat := 0x110
abbrev UNCORR_ADDR : Nat := 0x114
abbrev UNCORR_SOURCE : Nat := 0x118
abbrev PENDING : Nat := 0x11C
end Reg.Ldr

/-- Write masks and reset values of the larder controller page. -/
def larderRows : List RegRow := [
  ⟨Reg.Ldr.MERGE_WAIT, 1, 0, 0xFF, 0x0⟩,
  ⟨Reg.Ldr.SCRUB_CTRL, 1, 0, 0x80FFFFFF, 0x80000400⟩,
  ⟨Reg.Ldr.SCRUB_POS, 1, 0, 0x0, 0x0⟩,
  ⟨Reg.Ldr.CORR_ADDR, 1, 0, 0x0, 0x0⟩,
  ⟨Reg.Ldr.CORR_SYNDROME, 1, 0, 0x0, 0x0⟩,
  ⟨Reg.Ldr.UNCORR_ADDR, 1, 0, 0x0, 0x0⟩,
  ⟨Reg.Ldr.UNCORR_SOURCE, 1, 0, 0x0, 0x0⟩,
  ⟨Reg.Ldr.PENDING, 1, 0, 0x0, 0x0⟩]

/-! The memory map page. -/
namespace Reg.Map
abbrev HBM_MAP : Nat := 0x100
end Reg.Map

/-- Write masks and reset values of the memory map page. -/
def mapRows : List RegRow := [
  ⟨Reg.Map.HBM_MAP, 1, 0, 0x0, 0x0⟩]

/-! The service-class window (R368). -/
namespace Reg.Svc
abbrev SVC_CTRL : Nat := 0xF00
abbrev DELAYED_COUNT : Nat := 0xF04
abbrev REFUSED_COUNT : Nat := 0xF08
abbrev QUEUE_NOW : Nat := 0xF0C
abbrev LAST_REFUSED : Nat := 0xF10
abbrev LAST_REFUSED_NODE : Nat := 0xF14
abbrev LAST_DELAYED : Nat := 0xF18
abbrev LAST_DELAYED_NODE : Nat := 0xF1C
abbrev WORST_CRIT_NS : Nat := 0xF20
abbrev WORST_BULK_NS : Nat := 0xF24
abbrev SVC_CLEAR : Nat := 0xF28
end Reg.Svc

/-- Write masks and reset values of the service-class window (R368). -/
def svcRows : List RegRow := [
  ⟨Reg.Svc.SVC_CTRL, 1, 0, 0xFF, 0x20⟩,
  ⟨Reg.Svc.DELAYED_COUNT, 1, 0, 0x0, 0x0⟩,
  ⟨Reg.Svc.REFUSED_COUNT, 1, 0, 0x0, 0x0⟩,
  ⟨Reg.Svc.QUEUE_NOW, 1, 0, 0x0, 0x0⟩,
  ⟨Reg.Svc.LAST_REFUSED, 1, 0, 0x0, 0x0⟩,
  ⟨Reg.Svc.LAST_REFUSED_NODE, 1, 0, 0x0, 0x0⟩,
  ⟨Reg.Svc.LAST_DELAYED, 1, 0, 0x0, 0x0⟩,
  ⟨Reg.Svc.LAST_DELAYED_NODE, 1, 0, 0x0, 0x0⟩,
  ⟨Reg.Svc.WORST_CRIT_NS, 1, 0, 0x0, 0x0⟩,
  ⟨Reg.Svc.WORST_BULK_NS, 1, 0, 0x0, 0x0⟩,
  ⟨Reg.Svc.SVC_CLEAR, 1, 0, 0x0, 0x0⟩]

/-! The HBM stack controller page. -/
namespace Reg.Hbm
abbrev PC_RETIRED : Nat := 0x100
abbrev PC_RETIRE : Nat := 0x104
abbrev CORR_INFO : Nat := 0x108
abbrev CORR_BLOCK : Nat := 0x10C
abbrev UNCORR_INFO : Nat := 0x110
abbrev UNCORR_BLOCK : Nat := 0x114
abbrev UNCORR_SOURCE : Nat := 0x118
abbrev STACK_TEMP : Nat := 0x11C
abbrev SCRUB_CTRL : Nat := 0x120
abbrev SCRUB_POS : Nat := 0x124
abbrev SPARE_BASE_LO : Nat := 0x128
abbrev SPARE_BASE_HI : Nat := 0x12C
abbrev SPARE_SLOTS : Nat := 0x130
abbrev SPARE_MAP : Nat := 0x134
end Reg.Hbm

/-- Write masks and reset values of the HBM stack controller page. -/
def hbmRows : List RegRow := [
  ⟨Reg.Hbm.PC_RETIRED, 1, 0, 0x0, 0x0⟩,
  ⟨Reg.Hbm.PC_RETIRE, 1, 0, 0x1F, 0x0⟩,
  ⟨Reg.Hbm.CORR_INFO, 1, 0, 0x0, 0x0⟩,
  ⟨Reg.Hbm.CORR_BLOCK, 1, 0, 0x0, 0x0⟩,
  ⟨Reg.Hbm.UNCORR_INFO, 1, 0, 0x0, 0x0⟩,
  ⟨Reg.Hbm.UNCORR_BLOCK, 1, 0, 0x0, 0x0⟩,
  ⟨Reg.Hbm.UNCORR_SOURCE, 1, 0, 0x0, 0x0⟩,
  ⟨Reg.Hbm.STACK_TEMP, 1, 0, 0x0, 0x0⟩,
  ⟨Reg.Hbm.SCRUB_CTRL, 1, 0, 0x80FFFFFF, 0x80000040⟩,
  ⟨Reg.Hbm.SCRUB_POS, 1, 0, 0x0, 0x0⟩,
  ⟨Reg.Hbm.SPARE_BASE_LO, 1, 0, 0xC0000000, 0x0⟩,
  ⟨Reg.Hbm.SPARE_BASE_HI, 1, 0, 0xFFFF, 0x0⟩,
  ⟨Reg.Hbm.SPARE_SLOTS, 1, 0, 0x7, 0x0⟩,
  ⟨Reg.Hbm.SPARE_MAP, 1, 0, 0x0, 0x0⟩]

/-! The memory-side adder page. -/
namespace Reg.Add
abbrev OVF_ADDR_LO : Nat := 0x100
abbrev OVF_ADDR_HI : Nat := 0x104
end Reg.Add

/-- Write masks and reset values of the memory-side adder page. -/
def adderRows : List RegRow := [
  ⟨Reg.Add.OVF_ADDR_LO, 1, 0, 0x0, 0x0⟩,
  ⟨Reg.Add.OVF_ADDR_HI, 1, 0, 0x0, 0x0⟩]

/-! The CXL port page. -/
namespace Reg.Cxl
abbrev LINK_STATUS : Nat := 0x100
abbrev EXP_CAPACITY : Nat := 0x104
abbrev EXP_ID : Nat := 0x108
abbrev RESP_LIMIT : Nat := 0x10C
abbrev DEVLOAD : Nat := 0x110
abbrev POISON_ADDR_LO : Nat := 0x114
abbrev POISON_ADDR_HI : Nat := 0x118
abbrev PORT_CTRL : Nat := 0x11C
abbrev OUTSTANDING : Nat := 0x120
end Reg.Cxl

/-- Write masks and reset values of the CXL port page. -/
def cxlRows : List RegRow := [
  ⟨Reg.Cxl.LINK_STATUS, 1, 0, 0x0, 0x0⟩,
  ⟨Reg.Cxl.EXP_CAPACITY, 1, 0, 0x0, 0x0⟩,
  ⟨Reg.Cxl.EXP_ID, 1, 0, 0x0, 0x0⟩,
  ⟨Reg.Cxl.RESP_LIMIT, 1, 0, 0xFFFFF, 0x7D0⟩,
  ⟨Reg.Cxl.DEVLOAD, 1, 0, 0x0, 0x0⟩,
  ⟨Reg.Cxl.POISON_ADDR_LO, 1, 0, 0x0, 0x0⟩,
  ⟨Reg.Cxl.POISON_ADDR_HI, 1, 0, 0x0, 0x0⟩,
  ⟨Reg.Cxl.PORT_CTRL, 1, 0, 0x0, 0x0⟩,
  ⟨Reg.Cxl.OUTSTANDING, 1, 0, 0x0, 0x0⟩]

/-! The Naulo port page. -/
namespace Reg.Nau
abbrev LINK_STATE : Nat := 0x100
abbrev LANE_RETIRED : Nat := 0x104
abbrev LANE_RETIRE : Nat := 0x108
abbrev PORT_CTRL : Nat := 0x10C
abbrev PEER_ID : Nat := 0x110
abbrev REPLAY_TIMEOUT : Nat := 0x114
abbrev LANE_LIMIT : Nat := 0x118
abbrev CREDIT_RTT : Nat := 0x11C
abbrev LANE_FEC : Nat := 0x120
abbrev LAST_INTERRUPT : Nat := 0x130
end Reg.Nau

/-- Write masks and reset values of the Naulo port page. -/
def nauloRows : List RegRow := [
  ⟨Reg.Nau.LINK_STATE, 1, 0, 0x0, 0x0⟩,
  ⟨Reg.Nau.LANE_RETIRED, 1, 0, 0x0, 0x0⟩,
  ⟨Reg.Nau.LANE_RETIRE, 1, 0, 0x3, 0x0⟩,
  ⟨Reg.Nau.PORT_CTRL, 1, 0, 0x0, 0x0⟩,
  ⟨Reg.Nau.PEER_ID, 1, 0, 0x0, 0x0⟩,
  ⟨Reg.Nau.REPLAY_TIMEOUT, 1, 0, 0xFFFF, 0x7D0⟩,
  ⟨Reg.Nau.LANE_LIMIT, 1, 0, 0xFFFF, 0x40⟩,
  ⟨Reg.Nau.CREDIT_RTT, 1, 0, 0x0, 0x0⟩,
  ⟨Reg.Nau.LANE_FEC, 4, 4, 0x0, 0x0⟩,
  ⟨Reg.Nau.LAST_INTERRUPT, 1, 0, 0x0, 0x0⟩]

/-! The relay engine page. -/
namespace Reg.Rel
abbrev COLL_TIMEOUT : Nat := 0x200
abbrev LAST_COLL : Nat := 0x204
abbrev SCRATCH_PEAK : Nat := 0x208
abbrev DROPPED_ROWS : Nat := 0x20C
abbrev MISMATCH_SRC : Nat := 0x210
abbrev EARLY_USE : Nat := 0x214
end Reg.Rel

/-- Write masks and reset values of the relay engine page. -/
def relayRows : List RegRow := [
  ⟨Reg.Rel.COLL_TIMEOUT, 1, 0, 0x3FFFFFF, 0xF4240⟩,
  ⟨Reg.Rel.LAST_COLL, 1, 0, 0x0, 0x0⟩,
  ⟨Reg.Rel.SCRATCH_PEAK, 1, 0, 0x0, 0x0⟩,
  ⟨Reg.Rel.DROPPED_ROWS, 1, 0, 0x0, 0x0⟩,
  ⟨Reg.Rel.MISMATCH_SRC, 1, 0, 0x0, 0x0⟩,
  ⟨Reg.Rel.EARLY_USE, 1, 0, 0x0, 0x0⟩]

/-! The fabric page. -/
namespace Reg.Fab
abbrev ROUTE_INDEX : Nat := 0x100
abbrev ROUTE_DATA : Nat := 0x104
abbrev GROUP_BASE_LO : Nat := 0x108
abbrev GROUP_BASE_HI : Nat := 0x10C
abbrev TT_PARENT : Nat := 0x110
abbrev SYNC_INTERVAL : Nat := 0x118
abbrev SYNC_GATE : Nat := 0x11C
abbrev SYNC_STATE : Nat := 0x120
abbrev TIME_OFFSET : Nat := 0x124
abbrev PATH_DELAY : Nat := 0x128
abbrev REMOTE_BOUND_CRIT : Nat := 0x12C
abbrev REMOTE_BOUND_BULK : Nat := 0x130
abbrev TT_CHILD : Nat := 0x140
end Reg.Fab

/-- Write masks and reset values of the fabric page. -/
def fabricRows : List RegRow := [
  ⟨Reg.Fab.ROUTE_INDEX, 1, 0, 0x7FFF, 0x0⟩,
  ⟨Reg.Fab.ROUTE_DATA, 1, 0, 0xFFFF, 0x0⟩,
  ⟨Reg.Fab.GROUP_BASE_LO, 1, 0, 0xFFFFFF80, 0x0⟩,
  ⟨Reg.Fab.GROUP_BASE_HI, 1, 0, 0xFFFF, 0x0⟩,
  ⟨Reg.Fab.TT_PARENT, 1, 0, 0xFFFF, 0x0⟩,
  ⟨Reg.Fab.SYNC_INTERVAL, 1, 0, 0xFFFFF, 0x186A0⟩,
  ⟨Reg.Fab.SYNC_GATE, 1, 0, 0xFFFF, 0x32⟩,
  ⟨Reg.Fab.SYNC_STATE, 1, 0, 0x0, 0x0⟩,
  ⟨Reg.Fab.TIME_OFFSET, 1, 0, 0x0, 0x0⟩,
  ⟨Reg.Fab.PATH_DELAY, 1, 0, 0x0, 0x0⟩,
  ⟨Reg.Fab.REMOTE_BOUND_CRIT, 1, 0, 0x3FFFFFF, 0x4E20⟩,
  ⟨Reg.Fab.REMOTE_BOUND_BULK, 1, 0, 0x3FFFFFF, 0x186A0⟩,
  ⟨Reg.Fab.TT_CHILD, 16, 4, 0xFFFFFFFF, 0x0⟩]

/-! The error record queue page. -/
namespace Reg.Erq
abbrev LOG_BASE_LO : Nat := 0x100
abbrev LOG_BASE_HI : Nat := 0x104
abbrev LOG_SIZE : Nat := 0x108
abbrev LOG_HEAD : Nat := 0x10C
abbrev LOG_TAIL : Nat := 0x110
abbrev LOG_CTRL : Nat := 0x114
abbrev QUEUE_LEVEL : Nat := 0x118
abbrev POLICY : Nat := 0x11C
abbrev RAIL_MAX : Nat := 0x120
abbrev STEWARD_STATE : Nat := 0x124
abbrev SWITCH_REQ : Nat := 0x128
abbrev LAST_SWITCH : Nat := 0x12C
abbrev HANDLING : Nat := 0x130
abbrev HANDLING_SEQ : Nat := 0x134
abbrev DEGRADE_PENDING : Nat := 0x138
abbrev UNIT_SEL : Nat := 0x13C
abbrev UNIT_ID : Nat := 0x140
abbrev UNIT_STATE : Nat := 0x144
abbrev UNIT_STEPS : Nat := 0x148
abbrev POLICY2 : Nat := 0x14C
abbrev PC_CORR_LIMIT : Nat := 0x150
end Reg.Erq

/-- Write masks and reset values of the error record queue page. -/
def errqRows : List RegRow := [
  ⟨Reg.Erq.LOG_BASE_LO, 1, 0, 0xFFFFFFC0, 0x0⟩,
  ⟨Reg.Erq.LOG_BASE_HI, 1, 0, 0xFFFF, 0x0⟩,
  ⟨Reg.Erq.LOG_SIZE, 1, 0, 0x1F, 0x6⟩,
  ⟨Reg.Erq.LOG_HEAD, 1, 0, 0xFFFFFFFF, 0x0⟩,
  ⟨Reg.Erq.LOG_TAIL, 1, 0, 0x0, 0x0⟩,
  ⟨Reg.Erq.LOG_CTRL, 1, 0, 0x7FF0001, 0x0⟩,
  ⟨Reg.Erq.QUEUE_LEVEL, 1, 0, 0x0, 0x0⟩,
  ⟨Reg.Erq.POLICY, 1, 0, 0xFFFF0F03, 0x3E80400⟩,
  ⟨Reg.Erq.RAIL_MAX, 1, 0, 0xFF, 0x32⟩,
  ⟨Reg.Erq.STEWARD_STATE, 1, 0, 0x0, 0x4⟩,
  ⟨Reg.Erq.SWITCH_REQ, 1, 0, 0x0, 0x0⟩,
  ⟨Reg.Erq.LAST_SWITCH, 1, 0, 0x0, 0x0⟩,
  ⟨Reg.Erq.HANDLING, 1, 0, 0x0, 0x0⟩,
  ⟨Reg.Erq.HANDLING_SEQ, 1, 0, 0x0, 0x0⟩,
  ⟨Reg.Erq.DEGRADE_PENDING, 1, 0, 0x0, 0x0⟩,
  ⟨Reg.Erq.UNIT_SEL, 1, 0, 0xFF, 0x0⟩,
  ⟨Reg.Erq.UNIT_ID, 1, 0, 0x0, 0x0⟩,
  ⟨Reg.Erq.UNIT_STATE, 1, 0, 0x0, 0x0⟩,
  ⟨Reg.Erq.UNIT_STEPS, 1, 0, 0x0, 0x0⟩,
  ⟨Reg.Erq.POLICY2, 1, 0, 0xFFFFFF, 0x280064⟩,
  ⟨Reg.Erq.PC_CORR_LIMIT, 1, 0, 0xFFFFFFFF, 0x400⟩]

/-! The die boundary proxy page. -/
namespace Reg.Prx
abbrev PROXY_CTRL : Nat := 0x100
abbrev PROXY_STATUS : Nat := 0x104
abbrev CORE_POWER : Nat := 0x108
abbrev OUTSTANDING : Nat := 0x10C
abbrev LOCKS : Nat := 0x110
abbrev LAST_FENCE : Nat := 0x114
end Reg.Prx

/-- Write masks and reset values of the die boundary proxy page. -/
def proxyRows : List RegRow := [
  ⟨Reg.Prx.PROXY_CTRL, 1, 0, 0x800000FF, 0x0⟩,
  ⟨Reg.Prx.PROXY_STATUS, 1, 0, 0x0, 0x0⟩,
  ⟨Reg.Prx.CORE_POWER, 1, 0, 0x0, 0x0⟩,
  ⟨Reg.Prx.OUTSTANDING, 1, 0, 0x0, 0x0⟩,
  ⟨Reg.Prx.LOCKS, 1, 0, 0x0, 0x0⟩,
  ⟨Reg.Prx.LAST_FENCE, 1, 0, 0x0, 0x0⟩]

/-! The router page. -/
namespace Reg.Rtr
abbrev LINK : Nat := 0x100
abbrev WIRE_LIMIT : Nat := 0x110
end Reg.Rtr

/-- Write masks and reset values of the router page. -/
def routerRows : List RegRow := [
  ⟨Reg.Rtr.LINK, 4, 4, 0x0, 0x0⟩,
  ⟨Reg.Rtr.WIRE_LIMIT, 1, 0, 0xFFFF, 0x10⟩]

/-! The clock page. -/
namespace Reg.Clk
abbrev CLOCK_STEP : Nat := 0x100
abbrev CLOCK_PENDING : Nat := 0x104
abbrev RAIL_OFFSET : Nat := 0x108
abbrev RAIL_PENDING : Nat := 0x10C
abbrev LAST_CHANGE : Nat := 0x110
end Reg.Clk

/-- Write masks and reset values of the clock page. -/
def clockRows : List RegRow := [
  ⟨Reg.Clk.CLOCK_STEP, 1, 0, 0x0, 0x0⟩,
  ⟨Reg.Clk.CLOCK_PENDING, 1, 0, 0x80000003, 0x0⟩,
  ⟨Reg.Clk.RAIL_OFFSET, 1, 0, 0x0, 0x0⟩,
  ⟨Reg.Clk.RAIL_PENDING, 1, 0, 0x800000FF, 0x0⟩,
  ⟨Reg.Clk.LAST_CHANGE, 1, 0, 0x0, 0x0⟩]

/-! The die sensors page. -/
namespace Reg.Sns
abbrev DIE_TEMP : Nat := 0x100
abbrev RAIL_MV : Nat := 0x104
abbrev SLACK_MIN : Nat := 0x108
abbrev SLACK_NOW : Nat := 0x10C
abbrev RO_COUNT : Nat := 0x110
abbrev SENTINEL_FAIL : Nat := 0x150
end Reg.Sns

/-- Write masks and reset values of the die sensors page. -/
def sensorRows : List RegRow := [
  ⟨Reg.Sns.DIE_TEMP, 1, 0, 0x0, 0x0⟩,
  ⟨Reg.Sns.RAIL_MV, 1, 0, 0x0, 0x0⟩,
  ⟨Reg.Sns.SLACK_MIN, 1, 0, 0x0, 0x0⟩,
  ⟨Reg.Sns.SLACK_NOW, 1, 0, 0x0, 0x0⟩,
  ⟨Reg.Sns.RO_COUNT, 16, 4, 0x0, 0x0⟩,
  ⟨Reg.Sns.SENTINEL_FAIL, 1, 0, 0x0, 0x0⟩]

/-! The trace collector page. -/
namespace Reg.Trc
abbrev TRACE_CTRL : Nat := 0x100
abbrev TRACE_BASE_LO : Nat := 0x104
abbrev TRACE_BASE_HI : Nat := 0x108
abbrev TRACE_SIZE : Nat := 0x10C
abbrev TRACE_HEAD : Nat := 0x110
abbrev TRACE_TAIL : Nat := 0x114
abbrev TRACE_KINDS : Nat := 0x118
abbrev TRACE_MIN_NS : Nat := 0x11C
abbrev TRACE_CORES : Nat := 0x120
abbrev TRACE_ENGINES : Nat := 0x130
abbrev TRACE_DROPPED : Nat := 0x134
abbrev TRACE_MARK : Nat := 0x138
end Reg.Trc

/-- Write masks and reset values of the trace collector page. -/
def traceRows : List RegRow := [
  ⟨Reg.Trc.TRACE_CTRL, 1, 0, 0x7FF000F, 0x0⟩,
  ⟨Reg.Trc.TRACE_BASE_LO, 1, 0, 0xFFFFFFC0, 0x0⟩,
  ⟨Reg.Trc.TRACE_BASE_HI, 1, 0, 0xFFFF, 0x0⟩,
  ⟨Reg.Trc.TRACE_SIZE, 1, 0, 0x1F, 0xA⟩,
  ⟨Reg.Trc.TRACE_HEAD, 1, 0, 0xFFFFFFFF, 0x0⟩,
  ⟨Reg.Trc.TRACE_TAIL, 1, 0, 0x0, 0x0⟩,
  ⟨Reg.Trc.TRACE_KINDS, 1, 0, 0xFFFFFFFF, 0x0⟩,
  ⟨Reg.Trc.TRACE_MIN_NS, 1, 0, 0xFFFFFFFF, 0x3E8⟩,
  ⟨Reg.Trc.TRACE_CORES, 4, 4, 0xFFFFFFFF, 0x0⟩,
  ⟨Reg.Trc.TRACE_ENGINES, 1, 0, 0x7FFFFF, 0x0⟩,
  ⟨Reg.Trc.TRACE_DROPPED, 1, 0, 0x0, 0x0⟩,
  ⟨Reg.Trc.TRACE_MARK, 1, 0, 0x1FFFFFF, 0x200⟩]

/-! The check-value channel page. -/
namespace Reg.Cv
abbrev CV_CTRL : Nat := 0x100
abbrev CV_VECTOR : Nat := 0x104
abbrev CV_SRC_LO : Nat := 0x108
abbrev CV_SRC_HI : Nat := 0x10C
abbrev CV_LENGTH_LO : Nat := 0x110
abbrev CV_LENGTH_HI : Nat := 0x114
abbrev CV_BLOCK : Nat := 0x118
abbrev CV_ALIVE_START : Nat := 0x11C
abbrev CV_STATE : Nat := 0x120
abbrev CV_RESULT_LO : Nat := 0x124
abbrev CV_RESULT_HI : Nat := 0x128
abbrev CV_BLOCKS : Nat := 0x12C
abbrev CV_REPEATS : Nat := 0x130
abbrev CV_SKIPPED : Nat := 0x134
abbrev CV_ORDER : Nat := 0x138
abbrev CV_BAD_CRC : Nat := 0x13C
abbrev CV_BAD_STREAM : Nat := 0x140
abbrev CV_FIRST_BAD : Nat := 0x144
abbrev CV_LAST_ALIVE : Nat := 0x148
abbrev CV_PROGRESS_LO : Nat := 0x14C
abbrev CV_PROGRESS_HI : Nat := 0x150
end Reg.Cv

/-- Write masks and reset values of the check-value channel page. -/
def cvRows : List RegRow := [
  ⟨Reg.Cv.CV_CTRL, 1, 0, 0xFFFFEF, 0x40⟩,
  ⟨Reg.Cv.CV_VECTOR, 1, 0, 0x7FF, 0x0⟩,
  ⟨Reg.Cv.CV_SRC_LO, 1, 0, 0xFFFFFFFF, 0x0⟩,
  ⟨Reg.Cv.CV_SRC_HI, 1, 0, 0xFFFFFFFF, 0x0⟩,
  ⟨Reg.Cv.CV_LENGTH_LO, 1, 0, 0xFFFFFFFF, 0x0⟩,
  ⟨Reg.Cv.CV_LENGTH_HI, 1, 0, 0xFFFF, 0x0⟩,
  ⟨Reg.Cv.CV_BLOCK, 1, 0, 0x1FFFF, 0x1000⟩,
  ⟨Reg.Cv.CV_ALIVE_START, 1, 0, 0xFFFFFFFF, 0x0⟩,
  ⟨Reg.Cv.CV_STATE, 1, 0, 0x0, 0x0⟩,
  ⟨Reg.Cv.CV_RESULT_LO, 1, 0, 0x0, 0x0⟩,
  ⟨Reg.Cv.CV_RESULT_HI, 1, 0, 0x0, 0x0⟩,
  ⟨Reg.Cv.CV_BLOCKS, 1, 0, 0x0, 0x0⟩,
  ⟨Reg.Cv.CV_REPEATS, 1, 0, 0x0, 0x0⟩,
  ⟨Reg.Cv.CV_SKIPPED, 1, 0, 0x0, 0x0⟩,
  ⟨Reg.Cv.CV_ORDER, 1, 0, 0x0, 0x0⟩,
  ⟨Reg.Cv.CV_BAD_CRC, 1, 0, 0x0, 0x0⟩,
  ⟨Reg.Cv.CV_BAD_STREAM, 1, 0, 0x0, 0x0⟩,
  ⟨Reg.Cv.CV_FIRST_BAD, 1, 0, 0x0, 0x0⟩,
  ⟨Reg.Cv.CV_LAST_ALIVE, 1, 0, 0x0, 0x0⟩,
  ⟨Reg.Cv.CV_PROGRESS_LO, 1, 0, 0x0, 0x0⟩,
  ⟨Reg.Cv.CV_PROGRESS_HI, 1, 0, 0x0, 0x0⟩]

/-! The steward management page. -/
namespace Reg.Mgm
abbrev DEVICE_STATE : Nat := 0x100
abbrev BOOT_TIME : Nat := 0x104
abbrev RESET_REQ : Nat := 0x108
abbrev RESET_CAUSE : Nat := 0x10C
abbrev TEST_FAILED : Nat := 0x110
end Reg.Mgm

/-- Write masks and reset values of the steward management page. -/
def mgmtRows : List RegRow := [
  ⟨Reg.Mgm.DEVICE_STATE, 1, 0, 0x0, 0x0⟩,
  ⟨Reg.Mgm.BOOT_TIME, 1, 0, 0x0, 0x0⟩,
  ⟨Reg.Mgm.RESET_REQ, 1, 0, 0x0, 0x0⟩,
  ⟨Reg.Mgm.RESET_CAUSE, 1, 0, 0x0, 0x0⟩,
  ⟨Reg.Mgm.TEST_FAILED, 4, 4, 0x0, 0x0⟩]

/-! The security page. -/
namespace Reg.Sec
abbrev SEC_OP : Nat := 0x100
abbrev SEC_ARG_LO : Nat := 0x104
abbrev SEC_ARG_HI : Nat := 0x108
abbrev SEC_ARG_LEN : Nat := 0x10C
abbrev SEC_OUT_LO : Nat := 0x110
abbrev SEC_OUT_HI : Nat := 0x114
abbrev SEC_GO : Nat := 0x118
abbrev SEC_STATUS : Nat := 0x11C
abbrev PRESENCE : Nat := 0x120
abbrev SEC_STATE : Nat := 0x124
end Reg.Sec

/-- Write masks and reset values of the security page. -/
def securityRows : List RegRow := [
  ⟨Reg.Sec.SEC_OP, 1, 0, 0xF, 0x0⟩,
  ⟨Reg.Sec.SEC_ARG_LO, 1, 0, 0xFFFFFFFF, 0x0⟩,
  ⟨Reg.Sec.SEC_ARG_HI, 1, 0, 0xFFFFFFFF, 0x0⟩,
  ⟨Reg.Sec.SEC_ARG_LEN, 1, 0, 0xFFFFFFF, 0x0⟩,
  ⟨Reg.Sec.SEC_OUT_LO, 1, 0, 0xFFFFFFFF, 0x0⟩,
  ⟨Reg.Sec.SEC_OUT_HI, 1, 0, 0xFFFFFFFF, 0x0⟩,
  ⟨Reg.Sec.SEC_GO, 1, 0, 0x0, 0x0⟩,
  ⟨Reg.Sec.SEC_STATUS, 1, 0, 0x0, 0x0⟩,
  ⟨Reg.Sec.PRESENCE, 1, 0, 0x0, 0x0⟩,
  ⟨Reg.Sec.SEC_STATE, 1, 0, 0x0, 0x0⟩]

/-! The identity page. -/
namespace Reg.Idn
abbrev NODE_ID : Nat := 0x100
abbrev PART : Nat := 0x104
abbrev IMAGE_SERIAL_LO : Nat := 0x108
abbrev IMAGE_SERIAL_HI : Nat := 0x10C
abbrev MIN_SERIAL_LO : Nat := 0x110
abbrev MIN_SERIAL_HI : Nat := 0x114
abbrev SERIAL_NO_LO : Nat := 0x118
abbrev SERIAL_NO_HI : Nat := 0x11C
end Reg.Idn

/-- Write masks and reset values of the identity page. -/
def identityRows : List RegRow := [
  ⟨Reg.Idn.NODE_ID, 1, 0, 0x0, 0x0⟩,
  ⟨Reg.Idn.PART, 1, 0, 0x0, 0x3200⟩,
  ⟨Reg.Idn.IMAGE_SERIAL_LO, 1, 0, 0x0, 0x0⟩,
  ⟨Reg.Idn.IMAGE_SERIAL_HI, 1, 0, 0x0, 0x0⟩,
  ⟨Reg.Idn.MIN_SERIAL_LO, 1, 0, 0x0, 0x0⟩,
  ⟨Reg.Idn.MIN_SERIAL_HI, 1, 0, 0x0, 0x0⟩,
  ⟨Reg.Idn.SERIAL_NO_LO, 1, 0, 0x0, 0x0⟩,
  ⟨Reg.Idn.SERIAL_NO_HI, 1, 0, 0x0, 0x0⟩]

/-! The supplies page. -/
namespace Reg.Sup
abbrev FEED_STATUS : Nat := 0x100
abbrev FEED_HELD : Nat := 0x104
abbrev FEED_SHARE : Nat := 0x108
abbrev FEED_CTRL : Nat := 0x10C
abbrev LAST_LOSS : Nat := 0x110
end Reg.Sup

/-- Write masks and reset values of the supplies page. -/
def supplyRows : List RegRow := [
  ⟨Reg.Sup.FEED_STATUS, 1, 0, 0x0, 0x0⟩,
  ⟨Reg.Sup.FEED_HELD, 1, 0, 0x0, 0x0⟩,
  ⟨Reg.Sup.FEED_SHARE, 1, 0, 0xFF, 0x80⟩,
  ⟨Reg.Sup.FEED_CTRL, 1, 0, 0x0, 0x0⟩,
  ⟨Reg.Sup.LAST_LOSS, 1, 0, 0x0, 0x0⟩]

/-! The host port page. -/
namespace Reg.Hst
abbrev LINK_STATUS : Nat := 0x100
abbrev BAR2_BASE_LO : Nat := 0x104
abbrev BAR2_BASE_HI : Nat := 0x108
abbrev BAR2_CTRL : Nat := 0x10C
abbrev W_FAIL_ADDR_LO : Nat := 0x110
abbrev W_FAIL_ADDR_HI : Nat := 0x114
abbrev W_FAIL_INFO : Nat := 0x118
end Reg.Hst

/-- Write masks and reset values of the host port page. -/
def hostRows : List RegRow := [
  ⟨Reg.Hst.LINK_STATUS, 1, 0, 0x0, 0x0⟩,
  ⟨Reg.Hst.BAR2_BASE_LO, 1, 0, 0xF0000000, 0x0⟩,
  ⟨Reg.Hst.BAR2_BASE_HI, 1, 0, 0xFFFFFFFF, 0x0⟩,
  ⟨Reg.Hst.BAR2_CTRL, 1, 0, 0x1, 0x1⟩,
  ⟨Reg.Hst.W_FAIL_ADDR_LO, 1, 0, 0x0, 0x0⟩,
  ⟨Reg.Hst.W_FAIL_ADDR_HI, 1, 0, 0x0, 0x0⟩,
  ⟨Reg.Hst.W_FAIL_INFO, 1, 0, 0x0, 0x0⟩]

/-! The board inputs page. -/
namespace Reg.Brd
abbrev INPUT_LEVEL : Nat := 0x100
abbrev ALARM_CTRL : Nat := 0x104
end Reg.Brd

/-- Write masks and reset values of the board inputs page. -/
def boardRows : List RegRow := [
  ⟨Reg.Brd.INPUT_LEVEL, 1, 0, 0x0, 0x0⟩,
  ⟨Reg.Brd.ALARM_CTRL, 1, 0, 0xFFFF0001, 0x3E80001⟩]

/-! The thermal page. -/
namespace Reg.Thm
abbrev THROTTLE_TEMP : Nat := 0x100
abbrev HBM_THROTTLE_TEMP : Nat := 0x104
abbrev HOTTEST : Nat := 0x108
abbrev HOTTEST_DIE : Nat := 0x10C
abbrev THROTTLED : Nat := 0x110
abbrev HBM_HOT : Nat := 0x114
abbrev TRIP_INFO : Nat := 0x118
end Reg.Thm

/-- Write masks and reset values of the thermal page. -/
def thermalRows : List RegRow := [
  ⟨Reg.Thm.THROTTLE_TEMP, 1, 0, 0xFFFF, 0x320⟩,
  ⟨Reg.Thm.HBM_THROTTLE_TEMP, 1, 0, 0xFFFF, 0x2F8⟩,
  ⟨Reg.Thm.HOTTEST, 1, 0, 0x0, 0x0⟩,
  ⟨Reg.Thm.HOTTEST_DIE, 1, 0, 0x0, 0x0⟩,
  ⟨Reg.Thm.THROTTLED, 1, 0, 0x0, 0x0⟩,
  ⟨Reg.Thm.HBM_HOT, 1, 0, 0x0, 0x0⟩,
  ⟨Reg.Thm.TRIP_INFO, 1, 0, 0x0, 0x0⟩]

/-- The front-end registers of a hub or port engine: RING_CTRL.SYNC_MODE reads 0 and ignores writes (R100). -/
def engineFrontRows : List RegRow :=
  frontRows.map (fun r => if r.off = Reg.Cp.RING_CTRL then { r with mask := 1, reset := 0 } else r)

end Sys2Proof.Machine

namespace Sys2Proof
open Machine

/-- How many segments a core memory has (R308): eight of 2 MiB, eleven of 2 MiB, seven of 1 MiB. -/
def CoreMem.segments : CoreMem → Nat
  | .wm => 8
  | .am => 11
  | .pm => 7

end Sys2Proof

namespace Sys2Proof.Machine

/-- The registers of a core memory: SEG_OFF has one bit for each segment. -/
def coreMemRows (m : CoreMem) : List RegRow :=
  memRows.map (fun r => if r.off = Reg.Mem.SEG_OFF then { r with mask := 2 ^ m.segments - 1 } else r)

/-- The host port's registers: BAR2_BASE is the start of the larder after a device reset (R508). -/
def hostPortRows : List RegRow :=
  hostRows.map (fun r => if r.off = Reg.Hst.BAR2_BASE_HI then { r with reset := 0x100 } else r)

/-- The descriptor and allocation registers of a relay engine: those of the update engine's page at 0x300–0x360 and
0x800 onward. -/
def relayDescRows : List RegRow :=
  updateRows.filter (fun r => r.off ≤ Reg.Upd.BATCH_COUNT || 0x800 ≤ r.off)

end Sys2Proof.Machine

namespace Sys2Proof
open Machine

/-- Where a block stands: die number of its page, and page number (R37, R38, R528). -/
def Block.place : Block → Nat × Nat
  | .cp c => (c.val / 8, 16 * (c.val % 8))
  | .gme c => (c.val / 8, 16 * (c.val % 8) + 1)
  | .vu c => (c.val / 8, 16 * (c.val % 8) + 2)
  | .array c => (c.val / 8, 16 * (c.val % 8) + 3)
  | .mem c .wm => (c.val / 8, 16 * (c.val % 8) + 4)
  | .mem c .am => (c.val / 8, 16 * (c.val % 8) + 5)
  | .mem c .pm => (c.val / 8, 16 * (c.val % 8) + 6)
  | .sem c => (c.val / 8, 16 * (c.val % 8) + 7)
  | .dma c ch => (c.val / 8, 16 * (c.val % 8) + 8 + ch.val)
  | .larder d => (16 + d.val, 0)
  | .dir d => (16 + d.val, 1)
  | .hbm s => (24 + s.val / 4, s.val % 4)
  | .adder s => (24 + s.val / 4, 4 + s.val % 4)
  | .hub h => (24 + h.val, 8)
  | .host => (28, 0)
  | .cxl p => (28 + p.val / 2, 1 + p.val % 2)
  | .naulo p => (28 + p.val / 8, 0x10 + p.val % 8)
  | .relay e => (28 + e.val / 8, 0x20 + e.val % 8)
  | .slow p => (28 + p.val, 0x28)
  | .mgmt k => (30, 0x80 * k.val)
  | .stride k => (30, 0x80 * k.val + 1)
  | .errq k => (30, 0x80 * k.val + 2)
  | .security k => (30, 0x80 * k.val + 3)
  | .proxy d => if d.val = 30 then (30, 0x70) else if d.val = 32 then (30, 0xF0) else (d.val, 0xF0)
  | .router d => if d.val = 30 then (30, 0x71) else if d.val = 32 then (30, 0xF1) else (d.val, 0xF1)
  | .clock d => if d.val = 30 then (30, 0x72) else if d.val = 32 then (30, 0xF2) else (d.val, 0xF2)
  | .sensors d => if d.val = 30 then (30, 0x73) else if d.val = 32 then (30, 0xF3) else (d.val, 0xF3)
  | .glob p => (31, p.val)

/-- The number of a block's page in register space. -/
def Block.page (b : Block) : Nat := b.place.1 * 256 + b.place.2

/-- The BAR0 offset of a block's page (R37). -/
def Block.base (b : Block) : Nat := b.page * 4096

end Sys2Proof

namespace Sys2Proof.Machine

/-- The die-level blocks of pages 0xF0–0xF3, or 0x70–0x73 of SA. -/
def dieBlock (d : DieId) : Nat → Option Block
  | 0 => some (.proxy d)
  | 1 => some (.router d)
  | 2 => some (.clock d)
  | 3 => some (.sensors d)
  | _ => none

/-- The block that page `pg` of core position `p` belongs to (R38). -/
def coreBlock (c : CoreId) : Nat → Block
  | 0 => .cp c
  | 1 => .gme c
  | 2 => .vu c
  | 3 => .array c
  | 4 => .mem c .wm
  | 5 => .mem c .am
  | 6 => .mem c .pm
  | 7 => .sem c
  | k => .dma c (Fin.ofNat 8 (k - 8))

/-- The global pages that are allocated (R528). -/
def globAllocated (p : Nat) : Bool := p < 8 || (16 ≤ p && p < 32)

/-- The block of a page number; none where the page is not allocated (R39, R528). -/
def blockAt (page : Nat) : Option Block :=
  let die := page / 256
  let pg := page % 256
  if 31 < die then none
  else if die = 31 then (if globAllocated pg then some (.glob (Fin.ofNat 256 pg)) else none)
  else if die = 30 then
    if pg < 4 || (0x80 ≤ pg && pg < 0x84) then
      let k := Fin.ofNat 2 (pg / 128)
      match pg % 4 with
      | 0 => some (.mgmt k)
      | 1 => some (.stride k)
      | 2 => some (.errq k)
      | _ => some (.security k)
    else if 0x70 ≤ pg && pg < 0x74 then dieBlock 30 (pg - 0x70)
    else if 0xF0 ≤ pg && pg < 0xF4 then dieBlock 32 (pg - 0xF0)
    else none
  else if 0xF0 ≤ pg && pg < 0xF4 then dieBlock (Fin.ofNat 33 die) (pg - 0xF0)
  else if die < 16 then
    (if pg < 128 then some (coreBlock (Fin.ofNat 128 (8 * die + pg / 16)) (pg % 16)) else none)
  else if die < 24 then
    (if pg = 0 then some (.larder (Fin.ofNat 8 (die - 16)))
     else if pg = 1 then some (.dir (Fin.ofNat 8 (die - 16))) else none)
  else if die < 28 then
    (if pg < 4 then some (.hbm (Fin.ofNat 16 (4 * (die - 24) + pg)))
     else if pg < 8 then some (.adder (Fin.ofNat 16 (4 * (die - 24) + pg - 4)))
     else if pg = 8 then some (.hub (Fin.ofNat 4 (die - 24))) else none)
  else
    let p := die - 28
    if pg = 0 then (if p = 0 then some .host else none)
    else if pg < 3 then some (.cxl (Fin.ofNat 4 (2 * p + pg - 1)))
    else if 0x10 ≤ pg && pg < 0x18 then some (.naulo (Fin.ofNat 16 (8 * p + pg - 0x10)))
    else if 0x20 ≤ pg && pg < 0x28 then some (.relay (Fin.ofNat 16 (8 * p + pg - 0x20)))
    else if pg = 0x28 then some (.slow (Fin.ofNat 2 p)) else none

end Sys2Proof.Machine

namespace Sys2Proof
open Machine

/-- ID.TYPE of a block (R40). -/
def Block.type : Block → Nat
  | .cp _ => 0x0001
  | .gme _ => 0x0002
  | .vu _ => 0x0003
  | .array _ => 0x0004
  | .mem _ .wm => 0x0005
  | .mem _ .am => 0x0006
  | .mem _ .pm => 0x0007
  | .sem _ => 0x0008
  | .dma _ _ => 0x0009
  | .larder _ => 0x0010
  | .dir _ => 0x0011
  | .hbm _ => 0x0020
  | .adder _ => 0x0021
  | .hub _ => 0x0022
  | .host => 0x0030
  | .cxl _ => 0x0031
  | .naulo _ => 0x0032
  | .relay _ => 0x0033
  | .slow _ => 0x0034
  | .mgmt _ => 0x0040
  | .stride _ => 0x0041
  | .errq _ => 0x0042
  | .security _ => 0x0043
  | .proxy _ => 0x0050
  | .router _ => 0x0051
  | .clock _ => 0x0052
  | .sensors _ => 0x0053
  | .glob _ => 0x0060

/-- ID.INSTANCE of a block (R40). -/
def Block.inst : Block → Nat
  | .cp c | .gme c | .vu c | .array c | .mem c _ | .sem c => c.val
  | .dma c ch => c.val * 8 + ch.val
  | .larder d | .dir d => d.val
  | .hbm s | .adder s => s.val
  | .hub h => h.val
  | .host => 0
  | .cxl p => p.val
  | .naulo p => p.val
  | .relay e => e.val
  | .slow p => p.val
  | .mgmt k | .stride k | .errq k | .security k => k.val
  | .proxy d | .router d | .clock d | .sensors d => d.val
  | .glob p => p.val

/-- The unit field of a block: TYPE above INSTANCE (R40, R382). -/
def Block.unit (b : Block) : Word := wordOf (b.type * 65536 + b.inst)

/-- The die that holds a block: 0–30 of R9, and 32 for SB (R40). A global page is served by the steward that is
active; it belongs to no die. -/
def Block.die : Block → Option DieId
  | .mgmt k | .stride k | .errq k | .security k => some (if k.val = 0 then 30 else 32)
  | .proxy d | .router d | .clock d | .sensors d => some d
  | .glob _ => none
  | b => some (Fin.ofNat 33 b.place.1)

/-- The core that a block belongs to. -/
def Block.core : Block → Option CoreId
  | .cp c | .gme c | .vu c | .array c | .mem c _ | .sem c | .dma c _ => some c
  | _ => none

/-- The registers of a block beyond the common header. -/
def Block.rows : Block → List RegRow
  | .cp _ => frontRows
  | .gme _ => gmeRows
  | .vu _ => []
  | .array _ => arrayRows
  | .mem _ m => coreMemRows m
  | .sem _ => semRows
  | .dma _ _ => dmaRows
  | .larder _ => larderRows ++ svcRows
  | .dir _ => dirRows
  | .hbm _ => hbmRows ++ svcRows
  | .adder _ => adderRows ++ svcRows
  | .hub _ => engineFrontRows ++ hubThinRows ++ updateRows
  | .host => hostPortRows
  | .cxl _ => cxlRows ++ svcRows
  | .naulo _ => nauloRows ++ svcRows
  | .relay _ => engineFrontRows ++ relayRows ++ relayDescRows
  | .slow _ => engineFrontRows ++ slowRows ++ updateRows.filter (fun r => r.off < 0x370 || 0x400 ≤ r.off)
  | .mgmt _ => mgmtRows
  | .stride _ => strideRows
  | .errq _ => errqRows
  | .security _ => securityRows
  | .proxy _ => proxyRows
  | .router _ => routerRows
  | .clock _ => clockRows
  | .sensors _ => sensorRows
  | .glob p =>
    match p.val with
    | 0 => identityRows
    | 1 => supplyRows
    | 2 => boardRows
    | 3 => thermalRows
    | 4 => ledgerRows
    | 5 => mapRows
    | 6 => fabricRows
    | 7 => traceRows
    | _ => if 16 ≤ p.val && p.val < 32 then cvRows else []

end Sys2Proof

namespace Sys2Proof.Machine

/-- Does the row hold the register at `off`? -/
def RegRow.covers (r : RegRow) (off : Nat) : Bool :=
  off = r.off || (r.off < off && r.step ≠ 0 && (off - r.off) % r.step = 0 && (off - r.off) / r.step < r.count)

/-- The row of a register of a block. -/
def findRow (b : Block) (off : Nat) : Option RegRow :=
  match headerRows.find? (fun r => r.covers off) with
  | some r => some r
  | none => b.rows.find? (fun r => r.covers off)

/-- The reset value of a register of a block (zero at a reserved offset, R4). -/
def resetValue (b : Block) (off : Nat) : Word :=
  if off = Reg.Hdr.ID then b.unit
  else match findRow b off with
    | some r => wordOf r.reset
    | none => 0

/-- The bits of a register that a plain write changes. -/
def writeMask (b : Block) (off : Nat) : Word :=
  match findRow b off with
  | some r => wordOf r.mask
  | none => 0

/-- The value in the register table at a register of a block. -/
def rget (s : State) (b : Block) (off : Nat) : Word := tget (resetValue b off) s.regs (b.base + off)

/-- Put a value in the register table, whatever the access of its fields: the device's own write. -/
def rput (s : State) (b : Block) (off : Nat) (v : Word) : State :=
  { s with regs := tset (resetValue b off) s.regs (b.base + off) v }

/-- A plain write of software: the bits of the write mask change, the others keep their value (R4, R5). -/
def rwrite (s : State) (b : Block) (off : Nat) (v : Word) : State :=
  rput s b off ((rget s b off &&& ~~~ (writeMask b off)) ||| (v &&& writeMask b off))

/-- A field of a register. -/
def rfield (s : State) (b : Block) (off hi lo : Nat) : Nat := bits (rget s b off) hi lo

/-- A bit of a register. -/
def rbit (s : State) (b : Block) (off i : Nat) : Bool := bit (rget s b off) i

/-- Set a field of a register. -/
def rputField (s : State) (b : Block) (off hi lo v : Nat) : State := rput s b off (withBits (rget s b off) hi lo v)

/-- Set a bit of a register. -/
def rputBit (s : State) (b : Block) (off i : Nat) (v : Bool) : State := rput s b off (withBit (rget s b off) i v)

/-- A value held in two registers, low word first. -/
def rget64 (s : State) (b : Block) (lo hi : Nat) : Nat := (rget s b lo).toNat + 2 ^ 32 * (rget s b hi).toNat

/-- Put a 64-bit value in two registers, low word first. -/
def rput64 (s : State) (b : Block) (lo hi v : Nat) : State := rput (rput s b lo (wordOf v)) b hi (wordHi v)

end Sys2Proof.Machine

namespace Sys2Proof
open Machine

/-- The number of a front end: a core's number, or 128 + e of R30. -/
def FrontId.num : FrontId → Nat
  | .cp c => c.val
  | .hub h => 128 + h.val
  | .slow p => 132 + p.val
  | .relay e => 144 + e.val

/-- The block of a front end. -/
def FrontId.block : FrontId → Block
  | .cp c => .cp c
  | .hub h => .hub h
  | .slow p => .slow p
  | .relay e => .relay e

end Sys2Proof

namespace Sys2Proof.Machine

/-- The front end of a number. -/
def frontOf (n : Nat) : Option FrontId :=
  if n < 128 then some (.cp (Fin.ofNat 128 n))
  else if n < 132 then some (.hub (Fin.ofNat 4 (n - 128)))
  else if n < 134 then some (.slow (Fin.ofNat 2 (n - 132)))
  else if 144 ≤ n && n < 160 then some (.relay (Fin.ofNat 16 (n - 144)))
  else none

/-- Every front end, in the order of the sources of R77. -/
def allFronts : List FrontId :=
  (List.finRange 128).map .cp ++ (List.finRange 4).map .hub ++ (List.finRange 2).map .slow
    ++ (List.finRange 16).map .relay

/-- The front end's state. -/
def getFront (s : State) (f : FrontId) : Front := tget Front.reset s.fronts f.num

/-- Replace a front end's state. -/
def putFront (s : State) (f : FrontId) (v : Front) : State := { s with fronts := tset Front.reset s.fronts f.num v }

end Sys2Proof.Machine
end

