-- ==== Sys2Proof/Machine/Crc.lean ====
section
/-!
DEFINITION. The three CRCs of the device (R467), which error records, sealed blocks and the factory records carry.
-/
namespace Sys2Proof.Machine

/-- A CRC of R467: its polynomial (bits reversed where it is computed reflected), initial value and final XOR. -/
structure Crc where
  width : Nat
  poly  : Nat
  init  : Nat
  refl  : Bool
  out   : Nat
  deriving DecidableEq, Repr

/-- CRC-32C: 0x1EDC6F41, reflected. -/
def crc32c : Crc := { width := 32, poly := 0x82F63B78, init := 0xFFFFFFFF, refl := true, out := 0xFFFFFFFF }

/-- CRC-64/ECMA-182. -/
def crc64 : Crc := { width := 64, poly := 0x42F0E1EBA9EA3693, init := 0, refl := false, out := 0 }

/-- CRC-16/CCITT, reflected form: 0x1021, reflected. -/
def crc16 : Crc := { width := 16, poly := 0x8408, init := 0, refl := true, out := 0 }

/-- The CRC that POLY selects; 3 is reserved. -/
def crcOf (poly : Nat) : Option Crc :=
  match poly with
  | 0 => some crc32c
  | 1 => some crc64
  | 2 => some crc16
  | _ => none

/-- One bit of the division. -/
def Crc.bit (k : Crc) (c : Nat) : Nat :=
  if k.refl then (if c % 2 = 1 then (c / 2) ^^^ k.poly else c / 2)
  else if 2 ^ (k.width - 1) ≤ c then (2 * c % 2 ^ k.width) ^^^ k.poly
  else 2 * c

/-- `n` bits of it. -/
def Crc.bits (k : Crc) : Nat → Nat → Nat
  | 0, c => c
  | n + 1, c => Crc.bits k n (k.bit c)

/-- Take one more byte. -/
def Crc.byte (k : Crc) (c : Nat) (b : Byte) : Nat :=
  k.bits 8 (if k.refl then c ^^^ b.toNat else c ^^^ (b.toNat * 2 ^ (k.width - 8)))

/-- Take more bytes, in increasing address order. -/
def Crc.update (k : Crc) (c : Nat) (l : List Byte) : Nat := l.foldl k.byte c

/-- The value of a finished computation. -/
def Crc.finish (k : Crc) (c : Nat) : Nat := c ^^^ k.out

/-- The CRC of some bytes. -/
def Crc.of (k : Crc) (l : List Byte) : Nat := k.finish (k.update k.init l)

end Sys2Proof.Machine
end

