-- ==== Sys2Proof/Machine/Flags.lean ====
section
/-!
DEFINITION. The flags of the device: always-on counters and their latches (R7, R50, R453–R457), error causes
(R47–R49), error records at their blocks (R418, R421), the step-skip and non-finite flags of the step ledger (R89,
R261, R262), and MSI-X messages (R511).
-/
namespace Sys2Proof.Machine

/-! Common causes (R47) and block causes of every page, by bit number. -/
namespace Cause
abbrev ADDRESS : Nat := 0
abbrev PROTOCOL : Nat := 1
abbrev MEMORY_DETECTED : Nat := 2
abbrev MEMORY_CORRECTED : Nat := 3
abbrev TIMEOUT : Nat := 4
abbrev POISON_CONSUMED : Nat := 5
abbrev FENCED_ACCESS : Nat := 6
abbrev CHECKSUM : Nat := 7
end Cause

/-- A larger number stops at `2^w - 1` (R7). -/
def sat (w n : Nat) : Nat := min n (2 ^ w - 1)

/-- The live value of counter `k` of a block's page (R453). -/
def ctr (s : State) (b : Block) (k : Nat) : Nat := tget 0 s.counters (b.page * 24 + k)

/-- Add `n` to counter `k` of a block's page; 64 bits, saturating (R7, R453). -/
def bump (s : State) (b : Block) (k n : Nat) : State :=
  { s with counters := tset 0 s.counters (b.page * 24 + k) (sat 64 (ctr s b k + n)) }

/-- Time-base ns since the latest tick fired (R461, R419). -/
def nsSinceTick (s : State) : Nat := s.now - s.stride.lastFire

/-- A latch of a block's counters (R455): all 24 live counters into the latched set, with the tag, stride count and
ns; nothing while FREEZE is 1. -/
def latchCounters (s : State) (b : Block) (tag : Tag) : State :=
  if rbit s b Reg.Hdr.LATCH_CTRL 1 then s
  else
    let l := (List.range 24).foldl (fun l k => tset 0 l (b.page * 24 + k) (ctr s b k)) s.latched
    let s := { s with latched := l }
    let s := rput s b Reg.Hdr.LATCH_TAG (wordOf tag.toNat)
    let s := rput64 s b Reg.Hdr.LATCH_STRIDE_LO Reg.Hdr.LATCH_STRIDE_HI s.stride.count
    rput s b Reg.Hdr.LATCH_NS (wordOf (nsSinceTick s))

/-- The block of the active steward's record queue (R447). -/
def activeQueue (s : State) : Block := .errq (if s.steward.activeSb then 1 else 0)

/-- The stride master in force: that of the active steward. -/
def activeStride (s : State) : Block := .stride (if s.steward.activeSb then 1 else 0)

/-- The step ledger's page (die 31, page 4). -/
abbrev ledgerPage : Block := .glob 4

/-- The fabric page (die 31, page 6). -/
abbrev fabricPage : Block := .glob 6

/-- The trace collector's page (die 31, page 7). -/
abbrev tracePage : Block := .glob 7

/-- The die number that an error record or a trace record gives a block (R9, R419). A global page stands with the
unit that the chapters place it on: the trace collector on MH0, check-value channel c on PD(c div 8), the others on
the stewards (assumption 13). -/
def recordDie (b : Block) : Nat :=
  match b with
  | .glob p => if p.val = 7 then 24 else if 16 ≤ p.val then 28 + (p.val - 16) / 8 else 30
  | b => b.place.1

/-- The die sensors that belong to a block's die. -/
def sensorsOf (s : State) (b : Block) : Block :=
  match b.die with
  | some d => .sensors d
  | none => match b with
    | .glob p => if p.val = 7 then .sensors 24 else if 16 ≤ p.val then .sensors (Fin.ofNat 33 (28 + (p.val - 16) / 8))
        else .sensors (if s.steward.activeSb then 32 else 30)
    | _ => .sensors 30

/-- What an occurrence of a cause carries to its record: tag and opcode of the operation, and the syndrome words 9–12
(R419, R422). -/
structure Occur where
  tag    : Tag
  opcode : Nat
  syn    : List Word
  deriving DecidableEq, Repr

/-- An occurrence outside any command. -/
def Occur.none : Occur := { tag := 0, opcode := 0, syn := [] }

/-- An occurrence in a command. -/
def Occur.of (tag : Tag) (opcode : Nat) : Occur := { tag := tag, opcode := opcode, syn := [] }

/-- The counts of a predictor that PRED_SEL selects (R223). -/
def predView (s : State) (c : CoreId) (off : Nat) : Option Word :=
  let p := tget PredLayer.reset s.preds (c.val * 256 + rfield s (.gme c) Reg.Gme.PRED_SEL 7 0)
  if off = Reg.Gme.PRED_AUDITED then some (wordOf p.audited)
  else if off = Reg.Gme.PRED_MISSES then some (wordOf p.misses)
  else if off = Reg.Gme.PRED_LAST_AUDITED then some (wordOf p.lastAudited)
  else if off = Reg.Gme.PRED_LAST_MISSES then some (wordOf p.lastMisses)
  else none

/-- The step numbers and the vote's stride that the ledger page shows (R261, R264, R265). -/
def stepView (s : State) (off : Nat) : Option Word :=
  let l := s.ledger
  if off = Reg.Led.STEP_ID_LO then some (wordOf l.stepId)
  else if off = Reg.Led.STEP_ID_HI then some (wordHi l.stepId)
  else if off = Reg.Led.LAST_STEP_ID_LO then some (wordOf l.lastStep)
  else if off = Reg.Led.LAST_STEP_ID_HI then some (wordHi l.lastStep)
  else if off = Reg.Led.VOTE_STRIDE_LO then some (wordOf l.voteStride)
  else if off = Reg.Led.VOTE_STRIDE_HI then some (wordHi l.voteStride)
  else none

/-- STEWARD_STATE and HANDLING of the active queue (R423, R450). -/
def stewardView (s : State) (off : Nat) : Option Word :=
  let x := s.steward
  let one (b : Bool) (k : Nat) : Nat := if b then 2 ^ k else 0
  if off = Reg.Erq.STEWARD_STATE then
    some (wordOf (one x.activeSb 0 + one x.standbyOk 2 + one x.failed 3 + rfield s (activeQueue s) off 31 16 * 2 ^ 16))
  else if off = Reg.Erq.HANDLING then
    some (match x.handling with
      | some r => r.unit.unit
      | none => 0)
  else none

/-- The value of a block-specific register as a syndrome holds it (R422). -/
def ownWord (s : State) (b : Block) (off : Nat) : Word :=
  let held := rget s b off
  let shown : Option Word :=
    match b with
    | .gme c => predView s c off
    | .errq _ => stewardView s off
    | .glob p =>
      if p.val = 4 then stepView s off
      else if p.val = 6 && off = Reg.Fab.ROUTE_DATA then
        some (wordOf (tget (0#16) s.routes (rfield s fabricPage Reg.Fab.ROUTE_INDEX 14 0)).toNat)
      else none
    | _ => none
  shown.getD held

/-- The block-specific registers that the rule of a front end's own cause names (R422). -/
def frontCauseRegs (b : Block) (cause : Nat) : List Nat :=
  match b, cause with
  | _, 9 => [Reg.Cp.RING_BASE_LO, Reg.Cp.RING_BASE_HI, Reg.Cp.RING_SIZE, Reg.Cp.RING_CTRL]
  | _, 10 => [Reg.Cp.CQ_BASE_LO, Reg.Cp.CQ_BASE_HI, Reg.Cp.CQ_SIZE, Reg.Cp.CQ_HEAD]
  | .cp _, _ => []
  | .hub _, 14 | .hub _, 15 => [Reg.Hub.FAULT_ENTRY]
  | .hub _, 18 => [Reg.Hub.CONFLICT_ENTRY]
  | .hub _, 20 => [Reg.Hub.PUB_WAIT_LIMIT]
  | .slow _, 14 => [Reg.Slow.PARK_BASE_LO, Reg.Slow.PARK_BASE_HI, Reg.Slow.PARK_SLOT_UNITS, Reg.Slow.PARK_CFG]
  | .relay _, 15 | .relay _, 16 => [Reg.Rel.COLL_TIMEOUT, Reg.Rel.MISMATCH_SRC]
  | .relay _, 18 => [Reg.Rel.DROPPED_ROWS]
  | .relay _, 19 => [Reg.Rel.SCRATCH_PEAK]
  | _, 21 => [Reg.Upd.DESC_RESULT]
  | _, 22 => [Reg.Upd.DESC_CREATE, Reg.Upd.DESC_TABLE_LOG2]
  | _, 23 => [Reg.Upd.DESC_TABLE_LOG2]
  | _, 27 => [Reg.Upd.SCHED_BASE_LO, Reg.Upd.SCHED_BASE_HI, Reg.Upd.SCHED_COUNT]
  | _, 28 => [Reg.Upd.DRIFT_POS_LO, Reg.Upd.DRIFT_POS_HI]
  | _, _ => []

/-- The same of the global pages. -/
def globalCauseRegs (p cause : Nat) : List Nat :=
  match p, cause with
  | 1, 9 => [Reg.Sup.FEED_CTRL]
  | 2, 8 | 2, 9 | 2, 10 | 2, 11 => [Reg.Brd.ALARM_CTRL]
  | 3, 8 | 3, 9 => [Reg.Thm.THROTTLE_TEMP, Reg.Thm.HBM_THROTTLE_TEMP, Reg.Thm.THROTTLED]
  | 3, 10 => [Reg.Thm.TRIP_INFO]
  | 4, 8 | 4, 9 => [Reg.Led.STEP_ID_LO, Reg.Led.STEP_ID_HI, Reg.Led.LAST_STEP_ID_LO, Reg.Led.LAST_STEP_ID_HI]
  | 4, 10 => [Reg.Led.STEP_ID_LO, Reg.Led.STEP_ID_HI, Reg.Led.VOTE_STRIDE_LO, Reg.Led.VOTE_STRIDE_HI]
  | 4, 11 => [Reg.Led.LEDGER_CTRL]
  | 6, 9 => [Reg.Fab.TT_PARENT, Reg.Fab.SYNC_STATE]
  | 6, 10 => [Reg.Fab.ROUTE_INDEX, Reg.Fab.ROUTE_DATA]
  | 7, 9 => [Reg.Trc.TRACE_CTRL, Reg.Trc.TRACE_SIZE, Reg.Trc.TRACE_HEAD, Reg.Trc.TRACE_TAIL]
  | 7, 8 | 7, 10 => [Reg.Trc.TRACE_CTRL, Reg.Trc.TRACE_BASE_LO, Reg.Trc.TRACE_BASE_HI, Reg.Trc.TRACE_SIZE]
  | p, 8 | p, 9 => if 16 ≤ p then [Reg.Cv.CV_CTRL] else []
  | p, 10 => if 16 ≤ p then [Reg.Cv.CV_PROGRESS_LO, Reg.Cv.CV_PROGRESS_HI] else []
  | p, 11 => if 16 ≤ p then [Reg.Cv.CV_STATE, Reg.Cv.CV_REPEATS, Reg.Cv.CV_SKIPPED, Reg.Cv.CV_ORDER] else []
  | _, _ => []

/-- The first four block-specific registers, in offset order, that the rule of a block's own cause names (R422). Which
registers a rule names is read from its text (DEDUCED, assumption 166). -/
def causeRegs (b : Block) (cause : Nat) : List Nat :=
  match b, cause with
  | .cp _, c | .hub _, c | .slow _, c | .relay _, c => frontCauseRegs b c
  | .glob p, c => globalCauseRegs p.val c
  | .stride _, 11 => [Reg.Str.STRIDE_PERIOD, Reg.Str.TICK_LEAD, Reg.Str.HOLD_BUDGET, Reg.Str.HOLD_LEAD]
  | .stride _, 13 => [Reg.Str.STRIDE_PERIOD, Reg.Str.HOLD_BUDGET]
  | .stride _, 14 => [Reg.Str.STRIDE_CTRL, Reg.Str.STRIDE_PERIOD, Reg.Str.TICK_LEAD, Reg.Str.HOLD_BUDGET]
  | .sem _, 8 | .sem _, 9 => [Reg.Sm.FAULT_INFO, Reg.Sm.FAULT_DELTA]
  | .array _, 8 | .array _, 9 | .array _, 12 => [Reg.Arr.PRECISION]
  | .gme _, 8 => [Reg.Gme.DESC_RESULT]
  | .gme _, 9 => [Reg.Gme.DESC_CREATE, Reg.Gme.DESC_TABLE_OFFSET, Reg.Gme.DESC_TABLE_LOG2]
  | .gme _, 10 => [Reg.Gme.DESC_TABLE_OFFSET, Reg.Gme.DESC_TABLE_LOG2]
  | .gme _, 17 => [Reg.Gme.INDEX_FAULT_POS, Reg.Gme.INDEX_FAULT_VALUE]
  | .gme _, 18 => [Reg.Gme.T_FAULT]
  | .gme _, 19 => [Reg.Gme.SCRATCH_USE]
  | .gme _, 21 => [Reg.Gme.PRED_AUDITED, Reg.Gme.PRED_MISSES, Reg.Gme.PRED_LAST_AUDITED, Reg.Gme.PRED_LAST_MISSES]
  | .mem _ _, 8 => [Reg.Mem.SEG_OFF]
  | .dma _ _, 8 => [Reg.Dma.DMA_CMD, Reg.Dma.HALT_INFO, Reg.Dma.HALT_ADDR_LO, Reg.Dma.HALT_ADDR_HI]
  | .hbm _, 8 => [Reg.Hbm.PC_RETIRED, Reg.Hbm.SPARE_MAP]
  | .hbm _, 11 => [Reg.Hbm.SPARE_BASE_LO, Reg.Hbm.SPARE_BASE_HI, Reg.Hbm.SPARE_SLOTS]
  | .hbm _, 12 => [Reg.Hbm.STACK_TEMP]
  | .adder _, 8 | .adder _, 9 => [Reg.Add.OVF_ADDR_LO, Reg.Add.OVF_ADDR_HI]
  | .cxl _, 8 => [Reg.Cxl.PORT_CTRL]
  | .cxl _, 9 => [Reg.Cxl.POISON_ADDR_LO, Reg.Cxl.POISON_ADDR_HI]
  | .cxl _, 10 | .cxl _, 12 => [Reg.Cxl.EXP_CAPACITY]
  | .errq _, 9 | .errq _, 16 | .errq _, 17 => [Reg.Erq.LOG_BASE_LO, Reg.Erq.LOG_BASE_HI, Reg.Erq.LOG_SIZE, Reg.Erq.LOG_HEAD]
  | .errq _, 10 => [Reg.Erq.HANDLING]
  | .errq _, 11 => [Reg.Erq.POLICY]
  | .errq _, 14 => [Reg.Erq.STEWARD_STATE]
  | .sensors _, 9 => [Reg.Sns.SLACK_MIN]
  | .security _, 8 | .security _, 9 | .security _, 10 =>
    [Reg.Sec.SEC_OP, Reg.Sec.SEC_ARG_LO, Reg.Sec.SEC_ARG_HI, Reg.Sec.SEC_ARG_LEN]
  | .host, 8 | .host, 9 => [Reg.Hst.BAR2_BASE_LO, Reg.Hst.BAR2_BASE_HI, Reg.Hst.BAR2_CTRL]
  | .host, 10 => [Reg.Hst.W_FAIL_ADDR_LO, Reg.Hst.W_FAIL_ADDR_HI]
  | _, _ => []

/-- Words 9–12 of a record: those that the occurrence carries, else the registers that the cause's rule names (R422). -/
def syndromeOf (s : State) (b : Block) (cause : Nat) (o : Occur) : List Word :=
  if o.syn = [] then (causeRegs b cause).map (ownWord s b) else o.syn

/-- The record of an occurrence, with the next sequence number (R418, R419). -/
def makeRecord (s : State) (b : Block) (cause : Nat) (o : Occur) (cls : Option Nat) : ErrRecord :=
  { seq := s.steward.seqNo % 2 ^ 32, unit := b, opcode := o.opcode, tag := o.tag, cause := cause, merged := 0,
    stride := s.stride.count, ns := nsSinceTick s,
    temp := (rget s (sensorsOf s b) Reg.Sns.DIE_TEMP).toNat,
    rail := (Config.measured (sensorsOf s b).base Reg.Sns.RAIL_MV s.now).toNat % 65536,
    syndrome := syndromeOf s b cause o, sentAt := s.now, cls := cls, limit := false }

/-- The next record takes the next sequence number. -/
def nextSeq (s : State) : State := { s with steward := { s.steward with seqNo := s.steward.seqNo + 1 } }

/-- Send an error record of an event (R418, R421): joined to the record that waits at the block if there is one. A
tuple that has made an event already sends nothing. -/
def sendRecord (s : State) (b : Block) (cause : Nat) (o : Occur) (cls : Option Nat) : State :=
  if s.events.contains (b.page, cause, o.tag, s.stride.count) then s
  else
    let s := { s with events := (b.page, cause, o.tag, s.stride.count) :: s.events }
    match s.records.find? (fun r => r.1 = b.page) with
    | some _ =>
      let join (r : Nat × ErrRecord) : Nat × ErrRecord :=
        if r.1 = b.page then (r.1, { r.2 with merged := sat 8 (r.2.merged + 1) }) else r
      bump { s with records := s.records.map join } (activeQueue s) 2 1
    | none =>
      nextSeq { s with records := s.records ++ [(b.page, makeRecord s b cause o cls)] }

/-- Set a cause in ERR_STATUS, count it in ERR_COUNT and load ERR_FIRST when it is not valid (R48, R49). -/
def setCause (s : State) (b : Block) (cause : Nat) (tag : Tag) : State :=
  let s := rputBit s b Reg.Hdr.ERR_STATUS cause true
  let s := rput s b Reg.Hdr.ERR_COUNT (wordOf (sat 32 ((rget s b Reg.Hdr.ERR_COUNT).toNat + 1)))
  if rbit s b Reg.Hdr.ERR_FIRST 15 then s
  else rput s b Reg.Hdr.ERR_FIRST (wordOf (tag.toNat * 65536 + 32768 + cause))

/-- Causes whose record goes whatever ERR_ENABLE holds (R48). -/
def alwaysSent (cause : Nat) : Bool := cause = 2 || cause = 5 || cause = 7

/-- An occurrence of a cause at a block (R48, R418). -/
def raiseWith (s : State) (b : Block) (cause : Nat) (o : Occur) : State :=
  let s := setCause s b cause o.tag
  if alwaysSent cause || rbit s b Reg.Hdr.ERR_ENABLE cause then sendRecord s b cause o none else s

/-- An occurrence of a cause in a command. -/
def raiseTag (s : State) (b : Block) (cause : Nat) (tag : Tag) (opcode : Nat) : State :=
  raiseWith s b cause (Occur.of tag opcode)

/-- An occurrence of a cause outside any command. -/
def raise (s : State) (b : Block) (cause : Nat) : State := raiseWith s b cause Occur.none

/-- An occurrence of a memory cause at a location (local address of the byte, word or block): a failure of the
same location before it has been rewritten belongs to the first event (R418). -/
def raiseAt (s : State) (b : Block) (cause : Nat) (o : Occur) (loc : Nat) : State :=
  if s.reported.contains loc then setCause s b cause o.tag
  else raiseWith { s with reported := sinsert s.reported loc } b cause o

/-- A location has been rewritten (R418). -/
def rewritten (s : State) (loc : Nat) : State := { s with reported := sremove s.reported loc }

/-- Set the step-skip flag, in the set of the ledger that receives events; `src` is the bit of SKIP_SOURCES
(R261, R262). -/
def stepSkip (s : State) (src : Nat) : State :=
  let put (x : LedgerSet) : LedgerSet := { x with skip := true, sources := x.sources ||| (1#11 <<< src) }
  match s.ledger.phase with
  | .open_ => { s with ledger := { s.ledger with current := put s.ledger.current } }
  | _ => { s with ledger := { s.ledger with next := put s.ledger.next } }

/-- Set the non-finite flag, in the set that receives events (R262). -/
def setNonfinite (s : State) : State :=
  match s.ledger.phase with
  | .open_ => { s with ledger := { s.ledger with current := { s.ledger.current with nonfinite := true } } }
  | _ => { s with ledger := { s.ledger with next := { s.ledger.next with nonfinite := true } } }

/-- Set the non-finite flag of the NEXT set (R278). -/
def setNonfiniteNext (s : State) : State :=
  { s with ledger := { s.ledger with next := { s.ledger.next with nonfinite := true } } }

/-- Add a sum of squares, counted in units of 2^-280, to the norm of the set that receives events (R263). -/
def addNorm (s : State) (n : Nat) : State :=
  match s.ledger.phase with
  | .open_ =>
    { s with ledger := { s.ledger with current := { s.ledger.current with norm := s.ledger.current.norm + n } } }
  | _ => { s with ledger := { s.ledger with next := { s.ledger.next with norm := s.ledger.next.norm + n } } }

/-- The ledger becomes torn (R268): cause TORN (11) of the ledger page. -/
def setTorn (s : State) : State := raise { s with ledger := { s.ledger with torn := true } } ledgerPage 11

/-- A record of what leaves the device or answers a requester. -/
def emit (s : State) (o : Output) : State := { s with outputs := s.outputs ++ [o] }

/-- Send an MSI-X message: at once while its vector is unmasked, else its pending bit is set (R511). Host port counter
7 counts messages (assumption 14 names the counters that the model keeps). -/
def sendMsi (s : State) (v : Nat) : State :=
  if s.host.unmasked.contains v then emit (bump s .host 7 1) (.msix v)
  else { s with host := { s.host with pendingMsi := sinsert s.host.pendingMsi v } }

/-- Count an event in lifetime counter `k` (R504); the steward writes the record at each counted event (R482). -/
def countLife (s : State) (k : Nat) : State :=
  let l := s.flash.lifetime
  { s with flash := { s.flash with lifetime := l.set k (sat 64 (l.getD k 0 + 1)), lifetimeSeq := s.flash.lifetimeSeq + 1 } }

/-- Has start-up reached READY (R478)? -/
def isReady (s : State) : Bool := s.boot.phase = .ready

/-- Does a page accept accesses, and its block ENABLE: all of them once TEST has ended, before that those of dies 30 and 31
and the host port's (R478, R481)? -/
def pageOpen (s : State) (b : Block) : Bool :=
  isReady s || (match b with
    | .host => true
    | b => 30 ≤ b.place.1)

/-- A free value has been used (the model's own counter). -/
def useFresh (s : State) : State := { s with fresh := s.fresh + 1 }

end Sys2Proof.Machine
end

