-- ==== Sys2Proof/Machine/Mesh.lean ====
section
/-!
DEFINITION. The package network: where dies stand (R9), the route of a packet (R13), the state of the paths it takes
(R12, R436, R441), and the flits that routers pass on.
-/
namespace Sys2Proof.Machine

/-! ### Where dies stand (R9), and by which input a packet arrives (R13, R77) -/

/-- Row and column of a die. -/
def diePos (d : DieId) : Nat × Nat :=
  let n := d.val
  if n < 16 then (1 + n / 4, 1 + n % 4)
  else if n < 18 then (0, 2 + (n - 16))
  else if n < 20 then (5, 2 + (n - 18))
  else if n < 22 then (2 + (n - 20), 0)
  else if n < 24 then (2 + (n - 22), 5)
  else if n = 24 then (0, 1)
  else if n = 25 then (0, 4)
  else if n = 26 then (5, 1)
  else if n = 27 then (5, 4)
  else if n = 28 then (1, 0)
  else if n = 29 then (1, 5)
  else if n = 30 then (4, 0)
  else (4, 5)

/-- The arrival port of R77 at die `t` of a packet from die `f`: 0 from the same die, else 1 + k for link k. A packet
from row 0 or 5 goes along its column first, every other along its row first (R13). -/
def arrivalPort (f t : DieId) : Nat :=
  let (fr, fc) := diePos f
  let (tr, tc) := diePos t
  let alongRow : Nat := if fc < tc then 4 else 2
  let alongCol : Nat := if fr < tr then 1 else 3
  if fr = tr ∧ fc = tc then 0
  else if fr = 0 ∨ fr = 5 then (if fc = tc then alongCol else alongRow)
  else (if fr = tr then alongRow else alongCol)

/-- The die of a block. Of the global pages, the trace collector stands on MH0 and check-value channel c on PD(c div 8);
the others are the active steward's. -/
def dieOf (s : State) (b : Block) : DieId :=
  match b.die, b with
  | some d, _ => d
  | none, .glob p =>
    if p.val = 7 then 24
    else if 16 ≤ p.val then Fin.ofNat 33 (28 + (p.val - 16) / 8)
    else if s.steward.activeSb then 32 else 30
  | none, _ => if s.steward.activeSb then 32 else 30

/-! ### Paths (R12, R441) -/

/-- Key of the path that arrives at a die by a link. -/
def pathKey (d : DieId) (k : Fin 4) : Nat := d.val * 4 + k.val

/-- A path's state. -/
def getPath (s : State) (d : DieId) (k : Fin 4) : PathState := tget PathState.reset s.paths (pathKey d k)

/-- Replace it. -/
def putPath (s : State) (d : DieId) (k : Fin 4) (v : PathState) : State :=
  { s with paths := tset PathState.reset s.paths (pathKey d k) v }

/-- Does link `k` of a die join it to a neighbour (R9, R11)? -/
def linkPresent (d : DieId) (k : Fin 4) : Bool :=
  let (r, c) := diePos d
  let hit (x : Nat × Nat) : Bool := match k.val with
    | 0 => x.1 + 1 = r && x.2 = c
    | 1 => x.1 = r && x.2 = c + 1
    | 2 => x.1 = r + 1 && x.2 = c
    | _ => x.1 = r && x.2 + 1 = c
  d.val ≠ 31 && (List.finRange 33).any (fun x => x.val ≠ 31 && hit (diePos x))

/-! ### Routes (R13) -/

/-- The die at a position of the mesh (R9). -/
def dieAt (p : Nat × Nat) : DieId :=
  ((List.finRange 33).find? (fun d => d.val ≠ 31 && diePos d = p)).getD 31

/-- The numbers after `a` on the way to `b`. -/
def walk (a b : Nat) : List Nat :=
  if a ≤ b then (List.range (b - a)).map (fun i => a + 1 + i) else (List.range (a - b)).map (fun i => a - 1 - i)

/-- The positions that a packet from die `f` enters on its way to die `t`, in order: along its column first where its
source lies in row 0 or 5, else along its row first (R13). -/
def routePos (f t : DieId) : List (Nat × Nat) :=
  let (fr, fc) := diePos f
  let (tr, tc) := diePos t
  if fr = 0 ∨ fr = 5 then (walk fr tr).map (·, fc) ++ (walk fc tc).map (tr, ·)
  else (walk fc tc).map (fr, ·) ++ (walk fr tr).map (·, tc)

/-- The link by which a packet that comes from position `a` enters position `b`. -/
def entryLink (a b : Nat × Nat) : Fin 4 :=
  if a.1 < b.1 then 0 else if b.1 < a.1 then 2 else if b.2 < a.2 then 1 else 3

/-- The paths of a route that has reached position `p`: each by the die that it arrives at and its link there. -/
def routeFrom (p : Nat × Nat) : List (Nat × Nat) → List (DieId × Fin 4)
  | [] => []
  | q :: t => (dieAt q, entryLink p q) :: routeFrom q t

/-- The route of a packet (R13): the paths that it takes, in order. -/
def routeOf (f t : DieId) : List (DieId × Fin 4) := routeFrom (diePos f) (routePos f t)

/-- The dies whose routers pass a packet on to a link: all of its way but the last. -/
def routersOf (f t : DieId) : List DieId := if f = t then [] else f :: ((routeOf f t).map (·.1)).dropLast

/-- Is a die paused while its PLL relocks (R436)? -/
def dieRelocks (s : State) (d : DieId) : Bool := s.relocks.any (fun x => x.1 = d.val)

/-- Has a path of the route stopped (R441)? No packet gets through. -/
def routeStopped (s : State) (f t : DieId) : Bool :=
  s.paths ≠ [] && (routeOf f t).any (fun x => (getPath s x.1 x.2).stopped)

/-- Does a packet wait on its way: a die of it is paused (R436), or a path of it for a wire change (R441)? -/
def routeWaits (s : State) (f t : DieId) : Bool :=
  (s.relocks ≠ [] && (dieRelocks s f || dieRelocks s t || (routeOf f t).any (fun x => dieRelocks s x.1))) ||
  (s.paths ≠ [] && (routeOf f t).any (fun x => (getPath s x.1 x.2).paused.isSome))

/-- Count `n` flits at every router that passes them on to a link. -/
def passFlits (s : State) (f t : DieId) (n : Nat) : State :=
  (routersOf f t).foldl (fun s d => bump s (.router d) 0 n) s

/-- Flits of a packet with `n` bytes of payload: a header and its payload (R10). -/
def packetFlits (n : Nat) : Nat := 1 + cdiv n 64

end Sys2Proof.Machine
end

