-- ==== Sys2Proof/Machine/Codes.lean ====
section
/-!
DEFINITION. The symbol codes of the larder (R320) and of HBM (R344): codewords over GF(16) with three check symbols, which
correct one symbol in error and detect two.
-/
namespace Sys2Proof.Machine

/-- Multiplication of GF(16) with the field polynomial x^4 + x + 1: `n` bits of `b` from the top. -/
def gfMulFrom (a b : Nat) : Nat → Nat
  | 0 => 0
  | n + 1 =>
    let x := gfMulFrom a (b / 2) n * 2
    let x := if 16 ≤ x then (x ^^^ 19) % 16 else x
    if b % 2 = 1 then x ^^^ a else x

/-- Multiplication of GF(16). -/
def gfMul (a b : Nat) : Nat := gfMulFrom (a % 16) (b % 16) 4

/-- α to the power `n`, α a root of the field polynomial. -/
def gfPow : Nat → Nat
  | 0 => 1
  | n + 1 => gfMul (gfPow n) 2

/-- Symbol `j` of a pattern of four-bit symbols. -/
def symbolAt (p j : Nat) : Nat := p / 16 ^ j % 16

/-- Put a symbol into a pattern. -/
def setSymbol (p j v : Nat) : Nat := p - symbolAt p j * 16 ^ j + v % 16 * 16 ^ j

/-- The three check sums of an error pattern: symbol j times 1, β_j and the square of β_j, summed. A codeword's own are
0, so those of what is read are those of the error pattern. -/
def syndromes (loc : List Nat) (p : Nat) : Nat × Nat × Nat :=
  loc.zipIdx.foldl (fun x (b, j) =>
    let e := symbolAt p j
    (x.1 ^^^ e, x.2.1 ^^^ gfMul e b, x.2.2 ^^^ gfMul e (gfMul b b))) (0, 0, 0)

/-- How a codeword reads: with no check sum wrong; one symbol corrected (symbol, error value); or uncorrectable. `left`
is the pattern that stays in what is read: 0 but where three or more symbols were in error. -/
inductive Decoded where
  | good (left : Nat)
  | corrected (symbol value left : Nat)
  | bad
  deriving DecidableEq, Repr

/-- Decode an error pattern under the code with locators β_j: a pattern with the check sums of one symbol in error is
taken for that, every other with a check sum that is not 0 is uncorrectable. Where three or more symbols are in error, for
which R320 and R344 give no guarantee, this is the model's reading (assumption 40). -/
def decodePattern (loc : List Nat) (p : Nat) : Decoded :=
  let (s0, s1, s2) := syndromes loc p
  if s0 = 0 ∧ s1 = 0 ∧ s2 = 0 then .good p
  else
    match loc.findIdx? (fun b => s0 ≠ 0 && s1 = gfMul s0 b && s2 = gfMul s0 (gfMul b b)) with
    | some j => .corrected j s0 (setSymbol p j (symbolAt p j ^^^ s0))
    | none => .bad

/-- Locators of a larder word's eleven symbols (R320): symbol i is the coefficient of x^(10 - i), so that the check
symbols 8 to 10 are the remainder by the generator (x + 1)(x + α)(x + α^2), whose roots are 1, α and α^2 (DEDUCED, log
entry 146). -/
def larderLocators : List Nat := (List.range 11).map (fun i => gfPow (10 - i))

/-- Locators of codeword `c` of an HBM block (R344): α^j at position j, 0 at position 15. -/
def hbmLocators (c : Nat) : List Nat :=
  (List.range (if c < 8 then 16 else 15)).map (fun j => if j = 15 then 0 else gfPow j)

end Sys2Proof.Machine
end

