-- ==== Sys2Proof/Machine/Numeric.lean ====
section
/-!
DEFINITION. Numbers: the element formats of R107–R110, exact dyadic values, the rounding of R128, R137 and IEEE 754,
the FP32 operations of R142, the correctly rounded functions of R133 and R142, and the generators of R135.
A finite value is (-1)^neg × m × 2^e exactly, so nothing rounds before the one rounding that a rule names.
-/
namespace Sys2Proof.Machine

/-- A number: NaN, an infinity, or an exact dyadic value with its sign. -/
inductive Val where
  | nan
  | inf (neg : Bool)
  | fin (neg : Bool) (m : Nat) (e : Int)
  deriving DecidableEq, Repr

/-- What the all-ones exponent means in a format (R108). -/
inductive Special where
  /-- no infinity and no NaN: E3M2, E2M3, E2M1 -/
  | none
  /-- E4M3: only S.1111.111 is a NaN -/
  | e4m3
  /-- IEEE 754: infinities and NaNs -/
  | ieee
  deriving DecidableEq, Repr

/-- A floating-point element encoding (R108): exponent bits, mantissa bits, bias. -/
structure FloatFmt where
  ebits : Nat
  mbits : Nat
  bias  : Nat
  special : Special
  deriving DecidableEq, Repr

/-- FP8 E4M3. -/
def e4m3 : FloatFmt := ⟨4, 3, 7, .e4m3⟩
/-- FP8 E5M2. -/
def e5m2 : FloatFmt := ⟨5, 2, 15, .ieee⟩
/-- FP6 E3M2. -/
def e3m2 : FloatFmt := ⟨3, 2, 3, .none⟩
/-- FP6 E2M3. -/
def e2m3 : FloatFmt := ⟨2, 3, 1, .none⟩
/-- FP4 E2M1. -/
def e2m1 : FloatFmt := ⟨2, 1, 1, .none⟩
/-- BF16. -/
def bf16 : FloatFmt := ⟨8, 7, 127, .ieee⟩
/-- FP16. -/
def fp16 : FloatFmt := ⟨5, 10, 15, .ieee⟩
/-- FP32. -/
def fp32 : FloatFmt := ⟨8, 23, 127, .ieee⟩

/-- The weight exponent of a format's least subnormal. -/
def FloatFmt.qmin (f : FloatFmt) : Int := 1 - (f.bias : Int) - f.mbits

/-- The code, without its sign, of a format's largest finite value. -/
def FloatFmt.maxCode (f : FloatFmt) : Nat :=
  match f.special with
  | .none => 2 ^ (f.ebits + f.mbits) - 1
  | .e4m3 => 2 ^ (f.ebits + f.mbits) - 2
  | .ieee => (2 ^ f.ebits - 1) * 2 ^ f.mbits - 1

/-- The canonical NaN of a format (R108); zero where the format has none. -/
def FloatFmt.nanCode (f : FloatFmt) : Nat :=
  match f.special with
  | .none => 0
  | .e4m3 => 2 ^ (f.ebits + f.mbits) - 1
  | .ieee => (2 ^ f.ebits - 1) * 2 ^ f.mbits + 2 ^ (f.mbits - 1)

/-- The value of an element code (R108). -/
def FloatFmt.decode (f : FloatFmt) (w : Nat) : Val :=
  let neg := w.testBit (f.ebits + f.mbits)
  let ef := (w / 2 ^ f.mbits) % 2 ^ f.ebits
  let man := w % 2 ^ f.mbits
  if f.special = .ieee ∧ ef = 2 ^ f.ebits - 1 then (if man = 0 then .inf neg else .nan)
  else if f.special = .e4m3 ∧ ef = 2 ^ f.ebits - 1 ∧ man = 2 ^ f.mbits - 1 then .nan
  else if ef = 0 then .fin neg man f.qmin
  else .fin neg (2 ^ f.mbits + man) (f.qmin + ef - 1)

/-- How a result is rounded (R128, R137): nearest even, stochastic with a 24-bit draw, toward zero. -/
inductive Rounding where
  | nearest
  | stochastic (draw : Nat)
  | toZero
  deriving DecidableEq, Repr

/-- `n / d` rounded to an integer (R137 for the stochastic form). -/
def roundDiv (r : Rounding) (n d : Nat) : Nat :=
  let k := n / d
  let rem := n % d
  match r with
  | .toZero => k
  | .nearest => if 2 * rem > d then k + 1 else if 2 * rem = d then k + k % 2 else k
  | .stochastic draw => if rem * 2 ^ 24 / d + draw ≥ 2 ^ 24 then k + 1 else k

/-- Numerator and denominator of `n / d × 2^e`. -/
def scale2 (n d : Nat) (e : Int) : Nat × Nat :=
  if 0 ≤ e then (n * 2 ^ e.toNat, d) else (n, d * 2 ^ (-e).toNat)

/-- floor(log2 (n / d)) of a positive ratio. -/
def floorLog2 (n d : Nat) : Int :=
  let a : Int := (Nat.log2 n : Int) - Nat.log2 d
  let (x, y) := scale2 n d (-a)
  if x < y then a - 1 else a

/-- The magnitude code of a positive ratio `n / d` rounded in a format; a code past `maxCode` is an overflow. Codes
rise with the values they stand for, one by one. -/
def FloatFmt.roundCode (f : FloatFmt) (r : Rounding) (n d : Nat) : Nat :=
  if n = 0 then 0
  else
    let q := max (floorLog2 n d - f.mbits) f.qmin
    let (x, y) := scale2 n d (-q)
    (q - f.qmin).toNat * 2 ^ f.mbits + roundDiv r x y

/-- A code with its sign. -/
def FloatFmt.sign (f : FloatFmt) (neg : Bool) (code : Nat) : Nat :=
  (if neg then 2 ^ (f.ebits + f.mbits) else 0) + code

/-- The code of an infinity in an IEEE format. -/
def FloatFmt.infCode (f : FloatFmt) : Nat := f.maxCode + 1

/-- A finite magnitude after rounding, with the overflow columns of R128. -/
def FloatFmt.finish (f : FloatFmt) (r : Rounding) (sat neg : Bool) (code : Nat) : Nat :=
  if code ≤ f.maxCode then f.sign neg code
  else if r = .toZero then f.sign neg f.maxCode
  else match f.special with
    | .none => f.sign neg f.maxCode
    | .e4m3 => if sat then f.sign neg f.maxCode else f.nanCode
    | .ieee => f.sign neg (if sat then f.maxCode else f.infCode)

/-- Output conversion (R128): the element code, and whether a NaN had no representation. -/
def FloatFmt.convert (f : FloatFmt) (r : Rounding) (sat : Bool) (v : Val) : Nat × Bool :=
  match v with
  | .nan => (f.nanCode, f.special = .none)
  | .inf neg =>
    match f.special with
    | .none => (f.sign neg f.maxCode, false)
    | .e4m3 => (if sat then f.sign neg f.maxCode else f.nanCode, false)
    | .ieee => (f.sign neg f.infCode, false)
  | .fin neg m e =>
    let (n, d) := scale2 m 1 e
    (f.finish r sat neg (f.roundCode r n d), false)

/-- A ratio rounded once to FP32, nearest even; past the largest finite it is an infinity. -/
def rneRatio (neg : Bool) (n d : Nat) : Val := fp32.decode (fp32.finish .nearest false neg (fp32.roundCode .nearest n d))

/-- A value rounded once to FP32, nearest even (RNE32 of R117). -/
def rne32 (v : Val) : Val := fp32.decode (fp32.convert .nearest false v).1

/-- The FP32 value of a word. -/
def f32 (w : Word) : Val := fp32.decode w.toNat

/-- The word of a value that FP32 holds, and the rounded one otherwise; a NaN becomes the canonical NaN (R108). -/
def toF32 (v : Val) : Word := wordOf (fp32.convert .nearest false v).1

/-- A value that is not finite. -/
def Val.nonfinite : Val → Bool
  | .fin _ _ _ => false
  | _ => true

/-- Zero of either sign. -/
def Val.isZero : Val → Bool
  | .fin _ m _ => m = 0
  | _ => false

/-- Positive zero. -/
def Val.zero : Val := .fin false 0 0

/-- One. -/
def Val.one : Val := .fin false 1 0

/-- The opposite value. -/
def Val.neg : Val → Val
  | .nan => .nan
  | .inf b => .inf (!b)
  | .fin b m e => .fin (!b) m e

/-- The magnitude. -/
def Val.abs : Val → Val
  | .nan => .nan
  | .inf _ => .inf false
  | .fin _ m e => .fin false m e

/-- The sign bit. -/
def Val.isNeg : Val → Bool
  | .nan => false
  | .inf b => b
  | .fin b _ _ => b

/-- A signed integer times 2^e. -/
def ofInt (i : Int) (e : Int) : Val := .fin (i < 0) i.natAbs e

/-- The signed integer of a magnitude. -/
def signedNat (neg : Bool) (m : Nat) : Int := if neg then -(m : Int) else m

/-- Exact sum; an exact zero is +0 unless both are -0 (IEEE 754, nearest even). -/
def Val.add : Val → Val → Val
  | .nan, _ | _, .nan => .nan
  | .inf a, .inf b => if a = b then .inf a else .nan
  | .inf a, .fin _ _ _ => .inf a
  | .fin _ _ _, .inf b => .inf b
  | .fin na ma ea, .fin nb mb eb =>
    let e := min ea eb
    let i := signedNat na ma * 2 ^ (ea - e).toNat + signedNat nb mb * 2 ^ (eb - e).toNat
    if i = 0 then .fin (na && nb) 0 0 else ofInt i e

/-- Exact product. -/
def Val.mul : Val → Val → Val
  | .nan, _ | _, .nan => .nan
  | .inf a, .inf b => .inf (a != b)
  | .inf a, .fin nb mb _ => if mb = 0 then .nan else .inf (a != nb)
  | .fin na ma _, .inf b => if ma = 0 then .nan else .inf (na != b)
  | .fin na ma ea, .fin nb mb eb => .fin (na != nb) (ma * mb) (ea + eb)

/-- FP32 sum (R142). -/
def addF (x y : Val) : Val := rne32 (x.add y)
/-- FP32 difference. -/
def subF (x y : Val) : Val := rne32 (x.add y.neg)
/-- FP32 product. -/
def mulF (x y : Val) : Val := rne32 (x.mul y)
/-- FP32 fused multiply-add, one rounding. -/
def fmaF (x y z : Val) : Val := rne32 ((x.mul y).add z)

/-- FP32 quotient, one rounding. -/
def divF : Val → Val → Val
  | .nan, _ | _, .nan => .nan
  | .inf _, .inf _ => .nan
  | .inf a, .fin nb _ _ => .inf (a != nb)
  | .fin na _ _, .inf b => .fin (na != b) 0 0
  | .fin na ma ea, .fin nb mb eb =>
    if mb = 0 then (if ma = 0 then .nan else .inf (na != nb))
    else
      let (n, d) := scale2 ma mb (ea - eb)
      rneRatio (na != nb) n d

/-- Strictly greater, in IEEE order; false where either is a NaN (R131). -/
def Val.gt : Val → Val → Bool
  | .nan, _ | _, .nan => false
  | .inf a, .inf b => !a && b
  | .inf a, .fin _ _ _ => !a
  | .fin _ _ _, .inf b => b
  | .fin na ma ea, .fin nb mb eb =>
    let e := min ea eb
    signedNat nb mb * 2 ^ (eb - e).toNat < signedNat na ma * 2 ^ (ea - e).toNat

/-- Are both values NaN, or equal in IEEE order? -/
def Val.same (x y : Val) : Bool := (x = .nan && y = .nan) || (x ≠ .nan && y ≠ .nan && !x.gt y && !y.gt x)

/-! ### Roots -/

/-- The largest r with r² ≤ n, for n below 4^b. -/
def isqrt : Nat → Nat → Nat
  | 0, _ => 0
  | b + 1, n =>
    let r := 2 * isqrt b (n / 4)
    if (r + 1) * (r + 1) ≤ n then r + 1 else r

/-- The square root of `n / d` as a ratio that rounds as the root does: its floor on a fine grid, with a half unit
added where it is not exact. -/
def sqrtRatio (n d : Nat) : Nat × Nat :=
  let x := n * 4 ^ 300 / d
  let r := isqrt (Nat.log2 x / 2 + 1) x
  (if r * r * d = n * 4 ^ 300 then 2 * r else 2 * r + 1, 2 * 2 ^ 300)

/-- FP32 square root, correctly rounded. -/
def sqrtF : Val → Val
  | .nan => .nan
  | .inf b => if b then .nan else .inf false
  | .fin b m e =>
    if m = 0 then .fin b 0 0
    else if b then .nan
    else
      let (n, d) := scale2 m 1 e
      let (x, y) := sqrtRatio n d
      rneRatio false x y

/-- FP32 reciprocal square root, correctly rounded. -/
def rsqrtF : Val → Val
  | .nan => .nan
  | .inf b => if b then .nan else .fin false 0 0
  | .fin b m e =>
    if m = 0 then .inf b
    else if b then .nan
    else
      let (n, d) := scale2 m 1 e
      let (x, y) := sqrtRatio d n
      rneRatio false x y

/-! ### Exponentials and logarithms, in fixed point with `fbits` fraction bits -/

/-- Fraction bits of the fixed-point functions: enough that no FP32 argument leaves the rounding in doubt
(assumption 21). -/
def fbits : Nat := 640

/-- Σ over k = 1 … n of 2^fbits / (k 2^k): ln 2 in fixed point. -/
def ln2Sum : Nat → Nat
  | 0 => 0
  | k + 1 => ln2Sum k + 2 ^ fbits / ((k + 1) * 2 ^ (k + 1))

/-- ln 2 in fixed point. -/
def ln2Fix : Nat := ln2Sum 700

/-- Horner's form of the exponential series, from term `k` inward: 1 + t/k (1 + …). -/
def expSeries (t : Nat) : Nat → Nat → Nat
  | 0, _ => 2 ^ fbits
  | fuel + 1, k => 2 ^ fbits + t * expSeries t fuel (k + 1) / (k * 2 ^ fbits)

/-- 2^f in fixed point, for f in [0, 1) in fixed point. -/
def exp2Frac (f : Nat) : Nat := expSeries (f * ln2Fix / 2 ^ fbits) 140 1

/-- 2^x of a signed fixed-point x, as a ratio. -/
def exp2Fix (x : Int) : Nat × Nat :=
  let k := x / 2 ^ fbits
  let f := (x % 2 ^ fbits).toNat
  scale2 (exp2Frac f) (2 ^ fbits) k

/-- A dyadic value in fixed point, rounded down. -/
def toFix (neg : Bool) (m : Nat) (e : Int) : Int :=
  let (n, d) := scale2 m 1 (e + fbits)
  signedNat neg n / d

/-- e^x of a signed fixed-point x, as a ratio. -/
def expFix (x : Int) : Nat × Nat := exp2Fix (x * 2 ^ fbits / ln2Fix)

/-- 2^x, correctly rounded (R133, R142). Past these limits the result is an infinity or rounds to zero. -/
def exp2F : Val → Val
  | .nan => .nan
  | .inf b => if b then .fin false 0 0 else .inf false
  | .fin b m e =>
    if m = 0 then Val.one
    else if e + Nat.log2 m ≥ 9 then (if b then .fin false 0 0 else .inf false)
    else
      let (n, d) := exp2Fix (toFix b m e)
      rneRatio false n d

/-- Σ of z^(2i+1) / (2i+1), Horner form: 1/k + z² (1/(k+2) + …), fixed point. -/
def atanhSeries (z2 : Nat) : Nat → Nat → Nat
  | 0, _ => 0
  | fuel + 1, k => 2 ^ fbits / k + z2 * atanhSeries z2 fuel (k + 2) / 2 ^ fbits

/-- ln y in fixed point, for y = n / 2^b in [1, 2). -/
def lnFrac (n b : Nat) : Nat :=
  let z := (n - 2 ^ b) * 2 ^ fbits / (n + 2 ^ b)
  2 * (z * atanhSeries (z * z / 2 ^ fbits) 210 1 / 2 ^ fbits)

/-- log2 x, correctly rounded (R142). Of a zero or a negative number the specification states no result: it is free
(assumption 22). -/
def log2F : Val → Val
  | .nan => .nan
  | .inf b => if b then f32 (Config.log2Open (toF32 (.inf b))) else .inf false
  | .fin b m e =>
    if m = 0 ∨ b then f32 (Config.log2Open (toF32 (.fin b m e)))
    else
      let l := Nat.log2 m
      if m = 2 ^ l then rne32 (ofInt (e + l) 0)
      else
        let x : Int := (e + l) * 2 ^ fbits + (lnFrac m l * 2 ^ fbits / ln2Fix : Nat)
        rneRatio (x < 0) x.natAbs (2 ^ fbits)

/-- FP32 reciprocal (R142). -/
def recipF (x : Val) : Val := divF Val.one x

/-- tanh x = sign × (1 - u) / (1 + u) with u = e^(-2|x|) (R142). -/
def tanhF : Val → Val
  | .nan => .nan
  | .inf b => .fin b 1 0
  | .fin b m e =>
    if m = 0 then .fin b 0 0
    else if e + Nat.log2 m ≥ 6 then .fin b 1 0
    else
      let (n, d) := expFix (-(2 * toFix false m e))
      rneRatio b (d - n) (d + n)

/-- 1 / (1 + e^-x) (R142). -/
def sigmoidF : Val → Val
  | .nan => .nan
  | .inf b => if b then .fin false 0 0 else Val.one
  | .fin b m e =>
    if e + Nat.log2 m ≥ 8 ∧ m ≠ 0 then (if b then .fin false 0 0 else Val.one)
    else
      let (n, d) := expFix (-(toFix b m e))
      rneRatio false d (d + n)

/-- x / (1 + e^-x), one rounding (R142). At minus infinity the specification states no result: it is free
(assumption 22). -/
def siluF : Val → Val
  | .nan => .nan
  | .inf b => if b then f32 Config.siluOpen else .inf false
  | .fin b m e =>
    if m = 0 then .fin b 0 0
    else if e + Nat.log2 m ≥ 8 then (if b then .fin true 0 0 else .fin false m e)
    else
      let (n, d) := expFix (-(toFix b m e))
      let (x, y) := scale2 (m * d) (d + n) e
      rneRatio b x y

/-! ### The long accumulator's grid -/

/-- A finite magnitude m × 2^e on the grid of 2^-280, nearest even where it does not lie on it: units, exact (R112,
R114). -/
def onGrid (m : Nat) (e : Int) : Nat × Bool :=
  let (n, d) := scale2 m 1 (e + 280)
  (roundDiv .nearest n d, n % d = 0)

/-- An exact sum in units of 2^-280 as a value. -/
def ofGrid (i : Int) : Val := ofInt i (-280)

/-- A finite FP32 value on the grid. -/
def gridInt : Val → Int
  | .fin b m e => signedNat b (onGrid m e).1
  | _ => 0

/-! ### Element formats (R107–R110) -/

/-- The element encoding of a format code; MX codes have that of their elements. -/
def elemFmt : Nat → Option FloatFmt
  | 0x0 | 0x8 => some e4m3
  | 0x1 | 0x9 => some e5m2
  | 0x2 | 0xA => some e3m2
  | 0x3 | 0xB => some e2m3
  | 0x4 | 0xC => some e2m1
  | 0x5 => some bf16
  | 0x6 => some fp16
  | 0x7 => some fp32
  | _ => none

/-- Is the format an MX format? -/
def isMx (f : Nat) : Bool := 0x8 ≤ f && f ≤ 0xC

/-- Bits of an element (R107, R109). -/
def elemBits : Nat → Nat
  | 0x0 | 0x1 | 0x8 | 0x9 => 8
  | 0x2 | 0x3 | 0xA | 0xB => 6
  | 0x4 | 0xC => 4
  | 0x5 | 0x6 => 16
  | 0x7 | 0xE => 32
  | 0xD => 64
  | _ => 8

/-- May the format be an array operand (R107)? -/
def isOperandFmt (f : Nat) : Bool := f ≤ 6 || isMx f

/-- May the format be a PM total (R107)? -/
def isTotalFmt (f : Nat) : Bool := f = 7 || f = 0xD

/-- May the format be an output of the drain or the VU, or a VU input (R107)? -/
def isOutFmt (f : Nat) : Bool := f ≤ 7 || isMx f

/-- The value of an element code of a format other than paired FP32, without its block scale. -/
def decodeElem (f code : Nat) : Val :=
  match elemFmt f with
  | some x => x.decode code
  | none => if f = 0xE then ofInt (signed 32 code) 0 else
      (fp32.decode (code % 2 ^ 32)).add (fp32.decode (code / 2 ^ 32))

/-- A block scale (R108, R110) applied: value × 2^(X − 127); 0xFF makes it a NaN. -/
def scaleVal (x : Nat) (v : Val) : Val :=
  if x = 0xFF then .nan
  else match v with
    | .fin b m e => .fin b m (e + x - 127)
    | v => v

/-- The exponent e of R129 for an MX element format. -/
def mxEmax (f : Nat) : Int :=
  match f with
  | 0x8 => 8
  | 0x9 => 15
  | 0xA => 4
  | _ => 2

/-- The scale code of an MX output block (R129), and whether the block holds a NaN or an infinity. -/
def mxScale (f : Nat) (vs : List Val) : Nat × Bool :=
  if vs.any Val.nonfinite then (0xFF, true)
  else
    let exps := vs.filterMap (fun v => match v with
      | .fin _ m e => if m = 0 then none else some (e + Nat.log2 m)
      | _ => none)
    match exps with
    | [] => (0, false)
    | x :: xs => ((min 127 (max (-127) (xs.foldl max x - mxEmax f)) + 127).toNat, false)

/-! ### Generators (R135–R137) -/

/-- The mixing function of R135. -/
def mix64 (z : BitVec 64) : BitVec 64 :=
  let z := (z ^^^ (z >>> 30)) * 0xBF58476D1CE4E5B9#64
  let z := (z ^^^ (z >>> 27)) * 0x94D049BB133111EB#64
  z ^^^ (z >>> 31)

/-- The seed of a generator (R135). -/
def seedOf (rngSeed domain stride lane : Nat) : BitVec 64 :=
  let s := mix64 (mix64 (BitVec.ofNat 64 rngSeed ^^^ BitVec.ofNat 64 stride)
    ^^^ (BitVec.ofNat 64 domain <<< 32) ^^^ BitVec.ofNat 64 lane)
  if s = 0 then 0x9E3779B97F4A7C15#64 else s

/-- One advance of a generator (R135). -/
def advance (s : BitVec 64) : BitVec 64 :=
  let s := s ^^^ (s <<< 13)
  let s := s ^^^ (s >>> 7)
  s ^^^ (s <<< 17)

/-- `n` advances. -/
def advanceBy : Nat → BitVec 64 → BitVec 64
  | 0, s => s
  | n + 1, s => advanceBy n (advance s)

/-- The 32-bit draw of a state (R135). -/
def draw32 (s : BitVec 64) : Nat := ((s * 0x2545F4914F6CDD1D#64) >>> 32).toNat

/-- The 24-bit draw of unit `u` from the state captured at a chunk's end (R136). -/
def draw24 (s : BitVec 64) (u : Nat) : Nat :=
  (mix64 (s + BitVec.ofNat 64 (u + 1) * 0x9E3779B97F4A7C15#64)).toNat % 2 ^ 24

end Sys2Proof.Machine
end

