-- ==== Sys2Proof/Machine/Ops.lean ====
section
/-!
DEFINITION. The operations over memory: where a local address lies (R25–R30, R339–R341), the bytes behind it, and a
request of a unit to it, with everything that may answer it otherwise than OK: unmapped, forbidden and protected
addresses (R31, R32, R530), fences (R443), segments that are off (R309), parity (R303), the larder and HBM codes (R321,
R345), retired pseudo-channels (R350), expanders (R357–R359), service classes (R364, R365) and other devices (R35).
-/
namespace Sys2Proof.Machine

/-! ### Places -/

/-- What lies at a local address. -/
inductive Place where
  | core (c : CoreId) (m : CoreMem) (off : Nat)
  /-- a semaphore window: owner, offset in the window -/
  | sem (f : FrontId) (off : Nat)
  | larder (d : LarderId) (off : Nat)
  | hbm (s : StackId) (pc : Fin 32) (off : Nat)
  | slow (p : CxlId) (off : Nat)
  | regs
  | unmapped
  deriving DecidableEq, Repr

/-- Start of the interleaved larder. -/
abbrev larderBase : Nat := 0x010000000000
/-- Bytes of larder on one die (R27). -/
abbrev larderDieSize : Nat := 0x53000000
/-- Start of the mask directory, in the interleaved larder. -/
abbrev directoryBase : Nat := 0x010294000000
/-- Start of a die's share of the directory, die-local (R27). -/
abbrev directoryOff : Nat := 0x52800000
/-- Start of the core windows. -/
abbrev coreBase : Nat := 0x020000000000
/-- Start of the slow tier. -/
abbrev slowBase : Nat := 0x100000000000
/-- Bytes mapped for one CXL port. -/
abbrev slowWindow : Nat := 0x020000000000
/-- Bytes of HBM. -/
abbrev hbmSize : Nat := 0x006000000000

/-- The larder die and die-local offset of an interleaved offset (R27). -/
def larderPlace (o : Nat) : LarderId × Nat :=
  let g := o / 4096
  (Fin.ofNat 8 ((g % 8) ^^^ (g / 8 % 8) ^^^ (g / 64 % 8)), g / 8 * 4096 + o % 4096)

/-- The interleaved local address of a die-local larder byte: the inverse of `larderPlace` (R27). -/
def larderAddr (d : LarderId) (off : Nat) : Nat :=
  let h := off / 4096
  larderBase + (h * 8 + (d.val ^^^ (h % 8) ^^^ (h / 8 % 8))) * 4096 + off % 4096

/-- Q of R339, from the image. -/
def sharedQ (s : State) : Nat := s.boot.hbmShared

/-- Bytes of the shared HBM range. -/
def sharedBytes (s : State) : Nat := 0x800000000 * sharedQ s

/-- Bytes of one hub range (R339). -/
def hubBytes (s : State) : Nat := 0x200000000 * (12 - sharedQ s)

/-- The hub whose range holds an HBM address; none in the shared range (R339). -/
def hubRange (s : State) (a : Nat) : Option HubId :=
  if a < sharedBytes s ∨ hbmSize ≤ a then none else some (Fin.ofNat 4 ((a - sharedBytes s) / hubBytes s))

/-- Stack, pseudo-channel and offset of an HBM address (R340, R341). -/
def hbmPlace (s : State) (a : Nat) : StackId × Fin 32 × Nat :=
  match hubRange s a with
  | none =>
    let g := a / 256
    let p := (g % 512) ^^^ (g / 512 % 512) ^^^ (g / 262144 % 512)
    (Fin.ofNat 16 (p / 32), Fin.ofNat 32 p, g / 512 * 256 + a % 256)
  | some h =>
    let o := (a - sharedBytes s) % hubBytes s
    let g := o / 256
    let p := (g % 128) ^^^ (g / 128 % 128) ^^^ (g / 16384 % 128)
    (Fin.ofNat 16 (4 * h.val + p / 32), Fin.ofNat 32 p, 0x4000000 * sharedQ s + g / 128 * 256 + o % 256)

/-- Offset of a core memory in its window (R26). -/
def memStart : CoreMem → Nat
  | .wm => 0x0000000
  | .am => 0x1000000
  | .pm => 0x3000000

/-- Bytes of a core memory (R26). -/
def memSize : CoreMem → Nat
  | .wm => 0x1000000
  | .am => 0x1600000
  | .pm => 0x0700000

/-- Local address of a byte of a core memory. -/
def coreAddr (c : CoreId) (m : CoreMem) (off : Nat) : Nat := coreBase + 0x4000000 * c.val + memStart m + off

/-- The place of an offset in a core's window (R26). -/
def windowPlace (c : CoreId) (o : Nat) : Place :=
  if o < 0x1000000 then .core c .wm o
  else if o < 0x2600000 then .core c .am (o - 0x1000000)
  else if 0x3000000 ≤ o ∧ o < 0x3700000 then .core c .pm (o - 0x3000000)
  else if 0x3F00000 ≤ o ∧ o < 0x3F04000 then .sem (.cp c) (o - 0x3F00000)
  else .unmapped

/-- Capacity of the expander of a CXL port in bytes (R356). -/
def expanderBytes (s : State) (p : CxlId) : Nat := 0x10000000 * rfield s (.cxl p) Reg.Cxl.EXP_CAPACITY 13 0

/-- What lies at a local address (R25–R31). -/
def placeOf (s : State) (a : Nat) : Place :=
  if a < hbmSize then
    let (st, pc, off) := hbmPlace s a
    .hbm st pc off
  else if larderBase ≤ a ∧ a < larderBase + 8 * larderDieSize then
    let (d, off) := larderPlace (a - larderBase)
    .larder d off
  else if 0x018000000000 ≤ a ∧ a < 0x018800000000 then
    let o := a - 0x018000000000
    if o % 2 ^ 32 < larderDieSize then .larder (Fin.ofNat 8 (o / 2 ^ 32)) (o % 2 ^ 32) else .unmapped
  else if coreBase ≤ a ∧ a < coreBase + 128 * 0x4000000 then
    let o := a - coreBase
    windowPlace (Fin.ofNat 128 (o / 0x4000000)) (o % 0x4000000)
  else if 0x030000000000 ≤ a ∧ a < 0x030000020000 then
    let o := a - 0x030000000000
    match frontOf (128 + o / 4096) with
    | some f => if o % 4096 < 0x400 then .sem f (o % 4096) else .unmapped
    | none => .unmapped
  else if slowBase ≤ a ∧ a < slowBase + 4 * slowWindow then
    let o := a - slowBase
    let p : CxlId := Fin.ofNat 4 (o / slowWindow)
    if o % slowWindow < expanderBytes s p then .slow p (o % slowWindow) else .unmapped
  else if 0xFF0000000000 ≤ a ∧ a < 0xFF0002000000 then .regs
  else .unmapped

/-- The key of a byte in State.mem: its local address, and for the larder its interleaved one (R27). -/
def cellKey (s : State) (a : Nat) : Nat :=
  match placeOf s a with
  | .larder d off => larderAddr d off
  | _ => a

/-- Is a die-local larder offset in the mask directory? -/
def inDirectory (off : Nat) : Bool := directoryOff ≤ off

/-- The directory entry at a die-local larder offset (R178: entry e at byte 32 e of the directory). -/
def entryAt (d : LarderId) (off : Nat) : Nat := (larderAddr d off - directoryBase) / 32

/-! ### Bytes -/

/-- What a byte reads as that nothing has written: zero at READY (R535), an expander's own content in the slow tier,
and open content before READY (assumptions 15 and 16). -/
def unlistedByte (s : State) (a : Nat) : Byte :=
  if slowBase ≤ a then Config.expanderByte s.epoch a
  else if s.boot.phase = .ready then 0
  else Config.startupByte s.epoch a

/-- The byte at a key. -/
def getByte (s : State) (k : Nat) : Byte := tget (unlistedByte s k) s.mem k

/-- Put a byte at a key, in canonical form. -/
def putByte (s : State) (k : Nat) (v : Byte) : State := { s with mem := tset (unlistedByte s k) s.mem k v }

/-- `n` bytes from a key. -/
def getBytes (s : State) (k n : Nat) : List Byte := (List.range n).map (fun i => getByte s (k + i))

/-- Put bytes from a key on. -/
def putBytes (s : State) (k : Nat) : List Byte → State
  | [] => s
  | b :: t => putBytes (putByte s k b) (k + 1) t

/-- The memory is in canonical form: rising addresses, no entry equal to what an unlisted address reads as. -/
def memWf (s : State) : Bool := twf (unlistedByte s) s.mem

/-! ### Requests -/

/-- A request: who makes it, its TYPE and INSTANCE, the device it comes from if that is another one, tag and opcode of its
command, its class, whether it is the table fill or the creation path of a descriptor table's owner (R530), and whether it
has waited and had its notice (R364). -/
structure Req where
  who  : Block
  unit : Word
  node : Option DeviceId
  tag  : Tag
  opc  : Nat
  cls  : SvcClass
  fill : Bool
  again : Bool
  deriving DecidableEq, Repr

/-- A request of a unit outside any command. -/
def reqOf (b : Block) (cls : SvcClass) : Req :=
  { who := b, unit := b.unit, node := none, tag := 0, opc := 0, cls := cls, fill := false, again := false }

/-- A request of a command. -/
def reqCmd (b : Block) (tag : Tag) (opc : Nat) (cls : SvcClass) : Req :=
  { who := b, unit := b.unit, node := none, tag := tag, opc := opc, cls := cls, fill := false, again := false }

/-- The occurrence of a cause in a request's command. -/
def Req.occ (r : Req) : Occur := Occur.of r.tag r.opc

/-- Raise a cause at the requester; a requester on another device raises it there, not here. -/
def raiseAtRequester (s : State) (r : Req) (cause : Nat) : State :=
  match r.node with
  | none => raiseWith s r.who cause r.occ
  | some _ => s

/-- Does a command use the data that this request reads, so that poisoned ones raise POISON_CONSUMED (R47)? -/
def usesPoison (r : Req) : Bool := r.node.isNone && r.opc ≠ 0

/-- Of two answers to parts of one request, the one that R89 ranks first; `.delayed`, where a part must wait, comes before
them. -/
def worse : Status → Status → Status
  | .delayed, _ | _, .delayed => .delayed
  | .poisoned, _ | _, .poisoned => .poisoned
  | .aborted, _ | _, .aborted => .aborted
  | .bankOff, _ | _, .bankOff => .bankOff
  | .defect, _ | _, .defect => .defect
  | .refused, _ | _, .refused => .refused
  | _, _ => .ok

/-- Cut `len` bytes at `a` at multiples of `u` bytes. -/
def cuts (u : Nat) : Nat → Nat → Nat → List (Nat × Nat)
  | 0, _, _ => []
  | fuel + 1, a, len =>
    if len = 0 then []
    else
      let n := min len (u - a % u)
      (a, n) :: cuts u fuel (a + n) (len - n)

/-- The 64-byte pieces of an access (R300). -/
def blockCuts (a len : Nat) : List (Nat × Nat) := cuts 64 (len / 64 + 2) a len

/-- The requests of at most 512 bytes that an access makes (R10, R328). -/
def requestCuts (a len : Nat) : List (Nat × Nat) := cuts 512 (len / 512 + 2) a len

/-! ### Fences (R42, R442, R443) -/

/-- Is a block fenced: by its own CTRL.FENCE, by a soft reset in progress, by its core's retirement or CORE_FENCE, or
by its die's DIE_FENCE; the proxy and the router of a die are never fenced. -/
def isFenced (s : State) (b : Block) : Bool :=
  match b with
  | .proxy _ | .router _ => false
  | _ =>
    rbit s b Reg.Hdr.CTRL 2 || s.resetting.contains b.page ||
    (match b.core with
     | some c => rbit s (.proxy (Fin.ofNat 33 (c.val / 8))) Reg.Prx.PROXY_CTRL (c.val % 8) || rbit s b Reg.Hdr.STATUS 4
     | none => false) ||
    (match b.die with
     | some d => rbit s (.proxy d) Reg.Prx.PROXY_CTRL 31
     | none => false)

/-- The proxy of a block's die; that of the active steward for a global page. -/
def proxyOf (s : State) (b : Block) : Block :=
  match b.die with
  | some d => .proxy d
  | none => .proxy (if s.steward.activeSb then 32 else 30)

/-- Answer a requester of this device; a response that returns to a fenced block is dropped and counted (R443 step 4). -/
def respond (who : Block) (x : State × Status × List Byte) : State :=
  if isFenced x.1 who then bump x.1 (proxyOf x.1 who) 4 1 else emit x.1 (.response who x.2.1 x.2.2)

/-- A request that meets a fenced block: ABORTED by the proxy, FENCED_ACCESS at the requester (R443 step 1). -/
def fencedAnswer (s : State) (r : Req) (b : Block) : State :=
  raiseAtRequester (bump s (proxyOf s b) 1 1) r Cause.FENCED_ACCESS

/-! ### Protected ranges (R155, R294, R530) -/

/-- Base and size of a core's descriptor table, as offsets in its AM (R153). -/
def amTable (s : State) (c : CoreId) : Nat × Nat :=
  (rfield s (.gme c) Reg.Gme.DESC_TABLE_OFFSET 24 6 * 64, 64 * 2 ^ rfield s (.gme c) Reg.Gme.DESC_TABLE_LOG2 4 0)

/-- Base and LOG2 of the table in force of a hub or port engine; at reset the location of the reset values. -/
def engineTable (s : State) (f : FrontId) : Nat × Nat := tget (0, 6) s.tables f.num

/-- The hub and port engines, which hold descriptor tables in HBM. -/
def engineFronts : List FrontId :=
  (List.finRange 4).map .hub ++ (List.finRange 2).map .slow ++ (List.finRange 16).map .relay

/-- Do two ranges of bytes meet? -/
def overlaps (a n b m : Nat) : Bool := a < b + m && b < a + n && 0 < n && 0 < m

/-- Does an HBM range meet the descriptor table of some engine? The owner's own fill and creation path meets none in its
own table (R530). -/
def inEngineTable (s : State) (r : Req) (a n : Nat) : Bool :=
  engineFronts.any (fun f => let t := engineTable s f
    !(r.fill && r.who = f.block) && overlaps a n t.1 (64 * 2 ^ t.2))

/-- May a block write the mask directory (R28): the update-and-thinning engines, the stewards and the host port? -/
def mayWriteDirectory (r : Req) : Bool :=
  match r.node, r.who with
  | some _, _ => false
  | none, .hub _ | none, .host | none, .mgmt _ | none, .stride _ | none, .errq _ | none, .security _ => true
  | none, _ => false

/-! ### Core memories -/

/-- The number of a core memory's segment in State.segms. -/
def segKey (c : CoreId) (m : CoreMem) (seg : Nat) : Nat :=
  (c.val * 3 + (match m with | .wm => 0 | .am => 1 | .pm => 2)) * 16 + seg

/-- Bytes of a segment (R297). -/
def segBytes : CoreMem → Nat
  | .pm => 0x100000
  | _ => 0x200000

/-- A segment's state. -/
def getSeg (s : State) (c : CoreId) (m : CoreMem) (seg : Nat) : Segm := tget Segm.reset s.segms (segKey c m seg)

/-- Replace a segment's state. -/
def putSeg (s : State) (c : CoreId) (m : CoreMem) (seg : Nat) (v : Segm) : State :=
  { s with segms := tset Segm.reset s.segms (segKey c m seg) v }

/-- The bank of a block of a core memory (R296). -/
def bankOf (m : CoreMem) (off : Nat) : Nat :=
  let b := off / 64
  match m with
  | .wm => (b % 32) ^^^ (b / 32 % 32) ^^^ (b / 1024 % 32) ^^^ (b / 32768 % 8)
  | .am => (b % 64) ^^^ (b / 64 % 64) ^^^ (b / 4096 % 64) ^^^ (b / 262144 % 2)
  | .pm => (b % 32) ^^^ (b / 32 % 32) ^^^ (b / 1024 % 32) ^^^ (b / 32768 % 4)

/-- PARITY_INFO.SOURCE of a requester at core `c` (ch. 8): 0 drain, 1 GME, 2 VU, 3 CP, 4 memory unit, 5 DMA,
6 network. -/
def sourceCode (c : CoreId) (r : Req) : Nat :=
  match r.node with
  | some _ => 6
  | none =>
    if r.who.core = some c then
      match r.who with
      | .array _ => 0
      | .gme _ => 1
      | .vu _ => 2
      | .cp _ => 3
      | .mem _ _ => 4
      | .dma _ _ => 5
      | _ => 6
    else 6

/-- A parity error at a byte (R303): the record's syndrome of R422, and PARITY_ADDR and PARITY_INFO once. `src` is
the PARITY_INFO source code. -/
def parityError (s : State) (c : CoreId) (m : CoreMem) (off src : Nat) (r : Req) : State :=
  let b : Block := .mem c m
  let tag : Tag := if src < 6 then r.tag else 0
  let s := bump s b 3 1
  let s := raiseAt s b Cause.MEMORY_DETECTED
    { tag := tag, opcode := if src < 6 then r.opc else 0, syn := [wordOf off, wordOf (bankOf m off), wordOf src, 0] }
    (coreAddr c m off)
  if rbit s b Reg.Mem.PARITY_ADDR 31 then s
  else
    let s := rput s b Reg.Mem.PARITY_ADDR (wordOf (2 ^ 31 + off))
    rput s b Reg.Mem.PARITY_INFO (wordOf (tag.toNat * 65536 + src * 256 + bankOf m off))

/-- The first byte with a bad parity bit among `n` bytes from a key. -/
def firstBad (s : State) (k n : Nat) : Option Nat := s.badParity.find? (fun x => k ≤ x && x < k + n)

/-- A read of part of a block of a core memory (R302, R303, R309). -/
def coreRead (s : State) (r : Req) (c : CoreId) (m : CoreMem) (off n : Nat) : State × Status × List Byte :=
  let b : Block := .mem c m
  if isFenced s b then (fencedAnswer s r b, .aborted, [])
  else if (getSeg s c m (off / segBytes m)).phase ≠ .on then (bump s b 5 1, .bankOff, List.replicate n 0)
  else
    let s := bump s b 0 1
    match firstBad s (coreAddr c m off) n with
    | some k => (parityError s c m (k - coreAddr c m 0) (sourceCode c r) r, .poisoned, [])
    | none => (s, .ok, getBytes s (coreAddr c m off) n)

/-- Why a write to part of a block of a core memory is not accepted, if it is not (R155, R309, R443, R530). -/
def coreWriteCheck (s : State) (r : Req) (c : CoreId) (m : CoreMem) (off n : Nat) : State × Status :=
  let b : Block := .mem c m
  if isFenced s b then (fencedAnswer s r b, .aborted)
  else if (getSeg s c m (off / segBytes m)).phase ≠ .on then
    (raiseWith (bump s b 5 1) b 9 r.occ, .bankOff)
  else if m = .am ∧ (r.fill && r.who.core = some c) = false ∧ overlaps off n (amTable s c).1 (amTable s c).2 then
    (raiseAtRequester (raiseWith s b Cause.ADDRESS r.occ) r Cause.ADDRESS, .aborted)
  else (s, .ok)

/-- A write of `n` bytes from an offset has been stored: where it covers byte 0 of the block that PARITY_INJECT has armed,
that byte's parity bit is inverted, and ARM cleared (R307). -/
def injectParity (s : State) (c : CoreId) (m : CoreMem) (off n : Nat) : State :=
  let b : Block := .mem c m
  let at_ := rfield s b Reg.Mem.PARITY_INJECT 24 6 * 64
  if rbit s b Reg.Mem.PARITY_INJECT 31 && off ≤ at_ && at_ < off + n then
    rputBit { s with badParity := sinsert s.badParity (coreAddr c m at_) } b Reg.Mem.PARITY_INJECT 31 false
  else s

/-- An accepted write to part of a block of a core memory: the bytes with good parity, and the inversion that
PARITY_INJECT has armed (R302, R304). -/
def coreWrite (s : State) (c : CoreId) (m : CoreMem) (off : Nat) (data : List Byte) : State :=
  let b : Block := .mem c m
  let k := coreAddr c m off
  let n := data.length
  let s := bump s b 1 1
  let s := putBytes s k data
  injectParity { s with badParity := s.badParity.filter (fun x => x < k || k + n ≤ x),
                        reported := s.reported.filter (fun x => x < k || k + n ≤ x) } c m off n

/-! ### Larder (R319–R327) -/

/-- Read a stored larder word through its code (R321): the word, or none where it is uncorrectable. `src` is the
requester for UNCORR_SOURCE and the record; 0 for the scrubber. -/
def larderWord (s : State) (d : LarderId) (off : Nat) (src : Word) (o : Occur) : State × Option Word :=
  let b : Block := .larder d
  let k := larderAddr d off
  let w := wordOf (leNat (getBytes s k 4))
  match decodePattern larderLocators (tget 0 s.larderFlips k).toNat with
  | .good left => (s, some (w ^^^ wordOf left))
  | .corrected i v left =>
    let s := bump { s with larderFlips := tset 0 s.larderFlips k (BitVec.ofNat 44 left) } b 5 1
    let s := raiseAt s b Cause.MEMORY_CORRECTED { o with syn := [wordOf off, wordOf (v * 16 + i), src, 0] } k
    let s := rewritten s k
    let s := rput s b Reg.Ldr.CORR_ADDR (wordOf (2 ^ 31 + off))
    (rput s b Reg.Ldr.CORR_SYNDROME (wordOf (v * 16 + i)), some (w ^^^ wordOf left))
  | .bad =>
    let s := bump s b 6 1
    let s := raiseAt s b Cause.MEMORY_DETECTED { o with syn := [wordOf off, 0, src, 0] } k
    if rbit s b Reg.Ldr.UNCORR_ADDR 31 then (s, none)
    else (rput (rput s b Reg.Ldr.UNCORR_ADDR (wordOf (2 ^ 31 + off))) b Reg.Ldr.UNCORR_SOURCE src, none)

/-- The words that `n` bytes from a die-local offset touch. -/
def wordCount (off n : Nat) : Nat := (off + n + 3) / 4 - off / 4

/-- Read words through the code; none if any is uncorrectable. -/
def larderWords (s : State) (d : LarderId) (off : Nat) (src : Word) (o : Occur) : Nat → State × Option (List Word)
  | 0 => (s, some [])
  | n + 1 =>
    let (s, w) := larderWord s d off src o
    let (s, t) := larderWords s d (off + 4) src o n
    match w, t with
    | some w, some t => (s, some (w :: t))
    | _, _ => (s, none)

/-- Does a die-local range reach into the mask directory? -/
def meetsDirectory (off n : Nat) : Bool := directoryOff < off + n && 0 < n

/-- The fenced page of a larder die that turns a request away: the controller's, or the directory slice's. -/
def larderFenced (s : State) (d : LarderId) (off n : Nat) : Option Block :=
  if isFenced s (.larder d) then some (.larder d)
  else if meetsDirectory off n && isFenced s (.dir d) then some (.dir d)
  else none

/-- A bank access that reads part of a larder block (R321). The request's own tag goes to the record, not its opcode at
the die. -/
def larderReadPiece (s : State) (r : Req) (d : LarderId) (off n : Nat) : State × Status × List Byte :=
  match larderFenced s d off n with
  | some b => (fencedAnswer s r b, .aborted, [])
  | none =>
    let b : Block := .larder d
    let s := bump s b 0 1
    let s := if inDirectory off then bump s (.dir d) 0 (cdiv (off % 32 + n) 32) else s
    let w0 := off / 4 * 4
    match larderWords s d w0 r.unit r.occ (wordCount off n) with
    | (s, some ws) => (bump s b 11 n, .ok, ((bytesOf ws).drop (off - w0)).take n)
    | (s, none) => (s, .poisoned, [])

/-- The pending reads of a die. -/
def diePending (s : State) (d : LarderId) : List PendingRead := s.pendingReads.filter (fun e => e.die = d)

/-- Read those words of a block that some of the ranges touch, once each, in rising order. -/
def touchedWords (s : State) (d : LarderId) (blk : Nat) (src : Word) (l : List (Nat × Nat)) :
    List Nat → State × List (Nat × Option Word)
  | [] => (s, [])
  | i :: t =>
    let o := 64 * blk + 4 * i
    if l.any (fun x => overlaps x.1 x.2 o 4) then
      let (s, w) := larderWord s d o src Occur.none
      let (s, ws) := touchedWords s d blk src l t
      (s, (i, w) :: ws)
    else touchedWords s d blk src l t

/-- What a reader of an entry receives from the words of its block. -/
def readerData (blk : Nat) (ws : List (Nat × Option Word)) (off n : Nat) : Status × List Byte :=
  let l := (List.range 16).flatMap (fun i => match ws.find? (fun x => x.1 = i) with
    | some (_, some w) => bytesOf [w]
    | _ => [0, 0, 0, 0])
  if ws.any (fun x => x.2.isNone && overlaps off n (64 * blk + 4 * x.1) 4) then (.poisoned, [])
  else (.ok, (l.drop (off - 64 * blk)).take n)

/-- The CD die of a requester, for which R325 shares responses. -/
def readerDie (who : Block) : Option (Fin 16) := who.core.map (fun c => Fin.ofNat 16 (c.val / 8))

/-- Does another reader of the list, of another core of the die, ask for the same bytes? -/
def sharesWith (x y : Block × Nat × Nat) : Bool :=
  (readerDie x.1).isSome && readerDie x.1 = readerDie y.1 && x.2 = y.2

/-- Answer the readers of an entry: those of one CD die that ask for one byte range share a response packet (R325), and
its copies, like every other response, reach each reader. `before` are those looked at already. -/
def answerReaders (d : LarderId) (blk : Nat) (ws : List (Nat × Option Word)) (late : Bool) (all : List (Block × Nat × Nat)) :
    List (Block × Nat × Nat) → List (Block × Nat × Nat) → State → State
  | [], _, s => s
  | x :: t, before, s =>
    let (st, data) := readerData blk ws x.2.1 x.2.2
    -- a reply that the proxy has given already is dropped and counted (R443 step 3)
    let s := if late then bump s (proxyOf s (.larder d)) 3 1
      else
        let group := all.filter (sharesWith x)
        let s := match readerDie x.1 with
          | some die =>
            if 2 ≤ group.length && !before.any (sharesWith x) then
              let mask := group.foldl (fun m y => match y.1.core with
                | some c => m ||| (1#8 <<< (c.val % 8))
                | none => m) 0#8
              emit (bump s (.larder d) 2 1) (.shared die mask st data)
            else s
          | none => s
        respond x.1 (bump s (.larder d) 11 (if st = .ok then x.2.2 else 0), st, data)
    answerReaders d blk ws late all t (x :: before) s

/-- A pending entry makes its bank access, one for all its requesters, and they are answered (R324). -/
def serveEntry (s : State) (e : PendingRead) : State :=
  let s := { s with pendingReads := s.pendingReads.erase e }
  let src := match e.readers with
    | x :: _ => x.1.unit
    | [] => 0
  let l := e.readers.map (·.2)
  let s := bump s (.larder e.die) 0 1
  let s := if inDirectory (64 * e.block) then
      bump s (.dir e.die) 0 ([0, 1].countP (fun h => l.any (fun x => overlaps x.1 x.2 (64 * e.block + 32 * h) 32)))
    else s
  let (s, ws) := touchedWords s e.die e.block src l (List.range 16)
  answerReaders e.die e.block ws e.answered e.readers e.readers [] s

/-- Every entry of a block makes its access. -/
def serveBlock (s : State) (d : LarderId) (blk : Nat) : State :=
  ((diePending s d).filter (fun e => e.block = blk)).foldl serveEntry s

/-- The entry of a block that a read may join (R324). -/
def openEntry (s : State) (d : LarderId) (blk : Nat) : Option PendingRead :=
  (diePending s d).find? (fun e => e.block = blk && e.readers.length < 128 && !e.answered)

/-- A read of a unit that is answered at once: it joins the entry of its block, if there is one, whose wait it ends
(R324, R327). A read that is not stride-critical would share the entry's wait; of a command nothing shows it, and the
access is made now (log entry 85). -/
def larderRead (s : State) (r : Req) (d : LarderId) (off n : Nat) : State × Status × List Byte :=
  match openEntry s d (off / 64) with
  | some e =>
    if (larderFenced s d off n).isSome then larderReadPiece s r d off n
    else
      -- one bank access serves the entry and this read, which it does not count again
      let s := bump (serveEntry s e) (.larder d) 1 1
      let w0 := off / 4 * 4
      match larderWords s d w0 r.unit r.occ (wordCount off n) with
      | (s, some ws) => (bump s (.larder d) 11 n, .ok, ((bytesOf ws).drop (off - w0)).take n)
      | (s, none) => (s, .poisoned, [])
  | none => larderReadPiece s r d off n

/-- Why a larder write is not accepted: fence, or the rules of the mask directory (R28, R180, R530). `a` and `len` are
the whole request's die-local range, of which no part is in the directory where the write may not be. -/
def larderWriteCheck (s : State) (r : Req) (d : LarderId) (a len : Nat) : State × Status :=
  match larderFenced s d a len with
  | some b => (fencedAnswer s r b, .aborted)
  | none =>
    if meetsDirectory a len then
      if mayWriteDirectory r = false then
        let s := rput (bump s (.dir d) 2 1) (.dir d) Reg.Dir.DENIED_SOURCE r.unit
        (raiseAtRequester (raiseWith s (.dir d) 8 r.occ) r Cause.ADDRESS, .aborted)
      else if a % 32 ≠ 0 ∨ len % 32 ≠ 0 then
        (raiseAtRequester (raiseWith (bump s (.dir d) 3 1) (.dir d) 9 r.occ) r Cause.ADDRESS, .aborted)
      else (s, .ok)
    else (s, .ok)

/-- The writes of directory entries that a piece makes: the slice's record of the latest one. -/
def directoryNote (s : State) (r : Req) (d : LarderId) (off n : Nat) : State :=
  if inDirectory off then
    let s := bump s (.dir d) 1 (n / 32)
    let s := rput s (.dir d) Reg.Dir.LAST_WRITE_ENTRY (wordOf (2 ^ 31 + entryAt d (off + n - 32)))
    rput s (.dir d) Reg.Dir.LAST_WRITE_SOURCE r.unit
  else s

/-- The codewords of words wholly rewritten are good again (R321). -/
def clearWords (s : State) (d : LarderId) (off : Nat) : Nat → State
  | 0 => s
  | n + 1 =>
    let k := larderAddr d off
    clearWords (rewritten { s with larderFlips := tset 0 s.larderFlips k 0 } k) d (off + 4) n

/-- The aligned words that a range covers only in part. -/
def partWords (off n : Nat) : List Nat :=
  let lo := off / 4 * 4
  let hi := (off + n - 1) / 4 * 4
  (if off % 4 ≠ 0 ∨ n < 4 then [lo] else []) ++ (if (off + n) % 4 ≠ 0 ∧ hi ≠ lo then [hi] else [])

/-- Read and correct the words that a write covers in part (R322): false where one is uncorrectable. -/
def correctWords (r : Req) (d : LarderId) : List Nat → State → State × Bool
  | [], s => (s, true)
  | w :: t, s =>
    match larderWord s d w r.unit r.occ with
    | (s, some x) =>
      let k := larderAddr d w
      correctWords r d t (putBytes { s with larderFlips := tset 0 s.larderFlips k 0 } k (leBytes 4 x.toNat))
    | (s, none) => (raiseWith s (.larder d) 8 r.occ, false)

/-- An accepted write of part of a larder block, behind the pending reads of the block (R322, R326); the words that it
covers in part have been corrected. -/
def larderWritePiece (s : State) (r : Req) (d : LarderId) (off : Nat) (data : List Byte) : State :=
  let b : Block := .larder d
  let n := data.length
  let s := bump (bump (serveBlock s d (off / 64)) b 3 1) b 4 (if partWords off n = [] then 0 else 1)
  let s := putBytes s (larderAddr d off) data
  directoryNote (clearWords s d (off / 4 * 4) (wordCount off n)) r d off n

/-! ### HBM blocks (R344–R346) -/

/-- Data and check symbols of codeword `c` in an error pattern of 160 nibbles: 128 data symbols, then 30 check ones
and two that are not checked. -/
def codewordPattern (p : Nat) (c : Nat) : Nat :=
  let k := if c < 8 then 13 else 12
  let data := (List.range k).foldl (fun acc j => acc + (p / 16 ^ (10 * j + c) % 16) * 16 ^ j) 0
  let chk := (List.range 3).foldl (fun acc j => acc + (p / 16 ^ (128 + 3 * c + j) % 16) * 16 ^ (k + j)) 0
  data + chk

/-- Put a codeword's pattern back into the block's. -/
def setCodeword (p c q : Nat) : Nat :=
  let k := if c < 8 then 13 else 12
  let at_ (j : Nat) : Nat := if j < k then 10 * j + c else 128 + 3 * c + (j - k)
  (List.range (k + 3)).foldl (fun acc j => acc - (acc / 16 ^ at_ j % 16) * 16 ^ at_ j + (q / 16 ^ j % 16) * 16 ^ at_ j) p

/-- What reading a block's ten codewords finds: the pattern left, the latest correction (codeword, symbol, value), how
many symbols were corrected, and the mask of uncorrectable codewords. -/
structure BlockRead where
  left : Nat
  last : Option (Nat × Nat × Nat)
  fixed : Nat
  bad  : Nat
  deriving DecidableEq, Repr

/-- Decode every codeword of a block. -/
def decodeBlock (p : Nat) : BlockRead :=
  (List.range 10).foldl (fun r c =>
    match decodePattern (hbmLocators c) (codewordPattern p c) with
    | .good _ => r
    | .corrected i v left => { r with left := setCodeword r.left c left, last := some (c, i, v), fixed := r.fixed + 1 }
    | .bad => { r with bad := r.bad + 2 ^ c }) { left := p, last := none, fixed := 0, bad := 0 }

/-- Count corrected symbols of a pseudo-channel, second by second. Where they pass PC_CORR_LIMIT, that is one event: the
steward takes its own record of it, whatever ERR_ENABLE holds (R427; assumption 168). -/
def countCorrected (s : State) (k n : Nat) (o : Occur) : State :=
  let (t, c) := tget (0, 0) s.pcCorr k
  let c := if t + 1000000000 ≤ s.now then 0 else c
  let x := (if t + 1000000000 ≤ s.now then s.now else t, c + n)
  let s := { s with pcCorr := tset (0, 0) s.pcCorr k x }
  let limit := (rget s (activeQueue s) Reg.Erq.PC_CORR_LIMIT).toNat
  if c ≤ limit && limit < c + n then
    let r := { makeRecord s (.hbm (Fin.ofNat 16 (k / 32))) Cause.MEMORY_CORRECTED o none with limit := true }
    let q := s.steward.queue ++ [r]
    nextSeq { s with steward := { s.steward with queue := q, peak := max s.steward.peak q.length } }
  else s

/-- A block that cannot be read: MEMORY_DETECTED, and the first one since the register was cleared is held (R345, R346). -/
def hbmDetected (s : State) (st : StackId) (pc : Fin 32) (blk k bad : Nat) (src : Word) (o : Occur) : State :=
  let b : Block := .hbm st
  let s := bump s b 4 1
  let s := raiseAt s b Cause.MEMORY_DETECTED
    { o with syn := [wordOf (st.val * 32 + pc.val), wordOf blk, wordOf bad, src] } k
  if rbit s b Reg.Hbm.UNCORR_INFO 31 then s
  else
    let s := rput s b Reg.Hbm.UNCORR_INFO (wordOf (2 ^ 31 + pc.val * 2 ^ 24))
    let s := rput s b Reg.Hbm.UNCORR_BLOCK (wordOf blk)
    rput s b Reg.Hbm.UNCORR_SOURCE src

/-- A block of which `n` symbols were corrected, the last of them symbol `i` of codeword `c`, by `v` (R345, R346). -/
def hbmCorrected (s : State) (st : StackId) (pc : Fin 32) (blk n c i v : Nat) (src : Word) (o : Occur) : State :=
  let b : Block := .hbm st
  let o : Occur := { o with syn := [wordOf (st.val * 32 + pc.val), wordOf blk, 0, src] }
  let s := countCorrected (bump s b 3 n) (st.val * 32 + pc.val) n o
  let s := raiseWith s b Cause.MEMORY_CORRECTED o
  let s := rput s b Reg.Hbm.CORR_INFO (wordOf (2 ^ 31 + pc.val * 2 ^ 24 + c * 2 ^ 16 + i * 2 ^ 8 + v))
  rput s b Reg.Hbm.CORR_BLOCK (wordOf blk)

/-- What reading an HBM block's codewords found (R345): detected, or readable with what stays wrong in it. -/
def hbmFound (s : State) (st : StackId) (pc : Fin 32) (blk k : Nat) (x : BlockRead) (src : Word) (o : Occur) :
    State × Option Nat :=
  if x.bad ≠ 0 then (hbmDetected s st pc blk k x.bad src o, none)
  else
    let s := { s with hbmFlips := tset 0 s.hbmFlips k (BitVec.ofNat 640 x.left) }
    match x.last with
    | none => (s, some x.left)
    | some (c, i, v) => (hbmCorrected s st pc blk x.fixed c i v src o, some x.left)

/-- Read an HBM block through its code (R345): whether it can be read, with the pattern left in it. `k` is the local
address of the block; `src` the requester, 0 for the scrubber. -/
def hbmBlock (s : State) (st : StackId) (pc : Fin 32) (off k : Nat) (src : Word) (o : Occur) : State × Option Nat :=
  hbmFound s st pc (off / 64) k (decodeBlock (tget 0 s.hbmFlips k).toNat) src o

/-- Bytes of a block with the pattern that is left in it: byte i holds data symbols 2i and 2i + 1 (R344). -/
def withPattern (p start : Nat) (l : List Byte) : List Byte :=
  l.mapIdx (fun i b => b ^^^ BitVec.ofNat 8 (p / 256 ^ (start + i)))

/-! ### The slow tier (R357–R359) -/

/-- Is the expander link of a port up? -/
def cxlUp (s : State) (p : CxlId) : Bool := rbit s (.cxl p) Reg.Cxl.LINK_STATUS 31

/-- The response to an access that is answered at once comes within RESP_LIMIT or later, which is free; a late one is
counted (R367). -/
def respTime (s : State) (b : Block) : State :=
  if Config.respLate s.fresh then bump (useFresh s) b 7 1 else useFresh s

/-- Data that an expander marks poisoned (R358): POISON_ADDR holds the first address, and EXPANDER_POISON is raised. -/
def expanderPoison (s : State) (r : Req) (p : CxlId) (k : Nat) : State :=
  let b : Block := .cxl p
  let s := if rbit s b Reg.Cxl.POISON_ADDR_HI 31 then s
    else rput (rput s b Reg.Cxl.POISON_ADDR_LO (wordOf k)) b Reg.Cxl.POISON_ADDR_HI (wordOf (2 ^ 31 + k / 2 ^ 32))
  raiseWith (bump s b 5 1) b 9 r.occ

/-- A slow-tier read of part of a block, answered by the expander (R357, R358). `k` is the local address. -/
def slowRead (s : State) (r : Req) (p : CxlId) (off k n : Nat) : State × Status × List Byte :=
  let b : Block := .cxl p
  if isFenced s b then (fencedAnswer s r b, .aborted, [])
  else if cxlUp s p = false then (s, .aborted, [])
  else
    let s := respTime (bump (bump (emit s (.cxl p 0 0 off [])) b 0 1) b 3 n) b
    if s.slowPoison.contains (k / 64 * 64) then (expanderPoison s r p k, .poisoned, [])
    else (s, .ok, getBytes s k n)

/-- A slow-tier write of a block or part of it: MemWr or MemWrPtl (R357). -/
def slowWrite (s : State) (r : Req) (p : CxlId) (off k : Nat) (data : List Byte) : State × Status :=
  let b : Block := .cxl p
  let n := data.length
  if isFenced s b then (fencedAnswer s r b, .aborted)
  else if cxlUp s p = false then (s, .aborted)
  else
    let whole := n = 64
    let s := emit s (.cxl p (if whole then 1 else 2) 0 off data)
    let s := respTime (bump (bump s b (if whole then 1 else 2) 1) b 4 n) b
    let s := putBytes s k data
    (if whole then { s with slowPoison := sremove s.slowPoison (k / 64 * 64) } else s, .ok)

/-! ### Retired pseudo-channels (R348–R350) -/

/-- Is a pseudo-channel retired? -/
def pcRetired (s : State) (st : StackId) (pc : Fin 32) : Bool := rbit s (.hbm st) Reg.Hbm.PC_RETIRED pc.val

/-- The spare slot of a retired pseudo-channel (SPARE_MAP). -/
def spareSlot (s : State) (st : StackId) (pc : Fin 32) : Option Nat :=
  (List.range 4).find? (fun k => rfield s (.hbm st) Reg.Hbm.SPARE_MAP (8 * k + 7) (8 * k) = 128 + pc.val)

/-- Local address of spare slot `k` of a stack (R348). -/
def spareBase (s : State) (st : StackId) (k : Nat) : Nat :=
  rget64 s (.hbm st) Reg.Hbm.SPARE_BASE_LO Reg.Hbm.SPARE_BASE_HI + 2 ^ 30 * k

/-- What R349 does at the end of a retirement, the release of the held requests apart: slot, PC_RETIRED, cause and
step-skip flag. -/
def finishRetire (s : State) (st : StackId) (pc : Fin 32) : State :=
  let b : Block := .hbm st
  let used := rfield s b Reg.Hbm.SPARE_SLOTS 6 4
  let s := if used < rfield s b Reg.Hbm.SPARE_SLOTS 2 0 then
      let s := rputField s b Reg.Hbm.SPARE_MAP (8 * used + 7) (8 * used) (128 + pc.val)
      rputField s b Reg.Hbm.SPARE_SLOTS 6 4 (used + 1)
    else s
  let s := rputBit s b Reg.Hbm.PC_RETIRED pc.val true
  let s := rputBit s b Reg.Hdr.STATUS 4 true
  let s := countLife (stepSkip (raise s b 8) 9) 3
  rputBit s b Reg.Hbm.PC_RETIRE 31 false

/-- The slow-tier port and offset of a local slow-tier address. -/
def slowPlace (a : Nat) : CxlId × Nat := (Fin.ofNat 4 ((a - slowBase) / slowWindow), (a - slowBase) % slowWindow)

/-- The bit of a block in the written map of a spare slot: local address of its byte, and bit number (R348). -/
def mapBit (base off : Nat) : Nat × Nat := (base + 0x30000000 + off / 64 / 8, off / 64 % 8)

/-- A read of a block of a retired pseudo-channel (R350). A read of a command raises POISON_CONSUMED once, with its
answer. -/
def spareRead (s : State) (r : Req) (st : StackId) (pc : Fin 32) (off n : Nat) : State × Status × List Byte :=
  match spareSlot s st pc with
  | none => (raiseWith s (.hbm st) 9 r.occ, .aborted, [])
  | some k =>
    let base := spareBase s st k
    let (ma, mb) := mapBit base off
    let s := bump s (.hbm st) 9 1
    match slowRead s r (slowPlace ma).1 (slowPlace ma).2 ma 1 with
    | (s, .ok, [m]) =>
      if m.getLsbD mb then
        let a := base + off
        slowRead s r (slowPlace a).1 (slowPlace a).2 a n
      else (if usesPoison r then s else raiseAtRequester s r Cause.POISON_CONSUMED, .poisoned, List.replicate n 0)
    | (s, st, _) => (s, st, [])

/-- A write to a block of a retired pseudo-channel (R350). -/
def spareWrite (s : State) (r : Req) (st : StackId) (pc : Fin 32) (off : Nat) (data : List Byte) : State × Status :=
  match spareSlot s st pc with
  | none => (raiseWith s (.hbm st) 9 r.occ, .aborted)
  | some k =>
    let base := spareBase s st k
    let (ma, mb) := mapBit base off
    let a := base + off
    let s := bump s (.hbm st) 9 1
    match slowRead s r (slowPlace ma).1 (slowPlace ma).2 ma 1 with
    | (s, .ok, [m]) =>
      if m.getLsbD mb then slowWrite s r (slowPlace a).1 (slowPlace a).2 a data
      else if data.length = 64 then
        match slowWrite s r (slowPlace a).1 (slowPlace a).2 a data with
        | (s, .ok) => slowWrite s r (slowPlace ma).1 (slowPlace ma).2 ma [m ||| (1#8 <<< mb)]
        | x => x
      else (s, .poisoned)
    | (s, st, _) => (s, st)

/-! ### Service classes (R361–R365) -/

/-- A destination of R362: the block, and the pseudo-channel of a stack controller. -/
abbrev Dest : Type := Block × Nat

/-- The destination of a request to a local address; a block of a retired pseudo-channel is a slow-tier block of its
spare slot (R350). None for a core memory, a semaphore or no memory at all. -/
def destOf (s : State) (a : Nat) : Option Dest :=
  match placeOf s a with
  | .larder d _ => some (.larder d, 0)
  | .hbm st pc _ =>
    if pcRetired s st pc then (spareSlot s st pc).map (fun k => (Block.cxl (slowPlace (spareBase s st k)).1, 0))
    else some (.hbm st, pc.val)
  | .slow p _ => some (.cxl p, 0)
  | _ => none

/-- The destinations of the pieces of a request. -/
def destsOf (s : State) (ps : List (Nat × Nat)) : List Dest := (ps.filterMap (fun x => destOf s x.1)).eraseDups

/-- Is a pseudo-channel being retired (R349)? -/
def pcRetiring (s : State) (st : StackId) (pc : Nat) : Bool :=
  s.retiringPc.any (fun x => x.1 = st.val && x.2 = pc) && !rbit s (.hbm st) Reg.Hbm.PC_RETIRED pc

/-- Is a destination in an interruption (R451), or its expander overloaded (R364, R365)? -/
def destInterrupted (s : State) (d : Dest) (severe : Bool) : Bool :=
  s.throttleUntil.any (fun t => s.now < t) ||
  (match d.1 with
   | .hbm st => pcRetiring s st d.2
   | .adder st => (List.range 32).any (pcRetiring s st)
   | .cxl p => (if severe then 3 else 2) ≤ rfield s (.cxl p) Reg.Cxl.DEVLOAD 1 0
   | _ => false)

/-- The destination of a request that waits: that of its address, or the adder of its stack (R351). -/
def heldDest (s : State) (h : HeldReq) : Option Dest :=
  match h.fmt, placeOf s h.addr with
  | some _, .hbm st _ _ => some (.adder st, 0)
  | _, _ => destOf s h.addr

/-- Requests of a class that wait at a destination. -/
def destQueued (s : State) (d : Dest) (cls : SvcClass) : Nat :=
  s.held.countP (fun h => h.cls = cls && heldDest s h = some d) +
  (match d.1 with
   | .larder l => s.pendingReads.countP (fun e => e.die = l && cls = (if e.bulk then .bulk else .speculative))
   | .cxl p => s.cxlReqs.countP (fun q => q.port = p && !q.issued && q.done.isNone && q.cls = cls)
   | _ => 0)

/-- LAST_…_NODE of the service-class window: 0 for a requester of this device. -/
def nodeWord (r : Req) : Word :=
  match r.node with
  | none => 0
  | some n => wordOf (32768 + n.val)

/-- A requester of this device counts a DELAYED notice, where its page counts them (R364). -/
def countDelayed (s : State) (who : Block) : State :=
  match who with
  | .dma c ch => bump (bump s (.dma c ch) 7 1) (.cp c) 7 1
  | .glob p => if 16 ≤ p.val then bump s (.glob p) 6 1 else s
  | .hub _ | .slow _ | .relay _ => bump s who 7 1
  | b => match b.core with
    | some c => bump s (.cp c) 7 1
    | none => s

/-- A DELAYED notice (R364): counted at the destination, and at the requester where its page counts them. -/
def noteDelayed (s : State) (r : Req) (b : Block) : State :=
  let s := rput s b Reg.Svc.DELAYED_COUNT (wordOf (sat 32 ((rget s b Reg.Svc.DELAYED_COUNT).toNat + 1)))
  let s := rput s b Reg.Svc.LAST_DELAYED r.unit
  let s := rput s b Reg.Svc.LAST_DELAYED_NODE (nodeWord r)
  match r.node with
  | none => countDelayed s r.who
  | some _ => s

/-- A REFUSED answer (R365), counted at the destination. -/
def noteRefused (s : State) (r : Req) (b : Block) : State :=
  let s := rput s b Reg.Svc.REFUSED_COUNT (wordOf (sat 32 ((rget s b Reg.Svc.REFUSED_COUNT).toNat + 1)))
  let s := rput s b Reg.Svc.LAST_REFUSED r.unit
  let s := rput s b Reg.Svc.LAST_REFUSED_NODE (nodeWord r)
  match r.node, r.who with
  | none, .dma c ch => bump s (.dma c ch) 6 1
  | _, _ => s

/-- What the destinations of a request answer at its arrival: true if it is refused, and the destination that gives it a
DELAYED notice, at most one (R363–R365). A refusal is counted at the first destination that refuses; a speculative
read that joins a pending larder entry is never refused. -/
def judge (s : State) (r : Req) (ds : List Dest) (joins : Bool) : Bool × Option Dest :=
  match r.cls with
  | .critical => (false, none)
  | .bulk =>
    (false, ds.find? (fun d =>
      let mark := rfield s d.1 Reg.Svc.SVC_CTRL 7 0
      destInterrupted s d false || (mark ≠ 0 && mark ≤ destQueued s d .bulk)))
  | .speculative =>
    if joins then (false, none)
    else
      let x := ds.find? (fun d => destQueued s d .critical ≠ 0 || destQueued s d .bulk ≠ 0 ||
        16 ≤ destQueued s d .speculative || destInterrupted s d true)
      (x.isSome, x)

/-- Note the answer of `judge`. -/
def arrive (s : State) (r : Req) : Bool × Option Dest → State
  | (true, some d) => noteRefused s r d.1
  | (false, some d) => noteDelayed s r d.1
  | (_, none) => s

/-- A request has been served at its destinations: WORST_CRIT_NS or WORST_BULK_NS holds a time from now on (R368). The
register's own word only says that; the time is open (assumption 129). -/
def noteServed (s : State) (r : Req) (ds : List Dest) : State :=
  let off := if r.cls = .critical then Reg.Svc.WORST_CRIT_NS else Reg.Svc.WORST_BULK_NS
  ds.foldl (fun s d => if rget s d.1 off = 0 then rput s d.1 off 1 else s) s

/-! ### A request at an HBM controller -/

/-- A read of part of an HBM block (R345, R350). -/
def hbmRead (s : State) (r : Req) (st : StackId) (pc : Fin 32) (off a n : Nat) : State × Status × List Byte :=
  let b : Block := .hbm st
  if isFenced s b then (fencedAnswer s r b, .aborted, [])
  else
    if pcRetired s st pc then spareRead s r st pc off n
    else
      let s := bump s b 0 1
      match hbmBlock s st pc off (a / 64 * 64) r.unit r.occ with
      | (s, some p) => (s, .ok, withPattern p (a % 64) (getBytes s a n))
      | (s, none) => (s, .poisoned, [])

/-- Why an HBM write is not accepted: a fence, or the descriptor table of an engine (R294, R530). -/
def hbmWriteCheck (s : State) (r : Req) (st : StackId) (a n : Nat) : State × Status :=
  if isFenced s (.hbm st) then (fencedAnswer s r (.hbm st), .aborted)
  else if inEngineTable s r a n then
    (raiseAtRequester (raiseWith s (.hbm st) Cause.ADDRESS r.occ) r Cause.ADDRESS, .aborted)
  else (s, .ok)

/-- An accepted write of an HBM block or part of it (R346, R350). -/
def hbmWrite (s : State) (r : Req) (st : StackId) (pc : Fin 32) (off a : Nat) (data : List Byte) : State × Status :=
  let b : Block := .hbm st
  let k := a / 64 * 64
  if pcRetired s st pc then spareWrite s r st pc off data
  else if data.length = 64 then
    let s := putBytes (bump s b 1 1) a data
    (rewritten { s with hbmFlips := tset 0 s.hbmFlips k 0 } k, .ok)
  else
    match hbmBlock s st pc off k r.unit r.occ with
    | (s, none) => (raiseWith s b 10 r.occ, .poisoned)
    | (s, some p) =>
      -- the block is read, merged and written back: a pattern left in the read bytes is now good data
      let merged := withPattern p 0 (getBytes s k 64)
      let s := putBytes (bump (bump s b 1 1) b 2 1) k merged
      (putBytes { s with hbmFlips := tset 0 s.hbmFlips k 0 } a data, .ok)

/-! ### Semaphore windows (R29, R30) -/

/-- The semaphores of an owner. -/
def getBank (s : State) (f : FrontId) : SemBank := tget SemBank.reset s.banks f.num

/-- Semaphore `i` of an owner. -/
def getSem (s : State) (f : FrontId) (i : Nat) : Sem :=
  let b := getBank s f
  tget b.dflt b.cells i

/-- Replace semaphore `i` of an owner. -/
def putSem (s : State) (f : FrontId) (i : Nat) (v : Sem) : State :=
  let b := getBank s f
  { s with banks := tset SemBank.reset s.banks f.num { b with cells := tset b.dflt b.cells i v } }

/-- The word that a read of a semaphore returns: the count, with the poison bit above it. -/
def semWord (x : Sem) : Word := wordOf (x.count + (if x.poison then 2 ^ 31 else 0))

/-- What a read of semaphore `i` finds. A read that meets a fill is held off until it completes, and finds the value that
the fill writes (R80). -/
def readSem (s : State) (f : FrontId) (i : Nat) : Sem :=
  match s.filling.find? (fun x => x.1 = f.num) with
  | some (_, n) => { getSem s f i with count := n, poison := false }
  | none => getSem s f i

/-- The block that holds an owner's semaphores. -/
def semBlock : FrontId → Block
  | .cp c => .sem c
  | f => f.block

/-! ### The pieces of an access -/

/-- A read of part of one 64-byte block. -/
def readPiece (s : State) (r : Req) (a n : Nat) : State × Status × List Byte :=
  match placeOf s a with
  | .core c m off => coreRead s r c m off n
  | .sem f off =>
    if isFenced s (semBlock f) then (fencedAnswer s r (semBlock f), .aborted, [])
    else
      let ws := (List.range (wordCount off n)).map (fun i => semWord (readSem s f (off / 4 + i)))
      (s, .ok, ((bytesOf ws).drop (off % 4)).take n)
  | .larder d off => larderRead s r d off n
  | .hbm st pc off => hbmRead s r st pc off a n
  | .slow p off => slowRead s r p off a n
  | .regs | .unmapped => (raiseAtRequester s r Cause.ADDRESS, .aborted, [])

/-- Read the pieces in turn; the data are whole only where every piece is OK. -/
def readPieces (s : State) (r : Req) : List (Nat × Nat) → State × Status × List Byte
  | [] => (s, .ok, [])
  | (a, n) :: t =>
    let (s, st, d) := readPiece s r a n
    let (s, st', d') := readPieces s r t
    (s, worse st st', d ++ d')

/-- Is a piece of a write acceptable? The directory's rules look at the whole request, `rn` bytes at `ra`. -/
def checkPiece (s : State) (r : Req) (ra rn a n : Nat) : State × Status :=
  match placeOf s a with
  | .core c m off => coreWriteCheck s r c m off n
  | .sem f _ =>
    if isFenced s (semBlock f) then (fencedAnswer s r (semBlock f), .aborted)
    else (raiseAtRequester (raiseWith s (semBlock f) Cause.ADDRESS r.occ) r Cause.ADDRESS, .aborted)
  | .larder d off => larderWriteCheck s r d (off - (a - ra)) rn
  | .hbm st _ _ => hbmWriteCheck s r st a n
  | .slow p _ => if isFenced s (.cxl p) then (fencedAnswer s r (.cxl p), .aborted) else (s, .ok)
  | .regs | .unmapped => (raiseAtRequester s r Cause.ADDRESS, .aborted)

/-- Check the pieces of a request until one is turned away. -/
def checkPieces (s : State) (r : Req) (ra rn : Nat) : List (Nat × Nat) → State × Status
  | [] => (s, .ok)
  | (a, n) :: t =>
    match checkPiece s r ra rn a n with
    | (s, .ok) => checkPieces s r ra rn t
    | x => x

/-- Read and correct what a piece covers only in part: larder words and an HBM block (R322, R346); false where it is
uncorrectable. -/
def mergePiece (r : Req) (s : State) (a n : Nat) : State × Bool :=
  match placeOf s a with
  | .larder d off => correctWords r d (partWords off n) s
  | .hbm st pc off =>
    if n = 64 || pcRetired s st pc then (s, true)
    else
      (match hbmBlock s st pc off (a / 64 * 64) r.unit r.occ with
       | (s, none) => (raiseWith s (.hbm st) 10 r.occ, false)
       | (s, some _) => (s, true))
  | _ => (s, true)

/-- The pieces of a request in turn: where one is uncorrectable, the request is answered POISONED and writes nothing. -/
def mergeCheck (r : Req) : List (Nat × Nat) → State → State × Bool
  | [], s => (s, true)
  | (a, n) :: t, s =>
    match mergePiece r s a n with
    | (s, true) => mergeCheck r t s
    | x => x

/-- An accepted write of part of one 64-byte block. -/
def writePiece (s : State) (r : Req) (a : Nat) (data : List Byte) : State × Status :=
  match placeOf s a with
  | .core c m off => (coreWrite s c m off data, .ok)
  | .larder d off => (larderWritePiece s r d off data, .ok)
  | .hbm st pc off => hbmWrite s r st pc off a data
  | .slow p off => slowWrite s r p off a data
  | _ => (s, .aborted)

/-- Write the pieces in turn. -/
def writePieces (s : State) (r : Req) : List (Nat × Nat) → List Byte → State × Status
  | [], _ => (s, .ok)
  | (a, n) :: t, data =>
    let (s, st) := writePiece s r a (data.take n)
    let (s, st') := writePieces s r t (data.drop n)
    (s, worse st st')

/-- The pieces of a request are written, or none of them (assumption 17). -/
def writeMerged (s : State) (r : Req) (ps : List (Nat × Nat)) (data : List Byte) : State × Status :=
  match mergeCheck r ps s with
  | (s, true) => writePieces s r ps data
  | (s, false) => (s, .poisoned)

/-! ### The way of a request, and what holds it back -/

/-- How the way of a request to its destination and of the answer back stands. -/
inductive Way where
  | free
  /-- it waits for a paused die or path (R436, R441) -/
  | waits
  /-- the request is lost at a stopped path -/
  | lost
  /-- the request arrives, and its answer is lost -/
  | noAnswer
  deriving DecidableEq, Repr

/-- The die of the memory that a local address names. -/
def targetDie (s : State) (a : Nat) : Option DieId :=
  match placeOf s a with
  | .core c _ _ => some (Fin.ofNat 33 (c.val / 8))
  | .sem f _ => some (dieOf s (semBlock f))
  | .larder d _ => some (Fin.ofNat 33 (16 + d.val))
  | .hbm st _ _ => some (Fin.ofNat 33 (24 + st.val / 4))
  | .slow p _ => some (Fin.ofNat 33 (28 + p.val / 2))
  | .regs | .unmapped => none

/-- The way of a request from a unit to the pieces that it addresses. -/
def wayOf (s : State) (who : Block) (ps : List (Nat × Nat)) : Way :=
  if s.paths = [] && s.relocks = [] then .free
  else
    let f := dieOf s who
    let ts := (ps.filterMap (fun x => targetDie s x.1)).eraseDups
    if ts.any (routeStopped s f) then .lost
    else if ts.any (fun t => routeWaits s f t || routeWaits s t f) then .waits
    else if ts.any (fun t => routeStopped s t f) then .noAnswer
    else .free

/-- The flits of a request of `n` bytes of payload and of its answer with `m` are passed on by the routers on their ways
(counter 0 of R13's routers). -/
def travel (s : State) (who : Block) (a n m : Nat) : State :=
  match targetDie s a with
  | some t => passFlits (passFlits s (dieOf s who) t (packetFlits n)) t (dieOf s who) (packetFlits m)
  | none => s

/-- Does an earlier request to a slow-tier block hold back a new one, or the 512 requests that its port has outstanding
(R357)? -/
def cxlHolds (s : State) (a : Nat) : Bool :=
  let p := (slowPlace a).1
  s.cxlReqs.any (fun q => q.port = p && q.done.isNone && q.addr / 64 = a / 64) ||
  512 ≤ s.cxlReqs.countP (fun q => q.port = p && q.issued && q.done.isNone)

/-- Do two requests meet in a 64-byte block? -/
def sameBlock (a n b m : Nat) : Bool := overlaps (a / 64) (cdiv (a % 64 + n) 64) (b / 64) (cdiv (b % 64 + m) 64)

/-- Bytes of an access. -/
def accessBytes : Access → Nat
  | .read n => n
  | .write d => d.length

/-- Must a request wait at its destination: for a retirement (R349), or behind an earlier one to its block (R342, R352,
R357)? -/
def heldBack (s : State) (a n : Nat) : Bool :=
  s.held.any (fun h => !h.answered && sameBlock a n h.addr (accessBytes h.acc)) ||
  (blockCuts a n).any (fun x => match placeOf s x.1 with
    | .hbm st pc off =>
      if pcRetired s st pc then
        match spareSlot s st pc with
        | some k => let b := spareBase s st k
                    cxlHolds s (b + off) || cxlHolds s (mapBit b off).1
        | none => false
      else pcRetiring s st pc.val
    | .slow _ _ => cxlHolds s x.1
    | _ => false)

/-- The service bound of a request in ns (R366). The shorter bounds of a requester on the memory's own die are taken
where it stands there. -/
def serviceBound (s : State) (r : Req) (a : Nat) (add : Bool) : Nat :=
  let crit := r.cls = .critical
  let near := targetDie s a = some (dieOf s r.who)
  match placeOf s a with
  | .core _ _ _ | .sem _ _ => if near then (if crit then 300 else 1000) else if crit then 800 else 3000
  | .larder _ _ => if crit then 1000 else 4000
  | .hbm st pc _ =>
    if pcRetired s st pc then
      rfield s (.cxl (slowPlace (spareBase s st 0)).1) Reg.Cxl.RESP_LIMIT 19 0 + (if crit then 3000 else 15000)
    else if add then (if crit then 2500 else 10000)
    else if near then (if crit then 1200 else 6000)
    else if crit then 2000 else 8000
  | .slow p _ => rfield s (.cxl p) Reg.Cxl.RESP_LIMIT 19 0 + (if crit then 3000 else 15000)
  | .regs | .unmapped => 0

/-- A request receives no response within its path's bound, the service bound and 30 µs (R47, R90, R367): that time
passes, and its requester ends it as though it had been answered ABORTED. -/
def timedOut (s : State) (r : Req) (bound : Nat) : State :=
  raiseAtRequester { s with now := s.now + bound + 30000 } r Cause.TIMEOUT

/-- Is this request the one that REQUEST_TIMEOUT names? Those of its block before it are counted. -/
def lapses (s : State) (who : Block) : State × Bool :=
  match s.lapse with
  | some (b, k) =>
    if b ≠ who then (s, false)
    else match k with
      | 0 => ({ s with lapse := none }, true)
      | k + 1 => ({ s with lapse := some (b, k) }, false)
  | none => (s, false)

/-- A request of a command has had its notice already (R364). -/
def wasNoticed (s : State) (r : Req) (a : Nat) : Bool :=
  s.noticed.any (fun w => w.who = r.who && w.tag = r.tag && w.addr = a)

/-- A request of a command is served: its notice is forgotten. -/
def forgetNotice (s : State) (r : Req) (a : Nat) : State :=
  if s.noticed = [] then s
  else { s with noticed := s.noticed.filter (fun w => !(w.who = r.who && w.tag = r.tag && w.addr = a)) }

/-- A request waits: `.delayed` says that nothing of it is done, and who makes it takes back what it has done since. The
notice that it gets is remembered, to be counted once (`settleWaits`). -/
def waitsHere (s : State) (r : Req) (a : Nat) (j : Bool × Option Dest) : State :=
  match j.2 with
  | some d =>
    if wasNoticed s r a || r.again then s
    else { s with noticed := s.noticed ++ [{ who := r.who, tag := r.tag, addr := a, dest := d.1 }] }
  | none => s

/-- The state to which a command that waits goes back: as it was, with the notices given since (R364). -/
def settleWaits (s0 s : State) : State :=
  (s.noticed.filter (fun w => !s0.noticed.contains w)).foldl (fun t w =>
    noteDelayed { t with noticed := t.noticed ++ [w] } (reqOf w.who .bulk) w.dest) s0

/-- What a request of at most 512 bytes meets before it is served: `none` lets it be served. -/
def admission (s : State) (r : Req) (ps : List (Nat × Nat)) (a n : Nat) (joins : Bool) : State × Option Status :=
  let ds := destsOf s ps
  let j := judge s r ds joins
  if j.1 then (arrive s r j, some .refused)
  else if heldBack s a n then (waitsHere s r a j, some .delayed)
  else
    let s := if wasNoticed s r a || r.again then s else arrive s r j
    (noteServed (forgetNotice s r a) r ds, none)

/-- Does a speculative read need no access of its own: every piece joins a pending larder entry (R365)? -/
def joinsAll (s : State) (ps : List (Nat × Nat)) : Bool :=
  ps.all (fun x => match placeOf s x.1 with
    | .larder d off => (openEntry s d (off / 64)).isSome
    | _ => false)

/-- One read request of at most 512 bytes. -/
def readRequest (s : State) (r : Req) (a n : Nat) : State × Status × List Byte :=
  match lapses s r.who with
  | (s, true) => (timedOut s r (serviceBound s r a false), .aborted, [])
  | (s, false) =>
    let ps := blockCuts a n
    match wayOf s r.who ps with
    | .waits => (s, .delayed, [])
    | .lost => (timedOut s r (serviceBound s r a false), .aborted, [])
    | w =>
      match admission s r ps a n (joinsAll s ps) with
      | (s, some st) => (s, st, [])
      | (s, none) =>
        let (s, st, d) := readPieces (travel s r.who a 0 n) r ps
        if w = .noAnswer then (timedOut s r (serviceBound s r a false), .aborted, []) else (s, st, d)

/-- Read requests in turn, up to one that waits. -/
def readRequests (s : State) (r : Req) : List (Nat × Nat) → State × Status × List Byte
  | [] => (s, .ok, [])
  | (a, n) :: t =>
    match readRequest s r a n with
    | (s, .delayed, _) => (s, .delayed, [])
    | (s, st, d) =>
      let (s, st', d') := readRequests s r t
      (s, worse st st', d ++ d')

/-- POISONED data reach a command: POISON_CONSUMED at its engine (R47). -/
def consume (r : Req) (x : State × Status × List Byte) : State × Status × List Byte :=
  if x.2.1 = .poisoned && usesPoison r then (raiseAtRequester x.1 r Cause.POISON_CONSUMED, x.2) else x

/-- A read of local memory; `.delayed` says that a request of it must wait. -/
def readLocal (s : State) (r : Req) (a n : Nat) : State × Status × List Byte :=
  consume r (readRequests s r (requestCuts a n))

/-- One write request of at most 512 bytes: turned away whole, or applied piece by piece (assumption 17). One whose
response is lost in time may have been applied or not (R90). -/
def writeRequest (s : State) (r : Req) (a : Nat) (data : List Byte) : State × Status :=
  let n := data.length
  let ps := blockCuts a n
  let serve (s : State) : State × Status :=
    match checkPieces s r a n ps with
    | (s, .ok) =>
      (match admission s r ps a n false with
       | (s, some st) => (s, st)
       | (s, none) => writeMerged (travel s r.who a n 0) r ps data)
    | x => x
  match lapses s r.who with
  | (s, true) =>
    let bound := serviceBound s r a false
    let k := s.fresh
    let s := useFresh s
    (timedOut (if Config.lapsedDone k && wayOf s r.who ps = .free then (serve s).1 else s) r bound, .aborted)
  | (s, false) =>
    match wayOf s r.who ps with
    | .waits => (s, .delayed)
    | .lost => (timedOut s r (serviceBound s r a false), .aborted)
    | .noAnswer => (timedOut (serve s).1 r (serviceBound s r a false), .aborted)
    | .free => serve s

/-- Write requests in turn, up to one that waits. -/
def writeRequests (s : State) (r : Req) : List (Nat × Nat) → List Byte → State × Status
  | [], _ => (s, .ok)
  | (a, n) :: t, data =>
    match writeRequest s r a (data.take n) with
    | (s, .delayed) => (s, .delayed)
    | (s, st) =>
      let (s, st') := writeRequests s r t (data.drop n)
      (s, worse st st')

/-- A write to local memory; `.delayed` says that a request of it must wait. -/
def writeLocal (s : State) (r : Req) (a : Nat) (data : List Byte) : State × Status :=
  writeRequests s r (requestCuts a data.length) data

/-- Added to the global address of a held request to another device, to tell it from local ones. -/
abbrev outMark : Nat := 2 ^ 64

/-- Hold a request until what holds it back has passed. -/
def hold (s : State) (r : Req) (a : Nat) (acc : Access) (fmt : Option Nat) (reply : HeldReply) : State :=
  { s with held := s.held ++ [{ who := r.who, tag := r.tag, opc := r.opc, cls := r.cls, addr := a, acc := acc, fmt := fmt,
                                reply := reply, answered := false }] }

/-- A request that must wait is held (`s'` is the state that its `.delayed` answer left): its notice is counted now, and it
takes none later (R364). One that waits behind an add to its block is counted at the adder. -/
def holdReq (s s' : State) (r : Req) (a : Nat) (acc : Access) (fmt : Option Nat) (reply : HeldReply) : State :=
  let t := settleWaits s s'
  let t := { t with noticed := s.noticed }
  let behind := s.held.any (fun h => h.fmt.isSome && !h.answered && sameBlock a (accessBytes acc) h.addr (accessBytes h.acc))
  let t := match behind, placeOf s a with
    | true, .hbm st _ _ => bump t (.adder st) 7 1
    | _, _ => t
  hold t r a acc fmt reply

/-- A read whose maker does not wait, on the arrival of a message: one that must wait is taken with the bytes as they
stand (log entry 155). None where the bytes cannot be read. -/
def peekLocal (s : State) (r : Req) (a n : Nat) : State × Option (List Byte) :=
  match readLocal s r a n with
  | (s, .ok, l) => (s, some l)
  | (t, .delayed, _) => (settleWaits s t, some ((List.range n).map (fun i => getByte s (cellKey s (a + i)))))
  | (s, _, _) => (s, none)

/-- A write for which its maker does not wait: a record (R99, R421, R462). One that must wait is held, and its maker goes
on as after one answered OK; a later read of its block waits behind it. -/
def postWrite (s : State) (r : Req) (a : Nat) (data : List Byte) : State × Status :=
  match writeLocal s r a data with
  | (s', .delayed) => (hold (settleWaits s s') r a (.write data) none .nobody, .ok)
  | x => x

end Sys2Proof.Machine
end

