-- ==== Sys2Proof/Machine/Fabric.lean ====
section
/-!
DEFINITION. Requests by global address (R34–R36), and what the fabric does with a packet that leaves: the choice of a
port (R384), the header unit (R382), units, credits and flits of a Naulo port (R372–R377).
-/
namespace Sys2Proof.Machine

/-- The die of a Naulo port (R10). -/
def nauloDie (p : NauloId) : DieId := Fin.ofNat 33 (28 + p.val / 8)

/-- This device's ID (NODE_ID). -/
def nodeId (s : State) : DeviceId := s.boot.nodeId

/-- A Naulo port's running state. -/
def getPort (s : State) (p : NauloId) : NauloPort := tget NauloPort.reset s.nauloPorts p.val

/-- Replace a Naulo port's running state. -/
def putPort (s : State) (p : NauloId) (v : NauloPort) : State :=
  { s with nauloPorts := tset NauloPort.reset s.nauloPorts p.val v }

/-- Is a port up: it takes packets, even while a lane is being retired (R380)? -/
def portUp (s : State) (p : NauloId) : Bool := 2 ≤ (getPort s p).state

/-- The receive buffer of a virtual channel, in units (R374). -/
def vcUnits (vc : Nat) : Nat :=
  match vc with
  | 0 => 64
  | 1 | 2 => 1024
  | 5 => 512
  | 6 => 2048
  | _ => 8192

/-- Does the sender hold a credit for a virtual channel (R375)? -/
def hasCredit (x : NauloPort) (vc : Fin 8) : Bool :=
  (x.sent.getD vc.val 0 + 65536 - x.credit.getD vc.val 0) % 65536 < vcUnits vc.val

/-- Virtual channel number `n`. -/
def vcOf (n : Nat) : Fin 8 := Fin.ofNat 8 n

/-- The place of the first unit of a virtual channel that may be sent. -/
def firstUnit (x : NauloPort) (vc : Nat) : Option Nat :=
  if hasCredit x (vcOf vc) then x.queue.findIdx? (fun u => u.1.val = vc) else none

/-- The channels of a group in turn, from the one after the channel served last. -/
def inTurn (l : List Nat) (last : Nat) : List Nat := l.filter (last < ·) ++ l.filter (· ≤ last)

/-- The virtual channels in the order in which the next unit slot is granted (R376): VC 0; VCs 1, 2 and 6 in turn; VCs 3,
4 and 7 in turn; VC 5. After three slots of the first four in succession, while a unit of the others waits, those come
first. -/
def slotOrder (x : NauloPort) : List Nat :=
  let crit := 0 :: inTurn [1, 2, 6] x.critTurn
  let bulk := inTurn [3, 4, 7] x.bulkTurn ++ [5]
  if 3 ≤ x.critRun then bulk ++ crit else crit ++ bulk

/-- Does a channel belong to the first four of R376? -/
def critVc (vc : Nat) : Bool := vc = 0 || vc = 1 || vc = 2 || vc = 6

/-- The place in the queue of the next unit to send, if one may be sent. -/
def nextUnit (x : NauloPort) : Option Nat := (slotOrder x).findSome? (firstUnit x)

/-- A slot has gone to a channel: the turns and the run of R376. -/
def slotTaken (x : NauloPort) (vc : Nat) : NauloPort :=
  let waits := [3, 4, 7, 5].any (fun v => (firstUnit x v).isSome)
  if critVc vc then { x with critTurn := if vc = 0 then x.critTurn else vc, critRun := if waits then x.critRun + 1 else 0 }
  else { x with bulkTurn := if vc = 5 then x.bulkTurn else vc, critRun := 0 }

/-- Take up to `n` units from the queue for one flit. -/
def takeUnits (x : NauloPort) : Nat → NauloPort × List (Fin 8 × List Byte)
  | 0 => (x, [])
  | n + 1 =>
    match nextUnit x with
    | none => (x, [])
    | some i =>
      match x.queue[i]? with
      | none => (x, [])
      | some u =>
        let x := slotTaken x u.1.val
        let x := { x with queue := x.queue.eraseIdx i,
                          sent := setAt x.sent u.1.val ((x.sent.getD u.1.val 0 + 1) % 65536) }
        let (x, us) := takeUnits x n
        (x, u :: us)

/-- The code of a flit's type (R372). -/
def flitTypeCode : FlitType → Nat
  | .data => 0
  | .idle => 1
  | .nak => 2
  | .link => 3

/-- The control word of a flit (R372). -/
def flitControl (f : Flit) : Nat :=
  let valid := (f.units.take 4).length
  let vcs := (f.units.take 4).zipIdx.foldl (fun acc (u, i) => acc + u.1.val * 2 ^ (32 + 3 * i)) 0
  f.seq % 4096 + f.ctl.ack % 4096 * 2 ^ 12 + flitTypeCode f.type * 2 ^ 24 + (2 ^ valid - 1) * 2 ^ 26 + vcs +
    f.ctl.creditVc.val * 2 ^ 44 + f.ctl.creditCount % 65536 * 2 ^ 48

/-- Bytes padded with zeros to `n`. -/
def padTo (n : Nat) (l : List Byte) : List Byte := l ++ List.replicate (n - l.length) 0

/-- Bytes 263:0 of a flit: its control word and its four units (R372). -/
def flitBody (f : Flit) : List Byte :=
  leBytes 8 (flitControl f) ++ padTo 256 ((f.units.take 4).flatMap (fun u => (padTo 64 u.2).take 64))

/-- The CRC of a flit: CRC-64/ECMA-182 over its bytes 263:0 (R372). -/
def flitCrc (f : Flit) : BitVec 64 := BitVec.ofNat 64 (crc64.of (flitBody f))

/-- The 272 bytes of a flit. -/
def flitBytes (f : Flit) : List Byte := flitBody f ++ leBytes 8 (flitCrc f).toNat

/-- The active lanes of a port, in increasing order. -/
def activeLanesOf (a : BitVec 4) : List (Fin 4) := (List.finRange 4).filter (fun l => a.getLsbD l.val)

/-- What each active lane carries of a flit: group g of 8 bytes travels on active lane g mod a (R370). -/
def flitLanes (a : BitVec 4) (f : Flit) : List (Fin 4 × List Byte) :=
  let ls := activeLanesOf a
  ls.zipIdx.map (fun (l, i) =>
    (l, (List.range 34).flatMap (fun g => if g % ls.length = i then ((flitBytes f).drop (8 * g)).take 8 else [])))

/-- A flit leaves a port, with its ACK and the credit counter whose turn it is (R372, R375). -/
def sendFlit (s : State) (p : NauloId) (type : FlitType) (seq : Nat) (units : List (Fin 8 × List Byte)) : State :=
  let x := getPort s p
  let f : Flit :=
    { seq := seq, type := type, units := units,
      ctl := { ack := (x.rxNext + 4095) % 4096, creditVc := x.creditTurn, creditCount := x.freed.getD x.creditTurn.val 0 } }
  emit (putPort s p { x with creditTurn := x.creditTurn + 1 }) (.flit p f (flitLanes x.active f))

/-- The SEQ that a flit without units carries: that of the latest DATA flit sent (R372). -/
def latestSeq (s : State) (p : NauloId) : Nat := ((getPort s p).txSeq + 4095) % 4096

/-- A LINK flit (R372): message 1 IDENT, 2 RETIRE or 3 RETIRE_ACK, the lane, and this device's NODE_ID. -/
def sendLink (s : State) (p : NauloId) (msg lane : Nat) : State :=
  sendFlit s p .link (latestSeq s p)
    [(0, padTo 64 (bytesOf [wordOf (msg + lane % 4 * 256), wordOf (nodeId s).val]))]

/-- An IDLE flit carries an ACK and a credit counter. -/
def sendIdle (s : State) (p : NauloId) : State := sendFlit s p .idle (latestSeq s p) []

/-- Send DATA flits while the port is up, holds units that may go, and its replay buffer has room (R375, R377). -/
def pump (s : State) (p : NauloId) : Nat → State
  | 0 => s
  | fuel + 1 =>
    let x := getPort s p
    if x.state ≠ 2 ∨ 512 ≤ x.replay.length then s
    else
      let (x, us) := takeUnits x 4
      if us = [] then s
      else
        let f : ReplayFlit := { seq := x.txSeq, units := us, sends := 1 }
        let x := { x with txSeq := (x.txSeq + 1) % 4096, replay := x.replay ++ [f],
                          ackMoved := if x.replay = [] then s.now else x.ackMoved }
        let s := bump (bump (putPort s p x) (.naulo p) 0 1) (.naulo p) 2 us.length
        pump (sendFlit s p .data f.seq us) p fuel

/-- Hand units to a port. -/
def portSend (s : State) (p : NauloId) (vc : Fin 8) (units : List (List Byte)) : State :=
  let x := getPort s p
  let s := putPort s p { x with queue := x.queue ++ units.map (fun u => (vc, u)) }
  pump s p (units.length + 1)

/-- The code of a service class (R87). -/
def clsCode : SvcClass → Nat
  | .critical => 0
  | .bulk => 1
  | .speculative => 2

/-- The class of a code. -/
def clsOf (n : Nat) : SvcClass :=
  match n with
  | 0 => .critical
  | 1 => .bulk
  | _ => .speculative

/-- The 64 bytes of a header unit (R382). `w6` holds ADD_FMT and STATUS in place; `ext` is words 8–15. -/
def headerUnit (op : Nat) (h : PacketHead) (w6 : Nat) (operand : Word) (ext : List Word) (len : Nat) : List Byte :=
  let ws : List Word :=
    [wordOf (op + len * 2 ^ 8 + clsCode h.cls * 2 ^ 12 + h.tag.toNat * 2 ^ 16),
     wordOf (h.dst.val + h.src.val * 2 ^ 16), h.unit, wordOf h.xid, wordOf h.addr, wordHi h.addr,
     wordOf (h.bytes + w6), operand]
  padTo 64 (bytesOf (ws ++ ext.take 8))

/-- The payload units of a packet. -/
def payloadUnits (data : List Byte) : List (List Byte) :=
  (List.range (cdiv data.length 64)).map (fun i => padTo 64 ((data.drop (64 * i)).take 64))

/-- The port by which a packet leaves (R384): none where no port of the mask is up. -/
def routePort (s : State) (dst : DeviceId) (unit : Word) (vc : Nat) : Option NauloId :=
  let mask := tget (0#16) s.routes dst.val
  let ups := (List.finRange 16).filter (fun p => mask.getLsbD p.val && portUp s p)
  let h := (mix64 (BitVec.ofNat 64 (unit.toNat * 65536 + dst.val * 8 + vc))).toNat % 65536
  ups[h % ups.length]?

/-- No port of the mask is up: the request is ABORTED and the fabric page raises NO_ROUTE (R384). -/
def noRoute (s : State) : State := bump (raise s fabricPage 10) fabricPage 7 1

/-- Send a packet to another device: it leaves by the port of R384. -/
def sendPacket (s : State) (op : Nat) (vc : Fin 8) (h : PacketHead) (w6 : Nat) (operand : Word) (ext : List Word)
    (data : List Byte) : State × Option NauloId :=
  match routePort s h.dst h.unit vc.val with
  | none => (noRoute s, none)
  | some p =>
    -- a fenced port passes nothing on (R443)
    if isFenced s (.naulo p) then (s, some p)
    else
      let s := emit s (.packet p op vc.val h ([w6, operand.toNat] ++ ext.map (·.toNat)) data)
      (portSend s p vc (headerUnit op h w6 operand ext (cdiv data.length 64) :: payloadUnits data), some p)

/-- Send a message of VC 0 to another device (R383): its header unit's words 8–15 are `ext`. What it says is recorded as
`out`, whether or not a port is up for it; without one it does not leave, and as no request is answered nothing is raised.
With both stewards failed the device sends none (R450). -/
def sendControl (s : State) (b : Block) (op : Nat) (dst : DeviceId) (ext : List Word) (data : List Byte) (out : Output) :
    State :=
  if s.steward.failed then s
  else
    let s := emit s out
    match routePort s dst b.unit 0 with
    | none => s
    | some p =>
      let h : PacketHead :=
        { cls := .critical, tag := 0, dst := dst, src := nodeId s, unit := b.unit, xid := 0, addr := 0, bytes := 0 }
      if isFenced s (.naulo p) then s
      else portSend s p 0 (headerUnit op h 0 0 ext (cdiv data.length 64) :: payloadUnits data)

/-- The two words of a 64-bit number. -/
def words64 (n : Nat) : List Word := [wordOf n, wordHi n]

/-- The virtual channel of a request of a class (R374). -/
def requestVc : SvcClass → Fin 8
  | .critical => 1
  | .bulk => 3
  | .speculative => 5

/-- The virtual channel of the response to a request of a class (R374). -/
def responseVc : SvcClass → Fin 8
  | .critical => 2
  | _ => 4

/-- The header of a request to another device. -/
def requestHead (s : State) (r : Req) (ga n : Nat) : PacketHead :=
  { cls := r.cls, tag := r.tag, dst := Fin.ofNat 32768 (ga / 2 ^ 48), src := nodeId s, unit := r.unit, xid := s.xid,
    addr := ga % 2 ^ 48, bytes := n }

/-- How another device answers an engine's request (assumption 19): free, within what R89, R333 and R365 allow; a
malformed answer ends the request as ABORTED does. -/
def remoteAnswer (s : State) (r : Req) : State × Status :=
  let code := Config.remoteStatus s.fresh % 8
  let s := useFresh s
  match code with
  | 2 => (s, if r.cls = .speculative then .refused else .ok)
  | 3 => (s, .aborted)
  | 4 => (s, .bankOff)
  | 5 => (s, .poisoned)
  | 6 => (raiseAtRequester s r Cause.PROTOCOL, .aborted)
  | 7 => (if r.cls = .bulk then countDelayed s r.who else s, .ok)
  | _ => (s, .ok)

/-- Units of some virtual channels that wait at a port. -/
def portQueued (s : State) (p : NauloId) (vcs : List Nat) : Nat :=
  ((getPort s p).queue.filter (fun u => vcs.contains u.1.val)).length

/-- What the port that a request leaves by answers at its arrival there (R376): ABORTED at a fenced one, REFUSED to a
speculative request while others wait or a lane is being retired, and a DELAYED notice to a bulk one. -/
def portArrival (s : State) (r : Req) (dst : DeviceId) : State × Option Status :=
  match routePort s dst r.unit (requestVc r.cls).val with
  | none => (s, none)
  | some p =>
    let b : Block := .naulo p
    if isFenced s b then (fencedAnswer s r b, some .aborted)
    else
      let busy := (getPort s p).state = 3
      match r.cls with
      | .critical => (s, none)
      | .bulk =>
        let mark := rfield s b Reg.Svc.SVC_CTRL 7 0
        if busy || (mark ≠ 0 && mark ≤ portQueued s p [3]) then (noteDelayed s r b, none) else (s, none)
      | .speculative => if busy || portQueued s p [1, 3] ≠ 0 then (noteRefused s r b, some .refused) else (s, none)

/-- The way of a unit's request to the port that it leaves by, and of the answer back; free where no port is up. -/
def portWay (s : State) (r : Req) (dst : DeviceId) : Way :=
  match routePort s dst r.unit (requestVc r.cls).val with
  | none => .free
  | some p =>
    let (f, t) := (dieOf s r.who, nauloDie p)
    if routeStopped s f t then .lost
    else if routeWaits s f t || routeWaits s t f then .waits
    else if routeStopped s t f then .noAnswer
    else .free

/-- The bound of a request to another device, in ns (R389). -/
def remoteBound (s : State) (cls : SvcClass) : Nat :=
  (rget s fabricPage (if cls = .critical then Reg.Fab.REMOTE_BOUND_CRIT else Reg.Fab.REMOTE_BOUND_BULK)).toNat

/-- A request sets out for another device: `.inr` the port that it left by, `.inl` the answer that it got before. `w6` holds
the ADD_FMT of an ADD in its place. -/
def setOut (s : State) (r : Req) (ga n op w6 : Nat) (operand : Word) (ext : List Word) (data : List Byte) :
    State × (Status ⊕ NauloId) :=
  let h := requestHead s r ga n
  match portWay s r h.dst with
  | .waits => (s, .inl .delayed)
  | .lost => (timedOut s r (remoteBound s r.cls), .inl .aborted)
  | _ =>
    match portArrival s r h.dst with
    | (s, some st) => (s, .inl st)
    | (s, none) =>
      match sendPacket s op (requestVc r.cls) h w6 operand ext data with
      | (s, none) => (s, .inl .aborted)
      | (s, some p) =>
        (passFlits { s with xid := (s.xid + 1) % 2 ^ 32 } (dieOf s r.who) (nauloDie p) (packetFlits data.length), .inr p)

/-- One request of an engine to another device, `back` bytes of payload coming with its answer: the packet leaves, and the
answer is free. The one that REQUEST_TIMEOUT names, or whose answer meets a stopped path, gets none within its bound and
30 µs (R389, R90). -/
def remoteRequest (s : State) (r : Req) (ga n op w6 back : Nat) (data : List Byte) : State × Status :=
  let (s, lapsed) := lapses s r.who
  let h := requestHead s r ga n
  let way := portWay s r h.dst
  match setOut s r ga n op w6 0 [] data with
  | (s, .inl st) => (s, st)
  | (s, .inr p) =>
    if lapsed || way = .noAnswer then (timedOut s r (remoteBound s r.cls), .aborted)
    else remoteAnswer (passFlits s (nauloDie p) (dieOf s r.who) (packetFlits back)) r

/-- Reads from another device, request by request; the bytes are free. -/
def remoteReads (s : State) (r : Req) (dev : Nat) : List (Nat × Nat) → State × Status × List Byte
  | [] => (s, .ok, [])
  | (a, n) :: t =>
    let k := s.fresh
    match remoteRequest s r (dev * 2 ^ 48 + a) n 0x01 0 n [] with
    | (s, .delayed) => (s, .delayed, [])
    | (s, st) =>
      let d := if st = .ok then (List.range n).map (Config.remoteByte k) else []
      let (s, st', d') := remoteReads s r dev t
      (s, worse st st', d ++ d')

/-- Writes to another device, request by request. -/
def remoteWrites (s : State) (r : Req) (dev : Nat) : List (Nat × Nat) → List Byte → State × Status
  | [], _ => (s, .ok)
  | (a, n) :: t, data =>
    match remoteRequest s r (dev * 2 ^ 48 + a) n 0x02 0 0 (data.take n) with
    | (s, .delayed) => (s, .delayed)
    | (s, st) =>
      let (s, st') := remoteWrites s r dev t (data.drop n)
      (s, worse st st')

/-- Where a global address leads (R34, R35): nowhere, to this device, or to another one. -/
inductive Target where
  | bad
  | here (a : Nat)
  | remote (dev a : Nat)
  deriving DecidableEq, Repr

/-- The target of a global address. -/
def targetOf (s : State) (ga : Nat) : Target :=
  if 2 ^ 63 ≤ ga then .bad
  else if ga / 2 ^ 48 = (nodeId s).val then .here (ga % 2 ^ 48)
  else .remote (ga / 2 ^ 48) (ga % 2 ^ 48)

/-- A read by global address. -/
def gRead (s : State) (r : Req) (ga n : Nat) : State × Status × List Byte :=
  match targetOf s ga with
  | .bad => (raiseAtRequester s r Cause.ADDRESS, .aborted, [])
  | .here a => readLocal s r a n
  | .remote d a => consume r (remoteReads s r d (requestCuts a n))

/-- A write by global address. -/
def gWrite (s : State) (r : Req) (ga : Nat) (data : List Byte) : State × Status :=
  match targetOf s ga with
  | .bad => (raiseAtRequester s r Cause.ADDRESS, .aborted)
  | .here a => writeLocal s r a data
  | .remote d a => remoteWrites s r d (requestCuts a data.length) data

/-! ### Answers -/

/-- The block that a place belongs to. -/
def placeBlock : Place → Option Block
  | .core c m _ => some (.mem c m)
  | .sem f _ => some (semBlock f)
  | .larder d _ => some (.larder d)
  | .hbm st _ _ => some (.hbm st)
  | .slow p _ => some (.cxl p)
  | .regs | .unmapped => none

/-- Cause ADDRESS at block `b` for an access to local address `a` that was answered ABORTED, unless the access itself
has raised it there or its time has run out: `s0` is the state before the access (R94, R99). -/
def addressOnce (s0 s : State) (b : Block) (a : Nat) (o : Occur) : State :=
  let fenced := match placeBlock (placeOf s0 a) with
    | some t => isFenced s0 t
    | none => false
  if s.now ≠ s0.now then s
  else if fenced || rget s0 b Reg.Hdr.ERR_COUNT = rget s b Reg.Hdr.ERR_COUNT then raiseWith s b Cause.ADDRESS o else s

/-- The header of an answer to a request of another device. -/
def answerHead (s : State) (b : Block) (node : DeviceId) (h : PacketHead) : PacketHead :=
  { h with dst := node, src := nodeId s, unit := b.unit }

/-- Answer a WRITE, ADD or SEM of another device with an ACK (R383, R388). -/
def sendAck (s : State) (b : Block) (node : DeviceId) (h : PacketHead) (code : Nat) : State :=
  if s.steward.failed then s
  else (sendPacket s 0x09 (responseVc h.cls) (answerHead s b node h) (code * 65536) 0 [] []).1

/-- Answer a READ of another device with its data (R383, R388). -/
def sendReadResp (s : State) (b : Block) (node : DeviceId) (h : PacketHead) (code : Nat) (data : List Byte) : State :=
  if s.steward.failed then s
  else (sendPacket s 0x08 (responseVc h.cls) (answerHead s b node h) (code * 65536) 0 [] data).1

end Sys2Proof.Machine
end

