-- ==== Sys2Proof/Machine/Operands.lean ====
section
/-!
DEFINITION. The operand forms of a command: its common fields in both synchronisation modes (R83, R87), the operand
words that each opcode defines (R92, R93, R138, R143, R145, R170, R199, R202, R207, R210, R214, R218, R230, R242,
R269, R281, R285, R313, R315, R329, R400), and the check of R94 at dispatch.
-/
namespace Sys2Proof.Machine

/-- Field `hi : lo` of word `n` of a command. -/
def cf (ws : List Word) (n hi lo : Nat) : Nat := bits (wordAt ws n) hi lo

/-- Bit `i` of word `n` of a command. -/
def cb (ws : List Word) (n i : Nat) : Bool := bit (wordAt ws n) i

/-- A 64-bit operand in words `n + 1 : n`. -/
def cf64 (ws : List Word) (n : Nat) : Nat := (wordAt ws n).toNat + 2 ^ 32 * (wordAt ws (n + 1)).toNat

/-- OPCODE. -/
def cmdOp (ws : List Word) : Nat := cf ws 0 7 0
/-- ACQUIRE. -/
def cmdAcquire (ws : List Word) : Bool := cb ws 0 8
/-- EXT_SYNC. -/
def cmdExt (ws : List Word) : Bool := cb ws 0 9
/-- ORDERED. -/
def cmdOrdered (ws : List Word) : Bool := cb ws 0 10
/-- CLASS. -/
def cmdClass (ws : List Word) : Nat := cf ws 0 12 11
/-- The service class of the requests that a command issues. -/
def cmdSvc (ws : List Word) : SvcClass :=
  match cmdClass ws with
  | 0 => .critical
  | 1 => .bulk
  | _ => .speculative
/-- NOTIFY. -/
def cmdNotify (ws : List Word) : Bool := cb ws 0 13
/-- TAG. -/
def cmdTag (ws : List Word) : Tag := BitVec.ofNat 16 (cf ws 0 31 16)
/-- WAIT_SEM. -/
def cmdWaitSem (ws : List Word) : Nat := cf ws 1 11 0
/-- POST_SEM. -/
def cmdPostSem (ws : List Word) : Nat := cf ws 1 27 16

/-- Is a front end in baton mode (RING_CTRL.SYNC_MODE; R100: an engine front end never is)? -/
def batonMode (s : State) : FrontId → Bool
  | .cp c => rbit s (.cp c) Reg.Cp.RING_CTRL 1
  | _ => false

/-- The wait threshold, or the number of tokens to take: EXT_SYNC has no effect in baton mode (R83, R87). -/
def cmdWait (baton : Bool) (ws : List Word) : Nat :=
  if cmdExt ws && !baton then cf ws 15 15 0 else cf ws 1 15 12

/-- The post delta, or the number of tokens to pass. -/
def cmdPost (baton : Bool) (ws : List Word) : Int :=
  if cmdExt ws && !baton then signed 16 (cf ws 15 31 16) else signed 4 (cf ws 1 31 28)

/-- Semaphores of an owner: 4,096 of a core, 256 of an engine's bank (R100). -/
def semCount : FrontId → Nat
  | .cp _ => 4096
  | _ => 256

/-- The opcodes that a front end accepts (R91). -/
def opcodesOf : FrontId → List Nat
  | .cp _ => [0x01, 0x02, 0x03, 0x04, 0x05, 0x08, 0x09, 0x10, 0x11, 0x18, 0x19, 0x1A, 0x20, 0x21, 0x28]
  | .hub _ => [0x40, 0x41, 0x42, 0x43, 0x20, 0x21]
  | .slow _ => [0x48, 0x20, 0x21]
  | .relay _ => [0x50, 0x20, 0x21]

/-- The queue of a command (R97, R100). -/
def queueOf (f : FrontId) (ws : List Word) : Nat :=
  match f with
  | .cp _ =>
    match cmdOp ws with
    | 0x08 | 0x09 => 1
    | 0x18 | 0x1A => 2
    | 0x20 => 3
    | 0x28 => 4 + cf ws 2 2 0
    | _ => 0
  | _ => if cmdOp ws = 0x20 then 3 else 0

/-- The bits of operand words 2–14 that an opcode defines; every other bit is reserved. -/
def operandMasks (op : Nat) : List Nat :=
  let all := 0xFFFFFFFF
  match op with
  | 0x01 => [all, all, 0x7FFF, 0xFFFF000F, all, all]
  | 0x02 => [all, all, 0x7FFF, 0xFFFF000F, all, all, 0x1FFFF, all, 0xFF]
  | 0x03 => [all, all, 0x7FFF, 0xFFFF000F, all, all, 0x3FFFF]
  | 0x04 => [all, all, 0x7FFF, all, 0, 0, 0xFFFF]
  | 0x05 => [all, all, 0x7FFF, all, 0, 0, 0xFFFF, all, all, 0xFF]
  | 0x08 => [all, all, 0xFFF, all, all, all]
  | 0x09 => [all, 0xFFFF, 0x3FF]
  | 0x10 => [all, all, 0x1F]
  | 0x11 => [all, 0xFFFF, 0x3F]
  | 0x18 => [all]
  | 0x19 => [0xFFFF]
  | 0x1A => [0x3FFFF, all, all, all]
  | 0x20 => [all, all, all, 1]
  | 0x21 => [all, all, 1]
  | 0x28 => [0x3FFFF, all, all, all, all, all, all, all, all, all, all, all]
  | 0x40 => [all, all, all, 0xFFF, all, all, 0xFFFF, all, all]
  | 0x41 => [all, all, 0x3FFF, all, all, all, all, all]
  | 0x42 => [all, all, 0x3FDF, all, all, all, all, all, all, 0x1F]
  | 0x43 => [all, 0x1FF, all]
  | 0x48 => [all, all, 0xFFFF, 0x3F]
  | 0x50 => [0xFFFF, all, all, all, 0xFF, all, 0, all, 0xFFFF, all, all]
  | _ => []

/-- Is a reserved bit of the command set: bits 15:14 of word 0, a reserved bit of words 2–14, or word 15 without
EXT_SYNC, since no opcode defines it (R87, R94)? With EXT_SYNC set word 15 is accepted, in baton mode too, where EXT_SYNC
has no effect (R83; DESIGN CHOICE, assumption 148). DMA with FILL reserves its source fields (R329). -/
def reservedBit (ws : List Word) : Bool :=
  let op := cmdOp ws
  cf ws 0 15 14 ≠ 0 ||
  (List.range 13).any (fun i => (wordAt ws (i + 2)).toNat &&& (0xFFFFFFFF ^^^ (operandMasks op).getD i 0) ≠ 0) ||
  (!cmdExt ws && wordAt ws 15 ≠ 0) ||
  (op = 0x28 && cb ws 2 3 &&
    (wordAt ws 3 ≠ 0 || wordAt ws 4 ≠ 0 || wordAt ws 8 ≠ 0 || wordAt ws 10 ≠ 0 || cf ws 7 15 0 ≠ 0 || cf ws 2 10 4 ≠ 0))

/-- FUNC values of ELTWISE (R143). -/
def eltwiseFuncs : List Nat :=
  [0x00, 0x01, 0x02, 0x03, 0x04, 0x05, 0x06, 0x07, 0x08, 0x09, 0x0A, 0x0B, 0x0C, 0x0D,
   0x10, 0x11, 0x12, 0x13, 0x14, 0x15, 0x16, 0x17]

/-- Does an operand field hold a reserved value (R94)? -/
def reservedValue (ws : List Word) : Bool :=
  match cmdOp ws with
  | 0x01 | 0x02 | 0x04 | 0x05 =>
    cf ws 4 4 0 < 5 || 16 < cf ws 4 4 0 || cf ws 4 6 5 = 3 || cf ws 4 9 8 = 3
  | 0x03 => cf ws 4 4 0 < 5 || 16 < cf ws 4 4 0 || cf ws 4 6 5 = 3 || cf ws 4 9 8 = 3 || 1 < cf ws 8 17 16
  | 0x08 => !eltwiseFuncs.contains (cf ws 4 7 0) || cf ws 4 9 8 = 3
  | 0x09 => 5 < cf ws 4 2 0 || cf ws 4 7 6 = 3
  | 0x10 | 0x11 => 12 < cf ws 4 3 0
  | 0x1A => cf ws 2 17 16 = 3
  | 0x40 => 1 < cf ws 5 6 5 || cf ws 5 11 10 = 3
  | 0x41 => cf ws 4 5 4 = 3 || cf ws 4 9 8 = 1 || cf ws 4 9 8 = 3 || cf ws 4 12 11 = 3
  | 0x42 => cf ws 4 9 8 = 1 || cf ws 4 9 8 = 3 || cf ws 4 12 11 = 3
  | 0x43 => 10 < cf ws 3 8 5
  | 0x50 => 9 ≤ cf ws 2 3 0
  | _ => false

/-- A STEP_VOTE with an operand field other than KIND and GROUP set (R94, R413). -/
def voteOperands (ws : List Word) : Bool :=
  cmdOp ws = 0x50 && cf ws 2 3 0 = 8 &&
  (cf ws 2 31 12 ≠ 0 || (List.range 10).any (fun i => wordAt ws (i + 3) ≠ 0))

/-- A SEM_OP to a baton whose AMOUNT or SUB is out of range (R92). -/
def batonOperands (ws : List Word) : Bool :=
  cmdOp ws = 0x20 && cb ws 5 0 && (cf ws 4 30 0 = 0 || 7 < cf ws 4 30 0 || cb ws 4 31)

/-- Is the wait field in range, judged only when the command waits (R94)? -/
def waitValid (f : FrontId) (baton : Bool) (ws : List Word) : Bool :=
  cmdWait baton ws = 0 || cmdWaitSem ws < (if baton then 16 else semCount f)

/-- Are the command's own POST fields valid, judged only when it posts (R83, R94)? -/
def postValid (f : FrontId) (baton : Bool) (ws : List Word) : Bool :=
  cmdPost baton ws = 0 ||
  (if baton then 0 < cmdPost baton ws && cmdPostSem ws < 16 else cmdPostSem ws < semCount f)

/-- A class that R88 or R94 forbids: 3, or 2 on an opcode other than GATHER and DMA. -/
def classInvalid (ws : List Word) : Bool :=
  cmdClass ws = 3 || (cmdClass ws = 2 && cmdOp ws ≠ 0x10 && cmdOp ws ≠ 0x28)

/-- Is the command a bad command (R94)? -/
def badCommand (f : FrontId) (baton : Bool) (ws : List Word) : Bool :=
  !(opcodesOf f).contains (cmdOp ws) || reservedBit ws || reservedValue ws || batonOperands ws || voteOperands ws ||
  cmdTag ws = 0 || !waitValid f baton ws || !postValid f baton ws || classInvalid ws

end Sys2Proof.Machine
end

