-- ==== Sys2Proof/Machine/Trace.lean ====
section
/-!
DEFINITION. Trace records on their way to the collector (R458–R463) and the command latches of COUNTER_MODE (R456).
-/
namespace Sys2Proof.Machine

/-! The kinds of trace record (R458). -/
namespace TraceKind
abbrev semWait : Nat := 0x01
abbrev batonWait : Nat := 0x02
abbrev strideWait : Nat := 0x03
abbrev slotWait : Nat := 0x04
abbrev poisonRelease : Nat := 0x05
abbrev lockWait : Nat := 0x06
abbrev stretch : Nat := 0x07
abbrev hurdle : Nat := 0x08
abbrev counters : Nat := 0x10
abbrev lost : Nat := 0x1F
end TraceKind

/-- Is a unit a source of the trace (TRACE_CORES_n, TRACE_ENGINES)? -/
def traceSource (s : State) (b : Block) : Bool :=
  match b.core with
  | some c => bit (s.trace.cores.getD (c.val / 32) 0) (c.val % 32)
  | none =>
    match b with
    | .hub h => bit s.trace.engines h.val
    | .slow p => bit s.trace.engines (4 + p.val)
    | .relay e => bit s.trace.engines (6 + e.val)
    | .stride _ => bit s.trace.engines 22
    | _ => false

/-- What a trace record says of its event (R461), the collector's SEQ apart. -/
structure TraceInfo where
  kind   : Nat
  tag    : Tag
  object : Nat
  queue  : Nat
  opcode : Nat
  value  : Nat
  start  : WaitStart
  length : Nat
  rel    : Source
  entry  : Nat
  deriving DecidableEq, Repr

/-- The 16 words of a trace record (R461). -/
def traceWords (b : Block) (i : TraceInfo) (len : Nat) : List Word :=
  [wordOf (i.kind + len * 2 ^ 8 + i.tag.toNat * 2 ^ 16), b.unit,
   wordOf (i.object + i.queue * 2 ^ 12 + i.opcode * 2 ^ 16), wordOf i.value,
   wordOf i.start.stride, wordHi i.start.stride, wordOf i.start.ns, wordOf (sat 32 i.length),
   i.rel.unit, wordOf (i.rel.node + i.rel.tag.toNat * 2 ^ 16), 0, wordOf (recordDie b), wordOf i.entry, 0, 0, 0]

/-- Records of a source that wait for the collector. -/
def traceQueued (s : State) (b : Block) : Nat := (s.trace.queued.filter (fun r => r.source = b)).length

/-- Is dispatch of a front end stopped by LOSSLESS (R463)? -/
def traceStalls (s : State) (b : Block) : Bool :=
  s.trace.en && rbit s tracePage Reg.Trc.TRACE_CTRL 2 && traceSource s b && 8 ≤ traceQueued s b

/-- A record was dropped: TRACE_DROPPED, and the count of the next LOST record (R462). -/
def traceDrop (s : State) (counter : Nat) : State :=
  let s := bump s tracePage counter 1
  let s := rput s tracePage Reg.Trc.TRACE_DROPPED
    (wordOf (sat 32 ((rget s tracePage Reg.Trc.TRACE_DROPPED).toNat + 1)))
  { s with trace := { s.trace with drops := s.trace.drops + 1 } }

/-- A record and its data slots, queued at its source unless eight wait there already (R463). -/
def traceQueue (s : State) (b : Block) (words : List Word) (slots : List (List Word)) : State :=
  if 8 ≤ traceQueued s b then traceDrop s 1
  else { s with trace := { s.trace with
      queued := s.trace.queued ++ [{ source := b, words := words, slots := slots }] } }

/-- Make a record of an event, if its kind and its source are traced (R458). -/
def traceSend (s : State) (b : Block) (i : TraceInfo) : State :=
  if s.trace.en && bit s.trace.kinds i.kind && traceSource s b then traceQueue s b (traceWords b i 0) [] else s

/-- A wait begins now. -/
def waitNow (s : State) : WaitStart := { stride := s.stride.count, ns := nsSinceTick s, at_ := s.now }

/-- Make the record of a wait that is over, unless it was satisfied at once or is too short (R459). -/
def traceWait (s : State) (b : Block) (from_ : Option WaitStart) (i : WaitStart → Nat → TraceInfo) : State :=
  match from_ with
  | none => s
  | some w => if s.now - w.at_ < s.trace.minNs then s else traceSend s b (i w (s.now - w.at_))

/-- The latch of a command at its start (1) or end (2), with its COUNTERS record (R456, R461). -/
def commandLatch (s : State) (b : Block) (tag : Tag) (queue opcode edge : Nat) : State :=
  let s := latchCounters s b tag
  if s.trace.en && bit s.trace.kinds TraceKind.counters && traceSource s b && !(rbit s b Reg.Hdr.LATCH_CTRL 1) then
    let i : TraceInfo :=
      { kind := TraceKind.counters, tag := tag, object := 0, queue := queue, opcode := opcode, value := edge,
        start := waitNow s, length := 0, rel := Source.none, entry := 0 }
    let slot (k : Nat) : List Word :=
      (List.range 16).map (fun j => wordOf (ctr s b (8 * k + j / 2) / 2 ^ (32 * (j % 2))))
    traceQueue s b (traceWords b i 3) [slot 0, slot 1, slot 2]
  else s

/-- The latch at the start of a command on a page, if COUNTER_MODE is 1 there: the pages that latch at its end. -/
def startLatch (s : State) (b : Block) (tag : Tag) (queue opcode : Nat) (l : List Nat) : State × List Nat :=
  if rbit s b Reg.Hdr.CTRL 3 then (commandLatch s b tag queue opcode 1, l ++ [b.page]) else (s, l)

/-- The latches at the end of a command. -/
def endLatches (s : State) (l : List Nat) (tag : Tag) (queue opcode : Nat) : State :=
  l.foldl (fun s p => match blockAt p with
    | some b => commandLatch s b tag queue opcode 2
    | none => s) s

end Sys2Proof.Machine
end

