-- ==== Sys2Proof/Machine/Queues.lean ====
section
/-!
DEFINITION. Semaphores and batons (R73–R86), the commands in flight of a front end (R98), and how a command ends: its
status, its post, its completion record and what they set (R89, R99).
-/
namespace Sys2Proof.Machine

/-! ### Semaphores -/

/-- Count on the semaphore memory's page; an engine's bank has no page (R100). -/
def semBump (s : State) (f : FrontId) (k n : Nat) : State :=
  match f with
  | .cp c => bump s (.sem c) k n
  | _ => s

/-- Is a fill of the semaphore memory running (R80)? -/
def semFilling (s : State) (f : FrontId) : Bool := s.filling.any (fun x => x.1 = f.num)

/-- Semaphores of an owner that are poisoned now. -/
def poisonCount (s : State) (f : FrontId) : Nat :=
  let b := getBank s f
  let n := (b.cells.filter (fun x => x.2.poison)).length
  if b.dflt.poison then semCount f - (b.cells.length - n) else n

/-- Note in FIRST_POISON that a semaphore of a core has been poisoned, if none was. -/
def noteFirstPoison (s : State) (f : FrontId) (i : Nat) (tag : Tag) : State :=
  match f with
  | .cp c =>
    if s.firstPoison.any (fun x => x.1 = c.val) then s
    else { s with firstPoison := tset (0, 4096) s.firstPoison c.val (tag, i) }
  | _ => s

/-- FIRST_POISON.VALID returns to 0 when POISON_COUNT reaches 0. -/
def clearFirstPoison (s : State) (f : FrontId) : State :=
  if poisonCount s f = 0 then { s with firstPoison := s.firstPoison.filter (fun x => x.1 ≠ f.num) } else s

/-- Poison a semaphore, its count kept; `src` is who poisoned it. -/
def poisonSem (s : State) (f : FrontId) (i : Nat) (src : Source) : State :=
  let x := getSem s f i
  noteFirstPoison (putSem s f i { x with poison := true, src := src }) f i src.tag

/-- What an ADD or a SUB did. -/
inductive SemResult where
  | applied
  /-- out of range: the semaphore is poisoned (R76) -/
  | overflow
  /-- the semaphore was poisoned already (R78) -/
  | wasPoisoned
  deriving DecidableEq, Repr

/-- The refusal of R76: poison, the cause on the semaphore memory, FAULT_INFO and FAULT_DELTA. -/
def semFault (s : State) (f : FrontId) (i : Nat) (sub : Bool) (amount : Nat) (src : Source) : State :=
  let s := poisonSem s f i src
  match f with
  | .cp c =>
    let s := bump s (.sem c) (if sub then 4 else 5) 1
    let s := rput s (.sem c) Reg.Sm.FAULT_INFO
      (wordOf (src.tag.toNat * 65536 + (if sub then 0 else 4096) + i))
    let s := rput s (.sem c) Reg.Sm.FAULT_DELTA (if sub then 0 - wordOf amount else wordOf amount)
    raiseTag s (.sem c) (if sub then 8 else 9) src.tag 0
  | _ => s

/-- Apply an ADD or a SUB to a semaphore (R74, R76, R78, R460). -/
def semApply (s : State) (f : FrontId) (i : Nat) (sub : Bool) (amount : Nat) (src : Source) : State × SemResult :=
  let x := getSem s f i
  if x.poison then (s, .wasPoisoned)
  else if sub then
    if x.count < amount then (semFault s f i sub amount src, .overflow)
    else (semBump (putSem s f i { x with count := x.count - amount, src := src }) f 0 1, .applied)
  else if 2 ^ 31 ≤ x.count + amount then (semFault s f i sub amount src, .overflow)
  else (semBump (putSem s f i { x with count := x.count + amount, src := src }) f 0 1, .applied)

/-- Every semaphore of an owner takes one value, from now on. -/
def fillBank (s : State) (f : FrontId) (v : Sem) : State :=
  clearFirstPoison { s with banks := tset SemBank.reset s.banks f.num { dflt := v, cells := [] } } f

/-- Poison every semaphore of an owner, counts kept; the die boundary proxy is the source (R444, R458). -/
def poisonBank (s : State) (f : FrontId) (proxy : Block) : State :=
  let b := getBank s f
  let src : Source := { unit := proxy.unit, node := (nodeId s).val, tag := 0 }
  let n := semCount f - poisonCount s f
  let hit (x : Sem) : Sem := if x.poison then x else { x with poison := true, src := src }
  let d := hit b.dflt
  let b' : SemBank := { dflt := d, cells := (b.cells.map (fun c => (c.1, hit c.2))).filter (fun c => c.2 ≠ d) }
  let s := semBump { s with banks := tset SemBank.reset s.banks f.num b' } f 6 n
  if n = 0 then s else noteFirstPoison s f 0 0

/-! ### Batons (R82–R86) -/

/-- Key of a baton in State.batons. -/
def batonKey (c : CoreId) (i : Nat) : Nat := c.val * 16 + i

/-- The tokens of a baton, head first. -/
def getBaton (s : State) (c : CoreId) (i : Nat) : List Token := tget [] s.batons (batonKey c i)

/-- Replace the tokens of a baton. -/
def putBaton (s : State) (c : CoreId) (i : Nat) (l : List Token) : State :=
  { s with batons := tset [] s.batons (batonKey c i) l }

/-- Has a baton room for `n` tokens (R82)? -/
def batonRoom (s : State) (c : CoreId) (i n : Nat) : Bool := (getBaton s c i).length + n ≤ 32

/-- Pass `n` tokens of one value to a baton. -/
def batonPut (s : State) (c : CoreId) (i n : Nat) (t : Token) : State :=
  bump (putBaton s c i (getBaton s c i ++ List.replicate n t)) (.sem c) 7 n

/-- Pass `n` tokens, or keep them all back until there is room for them (R84, R86, log entry 55); the tokens kept back. -/
def batonPass (s : State) (c : CoreId) (i n : Nat) (t : Token) : State × Nat :=
  if batonRoom s c i n then (batonPut s c i n t, 0) else (s, n)

/-- Empty the batons of a core (R444). -/
def emptyBatons (s : State) (c : CoreId) : State :=
  { s with batons := s.batons.filter (fun x => x.1 / 16 ≠ c.val) }

/-! ### Slots -/

/-- In-flight slots of a front end (R98, R100). -/
def slotCount : FrontId → Nat
  | .cp _ => 256
  | _ => 64

/-- The command in flight in a slot. -/
def getSlot (s : State) (f : FrontId) (n : Nat) : Option Slot := (getFront s f).slots.find? (fun x => x.id = n)

/-- Replace the command in flight of the same slot. -/
def putSlot (s : State) (f : FrontId) (x : Slot) : State :=
  let fr := getFront s f
  putFront s f { fr with slots := fr.slots.map (fun y => if y.id = x.id then x else y) }

/-- "Old done" of a lock at a proxy leaves for the publishing engine (R248). -/
def reportOldDone (s : State) (l : Lock) : State :=
  match l.holder with
  | .proxy cd => { s with oldMsgs := s.oldMsgs ++ [(cd, l.hub, l.id)] }
  | .engine _ => s

/-- A command no longer runs: it is old for no lock any more, and the proxy of a lock for which it was the last old one
reports "old done" (R248). -/
def oldEnded (s : State) (f : FrontId) (n : Nat) : State :=
  match f with
  | .cp c =>
    let rest (l : Lock) : List (Nat × Nat) := l.old.filter (· ≠ (c.val, n))
    let last := s.locks.filter (fun l => l.old.contains (c.val, n) && rest l = [])
    last.foldl reportOldDone { s with locks := s.locks.map (fun l =>
      if l.old.contains (c.val, n) then { l with old := rest l, done := l.done || rest l = [] } else l) }
  | _ => s

/-- Free a slot. -/
def freeSlot (s : State) (f : FrontId) (n : Nat) : State :=
  let s := oldEnded s f n
  let fr := getFront s f
  putFront s f { fr with slots := fr.slots.filter (fun y => y.id ≠ n) }

/-- The lowest free slot. -/
def nextSlot (s : State) (f : FrontId) : Option Nat :=
  (List.range (slotCount f)).find? (fun n => (getSlot s f n).isNone)

/-- A slot's work has ended with a status. -/
def endSlot (s : State) (f : FrontId) (n : Nat) (st : Status) : State :=
  match getSlot s f n with
  | some x => oldEnded (putSlot s f { x with phase := .ended st }) f n
  | none => s

/-- Does the command still stand at or before the head of its queue: it waits, or has not been started (R98)? -/
def Slot.queued (x : Slot) : Bool := x.phase = .waiting || x.phase = .ready

/-- The command at the head of a queue. -/
def queueHead (s : State) (f : FrontId) (q : Nat) : Option Slot :=
  (getFront s f).slots.find? (fun x => x.queue = q && x.queued)

/-- Has no command of the queue been started and not completed (R98: a memory unit, a DMA channel or a relay engine
runs one command at a time)? A command that ended before its engine started it does not occupy the engine. -/
def queueFree (s : State) (f : FrontId) (q : Nat) : Bool :=
  (getFront s f).slots.all (fun x => x.queue ≠ q || x.queued || x.began.isNone)

/-- Is a front end idle: it has accepted no command that is not complete? -/
def frontIdle (s : State) (f : FrontId) : Bool :=
  let fr := getFront s f
  fr.fetched = [] && fr.slots = [] && fr.strideWait.isNone

/-- The blocks of the engine that executes a queue's command (R91, R98): a command of a fenced engine ends ABORTED,
and an engine with ENABLE 0 starts none (R41). -/
def engineBlocks (f : FrontId) (q op : Nat) : List Block :=
  match f with
  | .cp c =>
    match q with
    | 0 => if op ≤ 0x05 then [.gme c, .array c] else [.gme c]
    | 1 => [.vu c]
    | 2 => []
    | 3 => [.cp c]
    | q => [.dma c (Fin.ofNat 8 (q - 4))]
  | f => [f.block]

/-- Is the engine of a queue's command, or the front end itself, fenced? -/
def engineFenced (s : State) (f : FrontId) (q op : Nat) : Bool :=
  isFenced s f.block || (engineBlocks f q op).any (isFenced s)

/-- Do all blocks of the engine accept work? A front end that runs the command itself has accepted it at its dispatch
(R41). -/
def engineEnabled (s : State) (f : FrontId) (q op : Nat) : Bool :=
  (engineBlocks f q op).all (fun b => b = f.block || rbit s b Reg.Hdr.CTRL 0)

/-! ### Waits -/

/-- What the evaluation of a wait finds. -/
inductive WaitEval where
  | unsatisfied
  | satisfied
  | poisoned
  deriving DecidableEq, Repr

/-- Does another waiter with ACQUIRE of a lower queue, on the same semaphore, find its threshold met (R531)? -/
def lowerAcquire (s : State) (f : FrontId) (q i : Nat) : Bool :=
  (List.range (min q 12)).any (fun k => match queueHead s f k with
    | some x => x.phase = .waiting && cmdAcquire x.words && cmdWaitSem x.words = i && 0 < cmdWait false x.words &&
        cmdWait false x.words ≤ (getSem s f i).count
    | none => false)

/-- Does a waiting take of a lower queue, on the same baton, find its tokens (R531)? -/
def lowerTake (s : State) (f : FrontId) (c : CoreId) (q i : Nat) : Bool :=
  (List.range (min q 12)).any (fun k => match queueHead s f k with
    | some x => x.phase = .waiting && cmdWaitSem x.words = i && 0 < cmdWait true x.words &&
        cmdWait true x.words ≤ (getBaton s c i).length
    | none => false)

/-- Evaluate the wait of a command of queue `q` (R74, R78, R80, R83, R531); a STRIDE_WAIT stands after every queue. -/
def evalWait (s : State) (f : FrontId) (q : Nat) (ws : List Word) : WaitEval :=
  let i := cmdWaitSem ws
  match f, batonMode s f with
  | .cp c, true =>
    let n := cmdWait true ws
    if n = 0 then .satisfied
    else if n ≤ (getBaton s c i).length && !lowerTake s f c q i then .satisfied
    else .unsatisfied
  | f, _ =>
    let n := cmdWait false ws
    if n = 0 then .satisfied
    else if semFilling s f then .unsatisfied
    else
      let x := getSem s f i
      if x.poison then .poisoned
      else if x.count < n then .unsatisfied
      else if cmdAcquire ws && lowerAcquire s f q i then .unsatisfied
      else .satisfied

/-- The unit that makes an operation of a command: its front end, this device, its tag (R460). -/
def sourceOf (s : State) (f : FrontId) (ws : List Word) : Source :=
  { unit := f.block.unit, node := (nodeId s).val, tag := cmdTag ws }

/-- A satisfied wait takes what it takes: the tokens, or the threshold with ACQUIRE; counters of the semaphore memory,
and the record of the wait (R74, R83, R459, R460). -/
def takeWait (s : State) (f : FrontId) (q : Nat) (ws : List Word) (from_ : Option WaitStart) : State :=
  let i := cmdWaitSem ws
  let info (kind value : Nat) (rel : Source) (w : WaitStart) (len : Nat) : TraceInfo :=
    { kind := kind, tag := cmdTag ws, object := i, queue := q % 12, opcode := cmdOp ws, value := value, start := w,
      length := len, rel := rel, entry := 0 }
  match f, batonMode s f with
  | .cp c, true =>
    let n := cmdWait true ws
    if n = 0 then s
    else
      let l := getBaton s c i
      let rel := match l[n - 1]? with
        | some t => t.src
        | none => Source.none
      let s := bump (putBaton s c i (l.drop n)) (.sem c) 8 n
      traceWait s f.block from_ (info TraceKind.batonWait 0 rel)
  | f, _ =>
    let n := cmdWait false ws
    if n = 0 then s
    else
      let x := getSem s f i
      let s := if from_.isSome then semBump s f 3 1 else s
      let s := if cmdAcquire ws then
          semBump (putSem s f i { x with count := x.count - n, src := sourceOf s f ws }) f 0 1
        else s
      traceWait s f.block from_ (info TraceKind.semWait x.count x.src)

/-- A wait ends on a poisoned semaphore (R78): POISON_CONSUMED at the front end, and the record of the release. -/
def poisonedWait (s : State) (f : FrontId) (q : Nat) (ws : List Word) (from_ : Option WaitStart) : State :=
  let i := cmdWaitSem ws
  let x := getSem s f i
  let s := raiseTag s f.block Cause.POISON_CONSUMED (cmdTag ws) (cmdOp ws)
  traceWait s f.block from_ (fun w len =>
    { kind := TraceKind.poisonRelease, tag := cmdTag ws, object := i, queue := q % 12, opcode := cmdOp ws,
      value := 0, start := w, length := len, rel := x.src, entry := 0 })

/-! ### Posts -/

/-- The tokens that a command's own post passes. -/
def postTokens (s : State) (f : FrontId) (ws : List Word) : Nat :=
  if batonMode s f then (cmdPost true ws).toNat else 0

/-- How a post went: made, leaving a status, or waiting for a fill or for room for its tokens. -/
inductive Posted where
  | made (st : Status)
  | waits (left : Nat)
  deriving DecidableEq, Repr

/-- Make a command's own post (R74, R76, R78, R83, R84), of which `left` tokens are still to pass. -/
def makePost (s : State) (f : FrontId) (ws : List Word) (st : Status) (left : Nat) : State × Posted :=
  let baton := batonMode s f
  let d := cmdPost baton ws
  let i := cmdPostSem ws
  if d = 0 ∨ postValid f baton ws = false then (s, .made st)
  else if isFenced s (semBlock f) && !isFenced s f.block then
    (raiseTag s f.block Cause.FENCED_ACCESS (cmdTag ws) (cmdOp ws), .made (worse st .aborted))
  else
    match f, baton with
    | .cp c, true =>
      match batonPass s c i left { value := cmdTag ws, src := sourceOf s f ws } with
      | (s, 0) => (s, .made st)
      | (s, n) => (s, .waits n)
    | f, _ =>
      if semFilling s f then (s, .waits 0)
      else
        let s := semBump s f 1 1
        match semApply s f i (d < 0) d.natAbs (sourceOf s f ws) with
        | (s, .applied) => (s, .made st)
        | (s, .overflow) => (s, .made (worse st .poisoned))
        | (s, .wasPoisoned) =>
          (raiseTag s f.block Cause.POISON_CONSUMED (cmdTag ws) (cmdOp ws), .made (worse st .poisoned))

/-! ### Completion -/

/-- The code of a status (R99). -/
def Status.code : Status → Nat
  | .ok => 0
  | .delayed => 1
  | .refused => 2
  | .aborted => 3
  | .bankOff => 4
  | .poisoned => 5
  | .defect => 6

/-- Does the status set the step-skip flag (R89)? -/
def Status.skips : Status → Bool
  | .poisoned | .aborted | .bankOff | .defect => true
  | _ => false

/-- The counter of a status on a front end's page. -/
def statusCounter : Status → Option Nat
  | .defect => some 2
  | .aborted => some 3
  | .poisoned => some 4
  | .bankOff => some 5
  | .refused => some 6
  | _ => none

/-- Write a command's completion record (R99). -/
def writeRecord (s : State) (f : FrontId) (ws : List Word) (st : Status) : State :=
  let b := f.block
  let size := 2 ^ rfield s b Reg.Cp.CQ_SIZE 4 0
  let tail := rget s b Reg.Cp.CQ_TAIL
  if size ≤ (tail - rget s b Reg.Cp.CQ_HEAD).toNat then
    bump (raiseTag s b 10 (cmdTag ws) (cmdOp ws)) b 13 1
  else
    let w : List Word :=
      [wordOf ((cmdTag ws).toNat + st.code * 65536 + cmdOp ws * 2 ^ 24), wordOf s.stride.count,
       wordOf (nsSinceTick s), 0]
    let a := rget64 s b Reg.Cp.CQ_BASE_LO Reg.Cp.CQ_BASE_HI + 16 * (tail.toNat % size)
    match postWrite s (reqCmd b (cmdTag ws) (cmdOp ws) .critical) a (bytesOf w) with
    | (s, .ok) =>
      let s := rput s b Reg.Cp.CQ_TAIL (tail + 1)
      if rbit s b Reg.Cp.CQ_CTRL 0 then sendMsi s (rfield s b Reg.Cp.CQ_CTRL 26 16) else s
    | (s', .aborted) => bump (addressOnce s s' b a (Occur.of (cmdTag ws) (cmdOp ws))) b 13 1
    | (s, _) => bump s b 13 1

/-- What the end of a command with a status sets and counts (R89, R99), its post made. -/
def finishCommand (s : State) (f : FrontId) (ws : List Word) (q : Nat) (latches : List Nat) (st : Status) : State :=
  let b := f.block
  let s := bump s b 1 1
  let s := match statusCounter st with
    | some k => bump s b k 1
    | none => s
  let s := if st.skips then stepSkip s 0 else s
  let s := if st = .ok ∨ st = .refused then s else rput s b Reg.Cp.DEFECT_TAG (wordOf (cmdTag ws).toNat)
  let s := if cmdNotify ws then writeRecord s f ws st else s
  endLatches s latches (cmdTag ws) q (cmdOp ws)

/-- The record of dispatch that waited for a slot (R458): the releaser is the engine that freed it. -/
def slotFreed (s : State) (f : FrontId) (x : Slot) : State :=
  let fr := getFront s f
  match fr.slotWait with
  | none => s
  | some w =>
    let s := putFront s f { fr with slotWait := none }
    let eng := (engineBlocks f x.queue (cmdOp x.words)).headD f.block
    traceWait s f.block (some w) (fun w len =>
      { kind := TraceKind.slotWait, tag := 0, object := 0, queue := x.queue, opcode := 0, value := 0, start := w,
        length := len, rel := { unit := eng.unit, node := (nodeId s).val, tag := cmdTag x.words }, entry := 0 })

/-- Complete the command of a slot, its post made (R99). -/
def completeSlot (s : State) (f : FrontId) (x : Slot) (st : Status) : State :=
  slotFreed (freeSlot (finishCommand s f x.words x.queue x.latches st) f x.id) f x

/-- Complete a command at once with ABORTED, as a fence does (R443 step 5): a pass that finds no room is dropped
(R86). -/
def abortSlot (s : State) (f : FrontId) (x : Slot) : State :=
  match makePost s f x.words .aborted (postTokens s f x.words) with
  | (s, .made st) => completeSlot s f x st
  | (s, .waits _) => completeSlot s f x .aborted

end Sys2Proof.Machine
end

