-- ==== Sys2Proof/Machine/Commands.lean ====
section
/-!
DEFINITION. The command processor and the engine front ends: ring fetch, dispatch, waits, STRIDE_WAIT, SEM_OP, the
operations that reach a semaphore or a baton, and completion (R73–R100).
-/
namespace Sys2Proof.Machine

/-! ### Fetch (R94–R97) -/

/-- RING_SIZE in commands (R95). -/
def ringSize (s : State) (f : FrontId) : Nat := 2 ^ rfield s f.block Reg.Cp.RING_SIZE 4 0

/-- Local address of command `i` of the ring (R95). -/
def ringAddr (s : State) (f : FrontId) (i : Nat) : Nat :=
  rget64 s f.block Reg.Cp.RING_BASE_LO Reg.Cp.RING_BASE_HI + 64 * (i % ringSize s f)

/-- May a command of this front end's ring lie at the address: the core's own AM, the larder or HBM (R95, R100)? -/
def ringPlaceOk (s : State) (f : FrontId) (a : Nat) : Bool :=
  let ok (p : Place) : Bool :=
    match p, f with
    | .core c .am _, .cp c' => c = c'
    | .larder _ _, _ | .hbm _ _ _, _ => true
    | _, _ => false
  ok (placeOf s a) && ok (placeOf s (a + 63))

/-- Is LOOP_START a legal start of a loop: 1 ≤ TAIL − LOOP_START ≤ RING_SIZE (R96)? -/
def loopStartOk (s : State) (f : FrontId) : Bool :=
  let d := (rget s f.block Reg.Cp.RING_TAIL - rget s f.block Reg.Cp.LOOP_START).toNat
  1 ≤ d && d ≤ ringSize s f

/-- HEAD has reached TAIL with LOOP set: it goes back to LOOP_START, or LOOP has no effect with RING_OVERRUN (R96). -/
def loopAtTail (s : State) (f : FrontId) : State :=
  let b := f.block
  if rget s b Reg.Cp.RING_HEAD = rget s b Reg.Cp.RING_TAIL && rbit s b Reg.Cp.RING_CTRL 0 then
    if loopStartOk s f then rput s b Reg.Cp.RING_HEAD (rget s b Reg.Cp.LOOP_START) else raise s b 9
  else s

/-- HEAD moves past a fetched command. -/
def advanceHead (s : State) (f : FrontId) : State :=
  loopAtTail (rput s f.block Reg.Cp.RING_HEAD (rget s f.block Reg.Cp.RING_HEAD + 1)) f

/-- Put a fetched command, or the failure of its fetch, behind the others. -/
def pushFetched (s : State) (f : FrontId) (x : Fetched) : State :=
  let fr := getFront s f
  advanceHead (putFront s f { fr with fetched := fr.fetched ++ [x], retried := false }) f

/-- Is the die of a block paused for a rail or clock change, so that its front ends issue nothing (R436)? -/
def paused (s : State) (b : Block) : Bool := s.relocks.any (fun x => b.die.map (·.val) = some x.1)

/-- May the front end fetch: enabled, not fenced, its die not paused, fewer than 32 commands ahead, and the ring holds one
(R41, R97, R436)? -/
def mayFetch (s : State) (f : FrontId) : Bool :=
  let b := f.block
  rbit s b Reg.Hdr.CTRL 0 && !isFenced s b && !paused s b && (getFront s f).fetched.length < 32 &&
  rget s b Reg.Cp.RING_HEAD ≠ rget s b Reg.Cp.RING_TAIL

/-- A fetch answered ABORTED in state `t`; `s` is the state before it. One that ran out of time is issued once more, and
fails the second time (R90). -/
def fetchAborted (s t : State) (f : FrontId) (a : Nat) : State :=
  let fr := getFront t f
  if t.now ≠ s.now then
    if fr.retried then pushFetched t f { words := [], fail := some .timeout }
    else putFront t f { fr with retried := true }
  else pushFetched (addressOnce s t f.block a Occur.none) f { words := [], fail := some .address }

/-- Fetch the command at HEAD; a fetch that must wait is made when its row comes again. -/
def fetchOne (s : State) (f : FrontId) : State :=
  let b := f.block
  let a := ringAddr s f (rget s b Reg.Cp.RING_HEAD).toNat
  if ringPlaceOk s f a = false then pushFetched (raise s b Cause.ADDRESS) f { words := [], fail := some .address }
  else
    match readLocal s (reqOf b .critical) a 64 with
    | (s, .ok, d) => pushFetched s f { words := wordsOf 16 d, fail := none }
    | (t, .delayed, _) => settleWaits s t
    | (t, .aborted, _) => fetchAborted s t f a
    | (s, .bankOff, _) => pushFetched s f { words := [], fail := some .bankOff }
    | (s, _, _) => pushFetched s f { words := [], fail := some .memory }

/-- RING_FETCH: one command is fetched ahead of dispatch; a looped ring that stands at its end goes on at
LOOP_START. -/
def execRingFetch (f : FrontId) (s : State) : Host.Outcome State Fault Refusal :=
  let s := if rget s f.block Reg.Cp.RING_HEAD = rget s f.block Reg.Cp.RING_TAIL &&
      rbit s f.block Reg.Cp.RING_CTRL 0 && loopStartOk s f && rbit s f.block Reg.Hdr.CTRL 0 then loopAtTail s f else s
  .next (if mayFetch s f then fetchOne s f else s)

/-! ### Operations on their way to a semaphore or a baton (R76–R78, R82, R86, R92) -/

/-- Answer the issuer of a semaphore or baton operation: its command ends, or an ACK leaves (R92, R388). `used` says that
the operation met a poisoned semaphore, which raises POISON_CONSUMED at the issuer (R78). -/
def replySem (s : State) (m : SemMsg) (st : Status) (used : Bool) : State :=
  match m.reply with
  | .slot f n =>
    match getSlot s f n with
    | some x =>
      let s := if used then raiseTag s f.block Cause.POISON_CONSUMED (cmdTag x.words) (cmdOp x.words) else s
      endSlot s f n st
    | none => s
  | .remote _ node _ xid =>
    sendAck s (semBlock m.target) node
      { cls := .critical, tag := m.src.tag, dst := node, src := nodeId s, unit := (semBlock m.target).unit, xid := xid,
        addr := 0, bytes := 4 } st.code
  | .nobody => s

/-- Raise a cause at the front end of this device that issued an operation. -/
def raiseAtIssuer (s : State) (m : SemMsg) (cause : Nat) : State :=
  match m.reply with
  | .slot f n => match getSlot s f n with
    | some x => raiseTag s f.block cause (cmdTag x.words) (cmdOp x.words)
    | none => s
  | _ => s

/-- Apply one operation at its target (R76, R78, R82, R86). -/
def applySemMsg (s : State) (m : SemMsg) : State :=
  let b := semBlock m.target
  if isFenced s b then replySem (raiseAtIssuer (bump s (proxyOf s b) 1 1) m Cause.FENCED_ACCESS) m .aborted false
  else if m.baton then
    match m.target with
    | .cp c =>
      match batonPass s c m.index m.amount { value := m.src.tag, src := m.src } with
      | (s, 0) => replySem s m .ok false
      | (s, n) => { s with semMsgs := s.semMsgs ++ [{ m with amount := n }] }
    | _ => replySem s m .aborted false
  else
    match semApply (semBump s m.target 2 1) m.target m.index m.sub m.amount m.src with
    | (s, .applied) => replySem s m .ok false
    | (s, .overflow) => replySem s m .poisoned false
    | (s, .wasPoisoned) => replySem s m .poisoned true

/-- May an operation be applied now: no fill runs, and a pass finds room (R80, R84)? A fence answers it at once. -/
def semMsgReady (s : State) (m : SemMsg) : Bool :=
  isFenced s (semBlock m.target) ||
  (match m.baton, m.target with
   | true, .cp c => batonRoom s c m.index 1
   | _, t => !semFilling s t)

/-- The place of an operation in the order of R77 among the remote ones that are ready in one cycle: ADD before SUB, then
by arrival port. -/
def semMsgRank (m : SemMsg) : Nat := (if m.sub then 8 else 0) + m.port

/-- Is operation `a` applied before operation `b`, of which it stands behind in arrival order? The one ready in an earlier
ns is; in the same ns R77 ranks them, and those of one source keep their order (R17, log entry 154). -/
def semMsgBefore (a b : SemMsg) : Bool :=
  a.ready < b.ready || (a.ready = b.ready && (a.src.unit ≠ b.src.unit || a.src.node ≠ b.src.node) &&
    semMsgRank a < semMsgRank b)

/-- The first of the ready operations on a semaphore in the order of R77; equal ones stay in arrival order. -/
def firstSemMsg (s : State) (f : FrontId) (i : Nat) : Option Nat :=
  let cand := s.semMsgs.zipIdx.filter (fun x => x.1.target = f && x.1.index = i && semMsgReady s x.1)
  match cand with
  | [] => none
  | x :: t => some (t.foldl (fun best y => if semMsgBefore y.1 best.1 then y else best) x).2

/-- Take operation number `k` off its way and apply it. -/
def deliverSemMsg (s : State) (k : Nat) : State :=
  match s.semMsgs[k]? with
  | some m => applySemMsg { s with semMsgs := s.semMsgs.eraseIdx k } m
  | none => s

/-- Apply the remote ADDs on a semaphore that are ready in this ns, up to `n` of them. -/
def applyAdds (s : State) (f : FrontId) (i : Nat) : Nat → State
  | 0 => s
  | n + 1 =>
    match s.semMsgs.findIdx? (fun m => m.target = f && m.index = i && !m.baton && !m.sub && m.ready = s.now &&
        semMsgReady s m) with
    | some k => applyAdds (deliverSemMsg s k) f i n
    | none => s

/-- Before a local SUB of a command's post the remote ADDs that are ready with it are applied (R77). A local ADD, and
every local operation before a remote one of its kind, stands first: its row applies it at once. -/
def readyAdds (s : State) (f : FrontId) (ws : List Word) : State :=
  if !batonMode s f && cmdPost false ws < 0 then applyAdds s f (cmdPostSem ws) s.semMsgs.length else s

/-! ### The end of a command (R84, R99) -/

/-- Complete a command whose work has ended, once its post can be made. -/
def tryComplete (s : State) (f : FrontId) (x : Slot) (st : Status) (left : Nat) : State :=
  match makePost (readyAdds s f x.words) f x.words st left with
  | (s, .made st) => completeSlot s f x st
  | (s, .waits n) => if batonMode s f then putSlot s f { x with phase := .passing st n } else s

/-- A STRIDE_WAIT has ended with a status: it completes once its post is made (R84, R99). -/
def endStrideWait (s : State) (f : FrontId) (w : StrideWaiter) (st : Status) (left : Nat) : State :=
  let put (s : State) (x : Option StrideWaiter) : State := putFront s f { getFront s f with strideWait := x }
  match makePost (readyAdds s f w.words) f w.words st left with
  | (s, .made st) => finishCommand (put s none) f w.words 0 w.latches st
  | (s, .waits n) => put s (some { w with ended := some (st, n) })

/-! ### Dispatch (R94, R97, R98) -/

/-- May the front end dispatch its next command? -/
def mayDispatch (s : State) (f : FrontId) : Bool :=
  let b := f.block
  rbit s b Reg.Hdr.CTRL 0 && !isFenced s b && (getFront s f).strideWait.isNone && !traceStalls s b && !paused s b

/-- The wait of the command at the head of its queue is evaluated: if it is unsatisfied, it is counted from now
(R459). -/
def noteWait (s : State) (f : FrontId) (q : Nat) : State :=
  match queueHead s f q with
  | some x =>
    if x.phase = .waiting && x.waitFrom.isNone && evalWait s f q x.words = .unsatisfied then
      putSlot s f { x with waitFrom := some (waitNow s) }
    else s
  | none => s

/-- Put a command in a slot (R97, R98). -/
def placeCommand (s : State) (f : FrontId) (ws : List Word) (n : Nat) (ph : Phase) : State :=
  let q := queueOf f ws
  let s := bump s f.block 0 1
  let (s, l) := startLatch s f.block (cmdTag ws) q (cmdOp ws) []
  let fr := getFront s f
  let x : Slot := { id := n, words := ws, queue := q, phase := ph, step := s.ledger.stepId,
                    startStride := s.stride.count, latches := l, waitFrom := none, held := none, began := none, memo := [] }
  noteWait (putFront s f { fr with slots := fr.slots ++ [x] }) f q

/-- Take the first fetched command from the front end. -/
def popFetched (s : State) (f : FrontId) : State :=
  let fr := getFront s f
  putFront s f { fr with fetched := fr.fetched.drop 1 }

/-- Dispatch stops for lack of a slot; the wait for one begins (R98, R458). -/
def noteSlotWait (s : State) (f : FrontId) : State :=
  let fr := getFront s f
  if fr.slotWait.isNone then putFront s f { fr with slotWait := some (waitNow s) } else s

/-- Dispatch one command that was fetched whole. A bad one completes DEFECT here, once its post can be made (R94). -/
def dispatchWords (s : State) (f : FrontId) (ws : List Word) : State :=
  let bad := badCommand f (batonMode s f) ws
  let note (s : State) : State := if bad then raiseTag s f.block 8 (cmdTag ws) (cmdOp ws) else s
  if cmdOrdered ws && (getFront s f).slots ≠ [] then s
  else if cmdOp ws = 0x21 then
    let s := bump (popFetched s f) f.block 0 1
    let (s, l) := startLatch (note s) f.block (cmdTag ws) 0 (cmdOp ws) []
    let fr := getFront s f
    let w : StrideWaiter := { words := ws, waitDone := false, ended := none, latches := l, waitFrom := none }
    let s := putFront s f { fr with strideWait := some w }
    if bad then endStrideWait s f w .defect (postTokens s f ws) else s
  else
    match nextSlot s f with
    | none => noteSlotWait s f
    | some n =>
      let s := note (popFetched s f)
      if bad then
        let s := placeCommand s f ws n (.ended .defect)
        match getSlot s f n with
        | some x => tryComplete s f x .defect (postTokens s f ws)
        | none => s
      else placeCommand s f ws n .waiting

/-- DISPATCH: the next command in ring order is placed in its engine's queue and a slot, becomes the STRIDE_WAIT at
which dispatch stands, or is found bad; a command whose fetch failed completes DEFECT without a post. -/
def execDispatch (f : FrontId) (s : State) : Host.Outcome State Fault Refusal :=
  .next (
    if mayDispatch s f then
      match (getFront s f).fetched with
      | [] => s
      | x :: _ =>
        match x.fail with
        | some _ => finishCommand (bump (popFetched s f) f.block 0 1) f [] 0 [] .defect
        | none => dispatchWords s f x.words
    else s)

/-! ### Waits (R78, R83, R531) -/

/-- The halted DMA channel that a queue feeds, if it is halted (R334). -/
def haltedChannel (s : State) (f : FrontId) (q : Nat) : Option Block :=
  match f with
  | .cp c =>
    let b : Block := .dma c (Fin.ofNat 8 (q - 4))
    if 4 ≤ q && rfield s b Reg.Dma.DMA_STATE 1 0 = 2 then some b else none
  | _ => none

/-- The wait at the head of a queue is evaluated: over, poisoned, or not yet; the ADDs that are ready in this ns come before
the subtraction of an ACQUIRE (R77). A command of a fenced engine ends ABORTED
at the head (R443), and so does one of a halted DMA channel (R334). -/
def evaluateHead (s : State) (f : FrontId) (q : Nat) : State :=
  match queueHead s f q with
  | some x =>
    if x.phase ≠ .waiting then s
    else if engineFenced s f q (cmdOp x.words) then
      putSlot (bump s (proxyOf s f.block) 5 1) f { x with phase := .ended .aborted }
    else if (haltedChannel s f q).isSome then
      putSlot (bump s ((haltedChannel s f q).getD f.block) 5 1) f { x with phase := .ended .aborted }
    else
      let s := if cmdAcquire x.words && !batonMode s f then applyAdds s f (cmdWaitSem x.words) s.semMsgs.length else s
      match evalWait s f q x.words with
      | .unsatisfied => noteWait s f q
      | .satisfied => putSlot (takeWait s f q x.words x.waitFrom) f { x with phase := .ready }
      | .poisoned => putSlot (poisonedWait s f q x.words x.waitFrom) f { x with phase := .ended .poisoned }
  | none => s

/-- Does the command wait on a baton: baton mode and tokens to take? -/
def takesBaton (s : State) (f : FrontId) (ws : List Word) : Bool := batonMode s f && cmdWait true ws ≠ 0

/-- WAIT_SATISFIED: the semaphore wait at the head of a queue, or its absence, lets the engine start the command. -/
def execWaitSatisfied (f : FrontId) (queue : Fin 12) (s : State) : Host.Outcome State Fault Refusal :=
  .next (match queueHead s f queue.val with
    | some x => if takesBaton s f x.words then s else evaluateHead s f queue.val
    | none => s)

/-- BATON_TAKE: a command waiting in baton mode finds its tokens and removes them together. -/
def execBatonTake (c : CoreId) (queue : Fin 12) (s : State) : Host.Outcome State Fault Refusal :=
  .next (match queueHead s (.cp c) queue.val with
    | some x => if takesBaton s (.cp c) x.words then evaluateHead s (.cp c) queue.val else s
    | none => s)

/-! ### STRIDE_WAIT (R93) -/

/-- The stride number that a STRIDE_WAIT awaits. -/
def strideTarget (s : State) (f : FrontId) (ws : List Word) : Nat :=
  if cb ws 4 0 then
    rget64 s f.block Reg.Cp.STRIDE_BASE_LO Reg.Cp.STRIDE_BASE_HI + cf64 ws 2
  else cf64 ws 2

/-- Evaluate the stride condition of a STRIDE_WAIT whose own wait is over. -/
def strideCondition (s : State) (f : FrontId) (w : StrideWaiter) : State :=
  if s.stride.state ≠ 0 ∧ strideTarget s f w.words ≤ s.stride.count then
    let target := strideTarget s f w.words
    let s := rput64 s f.block Reg.Cp.STRIDE_BASE_LO Reg.Cp.STRIDE_BASE_HI s.stride.count
    let s := traceWait s f.block w.waitFrom (fun t len =>
      { kind := TraceKind.strideWait, tag := cmdTag w.words, object := 0, queue := 0, opcode := 0x21, value := target,
        start := t, length := len, rel := { unit := (activeStride s).unit, node := (nodeId s).val, tag := 0 },
        entry := 0 })
    endStrideWait s f w .ok (postTokens s f w.words)
  else
    let w := { w with waitDone := true, waitFrom := if w.waitDone && w.waitFrom.isSome then w.waitFrom
                                                      else some (waitNow s) }
    putFront s f { getFront s f with strideWait := some w }

/-- Evaluate the STRIDE_WAIT at which dispatch stands: its own wait first, then its stride condition. -/
def evaluateStrideWait (s : State) (f : FrontId) : State :=
  match (getFront s f).strideWait with
  | none => s
  | some w =>
    match w.ended with
    | some (st, n) => endStrideWait s f w st n
    | none =>
      if w.waitDone then strideCondition s f w
      else
        match evalWait s f 12 w.words with
        | .unsatisfied =>
          if w.waitFrom.isNone then
            putFront s f { getFront s f with strideWait := some { w with waitFrom := some (waitNow s) } }
          else s
        | .poisoned => endStrideWait (poisonedWait s f 12 w.words w.waitFrom) f w .poisoned (postTokens s f w.words)
        | .satisfied => strideCondition (takeWait s f 12 w.words w.waitFrom) f { w with waitFrom := none }

/-- STRIDE_WAIT: dispatch stands at the command until its wait is over and the stride count has reached its target. -/
def execStrideWait (f : FrontId) (s : State) : Host.Outcome State Fault Refusal := .next (evaluateStrideWait s f)

/-! ### SEM_OP and the operations it sends (R77, R92) -/

/-- The semaphore owner and index that a SEM_OP target names, if it names one (R26, R30, R92). -/
def semTarget (s : State) (a : Nat) (baton : Bool) : Option (FrontId × Nat) :=
  if a % 4 ≠ 0 then none
  else
    match placeOf s a with
    | .sem (.cp c) off => if baton && 16 ≤ off / 4 then none else some (.cp c, off / 4)
    | .sem f off => if baton then none else some (f, off / 4)
    | _ => none

/-- Send the SEM packet of a SEM_OP to another device (R383, R388). One that must wait for a paused path waits at its
engine; one that a stopped path loses gets no answer (R436, R441). -/
def sendSem (s : State) (f : FrontId) (x : Slot) (dev a : Nat) : State :=
  let r := reqCmd f.block (cmdTag x.words) 0x20 .critical
  let ga := dev * 2 ^ 48 + a
  let h := requestHead s r ga 4
  match setOut s r ga 4 0x04 0 (wordAt x.words 4) [wordOf (if cb x.words 5 0 then 1 else 0)] [] with
  | (_, .inl .delayed) => putSlot s f { x with phase := .held }
  | (s, .inl st) => endSlot s f x.id st
  | (s, .inr p) =>
    let s := putSlot s f { x with phase := .running }
    { s with remotes := s.remotes ++ [{ xid := h.xid, node := h.dst, port := p, use := .semOp f x.id }] }

/-- A SEM_OP refused for its target: cause ADDRESS, ABORTED (R92). -/
def semRefused (s : State) (f : FrontId) (x : Slot) : State :=
  endSlot (raiseTag s f.block Cause.ADDRESS (cmdTag x.words) 0x20) f x.id .aborted

/-- A SEM_OP's operation goes to a semaphore of this device, by the route of R13: it waits at its engine for a paused part
of it, and at a stopped path it is lost (R436, R441). -/
def sendSemHere (s : State) (f : FrontId) (x : Slot) (t : FrontId) (i : Nat) (baton : Bool) : State :=
  let a := dieOf s f.block
  let b := dieOf s (semBlock t)
  if routeWaits s a b && !routeStopped s a b then putSlot s f { x with phase := .held }
  else
    let s' := putSlot s f { x with phase := .running }
    if routeStopped s a b then s'
    else
      let m : SemMsg :=
        { ready := s.now, target := t, index := i, baton := baton, sub := cb x.words 4 31, amount := cf x.words 4 30 0,
          port := arrivalPort a b, src := sourceOf s f x.words, reply := .slot f x.id }
      let s' := passFlits s' a b 1
      { s' with semMsgs := s'.semMsgs ++ [m] }

/-- Start a SEM_OP: the operation travels on VC 0 to a semaphore of this device, or over the fabric. -/
def startSemOp (s : State) (f : FrontId) (x : Slot) : State :=
  let baton := cb x.words 5 0
  match targetOf s (cf64 x.words 2) with
  | .bad => semRefused s f x
  | .remote dev a => if (semTarget s a baton).isNone then semRefused s f x else sendSem s f x dev a
  | .here a =>
    match semTarget s a baton with
    | none => semRefused s f x
    | some (t, i) => sendSemHere s f x t i baton

/-- The command that an engine may start: at the head of its queue, its wait over, its engine enabled and, for an engine
that runs one command at a time, free (R41, R98); or one that it has started and that waits there. A fenced engine ends it
ABORTED (R443). -/
def startable (s : State) (f : FrontId) (n : Nat) (one : Bool) : Option Slot :=
  match getSlot s f n with
  | some x =>
    if (x.phase = .held || x.phase = .ready && queueHead s f x.queue = some x && (!one || queueFree s f x.queue)) &&
      !paused s f.block
    then some x else none
  | none => none

/-- Start a command with `body`, where it may start. -/
def startCommand (s : State) (f : FrontId) (n : Nat) (ops : List Nat) (one : Bool) (body : State → Slot → State) :
    State :=
  match startable s f n one with
  | none => s
  | some x =>
    if ops.contains (cmdOp x.words) = false then s
    else if engineFenced s f x.queue (cmdOp x.words) then endSlot (bump s (proxyOf s f.block) 5 1) f n .aborted
    else if x.phase ≠ .held && engineEnabled s f x.queue (cmdOp x.words) = false then s
    else
      -- a command that has started and waits at its engine keeps the stride and the seeds of its start
      let x := if x.phase = .held then x
        else { x with startStride := s.stride.count, began := some (tget Seeds.reset s.seeds f.num) }
      body (putSlot s f x) x

/-- SEM_OP: the operation is sent to its target. -/
def execSemOp (f : FrontId) (slot : Nat) (s : State) : Host.Outcome State Fault Refusal :=
  .next (startCommand s f slot [0x20] false (fun s x => startSemOp s f x))

/-- SEM_OPERATION: the first operation that has arrived at a semaphore is applied. -/
def execSemOperation (f : FrontId) (index : Nat) (s : State) : Host.Outcome State Fault Refusal :=
  .next (match firstSemMsg s f index with
    | some k => deliverSemMsg s k
    | none => s)

/-! ### Completion (R84, R99) -/

/-- COMPLETION: a command completes with one status, its post and its record in the same cycle; a pass that finds its
baton full holds it back. -/
def execCompletion (f : FrontId) (slot : Nat) (s : State) : Host.Outcome State Fault Refusal :=
  .next (match getSlot s f slot with
    | some x => match x.phase with
      | .ended st => tryComplete s f x st (postTokens s f x.words)
      | _ => s
    | none => s)

/-- BATON_STALL: a pass that waited for room in a baton, of a command's own post or of a SEM_OP, is made. -/
def execBatonStall (c : CoreId) (slot : Nat) (s : State) : Host.Outcome State Fault Refusal :=
  .next (match getSlot s (.cp c) slot with
    | some x => match x.phase with
      | .passing st n => tryComplete s (.cp c) x st n
      | .running =>
        match s.semMsgs.findIdx? (fun m => m.baton && m.reply = .slot (.cp c) slot && semMsgReady s m) with
        | some k => deliverSemMsg s k
        | none => s
      | _ => s
    | none => s)

/-! ### Registers of the page (R85, R95) -/

/-- A write of RING_TAIL: ignored with RING_OVERRUN if the ring would hold more than RING_SIZE commands (R95). -/
def writeRingTail (s : State) (f : FrontId) (v : Word) : State :=
  if ringSize s f < (v - rget s f.block Reg.Cp.RING_HEAD).toNat then raise s f.block 9
  else rput s f.block Reg.Cp.RING_TAIL v

/-- A write of RING_CTRL.SYNC_MODE: taken only while the CP is idle (R85); an engine front end ignores it (R100). -/
def writeSyncMode (s : State) (f : FrontId) (v : Bool) : State :=
  match f with
  | .cp c =>
    if rbit s (.cp c) Reg.Cp.RING_CTRL 1 = v then s
    else if frontIdle s (.cp c) then rputBit s (.cp c) Reg.Cp.RING_CTRL 1 v
    else raise s (.cp c) 11
  | _ => s

/-- A write of RING_CTRL: SYNC_MODE under R85, LOOP as written. -/
def writeRingCtrl (s : State) (f : FrontId) (v : Word) : State :=
  rputBit (writeSyncMode s f (bit v 1)) f.block Reg.Cp.RING_CTRL 0 (bit v 0)

/-- A LOG2 of a ring or of a completion queue: 6–16, other values read back as the nearest bound. -/
def clampLog2 (v : Word) : Word := wordOf (min 16 (max 6 (bits v 4 0)))

/-- RING_TAIL. -/
def execRingTail (f : FrontId) (v : Word) (s : State) : Host.Outcome State Fault Refusal := .next (writeRingTail s f v)

/-- SYNC_MODE. -/
def execSyncMode (f : FrontId) (batons : Bool) (s : State) : Host.Outcome State Fault Refusal :=
  .next (writeSyncMode s f batons)

end Sys2Proof.Machine
end

