-- ==== Sys2Proof/Machine/Run.lean ====
section
/-!
DEFINITION. Running a command of an engine: a computation over the state that may stop with a status, with what the
command has gathered for its completion status (R89).
-/
namespace Sys2Proof.Machine

/-- The state while a command runs: a rule has made it DEFECT, one of its requests has been refused (R89), it has
written an element of the parameter state (R268), a value that is not finite was among those (R278); the copies that it
has made at its start, by their keys (R165, R271); the locked entry that it waits for, with the publishing engine (R248), and that it waits for a parking slot (R286). -/
structure RunState where
  st      : State
  defect  : Bool
  refused : Bool
  wrote   : Bool
  nf      : Bool
  memo    : List (Nat × List Word)
  lock    : Option (Nat × HubId)
  full    : Bool
  deriving DecidableEq, Repr

/-- A computation of a command: it may stop with a status, and keeps what it has done by then. -/
abbrev Run (α : Type) : Type := ExceptT Status (StateM RunState) α

/-- Change the state. -/
def act (f : State → State) : Run Unit := modify (fun r => { r with st := f r.st })

/-- Look at the state. -/
def look {α : Type} (f : State → α) : Run α := do return f (← get).st

/-- The command will complete DEFECT unless something that ranks above it happens. -/
def markDefect : Run Unit := modify (fun r => { r with defect := true })

/-- Stop with a status. -/
def stop {α : Type} (st : Status) : Run α := throw st

/-- What a command copies once, at its start: words that `x` makes the first time. A command that waits and goes on later
uses the copy of its first try (R152, R165, R271). -/
def startCopy (key : Nat) (x : Run (List Word)) : Run (List Word) := do
  match (← get).memo.find? (fun m => m.1 = key) with
  | some m => return m.2
  | none =>
    let ws ← x
    modify (fun r => { r with memo := r.memo ++ [(key, ws)] })
    return ws

/-- An access that must be answered OK: any other answer stops the command with it, but for REFUSED, which is noted. One
that must wait makes the command wait. -/
def need (f : State → State × Status) : Run Unit := do
  let (s, st) := f (← get).st
  modify (fun r => { r with st := s })
  match st with
  | .ok => pure ()
  | .refused => modify (fun r => { r with refused := true })
  | st => throw st

/-- A read that must be answered with data; a refused one answers none. -/
def needMaybe (f : State → State × Status × List Byte) : Run (Option (List Byte)) := do
  let (s, st, d) := f (← get).st
  modify (fun r => { r with st := s })
  match st with
  | .ok => return some d
  | .refused =>
    modify (fun r => { r with refused := true })
    return none
  | st => throw st

/-- A read that must be answered with data, of a command whose requests are never refused. -/
def needData (f : State → State × Status × List Byte) : Run (List Byte) := do
  match ← needMaybe f with
  | some d => return d
  | none => throw .refused

/-- Raise a cause of a block for a command and stop it DEFECT. -/
def defectAt {α : Type} (b : Block) (cause : Nat) (tag : Tag) (op : Nat) : Run α := do
  act (fun s => raiseTag s b cause tag op)
  throw .defect

/-- The status of a command that has run (R89); `.delayed` says that it waits, and what it did is taken back. -/
def runStatus (e : Except Status Unit) (r : RunState) : Status :=
  let x := if r.defect then .defect else if r.refused then .refused else .ok
  match e with
  | .ok _ => x
  | .error .delayed => .delayed
  | .error st => worse st x

/-- Run a computation of a command from a state, with the copies of its start. -/
def runVal {α : Type} (x : Run α) (memo : List (Nat × List Word)) (s : State) : Except Status α × RunState :=
  x.run.run
    { st := s, defect := false, refused := false, wrote := false, nf := false, memo := memo, lock := none,
      full := false }

/-- Run a command from a state, with the copies of its start: what it leaves, and its status. -/
def runFrom (x : Run Unit) (memo : List (Nat × List Word)) (s : State) : RunState × Status :=
  let (e, r) := runVal x memo s
  (r, runStatus e r)

/-- A command has started and waits at its engine, for a request, a lock, a decision or a slot: what it did is taken back
but for the notices of its requests, and its row runs it again with the copies of its start (log entry 155). -/
def waitSlot (s : State) (f : FrontId) (x : Slot) (r : RunState) : State :=
  putSlot (settleWaits s r.st) f { x with phase := .held, memo := r.memo }

/-- Run the command of a slot to its end, or until it must wait. -/
def runSlot (s : State) (f : FrontId) (x : Slot) (body : Run Unit) : State :=
  match runFrom body x.memo s with
  | (r, .delayed) => waitSlot s f x r
  | (r, st) => endSlot r.st f x.id st

/-- A page that latches at the start of the command under COUNTER_MODE, and so at its end (R46, R456). -/
def latchPage (s : State) (f : FrontId) (n : Nat) (b : Block) : State :=
  match getSlot s f n with
  | some x =>
    let (s, l) := startLatch s b (cmdTag x.words) x.queue (cmdOp x.words) x.latches
    putSlot s f { x with latches := l }
  | none => s

/-- The request of a command's engine. -/
def cmdReq (b : Block) (ws : List Word) : Req := reqCmd b (cmdTag ws) (cmdOp ws) (cmdSvc ws)

/-- Iterate over 0 … n − 1. -/
def forN (n : Nat) (f : Nat → Run Unit) : Run Unit := (List.range n).forM f

end Sys2Proof.Machine
end

