-- ==== Sys2Proof/Machine/Desc.lean ====
section
/-!
DEFINITION. Tensor descriptors: their words (R159, R168, R182), the geometry they describe (R160–R163), how a command
reads them at its start (R163–R167), and the elements behind them (R109, R110, R160, R167).
-/
namespace Sys2Proof.Machine

/-- A descriptor, its fields read from its 16 words (R159). -/
structure Desc where
  words   : List Word
  fmt     : Nat
  rank    : Nat
  kind    : Nat
  policy  : Nat
  bcast   : Bool
  alloc   : Nat
  valid   : Bool
  base    : Nat
  exts    : List Nat
  strides : List Int
  scale   : Nat
  scaleSeq : Nat
  seq     : Nat
  aligned : Bool
  overlap : Bool
  gen     : Nat
  deriving DecidableEq, Repr

/-- Read a descriptor's fields. -/
def descOf (ws : List Word) : Desc :=
  let rank := cf ws 0 6 4
  { words := ws, fmt := cf ws 0 3 0, rank := rank, kind := cf ws 0 8 7, policy := cf ws 0 10 9, bcast := cb ws 0 11,
    alloc := cf ws 0 19 13, valid := cb ws 0 31, base := cf64 ws 1,
    exts := (List.range rank).map (fun d => (wordAt ws (3 + d)).toNat),
    strides := (List.range (rank - 1)).map (fun d => signed 32 (wordAt ws (9 + d)).toNat),
    scale := cf ws 14 15 0, scaleSeq := cf ws 14 23 16, seq := cf ws 15 7 0, aligned := cb ws 15 8,
    overlap := cb ws 15 9, gen := cf ws 15 31 16 }

/-- Extent of dimension `d`; 1 past the rank. -/
def Desc.ext (d : Desc) (i : Nat) : Nat := d.exts.getD i 1

/-- The innermost extent. -/
def Desc.last (d : Desc) : Nat := d.exts.getLastD 1

/-- Rows: the product of the outer extents. -/
def Desc.rows (d : Desc) : Nat := d.exts.dropLast.foldl (· * ·) 1

/-- Elements. -/
def Desc.count (d : Desc) : Nat := d.exts.foldl (· * ·) 1

/-- Bits of an element. -/
def Desc.bits (d : Desc) : Nat := elemBits d.fmt

/-- Bytes of a row, W of R161. -/
def Desc.rowBytes (d : Desc) : Nat :=
  if d.bcast then (if d.bits = 4 then 1 else if d.bits = 6 then 3 else d.bits / 8)
  else cdiv (d.last * d.bits) 8

/-- The reach of the outer dimensions below and above BASE (R161). -/
def Desc.reach (d : Desc) : Int × Int :=
  (d.exts.dropLast.zip d.strides).foldl (fun (lo, hi) (e, s) =>
    let x := ((e : Int) - 1) * s
    (lo + min 0 x, hi + max 0 x)) (0, 0)

/-- The reachable range [lo, hi] (R161). -/
def Desc.range (d : Desc) : Int × Int :=
  let (lo, hi) := d.reach
  (d.base + lo, d.base + hi + d.rowBytes - 1)

/-- Do two reachable ranges intersect? -/
def Desc.meets (a b : Desc) : Bool :=
  let (l, h) := a.range
  let (l', h') := b.range
  l ≤ h' && l' ≤ h

/-- The outer indices of row number `r`, outermost first. -/
def rowIndices : List Nat → Nat → List Nat
  | [], _ => []
  | _ :: t, r => let n := t.foldl (· * ·) 1; r / n :: rowIndices t (r % n)

/-- The number of the row with these outer indices. -/
def rowNumber : List Nat → List Nat → Nat
  | e :: es, i :: is => (i % (e + 1)) * es.foldl (· * ·) 1 + rowNumber es is
  | _, _ => 0

/-- Global address of row number `r`: 64-bit two's complement (R160). -/
def Desc.rowAddr (d : Desc) (r : Nat) : Nat :=
  let off := ((rowIndices d.exts.dropLast r).zip d.strides).foldl (fun acc (i, s) => acc + (i : Int) * s) (0 : Int)
  (((d.base : Int) + off) % 2 ^ 64).toNat

/-! ### The table (R153, R294) -/

/-- The block whose page holds an owner's descriptor and allocation registers. -/
def descBlock : FrontId → Block
  | .cp c => .gme c
  | f => f.block

/-- A cause of the descriptor machinery, numbered from DESC_CREATE_FAIL (0) to STALE_DESC (5), on its page. -/
def descCause (f : FrontId) (k : Nat) : Nat :=
  match f with
  | .cp _ => 8 + k
  | _ => 21 + k

/-- Entries of a descriptor table. -/
def tableSize (s : State) (f : FrontId) : Nat :=
  match f with
  | .cp c => 2 ^ rfield s (.gme c) Reg.Gme.DESC_TABLE_LOG2 4 0
  | f => 2 ^ (engineTable s f).2

/-- Local address of entry `i` of a descriptor table. -/
def entryAddr (s : State) (f : FrontId) (i : Nat) : Nat :=
  match f with
  | .cp c => coreAddr c .am ((amTable s c).1 + 64 * i)
  | f => (engineTable s f).1 + 64 * i

/-- An allocation entry (R151): base, size in 64-byte units, VALID, GEN. -/
structure AllocEntry where
  base  : Nat
  size  : Nat
  valid : Bool
  gen   : Nat
  deriving DecidableEq, Repr

/-- The four registers of an allocation entry. -/
def allocWords (s : State) (f : FrontId) (e : Nat) : List Word :=
  [Reg.Gme.ALLOC_BASE_LO, Reg.Gme.ALLOC_BASE_HI, Reg.Gme.ALLOC_SIZE, Reg.Gme.ALLOC_CTRL].map (fun o =>
    rget s (descBlock f) (o + 16 * e))

/-- An allocation entry from its registers. -/
def allocOf (ws : List Word) : AllocEntry :=
  { base := cf64 ws 0, size := (wordAt ws 2).toNat, valid := cb ws 3 31, gen := cf ws 3 23 8 }

/-- Read an allocation entry from an owner's page. -/
def getAlloc (s : State) (f : FrontId) (e : Nat) : AllocEntry := allocOf (allocWords s f e)

/-- Does a range of bytes lie in an allocation (R161)? -/
def AllocEntry.holds (a : AllocEntry) (r : Int × Int) : Bool :=
  (a.base : Int) ≤ r.1 && r.2 < (a.base : Int) + 64 * a.size

/-- The request by which an owner's engine reads its descriptor table for a command. -/
def descReq (f : FrontId) (ws : List Word) : Req := reqCmd (descBlock f) (cmdTag ws) (cmdOp ws) .critical

/-- Read an entry of a descriptor table: its words. An index past the table reads none. -/
def readEntry (f : FrontId) (r : Req) (i : Nat) : Run (Option (List Word)) := do
  if i < (← look (tableSize · f)) then
    let a ← look (entryAddr · f i)
    return some (wordsOf 16 (← needData (fun s => readLocal s r a 64)))
  else return none

/-- A descriptor is refused (R166): the cause of the command, and DEFECT. -/
def refuseDesc {α : Type} (f : FrontId) (ws : List Word) (k : Nat) : Run α := do
  act (fun s => match f with
    | .cp c => bump s (.gme c) 2 1
    | _ => s)
  defectAt (descBlock f) (descCause f k) (cmdTag ws) (cmdOp ws)

/-- Is the allocation of a descriptor not VALID, or of another generation (R166)? -/
def staleAlloc (s : State) (f : FrontId) (d : Desc) : Bool :=
  let a := getAlloc s f d.alloc
  !a.valid || a.gen ≠ d.gen

/-- A descriptor with the scale descriptor that an MX format names. -/
structure Tensor where
  d  : Desc
  sc : Option Desc
  deriving DecidableEq, Repr

/-- The scale descriptor of a tensor, read and checked at command start (R166). -/
def scaleWords (f : FrontId) (ws : List Word) (d : Desc) : Run (List Word) := do
  match ← readEntry f (descReq f ws) d.scale with
  | none => refuseDesc f ws 4
  | some w =>
    let sc := descOf w
    if !sc.valid || sc.kind ≠ 2 then refuseDesc f ws 4
    else if sc.seq ≠ d.scaleSeq || (← look (staleAlloc · f sc)) then refuseDesc f ws 5
    else return w

/-- A descriptor that a command names, read and checked at command start for a role of the given kinds (R165–R167): its
words, and those of its scale descriptor. -/
def descWords (f : FrontId) (ws : List Word) (i : Nat) (kinds : List Nat) : Run (List Word) := do
  match ← readEntry f (descReq f ws) i with
  | none => refuseDesc f ws 4
  | some w =>
    let d := descOf w
    if !d.valid || !kinds.contains d.kind then refuseDesc f ws 4
    else if d.kind ≠ 3 && (← look (staleAlloc · f d)) then refuseDesc f ws 5
    else if d.kind = 0 && isMx d.fmt then return w ++ (← scaleWords f ws d)
    else return w

/-- A tensor from the words of its descriptors. -/
def tensorOf (l : List Word) : Tensor :=
  { d := descOf (l.take 16), sc := if 16 < l.length then some (descOf (l.drop 16)) else none }

/-- The key of a command's copy of descriptor `i` (R165). -/
def descKey (i kind : Nat) : Nat := 4 * i + kind

/-- Load a descriptor that a command names, for a role of the given kind. -/
def loadDesc (f : FrontId) (ws : List Word) (i kind : Nat) : Run Tensor := do
  return tensorOf (← startCopy (descKey i kind) (descWords f ws i [kind]))

/-- Load a descriptor for a role whose command has a cause of its own for another KIND (R200, R231). -/
def loadAny (f : FrontId) (ws : List Word) (i : Nat) : Run Tensor := do
  return tensorOf (← startCopy (2 ^ 23 + i) (descWords f ws i [0, 1, 2, 3]))

/-- Load such a descriptor that may be absent (index 0). -/
def loadAnyOpt (f : FrontId) (ws : List Word) (i : Nat) : Run (Option Tensor) := do
  if i = 0 then return none else return some (← loadAny f ws i)

/-- Load a descriptor that may be absent (index 0). -/
def loadOpt (f : FrontId) (ws : List Word) (i kind : Nat) : Run (Option Tensor) := do
  if i = 0 then return none else return some (← loadDesc f ws i kind)

/-- A destination whose elements may share bytes is refused: OUT_ALIAS on the GME; the pages of the hub and port
engines have no such cause and raise BAD_OPERAND (R163). -/
def checkDest (f : FrontId) (ws : List Word) (t : Tensor) : Run Unit := do
  if t.d.overlap then
    match f with
    | .cp c =>
      act (fun s => bump s (.gme c) 2 1)
      defectAt (.gme c) 14 (cmdTag ws) (cmdOp ws)
    | f => defectAt f.block 13 (cmdTag ws) (cmdOp ws)
  else pure ()

/-- Check a destination that may be absent. -/
def checkDestOpt (f : FrontId) (ws : List Word) : Option Tensor → Run Unit
  | some t => checkDest f ws t
  | none => pure ()

/-! ### Elements -/

/-- Element codes `j0 … j0 + n − 1` in a row's bytes that begin at bit `8 × b0`. -/
def unpack (bits b0 j0 n : Nat) (l : List Byte) : List Nat :=
  let v := leNat l
  (List.range n).map (fun k => v / 2 ^ (bits * (j0 + k) - 8 * b0) % 2 ^ bits)

/-- The bytes that elements `j0 … j0 + n − 1` of a packed row touch: first byte and number of bytes. -/
def elemBytes (bits j0 n : Nat) : Nat × Nat := (bits * j0 / 8, cdiv (bits * (j0 + n)) 8 - bits * j0 / 8)

/-- Read element codes of a row, as one access. A broadcast row has one element, which every index names. -/
def readCodes (r : Req) (d : Desc) (row j0 n : Nat) : Run (List Nat) := do
  if n = 0 then return []
  let a := d.rowAddr row
  if d.bcast then
    let (_, len) := elemBytes d.bits 0 1
    let l ← needData (fun s => gRead s r a len)
    return List.replicate n ((unpack d.bits 0 0 1 l).getD 0 0)
  else
    let (b0, len) := elemBytes d.bits j0 n
    let l ← needData (fun s => gRead s r (a + b0) len)
    return unpack d.bits b0 j0 n l

/-- The bytes with element codes put in place, the other bits kept. -/
def pack (bits b0 j0 : Nat) (old : List Byte) (codes : List Nat) : List Byte :=
  let v := codes.zipIdx.foldl (fun v (c, k) =>
    let sh := bits * (j0 + k) - 8 * b0
    v - (v / 2 ^ sh % 2 ^ bits) * 2 ^ sh + (c % 2 ^ bits) * 2 ^ sh) (leNat old)
  leBytes old.length v

/-- Write element codes of a row. A byte that they fill only in part is read first, and its other bits are kept
(R160). -/
def writeCodes (r : Req) (d : Desc) (row j0 : Nat) (codes : List Nat) : Run Unit := do
  let n := codes.length
  if n = 0 then return ()
  let j0 := if d.bcast then 0 else j0
  let (b0, len) := elemBytes d.bits j0 n
  let a := d.rowAddr row + b0
  let whole := d.bits * j0 % 8 = 0 && d.bits * (j0 + n) % 8 = 0
  let old ← if whole then pure (List.replicate len (0 : Byte)) else needData (fun s => gRead s r a len)
  need (fun s => gWrite s r a (pack d.bits b0 j0 old codes))

/-- Read the block scales of elements `j0 … j0 + n − 1` of a row, one code for each element (R110, R167). -/
def readScales (r : Req) (t : Tensor) (row j0 n : Nat) : Run (List Nat) := do
  match t.sc with
  | none => return []
  | some sc =>
    if t.d.bcast then
      let l ← readCodes r sc row 0 1
      return List.replicate n (l.getD 0 0)
    else
      let b0 := j0 / 32
      let l ← readCodes r sc row b0 ((j0 + n - 1) / 32 - b0 + 1)
      return (List.range n).map (fun k => l.getD ((j0 + k) / 32 - b0) 0)

/-- An element as an operand: its value without its block scale, and the exponent of the scale (none: NaN). -/
structure Elem where
  v  : Val
  sx : Option Int
  deriving DecidableEq, Repr

/-- The operand of a code with an optional scale code. -/
def mkElem (fmt code : Nat) (scale : Option Nat) : Elem :=
  match scale with
  | none => { v := decodeElem fmt code, sx := some 0 }
  | some x => { v := decodeElem fmt code, sx := if x = 0xFF then none else some ((x : Int) - 127) }

/-- The value of an operand, its scale applied exactly. -/
def Elem.val (e : Elem) : Val :=
  match e.sx with
  | none => .nan
  | some k => match e.v with
    | .fin b m x => .fin b m (x + k)
    | v => v

/-- Read elements of a row as operands. -/
def readElems (r : Req) (t : Tensor) (row j0 n : Nat) : Run (List Elem) := do
  let codes ← readCodes r t.d row j0 n
  let scales ← readScales r t row j0 n
  match t.sc with
  | none => return codes.map (fun c => mkElem t.d.fmt c none)
  | some _ => return (codes.zip scales).map (fun (c, x) => mkElem t.d.fmt c (some x))

end Sys2Proof.Machine
end

