-- ==== Sys2Proof/Machine/Convert.lean ====
section
/-!
DEFINITION. Output conversion of rows of exact values (R128, R129), the extremes and sums of R131 and R132, and the
generators of lanes (R134–R136).
-/
namespace Sys2Proof.Machine

/-! ### Rows of outputs -/

/-- An output element: its position in the row, its exact value and its draw. -/
structure OutElem where
  pos  : Nat
  v    : Val
  draw : Nat
  deriving DecidableEq, Repr

/-- A converted row: element codes and block scales by position, NaNs without a representation, whether an output is
not finite, and blocks of scale 0xFF. -/
structure OutRow where
  codes  : List (Nat × Nat)
  scales : List (Nat × Nat)
  unrep  : Nat
  nf     : Bool
  ff     : Nat
  deriving DecidableEq, Repr

/-- A row with nothing in it. -/
def OutRow.empty : OutRow := { codes := [], scales := [], unrep := 0, nf := false, ff := 0 }

/-- OUT_ROUND (R128). -/
def roundingOf (mode draw : Nat) : Rounding :=
  match mode with
  | 0 => .nearest
  | 1 => .stochastic draw
  | _ => .toZero

/-- One element of a format without block scales. -/
def convertElem (fmt mode : Nat) (sat : Bool) (x : OutElem) : Nat × Bool :=
  match elemFmt fmt with
  | some f => f.convert (roundingOf mode x.draw) sat x.v
  | none => (0, false)

/-- Put an element in front of the groups of one block of 32 each. -/
def addToBlocks (x : OutElem) : List (Nat × List OutElem) → List (Nat × List OutElem)
  | (b, l) :: t => if x.pos / 32 = b then (b, x :: l) :: t else (x.pos / 32, [x]) :: (b, l) :: t
  | [] => [(x.pos / 32, [x])]

/-- The elements of a row by blocks of 32 positions (R129). -/
def blocksOf (l : List OutElem) : List (Nat × List OutElem) := l.foldr addToBlocks []

/-- An MX output block (R129). -/
def convertBlock (fmt mode : Nat) (b : Nat) (l : List OutElem) : OutRow :=
  let (x, bad) := mxScale fmt (l.map (·.v))
  let code (e : OutElem) : Nat :=
    if bad then 0
    else (convertElem fmt mode true { e with v := match e.v with
      | .fin n m k => .fin n m (k - ((x : Int) - 127))
      | v => v }).1
  { codes := l.map (fun e => (e.pos, code e)), scales := [(b, x)], unrep := 0, nf := bad, ff := if bad then 1 else 0 }

/-- Two parts of a row together. -/
def OutRow.join (a b : OutRow) : OutRow :=
  { codes := a.codes ++ b.codes, scales := a.scales ++ b.scales, unrep := a.unrep + b.unrep, nf := a.nf || b.nf,
    ff := a.ff + b.ff }

/-- Convert a row of outputs (R128, R129). -/
def convertRow (fmt mode : Nat) (sat : Bool) (l : List OutElem) : OutRow :=
  if isMx fmt then (blocksOf l).foldl (fun r (b, es) => r.join (convertBlock fmt mode b es)) OutRow.empty
  else
    let cs := l.map (fun e => (e.pos, convertElem fmt mode sat e))
    { codes := cs.map (fun (p, c, _) => (p, c)), scales := [], unrep := (cs.filter (fun (_, _, b) => b)).length,
      nf := cs.any (fun (_, c, _) => (decodeElem fmt c).nonfinite), ff := 0 }

/-- Maximal runs of consecutive positions. -/
def runsOf : List (Nat × Nat) → List (Nat × List Nat)
  | [] => []
  | (p, c) :: t =>
    match runsOf t with
    | (q, l) :: u => if q = p + 1 then (p, c :: l) :: u else (p, [c]) :: (q, l) :: u
    | [] => [(p, [c])]

/-- Write codes at positions of a row. -/
def writeAt (r : Req) (d : Desc) (row : Nat) (l : List (Nat × Nat)) : Run Unit :=
  (runsOf l).forM (fun (p, cs) => writeCodes r d row p cs)

/-- Write a converted row to a tensor: its elements, and the scales of an MX tensor. -/
def writeOutRow (r : Req) (t : Tensor) (row : Nat) (o : OutRow) : Run Unit := do
  writeAt r t.d row o.codes
  match t.sc with
  | some sc => writeAt r sc row o.scales
  | none => pure ()

/-! ### Extremes and sums (R118, R131, R132) -/

/-- An extreme with its index. -/
structure Extreme where
  v   : Val
  idx : Int
  deriving DecidableEq, Repr

/-- One more element in the search for a maximum (R131). -/
def Extreme.maxStep (x : Extreme) (y : Val) (i : Int) : Extreme :=
  if x.v ≠ .nan && (y = .nan || y.gt x.v) then { v := y, idx := i } else x

/-- One more element in the search for a minimum (R131). -/
def Extreme.minStep (x : Extreme) (y : Val) (i : Int) : Extreme :=
  if x.v ≠ .nan && (y = .nan || x.v.gt y) then { v := y, idx := i } else x

/-- An exact sum in a long register with the flags of R115. -/
structure LongSum where
  sum  : Int
  nan  : Bool
  pinf : Bool
  ninf : Bool
  deriving DecidableEq, Repr

/-- Nothing added yet. -/
def LongSum.zero : LongSum := { sum := 0, nan := false, pinf := false, ninf := false }

/-- One more value, on the grid of 2^-280. -/
def LongSum.add (x : LongSum) : Val → LongSum
  | .nan => { x with nan := true }
  | .inf b => if b then { x with ninf := true } else { x with pinf := true }
  | .fin b m e => { x with sum := x.sum + signedNat b (onGrid m e).1 }

/-- The exact result (R118): a NaN, an infinity or the sum. -/
def LongSum.val (x : LongSum) : Val :=
  if x.nan || (x.pinf && x.ninf) then .nan
  else if x.pinf then .inf false
  else if x.ninf then .inf true
  else ofGrid x.sum

/-! ### Generators of lanes (R134–R136) -/

/-- The generator state of a lane: `owner` names the seeds in effect, `key` counts the beats. -/
def genState (s : State) (owner lane key : Nat) : BitVec 64 :=
  let x := tget Seeds.reset s.seeds owner
  advanceBy (tget 0 s.beats key) (seedOf x.seed x.domain x.stride lane)

/-- `n` more beats. -/
def addBeats (s : State) (key n : Nat) : State := { s with beats := tset 0 s.beats key (tget 0 s.beats key + n) }

/-- Lane ID of an array lane, whose beats are counted under the core's lane 0. -/
def arrayLane (c : CoreId) (l : Nat) : Nat := c.val * 32 + l

/-- Lane ID of a VU lane. -/
def vuLane (c : CoreId) (v : Nat) : Nat := 4096 + c.val * 256 + v

/-- The generator state of an array lane: every lane of an array advances at each of its beats. -/
def arrayState (s : State) (c : CoreId) (l : Nat) : BitVec 64 := genState s c.val (arrayLane c l) (arrayLane c 0)

/-- The generator state of a VU lane. -/
def vuState (s : State) (c : CoreId) (v : Nat) : BitVec 64 := genState s c.val (vuLane c v) (vuLane c v)

end Sys2Proof.Machine
end

