-- ==== Sys2Proof/Machine/Pods.lean ====
section
/-!
DEFINITION. Pod-tiled weights: storage forms (R172–R177), directory entries (R178–R182), and the reading of a tile with
the checks of R183–R185.
-/
namespace Sys2Proof.Machine

/-- A pod form: K, G, slots per row, index bits per slot, index row pitch in bytes (R172). -/
structure PodForm where
  k     : Nat
  g     : Nat
  slots : Nat
  w     : Nat
  pitch : Nat
  deriving DecidableEq, Repr

/-- The pod and dense forms of R172; a dense row is one pod of 128. -/
def podForm : Nat → Option PodForm
  | 0x0 => some ⟨128, 128, 128, 0, 0⟩
  | 0x1 => some ⟨1, 4, 32, 2, 8⟩
  | 0x2 => some ⟨2, 4, 64, 2, 16⟩
  | 0x3 => some ⟨1, 8, 16, 3, 8⟩
  | 0x4 => some ⟨2, 8, 32, 3, 16⟩
  | 0x5 => some ⟨4, 8, 64, 3, 24⟩
  | 0x6 => some ⟨4, 16, 32, 4, 16⟩
  | 0x7 => some ⟨8, 16, 64, 4, 32⟩
  | 0x8 => some ⟨8, 32, 32, 5, 24⟩
  | _ => none

/-- POD of a block-unstructured tile. -/
abbrev podBlock : Nat := 0x9
/-- POD of a zero tile. -/
abbrev podZero : Nat := 0xA

/-- A directory entry (R179). -/
structure DirEntry where
  e      : Nat
  words  : List Word
  pod    : Nat
  vfmt   : Nat
  tValid : Bool
  nnz    : Nat
  gen    : Nat
  vOff   : Nat
  iOff   : Nat
  tvOff  : Nat
  tiOff  : Nat
  sOff   : Nat
  tsOff  : Nat
  deriving DecidableEq, Repr

/-- The fields of an entry's words. -/
def entryOf (e : Nat) (ws : List Word) : DirEntry :=
  { e := e, words := ws, pod := cf ws 0 3 0, vfmt := cf ws 0 7 4, tValid := cb ws 0 8, nnz := cf ws 0 30 16,
    gen := (wordAt ws 1).toNat, vOff := (wordAt ws 2).toNat, iOff := (wordAt ws 3).toNat,
    tvOff := (wordAt ws 4).toNat, tiOff := (wordAt ws 5).toNat, sOff := (wordAt ws 6).toNat,
    tsOff := (wordAt ws 7).toNat }

/-- Local address of directory entry `e` (R178). -/
def entryPlace (e : Nat) : Nat := directoryBase + 32 * e

/-- Read a directory entry: a stride-critical request, whatever the command's class (R361). -/
def readDirEntry (r : Req) (e : Nat) : Run DirEntry := do
  return entryOf e (wordsOf 8 (← needData (fun s => readLocal s { r with cls := .critical } (entryPlace e) 32)))

/-- A KIND 1 descriptor in use: its grid in tiles, its directory fields (R182) and the allocation that it was checked
against. -/
structure Grid where
  d     : Desc
  fmt   : Nat
  base  : Nat
  rows  : Nat
  cols  : Nat
  first : Nat
  pitch : Nat
  alloc : AllocEntry
  deriving DecidableEq, Repr

/-- The grid of a KIND 1 descriptor in an allocation. -/
def gridWith (a : AllocEntry) (d : Desc) : Grid :=
  { d := d, fmt := d.fmt, base := d.base, rows := d.ext 0 / 128, cols := d.ext 1 / 128, first := cf d.words 9 20 0,
    pitch := cf d.words 10 20 0, alloc := a }

/-- The grid of a KIND 1 descriptor. -/
def gridOf (s : State) (f : FrontId) (d : Desc) : Grid := gridWith (getAlloc s f d.alloc) d

/-- The grid of a command's KIND 1 descriptor, in the allocation that it was checked against at its start (R152). -/
def loadGrid (f : FrontId) (d : Desc) : Run Grid := do
  return gridWith (allocOf (← startCopy (2 ^ 20 + d.alloc) (look (allocWords · f d.alloc)))) d

/-- The directory entry of tile (t_n, t_k). -/
def Grid.entry (g : Grid) (tn tk : Nat) : Nat := g.first + tn * g.pitch + tk

/-- The tiles of a grid, by rows. -/
def Grid.tiles (g : Grid) : List (Nat × Nat) :=
  (List.range g.rows).flatMap (fun tn => (List.range g.cols).map (fun tk => (tn, tk)))

/-- The bytes of a pod-tiled operand's storage: its allocation. -/
def Grid.range (g : Grid) : Int × Int := ((g.alloc.base : Int), (g.alloc.base : Int) + 64 * g.alloc.size - 1)

/-- Global address of the block at an offset in 64-byte units from BASE (R179). -/
def Grid.at_ (g : Grid) (off : Nat) : Nat := (g.base + 64 * off) % 2 ^ 64

/-- A stored slot: its window position, none in a pod treated as zero; its value code; its scale code. -/
structure PodSlot where
  pos   : Option Nat
  code  : Nat
  scale : Option Nat
  deriving DecidableEq, Repr

/-- Is the value of the slot zero, of either sign? -/
def PodSlot.zero (fmt : Nat) (x : PodSlot) : Bool := (decodeElem fmt x.code).isZero

/-- Does a slot take part in a product (R184, R189)? -/
def PodSlot.present (fmt : Nat) (x : PodSlot) : Bool := x.pos.isSome && !x.zero fmt

/-- The slot's operand. -/
def PodSlot.elem (fmt : Nat) (x : PodSlot) : Elem := mkElem fmt x.code x.scale

/-- What is wrong with a tile (R184). -/
inductive TileFault where
  | format
  | range
  deriving DecidableEq, Repr

/-- A tile as read: 128 rows of slots, its fault if the whole of it counts as zero, how many pods do, and how many of its
runs have the scale 0xFF. -/
structure TileRead where
  rows   : List (List PodSlot)
  fault  : Option TileFault
  zeroed : Nat
  ff     : Nat
  deriving DecidableEq, Repr

/-- A tile of zeros, with a fault or without. -/
def emptyTile (x : Option TileFault) : TileRead := { rows := List.replicate 128 [], fault := x, zeroed := 0, ff := 0 }

/-- Are the numbers strictly increasing? -/
def rising : List Nat → Bool
  | a :: b :: t => a < b && rising (b :: t)
  | _ => true

/-- Bytes of `n` packed values. -/
def packedBytes (fmt n : Nat) : Nat := cdiv (n * elemBits fmt) 8

/-- Capacity of NNZ, where R184 gives one. -/
def nnzCap (pod : Nat) : Option Nat :=
  match podForm pod with
  | some f => some (16384 * f.k / f.g)
  | none => if pod = podZero then some 0 else none

/-- The blocks of the forward form of a tile: offset in units and bytes (R172, R173, R175, R177). -/
def forwardBlocks (fmt : Nat) (x : DirEntry) : List (Nat × Nat) :=
  let mx (n : Nat) : List (Nat × Nat) := if isMx fmt then [(x.sOff, r64 (cdiv n 32))] else []
  match podForm x.pod with
  | some f =>
    let n := 128 * f.slots
    [(x.vOff, r64 (packedBytes fmt n)), (x.iOff, 128 * f.pitch)] ++ mx n
  | none =>
    if x.pod = podBlock then [(x.vOff, r64 (packedBytes fmt x.nnz)), (x.iOff, r64 (128 + x.nnz))] ++ mx x.nnz else []

/-- The blocks of the transposed copy (R176, R177). -/
def transposedBlocks (fmt : Nat) (x : DirEntry) : List (Nat × Nat) :=
  [(x.tvOff, r64 (packedBytes fmt x.nnz)), (x.tiOff, r64 (128 + x.nnz))] ++
  (if isMx fmt then [(x.tsOff, r64 (cdiv x.nnz 32))] else [])

/-- Does every block lie in the allocation (R183)? -/
def Grid.holds (g : Grid) (l : List (Nat × Nat)) : Bool :=
  l.all (fun (off, n) => n = 0 ||
    g.alloc.holds ((g.base + 64 * off : Int), (g.base + 64 * off + n : Int) - 1))

/-- Read a block; none of its bytes where it is empty. -/
def readBlock (r : Req) (a n : Nat) : Run (List Byte) :=
  if n = 0 then pure [] else needData (fun s => gRead s r a n)

/-- The scale codes of a run of `n` stored slots (R177); none for a format without scales. -/
def readRunScales (r : Req) (g : Grid) (off n : Nat) : Run (List Byte) :=
  if isMx g.fmt then readBlock r (g.at_ off) (cdiv n 32) else pure []

/-- The scale code of stored slot `q`. -/
def runScale (sc : List Byte) (q : Nat) : Option Nat := if sc = [] then none else some (sc.getD (q / 32) 0).toNat

/-- Rows of slots from counts, column bytes and values, first slot `q`. -/
def blockRows (cols : List Nat) (codes : List Nat) (sc : List Byte) : List Nat → Nat → List (List PodSlot)
  | [], _ => []
  | n :: t, q =>
    (List.range n).map (fun j =>
      { pos := some (cols.getD (q + j) 0), code := codes.getD (q + j) 0, scale := runScale sc (q + j) }) ::
    blockRows cols codes sc t (q + n)

/-- A tile in block-unstructured form, a transposed copy among them, with the checks of R184. -/
def readBlockForm (r : Req) (g : Grid) (nnz vOff iOff sOff : Nat) : Run TileRead := do
  let counts := (← readBlock r (g.at_ iOff) 128).map (·.toNat)
  if counts.any (128 < ·) || counts.foldl (· + ·) 0 ≠ nnz then return emptyTile (some .format)
  let cols := (← readBlock r ((g.at_ iOff + 128) % 2 ^ 64) nnz).map (·.toNat)
  let codes := unpack (elemBits g.fmt) 0 0 nnz (← readBlock r (g.at_ vOff) (packedBytes g.fmt nnz))
  let sc ← readRunScales r g sOff nnz
  let rows := blockRows cols codes sc counts 0
  if cols.any (128 ≤ ·) || !rows.all (fun l => rising (l.filterMap (·.pos))) then return emptyTile (some .format)
  return { rows := rows, fault := none, zeroed := 0, ff := sc.countP (· = 0xFF) }

/-- A row of a pod or dense tile: its slots, and how many of its pods are malformed (R173, R174, R184, R188). -/
def podRow (f : PodForm) (str : Nat) (codes : List Nat) (sc : List Byte) (row : Nat) : List PodSlot × Nat :=
  let pods := (List.range (f.slots / f.k)).map (fun p =>
    let ix := (List.range f.k).map (fun j => if f.pitch = 0 then j else str / 2 ^ (f.w * (f.k * p + j)) % f.g)
    let good := rising ix
    (ix.mapIdx (fun j x =>
      let q := row * f.slots + f.k * p + j
      if good then { pos := some (f.g * p + x), code := codes.getD q 0, scale := runScale sc q }
      else { pos := none, code := 0, scale := none }), if good then 0 else 1))
  (pods.flatMap (·.1), (pods.map (·.2)).foldl (· + ·) 0)

/-- A tile in a pod or dense form. -/
def readPodForm (r : Req) (g : Grid) (f : PodForm) (x : DirEntry) : Run TileRead := do
  let n := 128 * f.slots
  let codes := unpack (elemBits g.fmt) 0 0 n (← readBlock r (g.at_ x.vOff) (packedBytes g.fmt n))
  let idx ← readBlock r (g.at_ x.iOff) (128 * f.pitch)
  let sc ← readRunScales r g x.sOff n
  let rows := (List.range 128).map (fun i =>
    podRow f (leNat ((idx.drop (i * f.pitch)).take f.pitch)) codes sc i)
  return { rows := rows.map (·.1), fault := none, zeroed := (rows.map (·.2)).foldl (· + ·) 0,
           ff := sc.countP (· = 0xFF) }

/-- What is wrong with an entry before any block is read, the blocks apart (R184). -/
def entryFault (fmt : Nat) (x : DirEntry) : Bool :=
  podZero < x.pod || !isOperandFmt x.vfmt || x.vfmt ≠ fmt ||
  (match nnzCap x.pod with
   | some c => c < x.nnz
   | none => false)

/-- Read a tile in its forward form. -/
def readForward (r : Req) (g : Grid) (x : DirEntry) : Run TileRead := do
  if entryFault g.fmt x then return emptyTile (some .format)
  if x.pod = podZero then return emptyTile none
  if !g.holds (forwardBlocks g.fmt x) then return emptyTile (some .range)
  match podForm x.pod with
  | some f => readPodForm r g f x
  | none => readBlockForm r g x.nnz x.vOff x.iOff x.sOff

/-- Read a tile's transposed copy. -/
def readTransposed (r : Req) (g : Grid) (x : DirEntry) : Run TileRead := do
  if entryFault g.fmt x then return emptyTile (some .format)
  if x.pod = podZero then return emptyTile none
  if !g.holds (transposedBlocks g.fmt x) then return emptyTile (some .range)
  readBlockForm r g x.nnz x.tvOff x.tiOff x.tsOff

/-- The transposed form of a tile (R176, R204): the rows become the positions. A pod or dense tile lists its non-zero
slots; a block-unstructured tile lists every slot. -/
def transposeTile (fmt : Nat) (all : Bool) (rows : List (List PodSlot)) : List (List PodSlot) :=
  (List.range 128).map (fun p => rows.zipIdx.flatMap (fun (l, i) =>
    (l.filter (fun x => x.pos = some p && (all || !x.zero fmt))).map (fun x => { x with pos := some i })))

end Sys2Proof.Machine
end

