-- ==== Sys2Proof/Machine/Array.lean ====
section
/-!
DEFINITION. The array: products and the long accumulator (R105, R112–R115), chunks, promotion and drain (R116–R118,
R128), fusions (R130–R133), check lanes (R124–R127), and MATMUL in its three modes (R104, R121–R123, R138–R141).
-/
namespace Sys2Proof.Machine

/-! ### The long accumulator -/

/-- The accumulator of a unit in a chunk: its sum in units of 2^-280, the flags of R114 and R115, and what its products
count. -/
structure Acc where
  sum   : LongSum
  range : Bool
  prods : Nat
  gated : Nat
  rnds  : Nat
  rngs  : Nat
  deriving DecidableEq, Repr

/-- An accumulator with nothing in it. -/
def Acc.zero : Acc := { sum := LongSum.zero, range := false, prods := 0, gated := 0, rnds := 0, rngs := 0 }

/-- Add one product (R105, R114, R115). -/
def Acc.term (a : Acc) (x y : Elem) : Acc :=
  let a := { a with prods := a.prods + 1 }
  match x.sx, y.sx with
  | some sx, some sy =>
    match x.v, y.v with
    | .fin na ma ea, .fin nb mb eb =>
      if ma = 0 || mb = 0 then { a with gated := a.gated + 1 }
      else
        let m := ma * mb
        let e := ea + eb + sx + sy
        if 262 ≤ e + Nat.log2 m then { a with range := true, rngs := a.rngs + 1 }
        else
          let (g, exact) := onGrid m e
          { a with sum := { a.sum with sum := a.sum.sum + signedNat (na != nb) g },
                   rnds := if exact then a.rnds else a.rnds + 1 }
    | v, w => { a with sum := a.sum.add (v.mul w) }
  | _, _ => { a with sum := a.sum.add .nan }

/-- The products of two runs of operands. -/
def dot (xs ys : List Elem) : Acc := (xs.zip ys).foldl (fun a (x, y) => a.term x y) Acc.zero

/-- The exact v of a promotion with the old total (R117, R118). -/
def Acc.promote (a : Acc) (total : Val) : Val := if a.range then .nan else (a.sum.add total).val

/-- The code of a new total, FP32 or paired FP32 (R117, R118). -/
def totalCode (fmt : Nat) (v : Val) : Nat :=
  if fmt = 0xD then
    let h := rne32 v
    let l := if h.nonfinite then Val.zero else rne32 (v.add h.neg)
    (toF32 h).toNat + 2 ^ 32 * (toF32 l).toNat
  else (toF32 v).toNat

/-! ### Tiles -/

/-- A column of an output tile: its unit; column of the total; column of OUT, if any; column index of the statistics;
whether its totals and outputs are written; whether its output is +0 (R211); whether its value is kept (R220, R222). -/
structure Col where
  unit  : Nat
  c     : Nat
  o     : Option Nat
  idx   : Int
  keep  : Option Nat
  write : Bool
  zero  : Bool
  deriving DecidableEq, Repr

/-- A line of an output tile: the lane that forms it, its row of totals and of OUT, and its columns. -/
structure Line where
  lane : Nat
  row  : Nat
  cols : List Col
  deriving DecidableEq, Repr

/-- The statistics of an output row (R130–R133), and how many columns it has seen. -/
structure RowStat where
  max  : Extreme
  min  : Extreme
  sum  : LongSum
  m    : Val
  s    : Val
  seen : Nat
  deriving DecidableEq, Repr

/-- What a product carries from tile to tile: statistics by row, directory entries and tiles read, the kept values by
neuron, the outputs by row that wait for the rest of their MX blocks, chunks that mismatched, with the lanes and columns that differed. -/
structure TileLoop where
  stats   : List (Nat × RowStat)
  entries : List (Nat × DirEntry)
  tiles   : List (Nat × TileRead)
  kept    : List (Nat × Val)
  outs    : List (Nat × OutElem)
  mism    : Nat
  rows    : Word
  cols    : Word
  deriving DecidableEq, Repr

/-- At the first beat. -/
def TileLoop.start : TileLoop := { stats := [], entries := [], tiles := [], kept := [], outs := [], mism := 0, rows := 0, cols := 0 }

/-- The work of one chunk of a tile: its beats, and the accumulators by line and column. -/
abbrev ChunkWork : Type := TileLoop → Run (TileLoop × Nat × List (List Acc))

/-- An output tile and its chunks. -/
structure OutTile where
  lines  : List Line
  chunks : List ChunkWork

/-- A stage of a product: what it reads before its tiles, and the tiles. -/
abbrev TileStage : Type := TileLoop → Run (TileLoop × List OutTile)

/-- A stage that reads nothing beforehand. -/
def plainStage (ts : List OutTile) : TileStage := fun l => pure (l, ts)

/-- What the drain of a command works with. -/
structure DrainCtx where
  core    : CoreId
  ws      : List Word
  tot     : Option Tensor
  out     : Option Tensor
  stat    : Option Tensor
  /-- columns of an output row -/
  width   : Nat
  checks  : Bool
  colChecks : Bool
  window  : Bool
  fmtA    : Nat
  fmtB    : Nat
  /-- the MX blocks of OUT are not those of single tiles, so its rows are converted at the end of a stage -/
  gather  : Bool
  deriving DecidableEq, Repr

/-- The drain's request. -/
def DrainCtx.req (x : DrainCtx) : Req := cmdReq (.array x.core) x.ws
/-- FINAL. -/
def DrainCtx.final (x : DrainCtx) : Bool := cb x.ws 4 12
/-- NF_REPORT. -/
def DrainCtx.nf (x : DrainCtx) : Bool := cb x.ws 4 13
/-- The fusions selected: ARG_MAX, ARG_MIN, ROW_SUM, EXP_SUM. -/
def DrainCtx.fusions (x : DrainCtx) : Nat := cf x.ws 5 3 0

/-- A non-finite total, output or statistic of a command with NF_REPORT (R138). -/
def reportNf (on nf : Bool) : Run Unit := if on && nf then act setNonfinite else pure ()

/-- The active lanes of a core's array, in increasing order (R198). -/
def activeLanes (s : State) (c : CoreId) : List Nat :=
  (List.range 32).filter (fun l => !rbit s (.array c) Reg.Arr.LANE_RETIRED l)

/-- Do the checks of R127 run? -/
def checksOn (s : State) (c : CoreId) (check : Bool) : Bool :=
  rbit s (.array c) Reg.Arr.CHECK_CTRL 0 || (check && !rbit s (.array c) Reg.Arr.CHECK_CTRL 1)

/-- What the faults of an array's parts add to an accumulator. -/
def partDelta (s : State) (c : CoreId) (p : ArrayPart) : Int :=
  ((s.arrayFaults.filter (fun f => f.core = c && f.part = p)).map (·.delta)).foldl (· + ·) 0

/-- What the faulty units of an array add to the sum of a unit. -/
def faultDelta (s : State) (c : CoreId) (lane unit : Nat) : Int :=
  partDelta s c (.unit (Fin.ofNat 32 lane) (Fin.ofNat 32 unit))

/-- Blocks of 32 positions with scale 0xFF among the elements of a row from position `k0` on. -/
def ffBlocks (k0 : Nat) (xs : List Elem) : Nat :=
  ((xs.zipIdx.filter (fun (e, _) => e.sx = none)).map (fun (_, i) => (k0 + i) / 32)).eraseDups.length

/-- Count the operand blocks with scale 0xFF among rows read from position `k0` on (counter 12). -/
def noteFf (c : CoreId) (k0 : Nat) (rows : List (List Elem)) : Run Unit :=
  act (fun s => bump s (.array c) 12 ((rows.map (ffBlocks k0)).foldl (· + ·) 0))

/-- Multiplier slots that a product of two operand formats occupies (R111). -/
def productSlots (a b : Nat) : Nat := if [a, b].any (fun x => x = 0x5 || x = 0x6) then 2 else 1

/-- Counters and causes of a chunk's products (R114). -/
def noteProducts (x : DrainCtx) (beats : Nat) (as : List Acc) : Run Unit := do
  let b : Block := .array x.core
  let sum (f : Acc → Nat) : Nat := (as.map f).foldl (· + ·) 0
  act (fun s => bump (bump (bump (bump (bump s b 0 beats) b 1 (sum (·.prods))) b 2
    (productSlots x.fmtA x.fmtB * sum (·.gated))) b 5 (sum (·.rnds)))
    b 11 (sum (·.rngs)))
  act (fun s => addBeats s (arrayLane x.core 0) beats)
  forN (sum (·.rngs)) (fun _ => act (fun s => raiseTag s b 10 (cmdTag x.ws) (cmdOp x.ws)))

/-- Bits of a mask. -/
def maskOf (l : List Nat) : Word := wordOf (l.foldl (fun a i => a ||| 2 ^ i) 0)

/-- One comparison of R126: the sum of a lane's or a column's accumulators and the check accumulator, which holds the same
sum exactly (R124), each with what faults have added; whether it is skipped; whether it differs. -/
structure Comparison where
  n       : Nat
  skip    : Bool
  differs : Bool
  deriving DecidableEq, Repr

/-- The comparison of some accumulators, with what faults have added to them and to their check unit. -/
def compareSums (n : Nat) (retired : Bool) (as : List (Acc × Int)) (check : Int) : Comparison :=
  let exact := (as.map (·.1.sum.sum)).foldl (· + ·) 0
  { n := n, skip := retired || as.any (fun x => decide (x.1.rnds ≠ 0)),
    differs := decide ((as.map (fun x => x.1.sum.sum + x.2)).foldl (· + ·) 0 ≠ exact + check) }

/-- The comparisons of a chunk (R126, R127, R426): lanes and columns compared, those that differ, and how many
comparisons are skipped. `deltas` holds what faulty units have added, by line and column. -/
def noteChecks (x : DrainCtx) (lines : List Line) (as : List (List Acc)) (deltas : List (List Int)) (l : TileLoop) :
    Run TileLoop := do
  if !x.checks then return l
  let b : Block := .array x.core
  let s ← look id
  let rows := (lines.zip (as.zip deltas)).map (fun (ln, a, d) =>
    compareSums ln.lane false (a.zip d) (partDelta s x.core (.rowCheck (Fin.ofNat 32 ln.lane))))
  let cells := (lines.zip (as.zip deltas)).flatMap (fun (ln, a, d) => (ln.cols.zip (a.zip d)).map (fun (c, y) => (c.unit, y)))
  let units := if x.colChecks then (List.range 32).filter (fun u => cells.any (fun c => c.1 = u)) else []
  let cols := units.map (fun u =>
    compareSums u (rbit s b Reg.Arr.CHECK_COL_RETIRED u) ((cells.filter (fun c => c.1 = u)).map (·.2))
      (partDelta s x.core (.colCheck (Fin.ofNat 32 u))))
  let skipped := ((rows ++ cols).filter (·.skip)).length
  let badRows := (rows.filter (fun c => !c.skip && c.differs)).map (·.n)
  let badCols := (cols.filter (fun c => !c.skip && c.differs)).map (·.n)
  act (fun s => bump (bump s b 6 ((rows ++ cols).length - skipped)) b 7 skipped)
  if badRows = [] && badCols = [] then return l
  let l := { l with mism := l.mism + 1, rows := l.rows ||| maskOf badRows, cols := l.cols ||| maskOf badCols }
  act (fun s =>
    let s := bump s b 8 (badRows.length + badCols.length)
    let s := rput s b Reg.Arr.CHECK_ROW_MASK (rget s b Reg.Arr.CHECK_ROW_MASK ||| maskOf badRows)
    let s := rput s b Reg.Arr.CHECK_COL_MASK (rget s b Reg.Arr.CHECK_COL_MASK ||| maskOf badCols)
    let s := if rbit s b Reg.Arr.CHECK_FAULT 15 then s
      else rput s b Reg.Arr.CHECK_FAULT (wordOf ((cmdTag x.ws).toNat * 65536 + 32768))
    setCause s b Cause.CHECKSUM (cmdTag x.ws))
  markDefect
  return l

/-! ### Statistics (R130–R133) -/

/-- The statistics before a row's first column: from the record under STAT_CONTINUE. -/
def startStat (x : DrainCtx) (row : Nat) : Run RowStat := do
  let fresh : RowStat :=
    { max := { v := .inf true, idx := -1 }, min := { v := .inf false, idx := -1 }, sum := LongSum.zero, m := .inf true,
      s := Val.zero, seen := 0 }
  match x.stat with
  | none => return fresh
  | some t =>
    if cb x.ws 4 14 then
      let d ← needData (fun s => gRead s x.req (t.d.rowAddr row) 32)
      let w := wordsOf 8 d
      let i (n : Nat) : Int := signed 32 (wordAt w n).toNat
      return { max := { v := f32 (wordAt w 0), idx := i 1 }, min := { v := f32 (wordAt w 2), idx := i 3 },
               sum := LongSum.zero.add (f32 (wordAt w 4)), m := f32 (wordAt w 5), s := f32 (wordAt w 6), seen := 0 }
    else return fresh

/-- The exp-sum of one more tile of a row (R133). -/
def expTile (c m s : Val) (ys : List Val) : Val × Val :=
  let t := ys.foldl (fun t y => if t = .nan || y = .nan then .nan else if y.gt t then y else t) (.inf true)
  if t = .nan || m = .nan then (.nan, .nan)
  else
    let (m, s) := if t.gt m then
        (t, if m = .inf true then Val.zero else mulF s (exp2F (mulF c (subF m t))))
      else (m, s)
    if m = .inf true then (m, s)
    else
      let e := (ys.map (fun y => exp2F (mulF c (subF y m)))).foldl Val.add Val.zero
      (m, rne32 (s.add e))

/-- One more tile of a row. -/
def RowStat.tile (r : RowStat) (c : Val) (l : List (Int × Val)) : RowStat :=
  let (m, s) := expTile c r.m r.s (l.map (·.2))
  { max := l.foldl (fun x (i, y) => x.maxStep y i) r.max, min := l.foldl (fun x (i, y) => x.minStep y i) r.min,
    sum := l.foldl (fun x (_, y) => x.add y) r.sum, m := m, s := s, seen := r.seen + l.length }

/-- Write the statistics of a finished row, the selected fields alone. -/
def writeStat (x : DrainCtx) (t : Tensor) (row : Nat) (r : RowStat) : Run Unit := do
  let a := t.d.rowAddr row
  let put (i n : Nat) (ws : List Word) (vs : List Val) : Run Unit :=
    if x.fusions.testBit i then do
      need (fun s => gWrite s x.req (a + 4 * n) (bytesOf ws))
      reportNf x.nf (vs.any Val.nonfinite)
    else pure ()
  let sum := rne32 r.sum.val
  let word (i : Int) : Word := BitVec.ofInt 32 i
  put 0 0 [toF32 r.max.v, word r.max.idx] [r.max.v]
  put 1 2 [toF32 r.min.v, word r.min.idx] [r.min.v]
  put 2 4 [toF32 sum] [sum]
  put 3 5 [toF32 r.m, toF32 r.s] [r.m, r.s]

/-- Run a computation and keep the status that it stops with. -/
def attempt {α : Type} (x : Run α) : Run (Except Status α) := tryCatch (do return .ok (← x)) (fun e => return .error e)

/-- Add a row's outputs to the statistics. -/
def feedStats (x : DrainCtx) (l : TileLoop) (row : Nat) (ys : List (Int × Val)) : Run TileLoop := do
  if x.fusions = 0 || ys = [] then return l
  let r ← match l.stats.find? (fun y => y.1 = row) with
    | some y => pure y.2
    | none => startStat x row
  let r := r.tile (f32 (wordAt x.ws 6)) ys
  return { l with stats := l.stats.filter (fun y => y.1 ≠ row) ++ [(row, r)] }

/-! ### Drain (R117, R128) -/

/-- The totals of a line before a promotion: zero in the first chunk without ACC_INIT. -/
def oldTotals (x : DrainCtx) (first : Bool) (ln : Line) : Run (List Val) := do
  match x.tot, ln.cols.head? with
  | some t, some c0 =>
    if first && !cb x.ws 4 7 then return ln.cols.map (fun _ => Val.zero)
    else
      let codes ← readCodes x.req t.d ln.row c0.c ln.cols.length
      return codes.map (decodeElem t.d.fmt)
  | _, _ => return ln.cols.map (fun _ => Val.zero)

/-- Write the totals of a line. -/
def writeTotals (x : DrainCtx) (ln : Line) (vs : List Val) : Run Unit := do
  match x.tot with
  | some t =>
    let l := (ln.cols.zip vs).filter (fun (c, _) => c.write)
    writeAt x.req t.d ln.row (l.map (fun (c, v) => (c.c, totalCode t.d.fmt v)))
  | none => pure ()

/-- Convert and write outputs of one row. -/
def writeConverted (x : DrainCtx) (t : Tensor) (row : Nat) (es : List OutElem) : Run Unit := do
  let mode := cf x.ws 4 9 8
  let o := convertRow t.d.fmt mode (cb x.ws 4 10) es
  let b : Block := .array x.core
  act (fun s => bump (bump s b 12 o.ff) b 13 (if mode = 1 then es.length else 0))
  forN o.unrep (fun _ => act (fun s => raiseTag s b 11 (cmdTag x.ws) (cmdOp x.ws)))
  if o.unrep ≠ 0 then markDefect
  writeOutRow x.req t row o
  reportNf x.nf o.nf

/-- Write the outputs of a line (R128, R129), or keep them where the rest of their blocks is still to come. -/
def writeOuts (x : DrainCtx) (ln : Line) (vs : List Val) (l : TileLoop) : Run TileLoop := do
  match x.out with
  | none => return l
  | some t =>
    let st ← look (arrayState · x.core ln.lane)
    let es : List OutElem := (ln.cols.zip vs).filterMap (fun (c, v) =>
      match c.o with
      | some o => if c.write then some { pos := o, v := if c.zero then Val.zero else v, draw := draw24 st c.unit }
                  else none
      | none => none)
    if x.gather then return { l with outs := l.outs ++ es.map (fun e => (ln.row, e)) }
    writeConverted x t ln.row es
    return l

/-- An element put in its place among those of a row, behind one of the same position. -/
def placeElem : List OutElem → OutElem → List OutElem
  | [], e => [e]
  | x :: t, e => if x.pos ≤ e.pos then x :: placeElem t e else e :: x :: t

/-- Write the outputs that a stage has kept. -/
def flushOuts (x : DrainCtx) (l : TileLoop) : Run TileLoop := do
  match x.out with
  | none => return l
  | some t =>
    ((l.outs.map (·.1)).eraseDups).forM (fun row =>
      writeConverted x t row (((l.outs.filter (fun y => y.1 = row)).map (·.2)).foldl placeElem []))
    return { l with outs := [] }

/-- The FP32 total y that the fusions see (R130). -/
def fusionVal (v : Val) : Val := rne32 v

/-- One chunk of a tile, from its products to the end of its drain. -/
def runChunk (x : DrainCtx) (lines : List Line) (first last : Bool) (w : ChunkWork) (l : TileLoop) : Run TileLoop := do
  let (l, beats, as) ← w l
  noteProducts x beats as.flatten
  let s ← look id
  let deltas := lines.map (fun ln => ln.cols.map (fun c => faultDelta s x.core ln.lane c.unit))
  let olds ← lines.mapM (oldTotals x first)
  let vs := ((as.zip deltas).zip olds).map (fun ((a, d), o) =>
    ((a.zip d).zip o).map (fun ((a, d), o) =>
      ({ a with sum := { a.sum with sum := a.sum.sum + d } } : Acc).promote o))
  let all := vs.flatten
  let bad := (all.filter (fun v => (fusionVal v).nonfinite)).length
  act (fun s => bump (bump s (.array x.core) 3 all.length) (.array x.core) 4 bad)
  if x.tot.isSome then reportNf x.nf (bad ≠ 0)
  let l ← noteChecks x lines as deltas l
  (lines.zip vs).forM (fun (ln, v) => writeTotals x ln v)
  if !last then return l
  let l ← if x.final then (lines.zip vs).foldlM (fun l (ln, v) => writeOuts x ln v l) l else pure l
  let l ← if x.final then
      (lines.zip vs).foldlM (fun l (ln, v) =>
        feedStats x l ln.row (((ln.cols.zip v).filter (fun (c, _) => c.write)).map (fun (c, v) => (c.idx, fusionVal v)))) l
    else pure l
  let kept := (lines.zip vs).flatMap (fun (ln, v) =>
    (ln.cols.zip v).filterMap (fun (c, v) => c.keep.map (fun n => (n, fusionVal v))))
  return { l with kept := l.kept ++ kept }

/-- The chunks of a tile in turn. -/
def runChunks (x : DrainCtx) (lines : List Line) : Bool → List ChunkWork → TileLoop → Run TileLoop
  | _, [], l => pure l
  | first, w :: ws, l => do
    let l ← runChunk x lines first (ws.length = 0) w l
    runChunks x lines false ws l

/-- The tiles in turn, until one of them stops the command (R141). -/
def runTiles (x : DrainCtx) : List OutTile → TileLoop → Run (TileLoop × Option Status)
  | [], l => pure (l, none)
  | t :: ts, l => do
    match ← attempt (runChunks x t.lines true t.chunks l) with
    | .ok l => runTiles x ts l
    | .error st => return (l, some st)

/-- The stages in turn. -/
def runStages (x : DrainCtx) : List TileStage → TileLoop → Run (TileLoop × Option Status)
  | [], l => pure (l, none)
  | g :: gs, l => do
    match ← attempt (g l) with
    | .error st => return (l, some st)
    | .ok (l, ts) =>
      match ← runTiles x ts l with
      | (l, some st) => return (l, some st)
      | (l, none) =>
        match ← attempt (flushOuts x l) with
        | .ok l => runStages x gs l
        | .error st => return (l, some st)

/-- The statistics of the finished rows are written at the end (R130, R141). -/
def writeStats (x : DrainCtx) (l : TileLoop) : Run Unit :=
  match x.stat with
  | some t => (l.stats.filter (fun y => y.2.seen = x.width)).forM (fun y => writeStat x t y.1 y.2)
  | none => pure ()

/-- The CHECKSUM record of a command that mismatched: it goes when the command completes, with the masks of the whole
command (R418, R422). -/
def checksumRecord (s : State) (x : DrainCtx) (l : TileLoop) : State :=
  if l.mism = 0 then s
  else sendRecord s (.array x.core) Cause.CHECKSUM
    { tag := cmdTag x.ws, opcode := cmdOp x.ws,
      syn := [l.rows, l.cols, wordOf (x.fmtA + 16 * x.fmtB + if x.window then 256 else 0), wordOf l.mism] } none

/-- Drive a product over its stages. -/
def driveTiles (x : DrainCtx) (gs : List TileStage) (l : TileLoop) : Run (TileLoop × Option Status) := do
  let (l, st) ← runStages x gs l
  match st with
  | none => writeStats x l
  | some _ =>
    let _ ← attempt (writeStats x l)
    pure ()
  act (fun s => checksumRecord s x l)
  return (l, st)

/-- The end of a product: the status that stopped it, if one did. -/
def endTiles : Option Status → Run Unit
  | some st => stop st
  | none => pure ()

/-! ### Validation (R139) -/

/-- Batch, rows and last extent of a rank-2 or rank-3 tensor. -/
def Desc.bmn (d : Desc) : Nat × Nat × Nat :=
  if d.rank = 3 then (d.ext 0, d.ext 1, d.ext 2) else (1, d.ext 0, d.ext 1)

/-- The reachable ranges of a tensor, its scale tensor among them. -/
def Tensor.ranges (t : Tensor) : List (Int × Int) :=
  t.d.range :: (match t.sc with
    | some sc => [sc.range]
    | none => [])

/-- Does any range of one list meet one of another? -/
def rangesMeet (a b : List (Int × Int)) : Bool := a.any (fun (l, h) => b.any (fun (l', h') => l ≤ h' && l' ≤ h))

/-- Does a range lie in one memory of a core, on this device? -/
def rangeInCore (s : State) (c : CoreId) (m : CoreMem) (r : Int × Int) : Bool :=
  let a : Int := (nodeId s).val * 2 ^ 48 + coreAddr c m 0
  a ≤ r.1 && r.2 < a + memSize m

/-- Do the extents of a MATMUL agree with R104, R121 or R123? -/
def matmulShape (mode : Nat) (a b c : Desc) : Bool :=
  if mode = 2 then a.rank = 3 && b.exts = a.exts && c.exts = a.exts.drop 1
  else
    let (ba, m, k) := a.bmn
    let (bb, n, kb) := b.bmn
    let (bc, mc, nc) := c.bmn
    (a.rank = 2 || a.rank = 3) && (b.rank = 2 || b.rank = 3) && (c.rank = 2 || c.rank = 3) &&
    ba = bc && (bb = ba || bb = 1) && k = kb && m = mc &&
    (if mode = 1 then n = m && nc = 1 else nc = n)

/-- Has the statistics tensor a 32-byte record for each row (assumption 23)? -/
def statShape (c : Desc) : Option Tensor → Bool
  | some t => c.rows ≤ t.d.rows && 32 ≤ t.d.rowBytes && !t.d.bcast
  | none => true

/-- The bad operands of R139 that every product shares. -/
def badOperands (s : State) (c : CoreId) (ws : List Word) (ins : List (Int × Int)) (fmts : List Nat) (tot : Tensor)
    (out stat : Option Tensor) : Bool :=
  let outs := [tot.ranges] ++ (out.toList.map Tensor.ranges) ++ (stat.toList.map Tensor.ranges)
  let f := cf ws 5 3 0
  fmts.any (fun x => !isOperandFmt x) || !(tot.d.fmt = 0x7 || tot.d.fmt = 0xD) ||
  !rangeInCore s c .pm tot.d.range || out.toList.any (fun t => !isOutFmt t.d.fmt) ||
  (f ≠ 0 && stat.isNone) ||
  (f.testBit 3 && (let v := f32 (wordAt ws 6); v.nonfinite || v.isNeg || v.isZero)) ||
  outs.any (fun o => rangesMeet o ins) ||
  outs.zipIdx.any (fun (o, i) => (outs.drop (i + 1)).any (rangesMeet o))

/-- FORMAT_DEGRADED (R139). -/
def degraded (s : State) (c : CoreId) (fmts : List Nat) : Bool :=
  rbit s (.array c) Reg.Arr.PRECISION 0 && fmts.any (fun x => x = 0x5 || x = 0x6)

/-- Stop DEFECT with a cause of the array page. -/
def arrayDefect {α : Type} (c : CoreId) (ws : List Word) (cause : Nat) : Run α :=
  defectAt (.array c) cause (cmdTag ws) (cmdOp ws)

/-! ### MATMUL -/

/-- Groups of at most `g` of the numbers from 0. -/
def groups (n g : Nat) : List (Nat × Nat) := cuts g (n / g + 2) 0 n

/-- The columns of a tile without a neuron list. -/
def plainCols (ws : List Word) (j0 n : Nat) : List Col :=
  (List.range n).map (fun u =>
    { unit := u, c := j0 + u, o := some (j0 + u), idx := signed 32 (wordAt ws 7).toNat + (j0 + u : Nat), keep := none,
      write := true, zero := false })

/-- The lines of a tile: rows `m0 … m0 + n - 1` of totals on the active lanes. -/
def linesOf (lanes : List Nat) (m0 n : Nat) (cols : List Col) : List Line :=
  (List.range n).map (fun l => { lane := lanes.getD l 0, row := m0 + l, cols := cols })

/-- The beats of a chunk in product mode: 32 positions each, whatever the formats (R104, R111), so that a chunk of 32
products is one beat (R116). -/
def productBeats (n : Nat) : Nat := cdiv n 32

/-- The tiles of MATMUL in product mode, row-major (R104, R116). -/
def productTiles (c : CoreId) (ws : List Word) (rq : Req) (lanes : List Nat) (a b : Tensor) : List OutTile :=
  let (nb, m, k) := a.d.bmn
  let (bb, n, _) := b.d.bmn
  let len := 2 ^ cf ws 4 4 0
  (List.range nb).flatMap (fun i => (groups m lanes.length).flatMap (fun (m0, mn) => (groups n 32).map (fun (n0, nn) =>
    { lines := linesOf lanes (i * m + m0) mn (plainCols ws n0 nn),
      chunks := (groups k len).map (fun (k0, kn) => fun l => do
        let xs ← (List.range mn).mapM (fun j => readElems rq a (i * m + m0 + j) k0 kn)
        let ys ← (List.range nn).mapM (fun j => readElems rq b ((if bb = 1 then 0 else i) * n + n0 + j) k0 kn)
        noteFf c k0 (xs ++ ys)
        return (l, productBeats kn, xs.map (fun x => ys.map (dot x)))) })))

/-- The tiles of MATMUL in cascade mode: one row each, formed in unit (31, 31) (R121). -/
def cascadeTiles (c : CoreId) (ws : List Word) (rq : Req) (a b : Tensor) : List OutTile :=
  let (nb, m, k) := a.d.bmn
  let (bb, _, _) := b.d.bmn
  let len := max 1024 (2 ^ cf ws 4 4 0)
  (List.range nb).flatMap (fun i => (List.range m).map (fun j =>
    { lines := [{ lane := 31, row := i * m + j, cols := (plainCols ws 0 1).map (fun c => { c with unit := 31 }) }],
      chunks := (groups k len).map (fun (k0, kn) => fun l => do
        let x ← readElems rq a (i * m + j) k0 kn
        let y ← readElems rq b ((if bb = 1 then 0 else i) * m + j) k0 kn
        noteFf c k0 [x, y]
        return (l, cdiv kn 1024, [[dot x y]])) }))

/-- The tiles of MATMUL in element-wise mode (R123). -/
def elementTiles (c : CoreId) (ws : List Word) (rq : Req) (lanes : List Nat) (a b : Tensor) : List OutTile :=
  let (t, m, n) := a.d.bmn
  let len := 2 ^ cf ws 4 4 0
  (groups m lanes.length).flatMap (fun (m0, mn) => (groups n 32).map (fun (n0, nn) =>
    { lines := linesOf lanes m0 mn (plainCols ws n0 nn),
      chunks := (groups t len).map (fun (t0, tn) => fun l => do
        let rows ← (List.range mn).mapM (fun j => (List.range tn).mapM (fun i => do
          let x ← readElems rq a ((t0 + i) * m + m0 + j) n0 nn
          let y ← readElems rq b ((t0 + i) * m + m0 + j) n0 nn
          noteFf c n0 [x, y]
          return x.zip y))
        let acc (ts : List (List (Elem × Elem))) (u : Nat) : Acc :=
          ts.foldl (fun a r => match r[u]? with
            | some (x, y) => a.term x y
            | none => a) Acc.zero
        return (l, tn, rows.map (fun ts => (List.range nn).map (acc ts)))) }))

/-- MATMUL, from its first descriptor read to its end. -/
def runMatmul (c : CoreId) (x : Slot) : Run Unit := do
  let ws := x.words
  let f : FrontId := .cp c
  let mode := cf ws 4 6 5
  act (fun s => latchPage s f x.id (.gme c))
  let a ← loadDesc f ws (cf ws 2 15 0) 0
  let b ← loadDesc f ws (cf ws 2 31 16) 0
  let t ← loadDesc f ws (cf ws 3 15 0) 0
  let o ← loadOpt f ws (cf ws 3 31 16) 0
  let st ← loadOpt f ws (cf ws 5 31 16) 0
  checkDest f ws t
  checkDestOpt f ws o
  checkDestOpt f ws st
  if !matmulShape mode a.d b.d t.d || o.toList.any (fun o => o.d.exts ≠ t.d.exts) || !statShape t.d st then
    arrayDefect c ws 8
  let s ← look id
  let fmts := [a.d.fmt, b.d.fmt]
  if badOperands s c ws (a.ranges ++ b.ranges) fmts t o st then arrayDefect c ws 9
  if degraded s c fmts then arrayDefect c ws 12
  if mode = 1 && rbit s (.array c) Reg.Arr.LANE_RETIRED 31 then arrayDefect c ws 13
  let lanes := activeLanes s c
  if lanes = [] then stop .defect
  act (fun s => latchPage s f x.id (.array c))
  let rq := cmdReq (.gme c) ws
  let d : DrainCtx :=
    { core := c, ws := ws, tot := some t, out := o, stat := st, width := t.d.last,
      checks := mode = 0 && checksOn s c (cb ws 4 11), colChecks := true, window := false, fmtA := a.d.fmt,
      fmtB := b.d.fmt, gather := false }
  let tiles := match mode with
    | 0 => productTiles c ws rq lanes a b
    | 1 => cascadeTiles c ws rq a b
    | _ => elementTiles c ws rq lanes a b
  let (_, e) ← driveTiles d [plainStage tiles] TileLoop.start
  endTiles e

/-- Run a MATMUL of the given mode, where the slot holds one that may start. -/
def startMatmul (c : CoreId) (slot mode : Nat) (s : State) : State :=
  match startable s (.cp c) slot false with
  | some x =>
    if cf x.words 4 6 5 = mode then
      startCommand s (.cp c) slot [0x01] false (fun s x => runSlot s (.cp c) x (runMatmul c x))
    else s
  | none => s

/-- MATMUL: C = A × Bᵀ on the whole array. -/
def execMatmul (c : CoreId) (slot : Nat) (s : State) : Host.Outcome State Fault Refusal :=
  .next (startMatmul c slot 0 s)

/-- MATMUL in cascade mode: sums of products of rows, down lane 31. -/
def execMatmulCascade (c : CoreId) (slot : Nat) (s : State) : Host.Outcome State Fault Refusal :=
  .next (startMatmul c slot 1 s)

/-- MATMUL in element-wise mode: one product for each element and index t. -/
def execMatmulElementWise (c : CoreId) (slot : Nat) (s : State) : Host.Outcome State Fault Refusal :=
  .next (startMatmul c slot 2 s)

end Sys2Proof.Machine
end

