-- ==== Sys2Proof/Machine/Crypto.lean ====
section
/-!
DEFINITION. SHA-512 and ECDSA over P-521, which the image, the attestation report and the unlock token name (R488, R499,
R503). The constants are those of the standards that the names stand for (PRESUMED: the specification repeats none of
them).
-/
namespace Sys2Proof.Machine

/-! ### SHA-512 -/

/-- A 64-bit word. -/
abbrev Word64 : Type := BitVec 64

/-- The round constants. -/
def shaK : List Word64 :=
  [0x428A2F98D728AE22, 0x7137449123EF65CD, 0xB5C0FBCFEC4D3B2F, 0xE9B5DBA58189DBBC] ++
  [0x3956C25BF348B538, 0x59F111F1B605D019, 0x923F82A4AF194F9B, 0xAB1C5ED5DA6D8118] ++
  [0xD807AA98A3030242, 0x12835B0145706FBE, 0x243185BE4EE4B28C, 0x550C7DC3D5FFB4E2] ++
  [0x72BE5D74F27B896F, 0x80DEB1FE3B1696B1, 0x9BDC06A725C71235, 0xC19BF174CF692694] ++
  [0xE49B69C19EF14AD2, 0xEFBE4786384F25E3, 0x0FC19DC68B8CD5B5, 0x240CA1CC77AC9C65] ++
  [0x2DE92C6F592B0275, 0x4A7484AA6EA6E483, 0x5CB0A9DCBD41FBD4, 0x76F988DA831153B5] ++
  [0x983E5152EE66DFAB, 0xA831C66D2DB43210, 0xB00327C898FB213F, 0xBF597FC7BEEF0EE4] ++
  [0xC6E00BF33DA88FC2, 0xD5A79147930AA725, 0x06CA6351E003826F, 0x142929670A0E6E70] ++
  [0x27B70A8546D22FFC, 0x2E1B21385C26C926, 0x4D2C6DFC5AC42AED, 0x53380D139D95B3DF] ++
  [0x650A73548BAF63DE, 0x766A0ABB3C77B2A8, 0x81C2C92E47EDAEE6, 0x92722C851482353B] ++
  [0xA2BFE8A14CF10364, 0xA81A664BBC423001, 0xC24B8B70D0F89791, 0xC76C51A30654BE30] ++
  [0xD192E819D6EF5218, 0xD69906245565A910, 0xF40E35855771202A, 0x106AA07032BBD1B8] ++
  [0x19A4C116B8D2D0C8, 0x1E376C085141AB53, 0x2748774CDF8EEB99, 0x34B0BCB5E19B48A8] ++
  [0x391C0CB3C5C95A63, 0x4ED8AA4AE3418ACB, 0x5B9CCA4F7763E373, 0x682E6FF3D6B2B8A3] ++
  [0x748F82EE5DEFB2FC, 0x78A5636F43172F60, 0x84C87814A1F0AB72, 0x8CC702081A6439EC] ++
  [0x90BEFFFA23631E28, 0xA4506CEBDE82BDE9, 0xBEF9A3F7B2C67915, 0xC67178F2E372532B] ++
  [0xCA273ECEEA26619C, 0xD186B8C721C0C207, 0xEADA7DD6CDE0EB1E, 0xF57D4F7FEE6ED178] ++
  [0x06F067AA72176FBA, 0x0A637DC5A2C898A6, 0x113F9804BEF90DAE, 0x1B710B35131C471B] ++
  [0x28DB77F523047D84, 0x32CAAB7B40C72493, 0x3C9EBE0A15C9BEBC, 0x431D67C49C100D4C] ++
  [0x4CC5D4BECB3E42B6, 0x597F299CFC657E2A, 0x5FCB6FAB3AD6FAEC, 0x6C44198C4A475817]

/-- The initial hash value. -/
def shaInit : List Word64 :=
  [0x6A09E667F3BCC908, 0xBB67AE8584CAA73B, 0x3C6EF372FE94F82B, 0xA54FF53A5F1D36F1] ++
  [0x510E527FADE682D1, 0x9B05688C2B3E6C1F, 0x1F83D9ABFB41BD6B, 0x5BE0CD19137E2179]

/-- A number read from bytes, most significant first. -/
def beNat (l : List Byte) : Nat := l.foldl (fun n b => n * 256 + b.toNat) 0

/-- `n` bytes of a number, most significant first. -/
def beBytes (n v : Nat) : List Byte := (leBytes n v).reverse

/-- Word `i` of a list, zero past its end. -/
def w64 (l : List Word64) (i : Nat) : Word64 := l.getD i 0

/-- The next word of the message schedule; the words are held newest first. -/
def shaNext (l : List Word64) : Word64 :=
  let a := w64 l 1
  let b := w64 l 14
  let s1 := a.rotateRight 19 ^^^ a.rotateRight 61 ^^^ (a >>> 6)
  let s0 := b.rotateRight 1 ^^^ b.rotateRight 8 ^^^ (b >>> 7)
  s1 + w64 l 6 + s0 + w64 l 15

/-- The message schedule of a block, newest first. -/
def shaSchedule : Nat → List Word64 → List Word64
  | 0, l => l
  | n + 1, l => shaSchedule n (shaNext l :: l)

/-- One round over the eight working variables. -/
def shaRound (v : List Word64) (kw : Word64 × Word64) : List Word64 :=
  let a := w64 v 0
  let e := w64 v 4
  let s1 := e.rotateRight 14 ^^^ e.rotateRight 18 ^^^ e.rotateRight 41
  let ch := (e &&& w64 v 5) ^^^ (~~~ e &&& w64 v 6)
  let t1 := w64 v 7 + s1 + ch + kw.1 + kw.2
  let s0 := a.rotateRight 28 ^^^ a.rotateRight 34 ^^^ a.rotateRight 39
  let maj := (a &&& w64 v 1) ^^^ (a &&& w64 v 2) ^^^ (w64 v 1 &&& w64 v 2)
  [t1 + s0 + maj, a, w64 v 1, w64 v 2, w64 v 3 + t1, e, w64 v 5, w64 v 6]

/-- The words of a block of 128 bytes. -/
def shaWords (l : List Byte) : List Word64 :=
  (List.range 16).map (fun i => BitVec.ofNat 64 (beNat ((l.drop (8 * i)).take 8)))

/-- Take one block of 128 bytes. -/
def shaBlock (h : List Word64) (l : List Byte) : List Word64 :=
  let w := (shaSchedule 64 (shaWords l).reverse).reverse
  let v := (shaK.zip w).foldl shaRound h
  (h.zip v).map (fun (x : Word64 × Word64) => x.1 + x.2)

/-- `n` blocks in turn. -/
def shaBlocks : Nat → List Word64 → List Byte → List Word64
  | 0, h, _ => h
  | n + 1, h, l => shaBlocks n (shaBlock h (l.take 128)) (l.drop 128)

/-- The padding of a message of `n` bytes. -/
def shaPad (n : Nat) : List Byte := 0x80 :: (List.replicate ((239 - n % 128) % 128) 0 ++ beBytes 16 (8 * n))

/-- SHA-512 of some bytes: 64 bytes. -/
def sha512 (l : List Byte) : List Byte :=
  let m := l ++ shaPad l.length
  (shaBlocks (m.length / 128) shaInit m).flatMap (fun w => beBytes 8 w.toNat)

/-! ### P-521 -/

namespace P521
/-- The field's prime. -/
def p : Nat := 2 ^ 521 - 1
/-- The order of the base point. -/
def n : Nat := 0x1FFFFFFFFFFFFFFFFFFFFFFFFFFFFFFFFFFFFFFFFFFFFFFFFFFFFFFFFFFFFFFFFFA51868783BF2F966B7FCC0148F709A5D03BB5C9B8899C47AEBB6FB71E91386409
/-- The curve is y^2 = x^3 - 3 x + b. -/
def b : Nat := 0x51953EB9618E1C9A1F929A21A0B68540EEA2DA725B99B315F3B8B489918EF109E156193951EC7E937B1652C0BD3BB1BF073573DF883D2C34F1EF451FD46B503F00
/-- The base point. -/
def gx : Nat := 0xC6858E06B70404E9CD9E3ECB662395B4429C648139053FB521F828AF606B4D3DBAA14B5E77EFE75928FE1DC127A2FFA8DE3348B3C1856A429BF97E7E31C2E5BD66
/-- Its second coordinate. -/
def gy : Nat := 0x11839296A789A3BC0045C8A5FB42C7D1BD998F54449579B446817AFBD17273E662C97EE72995EF42640C550B9013FAD0761353C7086A272C24088BE94769FD16650
end P521

/-- `a ^ e` modulo `m`; the bits of `e` are taken `f` of them from the lowest. -/
def powMod (m : Nat) : Nat → Nat → Nat → Nat
  | 0, _, _ => 1
  | f + 1, a, e =>
    let r := powMod m f (a * a % m) (e / 2)
    if e % 2 = 1 then a * r % m else r

/-- The inverse modulo a prime of at most 521 bits. -/
def invMod (m a : Nat) : Nat := powMod m 521 (a % m) (m - 2)

/-- `a - b` modulo `m`. -/
def subMod (m a b : Nat) : Nat := (a + m - b % m) % m

/-- A point of the curve; none is the point at infinity. -/
abbrev Point : Type := Option (Nat × Nat)

/-- Is a point with coordinates below p on the curve? -/
def onCurve (x y : Nat) : Bool :=
  x < P521.p && y < P521.p && y * y % P521.p = subMod P521.p (x * x * x + P521.b) (3 * x)

/-- The sum of two points on the line of slope `l`. -/
def chord (l x1 y1 x2 : Nat) : Point :=
  let x := subMod P521.p (l * l) (x1 + x2)
  some (x, subMod P521.p (l * subMod P521.p x1 x) y1)

/-- Add two points. -/
def pointAdd (a b : Point) : Point :=
  match a, b with
  | none, b => b
  | a, none => a
  | some (x1, y1), some (x2, y2) =>
    if x1 = x2 then
      if (y1 + y2) % P521.p = 0 then none
      else chord (subMod P521.p (3 * x1 * x1) 3 * invMod P521.p (2 * y1) % P521.p) x1 y1 x2
    else chord (subMod P521.p y2 y1 * invMod P521.p (subMod P521.p x2 x1) % P521.p) x1 y1 x2

/-- `k` times a point, over `f` bits of `k`. -/
def pointMul : Nat → Nat → Point → Point
  | 0, _, _ => none
  | f + 1, k, a =>
    let r := pointMul f (k / 2) (pointAdd a a)
    if k % 2 = 1 then pointAdd a r else r

/-- The base point. -/
def basePoint : Point := some (P521.gx, P521.gy)

/-- Verify a signature (r, s) over the hash of a message. -/
def ecdsaVerify (x y : Nat) (hash : List Byte) (r s : Nat) : Bool :=
  if onCurve x y && 0 < r && r < P521.n && 0 < s && s < P521.n then
    let w := invMod P521.n s
    let u := beNat hash * w % P521.n
    let v := r * w % P521.n
    match pointAdd (pointMul 521 u basePoint) (pointMul 521 v (some (x, y))) with
    | some (x, _) => x % P521.n = r
    | none => false
  else false

/-- Sign a hash with a private key and a secret number of the signature. -/
def ecdsaSign (d k : Nat) (hash : List Byte) : Nat × Nat :=
  match pointMul 521 k basePoint with
  | some (x, _) =>
    let r := x % P521.n
    (r, invMod P521.n k * (beNat hash + r * d) % P521.n)
  | none => (0, 0)

/-- A public key uncompressed: 0x04, then X and Y of 66 bytes each (R488). -/
def keyBytes (a : Point) : List Byte :=
  match a with
  | some (x, y) => 4 :: (beBytes 66 x ++ beBytes 66 y)
  | none => List.replicate 133 0

/-- r then s, 66 bytes each (R488). -/
def sigBytes (x : Nat × Nat) : List Byte := beBytes 66 x.1 ++ beBytes 66 x.2

/-- Verify a signature of 132 bytes under a key of 133 bytes. -/
def verifyBytes (key sig hash : List Byte) : Bool :=
  key.headD 0 = 4 &&
    ecdsaVerify (beNat ((key.drop 1).take 66)) (beNat ((key.drop 67).take 66)) hash (beNat (sig.take 66))
      (beNat ((sig.drop 66).take 66))

end Sys2Proof.Machine
end

