-- ==== Sys2Proof/Machine/Image.lean ====
section
/-!
DEFINITION. The Obast image: its sealed stream, header and sections (R483–R487), its signatures (R488), and what the steward
checks before it accepts one (R489, R490).
-/
namespace Sys2Proof.Machine

/-- `n` bytes from an offset. -/
def slice (l : List Byte) (off n : Nat) : List Byte := (l.drop off).take n

/-- The word at a byte offset. -/
def wordIn (l : List Byte) (off : Nat) : Nat := leNat (slice l off 4)

/-- Are `n` bytes from an offset zero? -/
def zeroIn (l : List Byte) (off n : Nat) : Bool := (slice l off n).all (fun b => b = 0)

/-- Bytes of a block of the image's stream, and of its payload (R483). -/
abbrev imageBlock : Nat := 4096

/-- Payload bytes of a block. -/
abbrev imagePayload : Nat := 4080

/-- Does a block verify with the expected alive counter (R470, R489 step 1)? -/
def imageBlockOk (l : List Byte) (e : Nat) : Bool :=
  leNat (slice l 4088 8) = crc32c.of (l.take 4088) && wordIn l 4084 = 0x0B57 && wordIn l 4080 = e

/-- The payload of `n` blocks, the first with alive counter `e`; none where one fails. -/
def openStream : Nat → Nat → List Byte → Option (List Byte)
  | 0, _, _ => some []
  | n + 1, e, l =>
    if imageBlockOk (l.take imageBlock) e then
      (openStream n ((e + 1) % 2 ^ 32) (l.drop imageBlock)).map (fun t => l.take imagePayload ++ t)
    else none

/-- A section of an image: type, offset and length in the payload. -/
structure Section_ where
  type : Nat
  off  : Nat
  len  : Nat
  deriving DecidableEq, Repr

/-- The six entries of the section table (R483). -/
def sectionsOf (l : List Byte) : List Section_ :=
  (List.range 6).map (fun i =>
    let o := 64 + 16 * i
    { type := wordIn l o % 256, off := wordIn l (o + 4), len := wordIn l (o + 8) })

/-- LENGTH of the header. -/
def imageLength (l : List Byte) : Nat := wordIn l 8

/-- Do sections lie in order, aligned, apart and within LENGTH (R483)? The first begins at or after `lo`. -/
def sectionsLie (len : Nat) : Nat → List Section_ → Bool
  | _, [] => true
  | lo, x :: t => lo ≤ x.off && x.off % 64 = 0 && x.off + x.len ≤ len && sectionsLie len (x.off + x.len) t

/-- The header and the table have the form of R483. -/
def headerOk (l : List Byte) : Bool :=
  let n := imageLength l
  wordIn l 0 = 0x5453424F && wordIn l 4 = 1 + 6 * 65536 && n % 64 = 0 && 160 ≤ n && n + 512 ≤ l.length &&
  wordIn l 12 = 0x3200 && leNat (slice l 24 8) ≤ leNat (slice l 16 8) && zeroIn l 32 32 &&
  (List.range 6).all (fun i => zeroIn l (64 + 16 * i + 1) 3 && zeroIn l (64 + 16 * i + 12) 4) &&
  sectionsLie n 160 (sectionsOf l)

/-- The types that an image has, each exactly once (R484). -/
def sectionTypes : List Nat := [0x01, 0x02, 0x03, 0x10, 0x11, 0x12]

/-- Each type appears exactly once, and no other. -/
def typesOk (l : List Byte) : Bool := sectionTypes.all (fun t => (sectionsOf l).countP (fun x => x.type = t) = 1)

/-- The bytes of the section of a type. -/
def sectionBytes (l : List Byte) (t : Nat) : List Byte :=
  match (sectionsOf l).find? (fun x => x.type = t) with
  | some x => slice l x.off x.len
  | none => []

/-- The firmware sections, concatenated in table order (R488). -/
def firmware (l : List Byte) : List Byte :=
  ((sectionsOf l).filter (fun x => x.type < 0x10)).flatMap (fun x => slice l x.off x.len)

/-- DEVICE_CONFIG holds values in their ranges (R485). -/
def deviceConfigOk (d : List Byte) : Bool :=
  d.length = 128 && leNat (d.take 2) < 32768 && leNat (slice d 2 1) ≤ 11 && leNat (slice d 3 1) ≤ 1 &&
  (slice d 4 32).all (fun b => b.toNat ≤ 3) && (slice d 36 32).all (fun b => b.toNat ≤ 50 && b.toNat % 10 = 0) &&
  zeroIn d 68 60

/-- The entries of REPAIR_MAP (R486): KIND, die, UNIT, ITEM. -/
def repairEntries (d : List Byte) : List (Nat × Nat × Nat × Nat) :=
  (List.range (d.length / 8)).map (fun i =>
    (leNat (slice d (8 * i) 1), leNat (slice d (8 * i + 1) 1), leNat (slice d (8 * i + 2) 2), wordIn d (8 * i + 4)))

/-- Does a repair entry name something that its die has? UNIT counts the cores, stacks, ports or links of the die. -/
def repairOk (e : Nat × Nat × Nat × Nat) : Bool :=
  match e with
  | (1, d, u, _) | (2, d, u, _) => d < 16 && u < 8
  | (3, d, u, x) | (4, d, u, x) => d < 16 && u < 8 && x = 0
  | (5, d, u, _) | (6, d, u, _) => 24 ≤ d && d < 28 && u < 4
  | (7, d, u, x) => 28 ≤ d && d < 30 && u < 8 && x < 16
  | (8, d, u, x) => d < 32 && u < 4 && x < 65536
  | _ => false

/-- HOST_CONFIG holds values in their ranges (R487). -/
def hostConfigOk (d : List Byte) : Bool :=
  let sizes := leNat (slice d 4 2)
  let k := leNat (slice d 6 1)
  d.length = 32 && sizes < 512 && sizes ≠ 0 && sizes.testBit k && zeroIn d 7 25

/-- The configuration sections meet R485 to R487. -/
def configOk (l : List Byte) : Bool :=
  let m := sectionBytes l 0x11
  deviceConfigOk (sectionBytes l 0x10) && m.length % 8 = 0 && (repairEntries m).all repairOk &&
  hostConfigOk (sectionBytes l 0x12)

/-- What an accepted image gives the device. -/
structure Image where
  serial   : Nat
  floor    : Nat
  hash     : List Byte
  ownerKey : List Byte
  device   : List Byte
  repair   : List (Nat × Nat × Nat × Nat)
  host     : List Byte
  deriving DecidableEq, Repr

/-- The Fenand release key (R488). -/
def releaseKey : List Byte := keyBytes (some (Config.releaseKeyX, Config.releaseKeyY))

/-- The checks of R489 over a payload, in order; a failure answers its REASON (R479). `owner` is the key hash that the image's
owner key must have; none where step 5 is skipped (R490, R502). -/
def checkPayload (l : List Byte) (minSerial : Nat) (owner : Option (List Byte)) : Except Nat Image :=
  let n := imageLength l
  let key := slice l n 133
  let serial := leNat (slice l 16 8)
  if !headerOk l then .error 1
  else if !typesOk l then .error 7
  else if serial < minSerial then .error 3
  else if !verifyBytes releaseKey (slice l (n + 136) 132) (sha512 (firmware l)) then .error 2
  else if owner.any (fun h => h ≠ sha512 key) then .error 4
  else if !verifyBytes key (slice l (n + 268) 132) (sha512 (l.take (n + 268))) then .error 2
  else if !configOk l then .error 7
  else .ok { serial := serial, floor := leNat (slice l 24 8), hash := sha512 (l.take (n + 400)), ownerKey := key,
             device := sectionBytes l 0x10, repair := repairEntries (sectionBytes l 0x11),
             host := sectionBytes l 0x12 }

/-- The checks of R489 over a stream of whole blocks. -/
def checkImage (stream : List Byte) (minSerial : Nat) (owner : Option (List Byte)) : Except Nat Image :=
  if stream = [] || stream.length % imageBlock ≠ 0 then .error 1
  else
    match openStream (stream.length / imageBlock) 0 stream with
    | none => .error 1
    | some l => checkPayload l minSerial owner

end Sys2Proof.Machine
end

