-- ==== Sys2Proof/Machine/DescTable.lean ====
section
/-!
DEFINITION. Allocation tables (R151), descriptor tables (R153–R155, R294) and the creation, deletion and batch creation
of descriptors (R156–R164, R167–R169, R182).
-/
namespace Sys2Proof.Machine

/-- Does a key lie outside the range of `n` keys from `k`? -/
def outside (k n x : Nat) : Bool := x < k || k + n ≤ x

/-- Fill a range of one memory with zeros, good parity and good codewords (R154, R311, R478). Where an unlisted byte of
the range reads zero, its bytes simply leave the list. -/
def zeroRange (s : State) (k n : Nat) : State :=
  let s := if s.boot.phase = .ready && k + n ≤ slowBase then
      { s with mem := s.mem.filter (fun x => outside k n x.1) }
    else putBytes s k (List.replicate n 0)
  { s with badParity := s.badParity.filter (outside k n),
           larderFlips := s.larderFlips.filter (fun x => outside k n x.1),
           hbmFlips := s.hbmFlips.filter (fun x => outside k n x.1),
           reported := s.reported.filter (outside k n) }

/-- Is the owner a core's GME? -/
def isCore : FrontId → Bool
  | .cp _ => true
  | _ => false

/-! ### Registers of a table's owner -/

/-- Offset of a staged descriptor word (GME page; R294 for the engine pages). -/
def stageOff (f : FrontId) (n : Nat) : Nat := (if isCore f then Reg.Gme.DESC_STAGE else Reg.Upd.DESC_STAGE) + 4 * n
/-- Offset of DESC_CREATE. -/
def createOff (f : FrontId) : Nat := if isCore f then Reg.Gme.DESC_CREATE else Reg.Upd.DESC_CREATE
/-- Offset of DESC_RESULT. -/
def resultOff (f : FrontId) : Nat := if isCore f then Reg.Gme.DESC_RESULT else Reg.Upd.DESC_RESULT
/-- Offset of BATCH_FIRST. -/
def batchFirstOff (f : FrontId) : Nat := if isCore f then Reg.Gme.BATCH_FIRST else Reg.Upd.BATCH_FIRST
/-- Offset of BATCH_COUNT. -/
def batchCountOff (f : FrontId) : Nat := if isCore f then Reg.Gme.BATCH_COUNT else Reg.Upd.BATCH_COUNT
/-- Offset of the register that holds CLEARING in its bit 31. -/
def clearingOff (f : FrontId) : Nat := if isCore f then Reg.Gme.DESC_TABLE_OFFSET else Reg.Upd.DESC_TABLE_LOG2

/-- Is the table fill running (R154)? -/
def tableFilling (s : State) (f : FrontId) : Bool := rbit s (descBlock f) (clearingOff f) 31

/-- Start the table fill: CLEARING and BUSY read 1 (R154). -/
def startFill (s : State) (f : FrontId) : State :=
  rputBit (rputBit s (descBlock f) (clearingOff f) 31 true) (descBlock f) (resultOff f) 31 true

/-- Local address and bytes of a table. -/
def tablePlace (s : State) (f : FrontId) : Nat × Nat := (entryAddr s f 0, 64 * tableSize s f)

/-- The fill has run: every entry of the table is zero; it is a write like another for PARITY_INJECT (R307). -/
def finishFill (s : State) (f : FrontId) : State :=
  let (a, n) := tablePlace s f
  let s := zeroRange s a n
  let s := match f with
    | .cp c => injectParity s c .am (amTable s c).1 n
    | _ => s
  rputBit (rputBit s (descBlock f) (clearingOff f) 31 false) (descBlock f) (resultOff f) 31 false

/-- TABLE_FILL: the fill of a descriptor table completes. -/
def execTableFill (o : TableOwner) (s : State) : Host.Outcome State Fault Refusal :=
  .next (if tableFilling s o then finishFill s o else s)

/-! ### Where a table lies (R153, R154, R294) -/

/-- A table of 2^log2 entries at an AM offset lies in the AM, and log2 is one of 6–16 (R153). -/
def amTableOk (off log2 : Nat) : Bool := 6 ≤ log2 && log2 ≤ 16 && off + 64 * 2 ^ log2 ≤ memSize .am

/-- A write of DESC_TABLE_OFFSET or DESC_TABLE_LOG2, which gives the table this offset and size: taken while the CP is
idle and the table lies in the AM; the fill of the new range starts (R153, R154). -/
def writeAmTable (s : State) (c : CoreId) (off log2 : Nat) : State :=
  if !frontIdle s (.cp c) then raise s (.gme c) 9
  else if !amTableOk off log2 then raise s (.gme c) 10
  else
    let s := rputField s (.gme c) Reg.Gme.DESC_TABLE_OFFSET 24 6 (off / 64)
    startFill (rputField s (.gme c) Reg.Gme.DESC_TABLE_LOG2 4 0 log2) (.cp c)

/-- A write of DESC_TABLE_OFFSET. -/
def writeTableOffset (s : State) (c : CoreId) (v : Word) : State :=
  writeAmTable s c (bits v 24 6 * 64) (rfield s (.gme c) Reg.Gme.DESC_TABLE_LOG2 4 0)

/-- A write of a GME's DESC_TABLE_LOG2. -/
def writeTableLog2 (s : State) (c : CoreId) (v : Word) : State :=
  writeAmTable s c (rfield s (.gme c) Reg.Gme.DESC_TABLE_OFFSET 24 6 * 64) (bits v 4 0)

/-- DESC_TABLE_OFFSET. -/
def execDescTableOffset (c : CoreId) (v : Word) (s : State) : Host.Outcome State Fault Refusal :=
  .next (writeTableOffset s c v)

/-- DESC_TABLE_LOG2. -/
def execDescTableLog2 (c : CoreId) (v : Word) (s : State) : Host.Outcome State Fault Refusal :=
  .next (writeTableLog2 s c v)

/-- May an engine's table of 2^log2 entries lie at a local address (R294)? -/
def engineTableOk (s : State) (f : FrontId) (a log2 : Nat) : Bool :=
  let n := 64 * 2 ^ log2
  6 ≤ log2 && log2 ≤ 16 && a + n ≤ hbmSize &&
  (match f with
   | .hub h => hubRange s a = some h && hubRange s (a + n - 1) = some h
   | _ => true)

/-- A write of an engine's DESC_TABLE_LOG2: the staged base and the new size take effect together (R294). -/
def commitTable (s : State) (f : FrontId) (v : Word) : State :=
  if isCore f then s
  else
    let b := descBlock f
    let a := rget64 s b Reg.Upd.DESC_TABLE_BASE_LO Reg.Upd.DESC_TABLE_BASE_HI
    let log2 := bits v 4 0
    if !engineTableOk s f a log2 then raise s b (descCause f 2)
    else if !frontIdle s f then raise s b (descCause f 1)
    else
      let s := { s with tables := tset (0, 6) s.tables f.num (a, log2) }
      startFill (rputField s b Reg.Upd.DESC_TABLE_LOG2 4 0 log2) f

/-- TABLE_COMMIT. -/
def execTableCommit (o : TableOwner) (v : Word) (s : State) : Host.Outcome State Fault Refusal :=
  .next (commitTable s o v)

/-! ### Allocations (R151) -/

/-- Does a range of local bytes meet the condition of R151 for this device? -/
def allocHere (s : State) (a n : Nat) : Bool :=
  let e := a + n
  e ≤ hbmSize || (larderBase ≤ a && e ≤ directoryBase) ||
  (0x018000000000 ≤ a && e ≤ 0x018800000000 &&
    (let o := (a - 0x018000000000) % 2 ^ 32
     o + n ≤ directoryOff)) ||
  (coreBase ≤ a && e ≤ coreBase + 128 * 0x4000000 &&
    (let o := (a - coreBase) % 0x4000000
     [CoreMem.wm, .am, .pm].any (fun m => memStart m ≤ o && o + n ≤ memStart m + memSize m))) ||
  (slowBase ≤ a && e ≤ slowBase + 4 * slowWindow &&
    (let (p, o) := slowPlace a
     o + n ≤ expanderBytes s p))

/-- Does an allocation entry meet the conditions for VALID (R151)? -/
def allocOk (s : State) (x : AllocEntry) : Bool :=
  let n := 64 * x.size
  x.size ≠ 0 && x.base < 2 ^ 63 &&
  (if x.base / 2 ^ 48 = (nodeId s).val then allocHere s (x.base % 2 ^ 48) n else x.base % 2 ^ 48 + n < 2 ^ 48)

/-- Offset of ALLOC_CTRL of an entry. -/
def allocCtrl (e : Nat) : Nat := Reg.Gme.ALLOC_CTRL + 16 * e

/-- Writing 1 to ARM: the entry becomes VALID, or ALLOC_RANGE is raised (R151). -/
def armAlloc (s : State) (f : FrontId) (e : Nat) : State :=
  if allocOk s (getAlloc s f e) then rputBit s (descBlock f) (allocCtrl e) 31 true
  else raise (rputBit s (descBlock f) (allocCtrl e) 31 false) (descBlock f) (descCause f 3)

/-- ARM. -/
def execArm (o : TableOwner) (entry : Fin 128) (s : State) : Host.Outcome State Fault Refusal :=
  .next (armAlloc s o entry.val)

/-- A write of ALLOC_BASE_LO, ALLOC_BASE_HI or ALLOC_SIZE, at this offset: VALID is cleared and GEN counts (R151). -/
def writeAlloc (s : State) (f : FrontId) (e off : Nat) (v : Word) : State :=
  let b := descBlock f
  let s := rwrite s b off v
  let g := rfield s b (allocCtrl e) 23 8
  rputField (rputBit s b (allocCtrl e) 31 false) b (allocCtrl e) 23 8 ((g + 1) % 65536)

/-- ALLOC_BASE: a write of ALLOC_BASE_LO or of ALLOC_BASE_HI. -/
def execAllocBase (o : TableOwner) (entry : Fin 128) (high : Bool) (v : Word) (s : State) :
    Host.Outcome State Fault Refusal :=
  .next (writeAlloc s o entry.val ((if high then Reg.Gme.ALLOC_BASE_HI else Reg.Gme.ALLOC_BASE_LO) + 16 * entry.val) v)

/-- ALLOC_SIZE. -/
def execAllocSize (o : TableOwner) (entry : Fin 128) (v : Word) (s : State) : Host.Outcome State Fault Refusal :=
  .next (writeAlloc s o entry.val (Reg.Gme.ALLOC_SIZE + 16 * entry.val) v)

/-! ### Creation checks (R164) -/

/-- An entry as the checks see it: its words, or none past the table or where the read of it fails. -/
abbrev Lookup := Nat → Option (List Word)

/-- A VALID descriptor of an entry. -/
def lookupValid (l : Lookup) (i : Nat) : Option Desc :=
  match l i with
  | some w => if (descOf w).valid then some (descOf w) else none
  | none => none

/-- The extent and stride words of a staged descriptor. -/
def extWords (w : List Word) : List Nat := (List.range 6).map (fun d => (wordAt w (3 + d)).toNat)

/-- Stride words. -/
def strideWords (w : List Word) : List Nat := (List.range 5).map (fun d => (wordAt w (9 + d)).toNat)

/-- Code 1, RESERVED (R164): bits that must be zero for the KIND and RANK. -/
def badReserved (w : List Word) : Bool :=
  let kind := cf w 0 8 7
  let rank := cf w 0 6 4
  let zero (n : Nat) : Bool := wordAt w n = 0
  cb w 0 12 || cf w 0 31 20 ≠ 0 || cf w 0 3 0 = 0xF || cf w 0 10 9 = 3 || !zero 15 ||
  (match kind with
   | 0 => cf w 14 31 16 ≠ 0 || (List.range 5).any (fun d => rank ≤ d + 1 && !zero (9 + d))
   | 1 => cf w 9 31 21 ≠ 0 || cf w 10 31 21 ≠ 0 || [11, 12, 13, 14].any (fun n => !zero n)
   | 2 => cf w 0 3 0 ≠ 0 || cf w 14 31 16 ≠ 0 || (List.range 5).any (fun d => rank ≤ d + 1 && !zero (9 + d))
   | _ => cf w 0 3 0 ≠ 0 || cf w 0 19 13 ≠ 0 || cf w 0 10 9 ≠ 0 || cb w 0 11 || cf w 2 30 18 ≠ 0 ||
       (List.range 12).any (fun n => !zero (3 + n)))

/-- Code 2, RANK. -/
def badRank (d : Desc) : Bool := d.rank = 0 || 6 < d.rank || (d.kind = 1 && d.rank ≠ 2)

/-- Code 3, EXTENT; a plan has no extents. -/
def badExtent (d : Desc) : Bool :=
  d.kind ≠ 3 &&
  ((extWords d.words).zipIdx.any (fun (e, i) => if i < d.rank then e = 0 else e ≠ 0) ||
   (d.kind = 1 && d.exts.any (fun e => e % 128 ≠ 0)))

/-- Bytes of which an element's address is a multiple (code 6). -/
def elemAlign : Nat → Nat
  | 0x5 | 0x6 => 2
  | 0x7 | 0xE => 4
  | 0xD => 8
  | 0x2 | 0x3 | 0xA | 0xB => 3
  | _ => 1

/-- Code 5, RANGE. -/
def badRange (s : State) (f : FrontId) (d : Desc) : Bool :=
  let a := getAlloc s f d.alloc
  match d.kind with
  | 1 => !a.holds (d.base, d.base)
  | 3 => false
  | _ => !a.holds d.range

/-- Code 6, ALIGN. -/
def badAlign (d : Desc) : Bool :=
  let n := elemAlign d.fmt
  match d.kind with
  | 3 => false
  | 1 => d.base % 2 ^ 48 % n ≠ 0
  | _ => d.base % 2 ^ 48 % n ≠ 0 || d.strides.any (fun x => x % (n : Int) ≠ 0)

/-- Code 7, SCALE (R167). -/
def badScale (l : Lookup) (d : Desc) : Bool :=
  if d.kind = 0 && isMx d.fmt then
    match lookupValid l d.scale with
    | some c =>
      c.kind ≠ 2 || c.rank ≠ d.rank || c.exts.dropLast ≠ d.exts.dropLast || c.last ≠ cdiv d.last 32
    | none => true
  else d.kind ≤ 2 && d.scale ≠ 0

/-- Code 8, DIR (R182). -/
def badDir (d : Desc) : Bool :=
  d.kind = 1 &&
  (let first := cf d.words 9 20 0
   let pitch := cf d.words 10 20 0
   pitch < d.ext 1 / 128 || 2097152 ≤ first + (d.ext 0 / 128 - 1) * pitch + (d.ext 1 / 128 - 1) ||
   !isOperandFmt d.fmt || d.bcast)

/-- The fields PERM of a plan, one for each dimension. -/
def planPerm (w : List Word) (n : Nat) : List Nat := (List.range n).map (fun d => cf w 2 17 0 / 8 ^ d % 8)

/-- Codes 9 and 10, PLAN and COPY_OVERLAP (R169). -/
def badPlan (l : Lookup) (d : Desc) : Option Nat :=
  if d.kind ≠ 3 then none
  else
    let perm := planPerm d.words d.rank
    let src := cf d.words 1 15 0
    let dst := cf d.words 1 31 16
    match lookupValid l src, lookupValid l dst with
    | some a, some b =>
      let okPair := a.kind = 0 && b.kind = 0 && a.rank = d.rank && b.rank = d.rank && a.fmt = b.fmt && !isMx a.fmt
      let okPerm := (List.range d.rank).all (fun k => perm.contains k) &&
        (planPerm d.words 6).drop d.rank = List.replicate (6 - d.rank) 0
      let okExt := perm.zipIdx.all (fun (p, k) => b.ext k = a.ext p)
      if !okPair || !okPerm || !okExt || b.bcast || b.overlap then some 9
      else if cb d.words 2 31 then
        let swapped := (List.range d.rank).map (fun k =>
          if k + 2 = d.rank then k + 1 else if k + 1 = d.rank then k - 1 else k)
        let e := a.last
        if src = dst && 2 ≤ d.rank && a.ext (d.rank - 2) = e && [32, 64, 128].contains e && perm = swapped then none
        else some 9
      else if a.meets b then some 10
      else none
    | _, _ => some 9

/-- The first check of R164 that fails, codes 1 to 10; 0 where all hold. -/
def createCode (s : State) (f : FrontId) (l : Lookup) (w : List Word) : Nat :=
  let d := descOf w
  if badReserved w then 1
  else if badRank d then 2
  else if badExtent d then 3
  else if d.kind ≠ 3 && !(getAlloc s f d.alloc).valid then 4
  else if badRange s f d then 5
  else if badAlign d then 6
  else if badScale l d then 7
  else if badDir d then 8
  else (badPlan l d).getD 0

/-! ### The fields that the device writes (R159, R162, R163, R168) -/

/-- ALIGNED (R162); a plan has no BASE. -/
def alignedBit (d : Desc) : Bool := d.kind ≠ 3 && d.base % 64 = 0 && (d.kind = 1 || d.strides.all (fun x => x % 64 = 0))

/-- SELF_OVERLAP (R163), for the descriptors whose rows lie at strides. -/
def overlapBit (d : Desc) : Bool :=
  if d.kind = 0 || d.kind = 2 then
    let dims := (d.exts.dropLast.zip d.strides).filter (fun x => 1 < x.1)
    let sorted := dims.mergeSort (fun x y => x.2.natAbs ≤ y.2.natAbs)
    let (_, hit) := sorted.foldl (fun (span, hit) (e, x) =>
      (span + (e - 1) * x.natAbs, hit || decide (x.natAbs < span))) (d.rowBytes, false)
    hit || (d.bcast && 1 < d.last)
  else false

/-- The 16 words that a creation stores; `seq` is the entry's new SEQ. -/
def storedWords (s : State) (f : FrontId) (l : Lookup) (w : List Word) (seq : Nat) : List Word :=
  let d := descOf w
  let seqOf (i : Nat) : Nat := match l i with
    | some x => (descOf x).seq
    | none => 0
  let gen := if d.kind = 3 then 0 else (getAlloc s f d.alloc).gen
  let w := w.set 0 (withBit (wordAt w 0) 31 true)
  let w := if d.kind = 0 && isMx d.fmt then w.set 14 (withBits (wordAt w 14) 23 16 (seqOf d.scale)) else w
  let w := if d.kind = 3 then
      w.set 3 (wordOf (seqOf (cf w 1 15 0) + 256 * seqOf (cf w 1 31 16)))
    else w
  w.set 15 (wordOf (seq + (if alignedBit d then 256 else 0) + (if overlapBit d then 512 else 0) + gen * 65536))

/-! ### Operations (R156–R158) -/

/-- The request of the creation path. -/
def createReq (f : FrontId) : Req := { reqOf (descBlock f) .critical with fill := true }

/-- An entry of the table, read by the creation path; DEFECT for an index past it. A core's entry with a byte of bad
parity, which raises its error, is taken as stored, so that it can be deleted and created again (R306 step 2, log entry
156). -/
def tableEntry (s : State) (f : FrontId) (i : Nat) : State × Status × List Word :=
  if tableSize s f ≤ i then (s, .defect, [])
  else
    let a := entryAddr s f i
    match readLocal s (createReq f) a 64 with
    | (s, .ok, d) => (s, .ok, wordsOf 16 d)
    | (s, .poisoned, _) => if isCore f then (s, .ok, wordsOf 16 (getBytes s a 64)) else (s, .poisoned, [])
    | (s, st, _) => (s, st, [])

/-- The entries that the checks of a staged descriptor look at: its scale descriptor, or the members of a plan. -/
def membersOf (w : List Word) : List Nat :=
  match cf w 0 8 7 with
  | 0 => if isMx (cf w 0 3 0) then [cf w 14 15 0] else []
  | 3 => [cf w 1 15 0, cf w 1 31 16]
  | _ => []

/-- Read entries of the table; `.delayed` where a read must wait. -/
def readMembers (s : State) (f : FrontId) : List Nat → State × Status × List (Nat × Option (List Word))
  | [] => (s, .ok, [])
  | i :: t =>
    match tableEntry s f i with
    | (s, .delayed, _) => (s, .delayed, [])
    | (s, x, w) =>
      let (s, st, l) := readMembers s f t
      (s, st, (i, if x = .ok then some w else none) :: l)

/-- The entries read, as the checks look them up. -/
def lookupIn (l : List (Nat × Option (List Word))) : Lookup :=
  fun i => match l.find? (fun x => x.1 = i) with
    | some x => x.2
    | none => none

/-- The checks of the index: codes 11 and 12. -/
def indexCode (s : State) (f : FrontId) (i : Nat) : Nat :=
  if i = 0 || tableSize s f ≤ i then 11 else if tableFilling s f then 12 else 0

/-- An operation has failed at an index with a code (R158). -/
def createFailed (s : State) (f : FrontId) (i code : Nat) : State :=
  let b := descBlock f
  let s := rputField s b (resultOff f) 30 0 (2 ^ 30 + code * 65536 + i % 65536)
  let s := if isCore f then bump s b 1 1 else s
  raise s b (descCause f 0)

/-- An operation has succeeded at an index. -/
def createDone (s : State) (f : FrontId) (i : Nat) : State :=
  rputField s (descBlock f) (resultOff f) 30 0 (i % 65536)

/-- Write an entry: `.delayed` where the write must wait, DEFECT where it fails. -/
def writeEntry (s : State) (f : FrontId) (i : Nat) (w : List Word) : State × Status :=
  match writeLocal s (createReq f) (entryAddr s f i) (bytesOf w) with
  | (s, .ok) => (createDone s f i, .ok)
  | (s, .delayed) => (s, .delayed)
  | (s, _) => (createFailed s f i 0, .defect)

/-- A descriptor is created over the entry read: OK, DEFECT where that fails, or `.delayed` where it must wait. -/
def createOver (s : State) (f : FrontId) (l : Lookup) (i : Nat) (w : List Word) : State × Status × List Word → State × Status
  | (t, .ok, old) =>
    match writeEntry t f i (storedWords s f l w (((descOf old).seq + 1) % 256)) with
    | (s, .ok) => (if isCore f then bump s (descBlock f) 0 1 else s, .ok)
    | x => x
  | (s, .delayed, _) => (s, .delayed)
  | (s, _, _) => (createFailed s f i 0, .defect)

/-- Create a descriptor from 16 staged words at an index: OK, DEFECT where that fails, or `.delayed`. -/
def createAt (s : State) (f : FrontId) (i : Nat) (w : List Word) : State × Status :=
  match readMembers s f (membersOf w) with
  | (s, .delayed, _) => (s, .delayed)
  | (s, _, m) =>
    let l := lookupIn m
    let code := createCode s f l w
    let code := if code = 0 then indexCode s f i else code
    if code ≠ 0 then (createFailed s f i code, .defect) else createOver s f l i w (tableEntry s f i)

/-- The staged words. -/
def stagedWords (s : State) (f : FrontId) : List Word :=
  (List.range 16).map (fun n => rget s (descBlock f) (stageOff f n))

/-- The index and the operation of DESC_CREATE. -/
def createIndex (s : State) (f : FrontId) : Nat := rfield s (descBlock f) (createOff f) 15 0

/-- OP 0: create from the staged words (R156). -/
def createOp (s : State) (f : FrontId) : State × Status := createAt s f (createIndex s f) (stagedWords s f)

/-- OP 1: delete an entry: VALID is cleared and SEQ counts (R156). -/
def deleteOp (s : State) (f : FrontId) : State × Status :=
  let i := createIndex s f
  let code := indexCode s f i
  if code ≠ 0 then (createFailed s f i code, .defect)
  else
    match tableEntry s f i with
    | (s, .ok, w) =>
      let w := w.set 0 (withBit (wordAt w 0) 31 false)
      writeEntry s f i (w.set 15 (withBits (wordAt w 15) 7 0 ((cf w 15 7 0 + 1) % 256)))
    | (s, .delayed, _) => (s, .delayed)
    | (s, _, _) => (createFailed s f i 0, .defect)

/-- Local address of the first staged slot of a batch. -/
def batchSrc (s : State) (f : FrontId) : Nat :=
  match f with
  | .cp c => coreAddr c .am (rfield s (.gme c) Reg.Gme.BATCH_SRC 24 6 * 64)
  | f => rget64 s (descBlock f) Reg.Upd.BATCH_SRC_LO Reg.Upd.BATCH_SRC_HI

/-- The staged slots of a batch from number `k` on, until one fails. -/
def batchFrom (s : State) (f : FrontId) (src first : Nat) : Nat → Nat → State × Status
  | 0, _ => (s, .ok)
  | n + 1, k =>
    match readLocal s (reqOf (descBlock f) .critical) (src + 64 * k) 64 with
    | (s, .ok, d) =>
      match createAt s f (first + k) (wordsOf 16 d) with
      | (s, .ok) => batchFrom (rputField s (descBlock f) (batchCountOff f) 31 16 (k + 1)) f src first n (k + 1)
      | x => x
    | (s, .delayed, _) => (s, .delayed)
    | (s, _, _) => (createFailed s f (first + k) 0, .defect)

/-- OP 2: create a batch (R157). -/
def batchOp (s : State) (f : FrontId) : State × Status :=
  let b := descBlock f
  let n := rfield s b (batchCountOff f) 15 0
  let first := rfield s b (batchFirstOff f) 15 0
  let src := batchSrc s f
  let s := rputField s b (batchCountOff f) 31 16 0
  let (ta, tn) := tablePlace s f
  if overlaps src (64 * n) ta tn then (createFailed s f first 12, .defect)
  else
    let s := if n = 0 then rputField s b (resultOff f) 30 30 0 else s
    batchFrom s f src first n 0

/-- DESC_CREATE.GO: an operation runs (R156). -/
def creating (s : State) (f : FrontId) : Bool := rbit s (descBlock f) (createOff f) 31

/-- Write DESC_CREATE.OP. -/
def setCreateOp (s : State) (f : FrontId) (op : Nat) : State := rputField s (descBlock f) (createOff f) 17 16 op

/-- GO is 1 with an operation: as a write has left it, or by a write that this row stands for, where it is 0. -/
def startCreate (s : State) (f : FrontId) (op : Nat) : State :=
  if creating s f then s else rputBit (setCreateOp s f op) (descBlock f) (createOff f) 31 true

/-- The operation that GO has started runs to its end, which clears GO; it waits where an access of it must wait, and
`op` is not run where GO has started another one. -/
def runCreate (s : State) (f : FrontId) (op : Nat) (x : State → State × Status) : State :=
  let s := startCreate s f op
  if rfield s (descBlock f) (createOff f) 17 16 ≠ op then s
  else
    match x s with
    | (t, .delayed) => settleWaits s t
    | (t, _) => rputBit t (descBlock f) (createOff f) 31 false

/-- DESC_CREATE: GO with OP 0. -/
def execDescCreate (o : TableOwner) (s : State) : Host.Outcome State Fault Refusal :=
  .next (runCreate s o 0 (createOp · o))

/-- DESC_DELETE: GO with OP 1. -/
def execDescDelete (o : TableOwner) (s : State) : Host.Outcome State Fault Refusal :=
  .next (runCreate s o 1 (deleteOp · o))

/-- DESC_BATCH: GO with OP 2. -/
def execDescBatch (o : TableOwner) (s : State) : Host.Outcome State Fault Refusal :=
  .next (runCreate s o 2 (batchOp · o))

end Sys2Proof.Machine
end

