-- ==== Sys2Proof/Machine/Publish.lean ====
section
/-!
DEFINITION. Publishing of staged directory entries (R246–R256, R259): arming a list, the publish locks at the die
boundary proxies and the engines, "old done", the publish itself and the unlock. A command runs whole in one step unless it
must wait: one that has started and waits when a lock becomes active is old for that lock (R248).
-/
namespace Sys2Proof.Machine

/-- An engine's publish queue, oldest first. -/
def getPubs (s : State) (h : HubId) : List PubList := tget [] s.pubs h.val

/-- Replace an engine's publish queue. -/
def putPubs (s : State) (h : HubId) (l : List PubList) : State := { s with pubs := tset [] s.pubs h.val l }

/-- Change the list of this number in an engine's queue. -/
def modPub (s : State) (h : HubId) (id : Nat) (f : PubList → PubList) : State :=
  putPubs s h ((getPubs s h).map (fun p => if p.id = id then f p else p))

/-- Who receives an engine's locks: the proxy of every CD, and the other engines (R247). -/
def lockReceivers (h : HubId) : List LockHolder :=
  (List.finRange 16).map .proxy ++ ((List.finRange 4).filter (· ≠ h)).map .engine

/-- The first entry of a list that an active lock at a receiver holds. -/
def heldEntry (s : State) (r : LockHolder) (es : List Nat) : Option (Nat × HubId) :=
  let ls := s.locks.filter (fun l => l.active && l.holder = r)
  es.findSome? (fun e => (ls.find? (fun l => l.first ≤ e && e ≤ l.last)).map (fun l => (e, l.hub)))

/-! ### Staged records (R246) -/

/-- A staged record. -/
structure StagedRec where
  image  : List Word
  entry  : Nat
  valid  : Bool
  oldGen : Word
  deriving DecidableEq, Repr

/-- The fields of a record's 16 words. -/
def stagedOf (ws : List Word) : StagedRec :=
  { image := ws.take 8, entry := cf ws 8 20 0, valid := cb ws 8 31, oldGen := wordAt ws 9 }

/-- The words of a record. -/
def stagedRecord (image : List Word) (entry : Nat) (valid : Bool) (oldGen : Nat) (op : Nat) (tag : Tag) : List Word :=
  image ++ [wordOf (entry + (if valid then 2 ^ 31 else 0)), wordOf oldGen, wordOf (op + tag.toNat * 65536), 0, 0, 0, 0, 0]

/-- The range of a list: smallest and largest entry of its valid records; an empty range for none. -/
def listRange (l : List StagedRec) : Nat × Nat :=
  match (l.filter (·.valid)).map (·.entry) with
  | [] => (1, 0)
  | e :: t => (t.foldl min e, t.foldl max e)

/-! ### Arming (R247) -/

/-- The end of arming, every reply having arrived: the command completes, or PUB_ARM_RESULT reports (R247, R256). -/
def armingDone (s : State) (h : HubId) (p : PubList) : State :=
  match p.slot with
  | some n =>
    match getSlot s (.hub h) n with
    | some x =>
      if p.late then
        endSlot (raiseTag s (.hub h) 17 (cmdTag x.words) (cmdOp x.words)) (.hub h) n (worse p.status .defect)
      else endSlot s (.hub h) n p.status
    | none => s
  | none =>
    if p.manual then
      rputBit (rput s (.hub h) Reg.Hub.PUB_ARM_RESULT (if p.late then 2 else 0)) (.hub h) Reg.Hub.PUB_ARM_GO 0 false
    else s

/-- Arm a list for a target stride: false where the queue is full (R247 steps 1 to 3). -/
def armList (s : State) (h : HubId) (slot : Option Nat) (st : Status) (base count : Nat) (range : Nat × Nat)
    (target : Nat) : State × Bool :=
  if 4 ≤ (getPubs s h).length then (s, false)
  else
    let late := decide (target ≤ s.stride.count)
    let t := if late then s.stride.count + 1 else target
    let p : PubList :=
      { id := s.pubNext, base := base, count := count, first := range.1, last := range.2, target := t, late := late,
        waiting := lockReceivers h, slot := slot, status := st, manual := slot.isNone, oldDone := [], fired := false, fireNs := 0 }
    let lock (r : LockHolder) : Lock :=
      { holder := r, hub := h, id := s.pubNext, first := range.1, last := range.2, target := t, active := false,
        done := false, old := [] }
    let s := putPubs s h (getPubs s h ++ [p])
    ({ s with pubNext := s.pubNext + 1, locks := s.locks ++ [lock (.engine h)],
              lockMsgs := s.lockMsgs ++ (lockReceivers h).map lock }, true)

/-- Read the records of a list, request by request, up to one that is not answered with data. -/
def readList (s : State) (r : Req) (base : Nat) : Nat → Nat → State × Status × List StagedRec
  | 0, _ => (s, .ok, [])
  | n + 1, j =>
    match gRead s r (base + 64 * j) 64 with
    | (s, .ok, d) =>
      let (s, st, t) := readList s r base n (j + 1)
      (s, st, stagedOf (wordsOf 16 d) :: t)
    | (s, st, _) => (s, st, [])

/-- The records of a list, read at once, where a request for them would have to wait: the bytes as they stand, or those
that another device returns (log entry 155). -/
def recordsNow (s : State) (base n : Nat) : List StagedRec :=
  (List.range n).map (fun j => stagedOf (wordsOf 16 ((List.range 64).map (fun i =>
    match targetOf s base with
    | .here a => getByte s (cellKey s (a + 64 * j + i))
    | _ => Config.remoteByte s.fresh (64 * j + i)))))

/-- Arm the list of PUB_ARM_LIST with its records: GO reads 1 until the arming ends, or PUB_ARM_RESULT shows a full queue
(R256). -/
def armManual (s : State) (h : HubId) (base n target : Nat) (l : List StagedRec) : State :=
  match armList s h none .ok base n (listRange l) target with
  | (s, true) => rputBit s (.hub h) Reg.Hub.PUB_ARM_GO 0 true
  | (s, false) => rput (raise s (.hub h) 19) (.hub h) Reg.Hub.PUB_ARM_RESULT 1

/-- Writing 1 to PUB_ARM_GO (R256). -/
def manualArm (s : State) (h : HubId) : State :=
  let b : Block := .hub h
  if rbit s b Reg.Hub.PUB_ARM_GO 0 then s
  else
    let base := rget64 s b Reg.Hub.PUB_ARM_LIST_LO Reg.Hub.PUB_ARM_LIST_HI
    let n := rfield s b Reg.Hub.PUB_ARM_COUNT 21 0
    let target := rget64 s b Reg.Hub.PUB_ARM_STRIDE_LO Reg.Hub.PUB_ARM_STRIDE_HI
    match readList s (reqOf b .critical) base n 0 with
    | (t, .delayed, _) => armManual (useFresh (settleWaits s t)) h base n target (recordsNow s base n)
    | (s, .ok, l) => armManual s h base n target l
    | (s, _, _) => s

/-- PUB_ARM_GO. -/
def execPubArmGo (h : HubId) (s : State) : Host.Outcome State Fault Refusal := .next (manualArm s h)

/-! ### Locks (R248) -/

/-- The window-mode commands of a CD's GMEs that have started and not ended, by core and slot: those that wait (R248). -/
def oldCommands (s : State) : LockHolder → List (Nat × Nat)
  | .proxy cd => (List.range 8).flatMap (fun i =>
      let c : CoreId := Fin.ofNat 128 (8 * cd.val + i)
      ((getFront s (.cp c)).slots.filter (fun x => x.phase = .held && [2, 3, 4, 5].contains (cmdOp x.words))).map
        (fun x => (c.val, x.id)))
  | .engine _ => []

/-- A lock becomes active: "old done" is due at once where no old command runs. -/
def activated (s : State) (l : Lock) : Lock :=
  let old := oldCommands s l.holder
  { l with active := true, done := old = [], old := old }

/-- Report "old done" of a lock that has become active, where it is due. -/
def reportActive (s : State) (l : Lock) : State := if l.done then reportOldDone s l else s

/-- A receiver has replied: the list's arming ends with the last reply (R247 steps 3 to 5). A late reply marks the list
late, and its step is skipped if its tick has fired already (R252). -/
def lockReply (s : State) (h : HubId) (r : LockHolder) (id : Nat) (late : Bool) : State :=
  match (getPubs s h).find? (fun p => p.id = id) with
  | none => s
  | some p =>
    let q := { p with waiting := p.waiting.filter (· ≠ r), late := p.late || late }
    let s := modPub s h id (fun _ => q)
    let s := if late then stepSkip s 3 else s
    if q.waiting = [] && p.waiting ≠ [] then armingDone s h q else s

/-- PENDING_LOCK: a receiver registers the next lock that an engine has sent it, and replies. -/
def execPendingLock (r : LockHolder) (h : HubId) (s : State) : Host.Outcome State Fault Refusal :=
  .next (match s.lockMsgs.find? (fun l => l.holder = r && l.hub = h) with
    | none => s
    | some l =>
      let late := decide (l.target ≤ s.stride.count)
      let l' := if late then activated s l else l
      let s := { s with lockMsgs := s.lockMsgs.erase l, locks := s.locks ++ [l'] }
      let s := if late then reportActive s l' else s
      lockReply s h r l.id late)

/-- The lists of an engine whose tick has fired: the publish of each starts then, or when the one before it ends. -/
def firePubs (s : State) (h : HubId) : State :=
  putPubs s h ((getPubs s h).map (fun p =>
    if !p.fired && p.target ≤ s.stride.count then { p with fired := true, fireNs := s.stride.lastFire } else p))

/-- LOCK_ACTIVATE: at a fire, the pending locks of a receiver whose stride has come become active; an engine's own lists
have their tick. Nothing fires while the stride master is STOPPED or ARMED (R253). -/
def execLockActivate (r : LockHolder) (s : State) : Host.Outcome State Fault Refusal :=
  .next (
    if s.stride.state ≤ 1 then s
    else
      let due (l : Lock) : Bool := l.holder = r && !l.active && l.target ≤ s.stride.count
      let hit := (s.locks.filter due).map (activated s)
      let s := { s with locks := s.locks.map (fun l => if due l then activated s l else l) }
      let s := hit.foldl reportActive s
      match r with
      | .engine h => firePubs s h
      | .proxy _ => s)

/-- OLD_DONE: the report of a proxy reaches the publishing engine. -/
def execOldDone (cd : Fin 16) (h : HubId) (s : State) : Host.Outcome State Fault Refusal :=
  .next (match s.oldMsgs.find? (fun m => m.1 = cd && m.2.1 = h) with
    | none => s
    | some m =>
      modPub { s with oldMsgs := s.oldMsgs.erase m } h m.2.2 (fun p => { p with oldDone := p.oldDone ++ [cd] }))

/-! ### The publish (R249–R252, R259) -/

/-- What a publish has done so far: entries written, conflicts; whether one of its requests must wait. -/
structure PubDone where
  written   : Nat
  conflicts : Nat
  waits     : Bool
  deriving DecidableEq, Repr

/-- The directory slice that holds an entry. -/
def sliceOf (e : Nat) : Block := .dir (larderPlace (entryPlace e - larderBase)).1

/-- Publish one record (R249 step 2, R250, R259). A record whose list or live entry cannot be read, or whose write is
turned away, is passed over, with the causes that the access raises. -/
def publishRecord (s : State) (h : HubId) (x : PubDone) (rec : StagedRec) : State × PubDone :=
  let b : Block := .hub h
  let r := reqOf b .critical
  if !rec.valid then (s, x)
  else
    let e := rec.entry
    match readLocal s r (entryPlace e) 32 with
    | (s, .ok, d) =>
      let old := entryOf e (wordsOf 8 d)
      if wordAt old.words 1 ≠ rec.oldGen then
        let s := if rbit s b Reg.Hub.CONFLICT_ENTRY 31 then s
          else rput s b Reg.Hub.CONFLICT_ENTRY (wordOf (2 ^ 31 + e))
        let s := stepSkip (raise (bump s (sliceOf e) 8 1) b 18) 3
        (s, { x with conflicts := x.conflicts + 1 })
      else
        match writeLocal s r (entryPlace e) (bytesOf rec.image) with
        | (s, .ok) =>
          let new := entryOf e rec.image
          let d := sliceOf e
          let s := bump s d 5 1
          let s := if new.pod = old.pod then s else bump s d 6 1
          let s := if new.pod = podZero then bump s d 7 1 else s
          let s := if new.tValid then bump s d 10 1 else s
          (s, { x with written := x.written + 1 })
        | (s, st) => (s, { x with waits := st = .delayed })
    | (s, st, _) => (s, { x with waits := st = .delayed })

/-- Publish the records of a list in increasing order. -/
def publishFrom (s : State) (h : HubId) (base : Nat) : Nat → Nat → PubDone → State × PubDone
  | 0, _, x => (s, x)
  | n + 1, j, x =>
    match gRead s (reqOf (.hub h) .critical) (base + 64 * j) 64 with
    | (s, .ok, d) =>
      let (s, x) := publishRecord s h x (stagedOf (wordsOf 16 d))
      if x.waits then (s, x) else publishFrom s h base n (j + 1) x
    | (s, .delayed, _) => (s, { x with waits := true })
    | (s, _, _) => publishFrom s h base n (j + 1) x

/-- Send the unlock of a list to every receiver, and release the engine's own lock (R249 step 3). -/
def sendUnlock (s : State) (h : HubId) (id : Nat) : State :=
  { s with locks := s.locks.filter (fun l => !(l.holder = .engine h && l.hub = h && l.id = id)),
           unlockMsgs := s.unlockMsgs ++ (lockReceivers h).map (fun r => (r, h, id)) }

/-- The writes of a publish have been acknowledged: its counts, and the unlocks (R249 step 3). Replies to the locks that
are still missing count as late, and the step is skipped (R252). -/
def publishEnd (s : State) (h : HubId) (p : PubList) (x : PubDone) : State :=
  let b : Block := .hub h
  let s := rput (rput s b Reg.Hub.PUB_LAST_COUNT (wordOf x.written)) b Reg.Hub.PUB_LAST_CONFLICTS (wordOf x.conflicts)
  let s := if p.waiting = [] then s else armingDone (stepSkip s 3) h { p with late := true }
  let s := sendUnlock s h p.id
  putPubs s h (((getPubs s h).filter (fun q => q.id ≠ p.id)).map (fun q =>
    if q.fired then { q with fireNs := max q.fireNs s.now } else q))

/-- Publish the list at the front of an engine's queue. A publish whose requests must wait is made when they need not (log entry 155). -/
def runPublish (s0 : State) (h : HubId) (p : PubList) : State :=
  let b : Block := .hub h
  let s := rput s0 b Reg.Hub.PUB_LAST_WAIT (wordOf (sat 32 (s0.now - p.fireNs)))
  let (s, x) := publishFrom s h p.base p.count 0 { written := 0, conflicts := 0, waits := false }
  if x.waits then settleWaits s0 s else publishEnd s h p x

/-- The list that an engine may publish now: the oldest, once its tick has fired. -/
def frontPub (s : State) (h : HubId) : Option PubList :=
  match getPubs s h with
  | p :: _ => if p.fired then some p else none
  | [] => none

/-- Has "old done" of every CD arrived? -/
def allOldDone (p : PubList) : Bool := (List.finRange 16).all (fun c => p.oldDone.contains c)

/-- PUBLISH: the list whose tick has fired is published once every CD has reported "old done". -/
def execPublish (h : HubId) (s : State) : Host.Outcome State Fault Refusal :=
  .next (match frontPub s h with
    | some p => if allOldDone p then runPublish s h p else s
    | none => s)

/-- PUBLISH_TIMEOUT: PUB_WAIT_LIMIT has passed without "old done" of every CD (R251). -/
def execPublishTimeout (h : HubId) (s : State) : Host.Outcome State Fault Refusal :=
  .next (match frontPub s h with
    | some p =>
      if allOldDone p then s
      else
        let s := { s with now := max s.now (p.fireNs + rfield s (.hub h) Reg.Hub.PUB_WAIT_LIMIT 25 0) }
        let p' : PubList := { p with oldDone := List.finRange 16 }
        runPublish (modPub (stepSkip (raise s (.hub h) 20) 3) h p.id (fun _ => p')) h p'
    | none => s)

/-- UNLOCK: an unlock reaches a receiver, behind the lock that it releases. -/
def execUnlock (r : LockHolder) (h : HubId) (s : State) : Host.Outcome State Fault Refusal :=
  .next (match s.unlockMsgs.find? (fun m => m.1 = r && m.2.1 = h) with
    | none => s
    | some m =>
      if s.lockMsgs.any (fun l => l.holder = r && l.hub = h && l.id = m.2.2) then s
      else
        { s with unlockMsgs := s.unlockMsgs.erase m,
                 locks := s.locks.filter (fun l => !(l.holder = r && l.hub = h && l.id = m.2.2)) })

/-- A soft reset of an engine discards its lists, counts them, and unlocks (R255). -/
def discardPubs (s : State) (h : HubId) : State :=
  let l := getPubs s h
  putPubs (l.foldl (fun s p => sendUnlock s h p.id) (bump s (.hub h) 18 l.length)) h []

end Sys2Proof.Machine
end

