-- ==== Sys2Proof/Machine/Thin.lean ====
section
/-!
DEFINITION. THIN and SPROUT: the records of tiles (R226–R229, R235–R237), the choice of positions (R230–R234, R242,
R243), the live entries (R238), and the rest of R239–R246.
-/
namespace Sys2Proof.Machine

/-! ### Commands of the hub and port engines -/

/-- Run a command of a hub or port engine: `.delayed` says that it has started and waits; a command that has left
itself running waits for replies. -/
def runEngine (s : State) (f : FrontId) (x : Slot) (body : Run Unit) : State :=
  match runFrom body x.memo s with
  | (r, .delayed) => waitSlot s f x r
  | (r, st) =>
    match getSlot r.st f x.id with
    | some y => if y.phase = .running then r.st else endSlot r.st f x.id st
    | none => r.st

/-- How a command stands to the decision of its step (R267). -/
inductive Gate where
  | go (d : Decision)
  | skip
  | wait
  | stale
  deriving DecidableEq, Repr

/-- The gate of a command of step `step` on engine `e` (hub 0–3, slow 4–5). -/
def gateOf (s : State) (e step : Nat) : Gate :=
  let d := tget Decision.reset s.decisions e
  if d.known && d.step = step then (if d.commit then .go d else .skip)
  else if d.known && step < d.step then .stale
  else .wait

/-- Wait for the decision, or stop on a stale step; the decision where the command runs, none where it is skipped. -/
def gated (f : FrontId) (e : Nat) (x : Slot) (stale : Nat) : Run (Option Decision) := do
  match ← look (gateOf · e x.step) with
  | .go d => return some d
  | .skip => return none
  | .wait => stop .delayed
  | .stale => defectAt f.block stale (cmdTag x.words) (cmdOp x.words)

/-- Raise a cause of an engine for a command and note that it will complete DEFECT. -/
def engineFault (f : FrontId) (ws : List Word) (cause : Nat) : Run Unit := do
  act (fun s => raiseTag s f.block cause (cmdTag ws) (cmdOp ws))
  markDefect

/-- Stop a command DEFECT with a cause of its engine. -/
def engineDefect {α : Type} (f : FrontId) (ws : List Word) (cause : Nat) : Run α :=
  defectAt f.block cause (cmdTag ws) (cmdOp ws)

/-! ### Records (R227, R228) -/

/-- Byte offsets of the parts of a record, and its size. -/
structure RecLayout where
  i     : Nat
  sc    : Nat
  ti    : Nat
  tv    : Nat
  total : Nat
  deriving DecidableEq, Repr

/-- The layout of a record (R227); the values lie at its start. -/
def recLayout (fmt : Nat) (f : PodForm) (writeT : Bool) : RecLayout :=
  let n := 128 * f.slots
  let v := r64 (packedBytes fmt n)
  let i := r64 (128 * f.pitch)
  let sc := if isMx fmt then r64 (cdiv n 32) else 0
  let ti := if writeT then r64 (128 + n) else 0
  let tv := if writeT then v else 0
  { i := v, sc := v + i, ti := v + i + sc, tv := v + i + sc + ti, total := v + i + sc + ti + tv }

/-- How a command writes tiles. -/
structure TileOut where
  op        : Nat
  tag       : Tag
  round     : Nat
  sat       : Bool
  writeT    : Bool
  zeroEmpty : Bool
  dstOff    : Nat
  units     : Nat
  deriving DecidableEq, Repr

/-- Offset in 64-byte units of the record of ordinal `q` (R228). -/
def TileOut.start (o : TileOut) (q : Nat) : Nat := o.dstOff + q * o.units

/-- A tile's kept positions: row by row, its slots in order with their master values. -/
abbrev Kept := List (List (Nat × Val))

/-- A code with −0 turned into +0 (R235). -/
def plusZero (fmt code : Nat) : Nat := if (decodeElem fmt code).isZero then 0 else code

/-- The codes of a tile's slots, in slot order, and its run scales (R235, R177). -/
def slotCodes (fmt round : Nat) (sat : Bool) (k : Kept) : List Nat × List Nat :=
  let es := k.flatten.mapIdx (fun q x => ({ pos := q, v := x.2, draw := 0 } : OutElem))
  let r := convertRow fmt round sat es
  (r.codes.map (fun c => plusZero fmt c.2), r.scales.map (·.2))

/-- How many master values of a tile's slots have no code in the format: NaNs, each written as +0, for which R128 completes
the command DEFECT (R235). -/
def slotsLost (fmt round : Nat) (sat : Bool) (k : Kept) : Nat :=
  (convertRow fmt round sat (k.flatten.mapIdx (fun q x => ({ pos := q, v := x.2, draw := 0 } : OutElem)))).unrep

/-- Cut a list into rows of the given lengths. -/
def cutRows {α : Type} : List Nat → List α → List (List α)
  | [], _ => []
  | n :: t, l => l.take n :: cutRows t (l.drop n)

/-- A tile's slots with their codes. -/
def slotRows (k : Kept) (codes : List Nat) : List (List PodSlot) :=
  cutRows (k.map (·.length)) ((k.flatten.zip codes).map (fun (x, c) => { pos := some x.1, code := c, scale := none }))

/-- The index string of a row (R174). -/
def indexString (f : PodForm) (row : List PodSlot) : List Byte :=
  leBytes f.pitch ((row.mapIdx (fun q x => (x.pos.getD 0 % f.g) * 2 ^ (f.w * q))).foldl (· + ·) 0)

/-- Values packed, padded with zeros to a multiple of 64 bytes. -/
def packedValues (fmt : Nat) (codes : List Nat) : List Byte :=
  let n := packedBytes fmt codes.length
  padTo (r64 n) (pack (elemBits fmt) 0 0 (List.replicate n 0) codes)

/-- Bytes padded with zeros to a multiple of 64. -/
def pad64 (l : List Byte) : List Byte := padTo (r64 l.length) l

/-- Write bytes at an offset in bytes from BASE. -/
def writeBlock (rq : Req) (g : Grid) (off : Nat) (l : List Byte) : Run Unit :=
  if l = [] then pure () else need (fun s => gWrite s rq ((g.base + off) % 2 ^ 64) l)

/-- Write a tile's record and make its new entry (R227, R235–R237): the entry's words, its NNZ, and whether it is a zero
tile. `gen` is the live GEN. -/
def writeRecord_ (rq : Req) (g : Grid) (o : TileOut) (f : PodForm) (pod q gen : Nat) (k : Kept) :
    Run (List Word × Nat × Bool) := do
  let (codes, scales) := slotCodes g.fmt o.round o.sat k
  if slotsLost g.fmt o.round o.sat k ≠ 0 then markDefect
  let rows := slotRows k codes
  let nnz := (codes.filter (· ≠ 0)).length
  let gw := wordOf (gen + 1)
  if o.zeroEmpty && nnz = 0 then
    return ([wordOf (podZero + g.fmt * 16), gw, 0, 0, 0, 0, 0, 0], 0, true)
  let l := recLayout g.fmt f o.writeT
  let a := 64 * o.start q
  writeBlock rq g a (packedValues g.fmt codes)
  writeBlock rq g (a + l.i) (pad64 (rows.flatMap (indexString f)))
  writeBlock rq g (a + l.sc) (pad64 (scales.map (BitVec.ofNat 8)))
  if o.writeT then
    let ts := transposeTile g.fmt false rows
    let idx := ts.map (fun r => BitVec.ofNat 8 r.length) ++ ts.flatten.map (fun x => BitVec.ofNat 8 (x.pos.getD 0))
    writeBlock rq g (a + l.ti) (pad64 idx)
    writeBlock rq g (a + l.tv) (packedValues g.fmt (ts.flatten.map (·.code)))
  let off (n : Nat) : Word := wordOf (o.start q + n / 64)
  let tw : List Word := if o.writeT then [off l.tv, off l.ti] else [0, 0]
  let w0 := wordOf (pod + g.fmt * 16 + (if o.writeT then 256 else 0) + nnz * 65536)
  return ([w0, gw, off 0, off l.i] ++ tw ++ [if isMx g.fmt then off l.sc else 0, 0], nnz, false)

/-! ### Live entries (R238, R241) -/

/-- What a command finds at a tile: its entry, whether its storage meets the new record, whether it is malformed, and
its live mask row by row. -/
structure LiveTile where
  entry : DirEntry
  clash : Bool
  bad   : Bool
  rows  : List (List PodSlot)
  deriving DecidableEq, Repr

/-- The live positions of a row. -/
def maskRow (row : List PodSlot) : List Nat := row.filterMap (·.pos)

/-- The blocks that a live entry uses: offset in units, bytes. -/
def liveBlocks (fmt : Nat) (x : DirEntry) : List (Nat × Nat) :=
  if entryFault fmt x || x.pod = podZero then []
  else forwardBlocks fmt x ++ (if x.tValid then transposedBlocks fmt x else [])

/-- Read a tile behind an entry that has been read: whether it or its transposed copy is malformed (R184), and its rows. -/
def liveRows (rq : Req) (g : Grid) (x : DirEntry) : Run (Bool × List (List PodSlot)) := do
  let t ← readForward rq g x
  let twin ← if t.fault.isNone && x.tValid && x.pod ≠ podZero then (do return (← readTransposed rq g x).fault.isSome)
    else pure false
  let bad := t.fault.isSome || t.zeroed ≠ 0 || twin
  return (bad, if bad then List.replicate 128 [] else t.rows)

/-- Read a tile's live entry and its mask; `start` and `n` are the new record's offset and size in bytes. -/
def readLive (rq : Req) (g : Grid) (e start n : Nat) : Run LiveTile := do
  let x ← readDirEntry rq e
  if (liveBlocks g.fmt x).any (fun (off, m) => overlaps (64 * off) m start n) then
    return { entry := x, clash := true, bad := false, rows := List.replicate 128 [] }
  let (bad, rows) ← liveRows rq g x
  return { entry := x, clash := false, bad := bad, rows := rows }

/-- Note the first skipped or malformed tile in FAULT_ENTRY. -/
def noteFault (h : HubId) (e : Nat) : Run Unit :=
  act (fun s =>
    if rbit s (.hub h) Reg.Hub.FAULT_ENTRY 31 then s else rput s (.hub h) Reg.Hub.FAULT_ENTRY (wordOf (2 ^ 31 + e)))

/-- Wait where an active lock of the engine holds one of the entries. -/
def waitForLock (h : HubId) (es : List Nat) : Run Unit := do
  if (← look (heldEntry · (.engine h) es)).isSome then stop .delayed else pure ()

/-! ### The choice of positions (R232–R234, R243) -/

/-- Is a score larger? A NaN ranks above every number, and equals another NaN. -/
def scoreGt : Val → Val → Bool
  | .nan, .nan => false
  | .nan, _ => true
  | _, .nan => false
  | x, y => x.gt y

/-- A position to rank. -/
structure Cand where
  pos    : Nat
  member : Bool
  score  : Val
  tie    : Nat
  deriving DecidableEq, Repr

/-- Does a position rank before another: membership, then score, then tie key, then the lower position? -/
def Cand.before (a b : Cand) : Bool :=
  if a.member ≠ b.member then a.member
  else if scoreGt a.score b.score then true
  else if scoreGt b.score a.score then false
  else if a.tie ≠ b.tie then b.tie < a.tie
  else a.pos < b.pos

/-- Put a position into a ranked list. -/
def insertCand (c : Cand) : List Cand → List Cand
  | [] => [c]
  | d :: t => if c.before d then c :: d :: t else d :: insertCand c t

/-- Positions ranked. -/
def ranked (l : List Cand) : List Cand := l.foldr insertCand []

/-- The `n` positions that rank highest. -/
def best (n : Nat) (l : List Cand) : List Nat := ((ranked l).take n).map (·.pos)

/-- The tie key of R233, from the seed of the tie lane. -/
def tieKey (seed : BitVec 64) (e r c : Nat) : Nat :=
  (mix64 (seed ^^^ (BitVec.ofNat 64 e <<< 14) ^^^ (BitVec.ofNat 64 r <<< 7) ^^^ BitVec.ofNat 64 c)).toNat / 2 ^ 32

/-- The seed of a lane of an engine for a command: that of the latest tick before the command started. -/
def engineSeed (x : Slot) (lane : Nat) : BitVec 64 :=
  let z := x.began.getD Seeds.reset
  seedOf z.seed z.domain z.stride lane

/-- The score of a position (R232). -/
def thinScore (mode : Nat) (w a : Val) : Val :=
  match mode with
  | 0 => w.abs
  | 1 => (w.mul a).abs
  | _ => a

/-- The new positions of one pod under THIN: `k` of `g` positions from `p0`. -/
def thinPod (k : Nat) (mode : Nat) (tie : Nat → Nat) (ws as : List Val) (p0 g : Nat) : List Nat :=
  let kept := best k ((List.range g).map (fun i =>
    { pos := p0 + i, member := false, score := thinScore mode (ws.getD (p0 + i) Val.zero) (as.getD (p0 + i) Val.zero),
      tie := tie (p0 + i) }))
  kept.foldl sinsert []

/-- The new positions of one pod under SPROUT (R243). -/
def sproutPod (k most : Nat) (first : Bool) (thresh : Val) (tie : Nat → Nat) (ws gs : List Val) (m : List Nat)
    (p0 g : Nat) : List Nat :=
  let ps := (List.range g).map (p0 + ·)
  let grad (p : Nat) : Val := (gs.getD p Val.zero).abs
  let cand := ps.filter (fun p => !m.contains p && scoreGt (grad p) thresh)
  let grown := best most (cand.map (fun p => { pos := p, member := false, score := grad p, tie := tie p }))
  let rest := ps.filter (fun p => !grown.contains p)
  let more := best (k - grown.length) (rest.map (fun p =>
    { pos := p, member := first && m.contains p, score := (ws.getD p Val.zero).abs, tie := tie p }))
  (grown ++ more).foldl sinsert []

/-! ### The command -/

/-- What THIN and SPROUT have done so far. -/
structure ThinDone where
  tiles   : Nat
  entered : Nat
  left    : Nat
  nnz     : Nat
  /-- smallest and largest entry of the valid records -/
  range   : Option (Nat × Nat)
  deriving DecidableEq, Repr

/-- One more entry in a range. -/
def widen (r : Option (Nat × Nat)) (e : Nat) : Option (Nat × Nat) :=
  match r with
  | none => some (e, e)
  | some (l, h) => some (min l e, max h e)

/-- The operands of THIN or SPROUT, read and loaded. -/
structure ThinArgs where
  g      : Grid
  master : Tensor
  aux    : Option Tensor
  pub    : Option Tensor
  stats  : Option Tensor
  form   : PodForm
  pod    : Nat
  first  : Nat
  count  : Nat
  deriving DecidableEq, Repr

/-- A staged list or statistics tensor of at least `n` INT32 elements (R230, R231). -/
def int32List (t : Tensor) (n : Nat) : Bool := t.d.rank = 1 && t.d.fmt = 0xE && n ≤ t.d.ext 0

/-- Do any two of these ranges meet? -/
def anyMeet : List (Int × Int) → Bool
  | [] => false
  | (l, h) :: t => t.any (fun (l', h') => l ≤ h' && l' ≤ h) || anyMeet t

/-- The area of the records of tile rows `first` to `first + count − 1`, as addresses. -/
def recordArea (g : Grid) (o : TileOut) (first count size : Nat) : Int × Int :=
  let q0 := first * g.cols
  let q1 := (first + count) * g.cols - 1
  ((g.base + 64 * o.start q0 : Int), (g.base + 64 * o.start q1 + size : Int) - 1)

/-- The range of the first `n` INT32 elements of a list. -/
def listArea (t : Tensor) (n : Nat) : Int × Int := ((t.d.base : Int), (t.d.base : Int) + 4 * n - 1)

/-- The cause of R231 that a THIN or SPROUT fails with, if it does: 12 SHAPE, 13 BAD_OPERAND. -/
def thinInvalid (ws : List Word) (sprout : Bool) (a : ThinArgs) (o : TileOut) : Option Nat :=
  let n := a.count * a.g.cols
  let dense (t : Tensor) : Bool := t.d.fmt = 7 && t.d.rank = 2
  let extsOk (t : Tensor) : Bool := t.d.exts = a.g.d.exts
  let needAux := sprout || cf ws 4 5 4 ≠ 0
  let size := (recLayout a.g.fmt a.form o.writeT).total
  let area := recordArea a.g o a.first a.count size
  let thresh := f32 (wordAt ws 10)
  let most := cf ws 11 4 0
  if a.count = 0 || a.g.rows < a.first + a.count then some 12
  else if a.master.d.kind ≠ 0 || a.aux.any (fun t => t.d.kind ≠ 0) then some 13
  else if !extsOk a.master || (needAux && a.aux.any (fun t => !extsOk t)) then some 12
  else if !dense a.master || a.aux.any (fun t => !dense t) || needAux ≠ a.aux.isSome then some 13
  else if a.pod = 0 || (podForm a.pod).isNone || (isMx a.g.fmt && o.writeT) then some 13
  else if 64 * o.units < size then some 13
  else if !a.g.alloc.holds area then some 13
  else if !a.pub.any (int32List · (16 * n)) || a.stats.any (fun t => !int32List t (4 * n)) then some 13
  else if anyMeet ([area, a.master.d.range] ++ (a.pub.map (listArea · (16 * n))).toList ++
      (a.stats.map (listArea · (4 * n))).toList ++ (a.aux.map (·.d.range)).toList) then some 13
  else if sprout && ((thresh.isNeg && !thresh.isZero) || thresh.nonfinite || most = 0 || a.form.k < most) then some 13
  else none

/-- Free words for a field that no rule gives a value. -/
def freeWords (n : Nat) : Run (List Word) := do
  let k ← look (·.fresh)
  act (fun s => (List.range n).foldl (fun s _ => useFresh s) s)
  return (List.range n).map (fun i => Config.freeWord (k + i))

/-- Write the staged record of tile `j` (R246). -/
def stage (rq : Req) (pub : Tensor) (j : Nat) (rec : List Word) : Run Unit :=
  writeCodes rq pub.d 0 (16 * j) (rec.map (·.toNat))

/-- Write the statistics of tile `j` (R241). -/
def writeTileStats (rq : Req) (stats : Option Tensor) (j : Nat) (l : List Nat) : Run Unit :=
  match stats with
  | some t => writeCodes rq t.d 0 (4 * j) l
  | none => pure ()

/-- Read 128 values of a dense tensor: row `r` of the tile at column `c0`. -/
def tileRow (rq : Req) (t : Tensor) (r c0 : Nat) : Run (List Val) := do
  return (← readElems rq t r c0 128).map (·.val)

/-- The new positions of one tile row, with their master values, and whether a value that is not finite was met. -/
def thinRow (ws : List Word) (sprout : Bool) (rq : Req) (a : ThinArgs) (seed : BitVec 64) (e tn tk i : Nat)
    (m : List Nat) : Run (List (Nat × Val) × Bool) := do
  let vs ← tileRow rq a.master (tn * 128 + i) (tk * 128)
  let gs ← match a.aux with
    | some t => tileRow rq t (tn * 128 + i) (tk * 128)
    | none => pure []
  let f := a.form
  let tie := tieKey seed e i
  let mode := cf ws 4 5 4
  let pods := (List.range (128 / f.g)).map (fun p =>
    if sprout then
      sproutPod f.k (cf ws 11 4 0) (!cb ws 4 4) (f32 (wordAt ws 10)) tie vs gs m (f.g * p) f.g
    else thinPod f.k mode tie vs gs (f.g * p) f.g)
  let score (p : Nat) : Val :=
    if sprout then gs.getD p Val.zero else thinScore mode (vs.getD p Val.zero) (gs.getD p Val.zero)
  let nf := vs.any (·.nonfinite) || (List.range 128).any (fun p => score p = .nan)
  return (pods.flatten.map (fun p => (p, vs.getD p Val.zero)), nf)

/-- One tile of THIN or SPROUT. -/
def thinTile (h : HubId) (ws : List Word) (sprout : Bool) (rq : Req) (a : ThinArgs) (pub : Tensor) (o : TileOut)
    (seed : BitVec 64) (d : ThinDone) (j : Nat) : Run ThinDone := do
  let f : FrontId := .hub h
  let tn := a.first + j / a.g.cols
  let tk := j % a.g.cols
  let q := tn * a.g.cols + tk
  let e := a.g.entry tn tk
  let x ← readLive rq a.g e (64 * o.start q) (recLayout a.g.fmt a.form o.writeT).total
  if x.clash then
    noteFault h e
    engineFault f ws 15
    let img ← freeWords 8
    stage rq pub j (stagedRecord img e false x.entry.gen o.op o.tag)
    let free ← freeWords 3
    writeTileStats rq a.stats j (free.map (·.toNat) ++ [2])
    return d
  if x.bad then
    noteFault h e
    engineFault f ws 14
  let rows ← (List.range 128).mapM (fun i => thinRow ws sprout rq a seed e tn tk i (maskRow (x.rows.getD i [])))
  let nf := rows.any (·.2)
  if nf then act (fun s => setNonfinite (raiseTag s f.block 16 (cmdTag ws) (cmdOp ws)))
  let kept := rows.map (·.1)
  let (img, nnz, zero) ← writeRecord_ rq a.g o a.form a.pod q x.entry.gen kept
  stage rq pub j (stagedRecord img e true x.entry.gen o.op o.tag)
  let old := x.rows.map maskRow
  let new := if zero then List.replicate 128 [] else kept.map (fun r => r.map (·.1))
  let count (l m : List (List Nat)) : Nat :=
    ((l.zip m).map (fun (x, y) => (x.filter (fun p => !y.contains p)).length)).foldl (· + ·) 0
  let entered := count new old
  let left := count old new
  writeTileStats rq a.stats j [nnz, entered, left,
    (if zero then 1 else 0) + (if x.bad then 4 else 0) + (if nf then 8 else 0)]
  act (fun s => bump (bump (bump s f.block (if sprout then 15 else 14) 1) f.block 16 entered) f.block 17 left)
  return { tiles := d.tiles + 1, entered := d.entered + entered, left := d.left + left, nnz := d.nnz + nnz,
           range := widen d.range e }

/-- Arm a command's list, and let the command wait for the replies (R247). -/
def armAndWait (s : State) (h : HubId) (x : Slot) (st : Status) (base count : Nat) (recs : Nat × Nat) (target : Nat) :
    State :=
  let (s, _) := armList s h (some x.id) st base count recs target
  match getSlot s (.hub h) x.id with
  | some y => putSlot s (.hub h) { y with phase := .running }
  | none => s

/-- Arm the list that a command has written, if its PUB_MODE says so; the command then waits for the replies (R247).
`mode` and `stride` are its PUB_MODE and PUB_STRIDE. -/
def armWritten (h : HubId) (x : Slot) (mode stride : Nat) (pub : Tensor) (count : Nat) (recs : Nat × Nat) : Run Unit := do
  if mode = 0 then pure ()
  else
    let target := if mode = 1 then stride else (x.startStride + stride) % 2 ^ 64
    let r ← get
    let st := if r.defect then Status.defect else if r.refused then .refused else .ok
    let room ← look (fun s => (armList s h (some x.id) st pub.d.base count recs target).2)
    if room then act (fun s => armAndWait s h x st pub.d.base count recs target)
    else engineFault (.hub h) x.words 19

/-- THIN and SPROUT. -/
def runThin (h : HubId) (sprout : Bool) (x : Slot) : Run Unit := do
  let ws := x.words
  let f : FrontId := .hub h
  if cb ws 4 13 then
    match ← gated f h.val x 29 with
    | none =>
      act (fun s => bump s f.block 21 1)
      return ()
    | some _ => pure ()
  let b ← loadDesc f ws (cf ws 2 15 0) 1
  let master ← loadAny f ws (cf ws 2 31 16)
  let aux ← loadAnyOpt f ws (cf ws 3 15 0)
  let pub ← loadOpt f ws (cf ws 3 31 16) 0
  let stats ← loadOpt f ws (cf ws 5 15 0) 0
  checkDestOpt f ws pub
  checkDestOpt f ws stats
  let g ← loadGrid f b.d
  let pod := cf ws 4 3 0
  let form := (podForm pod).getD ⟨1, 4, 32, 2, 8⟩
  let first := cf ws 6 15 0
  let count := cf ws 6 31 16
  let a : ThinArgs :=
    { g := g, master := master, aux := aux, pub := pub, stats := stats, form := form, pod := pod, first := first,
      count := count }
  let o : TileOut :=
    { op := cmdOp ws, tag := cmdTag ws, round := cf ws 4 9 8, sat := cb ws 4 10, writeT := cb ws 4 6,
      zeroEmpty := cb ws 4 7, dstOff := (wordAt ws 7).toNat, units := cf ws 5 31 16 }
  match thinInvalid ws sprout a o, pub with
  | some c, _ => engineDefect f ws c
  | none, none => engineDefect f ws 13
  | none, some p =>
    let n := count * g.cols
    let rq := cmdReq f.block ws
    waitForLock h ((List.range n).map (fun j => g.entry (first + j / g.cols) (j % g.cols)))
    act (fun s => rput (rput (rput (rput s f.block Reg.Hub.LAST_TILES 0) f.block Reg.Hub.LAST_ENTERED 0)
      f.block Reg.Hub.LAST_LEFT 0) f.block Reg.Hub.LAST_NNZ 0)
    let seed := engineSeed x 36864
    let d ← (List.range n).foldlM (fun d j => do
      let d ← thinTile h ws sprout rq a p o seed d j
      act (fun s => rput (rput (rput (rput s f.block Reg.Hub.LAST_TILES (wordOf (sat 32 d.tiles)))
        f.block Reg.Hub.LAST_ENTERED (wordOf (sat 32 d.entered))) f.block Reg.Hub.LAST_LEFT (wordOf (sat 32 d.left)))
        f.block Reg.Hub.LAST_NNZ (wordOf (sat 32 d.nnz)))
      return d) ({ tiles := 0, entered := 0, left := 0, nnz := 0, range := none } : ThinDone)
    armWritten h x (cf ws 4 12 11) (cf64 ws 8) p n (d.range.getD (1, 0))

/-- THIN: new records that keep the K highest-scoring positions of each pod. -/
def execThin (h : HubId) (slot : Nat) (s : State) : Host.Outcome State Fault Refusal :=
  .next (startCommand s (.hub h) slot [0x41] false (fun s x => runEngine s (.hub h) x (runThin h false x)))

/-- SPROUT: positions with large gradients grow, others make room. -/
def execSprout (h : HubId) (slot : Nat) (s : State) : Host.Outcome State Fault Refusal :=
  .next (startCommand s (.hub h) slot [0x42] false (fun s x => runEngine s (.hub h) x (runThin h true x)))

end Sys2Proof.Machine
end

