-- ==== Sys2Proof/Machine/Update.lean ====
section
/-!
DEFINITION. UPDATE and DRIFT_AUDIT: parameter groups and the schedule (R271, R272), the arithmetic (R273–R275), working
copies (R276), tiles (R277), non-finite values and TORN (R268, R278, R279), norm passes (R280), the audit (R281, R282).
-/
namespace Sys2Proof.Machine

/-! ### Groups and the schedule -/

/-- A parameter group (R271). -/
structure Group where
  tOffset   : Nat
  bfMoments : Bool
  sat       : Bool
  outside   : Nat
  round     : Nat
  nesterov  : Bool
  algo      : Nat
  beta1     : Val
  beta2     : Val
  eps       : Val
  decay     : Val
  lrScale   : Val
  clip      : Val
  gradScale : Val
  deriving DecidableEq, Repr

/-- The registers of group `g` of an engine's page. -/
def groupWords (s : State) (b : Block) (g : Nat) : List Word :=
  [Reg.Upd.GROUP_CTRL, Reg.Upd.GROUP_BETA1, Reg.Upd.GROUP_BETA2, Reg.Upd.GROUP_EPS, Reg.Upd.GROUP_DECAY,
   Reg.Upd.GROUP_LR_SCALE, Reg.Upd.GROUP_CLIP_NORM, Reg.Upd.GROUP_GRAD_SCALE].map (fun o => rget s b (o + 32 * g))

/-- A group from its registers. -/
def groupFrom (ws : List Word) : Group :=
  let c := wordAt ws 0
  let v (k : Nat) : Val := f32 (wordAt ws k)
  { tOffset := bits c 31 16, bfMoments := bit c 9, sat := bit c 8, outside := bits c 7 6, round := bits c 5 4,
    nesterov := bit c 2, algo := bits c 1 0, beta1 := v 1, beta2 := v 2, eps := v 3, decay := v 4, lrScale := v 5,
    clip := v 6, gradScale := v 7 }

/-- Group `g` of an engine's page. -/
def groupOf (s : State) (b : Block) (g : Nat) : Group := groupFrom (groupWords s b g)

/-- Group `g` of an engine's page as it stood at the command's start (R271). -/
def groupAtStart (b : Block) (g : Nat) : Run Group := do
  return groupFrom (← startCopy (2 ^ 22) (look (groupWords · b g)))

/-- Is a value negative, zero apart? -/
def Val.below0 (v : Val) : Bool := v.isNeg && !v.isZero

/-- Group fields out of range (R270). -/
def Group.invalid (g : Group) : Bool :=
  let unit (v : Val) : Bool := v.nonfinite || v.below0 || !Val.one.gt v
  let pos (v : Val) : Bool := v.nonfinite || v.below0
  unit g.beta1 || unit g.beta2 || pos g.eps || pos g.decay || pos g.clip || g.lrScale.nonfinite ||
  g.gradScale.nonfinite || g.outside = 3 || g.round = 1 || g.round = 3

/-- An entry of the schedule: step number and rate. -/
abbrev SchedEntry := Nat × Val

/-- The entries of a schedule of `n` entries from its words; none where it breaks R272. -/
def schedOf (n : Nat) (l : List Word) : Option (List SchedEntry) :=
  let es := (List.range n).map (fun k =>
    let w := l.drop (4 * k)
    ((wordAt w 0).toNat + 2 ^ 32 * (wordAt w 1).toNat, f32 (wordAt w 2), wordAt w 3))
  if n = 0 || 4096 < n || !rising (es.map (·.1)) || es.any (fun e => e.2.1.nonfinite || e.2.2 ≠ 0) then none
  else some (es.map (fun e => (e.1, e.2.1)))

/-- Read the schedule of an engine at command start (R271). -/
def readSched (f : FrontId) (ws : List Word) : Run (Option (List SchedEntry)) := do
  let b := f.block
  let l ← startCopy (2 ^ 22 + 1) (do
    let base ← look (fun s => rget64 s b Reg.Upd.SCHED_BASE_LO Reg.Upd.SCHED_BASE_HI)
    let n ← look (fun s => rfield s b Reg.Upd.SCHED_COUNT 12 0)
    if n = 0 || 4096 < n then return []
    return wordsOf (4 * n) (← needData (fun s => gRead s (cmdReq b ws) base (16 * n))))
  return schedOf (l.length / 4) l

/-- A ratio of naturals rounded once to FP32. -/
def cr32Ratio (n d : Nat) : Val := rneRatio false n d

/-- The value of the schedule at a step `t` that its first entry does not lie above, between two entries (R272). -/
def schedFrom (t : Nat) : List SchedEntry → Val
  | [] => Val.zero
  | [(_, l)] => l
  | (s0, l0) :: (s1, l1) :: rest =>
    if t < s1 then addF l0 (mulF (subF l1 l0) (cr32Ratio (t - s0) (s1 - s0)))
    else schedFrom t ((s1, l1) :: rest)

/-- The value of the schedule at step `t` (R272). -/
def schedAt (t : Nat) (l : List SchedEntry) : Val :=
  match l with
  | [] => Val.zero
  | (s0, l0) :: _ => if t ≤ s0 then l0 else schedFrom t l

/-- 1 − β^t, rounded once (R273). From t = 2^30 on β^t is below half a unit of 1, since β is at most 1 − 2^-24. -/
def biasCorr (beta : Val) (t : Nat) : Val :=
  match beta with
  | .fin _ m e =>
    if m = 0 || 2 ^ 30 ≤ t then Val.one
    else
      let d := 2 ^ ((-e).toNat * t)
      let n := (m * 2 ^ e.toNat) ^ t
      cr32Ratio (d - n) d
  | _ => .nan

/-- What R273 computes once per command. -/
structure Consts where
  g    : Group
  lr   : Val
  s    : Val
  omb1 : Val
  omb2 : Val
  bc1  : Val
  bc2  : Val
  seed : BitVec 64
  deriving DecidableEq, Repr

/-- The constants of an APPLY (R273); `seed` is that of the moment lane (R274). -/
def constsOf (g : Group) (sched : List SchedEntry) (committed : Nat) (norm : Val) (seed : BitVec 64) : Consts :=
  let t := max 1 (committed - g.tOffset)
  let nrm := mulF norm g.gradScale
  let s := if g.clip.isZero || (nrm ≠ .nan && !nrm.gt g.clip) then g.gradScale
    else mulF g.gradScale (divF g.clip nrm)
  { g := g, lr := mulF (schedAt t sched) g.lrScale, s := s, omb1 := subF Val.one g.beta1, omb2 := subF Val.one g.beta2,
    bc1 := biasCorr g.beta1 t, bc2 := biasCorr g.beta2 t, seed := seed }

/-- The sign of a value: +1, −1, or +0 for a zero. -/
def signF : Val → Val
  | .nan => .nan
  | v => if v.isZero then Val.zero else if v.isNeg then Val.one.neg else Val.one

/-- A position: master, moments. -/
structure Pos where
  w : Val
  m : Val
  v : Val
  deriving DecidableEq, Repr

/-- The arithmetic of R273 at one position in the mask. -/
def Consts.step (k : Consts) (x : Pos) (gIn : Val) : Pos :=
  let g := mulF gIn k.s
  let p := k.g
  let (u, m, v) : Val × Val × Val :=
    match p.algo with
    | 0 =>
      let m := fmaF p.beta1 x.m (mulF k.omb1 g)
      let v := fmaF p.beta2 x.v (mulF k.omb2 (mulF g g))
      (divF (divF m k.bc1) (addF (sqrtF (divF v k.bc2)) p.eps), m, v)
    | 1 =>
      let m := fmaF p.beta1 x.m g
      (if p.nesterov then fmaF p.beta1 m g else m, m, x.v)
    | 2 => (signF (fmaF p.beta1 x.m (mulF k.omb1 g)), fmaF p.beta2 x.m (mulF k.omb2 g), x.v)
    | _ => (g, x.m, x.v)
  { w := subF x.w (mulF k.lr (fmaF p.decay x.w u)), m := m, v := v }

/-- A position outside the mask under DECAY (R275). -/
def Consts.decayed (k : Consts) (w : Val) : Val := subF w (mulF k.lr (mulF k.g.decay w))

/-- Does the algorithm use the first and the second moment? -/
def Group.needs (g : Group) : Bool × Bool := (g.algo ≠ 3, g.algo = 0)

/-! ### Rows -/

/-- An UPDATE or LAP has written an element of the parameter state, or some part of it before it stopped (R268). -/
def writing (x : Run Unit) : Run Unit := do
  let m ← look (·.mem)
  tryCatch x (fun st => do
    if (← look (·.mem)) ≠ m then modify (fun r => { r with wrote := true })
    throw st)
  modify (fun r => { r with wrote := true })

/-- Note values that are not finite (R278). -/
def noteNf (b : Bool) : Run Unit := modify (fun r => { r with nf := r.nf || b })

/-- Read values of a row; a paired value enters as its high part (R269). -/
def rowVals (rq : Req) (t : Tensor) (row c0 n : Nat) : Run (List Val) := do
  if t.d.fmt = 0xD then return (← readCodes rq t.d row c0 n).map (fun c => f32 (wordOf c))
  else return (← readElems rq t row c0 n).map (·.val)

/-- Read a row of a moment that may be absent. -/
def momentVals (rq : Req) (t : Option Tensor) (row c0 n : Nat) : Run (List Val) :=
  match t with
  | some t => rowVals rq t row c0 n
  | none => pure []

/-- The code of a new moment (R274): FP32, or BF16 rounded with the draw of moment `j` of ordinal `i`. -/
def momentCode (k : Consts) (i j : Nat) (v : Val) : Nat :=
  if k.g.bfMoments then
    (bf16.convert (.stochastic ((mix64 (k.seed ^^^ (BitVec.ofNat 64 i <<< 1) ^^^ BitVec.ofNat 64 j)).toNat % 2 ^ 24))
      false v).1
  else (toF32 v).toNat

/-- The tensors of an UPDATE or a LAP. -/
structure ParamSet where
  master : Tensor
  m1     : Option Tensor
  m2     : Option Tensor
  deriving DecidableEq, Repr

/-- Write new masters, and new moments, at positions of a row; `base` is the ordinal of the row's position 0. -/
def writePositions (k : Consts) (rq : Req) (p : ParamSet) (row base : Nat) (ws moms : List (Nat × Pos)) : Run Unit := do
  let codes (j : Nat) (sel : Pos → Val) : List (Nat × Nat) := moms.map (fun (c, x) => (c, momentCode k (base + c) j (sel x)))
  let decode (c : Nat) : Val := if k.g.bfMoments then bf16.decode c else fp32.decode c
  noteNf (ws.any (fun x => x.2.w.nonfinite))
  if ws ≠ [] then writing (writeAt rq p.master.d row (ws.map (fun (c, x) => (c, (toF32 x.w).toNat))))
  match p.m1 with
  | some t =>
    let l := codes 0 (·.m)
    noteNf (l.any (fun x => (decode x.2).nonfinite))
    if l ≠ [] then writing (writeAt rq t.d row l)
  | none => pure ()
  match p.m2 with
  | some t =>
    let l := codes 1 (·.v)
    noteNf (l.any (fun x => (decode x.2).nonfinite))
    if l ≠ [] then writing (writeAt rq t.d row l)
  | none => pure ()

/-- Write a row of a KIND 0 working copy (R276). -/
def writeWork (k : Consts) (rq : Req) (work : Option Tensor) (row : Nat) (vs : List Val) : Run Unit :=
  match work with
  | some t => do
    let o := convertRow t.d.fmt k.g.round k.g.sat (vs.mapIdx (fun c v => { pos := c, v := v, draw := 0 }))
    noteNf o.nf
    if o.unrep ≠ 0 then markDefect
    writing (writeOutRow rq t row o)
  | none => pure ()

/-- Apply the arithmetic to every element of the master, row by row; `grad` reads a row of gradients and `count` notes
how many positions were updated. -/
def applyDense (k : Consts) (rq : Req) (p : ParamSet) (work : Option Tensor) (grad : Nat → Run (List Val))
    (count : Nat → Run Unit) : Run Unit := do
  let n := p.master.d.last
  forN p.master.d.rows (fun r => do
    let w ← rowVals rq p.master r 0 n
    let g ← grad r
    let m ← momentVals rq p.m1 r 0 n
    let v ← momentVals rq p.m2 r 0 n
    let new := (List.range n).map (fun c =>
      (c, k.step { w := w.getD c Val.zero, m := m.getD c Val.zero, v := v.getD c Val.zero } (g.getD c Val.zero)))
    writePositions k rq p r (r * n) new new
    writeWork k rq work r (new.map (·.2.w))
    count n)

/-- Set TORN where a command stops after it has written parameter state (R268, R279). -/
def tornGuard (f : FrontId) (ws : List Word) (x : Run Unit) : Run Unit :=
  tryCatch x (fun st => do
    if (← get).wrote then act (fun s => raiseTag (setTorn s) f.block 30 (cmdTag ws) (cmdOp ws))
    throw st)

/-- Raise NONFINITE and set the flag of the ledger's NEXT set where an APPLY has written a value that is not finite (R278), whether it
ran to its end or was stopped. -/
def nfGuard (f : FrontId) (ws : List Word) (x : Run Unit) : Run Unit := do
  let report : Run Unit := do
    if (← get).nf then act (fun s => setNonfiniteNext (raiseTag s f.block 16 (cmdTag ws) (cmdOp ws)))
  tryCatch x (fun st => do
    report
    throw st)
  report

/-! ### Validation (R270) -/

/-- The operands of UPDATE, loaded. -/
structure UpdateArgs where
  p     : ParamSet
  grad  : Tensor
  work  : Option Tensor
  pub   : Option Tensor
  grid  : Option Grid
  first : Nat
  count : Nat
  slots : Bool
  norm  : Bool
  deriving DecidableEq, Repr

/-- Load a working copy of KIND 0 or 1. -/
def loadWork (f : FrontId) (ws : List Word) (i : Nat) : Run (Option Tensor) := do
  if i = 0 then return none
  let kind ← look (fun s => (descOf (wordsOf 16 (getBytes s (entryAddr s f i) 64))).kind)
  return some (← loadDesc f ws i (if kind = 1 then 1 else 0))

/-- The moments that are present against those that the algorithm uses. -/
def badMoments (g : Group) (p : ParamSet) : Bool := (p.m1.isSome, p.m2.isSome) ≠ g.needs

/-- Formats of R270: moments of M_FMT, master, gradient, working copy. -/
def badFormats (g : Group) (p : ParamSet) (grad work : Option Tensor) : Bool :=
  let mf := if g.bfMoments then 5 else 7
  p.master.d.fmt ≠ 7 || (p.m1.toList ++ p.m2.toList).any (fun t => t.d.fmt ≠ mf) ||
  grad.any (fun t => !([5, 7, 0xD].contains t.d.fmt)) || work.any (fun t => !isOperandFmt t.d.fmt)

/-- Tensors in dense form must have the master's extents. -/
def badExtents (p : ParamSet) (grad work : Option Tensor) : Bool :=
  (p.m1.toList ++ p.m2.toList ++ grad.toList ++ work.toList).any (fun t => t.d.exts ≠ p.master.d.exts)

/-- Stored slots of a tile, by its entry. -/
def entrySlots (x : DirEntry) : Nat :=
  match podForm x.pod with
  | some f => 128 * f.slots
  | none => if x.pod = podBlock then x.nnz else 0

/-- The cause that an UPDATE fails with, the schedule apart; `es` are the live entries of the covered tiles. -/
def updateInvalid (a : UpdateArgs) (g : Group) (o : TileOut) (es : List DirEntry) : Option Nat :=
  let dense := if a.slots then none else some a.grad
  let work0 := if a.grid.isSome then none else a.work
  let ranges := ([a.p.master, a.grad] ++ a.p.m1.toList ++ a.p.m2.toList ++ work0.toList).map (·.d.range)
  match a.grid with
  | some gr =>
    let n := a.count * gr.cols
    let area := recordArea gr o a.first a.count (64 * o.units)
    let slotShape := a.slots && (a.grad.d.rank ≠ 2 || a.grad.d.ext 0 < (a.first + a.count) * gr.cols ||
      es.any (fun x => a.grad.d.ext 1 < entrySlots x))
    if badExtents a.p dense none || a.p.master.d.exts ≠ gr.d.exts || slotShape then some 12
    else if a.count = 0 || gr.rows < a.first + a.count then some 12
    else if badMoments g a.p || badFormats g a.p (some a.grad) none || a.p.master.d.rank ≠ 2 then some 13
    else if a.norm && a.pub.isSome || !a.norm && !a.pub.any (int32List · (16 * n)) then some 13
    else if (isMx gr.fmt && o.writeT) || !gr.alloc.holds area then some 13
    else if anyMeet (area :: (a.pub.map (listArea · (16 * n))).toList ++ ranges) || g.invalid then some 13
    else none
  | none =>
    if badExtents a.p dense work0 || a.slots then some 12
    else if badMoments g a.p || badFormats g a.p (some a.grad) work0 then some 13
    else if a.first ≠ 0 || a.count ≠ 0 || a.pub.isSome || anyMeet ranges || g.invalid then some 13
    else if a.norm && a.work.isSome then some 13
    else none

/-- Load the operands of UPDATE. -/
def loadUpdate (f : FrontId) (ws : List Word) : Run UpdateArgs := do
  let master ← loadDesc f ws (cf ws 2 15 0) 0
  let grad ← loadDesc f ws (cf ws 2 31 16) 0
  let m1 ← loadOpt f ws (cf ws 3 15 0) 0
  let m2 ← loadOpt f ws (cf ws 3 31 16) 0
  let work ← loadWork f ws (cf ws 4 15 0)
  let pub ← loadOpt f ws (cf ws 4 31 16) 0
  let grid ← match work with
    | some t => if t.d.kind = 1 then some <$> loadGrid f t.d else pure none
    | none => pure none
  return { p := { master := master, m1 := m1, m2 := m2 }, grad := grad, work := work, pub := pub, grid := grid,
           first := cf ws 6 15 0, count := cf ws 6 31 16, slots := cb ws 5 7, norm := cf ws 5 6 5 = 1 }

/-- The tiles that a command covers, in order: tile row, tile column, ordinal, entry. -/
def coveredTiles (g : Grid) (first count : Nat) : List (Nat × Nat × Nat × Nat) :=
  (List.range (count * g.cols)).map (fun j =>
    let tn := first + j / g.cols
    let tk := j % g.cols
    (tn, tk, tn * g.cols + tk, g.entry tn tk))

/-! ### APPLY of a KIND 1 layer (R275, R277) -/

/-- Why an APPLY leaves a tile unchanged, if it does: the cause of R277. -/
def tileRefused (g : Grid) (o : TileOut) (q : Nat) (x : DirEntry) (bad : Bool) : Option Nat :=
  if bad || (x.pod ≠ podZero && (x.pod = 0 || (podForm x.pod).isNone)) then some 14
  else if x.pod = podZero then none
  else
    let n := match podForm x.pod with
      | some f => (recLayout g.fmt f o.writeT).total
      | none => 0
    if (liveBlocks g.fmt x).any (fun (off, m) => overlaps (64 * off) m (64 * o.start q) n) then some 15
    else if 64 * o.units < n then some 13
    else none

/-- One row of a tile: the new values in the mask and outside it, and the kept slots with their new masters. -/
def applyTileRow (k : Consts) (rq : Req) (a : UpdateArgs) (tn tk q i first : Nat) (slots : List PodSlot) :
    Run (List (Nat × Val)) := do
  let row := 128 * tn + i
  let c0 := 128 * tk
  let w ← rowVals rq a.p.master row c0 128
  let m ← momentVals rq a.p.m1 row c0 128
  let v ← momentVals rq a.p.m2 row c0 128
  let mask := maskRow slots
  let g ← if mask = [] then pure []
    else if a.slots then rowVals rq a.grad q first slots.length
    else do
      let l ← rowVals rq a.grad row c0 128
      pure (mask.map (fun p => l.getD p Val.zero))
  let at_ (p : Nat) : Pos := { w := w.getD p Val.zero, m := m.getD p Val.zero, v := v.getD p Val.zero }
  let inside := mask.mapIdx (fun j p => (c0 + p, k.step (at_ p) (g.getD j Val.zero)))
  let out := (List.range 128).filter (fun p => !mask.contains p)
  let zero : Pos := { w := Val.zero, m := Val.zero, v := Val.zero }
  let (ow, om) : List (Nat × Pos) × List (Nat × Pos) :=
    match k.g.outside with
    | 1 => (out.map (fun p => (c0 + p, { at_ p with w := k.decayed (w.getD p Val.zero) })), [])
    | 2 => (out.map (fun p => (c0 + p, zero)), out.map (fun p => (c0 + p, zero)))
    | _ => ([], [])
  let sorted (l : List (Nat × Pos)) : List (Nat × Pos) := l.mergeSort (fun x y => x.1 ≤ y.1)
  writePositions k rq a.p row (row * a.p.master.d.last) (sorted (inside ++ ow)) (sorted (inside ++ om))
  return inside.map (fun x => (x.1 - c0, x.2.w))

/-- One tile of an APPLY: whether it was written, so that its record is valid. -/
def applyTile (h : HubId) (ws : List Word) (k : Consts) (rq : Req) (a : UpdateArgs) (g : Grid) (pub : Tensor)
    (o : TileOut) (j tn tk q e : Nat) (x : DirEntry) : Run Bool := do
  let f : FrontId := .hub h
  let (bad, rows) ← liveRows rq g x
  match tileRefused g o q x bad with
  | some c =>
    noteFault h e
    engineFault f ws c
    let img ← freeWords 8
    stage rq pub j (stagedRecord img e false x.gen o.op o.tag)
    return false
  | none =>
    let kept ← (List.range 128).mapM (fun i =>
      applyTileRow k rq a tn tk q i (match podForm x.pod with | some p => i * p.slots | none => 0) (rows.getD i []))
    let n := (kept.map (·.length)).foldl (· + ·) 0
    act (fun s => bump (bump s f.block 19 n) f.block 20 (16384 - n))
    act (fun s => rput s f.block Reg.Upd.LAST_APPLIED
      (wordOf (sat 32 ((rget s f.block Reg.Upd.LAST_APPLIED).toNat + n))))
    let img ← match podForm x.pod with
      | some p => do
        noteNf ((slotCodes g.fmt o.round o.sat kept).1.any (fun c => (decodeElem g.fmt c).nonfinite) ||
          (slotCodes g.fmt o.round o.sat kept).2.any (· = 0xFF))
        let m ← look (·.mem)
        let r ← tryCatch (writeRecord_ rq g o p x.pod q x.gen kept) (fun st => do
          if (← look (·.mem)) ≠ m then modify (fun r => { r with wrote := true })
          throw st)
        modify (fun r => { r with wrote := true })
        pure r.1
      | none => pure [wordOf (podZero + g.fmt * 16), wordOf (x.gen + 1), 0, 0, 0, 0, 0, 0]
    stage rq pub j (stagedRecord img e true x.gen o.op o.tag)
    return true

/-- How an UPDATE writes tiles. -/
def updateOut (ws : List Word) (g : Group) : TileOut :=
  { op := 0x40, tag := cmdTag ws, round := g.round, sat := g.sat, writeT := cb ws 5 8, zeroEmpty := cb ws 5 9,
    dstOff := (wordAt ws 7).toNat, units := cf ws 8 15 0 }

/-- UPDATE in APPLY mode. -/
def runApply (h : HubId) (x : Slot) : Run Unit := do
  let ws := x.words
  let f : FrontId := .hub h
  let b := f.block
  let group ← groupAtStart b (cf ws 5 4 0)
  let sched ← readSched f ws
  match ← gated f h.val x 29 with
  | none => act (fun s => bump s b 21 1)
  | some dec =>
    let a ← loadUpdate f ws
    checkDest f ws a.p.master
    checkDestOpt f ws a.p.m1
    checkDestOpt f ws a.p.m2
    if a.grid.isNone then checkDestOpt f ws a.work
    checkDestOpt f ws a.pub
    let rq := cmdReq b ws
    let tiles := match a.grid with
      | some g => if g.rows < a.first + a.count then [] else coveredTiles g a.first a.count
      | none => []
    waitForLock h (tiles.map (fun t => t.2.2.2))
    let es ← tiles.mapM (fun t => readDirEntry rq t.2.2.2)
    let o := updateOut ws group
    match updateInvalid a group o es, sched with
    | some c, _ => engineDefect f ws c
    | none, none => engineDefect f ws 27
    | none, some sc =>
      let k := constsOf group sc dec.committed (f32 dec.norm) (engineSeed x 36865)
      act (fun s => rput s b Reg.Upd.LAST_APPLIED 0)
      match a.grid, a.pub with
      | some g, some pub =>
        nfGuard f ws (tornGuard f ws (do
          let range ← ((tiles.zip es).zipIdx).foldlM (fun r ((t, y), j) => do
            let (tn, tk, q, e) := t
            return if ← applyTile h ws k rq a g pub o j tn tk q e y then widen r e else r) (none : Option (Nat × Nat))
          armWritten h x (cf ws 5 11 10) (cf64 ws 9) pub tiles.length (range.getD (1, 0))))
      | _, _ =>
        nfGuard f ws (tornGuard f ws (applyDense k rq a.p a.work (fun r => rowVals rq a.grad r 0 a.grad.d.last)
          (fun n => act (fun s => bump (rput s b Reg.Upd.LAST_APPLIED
            (wordOf (sat 32 ((rget s b Reg.Upd.LAST_APPLIED).toNat + n)))) b 19 n))))

/-- APPLY: the optimiser step of a command's parameters, under the decision of its step. -/
def execApply (h : HubId) (slot : Nat) (s : State) : Host.Outcome State Fault Refusal :=
  .next (startCommand s (.hub h) slot [0x40] false (fun s x =>
    if cf x.words 5 6 5 = 0 then runEngine s (.hub h) x (runApply h x) else s))

/-! ### NORM (R280) -/

/-- A sum of squares in progress: units of 2^-280, and whether a value was not finite. -/
abbrev SumSq := Nat × Bool

/-- The exact square of a finite value on the grid of 2^-280 (R263). -/
def squareUnits (v : Val) : Nat :=
  match v with
  | .fin _ m e => (onGrid (m * m) (2 * e)).1
  | _ => 0

/-- More values. -/
def addSquares (x : SumSq) (l : List Val) : SumSq :=
  (l.foldl (fun n v => n + squareUnits v) x.1, x.2 || l.any (·.nonfinite))

/-- Add a command's sum of squares to the ledger, in one addition (R263). -/
def addToLedger (s : State) (x : SumSq) : State :=
  let s := addNorm s x.1
  if x.2 then setNonfinite s else s

/-- UPDATE in NORM mode. -/
def runNorm (h : HubId) (x : Slot) : Run Unit := do
  let ws := x.words
  let f : FrontId := .hub h
  let group ← groupAtStart f.block (cf ws 5 4 0)
  let sched ← readSched f ws
  let a ← loadUpdate f ws
  let rq := cmdReq f.block ws
  let tiles := match a.grid with
    | some g => if g.rows < a.first + a.count then [] else coveredTiles g a.first a.count
    | none => []
  let es ← tiles.mapM (fun t => readDirEntry rq t.2.2.2)
  match updateInvalid a group (updateOut ws group) es, sched with
  | some c, _ => engineDefect f ws c
  | none, none => engineDefect f ws 27
  | none, some _ =>
    let sum ← match a.grid with
      | some g => (tiles.zip es).foldlM (fun acc (t, y) => do
          let (tn, tk, q, e) := t
          let (bad, rows) ← liveRows rq g y
          if bad then
            noteFault h e
            engineFault f ws 14
            return acc
          if a.slots then
            return addSquares acc (← rowVals rq a.grad q 0 (entrySlots y))
          else
            rows.zipIdx.foldlM (fun acc (r, i) => do
              if r = [] then return acc
              let l ← rowVals rq a.grad (128 * tn + i) (128 * tk) 128
              return addSquares acc ((maskRow r).map (fun p => l.getD p Val.zero))) acc) ((0, false) : SumSq)
      | none => (List.range a.grad.d.rows).foldlM (fun acc r => do
          return addSquares acc (← rowVals rq a.grad r 0 a.grad.d.last)) ((0, false) : SumSq)
    act (fun s => addToLedger s sum)

/-- NORM_PASS: the exact sum of squares of a gradient, into the ledger. -/
def execNormPass (h : HubId) (slot : Nat) (s : State) : Host.Outcome State Fault Refusal :=
  .next (startCommand s (.hub h) slot [0x40] false (fun s x =>
    if cf x.words 5 6 5 = 1 then runEngine s (.hub h) x (runNorm h x) else s))

/-! ### DRIFT_AUDIT (R281, R282) -/

/-- Mismatches at ordinals: DRIFT for each, the first one in DRIFT_POS. -/
def noteDrift (f : FrontId) (ws : List Word) (l : List Nat) : Run Unit := do
  match l with
  | [] => pure ()
  | p :: _ =>
    markDefect
    act (fun s =>
      let b := f.block
      let s := if rbit s b Reg.Upd.DRIFT_POS_HI 31 then s
        else rput (rput s b Reg.Upd.DRIFT_POS_LO (wordOf p)) b Reg.Upd.DRIFT_POS_HI
          (wordOf (2 ^ 31 + p / 2 ^ 32 % 2 ^ 31))
      l.foldl (fun s _ => raiseTag s b 28 (cmdTag ws) (cmdOp ws)) (bump s b 23 l.length))

/-- One selected row of a KIND 0 working copy: the ordinals that differ from the conversion of R276. -/
def auditRow (rq : Req) (g : Group) (master work : Tensor) (r : Nat) : Run (List Nat) := do
  let n := master.d.last
  let vs ← rowVals rq master r 0 n
  let codes ← readCodes rq work.d r 0 n
  let scales ← readScales rq work r 0 n
  let o := convertRow work.d.fmt g.round g.sat (vs.mapIdx (fun c v => { pos := c, v := v, draw := 0 }))
  return (List.range n).filterMap (fun c =>
    let want := (o.codes.getD c (c, 0)).2
    let wantSc := (o.scales.getD (c / 32) (0, 0)).2
    if codes.getD c 0 ≠ want || (isMx work.d.fmt && scales.getD c 0 ≠ wantSc) then some (r * n + c) else none)

/-- Does a selected tile hold what R281 asks of it? -/
def auditTile (rq : Req) (g : Group) (grid : Grid) (master : Tensor) (tn tk e : Nat) : Run Bool := do
  let x ← readDirEntry rq e
  let (bad, rows) ← liveRows rq grid x
  if bad || (x.pod ≠ podZero && (x.pod = 0 || (podForm x.pod).isNone)) then return false
  let kept ← rows.zipIdx.mapM (fun (r, i) => do
    let vs ← rowVals rq master (128 * tn + i) (128 * tk) 128
    return (maskRow r).map (fun p => (p, vs.getD p Val.zero)))
  let (codes, scales) := slotCodes grid.fmt g.round g.sat kept
  let slots := rows.flatten
  let same := slots.map (·.code) = codes &&
    slots.zipIdx.all (fun (y, q) => y.scale.isNone || y.scale = some (scales.getD (q / 32) 0))
  let nnz := (slots.filter (fun y => !y.zero grid.fmt)).length
  if !same || nnz ≠ x.nnz then return false
  if x.tValid && x.pod ≠ podZero then
    let t ← readTransposed rq grid x
    let lst (l : List (List PodSlot)) : List (List (Nat × Nat)) := l.map (fun r => r.map (fun y => (y.pos.getD 0, y.code)))
    return t.fault.isNone && lst t.rows = lst (transposeTile grid.fmt false rows)
  return true

/-- DRIFT_AUDIT. -/
def runAudit (h : HubId) (x : Slot) : Run Unit := do
  let ws := x.words
  let f : FrontId := .hub h
  let group ← groupAtStart f.block (cf ws 3 4 0)
  let _ ← readSched f ws
  let master ← loadDesc f ws (cf ws 2 15 0) 0
  let work ← loadWork f ws (cf ws 2 31 16)
  let first := cf ws 4 15 0
  let count := cf ws 4 31 16
  let rq := cmdReq f.block ws
  let sel (n : Nat) : Bool := (n + x.startStride) % 2 ^ cf ws 3 8 5 = 0
  let badRound := group.round = 1 || group.round = 3
  match work with
  | none => refuseDesc f ws 4
  | some t =>
    if t.d.kind = 1 then
      let g ← loadGrid f t.d
      if master.d.exts ≠ g.d.exts || count = 0 || g.rows < first + count then engineDefect f ws 12
      if master.d.fmt ≠ 7 || badRound then engineDefect f ws 13
      ((coveredTiles g first count).filter (fun t => sel t.2.2.1)).forM (fun (tn, tk, q, e) => do
        let ok ← auditTile rq group g master tn tk e
        act (fun s => bump s f.block 22 1)
        if !ok then noteDrift f ws [q])
    else
      if master.d.exts ≠ t.d.exts then engineDefect f ws 12
      if master.d.fmt ≠ 7 || !isOperandFmt t.d.fmt || badRound || first ≠ 0 || count ≠ 0 then engineDefect f ws 13
      ((List.range master.d.rows).filter sel).forM (fun r => do
        let l ← auditRow rq group master t r
        act (fun s => bump s f.block 22 master.d.last)
        noteDrift f ws l)

/-- DRIFT_AUDIT: sampled working values against conversions of the master. -/
def execDriftAudit (h : HubId) (slot : Nat) (s : State) : Host.Outcome State Fault Refusal :=
  .next (startCommand s (.hub h) slot [0x43] false (fun s x => runEngine s (.hub h) x (runAudit h x)))

end Sys2Proof.Machine
end

