-- ==== Sys2Proof/Machine/Slow.lean ====
section
/-!
DEFINITION. The slow-tier update engine: the parking ring (R283, R284), PARK (R286), the decision at the engines (R265,
R267, R287) and RUN (R288, R289).
-/
namespace Sys2Proof.Machine

/-! ### The ring -/

/-- The parking ring of an engine. -/
def getPark (s : State) (p : PortDieId) : ParkRing := tget ParkRing.reset s.parks p.val

/-- Change an engine's parking ring. -/
def putPark (s : State) (p : PortDieId) (r : ParkRing) : State := { s with parks := tset ParkRing.reset s.parks p.val r }

/-- PARK_SLOTS and the slot size in 64-byte units (R283). -/
def parkSlots (s : State) (p : PortDieId) : Nat := rfield s (.slow p) Reg.Slow.PARK_CFG 14 8

/-- The size of a slot in 64-byte units. -/
def parkUnits (s : State) (p : PortDieId) : Nat := (rget s (.slow p) Reg.Slow.PARK_SLOT_UNITS).toNat

/-- The local address of slot `k`, in this device's HBM. -/
def parkAddr (s : State) (p : PortDieId) (k : Nat) : Nat :=
  rget64 s (.slow p) Reg.Slow.PARK_BASE_LO Reg.Slow.PARK_BASE_HI + 64 * parkUnits s p * k

/-- The ring index `n` places after the head. -/
def parkIndex (s : State) (p : PortDieId) (n : Nat) : Nat := ((getPark s p).head + n) % max 1 (parkSlots s p)

/-- A slot's header (R284). -/
structure ParkHead where
  step      : Nat
  state     : Nat
  regions   : Nat
  consumed  : Nat
  norm      : Word
  committed : Nat
  fill      : Nat
  deriving DecidableEq, Repr

/-- A header from its 16 words. -/
def parkHeadOf (w : List Word) : ParkHead :=
  { step := cf64 w 0, state := cf w 2 1 0, regions := cf w 2 15 8, consumed := cf w 2 23 16, norm := wordAt w 3,
    committed := cf64 w 4, fill := (wordAt w 6).toNat }

/-- The bytes of a header. -/
def ParkHead.bytes (h : ParkHead) : List Byte :=
  bytesOf ([wordOf h.step, wordHi h.step, wordOf (h.state + h.regions * 2 ^ 8 + h.consumed * 2 ^ 16), h.norm,
    wordOf h.committed, wordHi h.committed, wordOf h.fill] ++ List.replicate 9 0)

/-- The header of a region: the master's descriptor index, its SEQ, and the element count (R284). -/
def regionHead (index seq count : Nat) : List Byte :=
  bytesOf ([wordOf (index + seq * 2 ^ 16), wordOf (count / 2 ^ 32), wordOf count] ++ List.replicate 13 0)

/-- 64-byte units of a region of `n` elements, its header included. -/
def regionUnits (n : Nat) : Nat := 1 + cdiv n 16

/-- Is the ring empty and its front end idle, so that its configuration may be written (R283)? -/
def parkIdle (s : State) (p : PortDieId) : Bool := (getPark s p).used = 0 && frontIdle s (.slow p)

/-- Does the configuration leave room for D + 1 slots, and the whole ring in HBM (R283)? -/
def parkValid (s : State) (p : PortDieId) : Bool :=
  let n := parkSlots s p
  let d := rfield s (.slow p) Reg.Slow.PARK_CFG 3 0
  2 ≤ n && n ≤ 64 && 1 ≤ d && d ≤ 8 && d + 1 ≤ n && parkAddr s p n ≤ hbmSize

/-- A write of PARK_BASE, PARK_SLOT_UNITS or PARK_CFG: one that is refused, or that would break R283, is ignored and
raises PARK_CONFIG. -/
def writeParkCfg (s : State) (p : PortDieId) (off : Nat) (v : Word) : State :=
  let t := rwrite s (.slow p) off v
  if parkIdle s p && parkValid t p then t else raise s (.slow p) 14

/-- PARK_CFG. -/
def execParkCfg (p : PortDieId) (offset : Nat) (v : Word) (s : State) : Host.Outcome State Fault Refusal :=
  .next (if [Reg.Slow.PARK_BASE_LO, Reg.Slow.PARK_BASE_HI, Reg.Slow.PARK_SLOT_UNITS, Reg.Slow.PARK_CFG].contains offset
    then writeParkCfg s p offset v else s)

/-- The engine stops holding: a slot has been freed, or its PARK waits no longer (R286). Counter 20 counts the time. -/
def endParkHold (s : State) (p : PortDieId) : State :=
  let r := getPark s p
  if r.hold then bump (putPark s p { r with hold := false }) (.slow p) 20 (s.now - r.since) else s

/-- A PARK waits for a slot: the engine holds the stride (R286). -/
def startParkHold (s : State) (p : PortDieId) : State :=
  let r := getPark s p
  if r.hold then s else putPark s p { r with hold := true, since := s.now }

/-! ### PARK (R286) -/

/-- The step under which gradients are filed now (R286). -/
def receivingStep (s : State) : Nat :=
  match s.ledger.phase with
  | .open_ => s.ledger.stepId
  | _ => s.ledger.stepId + 1

/-- The operands of LAP. -/
structure LapArgs where
  p    : ParamSet
  grad : Option Tensor
  work : Option Tensor
  deriving DecidableEq, Repr

/-- Does a tensor lie in the slow tier of this device (R285)? The slow tier is taken as one: each engine serves the two CXL
ports of its own die (R10), and no rule names a cause for a LAP whose master lies behind a port of the other die, which
the model accepts (DESIGN CHOICE, log entry 159). -/
def inSlowTier (s : State) (t : Tensor) : Bool :=
  match targetOf s t.d.base with
  | .here a => (match placeOf s a with
    | .slow _ _ => true
    | _ => false)
  | _ => false

/-- Load the operands of LAP (R285); RUN has no gradient. -/
def loadLap (f : FrontId) (ws : List Word) (park : Bool) : Run LapArgs := do
  let master ← loadDesc f ws (cf ws 2 15 0) 0
  if !park && cf ws 2 31 16 ≠ 0 then engineDefect f ws 13
  let grad ← if park then (do return some (← loadDesc f ws (cf ws 2 31 16) 0)) else pure none
  let m1 ← loadOpt f ws (cf ws 3 15 0) 0
  let m2 ← loadOpt f ws (cf ws 3 31 16) 0
  let work ← loadOpt f ws (cf ws 4 15 0) 0
  return { p := { master := master, m1 := m1, m2 := m2 }, grad := grad, work := work }

/-- The cause that a LAP fails with, the schedule apart (R285). -/
def lapInvalid (s : State) (a : LapArgs) (g : Group) : Option Nat :=
  let ts := [a.p.master] ++ a.grad.toList ++ a.p.m1.toList ++ a.p.m2.toList ++ a.work.toList
  if badExtents a.p a.grad a.work then some 12
  else if badMoments g a.p || badFormats g a.p a.grad a.work then some 13
  else if !inSlowTier s a.p.master || anyMeet (ts.map (·.d.range)) || g.invalid then some 13
  else none

/-- A fault of PARK or RUN (SKIP_SOURCES bit 6). -/
def lapFault {α : Type} (f : FrontId) (ws : List Word) (cause : Nat) : Run α := do
  act (fun s => stepSkip s 6)
  engineDefect f ws cause

/-- Read a slot's header. -/
def readParkHead (rq : Req) (a : Nat) : Run ParkHead := do
  return parkHeadOf (wordsOf 16 (← needData (fun s => readLocal s rq a 64)))

/-- The slot that PARK writes to: its address and its header, one newly opened where the tail's is not FILLING for the
step (R286); none where every slot is in use. -/
def parkSlot (p : PortDieId) (rq : Req) : Run (Option (Nat × ParkHead)) := do
  let s ← look id
  let step := receivingStep s
  let r := getPark s p
  let tailAt := parkAddr s p r.tail
  let cur ← if r.used = 0 then pure none
    else do
      let h ← readParkHead rq tailAt
      pure (if h.state = 1 && h.step = step then some h else none)
  match cur with
  | some h => return some (tailAt, h)
  | none =>
    if parkSlots s p ≤ r.used then return none
    else
      let k := parkIndex s p r.used
      let a := parkAddr s p k
      let h : ParkHead :=
        { step := step, state := 1, regions := 0, consumed := 0, norm := 0, committed := 0, fill := 1 }
      need (fun s => writeLocal s rq a h.bytes)
      let r' : ParkRing := { r with head := if r.used = 0 then k else r.head, tail := k, used := r.used + 1 }
      act (fun s => putPark s p r')
      return some (a, h)

/-- LAP in PARK mode. -/
def runPark (p : PortDieId) (x : Slot) : Run Unit := do
  let ws := x.words
  let f : FrontId := .slow p
  let group ← groupAtStart f.block (cf ws 5 4 0)
  let sched ← readSched f ws
  let a ← loadLap f ws true
  let s ← look id
  match lapInvalid s a group, a.grad, sched with
  | some c, _, _ => engineDefect f ws c
  | none, none, _ => engineDefect f ws 13
  | none, some _, none => engineDefect f ws 27
  | none, some g, some _ =>
    let rq := cmdReq f.block ws
    match ← parkSlot p rq with
    | none =>
      modify (fun r => { r with full := true })
      stop .delayed
    | some (at_, h) =>
      let n := g.d.count
      let units := regionUnits n
      let room ← look (fun s => decide (h.fill + units ≤ parkUnits s p && h.regions < 255))
      if !room then lapFault f ws 15
      let start := at_ + 64 * h.fill
      need (fun s => writeLocal s rq start (regionHead (cf ws 2 15 0) a.p.master.d.seq n))
      let sum ← (List.range g.d.rows).foldlM (fun acc r => do
        let vs ← rowVals rq g r 0 g.d.last
        let l := bytesOf (vs.map toF32)
        need (fun s => writeLocal s rq (start + 64 + 4 * g.d.last * r) l)
        return addSquares acc vs) ((0, false) : SumSq)
      let pad := 64 * units - 64 - 4 * n
      if pad ≠ 0 then need (fun s => writeLocal s rq (start + 64 + 4 * n) (List.replicate pad 0))
      let h' : ParkHead := { h with regions := h.regions + 1, fill := h.fill + units }
      need (fun s => writeLocal s rq at_ h'.bytes)
      act (fun s => bump (bump (addToLedger s sum) f.block 14 1) f.block 15 units)
      if sum.2 then act (fun s => raiseTag s f.block 16 (cmdTag ws) (cmdOp ws))

/-- PARK: gradients are filed in the ring under the receiving step; with every slot in use the command waits and the
engine holds. -/
def execPark (p : PortDieId) (slot : Nat) (s : State) : Host.Outcome State Fault Refusal :=
  .next (startCommand s (.slow p) slot [0x48] false (fun s x =>
    if cb x.words 5 5 then s
    else
      match runFrom (runPark p x) x.memo s with
      | (r, .delayed) =>
        let t := waitSlot s (.slow p) x r
        if r.full then startParkHold t p else t
      | (r, st) => endSlot (endParkHold r.st p) (.slow p) x.id st))

/-! ### The decision at an engine (R265, R287) -/

/-- Number of an engine that receives the decision: hub 0–3, slow 4–5. -/
def decEngine : DecisionEngine → Nat
  | .hub h => h.val
  | .slow p => 4 + p.val

/-- Write the decision into the header of the slot that is FILLING for the decided step (R287). -/
def fileDecision (s : State) (p : PortDieId) (d : Decision) : State :=
  let rq := reqOf (.slow p) .critical
  (List.range (getPark s p).used).foldl (fun s n =>
    let a := parkAddr s p (parkIndex s p n)
    match peekLocal s rq a 64 with
    | (s, some l) =>
      let h := parkHeadOf (wordsOf 16 l)
      if h.state = 1 && h.step = d.step then
        let h' : ParkHead := { h with state := if d.commit then 2 else 3, norm := d.norm, committed := d.committed }
        (postWrite s rq a h'.bytes).1
      else s
    | (s, none) => s) s

/-- The oldest decision on its way to an engine arrives there. -/
def deliverDecision (s : State) (e : DecisionEngine) : State :=
  match s.decisionMsgs.find? (fun m => m.1 = decEngine e) with
  | none => s
  | some (k, d) =>
    let s := { s with decisionMsgs := s.decisionMsgs.erase (k, d),
                      decisions := tset Decision.reset s.decisions k { d with known := true } }
    match e with
    | .slow p => fileDecision s p d
    | .hub _ => s

/-- DECISION: an engine receives the ledger's decision and acts on it from then on: its commands that wait for it may
run. -/
def execDecision (e : DecisionEngine) (s : State) : Host.Outcome State Fault Refusal := .next (deliverDecision s e)

/-! ### RUN (R288) -/

/-- Start of region `k` of a slot, in 64-byte units, by the regions before it. -/
def regionAt (rq : Req) (a : Nat) : Nat → Nat → Run Nat
  | 0, u => pure u
  | k + 1, u => do
    let w := wordsOf 16 (← needData (fun s => readLocal s rq (a + 64 * u) 64))
    regionAt rq a k (u + regionUnits ((wordAt w 1).toNat * 2 ^ 32 + (wordAt w 2).toNat))

/-- A region has been applied or discarded; after the last one the slot is EMPTY and the lap ends (R288). -/
def consumeRegion (p : PortDieId) (rq : Req) (a : Nat) (h : ParkHead) : Run Unit := do
  let last := decide (h.consumed + 1 = h.regions)
  let h' : ParkHead := { h with consumed := h.consumed + 1, state := if last then 0 else h.state }
  need (fun s => writeLocal s rq a h'.bytes)
  if last then
    act (fun s =>
      let r := getPark s p
      let r' : ParkRing := { r with head := parkIndex s p 1, used := r.used - 1 }
      let s := endParkHold (putPark s p r') p
      let s := rput64 s (.slow p) Reg.Slow.LAST_LAP_STEP_LO Reg.Slow.LAST_LAP_STEP_HI h.step
      let s := bump s (.slow p) 16 1
      if h.state = 3 then bump s (.slow p) 17 1 else s)

/-- The head slot, if step `u` makes it due (R288). -/
def dueSlot (p : PortDieId) (rq : Req) (u : Nat) : Run (Option (Nat × ParkHead)) := do
  let s ← look id
  let r := getPark s p
  if r.used = 0 then return none
  let a := parkAddr s p r.head
  let h ← readParkHead rq a
  let d := rfield s (.slow p) Reg.Slow.PARK_CFG 3 0
  return if h.step + d ≤ u && (h.state = 2 || h.state = 3) then some (a, h) else none

/-- LAP in RUN mode. -/
def runRun (p : PortDieId) (x : Slot) : Run Unit := do
  let ws := x.words
  let f : FrontId := .slow p
  let b := f.block
  let group ← groupAtStart b (cf ws 5 4 0)
  let sched ← readSched f ws
  let _ ← gated f (4 + p.val) x 29
  let a ← loadLap f ws false
  checkDest f ws a.p.master
  checkDestOpt f ws a.p.m1
  checkDestOpt f ws a.p.m2
  checkDestOpt f ws a.work
  let s ← look id
  match lapInvalid s a group, sched with
  | some c, _ => engineDefect f ws c
  | none, none => engineDefect f ws 27
  | none, some sc =>
    if s.ledger.torn then return ()
    let rq := cmdReq b ws
    match ← dueSlot p rq x.step with
    | none => act (fun s => bump s b 18 1)
    | some (at_, h) =>
      if h.regions ≤ h.consumed then lapFault f ws 17
      let u ← regionAt rq at_ h.consumed 1
      let w := wordsOf 16 (← needData (fun s => readLocal s rq (at_ + 64 * u) 64))
      let m := a.p.master
      if cf w 0 15 0 ≠ cf ws 2 15 0 || cf w 0 23 16 ≠ m.d.seq ||
          (wordAt w 1).toNat * 2 ^ 32 + (wordAt w 2).toNat ≠ m.d.count then lapFault f ws 17
      let k := constsOf group sc h.committed (f32 h.norm) (engineSeed x 36866)
      let n := m.d.last
      let parked (r : Nat) : Run (List Val) := do
        let l ← needData (fun s => readLocal s rq (at_ + 64 * (u + 1) + 4 * n * r) (4 * n))
        return (wordsOf n l).map f32
      nfGuard f ws (tornGuard f ws (do
        if h.state = 2 then applyDense k rq a.p a.work parked (fun n => act (fun s => bump s b 19 n))
        consumeRegion p rq at_ h))

/-- RUN: a region of the head slot is applied, or discarded where its step was skipped. -/
def execRun (p : PortDieId) (slot : Nat) (s : State) : Host.Outcome State Fault Refusal :=
  .next (startCommand s (.slow p) slot [0x48] false (fun s x =>
    if cb x.words 5 5 then runEngine s (.slow p) x (runRun p x) else s))

end Sys2Proof.Machine
end

