-- ==== Sys2Proof/Machine/Change.lean ====
section
/-!
DEFINITION. The log of error records (R419, R423, R424), and changes of a die that wait for the re-plan point: scheduling
(R430, R437), the re-plan point (R435), the pause of a rail or clock change (R436).
-/
namespace Sys2Proof.Machine

/-! ### The log (R419, R423, R424) -/

/-- LOG_CTRL.VECTOR of the active queue. -/
def logVector (s : State) : Nat := rfield s (activeQueue s) Reg.Erq.LOG_CTRL 26 16

/-- The 64 bytes of a logged record: CLASS and CRC filled in. -/
def recordBytes (s : State) (r : ErrRecord) (k : Nat) : List Byte :=
  let ws : List Word :=
    [wordOf r.seq, r.unit.unit, wordOf (recordDie r.unit + r.opcode * 2 ^ 8 + r.tag.toNat * 2 ^ 16),
     wordOf (r.cause % 256 + k * 2 ^ 8 + r.merged * 2 ^ 16)] ++ words64 r.stride ++
    [wordOf r.ns, wordOf (r.temp % 65536 + r.rail * 65536), wordOf (nodeId s).val] ++
    (List.range 4).map (wordAt r.syndrome) ++ [0, 0]
  let l := bytesOf ws
  l ++ bytesOf [wordOf (crc32c.of l)]

/-- Records of the log ring. -/
def logSize (s : State) : Nat := 2 ^ s.steward.logLog2

/-- Write a handled record to the log ring; true if it has been logged. -/
def writeLog (s : State) (r : ErrRecord) (k : Nat) : State × Bool :=
  let q := activeQueue s
  let tail := rget s q Reg.Erq.LOG_TAIL
  if logSize s ≤ (tail - rget s q Reg.Erq.LOG_HEAD).toNat then (bump (raise s q 9) q 12 1, false)
  else
    let a := s.steward.logBase + 64 * (tail.toNat % logSize s)
    match postWrite s (reqOf q .critical) a (recordBytes s r k) with
    | (s, .ok) =>
      let s := rput s q Reg.Erq.LOG_TAIL (tail + 1)
      (if rbit s q Reg.Erq.LOG_CTRL 0 then sendMsi s (logVector s) else s, true)
    | (s, _) => (bump s q 12 1, false)

/-- Count a record in the queue's counter of its class. -/
def countClass (s : State) (k : Nat) : State := if k ≤ 5 then bump s (activeQueue s) (3 + k) 1 else s

/-- The active steward's own record, with its class: it logs it at once (R437, R439, R449, R450; assumption 169). -/
def ownRecord (s : State) (b : Block) (cause cls : Nat) (o : Occur) : State :=
  let r := makeRecord s b cause o (some cls)
  (writeLog (countClass (nextSeq s) cls) r cls).1

/-! ### Changes that wait for the re-plan point -/

/-- The pending changes of a die. -/
def getChange (s : State) (d : DieId) : PendingChange := tget PendingChange.reset s.changes d.val

/-- Replace the pending changes of a die. -/
def putChange (s : State) (d : DieId) (x : PendingChange) : State :=
  { s with changes := tset PendingChange.reset s.changes d.val x }

/-- The bit of DEGRADE_PENDING of a die: bit 31 stands for SB. -/
def dieBit (d : DieId) : Nat := min d.val 31

/-- The steward has scheduled a change: the die's bit in DEGRADE_PENDING, a record of class DEGRADE on the queue page, a
message (R437). -/
def noteScheduled (s : State) (d : DieId) (cause : Nat) (o : Occur) : State :=
  let s := rputBit s (activeQueue s) Reg.Erq.DEGRADE_PENDING (dieBit d) true
  sendMsi (ownRecord s (activeQueue s) cause 6 o) (logVector s)

/-- RAIL_MAX: 0–50, down to a multiple of 10. -/
def railMax (s : State) : Nat := rfield s (activeQueue s) Reg.Erq.RAIL_MAX 7 0

/-- The rail offset that a die has, or will have at its next re-plan point. -/
def railTarget (s : State) (d : DieId) : Nat :=
  if rbit s (.clock d) Reg.Clk.RAIL_PENDING 31 then rfield s (.clock d) Reg.Clk.RAIL_PENDING 7 0
  else rfield s (.clock d) Reg.Clk.RAIL_OFFSET 7 0

/-- The clock step that a die has, or will have. -/
def clockTarget (s : State) (d : DieId) : Nat :=
  if rbit s (.clock d) Reg.Clk.CLOCK_PENDING 31 then rfield s (.clock d) Reg.Clk.CLOCK_PENDING 1 0
  else rfield s (.clock d) Reg.Clk.CLOCK_STEP 1 0

/-- Schedule one margin step for a die (R430); none where no step remains. -/
def marginStep (s : State) (d : DieId) (cause : Nat) (o : Occur) : Option State :=
  let r := railTarget s d
  let c := clockTarget s d
  let rail := if r < railMax s then some (rput s (.clock d) Reg.Clk.RAIL_PENDING (wordOf (2 ^ 31 + (r + 10)))) else none
  let clock := if c < 3 then some (rput s (.clock d) Reg.Clk.CLOCK_PENDING (wordOf (2 ^ 31 + (c + 1)))) else none
  let pick := if rbit s (activeQueue s) Reg.Erq.POLICY 0 then clock.or rail else rail.or clock
  pick.map (fun s => bump (noteScheduled s d cause o) (activeQueue s) 11 1)

/-- The die of a unit that the steward charges. -/
def unitDie : Unit_ → DieId
  | .lane c _ | .column c _ | .core c => Fin.ofNat 33 (c.val / 8)
  | .pc st _ => Fin.ofNat 33 (24 + st.val / 4)
  | .nauloLane p _ => Fin.ofNat 33 (28 + p.val / 8)
  | .path d _ | .die d => d

/-- Or bits into a register. -/
def orReg (s : State) (b : Block) (off : Nat) (v : Word) : State := rput s b off (rget s b off ||| v)

/-- A die applies its pending rail and clock changes, and pauses for them (R435 1 and 2, R436). -/
def applyMargin (s : State) (d : DieId) : State :=
  let b : Block := .clock d
  let rail := rbit s b Reg.Clk.RAIL_PENDING 31
  let clock := rbit s b Reg.Clk.CLOCK_PENDING 31
  if !rail && !clock then s
  else
    let s := if rail then
        bump (rput (rput s b Reg.Clk.RAIL_OFFSET (wordOf (railTarget s d))) b Reg.Clk.RAIL_PENDING 0) b 1 1 else s
    let s := if clock then
        bump (rput (rput s b Reg.Clk.CLOCK_STEP (wordOf (clockTarget s d))) b Reg.Clk.CLOCK_PENDING 0) b 0 1 else s
    let bound := (if rail then 1000 else 0) + (if clock then 2000 else 0)
    let mark (u : UnitEntry) : UnitEntry :=
      if unitDie u.unit = d && u.phase = .suspect then { u with stepped := true } else u
    { s with relocks := tset (0, 0) s.relocks d.val (s.now, bound),
             steward := { s.steward with units := s.steward.units.map mark } }

/-- A die applies its pending changes (R435). -/
def applyChanges (s : State) (d : DieId) : State :=
  let x := getChange s d
  let s := applyMargin s d
  let s := x.lanes.foldl (fun s (c, w) => orReg s (.array c) Reg.Arr.LANE_RETIRED w) s
  let s := x.columns.foldl (fun s (c, w) => orReg s (.array c) Reg.Arr.CHECK_COL_RETIRED w) s
  let s := x.precision.foldl (fun s c => rputBit s (.array c) Reg.Arr.PRECISION 0 true) s
  let s := x.powerDown.foldl (fun s c =>
    rputBit s (.proxy (Fin.ofNat 33 (c.val / 8))) Reg.Prx.CORE_POWER (c.val % 8) true) s
  let s := putChange s d PendingChange.reset
  rputBit s (activeQueue s) Reg.Erq.DEGRADE_PENDING (dieBit d) false

/-- The re-plan point: the first fire at or after the close of a step; every die applies its changes (R435). -/
def replanPoint (s : State) : State :=
  if s.replan then (List.finRange 33).foldl (fun s d => if d.val = 31 then s else applyChanges s d) { s with replan := false }
  else s

/-- The pause of a die ends within its bound, and its work resumes (R436). -/
def endRelock (s : State) (d : DieId) : State :=
  match s.relocks.find? (fun x => x.1 = d.val) with
  | none => s
  | some (_, t0, bound) =>
    let len := Config.pauseNs s.fresh % (bound + 1)
    let s := useFresh { s with now := max s.now (t0 + len), relocks := tset (0, 0) s.relocks d.val (0, 0) }
    bump (rput s (.clock d) Reg.Clk.LAST_CHANGE (wordOf len)) (.clock d) 2 len

end Sys2Proof.Machine
end

