-- ==== Sys2Proof/Machine/Bar2.lean ====
section
/-!
DEFINITION. The host's accesses through BAR2 (R506, R508, R509): local ones are answered at once, those to another
device when its answer comes.
-/
namespace Sys2Proof.Machine

/-- The request of a BAR2 access: its class is BAR2_CTRL.CLASS. -/
def hostReq (s : State) : Req := reqOf .host (if rbit s .host Reg.Hst.BAR2_CTRL 0 then .bulk else .critical)

/-- Answer a BAR2 read (R509): data, data marked poisoned, or Completer Abort. -/
def hostReadAnswer (s : State) (n : Nat) (st : Status) (data : List Byte) : State :=
  match st with
  | .ok => emit (bump s .host 2 data.length) (.hostData false data)
  | .poisoned =>
    let k := s.fresh
    emit (bump (useFresh s) .host 5 1) (.hostData true ((List.range n).map (Config.freeByte k)))
  | _ => emit (bump s .host 4 1) .hostAbort

/-- Answer a BAR2 write (R509): one that fails is dropped and counted, with W_FAIL_ADDR of the first. -/
def hostWriteAnswer (s : State) (ga n : Nat) (st : Status) : State :=
  match st with
  | .ok => bump s .host 3 n
  | st =>
    let s := if rbit s .host Reg.Hst.W_FAIL_INFO 31 then s
      else rput (rput64 s .host Reg.Hst.W_FAIL_ADDR_LO Reg.Hst.W_FAIL_ADDR_HI ga) .host Reg.Hst.W_FAIL_INFO
        (wordOf (2 ^ 31 + st.code))
    raise (bump s .host 6 1) .host 10

/-- Answer a BAR2 access of `n` bytes at a global address. -/
def hostAnswer (s : State) (ga n : Nat) (op : Nat) (st : Status) (data : List Byte) : State :=
  if op = 0x01 then hostReadAnswer s n st data else hostWriteAnswer s ga n st

/-- A BAR2 request sets out for another device: it awaits its answer, is held where its way is paused, or is answered at
once. -/
def hostSend (s : State) (ga n op : Nat) (data : List Byte) (use : RemoteUse) : State :=
  let r := hostReq s
  let h := requestHead s r ga n
  let (s, lapsed) := lapses s r.who
  let lost (s : State) : State := hostAnswer (timedOut s r (remoteBound s r.cls)) ga n op .aborted []
  match setOut s r ga n op 0 0 [] data with
  | (_, .inl .delayed) => hold s r (outMark + ga) (if op = 0x01 then .read n else .write data) none (.host ga)
  | (s, .inl st) => hostAnswer s ga n op st []
  | (s, .inr p) =>
    if lapsed || portWay s r h.dst = .noAnswer then lost s
    else { s with remotes := s.remotes ++ [{ xid := h.xid, node := h.dst, port := p, use := use }] }

/-- Make one BAR2 read of at most 512 bytes. -/
def hostRead (s : State) (ga n : Nat) : State :=
  match targetOf s ga with
  | .bad => hostReadAnswer (raise s .host Cause.ADDRESS) n .aborted []
  | .here a =>
    match readLocal s (hostReq s) a n with
    | (t, .delayed, _) => holdReq s t (hostReq s) a (.read n) none (.host ga)
    | (t, st, d) => hostReadAnswer t n st d
  | .remote _ _ => hostSend s ga n 0x01 [] (.hostRead n)

/-- Make one BAR2 write of at most 512 bytes. -/
def hostWrite (s : State) (ga : Nat) (data : List Byte) : State :=
  let n := data.length
  match targetOf s ga with
  | .bad => hostWriteAnswer (raise s .host Cause.ADDRESS) ga n .aborted
  | .here a =>
    match writeLocal s (hostReq s) a data with
    | (t, .delayed) => holdReq s t (hostReq s) a (.write data) none (.host ga)
    | (t, st) => hostWriteAnswer t ga n st
  | .remote _ _ => hostSend s ga n 0x02 data (.hostWrite ga n)

/-- Is a held request a write of the host? -/
def heldHostWrite (h : HeldReq) : Bool :=
  match h.reply, h.acc with
  | .host _, .write _ => true
  | _, _ => false

/-- Is a BAR2 write still without its response? -/
def hostWriting (s : State) : Bool := s.held.any heldHostWrite || s.remotes.any (fun r => match r.use with
  | .hostWrite _ _ => true
  | _ => false)

/-- Make the reads that waited for the writes before them, once none is outstanding. -/
def hostReads (s : State) : State :=
  if hostWriting s then s
  else
    let l := s.host.reads
    l.foldl (fun s (a, n) => hostRead s a n) { s with host := { s.host with reads := [] } }

end Sys2Proof.Machine
end

