-- ==== Sys2Proof/Machine/Copy.lean ====
section
/-!
DEFINITION. COPY and FILL, which a core's memory unit runs one at a time (R313–R318).
-/
namespace Sys2Proof.Machine

/-- The memory of this core that holds a range whole, if one does. -/
def memoryOf (s : State) (c : CoreId) (r : Int × Int) : Option CoreMem :=
  [CoreMem.wm, .am, .pm].find? (fun m => rangeInCore s c m r)

/-- The memory on whose page the causes of a command stand: the destination's; where the destination is in none, the
one that its base lies in, else WM (assumption 24). -/
def causeMemory (s : State) (c : CoreId) (d : Desc) : CoreMem :=
  match memoryOf s c d.range with
  | some m => m
  | none => (memoryOf s c ((d.base : Int), (d.base : Int))).getD .wm

/-- Insert a row by its address. -/
def insertRow (x : Nat × Nat) : List (Nat × Nat) → List (Nat × Nat)
  | [] => [x]
  | y :: t => if x.1 ≤ y.1 then x :: y :: t else y :: insertRow x t

/-- The rows of a tensor by increasing address. -/
def rowsByAddr (d : Desc) : List Nat :=
  (((List.range d.rows).map (fun r => (d.rowAddr r, r))).foldr insertRow []).map (·.2)

/-- COPY. -/
def runCopy (c : CoreId) (x : Slot) : Run Unit := do
  let ws := x.words
  let f : FrontId := .cp c
  let src ← loadDesc f ws (cf ws 2 15 0) 0
  let dst ← loadDesc f ws (cf ws 2 31 16) 0
  checkDest f ws dst
  let m ← look (causeMemory · c dst.d)
  let tag := cmdTag ws
  if src.d.fmt ≠ dst.d.fmt || src.d.exts ≠ dst.d.exts then defectAt (.mem c m) 10 tag 0x18
  let sm ← look (memoryOf · c src.d.range)
  let dm ← look (memoryOf · c dst.d.range)
  let shift := src.d.strides = dst.d.strides && !src.d.overlap && !dst.d.overlap
  if sm.isNone || dm.isNone || sm ≠ dm || (src.d.meets dst.d && !shift) then defectAt (.mem c m) 11 tag 0x18
  act (fun s => latchPage s f x.id (.mem c m))
  let r := cmdReq (.mem c m) ws
  let order := rowsByAddr dst.d
  (if src.d.base < dst.d.base then order.reverse else order).forM (fun row => do
    writeCodes r dst.d row 0 (← readCodes r src.d row 0 src.d.last)
    act (fun s => bump s (.mem c m) 7 dst.d.rowBytes))

/-- COPY: a tensor copied within one memory of the core. -/
def execCopy (c : CoreId) (slot : Nat) (s : State) : Host.Outcome State Fault Refusal :=
  .next (startCommand s (.cp c) slot [0x18] true (fun s x => runSlot s (.cp c) x (runCopy c x)))

/-- The elements of row `i` of a matrix that FILL writes: first column and number (R315). -/
def triSpan (tri : Nat) (i n : Nat) (diag : Int) : Nat × Nat :=
  let d := (i : Int) + diag
  match tri with
  | 1 => let lo := min n (max 0 (d + 1)).toNat; (lo, n - lo)
  | 2 => (0, min n (max 0 d).toNat)
  | _ => (0, n)

/-- FILL. -/
def runFill (c : CoreId) (x : Slot) : Run Unit := do
  let ws := x.words
  let f : FrontId := .cp c
  let dst ← loadDesc f ws (cf ws 2 15 0) 0
  checkDest f ws dst
  let tri := cf ws 2 17 16
  let m ← look (causeMemory · c dst.d)
  let tag := cmdTag ws
  if tri ≠ 0 && dst.d.rank = 1 then defectAt (.mem c m) 10 tag 0x1A
  if (← look (memoryOf · c dst.d.range)).isNone then defectAt (.mem c m) 11 tag 0x1A
  act (fun s => latchPage s f x.id (.mem c m))
  let r := cmdReq (.mem c m) ws
  let diag := signed 32 (wordAt ws 5).toNat
  let code := cf64 ws 3 % 2 ^ dst.d.bits
  forN dst.d.rows (fun row => do
    let i := (rowIndices dst.d.exts.dropLast row).getLastD 0
    let (j0, n) := triSpan tri i dst.d.last diag
    writeCodes r dst.d row j0 (List.replicate n code)
    act (fun s => bump s (.mem c m) 6 (cdiv (n * dst.d.bits) 8)))

/-- FILL: the elements of a tensor, or of a triangle of each of its matrices, set to one value. -/
def execFill (c : CoreId) (slot : Nat) (s : State) : Host.Outcome State Fault Refusal :=
  .next (startCommand s (.cp c) slot [0x1A] true (fun s x => runSlot s (.cp c) x (runFill c x)))

end Sys2Proof.Machine
end

