-- ==== Sys2Proof/Machine/Dma.lean ====
section
/-!
DEFINITION. DMA channels: the byte stream between strided units (R328–R331), retries, halts and RESUME (R333–R335).
-/
namespace Sys2Proof.Machine

/-- One side of a DMA command (R329): offset, bytes of a unit, units, stride. -/
structure DmaSide where
  off    : Nat
  unit   : Nat
  count  : Nat
  stride : Int
  deriving DecidableEq, Repr

/-- The source side. -/
def dmaSrc (ws : List Word) : DmaSide :=
  { off := cf64 ws 3, unit := cf ws 7 15 0 + 1, count := (wordAt ws 8).toNat, stride := signed 32 (wordAt ws 10).toNat }

/-- The destination side. -/
def dmaDst (ws : List Word) : DmaSide :=
  { off := cf64 ws 5, unit := cf ws 7 31 16 + 1, count := (wordAt ws 9).toNat, stride := signed 32 (wordAt ws 11).toNat }

/-- Is the source PATTERN? -/
def dmaFill (ws : List Word) : Bool := cb ws 2 3

/-- The reachable range of a side, as offsets (R331). -/
def DmaSide.range (x : DmaSide) : Int × Int :=
  let r := ((x.count : Int) - 1) * x.stride
  ((x.off : Int) + min 0 r, (x.off : Int) + max 0 r + x.unit - 1)

/-- Bytes of a side. -/
def DmaSide.bytes (x : DmaSide) : Nat := x.unit * x.count

/-- Global address of byte `n` of unit `i` of a side, from the allocation's base. -/
def DmaSide.addr (x : DmaSide) (base i n : Nat) : Nat :=
  (((base : Int) + x.off + (i : Int) * x.stride + n) % 2 ^ 64).toNat

/-- The allocation entries that a command names. -/
def dmaAllocs (s : State) (c : CoreId) (ws : List Word) : AllocEntry × AllocEntry :=
  (getAlloc s (.cp c) (cf ws 2 10 4), getAlloc s (.cp c) (cf ws 2 17 11))

/-- Does a side's range leave its allocation? -/
def sideOutside (a : AllocEntry) (x : DmaSide) : Bool := x.range.1 < 0 || 64 * (a.size : Int) ≤ x.range.2

/-- Do source and destination meet otherwise than as a shift that R314 allows (R331)? -/
def dmaMeets (sb db : Nat) (x y : DmaSide) : Bool :=
  let (l, h) := ((sb : Int) + x.range.1, (sb : Int) + x.range.2)
  let (l', h') := ((db : Int) + y.range.1, (db : Int) + y.range.2)
  let shift := x.unit = y.unit && x.count = y.count && x.stride = y.stride &&
    ((x.unit : Int) ≤ x.stride.natAbs || x.count = 1)
  l ≤ h' && l' ≤ h && !shift

/-- The cause of a command that its channel refuses, if it does (R331). -/
def dmaInvalid (s : State) (c : CoreId) (ws : List Word) : Option Nat :=
  let (x, y) := (dmaSrc ws, dmaDst ws)
  let (a, b) := dmaAllocs s c ws
  let fill := dmaFill ws
  if y.count = 0 || (!fill && (x.count = 0 || x.bytes ≠ y.bytes)) then some 9
  else if !b.valid || (!fill && !a.valid) || sideOutside b y || (!fill && sideOutside a x) ||
      (1 < y.count && (y.stride.natAbs < y.unit)) || (!fill && dmaMeets a.base b.base x y) then some 10
  else none

/-- A piece of the stream: destination address, stream position, bytes (R330: a destination block of one unit). -/
structure DmaPiece where
  addr : Nat
  pos  : Nat
  n    : Nat
  deriving DecidableEq, Repr

/-- The pieces of a command in stream order. -/
def dmaPieces (y : DmaSide) (db : Nat) : List DmaPiece :=
  (List.range y.count).flatMap (fun i =>
    let a := y.addr db i 0
    (blockCuts a y.unit).map (fun (p, n) => { addr := p, pos := i * y.unit + (p - a), n := n }))

/-- Insert a piece by its address. -/
def insertPiece (x : DmaPiece) : List DmaPiece → List DmaPiece
  | [] => [x]
  | y :: t => if x.addr ≤ y.addr then x :: y :: t else y :: insertPiece x t

/-- The pieces in the order in which they are made: by decreasing address for a shift upwards (R314, R331). -/
def dmaOrder (ws : List Word) (sb db : Nat) : List DmaPiece :=
  let (x, y) := (dmaSrc ws, dmaDst ws)
  let l := dmaPieces y db
  let meets := !dmaFill ws && ((sb : Int) + x.range.1 ≤ (db : Int) + y.range.2) &&
    ((db : Int) + y.range.1 ≤ (sb : Int) + x.range.2)
  if meets then
    let up := l.foldr insertPiece []
    if sb + x.off < db + y.off then up.reverse else up
  else l

/-- The source ranges of `n` bytes of the stream from position `p`. -/
def dmaSources (x : DmaSide) (sb : Nat) : Nat → Nat → Nat → List (Nat × Nat)
  | 0, _, _ => []
  | fuel + 1, p, n =>
    if n = 0 then []
    else
      let k := min n (x.unit - p % x.unit)
      (x.addr sb (p / x.unit) (p % x.unit), k) :: dmaSources x sb fuel (p + k) (n - k)

/-- Bytes of PATTERN from stream position `p` (R330). -/
def dmaPattern (ws : List Word) (p n : Nat) : List Byte :=
  let l := leBytes 8 (cf64 ws 12)
  (List.range n).map (fun i => l.getD ((p + i) % 8) 0)

/-- How a request of a channel ended. -/
inductive DmaResult where
  | ok (d : List Byte)
  | refused
  /-- it must wait, and is made later -/
  | waits
  /-- no more requests: the command stops with this status -/
  | stops (st : Status)
  /-- it may be re-issued: response, common cause, write, address -/
  | failed (st : Status) (cause : Nat) (write : Bool) (addr : Nat)
  deriving DecidableEq, Repr

/-- Is the destination of a global address a fenced block of this device, the port to another device among them? -/
def fencedAt (s : State) (r : Req) (ga : Nat) : Bool :=
  match targetOf s ga with
  | .here a => (match placeOf s a with
    | .larder d off => (larderFenced s d off 1).isSome
    | x => match placeBlock x with
      | some b => isFenced s b
      | none => false)
  | .remote dev _ => (match routePort s (Fin.ofNat 32768 dev) r.unit (requestVc r.cls).val with
    | some p => isFenced s (.naulo p)
    | none => false)
  | .bad => false

/-- Has another device answered a request malformed between two states? -/
def malformedAnswer (s0 s : State) : Bool :=
  (List.range (s.fresh - s0.fresh)).any (fun i => Config.remoteStatus (s0.fresh + i) % 8 = 6)

/-- Judge an answer (R333): `s0` is the state before the request, `s` the one after. -/
def dmaJudge (s0 s : State) (r : Req) (ga : Nat) (write : Bool) (st : Status) (d : List Byte) : DmaResult :=
  match st with
  | .ok => .ok d
  | .delayed => .waits
  | .refused => .refused
  | .aborted =>
    if s.now ≠ s0.now then .failed .aborted Cause.TIMEOUT write ga
    else if fencedAt s0 r ga then .failed .aborted Cause.FENCED_ACCESS write ga
    else if malformedAnswer s0 s then .failed .aborted Cause.PROTOCOL write ga
    else .stops .aborted
  | st => .stops st

/-- Key of a channel in State.dmas. -/
def dmaKey (c : CoreId) (ch : Fin 8) : Nat := c.val * 8 + ch.val

/-- The command in progress on a channel. -/
def getDma (s : State) (c : CoreId) (ch : Fin 8) : DmaRun := tget DmaRun.reset s.dmas (dmaKey c ch)

/-- Replace it. -/
def putDma (s : State) (c : CoreId) (ch : Fin 8) (v : DmaRun) : State :=
  { s with dmas := tset DmaRun.reset s.dmas (dmaKey c ch) v }

/-- The channel's state (0 IDLE, 1 RUNNING, 2 HALTED). -/
def dmaState (s : State) (c : CoreId) (ch : Fin 8) (v : Nat) : State :=
  rputField s (.dma c ch) Reg.Dma.DMA_STATE 1 0 v

/-- Read the source bytes of a piece, from those it has already: what it has read stays, so that a request that fails or
waits is the only one made again. -/
def dmaRead (c : CoreId) (ch : Fin 8) (r : Req) : List (Nat × Nat) → State → State × DmaResult
  | [], s => (s, .ok (getDma s c ch).got)
  | (a, n) :: t, s =>
    let (s1, st, d) := gRead s r a n
    match dmaJudge s s1 r a false st d with
    | .ok d =>
      let x := getDma s1 c ch
      dmaRead c ch r t (putDma (bump s1 r.who 1 d.length) c ch { x with got := x.got ++ d, retry := none })
    | .waits => (settleWaits s s1, .waits)
    | x => (s1, x)

/-- Destination bytes have been written (PROGRESS). -/
def dmaProgress (s : State) (b : Block) (n : Nat) : State :=
  let done := rget64 s b Reg.Dma.PROGRESS_LO Reg.Dma.PROGRESS_HI + n
  rput64 (bump s b 2 n) b Reg.Dma.PROGRESS_LO Reg.Dma.PROGRESS_HI done

/-- A write sets out for another device, and is owed an answer (R335). -/
def dmaSend (s : State) (r : Req) (c : CoreId) (ch : Fin 8) (ga left : Nat) (d : List Byte) : State × DmaResult :=
  let h := requestHead s r ga d.length
  match setOut s r ga d.length 0x02 0 0 [] d with
  | (t, .inl st) => (if st = .delayed then s else t, dmaJudge s t r ga true st [])
  | (t, .inr p) =>
    let x := getDma t c ch
    (putDma { t with remotes := t.remotes ++ [{ xid := h.xid, node := h.dst, port := p, use := .dmaWrite c ch }] } c ch
      { x with owed := x.owed ++ [{ xid := h.xid, addr := ga, data := d, left := left, failed := false }] }, .ok [])

/-- The retries that a request of a channel may have (RETRY_COUNT). -/
def dmaRetries (s : State) (c : CoreId) (ch : Fin 8) : Nat := rfield s (.dma c ch) Reg.Dma.DMA_CFG 3 0

/-- The write of a piece. A channel keeps up to 32 requests outstanding (R328). -/
def dmaWrite (s : State) (r : Req) (c : CoreId) (ch : Fin 8) (ga : Nat) (d : List Byte) : State × DmaResult :=
  match targetOf s ga with
  | .remote _ _ => if 32 ≤ (getDma s c ch).owed.length then (s, .waits) else dmaSend s r c ch ga (dmaRetries s c ch) d
  | _ =>
    let (s1, st) := gWrite s r ga d
    match dmaJudge s s1 r ga true st [] with
    | .ok _ => (dmaProgress s1 r.who d.length, .ok [])
    | .waits => (settleWaits s s1, .waits)
    | x => (s1, x)

/-- One piece: its source bytes are read, then written. -/
def dmaPiece (s : State) (r : Req) (c : CoreId) (ch : Fin 8) (ws : List Word) (p : DmaPiece) : State × DmaResult :=
  let d := getDma s c ch
  let k := d.got.length
  let (s, x) := if dmaFill ws then (s, .ok (dmaPattern ws p.pos p.n))
    else dmaRead c ch r (dmaSources (dmaSrc ws) d.src (p.n + 1) (p.pos + k) (p.n - k)) s
  match x with
  | .ok l => dmaWrite s r c ch p.addr l
  | y => (s, y)

/-- The command of a channel ends. -/
def dmaEnd (s : State) (c : CoreId) (ch : Fin 8) (n : Nat) (st : Status) : State :=
  endSlot (dmaState (putDma s c ch DmaRun.reset) c ch 0) (.cp c) n st

/-- The channel halts (R334). -/
def dmaHalt (s : State) (c : CoreId) (ch : Fin 8) (x : Slot) (st : Status) (cause : Nat) (write : Bool) (ga : Nat) :
    State :=
  let b : Block := .dma c ch
  let s := rput s b Reg.Dma.HALT_INFO
    (wordOf ((cmdTag x.words).toNat * 65536 + cause * 256 + (if write then 16 else 0) + st.code))
  let s := rput64 s b Reg.Dma.HALT_ADDR_LO Reg.Dma.HALT_ADDR_HI ga
  let s := raiseTag (bump s b 4 1) b 8 (cmdTag x.words) 0x28
  dmaState (dmaEnd s c ch x.id .aborted) c ch 2

/-- A command that makes no more requests ends once every write that it issued has been answered (R334, R335). -/
def dmaSettle (s : State) (c : CoreId) (ch : Fin 8) : State :=
  let d := getDma s c ch
  match d.owed, d.stop, getSlot s (.cp c) d.slot with
  | [], some (.ends st), some x => dmaEnd s c ch x.id (worse st (if d.refused then .refused else .ok))
  | [], some (.halts st cause w ga), some x => dmaHalt s c ch x st cause w ga
  | _, _, _ => s

/-- Of two ends of a command the one that holds: a halt, or the status that R89 ranks first. -/
def DmaStop.and (a : Option DmaStop) (b : DmaStop) : DmaStop :=
  match a, b with
  | some (.halts st k w ga), _ => .halts st k w ga
  | some (.ends x), .ends y => .ends (worse x y)
  | _, y => y

/-- The command makes no more requests: one that has failed is not made again unless every piece has been made. -/
def dmaStop (s : State) (c : CoreId) (ch : Fin 8) (e : DmaStop) : State :=
  let d := getDma s c ch
  let e := DmaStop.and d.stop e
  let owed := if e = .ends .ok then d.owed else d.owed.filter (fun w => !w.failed)
  dmaSettle (putDma s c ch { d with stop := some e, retry := none, owed := owed }) c ch

/-- A request of the running command has failed and may be re-issued (R333): the retries left to it, or the halt. -/
def dmaFailed (s : State) (c : CoreId) (ch : Fin 8) (st : Status) (cause : Nat) (write : Bool) (ga : Nat) : State :=
  let d := getDma s c ch
  let left := d.retry.getD (dmaRetries s c ch)
  if left = 0 then dmaStop s c ch (.halts st cause write ga)
  else putDma s c ch { d with retry := some left }

/-- The channel has done a piece, or passed it over. -/
def dmaNext (s : State) (c : CoreId) (ch : Fin 8) (refused : Bool) : State :=
  let d := getDma s c ch
  putDma s c ch { d with pos := d.pos + 1, got := [], retry := none, refused := d.refused || refused }

/-- Make the pieces from the channel's place on. -/
def dmaRunFrom (c : CoreId) (ch : Fin 8) (x : Slot) (r : Req) : List DmaPiece → State → State
  | [], s => dmaStop s c ch (.ends .ok)
  | p :: t, s =>
    match dmaPiece s r c ch x.words p with
    | (s, .ok _) => dmaRunFrom c ch x r t (dmaNext s c ch false)
    | (s, .refused) => dmaRunFrom c ch x r t (dmaNext s c ch true)
    | (s, .waits) => putSlot s (.cp c) { x with phase := .held }
    | (s, .stops st) => dmaStop s c ch (.ends st)
    | (s, .failed st cause w ga) => dmaFailed s c ch st cause w ga

/-- Go on with the command of a channel, unless it makes no more requests. -/
def dmaGo (s : State) (c : CoreId) (ch : Fin 8) (x : Slot) : State :=
  let d := getDma s c ch
  if d.stop.isSome then s
  else
    let x := { x with phase := .running }
    dmaRunFrom c ch x (cmdReq (.dma c ch) x.words) ((dmaOrder x.words d.src d.dst).drop d.pos) (putSlot s (.cp c) x)

/-! ### Answers to writes to another device (R333, R335) -/

/-- A write to another device has been answered: its bytes are written, or left unchanged, or the command stops. -/
def dmaWritten (s : State) (c : CoreId) (ch : Fin 8) (xid : Nat) (st : Status) : State :=
  let d := getDma s c ch
  match d.owed.find? (fun w => w.xid = xid && !w.failed) with
  | none => s
  | some w =>
    let s := putDma s c ch { d with owed := d.owed.erase w, refused := d.refused || st = .refused }
    match st with
    | .ok => dmaSettle (dmaProgress s (.dma c ch) w.data.length) c ch
    | .refused | .delayed => dmaSettle s c ch
    | st => dmaStop s c ch (.ends st)

/-- A write to another device has failed, with a response or without one: it may be re-issued, or the channel halts. -/
def dmaLost (s : State) (c : CoreId) (ch : Fin 8) (xid cause : Nat) : State :=
  let d := getDma s c ch
  match d.owed.find? (fun w => w.xid = xid && !w.failed), getSlot s (.cp c) d.slot with
  | some w, some x =>
    let s := raiseTag s (.dma c ch) cause (cmdTag x.words) 0x28
    if w.left = 0 || (d.stop.isSome && d.stop ≠ some (.ends .ok)) then
      dmaStop (putDma s c ch { d with owed := d.owed.erase w }) c ch (.halts .aborted cause true w.addr)
    else putDma s c ch { d with owed := d.owed.map (fun y => if y = w then { w with failed := true } else y) }
  | _, _ => s

/-- The channel of a DMA command. -/
def dmaChannel (ws : List Word) : Fin 8 := Fin.ofNat 8 (cf ws 2 2 0)

/-- Begin a DMA command (R331). -/
def dmaStart (s : State) (c : CoreId) (x : Slot) : State :=
  let ch := dmaChannel x.words
  let b : Block := .dma c ch
  if rfield s b Reg.Dma.DMA_STATE 1 0 = 2 then endSlot (bump s b 5 1) (.cp c) x.id .aborted
  else
    let s := rput (bump s b 0 1) b Reg.Dma.DMA_STATE (wordOf ((cmdTag x.words).toNat * 65536))
    let s := rput (rput64 s b Reg.Dma.PROGRESS_LO Reg.Dma.PROGRESS_HI 0) b Reg.Dma.LAST_RETRIES 0
    match dmaInvalid s c x.words with
    | some cause => endSlot (raiseTag s b cause (cmdTag x.words) 0x28) (.cp c) x.id .defect
    | none =>
      let (sa, da) := dmaAllocs s c x.words
      let s := dmaState (latchPage s (.cp c) x.id b) c ch 1
      let s := putDma s c ch { DmaRun.reset with slot := x.id, src := sa.base, dst := da.base }
      match getSlot s (.cp c) x.id with
      | some x => dmaGo s c ch x
      | none => s

/-- DMA: a byte stream from source units, or from PATTERN, to destination units; a command whose request had to wait goes
on where it stands. -/
def execDma (c : CoreId) (slot : Nat) (s : State) : Host.Outcome State Fault Refusal :=
  .next (startCommand s (.cp c) slot [0x28] true (fun s x =>
    if x.phase = .held then dmaGo s c (dmaChannel x.words) x else dmaStart s c x))

/-- A request is made again: counter 3 and LAST_RETRIES. -/
def countRetry (s : State) (c : CoreId) (ch : Fin 8) : State :=
  rput (bump s (.dma c ch) 3 1) (.dma c ch) Reg.Dma.LAST_RETRIES
    (wordOf (sat 16 ((rget s (.dma c ch) Reg.Dma.LAST_RETRIES).toNat + 1)))

/-- Send a failed write to another device again, with the same bytes. -/
def dmaResend (s : State) (c : CoreId) (ch : Fin 8) (x : Slot) (w : DmaWrite) : State :=
  let d := getDma s c ch
  let t := putDma s c ch { d with owed := d.owed.erase w }
  match dmaSend t (cmdReq (.dma c ch) x.words) c ch w.addr (w.left - 1) w.data with
  | (t, .ok _) => countRetry t c ch
  | (_, .waits) => s
  | (t, .refused) => dmaSettle (putDma (countRetry t c ch) c ch { getDma t c ch with refused := true }) c ch
  | (t, .stops st) => dmaStop (countRetry t c ch) c ch (.ends st)
  | (t, .failed st cause _ ga) =>
    let t := countRetry t c ch
    if w.left ≤ 1 then dmaStop t c ch (.halts st cause true ga)
    else putDma t c ch { getDma t c ch with owed := { w with left := w.left - 1 } :: (getDma t c ch).owed }

/-- Re-issue the failed request of a channel. -/
def dmaReissue (s : State) (c : CoreId) (ch : Fin 8) : State :=
  let d := getDma s c ch
  match getSlot s (.cp c) d.slot with
  | none => s
  | some x =>
    match d.retry, d.owed.find? (·.failed) with
    | some left, _ => dmaGo (putDma (countRetry s c ch) c ch { d with retry := some (left - 1) }) c ch x
    | none, some w => dmaResend s c ch x w
    | none, none => s

/-- DMA_RETRY: the failed request is made again; after its last permitted retry the channel halts. -/
def execDmaRetry (c : CoreId) (ch : Fin 8) (s : State) : Host.Outcome State Fault Refusal := .next (dmaReissue s c ch)

/-- A write of 1 to DMA_CMD.RESUME (R334). -/
def dmaResume (s : State) (c : CoreId) (ch : Fin 8) : State :=
  if rfield s (.dma c ch) Reg.Dma.DMA_STATE 1 0 = 2 then dmaState s c ch 0 else s

/-- RESUME: a halted channel returns to IDLE. -/
def execResume (c : CoreId) (ch : Fin 8) (s : State) : Host.Outcome State Fault Refusal := .next (dmaResume s c ch)

end Sys2Proof.Machine
end

