-- ==== Sys2Proof/Machine/Stride.lean ====
section
/-!
DEFINITION. The stride master: ticks, holds, hurdles, the pins STRIDE_IN and STRIDE_OUT (R51–R72, R102, R103, R394,
R395, R532), and what a tick does in every block (R93, R135, R223, R252, R435, R465).
-/
namespace Sys2Proof.Machine

/-! ### Registers and the timing tree -/

/-- A register of the stride master in force. -/
def sreg (s : State) (off : Nat) : Word := rget s (activeStride s) off

/-- Change the stride master's runtime. -/
def modStride (s : State) (f : StrideM → StrideM) : State := { s with stride := f s.stride }

/-- STRIDE_CTRL.SOURCE: 0 LOCAL, 1 FABRIC, 2 PIN. -/
def strideSource (s : State) : Nat := bits (sreg s Reg.Str.STRIDE_CTRL) 1 0

/-- STRIDE_PERIOD. -/
def periodNs (s : State) : Nat := bits (sreg s Reg.Str.STRIDE_PERIOD) 25 0

/-- TICK_LEAD. -/
def tickLeadNs (s : State) : Nat := bits (sreg s Reg.Str.TICK_LEAD) 19 0

/-- HOLD_LEAD. -/
def holdLeadNs (s : State) : Nat := bits (sreg s Reg.Str.HOLD_LEAD) 19 0

/-- HOLD_BUDGET. -/
def holdBudgetNs (s : State) : Nat := bits (sreg s Reg.Str.HOLD_BUDGET) 25 0

/-- The parent in the timing tree, if there is one (R391). -/
def ttParent (s : State) : Option DeviceId :=
  let v := rget s fabricPage Reg.Fab.TT_PARENT
  if bit v 15 then some (Fin.ofNat 32768 (bits v 14 0)) else none

/-- The children in the timing tree: the valid TT_CHILD entries (R391). -/
def ttChildren (s : State) : List DeviceId :=
  (List.range 16).flatMap (fun k =>
    let v := rget s fabricPage (Reg.Fab.TT_CHILD + 4 * k)
    (if bit v 15 then [Fin.ofNat 32768 (bits v 14 0)] else []) ++
    (if bit v 31 then [Fin.ofNat 32768 (bits v 30 16)] else []))

/-- The stride number of the next tick that has not been announced. -/
def nextStride (s : State) : Nat :=
  match s.stride.next.getLast? with
  | some p => p.msg.stride + 1
  | none => s.stride.count + 1

/-! ### Holds (R62, R395) -/

/-- Does dispatch stand at a STRIDE_WAIT that is not satisfied yet? One that is satisfied and waits with its post has not
completed, and is no longer the ring's next (R62, R93). -/
def Front.atStrideWait (fr : Front) : Bool := fr.strideWait.any (fun w => w.ended.isNone)

/-- The condition of R62 of a front end: commands in flight, or dispatch not at a STRIDE_WAIT. A fenced one, and one that
is not enabled and holds nothing, asserts none (R41, R443). -/
def frontHolds (s : State) (f : FrontId) : Bool :=
  let fr := getFront s f
  !isFenced s f.block && (fr.slots ≠ [] || fr.strideWait.any (fun w => w.ended.isSome) ||
    (rbit s f.block Reg.Hdr.CTRL 0 && !fr.atStrideWait))

/-- The holds of the children of the timing tree that stand: those of a lost child, and of a device that is no child, do
not (R395, R396). -/
def liveHolds (s : State) : List (DeviceId × DeviceId) :=
  s.stride.childHolds.filter (fun c => (ttChildren s).contains c.1 && !s.lost.contains c.1)

/-- HOLD_SOURCES of the holds that the master has received: dies 0 to 29, SOFTWARE (30), REMOTE (31). -/
def heldWord (s : State) : Word :=
  let set (w : Word) (i : Nat) : Word := withBit w i true
  let remote := if liveHolds s ≠ [] then set 0 31 else 0
  if !s.stride.holdOpen then remote
  else
    let w := (allFronts.filter (fun f => (getFront s f).seen)).foldl (fun w f => set w f.block.place.1) remote
    let w := ((List.finRange 2).filter (fun p => (getPark s p).seen)).foldl (fun w p => set w (28 + p.val)) w
    if bit (sreg s Reg.Str.STRIDE_CTRL) 3 then set w 30 else w

/-- The first device of the combined hold (R395): this one if its own sources hold, else the earliest child's. -/
def firstHolder (s : State) : DeviceId :=
  if bits (heldWord s) 30 0 ≠ 0 then nodeId s
  else ((liveHolds s).head?.map (·.2)).getD (nodeId s)

/-- Is the root still before A(n+1), so that no stretch can have begun (R63)? -/
def beforeAnnounce (s : State) : Bool :=
  strideSource s = 0 && s.stride.state = 2 && decide (s.now < s.stride.planned - s.stride.tickLead)

/-- The holds that stand join those of the stretch; before A(n+1) they take their place (R66). -/
def joinHolds (s : State) : State :=
  let w := heldWord s
  let first := (liveHolds s).head?.map (·.2)
  modStride s (fun x => if beforeAnnounce s then { x with held := w, firstHeld := first }
    else { x with held := x.held ||| w, firstHeld := x.firstHeld.orElse (fun _ => first) })

/-- The combined hold has been formed anew: it joins the sources of the stretch, and a change goes to the parent (R395,
R72). A STOPPED or ARMED device asserts none. -/
def reportHold (s : State) : State :=
  let w := heldWord s
  let v := decide (2 ≤ s.stride.state) && w ≠ 0
  let s := joinHolds s
  let s := if s.stride.state = 3 || s.stride.state = 4 then
      rput s (activeStride s) Reg.Str.HOLD_SOURCES s.stride.held else s
  let up := strideSource s = 1 || (strideSource s = 2 && !bit (sreg s Reg.Str.STRIDE_CTRL) 6)
  match ttParent s with
  | some p =>
    if up && v ≠ s.stride.reported then
      let s := modStride s (fun x => { x with reported := v })
      let n := nextStride s
      let fh := firstHolder s
      bump (sendControl s (activeStride s) 0x11 p (words64 n ++ [if v then 1 else 0, wordOf fh.val]) []
        (.hold p n v fh)) fabricPage 4 1
    else s
  | none => s

/-- The next tick has been announced: no source holds against it any more. -/
def closeHolds (s : State) : State :=
  let fs : List (Nat × Front) := s.fronts.map (fun (k, x) => (k, { x with hold := false, seen := false }))
  let ps : List (Nat × ParkRing) := s.parks.map (fun (k, x) => (k, { x with seen := false }))
  let s := { s with fronts := fs.filter (fun x => x.2 ≠ Front.reset), parks := ps.filter (fun x => x.2 ≠ ParkRing.reset) }
  reportHold (modStride s (fun x => { x with holdOpen := false }))

/-- A front end asserts a hold; counter 12 counts assertions. -/
def assertHold (s : State) (f : FrontId) (v : Bool) : State :=
  let fr := getFront s f
  let s := if v && !fr.hold then bump s f.block 12 1 else s
  putFront s f { fr with hold := v }

/-- A hurdle on this device: cause HURDLE, the step-skip flag, an error record (R64). -/
def hurdle (s : State) : State :=
  let b := activeStride s
  sendRecord (stepSkip (raise s b 8) 1) b 8 Occur.none none

/-- The hold point of the next tick: every source evaluates its condition there (R62). A pin follower without a hold path
takes a hold as a hurdle of its own (R72). -/
def openHolds (s : State) : State :=
  if s.stride.state < 2 || s.stride.holdOpen || s.stride.first || s.stride.next ≠ [] then s
  else
    let s := { s with now := max s.now (s.stride.planned - s.stride.lead) }
    let s := allFronts.foldl (fun s f => if frontHolds s f then assertHold s f true else s) s
    let s := reportHold (modStride s (fun x => { x with holdOpen := true, held := 0, firstHeld := none }))
    let holds := heldWord s ≠ 0 || allFronts.any (fun f => (getFront s f).hold) ||
      (List.finRange 2).any (fun p => (getPark s p).hold)
    if strideSource s = 2 && bit (sreg s Reg.Str.STRIDE_CTRL) 6 && holds then hurdle s else s

/-- HOLD_POINT. -/
def execHoldPoint (s : State) : Host.Outcome State Fault Refusal := .next (openHolds s)

/-- HOLD_CHANGE: what a source asserts now reaches the stride master. -/
def execHoldChange (src : HoldSource) (s : State) : Host.Outcome State Fault Refusal :=
  .next (
    let on := s.stride.holdOpen && decide (2 ≤ s.stride.state)
    match src with
    | .front f =>
      let v := on && frontHolds s f
      let s := assertHold s f v
      reportHold (putFront s f { getFront s f with seen := v })
    | .park p =>
      let r := getPark s p
      reportHold (putPark s p { r with seen := on && r.hold }))

/-- A write of STRIDE_CTRL.HOLD_SW. -/
def writeHoldSw (s : State) (v : Bool) : State :=
  reportHold (rputBit s (activeStride s) Reg.Str.STRIDE_CTRL 3 v)

/-- HOLD_SW. -/
def execHoldSw (v : Bool) (s : State) : Host.Outcome State Fault Refusal := .next (writeHoldSw s v)

/-- FIRST_HOLD_DEVICE of the stretch that begins or runs. -/
def loadFirst (s : State) (d : Option DeviceId) : State :=
  rput s (activeStride s) Reg.Str.FIRST_HOLD_DEVICE (match d with
    | some x => wordOf (32768 + x.val)
    | none => 0)

/-- HOLD: a child's HOLD message becomes its latest one (R395). The first that asserts a hold during the root's stretch
loads FIRST_HOLD_DEVICE, if none has (R66). A message of a device that is no child is not a hold. DESIGN CHOICE, where
R103 says only 'holds received from downstream': counter 11 counts every HOLD message of a child, a release too
(log entry 152). -/
def execHold (from_ : DeviceId) (_stride : Nat) (v : Bool) (firstId : DeviceId) (s : State) :
    Host.Outcome State Fault Refusal :=
  .next (
    if (ttChildren s).contains from_ = false then s
    else
      let s := bump s (activeStride s) 11 1
      let old := s.stride.childHolds
      let new := if v then
          (if old.any (fun c => c.1 = from_) then old.map (fun c => if c.1 = from_ then (from_, firstId) else c)
           else old ++ [(from_, firstId)])
        else old.filter (fun c => c.1 ≠ from_)
      let s := modStride { s with lost := s.lost.filter (· ≠ from_) } (fun x => { x with childHolds := new })
      let s := if v && strideSource s = 0 && (s.stride.state = 3 || s.stride.state = 4) &&
          !rbit s (activeStride s) Reg.Str.FIRST_HOLD_DEVICE 15 then loadFirst s (some firstId) else s
      reportHold s)

/-! ### Announce (R55, R56, R61–R66, R532) -/

/-- STRIDE_OUT is due for a tick: PIN_OUT_LEAD before its fire, or at once (R67). -/
def scheduleOut (s : State) (fire : Nat) (h : Bool) : State :=
  if strideSource s ≤ 1 then
    let lead := bits (sreg s Reg.Str.PIN_OUT_LEAD) 19 0
    let late := decide (fire < s.now + lead)
    modStride s (fun x => { x with outDue := some (if late then s.now else fire - lead, if h then 600 else 200, late) })
  else s

/-- Forward a tick to every child; fabric counter 3 (R394). -/
def sendTicks (s : State) (m : TickMsg) : State :=
  let ext := words64 m.stride ++ words64 m.fire ++ words64 m.planned ++
    [if m.hurdle then 1 else 0, wordOf (m.holdLead % 2 ^ 21)]
  (ttChildren s).foldl (fun s c =>
    bump (sendControl s (activeStride s) 0x10 c ext [] (.tick c m)) fabricPage 3 1) s

/-- LAST_STRETCH, HOLD_SOURCES and the counts of a stretch; on the root, the device whose hold took part in it first
(R66). -/
def noteStretch (s : State) (n : Nat) : State :=
  if n = 0 then s
  else
    let b := activeStride s
    let s := rput (rput s b Reg.Str.LAST_STRETCH (wordOf (sat 26 n))) b Reg.Str.HOLD_SOURCES s.stride.held
    let s := if strideSource s = 0 then loadFirst s s.stride.firstHeld else s
    bump (bump s b 1 1) b 2 n

/-- The root announces the next tick now (R55, R61). -/
def announce (s : State) (h : Bool) : State :=
  let x := s.stride
  let fire := s.now + x.tickLead
  let l := tickLeadNs s + holdLeadNs s
  let m : TickMsg :=
    { stride := x.count + 1, fire := fire, planned := fire + periodNs s, holdLead := l, hurdle := h }
  let stretch := if x.first then 0 else s.now - (x.planned - x.tickLead)
  let s := noteStretch s stretch
  let tl := tickLeadNs s
  let bud := holdBudgetNs s
  let s := modStride s (fun x => { x with
    state := 2, next := x.next ++ [{ msg := m, stretch := stretch }], planned := m.planned, lead := l,
    tickLead := tl, budget := bud, first := false })
  closeHolds (scheduleOut (sendTicks s m) fire h)

/-- May the root announce: running, nothing announced, not stopping, no switch-over running? -/
def mayAnnounce (s : State) : Bool :=
  strideSource s = 0 && decide (2 ≤ s.stride.state) && s.stride.next = [] && !s.stride.stopping &&
  s.steward.switching.isNone

/-- A hold defers the announce: the stretch begins (R63, R65, R66). -/
def defer (s : State) : State :=
  let s := joinHolds s
  let s := loadFirst (rput s (activeStride s) Reg.Str.HOLD_SOURCES s.stride.held) s.stride.firstHeld
  modStride s (fun x => { x with state := if x.afterHurdle then 4 else 3 })

/-- TICK_ANNOUNCE: at A(n+1) the root samples holds, and announces or defers; once the last hold has cleared it
announces. -/
def execTickAnnounce (s : State) : Host.Outcome State Fault Refusal :=
  .next (
    if !mayAnnounce s then s
    else if s.stride.first then announce { s with now := max s.now (s.stride.startAt - s.stride.tickLead) } false
    else
      let s := openHolds s
      let s := { s with now := max s.now (s.stride.planned - s.stride.tickLead) }
      if heldWord s = 0 then announce s false
      else if s.stride.state = 2 then defer s
      else s)

/-- HOLD_BUDGET_EXPIRY: the stretch has reached HOLD_BUDGET with holds still asserted. -/
def execHoldBudgetExpiry (s : State) : Host.Outcome State Fault Refusal :=
  .next (
    if mayAnnounce s && s.stride.state = 3 && heldWord s ≠ 0 then
      announce { s with now := max s.now (s.stride.planned - s.stride.tickLead + s.stride.budget) } true
    else s)

/-! ### Fire (R52, R64) -/

/-- The generators of the cores and of the hub and slow-tier engines take their seeds (R135, R234, R274). -/
def reseed (s : State) : State :=
  let core (c : CoreId) : Seeds :=
    { seed := rget64 s (.array c) Reg.Arr.RNG_SEED_LO Reg.Arr.RNG_SEED_HI,
      domain := rfield s (.array c) Reg.Arr.RNG_DOMAIN 15 0, stride := s.stride.count }
  let eng (f : FrontId) : Seeds :=
    { seed := rget64 s f.block Reg.Slow.RNG_SEED_LO Reg.Slow.RNG_SEED_HI,
      domain := rfield s f.block Reg.Slow.RNG_DOMAIN 15 0, stride := s.stride.count }
  let l := (List.finRange 128).foldl (fun l c => tset Seeds.reset l c.val (core c)) s.seeds
  let es : List FrontId := (List.finRange 4).map .hub ++ (List.finRange 2).map .slow
  { s with seeds := es.foldl (fun l f => tset Seeds.reset l f.num (eng f)) l, beats := [] }

/-- The predictor counts of a layer roll over (R223). -/
def rollLayer (s : State) (k : Nat) : State :=
  let c : CoreId := Fin.ofNat 128 (k / 256)
  let p := tget PredLayer.reset s.preds k
  let p' : PredLayer := { audited := 0, misses := 0, lastAudited := p.audited, lastMisses := p.misses }
  let s := { s with preds := tset PredLayer.reset s.preds k p' }
  let reg := Reg.Gme.PRED_LAYER + 4 * (k % 256)
  let limit := rfield s (.gme c) reg 15 0
  if rbit s (.gme c) reg 31 && p.audited ≠ 0 && decide (limit * p.audited < p.misses * 65536) then
    bump (raise (rputBit s (.gme c) reg 31 false) (.gme c) 21) (.gme c) 22 1
  else s

/-- Every layer with counts rolls over. -/
def rollPredictors (s : State) : State := (s.preds.map (·.1)).foldl rollLayer s

/-- The tick of a late list sets the step-skip flag (R252). -/
def lateLists (s : State) : State :=
  if s.pubs.any (fun x => x.2.any (fun p => p.late && !p.fired && decide (p.target ≤ s.stride.count)))
  then stepSkip s 3 else s

/-- The trace controls take effect (R465). -/
def traceControls (s : State) : State :=
  let r (o : Nat) : Word := rget s tracePage o
  { s with trace := { s.trace with
      en := bit (r Reg.Trc.TRACE_CTRL) 0, kinds := r Reg.Trc.TRACE_KINDS, minNs := (r Reg.Trc.TRACE_MIN_NS).toNat,
      cores := (List.range 4).map (fun n => r (Reg.Trc.TRACE_CORES + 4 * n)), engines := r Reg.Trc.TRACE_ENGINES } }

/-- Is the step due to close at this count (R266)? -/
def closeDue (s : State) : Bool :=
  s.ledger.phase = .decided &&
  decide (s.ledger.voteStride + max 1 (rfield s ledgerPage Reg.Led.CLOSE_DELAY 7 0) ≤ s.stride.count)

/-- The STRETCH and HURDLE records of a tick (R458). -/
def traceTick (s : State) (p : PlannedTick) (before : StrideM) : State :=
  let b := activeStride s
  let fh := rget s b Reg.Str.FIRST_HOLD_DEVICE
  let valid := bit fh 15 && p.stretch ≠ 0
  let rec_ (kind : Nat) : TraceInfo :=
    { kind := kind, tag := 0, object := 0, queue := 0, opcode := 0, value := 0,
      start := { stride := before.count, ns := (s.stride.lastFire - p.stretch) - before.lastFire,
                 at_ := s.stride.lastFire - p.stretch },
      length := p.stretch,
      rel := { unit := 0, node := if valid then bits fh 14 0 else 0, tag := 0 },
      entry := (rget s b Reg.Str.HOLD_SOURCES).toNat }
  let s := if p.stretch ≠ 0 then traceSend s b (rec_ TraceKind.stretch) else s
  if p.msg.hurdle then traceSend s b (rec_ TraceKind.hurdle) else s

/-- The stride master stops (R103). -/
def haltStride (s : State) : State :=
  let s := rputBit (rputBit s (activeStride s) Reg.Str.STRIDE_CTRL 5 false) (activeStride s) Reg.Str.STRIDE_CTRL 4 false
  closeHolds (modStride s (fun x => { x with state := 0, stopping := false, next := [], outDue := none, first := false }))

/-- A tick fires now: the count, the seeds, the predictors, the waiting STRIDE_WAITs and all else that hangs on it.
DESIGN CHOICE, which R62 leaves open: a pin follower takes the STRIDE_PERIOD, TICK_LEAD and HOLD_LEAD of its next hold
point as they stand at this fire, and a write after it moves the hold point no more (log entry 150). -/
def fireTick (s : State) (p : PlannedTick) : State :=
  let before := s.stride
  let pin := strideSource s = 2
  let n := if pin then s.stride.count + 1 else p.msg.stride
  let planned := if pin then s.now + periodNs s else p.msg.planned
  let lead := if pin then tickLeadNs s + holdLeadNs s else p.msg.holdLead
  let now := s.now
  let b := activeStride s
  let s := modStride s (fun x => { x with
    count := n, lastFire := now, next := x.next.drop 1, planned := planned, lead := lead, state := 2,
    afterHurdle := p.msg.hurdle, first := false })
  let s := bump s b 0 1
  let s := if p.msg.hurdle then hurdle (bump s b 3 1) else s
  let s := traceTick (lateLists (rollPredictors (reseed s))) p before
  let s := traceControls s
  let s := allFronts.foldl evaluateStrideWait s
  let s := if closeDue s then { s with replan := true } else s
  let s := replanPoint s
  if s.stride.stopping then haltStride s else s

/-- TICK_FIRE: the time base reaches the fire time of the next tick. -/
def execTickFire (s : State) : Host.Outcome State Fault Refusal :=
  .next (match s.stride.next with
    | p :: _ => fireTick { s with now := max s.now p.msg.fire } p
    | [] => s)

/-! ### Followers (R58, R394) -/

/-- A follower applies a tick message (R58): one that arrives after its fire time fires at once. -/
def applyTick (s : State) (m : TickMsg) : State :=
  let b := activeStride s
  let s := if m.stride ≠ s.stride.count + 1 then raise s b 10 else s
  let late := decide (m.fire < s.now)
  let stretch := if s.stride.state = 1 && s.stride.next = [] then 0 else (max m.fire s.now) - s.stride.planned
  let s := noteStretch s stretch
  let p : PlannedTick := { msg := m, stretch := stretch }
  let s := modStride s (fun x => { x with next := x.next ++ [p], planned := m.planned, lead := m.holdLead })
  let s := closeHolds (scheduleOut s m.fire m.hurdle)
  if late then fireTick (bump (raise s b 9) b 4 1) p else s

/-- TICK: a tick message is forwarded to the children and applied. A root discards it with TICK_SEQUENCE (R54); one that
is not from the parent is dropped with PROTOCOL; an UNLOCKED or STOPPED device forwards it only, and counts it at the port
by which it came or on the stride master page. -/
def execTick (port : NauloId) (from_ : DeviceId) (m : TickMsg) (s : State) : Host.Outcome State Fault Refusal :=
  .next (
    if strideSource s = 0 then raise s (activeStride s) 10
    else if ttParent s ≠ some from_ then raise s fabricPage Cause.PROTOCOL
    else
      let s := sendTicks s m
      let unlocked := decide (rfield s fabricPage Reg.Fab.SYNC_STATE 1 0 = 0)
      let s := if unlocked then bump s (.naulo port) 14 1 else s
      if s.stride.state = 0 then bump s (activeStride s) 12 1
      else if !unlocked && strideSource s = 1 then applyTick s m
      else s)

/-! ### The pins (R67–R72) -/

/-- STRIDE_OUT: the pulse of the tick learnt of last rises, if the output is enabled at that time. -/
def execStrideOut (s : State) : Host.Outcome State Fault Refusal :=
  .next (match s.stride.outDue with
    | some (rise, width, late) =>
      let s := modStride { s with now := max s.now rise } (fun x => { x with outDue := none })
      if bit (sreg s Reg.Str.PIN_CTRL) 0 && strideSource s ≤ 1 then
        emit (if late then bump s (activeStride s) 13 1 else s) (.strideOut rise width)
      else s
    | none => s)

/-- Is STRIDE_IN sampled: a pin follower with IN_EN? -/
def pinIn (s : State) : Bool := strideSource s = 2 && bit (sreg s Reg.Str.PIN_CTRL) 1

/-- STRIDE_IN is stuck high: cause, count (R68). -/
def stuckHigh (s : State) : State :=
  modStride (bump (raise s (activeStride s) 12) (activeStride s) 9 1) (fun x => { x with stuck := true, fell := none })

/-- A pulse accepted as a tick (R69): it fires PIN_FIRE_DELAY after its rising edge, unless the device is STOPPED. -/
def acceptPulse (s : State) (rise : Nat) (h : Bool) : State :=
  let b := activeStride s
  let s := modStride (bump s b 5 1) (fun x => { x with lastPulse := some rise, missing := false })
  if s.stride.state = 0 then bump s b 12 1
  else
    let fire := rise + max 1000 (bits (sreg s Reg.Str.PIN_FIRE_DELAY) 19 0)
    let stretch := if s.stride.state = 1 && s.stride.next = [] then 0 else fire - s.stride.planned
    let m : TickMsg := { stride := nextStride s, fire := fire, planned := fire + periodNs s,
                         holdLead := tickLeadNs s + holdLeadNs s, hurdle := h }
    let s := noteStretch s stretch
    closeHolds (modStride s (fun x => { x with next := x.next ++ [{ msg := m, stretch := stretch }] }))

/-- Classify a high pulse of STRIDE_IN by its width (R68, R70). DESIGN CHOICE, which R70 leaves open: the width is judged
first, so a glitch or a pulse of bad width that rises too soon counts in its width class alone and not in OVER_FAST
(log entry 147). -/
def classify (s : State) (rise width : Nat) : State :=
  let b := activeStride s
  if 2000 < width then modStride (stuckHigh s) (fun x => { x with fell := some (rise + width) })
  else if width < 50 then bump s b 6 1
  else if width < 100 || (400 < width && width < 450) || 900 < width then bump s b 7 1
  else if s.stride.lastPulse.any (fun p => 8 * rise < 8 * p + 7 * periodNs s) then bump s b 8 1
  else acceptPulse s rise (450 ≤ width)

/-- STRIDE_IN_PULSE: a high pulse has ended. After a stuck input, pulses are ignored until it has been low for
1,000 ns. -/
def execStrideInPulse (rise width : Nat) (s : State) : Host.Outcome State Fault Refusal :=
  .next (
    if !pinIn s then s
    else
      let s := { s with now := max s.now (rise + width) }
      if s.stride.stuck then
        match s.stride.fell with
        | some f =>
          if f + 1000 ≤ rise then classify (modStride s (fun x => { x with stuck := false, fell := none })) rise width
          else modStride s (fun x => { x with fell := some (rise + width) })
        | none => modStride s (fun x => { x with fell := some (rise + width) })
      else classify s rise width)

/-- STRIDE_IN_STUCK: STRIDE_IN has been high for more than 2,000 ns. -/
def execStrideInStuck (s : State) : Host.Outcome State Fault Refusal :=
  .next (if pinIn s && !s.stride.stuck then stuckHigh s else s)

/-- STRIDE_IN_MISSING: no pulse has been accepted for STRIDE_PERIOD + HOLD_BUDGET + 2,000 ns (R71). -/
def execStrideInMissing (s : State) : Host.Outcome State Fault Refusal :=
  .next (match s.stride.lastPulse with
    | some p =>
      if pinIn s && !s.stride.missing && s.stride.state ≠ 0 then
        let b := activeStride s
        let s := { s with now := max s.now (p + periodNs s + holdBudgetNs s + 2000) }
        let s := stepSkip (bump (raise s b 13) b 10 1) 2
        modStride (sendRecord s b 13 Occur.none none) (fun x => { x with missing := true })
      else s
    | none => s)

/-! ### Start, stop, timing registers (R51, R60, R61, R103, R532) -/

/-- A write of 1 to STRIDE_CTRL.START: refused where TICK_LEAD + HOLD_LEAD reaches STRIDE_PERIOD (R60). DESIGN CHOICE,
which R102 leaves open: while STATE is not STOPPED it does nothing, and START reads 0 (log entry 151). -/
def writeStart (s : State) : State :=
  if s.stride.state ≠ 0 then s
  else if periodNs s ≤ tickLeadNs s + holdLeadNs s then raise s (activeStride s) 11
  else
    match strideSource s with
    | 0 =>
      let fire := max (rget64 s (activeStride s) Reg.Str.START_AT_LO Reg.Str.START_AT_HI) (s.now + tickLeadNs s)
      let tl := tickLeadNs s
      let bud := holdBudgetNs s
      allFronts.foldl evaluateStrideWait (modStride s (fun x => { x with
        state := 2, first := true, startAt := fire, tickLead := tl, budget := bud, afterHurdle := false,
        holdOpen := false }))
    | 1 | 2 =>
      allFronts.foldl evaluateStrideWait (modStride s (fun x => { x with state := 1, holdOpen := false }))
    | _ => s

/-- START. -/
def execStart (s : State) : Host.Outcome State Fault Refusal := .next (writeStart s)

/-- A write of 1 to STRIDE_CTRL.STOP (R103). -/
def writeStop (s : State) : State :=
  if s.stride.state = 0 then s
  else if strideSource s = 0 && s.stride.next ≠ [] then
    modStride (rputBit s (activeStride s) Reg.Str.STRIDE_CTRL 5 true) (fun x => { x with stopping := true })
  else haltStride s

/-- STOP. -/
def execStop (s : State) : Host.Outcome State Fault Refusal := .next (writeStop s)

/-- A write of a timing register: in its range, and with TICK_LEAD + HOLD_LEAD below STRIDE_PERIOD while the master
runs (R60). -/
def writeTiming (s : State) (off lo hi : Nat) (v : Word) : State :=
  let n := v.toNat
  let t := rput s (activeStride s) off v
  if n < lo || hi < n || (s.stride.state ≠ 0 && decide (periodNs t ≤ tickLeadNs t + holdLeadNs t))
  then raise s (activeStride s) 11 else t

/-- A write of STRIDE_PERIOD. -/
def writePeriod (s : State) (v : Word) : State := writeTiming s Reg.Str.STRIDE_PERIOD 10000 50000000 v

/-- A write of TICK_LEAD. -/
def writeTickLead (s : State) (v : Word) : State := writeTiming s Reg.Str.TICK_LEAD 1000 1000000 v

/-- A write of HOLD_LEAD. -/
def writeHoldLead (s : State) (v : Word) : State := writeTiming s Reg.Str.HOLD_LEAD 0 1000000 v

/-- A write of HOLD_BUDGET. -/
def writeHoldBudget (s : State) (v : Word) : State := writeTiming s Reg.Str.HOLD_BUDGET 0 50000000 v

/-- STRIDE_PERIOD. -/
def execStridePeriod (v : Word) (s : State) : Host.Outcome State Fault Refusal := .next (writePeriod s v)

/-- TICK_LEAD. -/
def execTickLead (v : Word) (s : State) : Host.Outcome State Fault Refusal := .next (writeTickLead s v)

/-- HOLD_LEAD. -/
def execHoldLead (v : Word) (s : State) : Host.Outcome State Fault Refusal := .next (writeHoldLead s v)

/-- HOLD_BUDGET. -/
def execHoldBudget (v : Word) (s : State) : Host.Outcome State Fault Refusal := .next (writeHoldBudget s v)

/-- A write of a half of STRIDE_COUNT, taken only while STOPPED (R51). -/
def writeCount (s : State) (high : Bool) (v : Word) : State :=
  if s.stride.state ≠ 0 then s
  else
    modStride s (fun x => { x with
      count := if high then v.toNat * 2 ^ 32 + x.count % 2 ^ 32 else x.count / 2 ^ 32 * 2 ^ 32 + v.toNat })

/-- STRIDE_COUNT. -/
def execStrideCount (high : Bool) (v : Word) (s : State) : Host.Outcome State Fault Refusal :=
  .next (writeCount s high v)

/-- A write of the whole STRIDE_CTRL: SOURCE only while STOPPED, and STOP before START (R102, R103). -/
def writeStrideCtrl (s : State) (v : Word) : State :=
  let b := activeStride s
  let s := if s.stride.state = 0 && bits v 1 0 ≠ 3 then rputField s b Reg.Str.STRIDE_CTRL 1 0 (bits v 1 0) else s
  let s := writeHoldSw (rputBit s b Reg.Str.STRIDE_CTRL 6 (bit v 6)) (bit v 3)
  if bit v 5 then writeStop s else if bit v 4 then writeStart s else s

end Sys2Proof.Machine
end

