-- ==== Sys2Proof/Machine/Ledger.lean ====
section
/-!
DEFINITION. The step ledger: what a vote samples of it (R264), its decision (R265, R534), the close of a step (R266),
its software controls, and what a committed step does to the steward's unit table (R428).
-/
namespace Sys2Proof.Machine

/-! ### Contributions (R264) -/

/-- Does a contribution flag the step? -/
def Contribution.flags (c : Contribution) : Bool := c.skip || c.nonfinite || c.torn

/-- The lower of two flagging devices. -/
def firstOf : Option DeviceId → Option DeviceId → Option DeviceId
  | some a, some b => some (if b.val < a.val then b else a)
  | some a, none => some a
  | none, x => x

/-- Two contributions combined (R264). -/
def Contribution.join (a b : Contribution) : Contribution :=
  { stepMin := min a.stepMin b.stepMin, stepMax := max a.stepMax b.stepMax, skip := a.skip || b.skip,
    nonfinite := a.nonfinite || b.nonfinite, torn := a.torn || b.torn, firstDevice := firstOf a.firstDevice b.firstDevice,
    norm := a.norm + b.norm }

/-- What a vote samples of the ledger (R264). -/
def ownVote (s : State) : Contribution :=
  let l := s.ledger
  let c : Contribution :=
    { stepMin := l.stepId, stepMax := l.stepId, skip := l.current.skip, nonfinite := l.current.nonfinite,
      torn := l.torn, firstDevice := none, norm := l.current.norm }
  if Contribution.flags c then { c with firstDevice := some (nodeId s) } else c

/-- The ledger is sampled: its state becomes VOTING. -/
def sampleLedger (s : State) : State :=
  let s := if Contribution.flags (ownVote s) then bump s ledgerPage 5 1 else s
  { s with ledger := { s.ledger with phase := .voting } }

/-! ### The close (R266) -/

/-- The step closes: STEP_ID, the sets and the state. -/
def closeStep (s : State) : State :=
  let l := s.ledger
  { s with ledger := { l with stepId := (l.stepId + 1) % 2 ^ 64, current := l.next, next := LedgerSet.clear, phase := .open_ } }

/-! ### The units of the steward (R428) -/

/-- What a committed step does to a unit's entry; none where it leaves the table. One count serves UNIT_STEPS, SUSPECT_WINDOW
and the choice of an entry to drop: the committed steps since the unit's last event (DEDUCED, assumption 167). -/
def commitUnit (window : Nat) (u : UnitEntry) : Option UnitEntry :=
  let u := { u with steps := u.steps + 1 }
  match u.phase with
  | .handling => some { u with phase := .watch }
  | .watch => if window ≤ u.steps then none else some u
  | .suspect => some (if u.stepped then { u with phase := .watch } else u)
  | _ => some u

/-- A step commits: every unit of the steward's table. -/
def commitUnits (s : State) : State :=
  let w := rfield s (activeQueue s) Reg.Erq.POLICY 31 16
  { s with steward := { s.steward with units := s.steward.units.filterMap (commitUnit w) } }

/-! ### The decision (R265) -/

/-- The norm of a vote: the correctly rounded FP32 square root of its exact sum. -/
def normWord (n : Nat) : Word := toF32 (sqrtF (ofGrid n))

/-- The decision is sent to the four hub engines and the two slow-tier ones; each receives it after its own route. -/
def sendDecision (s : State) : State :=
  let l := s.ledger
  let d : Decision :=
    { known := true, step := l.lastStep, commit := l.lastDecision = some true, committed := l.committed, norm := l.norm }
  { s with decisionMsgs := s.decisionMsgs ++ (List.range 6).map (fun k => (k, d)) }

/-- The ledger decides on a result; a late one closes the step at once (R265, R266). -/
def decide_ (s : State) (c : Contribution) (voteStride : Nat) : State :=
  let mismatch := c.stepMin ≠ c.stepMax
  let commit := !Contribution.flags c && !mismatch
  let l := s.ledger
  let l' : Ledger :=
    { l with lastDecision := some commit, lastStep := l.stepId, norm := normWord c.norm,
             committed := if commit then l.committed + 1 else l.committed, phase := .decided,
             voteStride := voteStride, lastFirst := c.firstDevice,
             lastFlags := (c.skip, c.nonfinite, c.torn, mismatch) }
  let s := bump { s with ledger := l' } ledgerPage 0 1
  let s := if commit then commitUnits (bump s ledgerPage 1 1)
    else
      let s := raise (bump s ledgerPage 2 1) ledgerPage 8
      let s := if c.nonfinite then bump s ledgerPage 3 1 else s
      if c.torn then bump s ledgerPage 4 1 else s
  let s := if mismatch then raise (bump s ledgerPage 7 1) ledgerPage 9 else s
  let s := sendDecision s
  if closeDue s then
    stepSkip { (closeStep (raise (bump s ledgerPage 6 1) ledgerPage 10)) with replan := true } 4
  else s

/-- STEP_CLOSE: the step closes at the fire of the first tick at or after VOTE_STRIDE + CLOSE_DELAY. -/
def execStepClose (s : State) : Host.Outcome State Fault Refusal := .next (if closeDue s then closeStep s else s)

/-- The ledger decides SKIP alone, because the vote's result is lost (R534): decision, TORN and bit 10 of SKIP_SOURCES,
with the device's own stride count as VOTE_STRIDE. -/
def decideAlone (s : State) : State :=
  let c : Contribution :=
    { stepMin := s.ledger.stepId, stepMax := s.ledger.stepId, skip := true, nonfinite := false, torn := false,
      firstDevice := none, norm := 0 }
  let s := decide_ s c s.stride.count
  let cur := s.ledger.current
  let s := { s with ledger := { s.ledger with current := { cur with sources := cur.sources ||| (1#11 <<< 10) } } }
  stepSkip (setTorn s) 10

/-! ### LEDGER_CTRL -/

/-- SW_SKIP written 1: SKIP in the set that receives events. -/
def writeSwSkip (s : State) : State := stepSkip (bump s ledgerPage 8 1) 5

/-- SW_SKIP. -/
def execSwSkip (s : State) : Host.Outcome State Fault Refusal := .next (writeSwSkip s)

/-- TORN_CLEAR written 1 (R268). -/
def writeTornClear (s : State) : State := { s with ledger := { s.ledger with torn := false } }

/-- TORN_CLEAR. -/
def execTornClear (s : State) : Host.Outcome State Fault Refusal := .next (writeTornClear s)

end Sys2Proof.Machine
end

