-- ==== Sys2Proof/Machine/Group.lean ====
section
/-!
DEFINITION. Groups of devices (R398), the running state of the relay engines, and STEP_VOTE (R264, R396, R413, R533,
R534).
-/
namespace Sys2Proof.Machine

/-- The running state of a relay engine. -/
def getRelay (s : State) (e : RelayId) : Relay := tget Relay.reset s.relays e.val

/-- Replace it. -/
def putRelay (s : State) (e : RelayId) (r : Relay) : State := { s with relays := tset Relay.reset s.relays e.val r }

/-- COLL_TIMEOUT in ns. -/
def collTimeout (s : State) (e : RelayId) : Nat := rfield s (.relay e) Reg.Rel.COLL_TIMEOUT 25 0

/-! ### The group table (R398) -/

/-- A group entry's fields. -/
structure GroupEntry where
  valid    : Bool
  root     : Bool
  engine   : RelayId
  children : Nat
  parent   : DeviceId
  size     : Nat
  rank     : Nat
  members  : Nat
  kids     : List DeviceId
  deriving DecidableEq, Repr

/-- Read a group entry's fields from its words. -/
def groupEntry (ws : List Word) : GroupEntry :=
  let n := cf ws 0 12 8
  let size := cf ws 2 15 0
  { valid := cb ws 0 0, root := cb ws 0 1, engine := Fin.ofNat 16 (cf ws 0 7 4), children := n,
    parent := Fin.ofNat 32768 (cf ws 1 14 0), size := if size = 0 then 32768 else size, rank := cf ws 3 15 0,
    members := cf64 ws 4,
    kids := (List.range (min n 16)).map (fun k =>
      Fin.ofNat 32768 (if k % 2 = 0 then cf ws (6 + k / 2) 14 0 else cf ws (6 + k / 2) 30 16)) }

/-- Local address of a group's entry. -/
def groupAddr (s : State) (g : Nat) : Nat :=
  rget64 s fabricPage Reg.Fab.GROUP_BASE_LO Reg.Fab.GROUP_BASE_HI + 128 * g

/-- The words of a group's entry, for the port that received a message; none where they cannot be read. -/
def peekEntry (s : State) (p : NauloId) (g : Fin 256) : State × Option (List Word) :=
  let a := groupAddr s g.val
  if hbmSize < a + 128 then (s, none)
  else
    let (s, l) := peekLocal s (reqOf (.naulo p) .critical) a 128
    (s, l.map (wordsOf 32))

/-- The number of the copies of a group's entry and of its member list, made at a command's start. -/
abbrev groupKey : Nat := 2 ^ 21

/-- Read a group's entry and its member list at the start of a command (R398, R402). -/
def loadGroup (e : RelayId) (ws : List Word) : Run (List Word × List Nat) := do
  let f : FrontId := .relay e
  let bad : Run Unit := defectAt f.block 14 (cmdTag ws) (cmdOp ws)
  let a ← look (groupAddr · (cf ws 2 11 4))
  if hbmSize < a + 128 then bad
  let r := cmdReq f.block ws
  let entry ← startCopy groupKey (do return wordsOf 32 (← needData (fun s => readLocal s r a 128)))
  let g := groupEntry entry
  if !g.valid || g.engine ≠ e || 16 < g.children then bad
  let node ← look (fun s => (nodeId s).val)
  let ma := g.members % 2 ^ 48
  if g.members / 2 ^ 48 ≠ node || hbmSize < ma + 2 * g.size then bad
  let ms ← startCopy (groupKey + 1) (do
    let l ← needData (fun s => readLocal s r ma (2 * g.size))
    return (List.range g.size).map (fun i => wordOf (leNat ((l.drop (2 * i)).take 2))))
  return (entry, ms.map (·.toNat))

/-- Has a device a route with a port up (R384)? -/
def routeUp (s : State) (d : DeviceId) : Bool :=
  (List.finRange 16).any (fun p => (tget (0#16) s.routes d.val).getLsbD p.val && portUp s p)

/-- A child is lost (R396): it is taken as not holding. -/
def loseChild (s : State) (d : DeviceId) : State :=
  let s := bump (raise s fabricPage 8) fabricPage 6 1
  reportHold { s with lost := if s.lost.contains d then s.lost else s.lost ++ [d] }

/-- GROUP_MISMATCH of a message or segment, with its sender (R415, R533, R534). -/
def groupMismatch (s : State) (e : RelayId) (from_ : DeviceId) (o : Occur) : State :=
  let b : Block := .relay e
  let s := if rbit s b Reg.Rel.MISMATCH_SRC 15 then s
    else rput s b Reg.Rel.MISMATCH_SRC (wordOf (32768 + from_.val))
  raiseWith s b 15 o

/-! ### Votes -/

/-- A COLLECTIVE starts: LAST_COLL. -/
def noteColl (s : State) (e : RelayId) (ws : List Word) : State :=
  rput s (.relay e) Reg.Rel.LAST_COLL (wordOf ((cmdTag ws).toNat * 65536 + cf ws 2 3 0))

/-- A COLLECTIVE has ended with a status. -/
def endColl (s : State) (e : RelayId) (slot : Nat) (st : Status) : State :=
  endSlot (bump s (.relay e) 21 1) (.relay e) slot st

/-- The words of a vote's header unit and its 80 bytes of norm. The places of its parts after GROUP are the model's
choice: no field table gives them. -/
def voteWords (g : Nat) (v : Contribution) (stride : Nat) : List Word :=
  [wordOf g] ++ words64 v.stepMin ++ words64 v.stepMax ++
  [wordOf ((if v.skip then 1 else 0) + (if v.nonfinite then 2 else 0) + (if v.torn then 4 else 0) +
    (match v.firstDevice with | some d => 32768 + d.val | none => 0) * 65536)] ++ words64 stride

/-- Send a vote to the parent; one that leaves counts as forwarded. -/
def sendVote (s : State) (e : RelayId) (g : Fin 256) (dst : DeviceId) (v : Contribution) : State :=
  let t := sendControl s (.relay e) 0x22 dst (voteWords g.val v 0) (leBytes 80 v.norm) (.vote dst g.val v)
  if routeUp s dst then bump t fabricPage 5 1 else t

/-- Send a result to a child. -/
def sendResult (s : State) (e : RelayId) (g : Fin 256) (dst : DeviceId) (v : Contribution) (stride : Nat) : State :=
  sendControl s (.relay e) 0x23 dst (voteWords g.val v stride) (leBytes 80 v.norm) (.voteResult dst g.val v stride)

/-- Replace what an engine holds of the latest vote of a child. -/
def noteVote (l : List (Nat × DeviceId × Nat)) (g : Nat) (d : DeviceId) (step : Nat) : List (Nat × DeviceId × Nat) :=
  (g, d, step) :: l.filter (fun x => !(x.1 = g && x.2.1 = d))

/-- Hand the result to the ledger, forward it and complete (R413, steps 4 and 5). -/
def finishVote (s : State) (e : RelayId) (r : VoteRun) (v : Contribution) (stride : Nat) : State :=
  let s := putRelay s e { getRelay s e with vote := none }
  let s := (groupEntry r.entry).kids.foldl (fun s d => sendResult s e r.group d v stride) s
  endColl (decide_ s v stride) e r.slot .ok

/-- When every child has been heard from, the vote goes up, or at the root the result goes down. -/
def voteUp (s : State) (e : RelayId) (r : VoteRun) : State :=
  let g := groupEntry r.entry
  if g.kids.all r.heard.contains && r.sent.isNone then
    if g.root then finishVote s e r r.combined s.stride.count
    else
      let s := putRelay s e { getRelay s e with vote := some { r with sent := some s.now } }
      sendVote s e r.group g.parent r.combined
  else putRelay s e { getRelay s e with vote := some r }

/-- Combine a vote of a child (R264). -/
def joinVote (s : State) (e : RelayId) (r : VoteRun) (d : DeviceId) (v : Contribution) : State × VoteRun :=
  let x := getRelay s e
  let s := putRelay { s with lost := s.lost.filter (· ≠ d) } e
    { x with combined := noteVote x.combined r.group.val d v.stepMax }
  (s, { r with combined := Contribution.join r.combined v, heard := r.heard ++ [d] })

/-- The first vote kept for each child of a group: a later one of the same child is of a later step. -/
def firstVotes (g : Fin 256) : List KeptVote → List DeviceId → List KeptVote
  | [], _ => []
  | k :: t, seen =>
    if k.group = g && !seen.contains k.child then k :: firstVotes g t (k.child :: seen) else firstVotes g t seen

/-- Combine the votes kept for the group, one for each child (R533). -/
def joinKept (s : State) (e : RelayId) (r : VoteRun) : State × VoteRun :=
  let x := getRelay s e
  let mine := firstVotes r.group x.votes []
  let s := putRelay s e { x with votes := x.votes.filter (fun k => !mine.contains k) }
  mine.foldl (fun (s, r) k => joinVote s e r k.child k.vote) (s, r)

/-- Start a STEP_VOTE: the group, then the sample, for which the command waits at its engine until the ledger is OPEN. -/
def startVote (s : State) (e : RelayId) (x : Slot) : State :=
  let s := noteColl s e x.words
  match runVal (loadGroup e x.words) x.memo s with
  | (.error .delayed, r) => waitSlot s (.relay e) x r
  | (.error st, r) => endColl r.st e x.id st
  | (.ok (entry, _), r) =>
    if s.ledger.phase ≠ .open_ then putSlot r.st (.relay e) { x with phase := .held, memo := r.memo }
    else
      let s := r.st
      let v : VoteRun :=
        { slot := x.id, group := Fin.ofNat 256 (cf x.words 2 11 4), entry := entry, step := s.ledger.stepId,
          sampled := s.now, combined := ownVote s, heard := [], sent := none }
      let s := putSlot (sampleLedger s) (.relay e) { x with phase := .running }
      let (s, v) := joinKept s e v
      voteUp s e v

/-- STEP_VOTE: the node samples its ledger and combines its children's votes. -/
def execStepVote (e : RelayId) (slot : Nat) (s : State) : Host.Outcome State Fault Refusal :=
  .next (startCommand s (.relay e) slot [0x50] true (fun s x =>
    if cf x.words 2 3 0 = 8 then startVote s e x else s))

/-- Is a vote a repeat of one kept or combined for the same child in the same step (R533)? The step of a vote is its highest
STEP_ID. -/
def repeated (r : Relay) (g : Fin 256) (d : DeviceId) (v : Contribution) : Bool :=
  r.votes.any (fun k => k.group = g && k.child = d && k.vote.stepMax = v.stepMax) || r.combined.contains (g.val, d, v.stepMax)

/-- Has the node stood in for the sender of a vote (R413)? -/
def stoodFor (r : Relay) (g : Fin 256) (d : DeviceId) (v : Contribution) : Bool :=
  r.stood.any (fun x => x.1 = g.val && x.2.1 = d && v.stepMax ≤ x.2.2)

/-- A vote reaches the engine of its group. -/
def takeVote (s : State) (e : RelayId) (entry : Option (List Word)) (g : Fin 256) (d : DeviceId) (v : Contribution) :
    State :=
  let r := getRelay s e
  let ge := (entry.map groupEntry).filter (fun x => x.valid && x.kids.contains d)
  if isFenced s (.relay e) then s
  else if ge.isNone || repeated r g d v then groupMismatch s e d Occur.none
  else if stoodFor r g d v then s
  else
    match r.vote with
    | some x =>
      if x.group = g && !x.heard.contains d then
        let (s, x) := joinVote s e x d v
        voteUp s e x
      else putRelay s e { r with votes := r.votes ++ [{ group := g, child := d, vote := v }] }
    | none => putRelay s e { r with votes := r.votes ++ [{ group := g, child := d, vote := v }] }

/-- The engine that a message of a group goes to: the one its entry names; where the entry cannot be read, that of the
port's own number. -/
def messageEngine (p : NauloId) (entry : Option (List Word)) : RelayId :=
  match entry with
  | some ws => (groupEntry ws).engine
  | none => p

/-- VOTE: a child's vote arrives and is kept, combined or dropped. -/
def execVote (port : NauloId) (group : Fin 256) (from_ : DeviceId) (v : Contribution) (s : State) :
    Host.Outcome State Fault Refusal :=
  .next (let (s, en) := peekEntry s port group
    takeVote s (messageEngine port en) en group from_ v)

/-- Has the ledger decided the step of a result already (R534)? -/
def stepDecided (l : Ledger) (v : Contribution) : Bool :=
  decide (v.stepMax < l.stepId) || (l.phase = .decided && decide (v.stepMax ≤ l.stepId))

/-- A result reaches the engine of its group: dropped where it comes from another device than the parent or for a step
that is decided (R534), else handed to the ledger and passed on, whether or not this node has sent its own vote, for which
its parent may have stood in; the STEP_VOTE that has sampled, if one has, completes (log entry 157). -/
def takeResult (s : State) (e : RelayId) (entry : Option (List Word)) (g : Fin 256) (d : DeviceId) (v : Contribution)
    (stride : Nat) : State :=
  if isFenced s (.relay e) then s
  else
    match entry.map groupEntry with
    | some ge =>
      if ge.valid && !ge.root && ge.parent = d && !stepDecided s.ledger v then
        match (getRelay s e).vote with
        | some r => if r.group = g then finishVote s e r v stride else groupMismatch s e d Occur.none
        | none => decide_ (ge.kids.foldl (fun s k => sendResult s e g k v stride) s) v stride
      else groupMismatch s e d Occur.none
    | none => groupMismatch s e d Occur.none

/-- VOTE_RESULT: the result reaches the ledger, and goes on to the children. -/
def execVoteResult (port : NauloId) (group : Fin 256) (from_ : DeviceId) (v : Contribution) (voteStride : Nat)
    (s : State) : Host.Outcome State Fault Refusal :=
  .next (let (s, en) := peekEntry s port group
    takeResult s (messageEngine port en) en group from_ v voteStride)

/-- The vote that a node makes in place of a missing child (R413). -/
def standInVote (r : VoteRun) (child : DeviceId) : Contribution :=
  { stepMin := r.step, stepMax := r.step, skip := true, nonfinite := false, torn := false, firstDevice := some child,
    norm := 0 }

/-- STAND_IN: COLL_TIMEOUT after its sample, or at once where the child's route has no port up, the node stands in. -/
def execStandIn (e : RelayId) (child : DeviceId) (s : State) : Host.Outcome State Fault Refusal :=
  .next (match (getRelay s e).vote with
    | some r =>
      if (groupEntry r.entry).kids.contains child && !r.heard.contains child && r.sent.isNone then
        let s := if routeUp s child then { s with now := max s.now (r.sampled + collTimeout s e) } else s
        let x := getRelay s e
        let s := putRelay s e { x with stood := noteVote x.stood r.group.val child r.step }
        let r := { r with combined := Contribution.join r.combined (standInVote r child), heard := r.heard ++ [child] }
        voteUp (loseChild (bump s (.relay e) 22 1) child) e r
      else s
    | none => s)

/-- VOTE_RESULT_LOST: no result within COLL_TIMEOUT of the send, or at once where the parent's route has no port up. -/
def execVoteResultLost (e : RelayId) (s : State) : Host.Outcome State Fault Refusal :=
  .next (match (getRelay s e).vote with
    | some r =>
      match r.sent with
      | some t =>
        let s := if routeUp s (groupEntry r.entry).parent then { s with now := max s.now (t + collTimeout s e) } else s
        let s := putRelay s e { getRelay s e with vote := none }
        let tag := match getSlot s (.relay e) r.slot with
          | some x => cmdTag x.words
          | none => 0
        endColl (decideAlone (raiseTag s (.relay e) 16 tag 0x50)) e r.slot .aborted
      | none => s
    | none => s)

end Sys2Proof.Machine
end

