-- ==== Sys2Proof/Machine/Memory.lean ====
section
/-!
DEFINITION. The memories as destinations of requests: core memories with patrol, parity injection and segment power
(R298–R312), the larder with its pending reads and scrubber (R319–R327), HBM with scrubber and retirement (R338,
R342–R350), the memory-side adders (R351–R354), the CXL slow tier (R356–R360), and the service-class window (R368).
-/
namespace Sys2Proof.Machine

/-- The request of a row that says who sends it. -/
def rowReq (who : Block) (tag : Tag) (cls : SvcClass) : Req := { reqOf who cls with tag := tag }

/-- Serve an access at a local address. -/
def serveLocal (s : State) (r : Req) (a : Nat) : Access → State × Status × List Byte
  | .read n => readLocal s r a n
  | .write d => let (s, st) := writeLocal s r a d; (s, st, [])

/-- A request that a unit of this device makes: answered now, or held until what it waits for has passed. -/
def takeRequest (s : State) (r : Req) (a : Nat) (acc : Access) : State :=
  match serveLocal s r a acc with
  | (s', .delayed, _) => holdReq s s' r a acc none .unit
  | x => respond r.who x

/-! ### Core memories -/

/-- CORE_MEMORY_REQUEST: a request reaches a bank. -/
def execCoreMemoryRequest (c : CoreId) (m : CoreMem) (who : Block) (tag : Tag) (offset : Nat) (a : Access) (s : State) :
    Host.Outcome State Fault Refusal :=
  let r := rowReq who tag .critical
  .next (if memSize m < offset + accessBytes a then respond who (raiseAtRequester s r Cause.ADDRESS, .aborted, [])
    else takeRequest s r (coreAddr c m offset) a)

/-- The number of the segment that holds a block of a memory. -/
def blockSeg (m : CoreMem) (blk : Nat) : Nat := blk * 64 / segBytes m

/-- The first block at or after `blk` that lies in a segment that is ON, wrapping at the end; by segments. -/
def nextOn (s : State) (c : CoreId) (m : CoreMem) (blk : Nat) : Nat → Option Nat
  | 0 => none
  | n + 1 =>
    if (getSeg s c m (blockSeg m blk)).phase = .on then some blk
    else nextOn s c m ((blockSeg m blk + 1) * (segBytes m / 64) % (memSize m / 64)) n

/-- PATROL_READ: the patrol reader reads the next block that lies in a segment that is ON (R305). -/
def execPatrolRead (c : CoreId) (m : CoreMem) (s : State) : Host.Outcome State Fault Refusal :=
  let b : Block := .mem c m
  .next (
    if !rbit s b Reg.Mem.PATROL_CTRL 31 || isFenced s b then s
    else
      match nextOn s c m (rfield s b Reg.Mem.PATROL_POS 24 6) 12 with
      | none => s
      | some k =>
        let s := rput (bump s b 4 1) b Reg.Mem.PATROL_POS (wordOf ((k + 1) % (memSize m / 64) * 64))
        match firstBad s (coreAddr c m (64 * k)) 64 with
        | some a => parityError s c m (a - coreAddr c m 0) 7 (reqOf b .bulk)
        | none => s)

/-- PARITY_INJECT: the target block is written, and ARM set by writing 1 (R307). -/
def writeParityInject (s : State) (c : CoreId) (m : CoreMem) (v : Word) : State :=
  let b : Block := .mem c m
  let s := rputField s b Reg.Mem.PARITY_INJECT 24 6 (bits v 24 6)
  if bit v 31 then rputBit s b Reg.Mem.PARITY_INJECT 31 true else s

/-- PARITY_INJECT. -/
def execParityInject (c : CoreId) (m : CoreMem) (v : Word) (s : State) : Host.Outcome State Fault Refusal :=
  .next (writeParityInject s c m v)

/-- Does a segment of AM meet the core's descriptor table (R312)? -/
def segHoldsTable (s : State) (c : CoreId) (m : CoreMem) (k : Nat) : Bool :=
  m = .am && overlaps (k * segBytes m) (segBytes m) (amTable s c).1 (amTable s c).2

/-- The writes in flight of a segment reach its arrays. -/
def landWrites (s : State) (c : CoreId) (m : CoreMem) (k : Nat) : State :=
  let x := getSeg s c m k
  x.wif.foldl (fun s (w : Nat × List Byte) => coreWrite s c m w.1 w.2) (putSeg s c m k { x with wif := [] })

/-- One segment's bit of SEG_OFF is written (R308, R312). -/
def writeSegBit (s : State) (c : CoreId) (m : CoreMem) (k : Nat) (v : Bool) : State :=
  let b : Block := .mem c m
  let x := getSeg s c m k
  if v && segHoldsTable s c m k then raise s b 8
  else
    let s := rputBit s b Reg.Mem.SEG_OFF k v
    match x.phase, v with
    | .on, true => putSeg s c m k { x with phase := .draining }
    | .draining, false => landWrites (putSeg s c m k { x with phase := .on }) c m k
    | .off, false => putSeg s c m k { x with phase := .waking }
    | _, _ => s

/-- A write of SEG_OFF. -/
def writeSegOff (s : State) (c : CoreId) (m : CoreMem) (v : Word) : State :=
  (List.range m.segments).foldl (fun s k => writeSegBit s c m k (bit v k)) s

/-- A write that reaches its segment in the cycle of a write of SEG_OFF, and before it: accepted under the state before
(R310). One whose segment goes from ON to DRAINING is counted as in flight; the others are written at once. -/
def writeAhead (s0 : State) (c : CoreId) (m : CoreMem) (s : State) (x : Block × Tag × Nat × List Byte) : State :=
  let r := rowReq x.1 x.2.1 .critical
  let (off, data) := (x.2.2.1, x.2.2.2)
  let k := off / segBytes m
  if (getSeg s0 c m k).phase = .on && (getSeg s c m k).phase = .draining then
    match coreWriteCheck s0 r c m off data.length with
    | (_, .ok) =>
      let y := getSeg s c m k
      respond x.1 (putSeg s c m k { y with wif := y.wif ++ [(off, data)] }, .ok, [])
    -- only a fence turns it away here: a segment that holds the descriptor table is never DRAINING (R312)
    | (_, st) => respond x.1 (fencedAnswer s r (.mem c m), st, [])
  else takeRequest s r (coreAddr c m off) (.write data)

/-- SEG_OFF, with the writes that reach the memory in its cycle. -/
def execSegOff (c : CoreId) (m : CoreMem) (v : Word) (ahead : List (Block × Tag × Nat × List Byte)) (s : State) :
    Host.Outcome State Fault Refusal :=
  .next (ahead.foldl (writeAhead s c m) (writeSegOff s c m v))

/-- DRAIN_COMPLETE: a DRAINING segment has written what was in flight, its counter is 0, and power is removed. -/
def execDrainComplete (c : CoreId) (m : CoreMem) (seg : Fin 11) (s : State) : Host.Outcome State Fault Refusal :=
  .next (if (getSeg s c m seg.val).phase = .draining then
      let s := landWrites s c m seg.val
      bump (putSeg s c m seg.val { phase := .off, wif := [] }) (.mem c m) 8 1
    else s)

/-- WAKE_COMPLETE: a WAKING segment holds zeros with good parity, and is ON, or DRAINING if its bit of SEG_OFF is set
again (R308, R311). -/
def execWakeComplete (c : CoreId) (m : CoreMem) (seg : Fin 11) (s : State) : Host.Outcome State Fault Refusal :=
  let x := getSeg s c m seg.val
  .next (if x.phase = .waking then
      let s := zeroRange s (coreAddr c m (seg.val * segBytes m)) (segBytes m)
      putSeg s c m seg.val { x with phase := if rbit s (.mem c m) Reg.Mem.SEG_OFF seg.val then .draining else .on }
    else s)

/-! ### The larder -/

/-- One piece of a larder read (R324, R327, R365): it joins the entry of its block or takes one of its own, which a
stride-critical read lets make its access at once. -/
def larderReadBlock (s : State) (d : LarderId) (who : Block) (cls : SvcClass) (off n : Nat) : State :=
  let r := reqOf who cls
  match openEntry s d (off / 64) with
  | some e =>
    let e' : PendingRead := { e with readers := e.readers ++ [(who, off, n)], bulk := e.bulk || cls = .bulk }
    let s := { s with pendingReads := s.pendingReads.map (fun x => if x = e then e' else x) }
    let s := bump s (.larder d) 1 1
    if cls = .critical then serveEntry s e' else s
  | none =>
    let j := judge s r [(.larder d, 0)] false
    let s := arrive s r j
    if j.1 then respond who (s, .refused, [])
    else
      let e : PendingRead :=
        { die := d, block := off / 64, bulk := cls = .bulk, readers := [(who, off, n)], answered := false }
      let s := { s with pendingReads := s.pendingReads ++ [e] }
      let s := noteServed s r [(.larder d, 0)]
      if cls = .critical then serveEntry s e else s

/-- The die-local address of a larder byte (R25). -/
def larderAlias (d : LarderId) (off : Nat) : Nat := 0x018000000000 + 2 ^ 32 * d.val + off

/-- The way of a row's request to a memory of a die. -/
def rowWay (s : State) (who : Block) (a : Nat) (n : Nat) : Way := wayOf s who (blockCuts a n)

/-- LARDER_READ: a read joins or takes a pending entry, or is answered at once. -/
def execLarderRead (d : LarderId) (who : Block) (cls : SvcClass) (offset bytes : Nat) (s : State) :
    Host.Outcome State Fault Refusal :=
  let r := reqOf who cls
  let a := larderAlias d offset
  .next (
    if larderDieSize < offset + bytes then respond who (raiseAtRequester s r Cause.ADDRESS, .aborted, [])
    else match rowWay s who a bytes with
      | .waits => holdReq s s r a (.read bytes) none .unit
      | .lost | .noAnswer => respond who (timedOut s r (serviceBound s r a false), .aborted, [])
      | .free =>
        match larderFenced s d offset bytes with
        | some b => respond who (fencedAnswer s r b, .aborted, [])
        | none => (blockCuts offset bytes).foldl (fun s (o, n) => larderReadBlock s d who cls o n)
                    (travel s who a 0 bytes))

/-- LARDER_WRITE: whole words are encoded directly, part words read, corrected and merged (R322). -/
def execLarderWrite (d : LarderId) (who : Block) (cls : SvcClass) (offset : Nat) (data : List Byte) (s : State) :
    Host.Outcome State Fault Refusal :=
  let r := reqOf who cls
  .next (
    if larderDieSize < offset + data.length then respond who (raiseAtRequester s r Cause.ADDRESS, .aborted, [])
    else takeRequest s r (larderAlias d offset) (.write data))

/-- MERGE_WAIT: a waiting entry of the table makes its bank access. -/
def execMergeWait (d : LarderId) (block : Nat) (s : State) : Host.Outcome State Fault Refusal :=
  .next (match ((diePending s d).take 256).find? (fun e => e.block = block) with
    | some e => serveEntry s e
    | none => s)

/-- LARDER_SCRUB: the scrubber reads, corrects and writes back the next block (R323). -/
def execLarderScrub (d : LarderId) (s : State) : Host.Outcome State Fault Refusal :=
  let b : Block := .larder d
  .next (
    if !rbit s b Reg.Ldr.SCRUB_CTRL 31 || isFenced s b then s
    else
      let k := rfield s b Reg.Ldr.SCRUB_POS 30 6
      let before := ctr s b 5
      let s := (larderWords s d (64 * k) 0 Occur.none 16).1
      let s := bump (bump s b 8 (ctr s b 5 - before)) b 7 1
      rput s b Reg.Ldr.SCRUB_POS (wordOf ((k + 1) % (larderDieSize / 64) * 64)))

/-! ### HBM -/

/-- The local address of a byte of a pseudo-channel: the inverse of R340 and R341. -/
def hbmAddr (s : State) (st : StackId) (pc : Fin 32) (off : Nat) : Nat :=
  let low := 0x4000000 * sharedQ s
  if off < low then
    let h := off / 256
    let p := st.val * 32 + pc.val
    (h * 512 + (p ^^^ (h % 512) ^^^ (h / 512 % 512))) * 256 + off % 256
  else
    let o := off - low
    let h := o / 256
    let p := st.val % 4 * 32 + pc.val
    sharedBytes s + st.val / 4 * hubBytes s + (h * 128 + (p ^^^ (h % 128) ^^^ (h / 128 % 128))) * 256 + o % 256

/-- Serve a request at HBM, or hold it while its pseudo-channel is being retired (R349). -/
def hbmServe (s : State) (r : Req) (a : Nat) (acc : Access) : State :=
  match placeOf s a with
  | .hbm _ _ _ => takeRequest s r a acc
  | _ => respond r.who (raiseAtRequester s r Cause.ADDRESS, .aborted, [])

/-- HBM_REQUEST: a request reaches a pseudo-channel. -/
def execHbmRequest (who : Block) (tag : Tag) (cls : SvcClass) (addr : Nat) (a : Access) (s : State) :
    Host.Outcome State Fault Refusal :=
  .next (hbmServe s (rowReq who tag cls) addr a)

/-- The scrubber's read is a bulk request of the controller (R347, R361): it is judged as one, and waits while its
pseudo-channel is being retired. -/
def scrubArrival (s : State) (st : StackId) (pc : Fin 32) (a : Nat) : State × Bool :=
  let r := reqOf (.hbm st) .bulk
  let d : Dest := (.hbm st, pc.val)
  let j := judge s r [d] false
  let seen := wasNoticed s r a
  if pcRetiring s st pc.val then (if seen then s else settleWaits s (waitsHere s r a j), true)
  else (noteServed (forgetNotice (if seen then s else arrive s r j) r a) r [d], false)

/-- HBM_SCRUB: the scrubber reads, corrects and writes back the next block of the stack's pseudo-channels in turn
(R347); it has nothing to correct in a retired one. -/
def execHbmScrub (st : StackId) (s : State) : Host.Outcome State Fault Refusal :=
  let b : Block := .hbm st
  .next (
    if !rbit s b Reg.Hbm.SCRUB_CTRL 31 || isFenced s b then s
    else
      let pc : Fin 32 := Fin.ofNat 32 (rfield s b Reg.Hbm.SCRUB_POS 28 24)
      let blk := rfield s b Reg.Hbm.SCRUB_POS 23 0
      let next := if pc.val = 31 then (blk + 1) % 0xC00000 else blk
      let a := hbmAddr s st pc (64 * blk)
      let go (s : State) : State := rput s b Reg.Hbm.SCRUB_POS (wordOf ((pc.val + 1) % 32 * 2 ^ 24 + next))
      if pcRetired s st pc then go s
      else match scrubArrival s st pc a with
        | (s, true) => s
        | (s, false) => go (hbmBlock (bump s b 6 1) st pc (64 * blk) a 0 Occur.none).1)

/-- The retirement of a pseudo-channel starts: new requests to it are held (R349 step 1). -/
def startRetire (s : State) (st : StackId) (pc : Fin 32) : State :=
  let b : Block := .hbm st
  if rbit s b Reg.Hbm.PC_RETIRE 31 || pcRetired s st pc || s.retiringPc.any (fun x => x.1 = st.val) then s
  else
    let s := rput s b Reg.Hbm.PC_RETIRE (wordOf (2 ^ 31 + pc.val))
    { s with retiringPc := s.retiringPc ++ [(st.val, pc.val)] }

/-- PC_RETIRE. -/
def execPcRetire (s_ : StackId) (pc : Fin 32) (s : State) : Host.Outcome State Fault Refusal :=
  .next (startRetire s s_ pc)

/-- The requests in service at a pseudo-channel that is being retired have finished: it takes a spare slot and is marked
retired (R349 steps 2 to 4, the release apart). -/
def pcDone (s : State) (st : StackId) : State :=
  match s.retiringPc.find? (fun x => x.1 = st.val) with
  | none => s
  | some (_, p) =>
    let pc : Fin 32 := Fin.ofNat 32 p
    let s := { s with retiringPc := s.retiringPc.filter (fun x => x.1 ≠ st.val) }
    if pcRetired s st pc then s else finishRetire s st pc

/-- STACK_TEMP: the controller reads the stack's temperature and its error-check counts; a thermal trip that the stack
reports raises STACK_ALERT. -/
def execStackTemp (st : StackId) (temp : BitVec 16) (corrections : Nat) (trip : Bool) (s : State) :
    Host.Outcome State Fault Refusal :=
  let s := bump (rput s (.hbm st) Reg.Hbm.STACK_TEMP (wordOf temp.toNat)) (.hbm st) 5 corrections
  .next (if trip then raise s (.hbm st) 12 else s)

/-- REFRESH: a per-bank refresh is issued. A command that fails parity is re-issued once; where that fails as well,
STACK_ALERT is raised (R338). `parityFails` says how often it fails. -/
def execRefresh (st : StackId) (parityFails : Fin 3) (s : State) : Host.Outcome State Fault Refusal :=
  let s := bump s (.hbm st) 7 1
  let s := if parityFails.val = 0 then s else bump s (.hbm st) 10 1
  .next (if parityFails.val = 2 then raise s (.hbm st) 12 else s)

/-- Do `n` spare slots from SPARE_BASE lie within the capacity of one expander (R348)? -/
def spareFits (s : State) (st : StackId) (n : Nat) : Bool :=
  let base := spareBase s st 0
  n = 0 || (slowBase ≤ base && base < slowBase + 4 * slowWindow &&
    (slowPlace base).2 + 2 ^ 30 * n ≤ expanderBytes s (slowPlace base).1)

/-- COUNT is checked against the expander: where its slots do not fit it reads 0, with SPARE_CONFIG. -/
def checkSpares (s : State) (st : StackId) : State :=
  let b : Block := .hbm st
  let n := rfield s b Reg.Hbm.SPARE_SLOTS 2 0
  if n ≤ 4 && spareFits s st n then s else raise (rputField s b Reg.Hbm.SPARE_SLOTS 2 0 0) b 11

/-- A write of SPARE_BASE or SPARE_SLOTS (R348). -/
def writeSpare (s : State) (st : StackId) (off : Nat) (v : Word) : State :=
  let b : Block := .hbm st
  let used := rfield s b Reg.Hbm.SPARE_SLOTS 6 4
  if off = Reg.Hbm.SPARE_SLOTS then
    if bits v 2 0 < used then s else checkSpares (rputField s b Reg.Hbm.SPARE_SLOTS 2 0 (bits v 2 0)) st
  else if off = Reg.Hbm.SPARE_BASE_LO || off = Reg.Hbm.SPARE_BASE_HI then
    if used ≠ 0 then s else checkSpares (rwrite s b off v) st
  else s

/-- SPARE_SLOTS. -/
def execSpareSlots (st : StackId) (offset : Nat) (v : Word) (s : State) : Host.Outcome State Fault Refusal :=
  .next (writeSpare s st offset v)

/-! ### Memory-side adders -/

/-- Bytes of an element of an add format; none for a reserved one (R351). -/
def addBytes : Nat → Option Nat
  | 0 => some 4
  | 1 => some 2
  | 2 => some 4
  | 3 => some 8
  | _ => none

/-- The exact sum of a target and a contribution, +0 where it is 0, whatever the signs (R118, R351). -/
def addExact (t c : Val) : Val := let v := t.add c; if v.isZero then .zero else v

/-- The sum of a target and a contribution: its code, whether it is not finite, whether an integer left its range. -/
def addElem (fmt t c : Nat) : Nat × Bool × Bool :=
  let int (w : Nat) : Nat × Bool × Bool :=
    let x := signed w t + signed w c
    ((x % 2 ^ w).toNat, false, decide (x < -(2 ^ (w - 1)) ∨ 2 ^ (w - 1) ≤ x))
  match fmt with
  | 0 => let v := addExact (fp32.decode t) (fp32.decode c); let r := (fp32.convert .nearest false v).1; (r, (fp32.decode r).nonfinite, false)
  | 1 => let v := addExact (bf16.decode t) (bf16.decode c); let r := (bf16.convert .nearest false v).1; (r, (bf16.decode r).nonfinite, false)
  | 2 => int 32
  | _ => int 64

/-- An integer overflow at an adder (R351). -/
def addOverflow (s : State) (r : Req) (b : Block) (a : Nat) : State :=
  let s := if rbit s b Reg.Add.OVF_ADDR_HI 31 then s
    else rput (rput s b Reg.Add.OVF_ADDR_LO (wordOf a)) b Reg.Add.OVF_ADDR_HI (wordOf (2 ^ 31 + a / 2 ^ 32))
  raiseWith (bump s b 6 1) b 9 r.occ

/-- The elements of one piece, added one by one: the new bytes. -/
def addPiece (s : State) (r : Req) (b : Block) (fmt sz a : Nat) (old new : List Byte) : State × List Byte :=
  (List.range (old.length / sz)).foldl (fun (s, out) i =>
    let (x, nf, ovf) := addElem fmt (leNat ((old.drop (sz * i)).take sz)) (leNat ((new.drop (sz * i)).take sz))
    let s := bump s b (1 + fmt) 1
    let s := if nf then bump s b 5 1 else s
    let s := if ovf then addOverflow s r b (a + sz * i) else s
    (s, out ++ leBytes sz x)) (s, [])

/-- The sums of a piece have been written, or their block could not be read again (R353). -/
def addWritten (st : StackId) : State × Status → State × Status
  | (s, .poisoned) => (bump s (.adder st) 8 1, .poisoned)
  | x => x

/-- The old bytes of a piece have been read, or not (R353). -/
def addRead (r : Req) (fmt sz : Nat) (st : StackId) (pc : Fin 32) (off a : Nat) (data : List Byte) :
    State × Status × List Byte → State × Status
  | (s, .ok, old) =>
    addWritten st (hbmWrite (addPiece s r (.adder st) fmt sz a old data).1 r st pc off a
      (addPiece s r (.adder st) fmt sz a old data).2)
  | (s, .poisoned, _) => (bump s (.adder st) 8 1, .poisoned)
  | (s, x, _) => (s, x)

/-- The add of one block's piece (R352, R353). -/
def addBlock (s : State) (r : Req) (fmt sz a : Nat) (data : List Byte) : State × Status :=
  match placeOf s a with
  | .hbm st pc off => addRead r fmt sz st pc off a data (hbmRead s r st pc off a data.length)
  | _ => (s, .aborted)

/-- The pieces of an add request. -/
def addBlocks (s : State) (r : Req) (fmt sz : Nat) : List (Nat × Nat) → List Byte → State × Status
  | [], _ => (s, .ok)
  | (a, n) :: t, data =>
    let (s, x) := addBlock s r fmt sz a (data.take n)
    let (s, y) := addBlocks s r fmt sz t (data.drop n)
    (s, worse x y)

/-- The adder that an address falls to: that of its stack; stack 0's where it is not in HBM. -/
def adderOf (s : State) (a : Nat) : Block :=
  match placeOf s a with
  | .hbm st _ _ => .adder st
  | _ => .adder 0

/-- Is an add request malformed: a reserved format, an address outside HBM, misaligned, or across a 512-byte boundary
(R351)? -/
def badAdd (a fmt n : Nat) : Bool :=
  match addBytes fmt with
  | none => true
  | some sz => hbmSize < a + n || a % sz ≠ 0 || n % sz ≠ 0 || n = 0 || 512 < a % 512 + n

/-- An add request that has reached its adder, its format checked (R351–R353, R362). -/
def addArrived (s : State) (r : Req) (a fmt : Nat) (data : List Byte) : State × Status :=
  let n := data.length
  let d : Dest := (adderOf s a, 0)
  let j := judge s r [d] false
  let seen := wasNoticed s r a || r.again
  if j.1 then (arrive s r j, .refused)
  else if heldBack s a n then (waitsHere s r a j, .delayed)
  else
    let s := noteServed (forgetNotice (if seen then s else arrive s r j) r a) r [d]
    match checkPieces s r a n (blockCuts a n) with
    | (s, .ok) => addBlocks s r fmt ((addBytes fmt).getD 1) (blockCuts a n) data
    | x => x

/-- An add request at a local address (R351); `.delayed` says that it must wait. -/
def memoryAdd (s : State) (r : Req) (a fmt : Nat) (data : List Byte) : State × Status :=
  let b := adderOf s a
  let n := data.length
  let serve (s : State) : State × Status :=
    if isFenced s b then (fencedAnswer s r b, .aborted)
    else
      let s := bump s b 0 1
      if badAdd a fmt n then (raiseWith s b 8 r.occ, .aborted) else addArrived (travel s r.who a n 0) r a fmt data
  match lapses s r.who with
  | (s, true) => (timedOut s r (serviceBound s r a true), .aborted)
  | (s, false) =>
    match wayOf s r.who (blockCuts a n) with
    | .waits => (s, .delayed)
    | .lost => (timedOut s r (serviceBound s r a true), .aborted)
    | .noAnswer => (timedOut (serve s).1 r (serviceBound s r a true), .aborted)
    | .free => serve s

/-- MEMORY_SIDE_ADD: an add request of a relay engine, of the class of the command that issues it (R361). -/
def execMemorySideAdd (e : RelayId) (tag : Tag) (cls : SvcClass) (addr : Nat) (fmt : Fin 16) (data : List Byte) (s : State) :
    Host.Outcome State Fault Refusal :=
  let r := rowReq (.relay e) tag cls
  let s := bump s (.relay e) 20 1
  .next (match memoryAdd s r addr fmt.val data with
    | (s', .delayed) => holdReq s s' r addr (.write data) (some fmt.val) .unit
    | (t, st) => respond (.relay e) (t, st, []))

/-! ### The CXL slow tier -/

/-- The memory transaction of a piece: 0 MemRd, 1 MemWr, 2 MemWrPtl. -/
def cxlKind : Access → Nat
  | .read _ => 0
  | .write d => if d.length = 64 then 1 else 2

/-- Issue a piece to the expander. -/
def issueCxl (s : State) (q : CxlReq) : State :=
  let data := match q.acc with
    | .read _ => []
    | .write d => d
  let s := emit s (.cxl q.port (cxlKind q.acc) q.xid (slowPlace q.addr).2 data)
  let s := bump (bump s (.cxl q.port) (cxlKind q.acc) 1) (.cxl q.port) (if cxlKind q.acc = 0 then 3 else 4)
    (accessBytes q.acc)
  { s with cxlReqs := s.cxlReqs.map (fun x => if x.xid = q.xid then { x with issued := true, issuedAt := s.now } else x) }

/-- The pieces of a port that may be issued now: no earlier one of their block is outstanding, and the port holds fewer
than 512 (R357). -/
def cxlReady (s : State) (p : CxlId) : Option CxlReq :=
  let l := s.cxlReqs.filter (fun q => q.port = p && q.done.isNone)
  if 512 ≤ (l.filter (·.issued)).length then none
  else (l.zipIdx.find? (fun (q, i) => !q.issued && !(l.take i).any (fun y => y.addr / 64 = q.addr / 64))).map (·.1)

/-- Issue what may be issued. -/
def pumpCxl (s : State) (p : CxlId) : Nat → State
  | 0 => s
  | n + 1 =>
    match cxlReady s p with
    | some q => pumpCxl (issueCxl s q) p n
    | none => s

/-- Answer the requests of which every piece has been answered; the reply to one that the proxy has answered already is
dropped and counted (R443 step 3), and one that its requester has ended is dropped (R90). -/
def answerCxl (s : State) (w : Nat) : State :=
  let l := s.cxlReqs.filter (fun q => q.whole = w)
  match l with
  | [] => s
  | q :: _ =>
    if l.any (fun x => x.done.isNone) then s
    else
      let st := l.foldl (fun st x => worse st ((x.done.map (·.1)).getD .ok)) .ok
      let d := l.flatMap (fun x => (x.done.map (·.2)).getD [])
      let s := { s with cxlReqs := s.cxlReqs.filter (fun x => x.whole ≠ w) }
      if q.answered then bump s (proxyOf s (.cxl q.port)) 3 1
      else if q.lost then s
      else respond q.who (s, st, if st = .ok then d else [])

/-- Note the answer of a piece. -/
def doneCxl (s : State) (q : CxlReq) (x : Status × List Byte) : State :=
  answerCxl { s with cxlReqs := s.cxlReqs.map (fun y => if y.xid = q.xid && y.port = q.port
    then { y with done := some x } else y) } q.whole

/-- An access at a CXL port becomes transactions of one block each, which go as R357 lets them. -/
def splitCxl (s : State) (p : CxlId) (who : Block) (tag : Tag) (cls : SvcClass) (offset : Nat) (a : Access) : State :=
  let w := s.cxlXid
  let base := slowBase + slowWindow * p.val
  let piece (o n i : Nat) : CxlReq :=
    { xid := w + i, port := p, whole := w, issued := false, done := none, who := who, tag := tag, cls := cls,
      addr := base + o,
      acc := match a with
        | .read _ => .read n
        | .write d => .write ((d.drop (o - offset)).take n),
      issuedAt := 0, answered := false, lost := false }
  let l := (blockCuts offset (accessBytes a)).zipIdx.map (fun x => piece x.1.1 x.1.2 x.2)
  pumpCxl { s with cxlReqs := s.cxlReqs ++ l, cxlXid := w + l.length } p l.length

/-- CXL_REQUEST: an access is split into transactions of one block each. -/
def execCxlRequest (p : CxlId) (who : Block) (tag : Tag) (cls : SvcClass) (offset : Nat) (a : Access) (s : State) :
    Host.Outcome State Fault Refusal :=
  let r := rowReq who tag cls
  let ga := slowBase + slowWindow * p.val + offset
  let n := accessBytes a
  .next (
    if expanderBytes s p < offset + n then respond who (raiseAtRequester s r Cause.ADDRESS, .aborted, [])
    else match rowWay s who ga n with
      | .waits => holdReq s s r ga a none .unit
      | .lost | .noAnswer => respond who (timedOut s r (serviceBound s r ga false), .aborted, [])
      | .free =>
        if isFenced s (.cxl p) then respond who (fencedAnswer s r (.cxl p), .aborted, [])
        else if !cxlUp s p then respond who (s, .aborted, [])
        else
          let j := judge s r [(.cxl p, 0)] false
          let s := arrive s r j
          if j.1 then respond who (s, .refused, [])
          else
            let (req, resp) := match a with
              | .read n => (0, n)
              | .write d => (d.length, 0)
            splitCxl (travel (noteServed s r [(.cxl p, 0)]) who ga req resp) p who tag cls offset a)

/-- A read answered by the expander (R358). -/
def cxlReadDone (s : State) (q : CxlReq) (poison : Bool) (data : List Byte) : State × Status × List Byte :=
  let n := accessBytes q.acc
  let r := rowReq q.who q.tag q.cls
  if poison then
    (expanderPoison { s with slowPoison := sinsert s.slowPoison (q.addr / 64 * 64) } r q.port q.addr, .poisoned, [])
  else
    let d := (padTo n data).take n
    (putBytes s q.addr d, .ok, d)

/-- A write completed by the expander. -/
def cxlWriteDone (s : State) (q : CxlReq) (d : List Byte) : State :=
  let s := putBytes s q.addr d
  if d.length = 64 then { s with slowPoison := sremove s.slowPoison q.addr } else s

/-- The expander answers an outstanding transaction. A response later than RESP_LIMIT after its request left the port is
counted (R367): by the device's time, which the operand `late` moves past the limit. -/
def expanderAnswer (s : State) (p : CxlId) (xid : Nat) (late poison : Bool) (devLoad : Fin 4) (data : List Byte) : State :=
  match s.cxlReqs.find? (fun q => q.port = p && q.xid = xid && q.issued && q.done.isNone) with
  | none => s
  | some q =>
    let b : Block := .cxl p
    let limit := q.issuedAt + rfield s b Reg.Cxl.RESP_LIMIT 19 0
    let s := { s with now := if late then max s.now (limit + 1) else s.now }
    let s := rput s b Reg.Cxl.DEVLOAD (wordOf devLoad.val)
    let s := if 2 ≤ devLoad.val then bump s b 9 1 else s
    let s := if limit < s.now then bump s b 7 1 else s
    let (s, st, d) := match q.acc with
      | .read _ => cxlReadDone s q poison data
      | .write d => (cxlWriteDone s q d, Status.ok, [])
    pumpCxl (doneCxl s q (st, d)) p 2

/-- Every outstanding and waiting request of a port is answered ABORTED. -/
def abortCxl (s : State) (p : CxlId) : State :=
  (s.cxlReqs.filter (fun q => q.port = p && q.done.isNone)).foldl (fun s q => doneCxl s q (.aborted, [])) s

/-- The link of a CXL port is down: STATUS, capacity and requests (R359). -/
def cxlDown (s : State) (p : CxlId) : State :=
  let b : Block := .cxl p
  abortCxl (rputBit s b Reg.Cxl.LINK_STATUS 31 false) p

/-- A link that is up goes down: cause LINK_DOWN and its record (R359). -/
def cxlLost (s : State) (p : CxlId) : State :=
  let b : Block := .cxl p
  if !cxlUp s p then s else sendRecord (bump (raise (cxlDown s p) b 8) b 8 1) b 8 Occur.none none

/-- Bring a CXL port up with what its training and its expander turned out to be (R356, R360). -/
def trainCxl (s : State) (p : CxlId) (t : LinkTrain) (capacity : Nat) (expId : Word) : State :=
  let b : Block := .cxl p
  let s := cxlDown s p
  let ok := t.linked && t.good && ([4, 8, 16].contains t.width) && 4 ≤ t.speed && t.speed ≤ 6
  let s := rputBit (rput (rput s b Reg.Cxl.LINK_STATUS 0) b Reg.Cxl.EXP_CAPACITY 0) b Reg.Hdr.STATUS 5 false
  let s := rput s b Reg.Cxl.PORT_CTRL 0
  if !ok then (if t.linked then raise s b 12 else s)
  else
    let s := rput s b Reg.Cxl.LINK_STATUS (wordOf (2 ^ 31 + t.width * 2 ^ 16 + t.speed))
    let s := rput (rput s b Reg.Cxl.EXP_CAPACITY (wordOf (min capacity 8192))) b Reg.Cxl.EXP_ID expId
    if t.width < 16 || t.speed < 6 then rputBit (raise s b 11) b Reg.Hdr.STATUS 5 true else s

/-- May a port train: at start-up, with its link never up since device reset, or after a write of PORT_CTRL.RETRAIN (R356,
R359)? The ports start once the device is READY (R478). -/
def mayTrain (s : State) (p : CxlId) : Bool :=
  let b : Block := .cxl p
  isReady s && (rbit s b Reg.Cxl.PORT_CTRL 0 ||
    (!cxlUp s p && ctr s b 8 = 0 && rget s b Reg.Cxl.EXP_CAPACITY = 0 && rget s b Reg.Cxl.EXP_ID = 0))

/-- EXP_EVENT: the steward reads an event record of an expander. -/
def execExpEvent (p : CxlId) (s : State) : Host.Outcome State Fault Refusal := .next (raise s (.cxl p) 10)

/-! ### The service-class window -/

/-- Does a block's page carry the window of R368? -/
def hasSvc : Block → Bool
  | .larder _ | .hbm _ | .adder _ | .cxl _ | .naulo _ => true
  | _ => false

/-- SVC_CLEAR: the counts and worst-case times of a destination are cleared. -/
def clearSvc (s : State) (b : Block) : State :=
  if hasSvc b then
    [Reg.Svc.DELAYED_COUNT, Reg.Svc.REFUSED_COUNT, Reg.Svc.LAST_REFUSED, Reg.Svc.LAST_REFUSED_NODE, Reg.Svc.LAST_DELAYED,
      Reg.Svc.LAST_DELAYED_NODE, Reg.Svc.WORST_CRIT_NS, Reg.Svc.WORST_BULK_NS].foldl (fun s o => rput s b o 0) s
  else s

/-- SVC_CLEAR. -/
def execSvcClear (b : Block) (s : State) : Host.Outcome State Fault Refusal := .next (clearSvc s b)

end Sys2Proof.Machine
end

