-- ==== Sys2Proof/Machine/Relay.lean ====
section
/-!
DEFINITION. The collectives of a relay engine, kinds 0–7 (R397–R411), and the segments that carry them (R414, R415).
-/
namespace Sys2Proof.Machine

/-! ### Elements in order -/

/-- Runs of elements `e0 … e0 + n − 1` of a tensor, row by row: row, first column, number. -/
def flatRuns (d : Desc) : Nat → Nat → Nat → List (Nat × Nat × Nat)
  | 0, _, _ => []
  | fuel + 1, e0, n =>
    if n = 0 then []
    else
      let w := max 1 d.last
      let k := min n (w - e0 % w)
      (e0 / w, e0 % w, k) :: flatRuns d fuel (e0 + k) (n - k)

/-- All runs of a range. -/
def runsOfRange (d : Desc) (e0 n : Nat) : List (Nat × Nat × Nat) := flatRuns d (n + 1) e0 n

/-- Read element codes `e0 … e0 + n − 1`. -/
def readFlat (r : Req) (d : Desc) (e0 n : Nat) : Run (List Nat) :=
  (runsOfRange d e0 n).foldlM (fun acc (row, j, k) => do return acc ++ (← readCodes r d row j k)) []

/-- Write element codes from element `e0` on. -/
def writeFlat (r : Req) (d : Desc) (e0 : Nat) (codes : List Nat) : Run Unit :=
  (runsOfRange d e0 codes.length).forM (fun (row, j, k) =>
    writeCodes r d row j ((codes.drop (row * max 1 d.last + j - e0)).take k))

/-- The code of R351 of an element format that the memory-side adders take. -/
def addCode (fmt : Nat) : Option Nat :=
  match fmt with
  | 0x7 => some 0
  | 0x5 => some 1
  | 0xE => some 2
  | _ => none

/-- Add bytes at a global address, by requests that cross no 512-byte boundary (R351): in this device's HBM, or as ADD
packets to another device, whose answer is free. -/
def addRequests (e : RelayId) (r : Req) (code : Nat) : List (Nat × Nat) → List Byte → State → State × Status
  | [], _, s => (s, .ok)
  | (a, n) :: t, data, s =>
    let s := bump s (.relay e) 20 1
    let (s, st) := match targetOf s a with
      | .here l => memoryAdd s r l code (data.take n)
      | .bad => (raiseAtRequester s r Cause.ADDRESS, Status.aborted)
      | .remote _ _ => remoteRequest s r a n 0x03 (code * 4096) 0 (data.take n)
    let (s, st') := addRequests e r code t (data.drop n) s
    (s, worse st st')

/-- Add element codes to a tensor from element `e0` on, in increasing element order. -/
def addFlat (e : RelayId) (r : Req) (d : Desc) (e0 : Nat) (codes : List Nat) : Run Unit :=
  (runsOfRange d e0 codes.length).forM (fun (row, j, k) =>
    let a := d.rowAddr row + j * d.bits / 8
    let data := ((codes.drop (row * max 1 d.last + j - e0)).take k).flatMap (leBytes (d.bits / 8))
    need (addRequests e r ((addCode d.fmt).getD 0) (requestCuts a data.length) data))

/-- The bytes of element codes. -/
def codeBytes (fmt : Nat) (codes : List Nat) : List Byte :=
  pack (elemBits fmt) 0 0 (List.replicate (cdiv (codes.length * elemBits fmt) 8) 0) codes

/-- The element codes of bytes. -/
def byteCodes (fmt n : Nat) (l : List Byte) : List Nat := unpack (elemBits fmt) 0 0 n l

/-! ### The running collective -/

/-- The descriptor of a role: 0 SRC, 1 DST, 2 AUX, 3 AUX2. -/
def CollRun.desc (c : CollRun) (k : Nat) : Desc := descOf (c.descs.getD k [])

/-- Is a descriptor named for a role? -/
def CollRun.has (c : CollRun) (k : Nat) : Bool := c.descs.getD k [] ≠ []

/-- This device's place in the group. -/
def CollRun.group_ (c : CollRun) : GroupEntry := groupEntry c.entry

/-- The device of a rank. -/
def CollRun.device (c : CollRun) (r : Nat) : DeviceId := Fin.ofNat 32768 (c.members.getD r 0)

/-- The format of the partials of a reduction: DST's; without a DST, that of SRC (assumption 43). -/
def CollRun.partFmt (c : CollRun) : Nat := if c.kind.val = 0 then (c.desc 0).fmt else (c.desc 1).fmt

/-- Elements of a shard of REDUCE_SCATTER. -/
def CollRun.shard (c : CollRun) : Nat := max 1 ((c.desc 0).count / max 1 c.group_.size)

/-- Blocks of PERMUTE, of `blk` bytes. -/
def CollRun.blocks (c : CollRun) (blk : Nat) : Nat := (c.desc 0).count / max 1 blk

/-- The total element count that the segments of the command carry. -/
def CollRun.total (c : CollRun) : Nat :=
  match c.kind.val with
  | 3 | 5 => (c.desc 1).count
  | 4 => (c.desc 1).count
  | _ => (c.desc 0).count

/-- Elements of a segment of at most 512 bytes, which they fill to a whole byte: of FP6, four to three bytes. -/
def segElems (fmt : Nat) : Nat := if elemBits fmt = 6 then 680 else 4096 / elemBits fmt

/-- The elements of the chunk that begins at element `e0` of a reduction: at most a segment, and for REDUCE_SCATTER of
one shard. -/
def CollRun.chunk (c : CollRun) (e0 : Nat) : Nat :=
  let n := min (segElems c.partFmt) ((c.desc 0).count - e0)
  if c.kind.val = 2 then min n (c.shard - e0 % c.shard) else n

/-- The request of a relay engine's command. -/
def relayReq (e : RelayId) (x : Slot) : Req := cmdReq (.relay e) x.words

/-! ### Validation (R402) -/

/-- Formats of a reduction's operand: floating, or INT32. -/
def reduceFmt (f : Nat) : Bool := f = 0x5 || f = 0x7 || f = 0xD || f = 0xE

/-- Does a range of a descriptor, shifted, lie in one region of the engine's allocation table (R402)? -/
def shiftedFits (s : State) (f : FrontId) (d : Desc) (shift : Nat) : Bool :=
  let (lo, hi) := d.range
  (List.range 128).any (fun i => let a := getAlloc s f i; a.valid && a.holds (lo + shift, hi + shift))

/-- Which descriptors a kind needs and which it may not name: SRC, DST, AUX, AUX2; none: either. -/
def rolesOf (kind : Nat) (root : Bool) : List (Option Bool) :=
  match kind with
  | 0 => [some true, some root, some false, some false]
  | 1 | 2 | 3 | 7 => [some true, some true, some false, some false]
  | 4 => [some root, some true, some false, some false]
  | 5 => [some true, some true, some true, some true]
  | _ => [some true, some false, some true, none]

/-- Does a tensor lie in HBM of this device, or, where allowed, in the larder? -/
def tensorIn (s : State) (d : Desc) (larder : Bool) : Bool :=
  let (lo, hi) := d.range
  let base : Int := (nodeId s).val * 2 ^ 48
  let inside (a n : Int) : Bool := base + a ≤ lo && hi < base + a + n
  inside 0 hbmSize || (larder && (inside larderBase (8 * larderDieSize) || inside 0x018000000000 0x800000000))

/-- Do the rows of a tensor, and blocks of `e` elements in it, fill whole bytes? -/
def wholeBytes (d : Desc) (e : Nat) : Bool := e * d.bits % 8 = 0 && (d.rank = 1 || d.last * d.bits % 8 = 0)

/-- Is SRC exactly block `rank` of DST (R407): the same rows at the same addresses? -/
def ownBlock (src dst : Desc) (rank : Nat) : Bool :=
  let n := src.count
  (runsOfRange src 0 n).all (fun (row, j, k) =>
    let e := row * max 1 src.last + j
    let w := max 1 dst.last
    let at_ := rank * n + e
    src.rowAddr row + j * src.bits / 8 = dst.rowAddr (at_ / w) + at_ % w * dst.bits / 8 && at_ % w + k ≤ w)

/-- The extents that a kind asks for (R404, R407–R410). -/
def collShape (c : CollRun) (ws : List Word) : Bool :=
  let g := c.group_
  let src := c.desc 0
  let dst := c.desc 1
  match c.kind.val with
  | 0 => !c.has 1 || dst.count = src.count
  | 1 => dst.count = src.count
  | 2 => src.count % g.size = 0 && dst.count = src.count / g.size
  | 3 => dst.count = g.size * src.count && wholeBytes src src.count && wholeBytes dst src.count
  | 4 => !c.has 0 || dst.count = src.count
  | 5 =>
    let cap := (wordAt ws 11).toNat
    src.rank = 2 && dst.rank = 2 && dst.exts = [g.size * cap, src.last] && (c.desc 2).count = g.size &&
    (c.desc 3).count = g.size
  | 6 =>
    let blk := (wordAt ws 11).toNat
    src.rank = 1 && blk ≠ 0 && blk % 64 = 0 && src.count % blk = 0 && (c.desc 2).rank = 1 &&
    (c.desc 2).count = 2 * (src.count / blk)
  | _ => dst.fmt = src.fmt && dst.exts = src.exts

/-- The formats, ranges and overlaps that a kind forbids. -/
def collOperands (s : State) (e : RelayId) (c : CollRun) (ws : List Word) : Bool :=
  let f : FrontId := .relay e
  let src := c.desc 0
  let dst := c.desc 1
  let k := c.kind.val
  let accum := cb ws 2 14
  let overlap (i : Nat) : Bool := c.has 1 && c.has i && Desc.meets dst (c.desc i)
  let reduces := k ≤ 2
  (reduces && (!reduceFmt src.fmt || (c.has 1 && (!reduceFmt dst.fmt || (dst.fmt = 0xE) ≠ (src.fmt = 0xE))))) ||
  (reduces && (128 < cf ws 6 7 0 || (List.range (cf ws 6 7 0)).any (fun i =>
    i ≠ 0 && !shiftedFits s f src (i * (wordAt ws 7).toNat)))) ||
  (accum && (reduces || k = 7) && c.has 1 && ((addCode dst.fmt).isNone || (k = 7 && dst.fmt ≠ src.fmt))) ||
  (accum && reduces && c.has 1 && !tensorIn s dst false) ||
  (accum && k = 7 && !((dst.range.1 % 2 ^ 48) ≤ dst.range.2 % 2 ^ 48 && dst.range.2 % 2 ^ 48 < hbmSize)) ||
  ((k = 3 || k = 4 || k = 5) && c.has 0 && src.fmt ≠ dst.fmt) ||
  (k = 5 && ((c.desc 2).fmt ≠ 0xE || (c.desc 3).fmt ≠ 0xE)) ||
  (k = 6 && (src.fmt ≠ 0 || (c.desc 2).fmt ≠ 0xE || (c.has 3 && !tensorIn s (c.desc 3) true))) ||
  (overlap 0 && !(k = 3 && ownBlock src dst c.group_.rank)) || overlap 2 || overlap 3

/-- Load a descriptor of a role; none for index 0. -/
def loadRole (e : RelayId) (ws : List Word) (i : Nat) : Run (List Word) := do
  if i = 0 then return [] else return (← loadDesc (.relay e) ws i 0).d.words

/-- Read and validate a command of kinds 0–7 at its start. -/
def loadColl (e : RelayId) (x : Slot) : Run CollRun := do
  let ws := x.words
  let f : FrontId := .relay e
  let (entry, members) ← loadGroup e ws
  let kind := cf ws 2 3 0
  let idx := [cf ws 4 15 0, cf ws 4 31 16, cf ws 5 15 0, cf ws 5 31 16]
  let roles := rolesOf kind (groupEntry entry).root
  if (idx.zip roles).any (fun (i, r) => r = some (decide (i = 0))) then engineDefect f ws 13
  let descs ← idx.mapM (loadRole e ws)
  let now ← look (·.now)
  let c : CollRun :=
    { slot := x.id, group := Fin.ofNat 256 (cf ws 2 11 4), kind := Fin.ofNat 16 kind, seqId := (wordAt ws 3).toNat,
      entry := entry, members := members, descs := descs, lastSeg := now, unsent := [], parts := [], next := 0,
      got := 0, seen := [], unread := [], scratch := [], status := .ok, nf := false, sum := (0, false) }
  let dest := c.desc (if kind = 6 then 0 else 1)
  if (kind = 6 || c.has 1) && dest.overlap then engineDefect f ws 13
  if ← look (collOperands · e c ws) then engineDefect f ws 13
  if !collShape c ws then engineDefect f ws 12
  return c

/-! ### Sending (R414) -/

/-- Segments of an engine that are not acknowledged. -/
def sentBy (s : State) (e : RelayId) : List SentSeg := s.sentSegs.filter (fun x => x.engine = e)

/-- The virtual channel of a class's segments (R400). -/
def segVc : SvcClass → Fin 8
  | .critical => 6
  | _ => 7

/-- Words 8–15 of a segment's header unit (R383). -/
def segWords (g : Segment) : List Word :=
  [wordOf (g.group.val + g.kind.val * 256), wordOf g.seqId] ++ words64 g.offset ++ words64 g.total ++ [wordOf g.rank]

/-- The device's next transaction number. -/
def nextXid (s : State) : State := { s with xid := (s.xid + 1) % 2 ^ 32 }

/-- Send a segment, or send it again: `.aborted` where no port is up for it, `.delayed` where its way to the port is paused.
At a stopped path it is lost (R441). -/
def sendSegment (s : State) (e : RelayId) (q : SentSeg) : State × Status :=
  let h : PacketHead :=
    { cls := q.cls, tag := 0, dst := q.dst, src := nodeId s, unit := Block.unit (.relay e), xid := q.xid, addr := q.seg.addr,
      bytes := q.seg.data.length }
  let w6 := if q.seg.poisoned then Status.code .poisoned * 65536 else 0
  let sent (s : State) : State := bump (bump s (.relay e) 14 1) (.relay e) 16 q.seg.data.length
  match portWay s (reqOf (.relay e) q.cls) q.dst with
  | .waits => (s, .delayed)
  | .lost => (sent s, .ok)
  | _ =>
    match sendPacket s 0x20 (segVc q.cls) h w6 0 (segWords q.seg) q.seg.data with
    | (s, none) => (s, .aborted)
    | (s, some p) => (passFlits (sent s) (dieOf s (.relay e)) (nauloDie p) (packetFlits q.seg.data.length), .ok)

/-- A read of a command, with none where it is answered POISONED (R415). -/
def orPoison {α : Type} (x : Run α) : Run (Option α) :=
  tryCatch (do return some (← x)) (fun st => match st with
    | .poisoned => return none
    | st => throw st)

/-- The data of a segment that is about to leave: read now, or carried along; none where they are poisoned. -/
def segData (r : Req) (o : OutSeg) : Run (Option (List Byte)) :=
  match o.src with
  | some (a, n) => if o.poisoned then return none else orPoison (needData (fun s => gRead s r a n))
  | none => return if o.poisoned then none else some o.data

/-- A status joins those that a collective has gathered. -/
def CollRun.note (c : CollRun) (st : Status) : CollRun := { c with status := worse c.status st }

/-- Bytes of the scratch in use. -/
def scratchUse (c : CollRun) (blk : Nat) : Nat :=
  let l := c.scratch.map (fun x => x.2.2 / max 1 blk)
  blk * (l.eraseDups).length

/-- A PERMUTE piece goes to its place in SRC (R410). -/
def placePiece (r : Req) (c : CollRun) (off : Nat) (data : List Byte) : Run CollRun := do
  need (fun s => gWrite s r ((c.desc 0).rowAddr 0 + off) data)
  return { c with got := c.got + data.length }

/-- The first place of the scratch that no waiting block takes. -/
def scratchSlot (c : CollRun) (blk j n : Nat) : Option Nat :=
  match c.scratch.find? (fun x => x.1 / max 1 blk = j) with
  | some x => some (x.2.2 / max 1 blk)
  | none => (List.range n).find? (fun k => c.scratch.all (fun x => x.2.2 / max 1 blk ≠ k))

/-- An incoming PERMUTE piece (R410): dropped, kept in the scratch, or written. -/
def takePiece (e : RelayId) (x : Slot) (c : CollRun) (off : Nat) (poisoned : Bool) (data : List Byte) : Run CollRun := do
  let ws := x.words
  let r := relayReq e x
  let blk := max 1 (wordAt ws 11).toNat
  let n := c.blocks blk
  let drop : Run CollRun := do
    act (fun s => raiseTag s (.relay e) 19 (cmdTag ws) 0x50)
    return c.note .defect
  if n ≤ off / blk || c.seen.contains off then drop
  else
    let c := { c with seen := c.seen ++ [off] }
    if poisoned then return { (c.note .poisoned) with got := c.got + data.length }
    else if c.unread.contains (off / blk) then
      -- the scratch has a place for every BLOCK bytes of AUX2
      match scratchSlot c blk (off / blk) ((c.desc 3).count * (c.desc 3).bits / 8 / blk) with
      | none => drop
      | some k =>
        let at_ := k * blk + off % blk
        need (fun s => gWrite s r ((c.desc 3).rowAddr 0 + at_) data)
        let c := { c with scratch := c.scratch ++ [(off, data.length, at_)] }
        act (fun s => rput s (.relay e) Reg.Rel.SCRATCH_PEAK
          (wordOf (max (rget s (.relay e) Reg.Rel.SCRATCH_PEAK).toNat (scratchUse c blk))))
        return c
    else placePiece r c off data

/-- Block `i` of PERMUTE has been read: what waits for its place is written (R410). -/
def blockRead (e : RelayId) (x : Slot) (c : CollRun) (i : Nat) : Run CollRun := do
  let r := relayReq e x
  let blk := max 1 (wordAt x.words 11).toNat
  let c := { c with unread := c.unread.filter (· ≠ i) }
  let mine := c.scratch.filter (fun p => p.1 / blk = i)
  let c := { c with scratch := c.scratch.filter (fun p => p.1 / blk ≠ i) }
  mine.foldlM (fun c (off, n, at_) => do
    let l ← needData (fun s => gRead s r ((c.desc 3).rowAddr 0 + at_) n)
    placePiece r c off l) c

/-- The header part of the segments of a command. -/
def CollRun.segment (c : CollRun) (s : State) (o : OutSeg) (data : Option (List Byte)) : Segment :=
  { group := c.group, kind := c.kind, seqId := c.seqId, offset := o.offset, total := c.total, rank := c.group_.rank,
    addr := o.addr, src := nodeId s, poisoned := data.isNone,
    data := data.getD (List.replicate (match o.src with | some (_, n) => n | none => o.data.length) 0) }

/-- Send what may be sent: at most 256 segments of an engine are outstanding (R414). -/
def pumpColl (e : RelayId) (x : Slot) : Nat → CollRun → Run CollRun
  | 0, c => pure c
  | fuel + 1, c => do
    match c.unsent with
    | [] => return c
    | o :: rest =>
      if 256 ≤ (← look (fun s => (sentBy s e).length)) then return c
      let c := { c with unsent := rest }
      let data ← segData (relayReq e x) o
      let c := if data.isNone && o.src.isSome then c.note .poisoned else c
      let g ← look (fun s => c.segment s o data)
      let c ← match o.block with
        | some i => blockRead e x c i
        | none => pure c
      if o.dst = g.src then pumpColl e x fuel (← takePiece e x c o.offset g.poisoned g.data)
      else
        let q : SentSeg :=
          { xid := (← look (·.xid)), engine := e, dst := o.dst, cls := cmdSvc x.words, seg := g, busy := none }
        need (fun s => sendSegment (nextXid s) e q)
        act (fun s => { s with sentSegs := s.sentSegs ++ [q] })
        pumpColl e x fuel { c with lastSeg := (← look (·.now)) }

/-! ### Reductions (R403–R406) -/

/-- A result for DST: written or added (R404), unless it is poisoned; with its square sum and its NF_REPORT. -/
def placeResult (e : RelayId) (x : Slot) (c : CollRun) (e0 : Nat) (poisoned : Bool) (codes : List Nat) :
    Run CollRun := do
  if poisoned then return c.note .poisoned
  else
    let ws := x.words
    let dst := c.desc 1
    if cb ws 2 14 then addFlat e (relayReq e x) dst e0 codes else writeFlat (relayReq e x) dst e0 codes
    let vals := codes.map (fun k => if dst.fmt = 0xD then f32 (wordOf k) else decodeElem dst.fmt k)
    let root := c.group_.root || c.kind.val = 2
    return { c with nf := c.nf || vals.any (·.nonfinite), sum := if root then addSquares c.sum vals else c.sum }

/-- The devices that a result of the given offset goes down to: every child, or the one whose subtree holds its rank
(R404). -/
def downTo (c : CollRun) (e0 : Nat) : List DeviceId :=
  let kids := c.group_.kids
  if c.kind.val = 2 then
    let r := e0 / c.shard
    if r = c.group_.rank then []
    else
      match kids.find? (fun d => d = c.device r) with
      | some d => [d]
      | none => match Config.shardChild c.group.val r with
        | 0 => []
        | k + 1 => (kids[k]?).toList
  else kids

/-- Segments of the same data for several devices. -/
def outTo (l : List DeviceId) (off addr : Nat) (poisoned : Bool) (data : List Byte) : List OutSeg :=
  l.map (fun d => { dst := d, offset := off, addr := addr, poisoned := poisoned, src := none, data := data, block := none })

/-- A result chunk has been formed at the root or has come down: it is placed and sent on. -/
def spread (e : RelayId) (x : Slot) (c : CollRun) (e0 n : Nat) (poisoned : Bool) (codes : List Nat) : Run CollRun := do
  let out := if c.kind.val = 0 then [] else outTo (downTo c e0) e0 0 poisoned (codeBytes (c.desc 1).fmt codes)
  let c := { c with unsent := c.unsent ++ out, got := c.got + n }
  if c.kind.val = 2 then
    if e0 / c.shard = c.group_.rank then placeResult e x c (e0 % c.shard) poisoned codes
    else return if poisoned then c.note .poisoned else c
  else placeResult e x c e0 poisoned codes

/-- The exact sum of integers, modulo 2^32 as a code, and whether it left the range (R403). -/
def intSum (l : List Nat) : Nat × Bool :=
  let v := l.foldl (fun a k => a + signed 32 k) (0 : Int)
  ((v % 2 ^ 32).toNat, decide (v < -(2 ^ 31) ∨ 2 ^ 31 ≤ v))

/-- The code of an exact floating sum, rounded once into a format (R403). -/
def sumCode (fmt : Nat) (l : List Val) : Nat :=
  let v := (l.foldl LongSum.add LongSum.zero).val
  if fmt = 0x5 then (bf16.convert .nearest false v).1 else totalCode fmt v

/-- The value of a code as contributions, a paired one as both of its parts. -/
def contribution (fmt k : Nat) : List Val :=
  if fmt = 0xD then [f32 (wordOf k), f32 (wordOf (k / 2 ^ 32))] else [decodeElem fmt k]

/-- Read the local contributions to `n` elements from `e0`, one list of codes for each (R400 words 6 and 7). -/
def localParts (e : RelayId) (x : Slot) (c : CollRun) (e0 n : Nat) : Run (List (List Nat)) :=
  let ws := x.words
  let src := c.desc 0
  (List.range (max 1 (cf ws 6 7 0))).mapM (fun i =>
    readFlat (relayReq e x) { src with base := (src.base + i * (wordAt ws 7).toNat) % 2 ^ 64 } e0 n)

/-- Reduce one chunk at this node: local contributions and the children's partials, rounded once (R403). -/
def reduceChunk (e : RelayId) (x : Slot) (c : CollRun) (parts : List Segment) (n : Nat) : Run CollRun := do
  let e0 := c.next
  let mine ← orPoison (localParts e x c e0 n)
  let poisoned := mine.isNone || parts.any (·.poisoned)
  let sf := (c.desc 0).fmt
  let pf := c.partFmt
  let of := if c.group_.root then (if c.has 1 then (c.desc 1).fmt else pf) else pf
  let theirs := parts.map (fun p => byteCodes pf n p.data)
  let codes : List (Nat × Bool) := (List.range n).map (fun i =>
    let own := (mine.getD []).map (fun l => l.getD i 0)
    let kids := theirs.map (fun l => l.getD i 0)
    if sf = 0xE then intSum (own ++ kids)
    else (sumCode of (own.flatMap (contribution sf) ++ kids.flatMap (contribution pf)), false))
  if !poisoned && codes.any (·.2) then act (fun s => raiseTag s (.relay e) 20 (cmdTag x.words) 0x50)
  let c := { c with next := e0 + n }
  let out := codes.map (·.1)
  if c.group_.root then spread e x c e0 n poisoned out
  else
    let c := if poisoned then c.note .poisoned else c
    return { c with unsent := c.unsent ++ outTo [c.group_.parent] e0 0 poisoned (codeBytes pf out) }

/-- Reduce the chunks for which every child's partial has come. -/
def reduceLoop (e : RelayId) (x : Slot) : Nat → CollRun → Run CollRun
  | 0, c => pure c
  | fuel + 1, c => do
    let n := c.chunk c.next
    let parts := c.parts.filter (fun p => p.offset = c.next)
    if c.kind.val ≤ 2 && n ≠ 0 && c.group_.kids.all (fun d => parts.any (fun p => p.src = d)) then
      let c := { c with parts := c.parts.filter (fun p => p.offset ≠ c.next) }
      reduceLoop e x fuel (← reduceChunk e x c parts n)
    else return c

/-! ### What a command sends at its start -/

/-- The runs of a block of `n` elements of SRC from element `s0`, placed at element `d0` of DST, cut into segments: element
offset in the block, number of elements. -/
def blockRuns (src dst : Desc) (s0 d0 : Nat) : Nat → Nat → Nat → List (Nat × Nat)
  | 0, _, _ => []
  | fuel + 1, o, n =>
    if n = 0 then []
    else
      let ws := max 1 src.last
      let wd := max 1 dst.last
      let k := min (min n (segElems src.fmt)) (min (ws - (s0 + o) % ws) (wd - (d0 + o) % wd))
      (o, k) :: blockRuns src dst s0 d0 fuel (o + k) (n - k)

/-- Address of element `e` of a tensor whose rows fill whole bytes. -/
def elemAddr (d : Desc) (e : Nat) : Nat := d.rowAddr (e / max 1 d.last) + e % max 1 d.last * d.bits / 8

/-- The segments that carry `n` elements of SRC from `s0` to element `d0` of DST on some devices. -/
def sendBlock (src dst : Desc) (devs : List DeviceId) (s0 d0 n : Nat) : List OutSeg :=
  (blockRuns src dst s0 d0 (n + 1) 0 n).flatMap (fun (o, k) =>
    let a := elemAddr dst (d0 + o) % 2 ^ 48
    let from_ : Nat × Nat := (elemAddr src (s0 + o), cdiv (k * src.bits) 8)
    devs.map (fun d => OutSeg.mk d (d0 + o) a false (some from_) [] none))

/-- Copy `n` elements of SRC from `s0` to element `d0` of this device's DST; a poisoned piece is not written. What follows
them in the last byte of a row of DST stays as it is (R160). -/
def copyBlock (e : RelayId) (x : Slot) (c : CollRun) (s0 d0 n : Nat) : Run CollRun :=
  let src := c.desc 0
  let dst := c.desc 1
  let r := relayReq e x
  (blockRuns src dst s0 d0 (n + 1) 0 n).foldlM (fun c (o, k) => do
    match ← orPoison (readFlat r src (s0 + o) k) with
    | none => return c.note .poisoned
    | some codes =>
      writeFlat r dst (d0 + o) codes
      return c) c

/-- ALL_GATHER's sends and its own copy (R407). -/
def startGather (e : RelayId) (x : Slot) (c : CollRun) : Run CollRun := do
  let g := c.group_
  let src := c.desc 0
  let dst := c.desc 1
  let n := src.count
  let out := (List.range (g.size - 1)).flatMap (fun k =>
    sendBlock src dst [c.device ((g.rank + 1 + k) % g.size)] 0 (g.rank * n) n)
  let c := { c with unsent := out }
  if ownBlock src dst g.rank then return c else copyBlock e x c 0 (g.rank * n) n

/-- BROADCAST at the root (R408): every segment's data go to each child and to DST. -/
def startBroadcast (e : RelayId) (x : Slot) (c : CollRun) : Run CollRun := do
  if c.group_.root then
    let src := c.desc 0
    let n := src.count
    let c := { c with unsent := sendBlock src (c.desc 1) c.group_.kids 0 0 n, got := n }
    copyBlock e x c 0 0 n
  else return c

/-- The words of an INT32 tensor. -/
def readInts (r : Req) (d : Desc) : Run (List Int) := do
  return (← readFlat r d 0 d.count).map (signed 32)

/-- ALL_TO_ALL's sends (R409). -/
def startAllToAll (e : RelayId) (x : Slot) (c : CollRun) : Run CollRun := do
  let ws := x.words
  let f : FrontId := .relay e
  let r := relayReq e x
  let g := c.group_
  let src := c.desc 0
  let dst := c.desc 1
  let w := src.last
  let cap := (wordAt ws 11).toNat
  let counts ← readInts r (c.desc 2)
  if counts.any (· < 0) then engineDefect f ws 13
  let cs := counts.map (·.toNat)
  if src.rows < cs.foldl (· + ·) 0 then engineDefect f ws 12
  let dropped := (cs.map (· - cap)).foldl (· + ·) 0
  let c ← cs.zipIdx.foldlM (fun c (k, i) => do
    let first := (cs.take i).foldl (· + ·) 0
    let n := min k cap
    let a := elemAddr (c.desc 3) g.rank
    if i = g.rank then
      let c ← copyBlock e x c (first * w) (g.rank * cap * w) (n * w)
      need (fun s => gWrite s r a (leBytes 4 n))
      return c
    else
      let count : OutSeg :=
        { dst := c.device i, offset := g.rank, addr := a % 2 ^ 48, poisoned := false, src := none, data := leBytes 4 n,
          block := none }
      return { c with unsent := c.unsent ++ sendBlock src dst [c.device i] (first * w) (g.rank * cap * w) (n * w) ++
                                [count] }) c
  if dropped = 0 then return c
  else
    act (fun s => rput s (.relay e) Reg.Rel.DROPPED_ROWS
      (wordOf (sat 32 ((rget s (.relay e) Reg.Rel.DROPPED_ROWS).toNat + dropped))))
    act (fun s => raiseTag s (.relay e) 18 (cmdTag ws) 0x50)
    return if cb ws 2 15 then c.note .defect else c

/-- PERMUTE's outgoing blocks (R410). -/
def startPermute (e : RelayId) (x : Slot) (c : CollRun) : Run CollRun := do
  let ws := x.words
  let f : FrontId := .relay e
  let g := c.group_
  let src := c.desc 0
  let blk := (wordAt ws 11).toNat
  let plan ← readInts (relayReq e x) (c.desc 2)
  let moves : List (Nat × Int × Int) := (List.range (c.blocks blk)).map (fun i =>
    (i, plan.getD (2 * i) (-1), plan.getD (2 * i + 1) 0))
  if moves.any (fun (_, r, _) => r < -1 || (g.size : Int) ≤ r) then engineDefect f ws 13
  let out := moves.filter (fun (i, r, j) => r ≠ -1 && !(r = g.rank && j = i))
  let room := blk * min out.length (wordAt ws 12).toNat
  if room ≠ 0 && !c.has 3 then engineDefect f ws 13
  if room ≠ 0 && (c.desc 3).count * (c.desc 3).bits / 8 < room then engineDefect f ws 12
  let segs := out.flatMap (fun (i, r, j) =>
    (List.range (cdiv blk 512)).map (fun k =>
      let n := min 512 (blk - 512 * k)
      let off := ((j * blk) % 2 ^ 64).toNat + 512 * k
      { dst := c.device r.toNat, offset := off, addr := (src.rowAddr 0 + off) % 2 ^ 48, poisoned := false,
        src := some (src.rowAddr 0 + i * blk + 512 * k, n), data := [],
        block := if 512 * (k + 1) < blk then none else some i : OutSeg }))
  return { c with unsent := segs, unread := out.map (·.1) }

/-- MOVE's part before its segments leave (R411): SRC is copied row by row, or added, to DST on this device; rows of DST on
another device travel as segments (R414), but for adds, which go as requests of R351. -/
def startMove (e : RelayId) (x : Slot) (c : CollRun) : Run CollRun := do
  let src := c.desc 0
  let dst := c.desc 1
  let r := relayReq e x
  (List.range dst.rows).foldlM (fun c row => do
    let a := dst.rowAddr row
    match ← look (fun s => targetOf s a), cb x.words 2 14 with
    | .remote dev _, false =>
      let out := sendBlock src dst [Fin.ofNat 32768 dev] (row * max 1 src.last) (row * max 1 dst.last) dst.last
      return { c with unsent := c.unsent ++ out }
    | _, accum =>
      let codes ← readCodes r src row 0 src.last
      if accum then addFlat e r dst (row * dst.last) codes else writeCodes r dst row 0 codes
      return c) c

/-- What a command does before any segment of another device. -/
def beginColl (e : RelayId) (x : Slot) (c : CollRun) : Run CollRun :=
  match c.kind.val with
  | 3 => startGather e x c
  | 4 => startBroadcast e x c
  | 5 => startAllToAll e x c
  | 6 => startPermute e x c
  | 7 => startMove e x c
  | _ => pure c

/-! ### Segments that arrive -/

/-- Does a segment agree with the command (R415): kind, total, and the sender's place in the tree or the group? -/
def segAgrees (c : CollRun) (g : Segment) : Bool :=
  let ge := c.group_
  let child := ge.kids.contains g.src
  let parent := !ge.root && ge.parent = g.src
  g.kind = c.kind && g.total = c.total && c.device g.rank = g.src && g.rank < ge.size &&
  (match c.kind.val with
   | 0 => child
   | 1 | 2 => child || parent
   | 4 => parent
   | _ => true)

/-- Elements of a format in a number of bytes. -/
def elemsIn (fmt bytes : Nat) : Nat := bytes * 8 / elemBits fmt

/-- What the write of a segment's data at its arrival was answered is noted; ABORTED and BANK_OFF stop the command (R415). -/
def takeWritten (c : CollRun) (st : Status) : Run CollRun :=
  match st with
  | .aborted | .bankOff => stop st
  | st => return c.note st

/-- A segment is taken into the command that runs; `bytes` and `st` tell of data written at its arrival. -/
def takeSegment (e : RelayId) (x : Slot) (c : CollRun) (g : Segment) (bytes : Nat) (st : Status) : Run CollRun := do
  if !segAgrees c g then
    act (fun s => groupMismatch s e g.src (Occur.of (cmdTag x.words) 0x50))
    return c.note .defect
  else
    let dst := c.desc 1
    match c.kind.val with
    | 3 => takeWritten { c with got := c.got + elemsIn dst.fmt bytes } st
    | 5 => takeWritten c st
    | 6 => takePiece e x c g.offset g.poisoned g.data
    | 4 =>
      let n := elemsIn dst.fmt bytes
      let c := { c with unsent := c.unsent ++ outTo c.group_.kids g.offset g.addr g.poisoned g.data, got := c.got + n }
      if g.poisoned then return c.note .poisoned
      else
        writeFlat (relayReq e x) dst g.offset (byteCodes dst.fmt n g.data)
        return c
    | _ =>
      if c.group_.kids.contains g.src then return { c with parts := c.parts ++ [g] }
      else
        let n := elemsIn dst.fmt bytes
        spread e x c g.offset n g.poisoned (byteCodes dst.fmt n g.data)

/-! ### Progress and completion -/

/-- Elements that must have come down to a member of REDUCE_SCATTER: its own shard and those of its subtree. -/
def shardsDue (c : CollRun) : Nat :=
  let ranks := (List.range c.group_.size).filter (fun r => r = c.group_.rank || downTo c (r * c.shard) ≠ [])
  c.shard * ranks.length

/-- Has the command received and written all that it must? -/
def collReady (c : CollRun) (ws : List Word) : Bool :=
  let g := c.group_
  let e := (c.desc 0).count
  match c.kind.val with
  | 0 => c.next = e
  | 1 => c.next = e && (g.root || e ≤ c.got)
  | 2 => c.next = e && (g.root || shardsDue c ≤ c.got)
  | 3 => (g.size - 1) * e ≤ c.got
  | 4 => (c.desc 1).count ≤ c.got
  | 6 => (wordAt ws 12).toNat * (wordAt ws 11).toNat ≤ c.got && c.scratch = []
  | _ => true

/-- Post +1 to NOTIFY on every member, this one included (R409). -/
def postNotify (e : RelayId) (x : Slot) (c : CollRun) : Run Unit := do
  let a := cf64 x.words 9 % 2 ^ 48
  if a = 0 then return ()
  let f : FrontId := .relay e
  c.members.forM (fun d => do
    let here ← look (fun s => (nodeId s).val)
    match ← look (fun s => semTarget s a false) with
    | none =>
      act (fun s => raiseTag s f.block Cause.ADDRESS (cmdTag x.words) 0x50)
      stop .aborted
    | some (t, i) =>
      if d = here then
        let (p, q) ← look (fun s => (dieOf s f.block, dieOf s (semBlock t)))
        if ← look (fun s => routeWaits s p q && !routeStopped s p q) then stop .delayed
        act (fun s =>
          let m : SemMsg :=
            { ready := s.now, target := t, index := i, baton := false, sub := false, amount := 1,
              port := arrivalPort p q, src := sourceOf s f x.words, reply := .nobody }
          if routeStopped s p q then s else { s with semMsgs := s.semMsgs ++ [m] })
      else
        let r := reqCmd f.block (cmdTag x.words) 0x50 .critical
        need (fun s => match setOut s r (d * 2 ^ 48 + a) 4 0x04 0 1 [0] [] with
          | (s, .inl st) => (s, st)
          | (s, .inr _) => (s, .ok)))

/-- A collective goes as far as it can; true when it is complete. -/
def runColl (e : RelayId) (x : Slot) (c : CollRun) : Run (CollRun × Bool) := do
  let c ← reduceLoop e x ((c.desc 0).count + 1) c
  let c ← pumpColl e x (c.unsent.length + 1) c
  let waiting ← look (fun s => (sentBy s e).length)
  if c.unsent = [] && waiting = 0 && collReady c x.words then
    if c.kind.val = 5 then postNotify e x c
    return (c, true)
  else return (c, false)

/-- A collective ends with a status: what it has sent and not been answered is forgotten. -/
def stopColl (s : State) (e : RelayId) (slot : Nat) (st : Status) : State :=
  let s := putRelay s e { getRelay s e with coll := none }
  endColl { s with sentSegs := s.sentSegs.filter (fun q => q.engine ≠ e) } e slot st

/-- A collective completes: NORM and NF_REPORT (R405, R406). -/
def finishColl (s : State) (e : RelayId) (x : Slot) (c : CollRun) : State :=
  let ws := x.words
  let s := if c.kind.val ≤ 2 && cb ws 2 12 then addNorm s c.sum.1 else s
  if c.kind.val ≤ 2 && cb ws 2 13 && c.nf then
    stopColl (raiseTag s (.relay e) 17 (cmdTag ws) 0x50) e c.slot (worse c.status .defect)
  else stopColl s e c.slot c.status

/-- Does a segment belong to a collective? -/
def CollRun.owns (c : CollRun) (g : EarlySeg) : Bool := g.seg.group = c.group && g.seg.seqId = c.seqId

/-- The segments of the collective that have come are taken into it. -/
def takeEarly (e : RelayId) (x : Slot) (c : CollRun) : Run CollRun := do
  let r ← look (getRelay · e)
  let mine := r.early.filter c.owns
  act (fun s => putRelay s e { r with early := r.early.filter (fun g => !c.owns g) })
  mine.foldlM (fun c g => takeSegment e x c g.seg g.bytes g.st) c

/-- What a collective's run leaves: it has ended, is complete, or goes on when something more arrives. -/
def leaveColl (s : State) (e : RelayId) (x : Slot) (c0 : CollRun) : Except Status (CollRun × Bool) → State
  | .error st => stopColl s e x.id (worse c0.status st)
  | .ok (c, true) => finishColl s e x c
  | .ok (c, false) => putRelay (putSlot s (.relay e) { x with phase := .running }) e { getRelay s e with coll := some c }

/-- Let the collective of an engine go on with the segments that have come. Where a request of it must wait, what it did
is taken back, and it waits at its engine: the next event of it, or its row, goes on (log entry 155). -/
def goOn (s : State) (e : RelayId) : State :=
  match (getRelay s e).coll with
  | none => s
  | some c =>
    match getSlot s (.relay e) c.slot with
    | none => s
    | some x =>
      match runVal (do runColl e x (← takeEarly e x c)) x.memo s with
      | (.error .delayed, r) => waitSlot s (.relay e) x r
      | (res, r) => leaveColl r.st e x c res

/-- The collective of an engine stops ABORTED. -/
def abortColl (s : State) (e : RelayId) : State :=
  match (getRelay s e).coll with
  | none => s
  | some c => stopColl s e c.slot (worse c.status .aborted)

/-- A segment of the collective of an engine has been sent or received: COLL_TIMEOUT runs from now (R415). -/
def noteSeg (s : State) (e : RelayId) : State :=
  let r := getRelay s e
  putRelay s e { r with coll := r.coll.map (fun c => { c with lastSeg := s.now }) }

/-- Has a member or parent that the command talks to no port up (R415)? -/
def collCut (s : State) (c : CollRun) : Bool :=
  let g := c.group_
  let peers : List DeviceId :=
    match c.kind.val with
    | 3 | 5 | 6 => (c.members.map (Fin.ofNat 32768)).filter (· ≠ nodeId s)
    | 7 => []
    | _ => g.kids ++ (if g.root then [] else [g.parent])
  peers.any (fun d => !routeUp s d)

/-- Start a collective of kinds 0–7: validation, its own part, and the segments that came before it. One that must wait
begins again; one that waits with segments sent goes on. -/
def startColl (s : State) (e : RelayId) (x : Slot) : State :=
  match (getRelay s e).coll with
  | some _ => goOn s e
  | none =>
    let s := noteColl s e x.words
    match runVal (loadColl e x) x.memo s with
    | (.error .delayed, r) => waitSlot s (.relay e) x r
    | (.error st, r) => endColl r.st e x.id st
    | (.ok c, r) =>
      if collCut r.st c then stopColl r.st e x.id .aborted
      else
        match runVal (do runColl e x (← takeEarly e x (← beginColl e x c))) r.memo r.st with
        | (.error .delayed, t) => waitSlot s (.relay e) x t
        | (res, t) => leaveColl t.st e x c res

/-- Start a COLLECTIVE of a kind. -/
def execKind (kind : Nat) (e : RelayId) (slot : Nat) (s : State) : State :=
  startCommand s (.relay e) slot [0x50] true (fun s x => if cf x.words 2 3 0 = kind then startColl s e x else s)

/-- COLLECTIVE_REDUCE. -/
def execCollectiveReduce (e : RelayId) (slot : Nat) (s : State) : Host.Outcome State Fault Refusal :=
  .next (execKind 0 e slot s)

/-- ALL_REDUCE. -/
def execAllReduce (e : RelayId) (slot : Nat) (s : State) : Host.Outcome State Fault Refusal := .next (execKind 1 e slot s)

/-- REDUCE_SCATTER. -/
def execReduceScatter (e : RelayId) (slot : Nat) (s : State) : Host.Outcome State Fault Refusal :=
  .next (execKind 2 e slot s)

/-- ALL_GATHER. -/
def execAllGather (e : RelayId) (slot : Nat) (s : State) : Host.Outcome State Fault Refusal := .next (execKind 3 e slot s)

/-- BROADCAST. -/
def execBroadcast (e : RelayId) (slot : Nat) (s : State) : Host.Outcome State Fault Refusal := .next (execKind 4 e slot s)

/-- ALL_TO_ALL. -/
def execAllToAll (e : RelayId) (slot : Nat) (s : State) : Host.Outcome State Fault Refusal := .next (execKind 5 e slot s)

/-- PERMUTE. -/
def execPermute (e : RelayId) (slot : Nat) (s : State) : Host.Outcome State Fault Refusal := .next (execKind 6 e slot s)

/-- MOVE. -/
def execMove (e : RelayId) (slot : Nat) (s : State) : Host.Outcome State Fault Refusal := .next (execKind 7 e slot s)

/-! ### SEGMENT, SEG_ACK and the rest (R414, R415) -/

/-- Answer a segment. -/
def sendSegAck (s : State) (e : RelayId) (g : Segment) (cls : SvcClass) (xid : Nat) (busy : Bool) : State :=
  let h : PacketHead :=
    { cls := cls, tag := 0, dst := g.src, src := nodeId s, unit := Block.unit (.relay e), xid := xid, addr := g.addr,
      bytes := g.data.length }
  let vc : Fin 8 := if cls = .critical then 2 else 4
  if s.steward.failed then s else (sendPacket s 0x21 vc h 0 0 (segWords g ++ [if busy then 1 else 0]) []).1

/-- The (GROUP, SEQ_ID) pairs of the early table: those of commands that have not begun. -/
def earlyPairs (r : Relay) : List (Nat × Nat) :=
  ((r.early.filter (fun g => !(match r.coll with
    | some c => c.owns g
    | none => false))).map (fun g => (g.seg.group.val, g.seg.seqId))).eraseDups

/-- Bytes in the combining buffer: those of reductions. -/
def bufferUse (r : Relay) : Nat :=
  let kept := ((r.early.filter (fun g => g.seg.kind.val ≤ 2)).map (fun g => g.seg.data.length)).foldl (· + ·) 0
  match r.coll with
  | some c => kept + (c.parts.map (fun g => g.data.length)).foldl (· + ·) 0
  | none => kept

/-- Is there room for a segment: in the table of early pairs, unless its command runs or it needs none, and in the 4 MiB
combining buffer for one of a reduction (R414)? -/
def segRoom (r : Relay) (g : Segment) (running : Bool) : Bool :=
  let pairs := earlyPairs r
  let table := running || g.kind.val = 5 || g.kind.val = 7 || pairs.contains (g.group.val, g.seqId) || pairs.length < 64
  table && (2 < g.kind.val || bufferUse r + g.data.length ≤ 4194304)

/-- The bits at the end of a segment's last byte that lie behind the end of a row of the running command's DST: they stay
as they are (R160). Without the command the row is not known, and the byte is written whole (log entry 158). -/
def spareBits (r : Relay) (g : Segment) (running : Bool) : Nat :=
  match r.coll with
  | some c =>
    let d := c.desc 1
    if running && g.kind.val = 5 then
      let k := min (elemsIn d.fmt g.data.length) (max 1 d.last - g.offset % max 1 d.last)
      g.data.length * 8 - k * elemBits d.fmt
    else 0
  | none => 0

/-- The data of an ALL_GATHER, ALL_TO_ALL or MOVE segment go to their address when they arrive (R399, R407, R411). -/
def writeAtOnce (s : State) (e : RelayId) (g : Segment) (cls : SvcClass) (spare : Nat) : State × Status :=
  let r := reqOf (.relay e) cls
  if g.kind.val = 3 || g.kind.val = 5 || g.kind.val = 7 then
    if g.poisoned then (s, .poisoned)
    else if spare = 0 || 8 ≤ spare then postWrite s r g.addr g.data
    else
      let n := g.data.length - 1
      let m := 2 ^ (8 - spare)
      match readLocal s r (g.addr + n) 1 with
      | (s, .ok, l) =>
        let last := (g.data.getD n 0).toNat % m + leNat l / m * m
        postWrite s r g.addr (g.data.take n ++ [BitVec.ofNat 8 last])
      | (_, .delayed, _) => postWrite s r g.addr g.data
      | (s, st, _) => (s, st)
  else (s, .ok)

/-- A segment reaches the engine of its group. -/
def receiveSegment (s : State) (e : RelayId) (ok : Bool) (cls : SvcClass) (xid : Nat) (g : Segment) : State :=
  if isFenced s (.relay e) then s
  else
    let s := bump (bump s (.relay e) 15 1) (.relay e) 17 g.data.length
    let r := getRelay s e
    let running := match r.coll with
      | some c => decide (c.group = g.group ∧ c.seqId = g.seqId)
      | none => false
    if !ok then sendSegAck (groupMismatch s e g.src Occur.none) e g cls xid false
    else if !segRoom r g running then sendSegAck (bump s (.relay e) 18 1) e g cls xid true
    else
      let disagrees := match r.coll with
        | some c => running && !segAgrees c g
        | none => false
      let (s, st) := if disagrees then (s, .ok) else writeAtOnce s e g cls (spareBits r g running)
      let s := sendSegAck s e g cls xid false
      -- of MOVE nothing is kept, and of ALL_TO_ALL what was not written
      if !running && (g.kind.val = 7 || (g.kind.val = 5 && st = .ok)) then s
      else
        let kept : Segment := if g.kind.val = 3 || g.kind.val = 5 then { g with data := [] } else g
        let r := getRelay s e
        let s := putRelay s e { r with early := r.early ++ [{ seg := kept, bytes := g.data.length, st := st }] }
        if running then goOn (noteSeg s e) e else s

/-- A segment arrives at a port, which passes it to the engine of its group. Its class is that of its channel; where
that is not known, the one that its command uses here, or bulk. -/
def arriveSegment (s : State) (p : NauloId) (xid : Nat) (g : Segment) (cls : Option SvcClass) : State :=
  let (s, en) := peekEntry s p g.group
  let e := messageEngine p en
  let ok := match en with
    | some ws => (groupEntry ws).valid
    | none => false
  let own := match (getRelay s e).coll with
    | some c => if c.group = g.group && c.seqId = g.seqId then
        (match getSlot s (.relay e) c.slot with | some x => cmdSvc x.words | none => .bulk) else .bulk
    | none => .bulk
  receiveSegment s e ok (cls.getD own) xid g

/-- SEGMENT. -/
def execSegment (p : NauloId) (xid : Nat) (g : Segment) (s : State) : Host.Outcome State Fault Refusal :=
  .next (arriveSegment s p xid g none)

/-- SEG_ACK: the segment is done with, or waits for its resend. -/
def execSegAck (_p : NauloId) (xid : Nat) (busy : Bool) (s : State) : Host.Outcome State Fault Refusal :=
  .next (match s.sentSegs.find? (fun q => q.xid = xid) with
    | none => s
    | some q =>
      if busy then
        { s with sentSegs := s.sentSegs.map (fun y => if y.xid = xid then { y with busy := some s.now } else y) }
      else goOn { s with sentSegs := s.sentSegs.filter (fun y => y.xid ≠ xid) } q.engine)

/-- BUSY_RESEND: 1 µs after the BUSY answer the segment is sent again. -/
def execBusyResend (e : RelayId) (xid : Nat) (s : State) : Host.Outcome State Fault Refusal :=
  .next (match s.sentSegs.find? (fun q => q.xid = xid && q.engine = e) with
    | some q =>
      (match q.busy with
       | none => s
       | some t =>
         let s := { s with now := max s.now (t + 1000) }
         match sendSegment s e q with
         | (_, .delayed) => s
         | (s, .ok) =>
           let s := { s with sentSegs := s.sentSegs.map (fun y => if y.xid = xid then { y with busy := none } else y) }
           goOn (noteSeg (bump s (.relay e) 19 1) e) e
         | (s, _) => abortColl s e)
    | none => s)

/-- COLL_TIMEOUT: no segment of the command was sent or received for COLL_TIMEOUT ns. -/
def execCollTimeout (e : RelayId) (s : State) : Host.Outcome State Fault Refusal :=
  .next (match (getRelay s e).coll with
    | none => s
    | some c =>
      let s := { s with now := max s.now (c.lastSeg + collTimeout s e) }
      let tag := match getSlot s (.relay e) c.slot with
        | some x => cmdTag x.words
        | none => 0
      stopColl (raiseTag s (.relay e) 16 tag 0x50) e c.slot (worse c.status .aborted))

end Sys2Proof.Machine
end

