-- ==== Sys2Proof/Machine/Network.lean ====
section
/-!
DEFINITION. The package network's own faults (R12, R441), and writes of the mask directory (R28, R180).
-/
namespace Sys2Proof.Machine

/-! ### Paths (R12, R441) -/

/-- CRC_MS: the errors of the latest millisecond. -/
def crcMs (s : State) (x : PathState) : Nat := if s.now < x.errs.1 + 1000000 then sat 16 x.errs.2 else 0

/-- The syndrome of a router's record (R422). -/
def pathOccur (s : State) (d : DieId) (k : Fin 4) (wire : Nat) : Occur :=
  { Occur.none with syn := [wordOf k.val, wordOf wire, wordOf (crcMs s (getPath s d k)), 0] }

/-- FLIT_CRC_ERROR: the flit is discarded and replayed with those after it. Errors of one path 80 ns apart or less are
those of one flit and its replays; the sixteenth of a path with LINK_FATAL stops it (assumption 48). -/
def execFlitCrcError (d : DieId) (link : Fin 4) (_wire : Nat) (s : State) : Host.Outcome State Fault Refusal :=
  .next (
    if linkPresent d link = false then s
    else
      let x := getPath s d link
      let errs := if s.now < x.errs.1 + 1000000 then (x.errs.1, x.errs.2 + 1) else (s.now, 1)
      let run := if s.now ≤ x.run.1 + 80 then (s.now, x.run.2 + 1) else (s.now, 1)
      let s := putPath s d link { x with errs := errs, run := run, stopped := x.stopped || (x.fatal && 16 ≤ run.2) }
      emit (bump (bump s (.router d) 1 1) (.router d) 2 1) (.replay d link))

/-- WIRE_LIMIT: a wire of a path had more than WIRE_LIMIT CRC errors in 1 ms (R441): a spare, half width, or
LINK_FATAL. -/
def execWireLimit (d : DieId) (link : Fin 4) (wire : Nat) (s : State) : Host.Outcome State Fault Refusal :=
  .next (
    if linkPresent d link = false then s
    else
      let b : Block := .router d
      let o := pathOccur s d link wire
      let x := getPath s d link
      if x.spares ≠ 0 then
        raiseWith (bump (putPath s d link { x with spares := x.spares - 1, paused := some s.now }) b 3 1) b 8 o
      else if !x.half then
        let s := rputBit (putPath s d link { x with half := true, paused := some s.now }) b Reg.Hdr.STATUS 5 true
        raiseWith (bump s b 4 1) b 9 o
      else raiseWith (putPath s d link { x with fatal := true }) b 10 o)

/-- The pause of a path ends, within 5 µs, and its replay buffer is sent again (R441). -/
def endWireChange (s : State) (d : DieId) (link : Fin 4) : State :=
  let x := getPath s d link
  match x.paused with
  | none => s
  | some t =>
    let n := Config.pauseNs s.fresh % 5001
    let s := useFresh { s with now := max s.now (t + n) }
    emit (putPath s d link { x with paused := none }) (.replay d link)

/-! ### The mask directory -/

/-- DIRECTORY_WRITE: a write at an offset of the directory, by whole entries or refused: no part of a write that covers
part of an entry is written, however it is split into requests (R28, R180). -/
def execDirectoryWrite (who : Block) (offset : Nat) (data : List Byte) (s : State) : Host.Outcome State Fault Refusal :=
  let r := rowReq who 0 .critical
  let a := directoryBase + offset
  .next (match placeOf s a with
    | .larder d off =>
      (match larderWriteCheck s r d off data.length with
       | (_, .ok) => takeRequest s r a (.write data)
       | (s, st) => respond who (s, st, []))
    | _ => respond who (raiseAtRequester s r Cause.ADDRESS, .aborted, []))

end Sys2Proof.Machine
end

