-- ==== Sys2Proof/Machine/Sync.lean ====
section
/-!
DEFINITION. Time alignment over the timing tree (R391–R393).
-/
namespace Sys2Proof.Machine

/-- SYNC_STATE.STATE: 0 UNLOCKED, 1 LOCKED, 2 HOLDOVER. -/
def syncState (s : State) : Nat := rfield s fabricPage Reg.Fab.SYNC_STATE 1 0

/-- Set SYNC_STATE. -/
def setSync (s : State) (samples st : Nat) : State := rput s fabricPage Reg.Fab.SYNC_STATE (wordOf (samples * 16 + st))

/-- The parent of a follower; a root has none (R391). -/
def syncParent (s : State) : Option DeviceId := if strideSource s = 0 then none else ttParent s

/-- A write of TT_PARENT: the state returns to UNLOCKED (R393). -/
def writeTtParent (s : State) (v : Word) : State :=
  setSync { rwrite s fabricPage Reg.Fab.TT_PARENT v with sync := { SyncM.reset with sentAt := s.sync.sentAt } } 0 0

/-- TT_PARENT. -/
def execTtParent (v : Word) (s : State) : Host.Outcome State Fault Refusal := .next (writeTtParent s v)

/-- The time base slews by at most 1 ns in every 2,000 ns (R393): what it has slewed by now moves the time. -/
def slewTime (s : State) : State :=
  let y := s.sync
  let n : Int := ((s.now - y.slewAt) / 2000 : Nat)
  let k := max (-n) (min n y.slew)
  if k = 0 then s
  else
    let t := ((s.now : Int) + k).toNat
    { s with now := t, sync := { y with slew := y.slew - k, slewAt := t } }

/-- SYNC_INTERVAL: a follower sends SYNC_REQ to its parent, with the time at which it leaves. -/
def execSyncInterval (s : State) : Host.Outcome State Fault Refusal :=
  .next (match syncParent s with
    | none => s
    | some p =>
      let s := slewTime { s with now := max s.now (s.sync.sentAt + rfield s fabricPage Reg.Fab.SYNC_INTERVAL 19 0) }
      let s := { s with sync := { s.sync with sentAt := s.now, missed := s.sync.missed + 1 } }
      sendControl s (activeStride s) 0x12 p (words64 s.now) [] (.syncReq p s.now))

/-- SYNC_REQ: the answer carries t1, the time of arrival and the time at which it leaves, which the model takes as one. -/
def execSyncReq (from_ : DeviceId) (t1 : Nat) (s : State) : Host.Outcome State Fault Refusal :=
  .next (sendControl s (activeStride s) 0x13 from_ (words64 t1 ++ words64 s.now ++ words64 s.now) []
    (.syncResp from_ t1 s.now s.now))

/-- Half of a time in ns; which way half a ns rounds is open. -/
def halfNs (x : Int) : Int := x.fdiv 2 + (if x.fmod 2 = 1 && Config.halfUp x then 1 else 0)

/-- The offset θ and the delay d of a sample (R392). -/
def syncSample (t1 t2 t3 t4 : Nat) : Int × Int :=
  (halfNs (((t2 : Int) - t1) - ((t4 : Int) - t3)), halfNs (((t4 : Int) - t1) - ((t3 : Int) - t2)))

/-- Is a sample accepted: its delay at most the smallest of the last 16 samples plus SYNC_GATE (R392)? -/
def syncAccepts (s : State) (d : Int) : Bool :=
  let gate := rfield s fabricPage Reg.Fab.SYNC_GATE 15 0
  s.sync.delays.all (fun x => d ≤ x + gate) || s.sync.delays = []

/-- An accepted sample corrects the time base (R393): a step while UNLOCKED, a slew otherwise. -/
def acceptSample (s : State) (θ d : Int) : State :=
  let s := rput s fabricPage Reg.Fab.TIME_OFFSET (BitVec.ofInt 32 θ)
  let s := rput s fabricPage Reg.Fab.PATH_DELAY (BitVec.ofInt 32 d)
  let s := { s with sync := { s.sync with missed := 0 } }
  let n := rfield s fabricPage Reg.Fab.SYNC_STATE 7 4
  if syncState s = 0 then
    let s := bump { s with now := ((s.now : Int) + θ).toNat } fabricPage 2 1
    let n := if θ.natAbs < 200 then n + 1 else n
    setSync s n (if 4 ≤ n then 1 else 0)
  else setSync { s with sync := { s.sync with slew := θ, slewAt := s.now } } n 1

/-- SYNC_RESP: a sample of offset and delay; one that is not from the parent is none. -/
def execSyncResp (from_ : DeviceId) (t1 t2 t3 t4 : Nat) (s : State) : Host.Outcome State Fault Refusal :=
  .next (
    if syncParent s ≠ some from_ then s
    else
      let s := bump (slewTime { s with now := max s.now t4 }) fabricPage 0 1
      let (θ, d) := syncSample t1 t2 t3 t4
      let ok := syncAccepts s d
      let s := { s with sync := { s.sync with delays := (d :: s.sync.delays).take 16 } }
      if ok then acceptSample s θ d else bump s fabricPage 1 1)

/-- SYNC_LOST: no sample has been accepted for 16 intervals. -/
def execSyncLost (s : State) : Host.Outcome State Fault Refusal :=
  .next (
    if (syncParent s).isSome && syncState s = 1 && 16 ≤ s.sync.missed then
      raise (setSync s (rfield s fabricPage Reg.Fab.SYNC_STATE 7 4) 2) fabricPage 9
    else s)

end Sys2Proof.Machine
end

