-- ==== Sys2Proof/Machine/Packets.lean ====
section
/-!
DEFINITION. Packets that arrive from the fabric (R382, R383, R386, R388): requests of other devices, answers to
requests of this one, and what a port does with the rest.
-/
namespace Sys2Proof.Machine

/-- The occurrence of a port's cause: lane, its uncorrectable codewords, PEER_ID (R422). -/
def portOccur (s : State) (p : NauloId) (lane : Nat) : Occur :=
  let b : Block := .naulo p
  { Occur.none with syn :=
      [wordOf (4 * p.val + lane), wordOf (rfield s b (Reg.Nau.LANE_FEC + 4 * lane) 31 16),
       wordOf (rfield s b Reg.Nau.PEER_ID 14 0), 0] }

/-- A packet at a port that is up: dropped at a fenced port and with both stewards failed (R443, R450), misrouted where
it names another device (R386), malformed (R47), or taken. -/
def withPacket (s : State) (p : NauloId) (h : PacketHead) (good : Bool) (body : State → State) : State :=
  let b : Block := .naulo p
  if !portUp s p || isFenced s b || s.steward.failed then s
  else if h.dst ≠ nodeId s then raiseWith (bump s b 12 1) b 11 (portOccur s p 0)
  else if !good then raiseWith s b Cause.PROTOCOL (portOccur s p 0)
  else body s

/-- The request that a packet makes here. -/
def packetReq (who : Block) (h : PacketHead) : Req :=
  { who := who, unit := h.unit, node := some h.src, tag := h.tag, opc := 0, cls := h.cls, fill := false, again := false }

/-- The block that answers for an address; the port where the address has none. -/
def answerBlock (s : State) (p : NauloId) (a : Nat) : Block := (placeBlock (placeOf s a)).getD (.naulo p)

/-- DELAYED notices that a block has sent. -/
def delayedCount (s : State) (b : Block) : Word := rget s b Reg.Svc.DELAYED_COUNT

/-- Pass a DELAYED notice back to another device, if the request got one (R364). -/
def sendDelay (s0 s : State) (b : Block) (h : PacketHead) : State :=
  if delayedCount s0 b = delayedCount s b then s
  else (sendPacket s 0x0A 4 (answerHead s b h.src h) 0 0 [] []).1

/-- Does a packet name 1 to 512 bytes? -/
def packetBytes (h : PacketHead) : Bool := 1 ≤ h.bytes && h.bytes ≤ 512

/-- A request of another device that must wait is held, and its DELAYED notice goes back at once (R364). -/
def holdPacket (s t : State) (b : Block) (p : NauloId) (r : Req) (h : PacketHead) (acc : Access) (fmt : Option Nat) : State :=
  sendDelay s (holdReq s t r h.addr acc fmt (.packet p h)) b h

/-- Answer a READ of another device. -/
def answerRead (s t : State) (b : Block) (h : PacketHead) (st : Status) (d : List Byte) : State :=
  sendReadResp (sendDelay s t b h) b h.src h st.code d

/-- Answer a WRITE or an ADD of another device. -/
def answerAck (s t : State) (b : Block) (h : PacketHead) (st : Status) : State :=
  sendAck (sendDelay s t b h) b h.src h st.code

/-- The way of a packet's request from its port to the memory, and of the answer back (R441). -/
def packetWay (s : State) (p : NauloId) (h : PacketHead) : Way := wayOf s (.naulo p) (blockCuts h.addr h.bytes)

/-- A packet's request is made, unless it is lost at a stopped path, which its sender sees by its own time limit; one
whose answer is lost takes no time here. -/
def onWay (s : State) (p : NauloId) (h : PacketHead) (serve : State) (answer : State) : State :=
  match packetWay s p h with
  | .lost => s
  | .noAnswer => { serve with now := s.now }
  | _ => answer

/-- READ. -/
def takeRead (s : State) (p : NauloId) (h : PacketHead) : State :=
  withPacket s p h (packetBytes h) (fun s =>
    let b := answerBlock s p h.addr
    let r := packetReq (.naulo p) h
    match readLocal s r h.addr h.bytes with
    | (t, .delayed, _) => holdPacket s t b p r h (.read h.bytes) none
    | (t, st, d) => onWay s p h t (answerRead s t b h st d))

/-- READ. -/
def execRead (p : NauloId) (h : PacketHead) (s : State) : Host.Outcome State Fault Refusal := .next (takeRead s p h)

/-- WRITE. -/
def takeWrite (s : State) (p : NauloId) (h : PacketHead) (data : List Byte) : State :=
  withPacket s p h (packetBytes h && data.length = h.bytes) (fun s =>
    let b := answerBlock s p h.addr
    let r := packetReq (.naulo p) h
    match writeLocal s r h.addr data with
    | (t, .delayed) => holdPacket s t b p r h (.write data) none
    | (t, st) => onWay s p h t (answerAck s t b h st))

/-- WRITE. -/
def execWrite (p : NauloId) (h : PacketHead) (data : List Byte) (s : State) : Host.Outcome State Fault Refusal :=
  .next (takeWrite s p h data)

/-- ADD: relay engine (port mod 8) of the port's die issues it to the memory-side adder. -/
def takeAdd (s : State) (p : NauloId) (h : PacketHead) (fmt : Nat) (data : List Byte) : State :=
  withPacket s p h (packetBytes h && data.length = h.bytes) (fun s =>
    let e : Block := .relay p
    if isFenced s e then sendAck (fencedAnswer s (packetReq e h) e) e h.src h Status.aborted.code
    else
      let b := adderOf s h.addr
      let s := bump s e 20 1
      let r := packetReq e h
      match memoryAdd s r h.addr fmt data with
      | (t, .delayed) => holdPacket s t b p r h (.write data) (some fmt)
      | (t, st) => onWay s p h t (answerAck s t b h st))

/-- ADD. -/
def execAdd (p : NauloId) (h : PacketHead) (fmt : Fin 16) (data : List Byte) (s : State) :
    Host.Outcome State Fault Refusal := .next (takeAdd s p h fmt.val data)

/-- SEM: the operation travels on to its semaphore or baton, and its ACK follows when it has been applied. -/
def takeSem (s : State) (p : NauloId) (h : PacketHead) (operand : Word) (baton : Bool) : State :=
  let sub := bit operand 31
  let n := bits operand 30 0
  withPacket s p h (!baton || (!sub && 1 ≤ n && n ≤ 7)) (fun s =>
    match semTarget s h.addr baton with
    | none => sendAck s (.naulo p) h.src h Status.aborted.code
    | some (t, i) =>
      let m : SemMsg :=
        { ready := s.now, target := t, index := i, baton := baton, sub := sub, amount := n,
          port := arrivalPort (nauloDie p) (dieOf s (semBlock t)),
          src := { unit := h.unit, node := h.src.val, tag := h.tag }, reply := .remote p h.src h.unit h.xid }
      { s with semMsgs := s.semMsgs ++ [m] })

/-- SEM. -/
def execSem (p : NauloId) (h : PacketHead) (operand : Word) (baton : Bool) (s : State) :
    Host.Outcome State Fault Refusal := .next (takeSem s p h operand baton)

/-- The status of a code (R99). -/
def statusOf (n : Nat) : Option Status :=
  match n with
  | 0 => some .ok
  | 1 => some .delayed
  | 2 => some .refused
  | 3 => some .aborted
  | 4 => some .bankOff
  | 5 => some .poisoned
  | 6 => some .defect
  | _ => none

/-- The request that a response answers. -/
def answered (s : State) (h : PacketHead) : Option RemoteReq := s.remotes.find? (fun r => r.xid = h.xid && r.node = h.src)

/-- A request has been answered. -/
def dropRemote (s : State) (r : RemoteReq) : State := { s with remotes := s.remotes.filter (fun x => x.xid ≠ r.xid) }

/-- End a request to another device with a status (R388): its command ends, or the host is answered. -/
def answerRemote (s : State) (r : RemoteReq) (st : Status) (data : List Byte) : State :=
  let s := dropRemote s r
  let host := match r.use with
    | .hostRead _ | .hostWrite _ _ => true
    | _ => false
  -- what returns to a fenced host port is dropped and counted (R443 step 4)
  if host && isFenced s .host then bump s (proxyOf s .host) 4 1
  else match r.use with
  | .semOp f n =>
    match getSlot s f n with
    | some x =>
      let s := if st = .poisoned then raiseTag s f.block Cause.POISON_CONSUMED (cmdTag x.words) 0x20 else s
      endSlot s f n st
    | none => s
  | .hostRead n => hostReadAnswer s n st data
  | .hostWrite a n => hostReads (hostWriteAnswer s a n st)
  | .dmaWrite c ch => dmaWritten s c ch r.xid st

/-- The port receives a malformed response: one that does not suit its request (R47). -/
def badResponse (s : State) (p : NauloId) : State := raiseWith s (.naulo p) Cause.PROTOCOL (portOccur s p 0)

/-- READ_RESP; an answer to no request is dropped. -/
def takeReadResp (s : State) (p : NauloId) (h : PacketHead) (status : Nat) (data : List Byte) : State :=
  withPacket s p h (statusOf status).isSome (fun s =>
    match answered s h with
    | some r =>
      match r.use, statusOf status with
      | .hostRead n, some st =>
        if st = .ok && data.length ≠ n then badResponse s p else answerRemote s r st data
      -- the write has failed with a malformed response, and may be re-issued (R333)
      | .dmaWrite c ch, _ => dmaLost (dropRemote (badResponse s p) r) c ch r.xid Cause.PROTOCOL
      | _, _ => badResponse s p
    | none => s)

/-- READ_RESP. -/
def execReadResp (p : NauloId) (h : PacketHead) (status : Fin 16) (data : List Byte) (s : State) :
    Host.Outcome State Fault Refusal := .next (takeReadResp s p h status.val data)

/-- ACK. -/
def takeAck (s : State) (p : NauloId) (h : PacketHead) (status : Nat) : State :=
  withPacket s p h (statusOf status).isSome (fun s =>
    match answered s h, statusOf status with
    | some r, some st =>
      match r.use with
      | .hostRead _ => badResponse s p
      | _ => answerRemote s r st []
    | _, _ => s)

/-- ACK. -/
def execAck (p : NauloId) (h : PacketHead) (status : Fin 16) (s : State) : Host.Outcome State Fault Refusal :=
  .next (takeAck s p h status.val)

/-- DELAY: the requester counts the notice. -/
def takeDelay (s : State) (p : NauloId) (h : PacketHead) : State :=
  withPacket s p h true (fun s =>
    match answered s h with
    | some r =>
      match r.use with
      | .semOp f _ => countDelayed s f.block
      | .dmaWrite c ch => countDelayed s (.dma c ch)
      | _ => countDelayed s .host
    | none => s)

/-- DELAY. -/
def execDelay (p : NauloId) (h : PacketHead) (s : State) : Host.Outcome State Fault Refusal := .next (takeDelay s p h)

/-- The packet operations (R383). -/
def packetOps : List Nat :=
  [0x01, 0x02, 0x03, 0x04, 0x08, 0x09, 0x0A, 0x10, 0x11, 0x12, 0x13, 0x20, 0x21, 0x22, 0x23]

/-- PROTOCOL: a packet with an OP that R383 does not define is dropped. -/
def execProtocol (p : NauloId) (op : BitVec 8) (s : State) : Host.Outcome State Fault Refusal :=
  .next (
    if packetOps.contains op.toNat || !portUp s p || isFenced s (.naulo p) then s
    else raiseWith s (.naulo p) Cause.PROTOCOL (portOccur s p 0))

/-! ### Packets as units -/

/-- A header unit's common part. -/
def headOf (ws : List Word) : PacketHead :=
  { cls := clsOf (cf ws 0 13 12), tag := cmdTag ws, dst := Fin.ofNat 32768 (cf ws 1 14 0),
    src := Fin.ofNat 32768 (cf ws 1 30 16), unit := wordAt ws 2, xid := (wordAt ws 3).toNat, addr := cf64 ws 4 % 2 ^ 48,
    bytes := cf ws 6 9 0 }

/-- The vote in a header unit and its payload, in the layout of `voteWords`. -/
def voteOf (ws : List Word) (data : List Byte) : Contribution :=
  { stepMin := cf64 ws 9, stepMax := cf64 ws 11, skip := cb ws 13 0, nonfinite := cb ws 13 1, torn := cb ws 13 2,
    firstDevice := if cb ws 13 31 then some (Fin.ofNat 32768 (cf ws 13 30 16)) else none, norm := leNat (data.take 80) }

/-- The segment in a header unit and its data (R414). -/
def segmentOf (ws : List Word) (h : PacketHead) (data : List Byte) : Segment :=
  { group := Fin.ofNat 256 (cf ws 8 7 0), kind := Fin.ofNat 16 (cf ws 8 11 8), seqId := (wordAt ws 9).toNat,
    offset := cf64 ws 10, total := cf64 ws 12, rank := cf ws 14 15 0, addr := h.addr, src := h.src,
    poisoned := cf ws 6 19 16 = 5, data := data }

/-- The state that an outcome goes on to. -/
def nextOf (s : State) (o : Host.Outcome State Fault Refusal) : State :=
  match o with
  | .next t => t
  | _ => s

/-- A whole packet has arrived on a virtual channel. -/
def takePacket (s : State) (p : NauloId) (units : List (List Byte)) : State :=
  let ws := wordsOf 16 (units.headD [])
  let h := headOf ws
  let body := (units.drop 1).flatten
  let data := body.take h.bytes
  let status := cf ws 6 19 16
  match cmdOp ws with
  | 0x01 => takeRead s p h
  | 0x02 => takeWrite s p h data
  | 0x03 => takeAdd s p h (cf ws 6 15 12) data
  | 0x04 => takeSem s p h (wordAt ws 7) (cb ws 8 0)
  | 0x08 => takeReadResp s p h status data
  | 0x09 => takeAck s p h status
  | 0x0A => takeDelay s p h
  | 0x10 => withPacket s p h true (fun s => nextOf s (execTick p h.src
      { stride := cf64 ws 8, fire := cf64 ws 10, planned := cf64 ws 12, holdLead := cf ws 15 20 0, hurdle := cb ws 14 0 } s))
  | 0x11 => withPacket s p h true (fun s =>
      nextOf s (execHold h.src (cf64 ws 8) (cb ws 10 0) (Fin.ofNat 32768 (cf ws 11 14 0)) s))
  | 0x12 => withPacket s p h true (fun s => nextOf s (execSyncReq h.src (cf64 ws 8) s))
  | 0x13 => withPacket s p h true (fun s =>
      nextOf s (execSyncResp h.src (cf64 ws 8) (cf64 ws 10) (cf64 ws 12) s.now s))
  | 0x20 => withPacket s p h true (fun s => arriveSegment s p h.xid (segmentOf ws h data) (some h.cls))
  | 0x21 => withPacket s p h true (fun s => nextOf s (execSegAck p h.xid (cb ws 15 0) s))
  | 0x22 => withPacket s p h true (fun s => nextOf s (execVote p (Fin.ofNat 256 (cf ws 8 7 0)) h.src (voteOf ws body) s))
  | 0x23 => withPacket s p h true (fun s =>
      nextOf s (execVoteResult p (Fin.ofNat 256 (cf ws 8 7 0)) h.src (voteOf ws body) (cf64 ws 14) s))
  | _ => withPacket s p h false id

end Sys2Proof.Machine
end

