-- ==== Sys2Proof/Machine/Naulo.lean ====
section
/-!
DEFINITION. The link layer of a Naulo port: training (R371), flits, credits and retry (R372–R378), lane retirement and
the loss of the link (R379–R381).
-/
namespace Sys2Proof.Machine

/-! ### Acknowledgements, credits and replay (R375, R377, R378) -/

/-- Release the flits up to an acknowledged one. -/
def takeAckSeq (s : State) (p : NauloId) (ack : Nat) : State :=
  let x := getPort s p
  match x.replay.findIdx? (fun f => f.seq = ack % 4096) with
  | some i => putPort s p { x with replay := x.replay.drop (i + 1), ackMoved := s.now }
  | none => s

/-- Take a cumulative credit counter. -/
def takeCredit (s : State) (p : NauloId) (vc : Fin 8) (count : Nat) : State :=
  let x := getPort s p
  putPort s p { x with credit := setAt x.credit vc.val (count % 65536) }

/-- Send what may be sent now. -/
def pumpPort (s : State) (p : NauloId) : State := pump s p ((getPort s p).queue.length + 1)

/-- What every flit with a good CRC carries: ACK and one credit counter. -/
def takeControl (s : State) (p : NauloId) (c : FlitControl) : State :=
  pumpPort (takeCredit (takeAckSeq s p c.ack) p c.creditVc c.creditCount) p

/-- Requests sent through a port and not answered are answered ABORTED (R381). -/
def abortRemotes (s : State) (p : NauloId) : State :=
  (s.remotes.filter (fun r => r.port = p)).foldl (fun s r => answerRemote s r .aborted []) s

/-- Collectives that have lost a peer complete ABORTED (R381, R415). -/
def abortCut (s : State) : State :=
  (List.finRange 16).foldl (fun s e => match (getRelay s e).coll with
    | some c => if collCut s c then stopColl s e c.slot .aborted else s
    | none => s) s

/-- The children that had a route with a port up before, and have none now, are lost (R396). -/
def loseKids (before s : State) : State :=
  ((ttChildren before).filter (routeUp before)).foldl (fun s d => if routeUp s d then s else loseChild s d) s

/-- The port goes down (R381). -/
def portDown (s : State) (p : NauloId) : State :=
  let b : Block := .naulo p
  let before := s
  let s := putPort s p NauloPort.reset
  let o := portOccur s p 0
  let s := sendRecord (raiseWith (bump s b 11 1) b 9 o) b 9 o none
  loseKids before (abortCut (abortRemotes s p))

/-- A write of a TT_CHILD entry: the combined hold is formed anew over the children that there are now (R395), and a new one
whose route mask has no port up is lost (R396). -/
def writeChild (s : State) (off : Nat) (v : Word) : State :=
  let before := ttChildren s
  let s := rwrite s fabricPage off v
  let l := ttChildren s
  let s := modStride { s with lost := s.lost.filter l.contains } (fun x =>
    { x with childHolds := x.childHolds.filter (fun c => l.contains c.1) })
  reportHold ((l.filter (fun d => !before.contains d && !routeUp s d)).foldl loseChild s)

/-- A write of ROUTE_DATA: the mask of the device that ROUTE_INDEX names (R384). -/
def writeRoute (s : State) (v : Word) : State :=
  let d := rfield s fabricPage Reg.Fab.ROUTE_INDEX 14 0
  loseKids s (abortCut { s with routes := tset (0#16) s.routes d (BitVec.ofNat 16 (bits v 15 0)) })

/-- Send the unacknowledged flits again, in order; one that has been sent 16 times takes the port down (R378). -/
def replayFlits (s : State) (p : NauloId) : State :=
  let x := getPort s p
  if x.replay.any (fun f => 16 ≤ f.sends) then
    portDown (raiseWith s (.naulo p) 10 (portOccur s p 0)) p
  else
    let s := putPort s p { x with replay := x.replay.map (fun f => { f with sends := f.sends + 1 }) }
    let s := bump s (.naulo p) 6 x.replay.length
    pumpPort (x.replay.foldl (fun s f => sendFlit s p .data f.seq f.units) s) p

/-- NAK: every flit after the acknowledged one is sent again; while a lane is being retired, once replay resumes. -/
def execNak (p : NauloId) (c : FlitControl) (s : State) : Host.Outcome State Fault Refusal :=
  .next (
    if !portUp s p then s
    else
      let s := takeCredit (takeAckSeq s p c.ack) p c.creditVc c.creditCount
      if (getPort s p).state = 2 then replayFlits s p else s)

/-- REPLAY_TIMEOUT: ACK has not advanced for REPLAY_TIMEOUT ns while flits are unacknowledged. -/
def execReplayTimeout (p : NauloId) (s : State) : Host.Outcome State Fault Refusal :=
  .next (
    let x := getPort s p
    if x.state ≠ 2 || x.replay = [] then s
    else
      let s := { s with now := max s.now (x.ackMoved + rfield s (.naulo p) Reg.Nau.REPLAY_TIMEOUT 15 0) }
      replayFlits (bump (putPort s p { x with ackMoved := s.now }) (.naulo p) 7 1) p)

/-- IDLE: an acknowledgement and a credit counter. -/
def execIdle (p : NauloId) (c : FlitControl) (s : State) : Host.Outcome State Fault Refusal :=
  .next (if portUp s p then takeControl s p c else s)

/-! ### DATA flits (R373, R377) -/

/-- Payload units that a header unit announces. -/
def unitLen (u : List Byte) : Nat := cf (wordsOf 16 u) 0 11 8

/-- A unit has arrived: a packet that it completes is taken, and its units are freed. One that announces more than 8
payload units is malformed. -/
def takeUnit (s : State) (p : NauloId) (vc : Fin 8) (u : List Byte) : State :=
  let x := getPort s p
  let us := x.partials.getD vc.val [] ++ [u]
  let n := unitLen (us.headD [])
  let free (k : Nat) : State :=
    putPort s p { x with partials := setAt x.partials vc.val [],
                         freed := setAt x.freed vc.val ((x.freed.getD vc.val 0 + k) % 65536) }
  if 8 < n then raiseWith (free us.length) (.naulo p) Cause.PROTOCOL (portOccur s p 0)
  else if us.length = n + 1 then takePacket (free (n + 1)) p us
  else putPort s p { x with partials := setAt x.partials vc.val us }

/-- A flit is discarded: one NAK, until the expected flit arrives. -/
def discardFlit (s : State) (p : NauloId) : State :=
  let x := getPort s p
  if x.nakSent then s
  else
    let s := bump (putPort s p { x with nakSent := true }) (.naulo p) 5 1
    sendFlit s p .nak (latestSeq s p) []

/-- The units of an accepted flit are taken, and ACK and a credit counter go back: with a DATA flit where one leaves, in an
IDLE flit where none does. -/
def acceptUnits (s : State) (p : NauloId) (us : List (Fin 8 × List Byte)) : State :=
  let t := us.foldl (fun s u => takeUnit s p u.1 u.2) s
  if (getPort t p).txSeq = (getPort s p).txSeq && (getPort t p).state = 2 then sendIdle t p else t

/-- DATA_FLIT: a flit whose CRC is good and whose SEQ is the next expected is accepted, any other one discarded (R377). -/
def execDataFlit (p : NauloId) (f : Flit) (crc : BitVec 64) (s : State) : Host.Outcome State Fault Refusal :=
  .next (
    if !portUp s p then s
    else if crc ≠ flitCrc f then discardFlit (bump s (.naulo p) 4 1) p
    else
      let s := takeControl s p f.ctl
      let x := getPort s p
      if f.seq % 4096 ≠ x.rxNext then discardFlit s p
      else
        let us := f.units.take 4
        let s := putPort s p { x with rxNext := (x.rxNext + 1) % 4096, nakSent := false }
        let s := bump (bump s (.naulo p) 1 1) (.naulo p) 3 us.length
        acceptUnits s p us)

/-! ### Lanes (R379, R380) -/

/-- The lanes in use but for one. -/
def lanesWithout (a : BitVec 4) (lane : Fin 4) : BitVec 4 := a &&& ~~~ (1#4 <<< lane.val)

/-- Mark a lane retired: the bit, the count, LANE_RETIRED. -/
def markLane (s : State) (p : NauloId) (lane : Fin 4) : State :=
  let b : Block := .naulo p
  let o := portOccur s p lane.val
  raiseWith (countLife (bump (rputBit s b Reg.Nau.LANE_RETIRED lane.val true) b 10 1) 3) b 8 o

/-- The lanes that stay once the retirement in progress has ended. -/
def lanesLeft (x : NauloPort) : BitVec 4 :=
  match x.retiring with
  | some (m, _) => x.active &&& ~~~ m
  | none => x.active

/-- The port is degraded (R380). -/
def degradePort (s : State) (p : NauloId) (lane : Fin 4) : State :=
  let b : Block := .naulo p
  raiseWith (rputBit s b Reg.Hdr.STATUS 5 true) b 12 (portOccur s p lane.val)

/-- The retirement of an active lane begins, or joins the one in progress (R380): DATA flits stop, and the peer is told, or
answered where it is the one that asked. -/
def beginRetire (s : State) (p : NauloId) (lane : Fin 4) (peer : Bool) : State :=
  let x := getPort s p
  let bit_ : BitVec 4 := 1#4 <<< lane.val
  let (m, t) := x.retiring.getD (0, s.now)
  let s := putPort s p { x with state := 3, retiring := some (m ||| bit_, t),
                                retireAck := if peer then x.retireAck ||| bit_ else x.retireAck }
  sendLink s p (if peer then 3 else 2) lane.val

/-- A lane is retired (R379): the port goes down with its last one (R381); a port in training leaves the lane out, and one
that is up stops sending DATA flits until striping has been re-aligned. `peer` says that the other side has asked for it. -/
def retireLane (s : State) (p : NauloId) (lane : Fin 4) (peer : Bool) : State :=
  let b : Block := .naulo p
  if rbit s b Reg.Nau.LANE_RETIRED lane.val then s
  else
    let s := markLane s p lane
    let x := getPort s p
    let left := lanesWithout (lanesLeft x) lane
    if x.state = 0 || !x.active.getLsbD lane.val then s
    else if left = 0 then portDown s p
    else if x.state = 1 then putPort s p { x with active := left }
    else beginRetire s p lane peer

/-- LANE_RETIRE: the steward retires a lane. -/
def execLaneRetire (p : NauloId) (lane : Fin 4) (s : State) : Host.Outcome State Fault Refusal :=
  .next (retireLane (rputField s (.naulo p) Reg.Nau.LANE_RETIRE 1 0 lane.val) p lane false)

/-- LANE_LOCK_LOSS. -/
def execLaneLockLoss (p : NauloId) (lane : Fin 4) (s : State) : Host.Outcome State Fault Refusal :=
  .next (retireLane s p lane false)

/-- LANE_LIMIT: uncorrectable codewords of a lane in a millisecond; more than LANE_LIMIT retire it. -/
def execLaneLimit (p : NauloId) (lane : Fin 4) (uncorrectable : Nat) (s : State) : Host.Outcome State Fault Refusal :=
  .next (
    let b : Block := .naulo p
    let s := rputField s b (Reg.Nau.LANE_FEC + 4 * lane.val) 31 16 (sat 16 uncorrectable)
    let s := bump s b 9 uncorrectable
    if rfield s b Reg.Nau.LANE_LIMIT 15 0 < uncorrectable then retireLane s p lane false else s)

/-- The peer's RETIRE_ACK, or its own RETIRE, for a lane being retired. -/
def noteRetireAck (s : State) (p : NauloId) (lane : Fin 4) : State :=
  let x := getPort s p
  match x.retiring with
  | some (m, _) =>
    if x.state = 3 && m.getLsbD lane.val then putPort s p { x with retireAck := x.retireAck ||| (1#4 <<< lane.val) } else s
  | none => s

/-- RETIRE: the peer retires a lane; this side answers RETIRE_ACK, for a lane that it has marked itself as well. -/
def execRetire (p : NauloId) (lane : Fin 4) (c : FlitControl) (s : State) : Host.Outcome State Fault Refusal :=
  .next (
    if !portUp s p then s
    else
      let s := takeControl s p c
      if rbit s (.naulo p) Reg.Nau.LANE_RETIRED lane.val then sendLink (noteRetireAck s p lane) p 3 lane.val
      else retireLane s p lane true)

/-- RETIRE_ACK: both sides re-align striping. -/
def execRetireAck (p : NauloId) (lane : Fin 4) (c : FlitControl) (s : State) : Host.Outcome State Fault Refusal :=
  .next (if portUp s p then noteRetireAck (takeControl s p c) p lane else s)

/-- LANE_RETIRED: the peer has answered for every lane, striping is re-aligned, within 12 µs of the decision, and replay
resumes. -/
def execLaneRetired (p : NauloId) (s : State) : Host.Outcome State Fault Refusal :=
  .next (
    let x := getPort s p
    match x.retiring with
    | some (m, t) =>
      if x.state ≠ 3 || x.retireAck &&& m ≠ m then s
      else
        let n := Config.pauseNs s.fresh % 12001
        let s := useFresh { s with now := max s.now (t + n) }
        let x := { x with state := 2, active := x.active &&& ~~~ m, retiring := none, retireAck := 0, ackMoved := s.now }
        let s := rput (putPort s p x) (.naulo p) Reg.Nau.LAST_INTERRUPT (wordOf (sat 16 (s.now - t)))
        replayFlits ((activeLanesOf m).foldl (fun s l => degradePort s p l) s) p
    | none => s)

/-! ### Link loss and training (R371, R381) -/

/-- LINK_DOWN: the peer has been silent for 100 µs. -/
def execLinkDown (p : NauloId) (s : State) : Host.Outcome State Fault Refusal :=
  .next (if (getPort s p).state = 0 then s else portDown s p)

/-- NAULO_RETRAIN: the port trains; `lanes` are the lanes that came up. Retired lanes are not used, and no
port trains before the device is READY (R478). -/
def execNauloRetrain (p : NauloId) (lanes : BitVec 4) (s : State) : Host.Outcome State Fault Refusal :=
  .next (
    if !isReady s then s
    else
    let b : Block := .naulo p
    let retired := BitVec.ofNat 4 (rfield s b Reg.Nau.LANE_RETIRED 3 0)
    let active := lanes &&& ~~~ retired
    let before := s
    let s := putPort s p { NauloPort.reset with state := if active = 0 then 0 else 1, active := active }
    let s := rput (rput (loseKids before (abortCut (abortRemotes s p))) b Reg.Nau.PEER_ID 0) b Reg.Nau.PORT_CTRL 0
    if active = 0 then s else sendLink s p 1 0)

/-- IDENT: the peer's NODE_ID; a training port is up. -/
def execIdent (p : NauloId) (peer : DeviceId) (s : State) : Host.Outcome State Fault Refusal :=
  .next (
    let x := getPort s p
    if x.state = 0 then s
    else
      let s := rput s (.naulo p) Reg.Nau.PEER_ID (wordOf (32768 + peer.val))
      if x.state = 1 then pumpPort (putPort s p { x with state := 2, ackMoved := s.now }) p else s)

end Sys2Proof.Machine
end

