-- ==== Sys2Proof/Machine/Release.lean ====
section
/-!
DEFINITION. Requests that waited and are served: in the order of R362, when a retirement ends (R349), an expander answers
or its link changes (R357, R359), or a paused die or path goes on (R436, R441).
-/
namespace Sys2Proof.Machine

/-- The request that a held one makes when it is served; it takes no further notice. -/
def HeldReq.request (h : HeldReq) : Req :=
  match h.reply with
  | .packet _ head => { packetReq h.who head with again := true }
  | _ => { reqOf h.who h.cls with tag := h.tag, opc := h.opc, again := true }

/-- Answer a request that has waited; what returns to a fenced host port is dropped and counted (R443 step 4). -/
def answerHeld (s : State) (h : HeldReq) (st : Status) (data : List Byte) : State :=
  match h.reply with
  | .unit => respond h.who (s, st, data)
  | .nobody => s
  | .host ga =>
    if isFenced s .host then bump s (proxyOf s .host) 4 1
    else match h.acc with
      | .read n => hostReadAnswer s n st data
      | .write d => hostReads (hostWriteAnswer s ga d.length st)
  | .packet p head =>
    let b := if h.fmt.isSome then adderOf s h.addr else answerBlock s p h.addr
    match h.acc with
    | .read _ => sendReadResp s b head.src head st.code data
    | .write _ => sendAck s b head.src head st.code

/-- Make a held request of the host to another device again; none where its way is still paused. -/
def sendHeld (s : State) (h : HeldReq) : Option State :=
  let ga := h.addr - outMark
  match portWay s h.request (Fin.ofNat 32768 (ga / 2 ^ 48)), h.acc with
  | .waits, _ => none
  | _, .read n => some (hostSend s ga n 0x01 [] (.hostRead n))
  | _, .write d => some (hostSend s ga d.length 0x02 d (.hostWrite ga d.length))

/-- A held request, made again. -/
def serveAgain (s : State) (h : HeldReq) : State × Status × List Byte :=
  match h.fmt, h.acc with
  | some f, .write d => let (t, st) := memoryAdd s h.request h.addr f d; (t, st, [])
  | _, acc => serveLocal s h.request h.addr acc

/-- Serve a request that was held, in a state that holds only those before it; none where it must still wait. The reply to
one that the proxy has answered is dropped and counted, and nothing of it is done (R443 step 3). -/
def serveHeld (s : State) (h : HeldReq) : Option State :=
  if outMark ≤ h.addr then sendHeld s h
  else
    let (t, st, data) := serveAgain s h
    if st = .delayed then none
    else if h.answered then some (bump s ((placeBlock (placeOf s h.addr)).elim h.who (proxyOf s)) 3 1)
    else some (answerHeld t h st data)

/-- Depth of a class's queue at a destination (R362). -/
def queueDepth : SvcClass → Nat
  | .bulk => 64
  | _ => 16

/-- Has a request entered the queue of its class at its destination: do fewer than its depth stand before it? -/
def hasEntered (s : State) (before : List HeldReq) (h : HeldReq) : Bool :=
  before.countP (fun x => x.cls = h.cls && heldDest s x = heldDest s h) < queueDepth h.cls

/-- The rank of a held request where several may be served (R362): stride-critical first, but for the fourth service in
succession while a bulk request waits; speculative where neither other queue holds one. `runs` counts the stride-critical
services in succession. -/
def heldRank (s : State) (runs : List (Dest × Nat)) (h : HeldReq) : Option Nat :=
  match heldDest s h with
  | none => some 0
  | some d =>
    match h.cls with
    | .critical =>
      let run := ((runs.find? (fun x => x.1 = d)).map (·.2)).getD 0
      some (if 3 ≤ run && destQueued s d .bulk ≠ 0 then 2 else 0)
    | .bulk => some 1
    | .speculative => if destQueued s d .critical ≠ 0 || destQueued s d .bulk ≠ 0 then none else some 3

/-- A service at a destination: the stride-critical ones in succession. -/
def noteRun (s : State) (runs : List (Dest × Nat)) (h : HeldReq) : List (Dest × Nat) :=
  match heldDest s h with
  | none => runs
  | some d =>
    let run := ((runs.find? (fun x => x.1 = d)).map (·.2)).getD 0
    (d, if h.cls = .critical then run + 1 else 0) :: runs.filter (fun x => x.1 ≠ d)

/-- Put back the requests that still wait behind a served one; what has joined them since comes last. -/
def putBack (before rest : List HeldReq) (t : State) : State :=
  { t with held := before ++ rest ++ t.held.drop before.length }

/-- What serving each held request would leave, with its rank: those that can be served now. -/
def servable (s : State) (runs : List (Dest × Nat)) : List (Nat × HeldReq × State) :=
  s.held.zipIdx.filterMap (fun (h, i) =>
    let before := s.held.take i
    match heldRank s runs h, hasEntered s before h, serveHeld { s with held := before } h with
    | some k, true, some t => some (k, h, putBack before (s.held.drop (i + 1)) t)
    | _, _, _ => none)

/-- The first entry of lowest rank. -/
def lowest : List (Nat × HeldReq × State) → Option (HeldReq × State)
  | [] => none
  | (k, x) :: t => if t.all (fun y => k ≤ y.1) then some x else lowest t

/-- Serve held requests, one after the other, until none can be served. -/
def releaseFrom : Nat → List (Dest × Nat) → State → State
  | 0, _, s => s
  | n + 1, runs, s =>
    match lowest (servable s runs) with
    | none => s
    | some (h, t) => releaseFrom n (noteRun s runs h) t

/-- The requests that no longer have to wait are served. -/
def releaseHeld (s : State) : State := releaseFrom s.held.length [] s

/-- PC_RETIRED: the pseudo-channel that is being retired is marked retired, and the requests held for it are served
(R349). -/
def execPcRetired (st : StackId) (s : State) : Host.Outcome State Fault Refusal := .next (releaseHeld (pcDone s st))

/-- EXPANDER_RESPONSE: the expander answers an outstanding transaction, and a request that waited for its block is served
(R357, R367). -/
def execExpanderResponse (p : CxlId) (xid : Nat) (late poison : Bool) (devLoad : Fin 4) (data : List Byte) (s : State) :
    Host.Outcome State Fault Refusal := .next (releaseHeld (expanderAnswer s p xid late poison devLoad data))

/-- CXL_LINK_DOWN: the link of a port goes down, and every request to it is answered ABORTED (R359). -/
def execCxlLinkDown (p : CxlId) (s : State) : Host.Outcome State Fault Refusal := .next (releaseHeld (cxlLost s p))

/-- CXL_RETRAIN: a port trains, at start-up or where PORT_CTRL.RETRAIN asks for it (R356, R359). -/
def execCxlRetrain (p : CxlId) (t : LinkTrain) (capacity : Nat) (expId : Word) (s : State) :
    Host.Outcome State Fault Refusal :=
  .next (if mayTrain s p then releaseHeld (trainCxl s p t capacity expId) else s)

/-- WIRE_CHANGE: the pause of a path ends (R441). -/
def execWireChange (d : DieId) (link : Fin 4) (s : State) : Host.Outcome State Fault Refusal :=
  .next (releaseHeld (endWireChange s d link))

/-- RELOCK: the pause of a die ends (R436). -/
def execRelock (d : DieId) (s : State) : Host.Outcome State Fault Refusal := .next (releaseHeld (endRelock s d))

end Sys2Proof.Machine
end

