-- ==== Sys2Proof/Machine/Fence.lean ====
section
/-!
DEFINITION. Fencing (R42, R442–R446), soft resets (R43–R45), ENABLE (R41) and the rest of CTRL, ERR_STATUS (R49), the
counter latches (R455) and CHECK_CLEAR (R126).
-/
namespace Sys2Proof.Machine

/-! ### Blocks -/

/-- The blocks of a core. -/
def coreBlocks (c : CoreId) : List Block :=
  [.cp c, .gme c, .vu c, .array c, .mem c .wm, .mem c .am, .mem c .pm, .sem c] ++ (List.finRange 8).map (.dma c)

/-- The blocks of a die that a fence of the die fences: all but its proxy and its router (R442). -/
def dieBlocks (d : DieId) : List Block :=
  let n := d.val
  [Block.clock d, .sensors d] ++
  (if n < 16 then (List.range 8).flatMap (fun k => coreBlocks (Fin.ofNat 128 (n * 8 + k)))
   else if n < 24 then [.larder (Fin.ofNat 8 (n - 16)), .dir (Fin.ofNat 8 (n - 16))]
   else if n < 28 then
     let st (k : Nat) : StackId := Fin.ofNat 16 ((n - 24) * 4 + k)
     [Block.hub (Fin.ofNat 4 (n - 24))] ++ (List.range 4).map (fun k => .hbm (st k)) ++
       (List.range 4).map (fun k => .adder (st k))
   else if n < 30 then
     let e (k : Nat) : Fin 16 := Fin.ofNat 16 ((n - 28) * 8 + k)
     [Block.slow (Fin.ofNat 2 (n - 28))] ++ (List.range 8).map (fun k => .naulo (e k)) ++
       (List.range 8).map (fun k => .relay (e k)) ++
       (List.range 2).map (fun k => .cxl (Fin.ofNat 4 ((n - 28) * 2 + k))) ++ (if n = 28 then [.host] else [])
   else if n = 31 then []
   else
     let k : Fin 2 := if n = 30 then 0 else 1
     [.mgmt k, .stride k, .errq k, .security k])

/-- The front end that a block is, if it is one. -/
def frontOfBlock : Block → Option FrontId
  | .cp c => some (.cp c)
  | .hub h => some (.hub h)
  | .slow p => some (.slow p)
  | .relay e => some (.relay e)
  | _ => none

/-! ### The steps of a fence (R443, R444) -/

/-- Does a held request wait at a block, which has not been answered for it yet? One on a paused way is not there yet. -/
def heldAt (s : State) (b : Block) (h : HeldReq) : Bool :=
  !h.answered && (heldDest s h).map (·.1) = some b && wayOf s h.who (blockCuts h.addr (accessBytes h.acc)) ≠ .waits

/-- The proxy answers a request on a block's behalf (step 2): ABORTED, and FENCED_ACCESS at a requester of this device. -/
def answerFenced (s : State) (b : Block) (h : HeldReq) : State :=
  answerHeld (raiseAtRequester (bump s (proxyOf s b) 2 1) h.request Cause.FENCED_ACCESS) h .aborted []

/-- Requests that a proxy delivered into a block and that are unanswered are answered ABORTED on its behalf (step 2). The
block still has them: its own replies come later, and are dropped and counted (step 3). -/
def abortDelivered (s : State) (b : Block) : State :=
  let answer (s : State) (who : Block) (tag : Tag) : State :=
    respond who (raiseTag (bump s (proxyOf s b) 2 1) who Cause.FENCED_ACCESS tag 0, .aborted, [])
  let l := s.held.filter (heldAt s b)
  let s := l.foldl (fun s h => answerFenced s b h)
    { s with held := s.held.map (fun h => if heldAt s b h then { h with answered := true } else h) }
  match b with
  | .cxl p =>
    let l := s.cxlReqs.filter (fun q => q.port = p && !q.answered)
    let s := { s with cxlReqs := s.cxlReqs.map (fun q => if q.port = p then { q with answered := true } else q) }
    (l.filter (fun q => q.xid = q.whole)).foldl (fun s q => answer s q.who q.tag) s
  | .larder d =>
    let l := s.pendingReads.filter (fun e => e.die = d && !e.answered)
    let s := { s with pendingReads := s.pendingReads.map (fun e => if e.die = d then { e with answered := true } else e) }
    l.foldl (fun s e => e.readers.foldl (fun s r => answer s r.1 0) s) s
  | _ => s

/-- The writes to other devices that a DMA command still waits for. -/
def owedBy (f : FrontId) (x : Slot) (r : RemoteReq) : Bool :=
  match f with
  | .cp c => decide (4 ≤ x.queue) && decide (r.use = .dmaWrite c (Fin.ofNat 8 (x.queue - 4)))
  | _ => false

/-- The responses that a command still waits for come back to a fenced engine and are dropped (step 4). -/
def dropResponses (s : State) (f : FrontId) (x : Slot) : State :=
  let mine (m : SemMsg) : Bool := m.reply = .slot f x.id
  let sent (r : RemoteReq) : Bool := decide (r.use = .semOp f x.id) || owedBy f x r
  let n := (s.semMsgs.filter mine).length + (s.remotes.filter sent).length
  -- a pass that waits for room is dropped; every other operation goes on without an answer (R86)
  let wait (m : SemMsg) : Bool := mine m && m.baton && !semMsgReady s m
  let s := { s with semMsgs := (s.semMsgs.filter (fun m => !wait m)).map
                      (fun m => if mine m then { m with reply := .nobody } else m),
                    remotes := s.remotes.filter (fun r => !sent r) }
  if n = 0 then s else bump s (proxyOf s f.block) 4 n

/-- What the engine of a command has in progress for it is given up. A vote that has been sampled is lost to its node,
which decides alone, as it does when a result is lost (R534). -/
def giveUp (s : State) (f : FrontId) (x : Slot) : State :=
  match f with
  | .cp c =>
    if 4 ≤ x.queue then
      let ch : Fin 8 := Fin.ofNat 8 (x.queue - 4)
      if x.phase = .running || x.phase = .held then dmaState (putDma s c ch DmaRun.reset) c ch 0 else s
    else s
  | .hub h => putPubs s h ((getPubs s h).map (fun p => if p.slot = some x.id then { p with slot := none } else p))
  | .slow p => if x.queue = 0 then endParkHold s p else s
  | .relay e =>
    let r := getRelay s e
    let s := if r.coll.any (fun c => c.slot = x.id) then
        { putRelay s e { r with coll := none } with sentSegs := s.sentSegs.filter (fun q => q.engine ≠ e) } else s
    if r.vote.any (fun v => v.slot = x.id) then decideAlone (putRelay s e { getRelay s e with vote := none }) else s

/-- A command ends by a fence: ABORTED with its post, unless its work had ended before; a pass that waits for room is
dropped (step 5). -/
def fenceSlot (s : State) (f : FrontId) (x : Slot) : State :=
  let s := giveUp (dropResponses s f x) f x
  let s := bump s (proxyOf s f.block) 5 1
  match x.phase with
  | .passing _ _ => completeSlot s f x .aborted
  | .ended st => (match makePost s f x.words st (postTokens s f x.words) with
    | (s, .made st) => completeSlot s f x st
    | (s, .waits _) => completeSlot s f x .aborted)
  | _ => abortSlot s f x

/-- Does the fence of some blocks end a command: all those of a fenced front end, and those that a fenced engine has
started? -/
def fenceEnds (bs : List Block) (f : FrontId) (x : Slot) : Bool :=
  let passing := match x.phase with
    | .passing _ _ => true
    | _ => false
  bs.contains f.block || (!x.queued && !passing && (engineBlocks f x.queue (cmdOp x.words)).any bs.contains)

/-- End the commands of a front end. -/
def fenceSlots (s : State) (bs : List Block) (f : FrontId) : State :=
  let s := ((getFront s f).slots.filter (fenceEnds bs f)).foldl (fun s x => fenceSlot s f x) s
  if bs.contains f.block then
    match (getFront s f).strideWait with
    | none => s
    | some w =>
      let s := bump s (proxyOf s f.block) 5 1
      let (s, st) := match w.ended with
        | some _ => (s, Status.aborted)
        | none => match makePost s f w.words .aborted (postTokens s f w.words) with
          | (s, .made st) => (s, st)
          | (s, .waits _) => (s, .aborted)
      finishCommand (putFront s f { getFront s f with strideWait := none }) f w.words 0 w.latches st
  else s

/-- The own posts of a core that wait for room in its batons are dropped, and their commands complete ABORTED (R86). -/
def dropPasses (s : State) (f : FrontId) : State :=
  let s := (getFront s f).slots.foldl (fun s x => match x.phase with
    | .passing _ _ =>
      completeSlot (raiseTag s f.block Cause.FENCED_ACCESS (cmdTag x.words) (cmdOp x.words)) f x .aborted
    | _ => s) s
  match (getFront s f).strideWait with
  | some w =>
    if w.ended.isSome && batonMode s f then
      let s := raiseTag s f.block Cause.FENCED_ACCESS (cmdTag w.words) (cmdOp w.words)
      finishCommand (putFront s f { getFront s f with strideWait := none }) f w.words 0 w.latches .aborted
    else s
  | none => s

/-- Poison the semaphores that a fenced block owns, drop the passes into its batons and empty them (step 6, R86, R444).
DESIGN CHOICE, where R86 speaks of the fence of a core: a fence of the semaphore memory alone or of the CP alone has these
effects too. A take that waits under the first, and a pass that comes later under the second, are not touched (log entry
149). -/
def fencePoison (s : State) (b : Block) : State :=
  match b with
  | .cp c | .sem c =>
    let waits (m : SemMsg) : Bool := m.baton && m.target = .cp c
    let l := s.semMsgs.filter waits
    let s := { s with semMsgs := s.semMsgs.filter (fun m => !waits m) }
    let s := l.foldl (fun s m => replySem (raiseAtIssuer s m Cause.FENCED_ACCESS) m .aborted false) (dropPasses s (.cp c))
    emptyBatons (poisonBank s (.cp c) (proxyOf s b)) c
  | b => match frontOfBlock b with
    | some f => poisonBank s f (proxyOf s b)
    | none => s

/-- A fenced front end, and a parking ring that stops, assert no hold any more (R443). -/
def dropHolds (s : State) (bs : List Block) : State :=
  let s := bs.foldl (fun s b => match frontOfBlock b with
    | some f => putFront s f { getFront s f with hold := false, seen := false }
    | none => s) s
  reportHold ((List.finRange 2).foldl (fun s p =>
    let r := getPark s p
    if r.hold then s else putPark s p { r with seen := false }) s)

/-- Fence some blocks that have just been marked fenced (R443). `wide` is a whole core or a die. -/
def fenceBlocks (s : State) (bs : List Block) (wide : Bool) : State :=
  match bs.getLast? with
  | none => s
  | some b =>
    let p := proxyOf s b
    let s := rput (bump s p 0 1) p Reg.Prx.LAST_FENCE b.unit
    let s := bs.foldl abortDelivered s
    let s := allFronts.foldl (fun s f => if (getFront s f) = Front.reset then s else fenceSlots s bs f) s
    let s := bs.foldl fencePoison s
    let cause := wide || bs.any (fun b => match b with
      | .cp _ | .sem _ => true
      | _ => false)
    dropHolds (if cause then stepSkip s 7 else s) bs

/-- The whole core of a block is retired: it stays fenced (R446). -/
def coreRetired (s : State) (b : Block) : Bool := b.core.isSome && rbit s b Reg.Hdr.STATUS 4

/-- The blocks of a list that are not fenced yet. -/
def unfenced (s : State) (bs : List Block) : List Block := bs.filter (fun b => !isFenced s b)

/-- Set a bit that fences some blocks, and fence those that were not fenced before. -/
def fenceBy (s : State) (bs : List Block) (wide : Bool) (mark : State → State) : State :=
  let new := unfenced s bs
  fenceBlocks (mark s) new wide

/-- Fence a block by its CTRL.FENCE; a proxy or a router is never fenced (R442). -/
def fenceOne (s : State) (b : Block) : State := fenceBy s [b] false (fun s => rputBit s b Reg.Hdr.CTRL 2 true)

/-- FENCE. -/
def execFence (b : Block) (s : State) : Host.Outcome State Fault Refusal :=
  .next (if s.resetting.contains b.page then s else fenceOne s b)

/-- Fence a whole core through PROXY_CTRL.CORE_FENCE. -/
def fenceCore (s : State) (c : CoreId) : State :=
  fenceBy s (coreBlocks c) true (fun s => rputBit s (.proxy (Fin.ofNat 33 (c.val / 8))) Reg.Prx.PROXY_CTRL (c.val % 8) true)

/-- CORE_FENCE. -/
def execCoreFence (c : CoreId) (s : State) : Host.Outcome State Fault Refusal := .next (fenceCore s c)

/-- Fence a die through PROXY_CTRL.DIE_FENCE. -/
def fenceDie (s : State) (d : DieId) : State :=
  fenceBy s (dieBlocks d) true (fun s => rputBit s (.proxy d) Reg.Prx.PROXY_CTRL 31 true)

/-- DIE_FENCE; die 31 has no proxy. -/
def execDieFence (d : DieId) (s : State) : Host.Outcome State Fault Refusal :=
  .next (if d.val = 31 then s else fenceDie s d)

/-! ### Soft reset (R43–R45) -/

/-- Does a soft reset keep a register: ERR_COUNT, the latch facility, what retirements have put there, which last until
device reset (R43, R433), and what a device reset itself leaves or records? Of the ledger page all but ERR_STATUS, ERR_FIRST
and CTRL stays (R261). -/
def keepsReg (b : Block) (off : Nat) : Bool :=
  [Reg.Hdr.CTRL, Reg.Hdr.ERR_COUNT, Reg.Hdr.LATCH_CTRL, Reg.Hdr.LATCH_TAG, Reg.Hdr.LATCH_STRIDE_LO,
    Reg.Hdr.LATCH_STRIDE_HI, Reg.Hdr.LATCH_NS].contains off ||
  (match b with
   | .array _ => [Reg.Arr.LANE_RETIRED, Reg.Arr.CHECK_COL_RETIRED, Reg.Arr.PRECISION].contains off
   | .hbm _ => [Reg.Hbm.PC_RETIRED, Reg.Hbm.SPARE_BASE_LO, Reg.Hbm.SPARE_BASE_HI, Reg.Hbm.SPARE_SLOTS, Reg.Hbm.SPARE_MAP].contains off
   | .naulo _ => off = Reg.Nau.LANE_RETIRED
   | .proxy _ => off = Reg.Prx.CORE_POWER
   | .mgmt _ => off = Reg.Mgm.RESET_CAUSE
   | .glob p => (p.val = 3 && off = Reg.Thm.TRIP_INFO) || (p.val = 4 && off ≠ Reg.Hdr.ERR_STATUS && off ≠ Reg.Hdr.ERR_FIRST)
   | _ => false)

/-- The clock step and rail offset of a die that the image gives: index 31 is SB (R485). -/
def clockFromImage (s : State) (d : DieId) (i : Nat) : State :=
  let s := rput s (.clock d) Reg.Clk.CLOCK_STEP (wordOf (leNat (slice s.boot.config (4 + i) 1)))
  rput s (.clock d) Reg.Clk.RAIL_OFFSET (wordOf (leNat (slice s.boot.config (36 + i) 1)))

/-- The registers of a page return to their reset values; of STATUS, RETIRED stays. -/
def resetRegs (s : State) (b : Block) : State :=
  let t := { s with regs := s.regs.filter (fun (k, _) => k / 4096 ≠ b.page || keepsReg b (k % 4096)) }
  let t := if rbit s b Reg.Hdr.STATUS 4 then rputBit t b Reg.Hdr.STATUS 4 true else t
  match b with
  | .clock d => clockFromImage t d (if d.val = 32 then 31 else d.val)
  | _ => t

/-- A path at its reset value: the spare wires that the image leaves free (R12, R486). -/
def pathFromImage (s : State) (d : DieId) (k : Fin 4) : PathState :=
  let die := if d.val = 32 then 31 else d.val
  { PathState.reset with spares := 64 - s.boot.repair.countP (fun (kind, x, u, _) => kind = 8 && x = die && u % 4 = k.val) }

/-- The base that BAR2 has at a reset, and its registers (R508). -/
def hostBase (s : State) : State :=
  let base := 0x010000000000 + (nodeId s).val * 2 ^ 48
  let s := { s with host := { s.host with bar2Base := base, bar2Size := s.boot.bar2Default } }
  let s := rput64 s .host Reg.Hst.BAR2_BASE_LO Reg.Hst.BAR2_BASE_HI base
  rput s .host Reg.Hst.BAR2_CTRL (wordOf (s.boot.bar2Default * 256 + 1))

/-- The TAP through a reset that is not a power-on: DEBUG is 0 from now on, so that no debug port is selected (R503,
R520). -/
def tapAtReset (t : Tap) : Tap := if t.instr = .debugPort then { t with instr := .bypass } else t

/-- A block that is reset has none of the requests left that its proxy has answered for it. -/
def forgetAnswered (s : State) (b : Block) : State :=
  { s with held := s.held.filter (fun h => !(h.answered && (heldDest s h).map (·.1) = some b)) }

/-- The segments of a core memory return to ON; one that was not holds zeros then (R308, R311). -/
def resetSegs (s : State) (c : CoreId) (m : CoreMem) : State :=
  (List.range (memSize m / segBytes m)).foldl (fun s k =>
    let x := getSeg s c m k
    let s := if x.phase = .on then s else zeroRange s (coreAddr c m (k * segBytes m)) (segBytes m)
    putSeg s c m k Segm.reset) s

/-- A front end and its bank return to their reset state (R79, R100). -/
def resetFront (s : State) (f : FrontId) : State :=
  let s := { s with fronts := s.fronts.filter (fun x => x.1 ≠ f.num) }
  match f with
  | .cp _ => s
  | f =>
    let s := fillBank s f Sem.reset
    startFill { s with tables := s.tables.filter (fun x => x.1 ≠ f.num) } f

/-- The semaphores and batons of a core return to their reset state (R79, R100). -/
def resetSems (s : State) (c : CoreId) : State :=
  emptyBatons (fillBank { s with filling := s.filling.filter (fun x => x.1 ≠ c.val) } (.cp c) Sem.reset) c

/-- The state of a block beside its registers returns to its reset values. -/
def resetUnit (s : State) (b : Block) : State :=
  match b with
  | .cp c => resetFront s (.cp c)
  | .sem c => resetSems s c
  | .gme c => startFill { s with preds := s.preds.filter (fun x => x.1 / 256 ≠ c.val) } (.cp c)
  | .mem c m => resetSegs s c m
  | .dma c ch => putDma s c ch DmaRun.reset
  | .hub h => resetFront (discardPubs { s with decisions := s.decisions.filter (fun x => x.1 ≠ h.val) } h) (.hub h)
  | .slow p =>
    resetFront { putPark s p ParkRing.reset with decisions := s.decisions.filter (fun x => x.1 ≠ 4 + p.val) } (.slow p)
  | .relay e => resetFront { putRelay s e Relay.reset with sentSegs := s.sentSegs.filter (fun q => q.engine ≠ e) } (.relay e)
  | .larder d => { s with pendingReads := s.pendingReads.filter (fun e => e.die ≠ d) }
  | .hbm st => { forgetAnswered s b with
      retiringPc := s.retiringPc.filter (fun x => x.1 ≠ st.val),
      pcCorr := s.pcCorr.filter (fun x => x.1 / 32 ≠ st.val) }
  | .adder _ => forgetAnswered s b
  | .cxl p => { forgetAnswered s b with cxlReqs := s.cxlReqs.filter (fun q => q.port ≠ p) }
  | .router d =>
    -- a path that has stopped stays so until device reset (R441)
    releaseHeld ((List.finRange 4).foldl (fun s k =>
      putPath s d k { pathFromImage s d k with stopped := (getPath s d k).stopped }) s)
  | .proxy d => { s with locks := s.locks.filter (fun l => match l.holder with
      | .proxy c => c.val ≠ d.val
      | .engine _ => true) }
  | .mgmt k => if (k.val = 1) = s.steward.activeSb then { s with resetReq := none } else s
  | .security k =>
    if (k.val = 1) = s.steward.activeSb then
      { s with boot := { s.boot with debug := false, nonce := none }, tap := tapAtReset s.tap }
    else s
  | .host => hostBase { s with host := { s.host with reads := [], pendingMsi := [] } }
  | .naulo p => loseKids s (abortCut (abortRemotes (putPort s p NauloPort.reset) p))
  | .stride k =>
    -- the stride count takes a new value in no other way than R51 names; the standby's page has no state of its own (R102)
    if Block.stride k = activeStride s then closeHolds { s with stride := { StrideM.reset with count := s.stride.count } }
    else s
  | .errq _ =>
    { s with steward := { s.steward with queue := [], peak := 0, units := [], handling := none, logBase := 0, logLog2 := 6 } }
  | .sensors d =>
    { s with steward := { s.steward with slacks := s.steward.slacks.filter (fun x => x.1 ≠ d.val),
                                         holdOff := s.steward.holdOff.filter (fun x => x.1 ≠ d.val) } }
  | .glob p =>
    if p.val = 3 then { s with hotRuns := [] }
    else if p.val = 6 then { s with routes := [], sync := SyncM.reset }
    else if p.val = 7 then { s with trace := Trace.reset }
    else if 16 ≤ p.val then { s with cvs := s.cvs.filter (fun x => x.1 ≠ p.val - 16) }
    else s
  | _ => s

/-- A soft reset of a block begins: it is fenced, and its state returns to reset values (R43 steps 1 and 2). -/
def softReset (s : State) (b : Block) : State :=
  let s := fenceBy s [b] false (fun s => { s with resetting := sinsert s.resetting b.page })
  resetUnit (resetRegs s b) b

/-- A soft reset ends: ENABLE, FENCE, COUNTER_MODE and SOFT_RESET are zero (steps 3 and 4). The FENCE of a retired core
stays (R446). -/
def softResetDone (s : State) (b : Block) : State :=
  if s.resetting.contains b.page then
    rput { s with resetting := sremove s.resetting b.page } b Reg.Hdr.CTRL (if coreRetired s b then 4 else 0)
  else s

/-- SOFT_RESET. -/
def execSoftReset (b : Block) (s : State) : Host.Outcome State Fault Refusal :=
  .next (if s.resetting.contains b.page then s else softReset s b)

/-- SOFT_RESET_DONE. -/
def execSoftResetDone (b : Block) (s : State) : Host.Outcome State Fault Refusal := .next (softResetDone s b)

/-! ### CTRL, ERR_STATUS, LATCH_CTRL -/

/-- A write of CTRL (R41–R46): dropped while a soft reset runs. -/
def writeCtrl (s : State) (b : Block) (v : Word) : State :=
  if s.resetting.contains b.page then s
  else
    let was := rbit s b Reg.Hdr.CTRL 2
    let keep := coreRetired s b
    let s := rput s b Reg.Hdr.CTRL
      (wordOf ((if bit v 0 && pageOpen s b then 1 else 0) + (if was then 4 else 0) + (if bit v 3 then 8 else 0)))
    let s := if bit v 2 && !was then fenceOne s b
      else if was && !bit v 2 && !keep then rputBit s b Reg.Hdr.CTRL 2 false
      else s
    if bit v 1 then softReset s b else s

/-- ENABLE: CTRL.ENABLE is written, the other bits as they are. -/
def execEnable (b : Block) (v : Bool) (s : State) : Host.Outcome State Fault Refusal :=
  .next (if s.resetting.contains b.page then s else rputBit s b Reg.Hdr.CTRL 0 (v && pageOpen s b))

/-- The registers with a VALID bit that a write which leaves ERR_STATUS all clear clears as well. -/
def validRegs : Block → List (Nat × Nat)
  | .mem _ _ => [(Reg.Mem.PARITY_ADDR, 31)]
  | .gme _ => [(Reg.Gme.POD_FAULT, 31), (Reg.Gme.INDEX_FAULT_POS, 31), (Reg.Gme.T_FAULT, 31)]
  | .hub _ => [(Reg.Hub.CONFLICT_ENTRY, 31), (Reg.Hub.FAULT_ENTRY, 31), (Reg.Upd.DRIFT_POS_HI, 31)]
  | .larder _ => [(Reg.Ldr.UNCORR_ADDR, 31)]
  | .hbm _ => [(Reg.Hbm.UNCORR_INFO, 31)]
  | .adder _ => [(Reg.Add.OVF_ADDR_HI, 31)]
  | .cxl _ => [(Reg.Cxl.POISON_ADDR_HI, 31)]
  | .relay _ => [(Reg.Rel.MISMATCH_SRC, 15)]
  | .host => [(Reg.Hst.W_FAIL_INFO, 31)]
  | _ => []

/-- A write of ERR_STATUS: the bits written 1 are cleared; if none is left, ERR_FIRST is valid no more (R49), and a core
memory's PARITY_INFO is cleared with PARITY_ADDR.VALID (R306). -/
def writeErrStatus (s : State) (b : Block) (v : Word) : State :=
  let s := rput s b Reg.Hdr.ERR_STATUS (rget s b Reg.Hdr.ERR_STATUS &&& ~~~ v)
  if rget s b Reg.Hdr.ERR_STATUS = 0 then
    let s := (validRegs b).foldl (fun s x => rputBit s b x.1 x.2 false) (rputBit s b Reg.Hdr.ERR_FIRST 15 false)
    match b with
    | .mem _ _ => rput s b Reg.Mem.PARITY_INFO 0
    | _ => s
  else s

/-- ERR_STATUS. -/
def execErrStatus (b : Block) (v : Word) (s : State) : Host.Outcome State Fault Refusal := .next (writeErrStatus s b v)

/-- A write of LATCH_CTRL: FREEZE as written, and SNAPSHOT unless FREEZE holds (R454, R455). -/
def writeLatchCtrl (s : State) (b : Block) (v : Word) : State :=
  let s := if bit v 0 then latchCounters s b 0 else s
  rputBit s b Reg.Hdr.LATCH_CTRL 1 (bit v 1)

/-- SNAPSHOT. -/
def execSnapshot (b : Block) (s : State) : Host.Outcome State Fault Refusal := .next (latchCounters s b 0)

/-- CHECK_CLEAR: the masks and CHECK_FAULT. -/
def clearChecks (s : State) (c : CoreId) : State :=
  [Reg.Arr.CHECK_ROW_MASK, Reg.Arr.CHECK_COL_MASK, Reg.Arr.CHECK_FAULT].foldl (fun s o => rput s (.array c) o 0) s

/-- CHECK_CLEAR. -/
def execCheckClear (c : CoreId) (s : State) : Host.Outcome State Fault Refusal := .next (clearChecks s c)

/-! ### Semaphores and batons by register (R80, R82) -/

/-- The source that a write of SEM_DATA, SEM_FILL or BATON_PASS leaves: the semaphore memory itself (R460). -/
def writeSource (s : State) (c : CoreId) : Source := { unit := Block.unit (.sem c), node := (nodeId s).val, tag := 0 }

/-- The fill of a semaphore memory completes: every count is VALUE and no semaphore poisoned, all at once. -/
def finishSemFill (s : State) (c : CoreId) : State :=
  match s.filling.find? (fun x => x.1 = c.val) with
  | some (_, n) =>
    -- the operations held off by the fill are ready from now on, together (R77, R80)
    let l := s.semMsgs.map (fun m => if m.target = .cp c && !m.baton then { m with ready := s.now } else m)
    fillBank { s with filling := s.filling.filter (fun x => x.1 ≠ c.val), semMsgs := l } (.cp c)
      { count := n, poison := false, src := writeSource s c }
  | none => s

/-- A write of SEM_DATA: count and poison of the semaphore of SEM_INDEX, ahead of every pending operation; a fill that
runs completes before it. -/
def writeSemData (s : State) (c : CoreId) (v : Word) : State :=
  let f : FrontId := .cp c
  let s := finishSemFill s c
  let i := rfield s (.sem c) Reg.Sm.SEM_INDEX 11 0
  let s := putSem s f i { count := bits v 30 0, poison := bit v 31, src := writeSource s c }
  if bit v 31 then noteFirstPoison s f i 0 else clearFirstPoison s f

/-- SEM_DATA. -/
def execSemData (c : CoreId) (v : Word) (s : State) : Host.Outcome State Fault Refusal := .next (writeSemData s c v)

/-- A write of SEM_FILL starts a fill; one that runs completes before it. -/
def writeSemFill (s : State) (c : CoreId) (v : Word) : State :=
  let s := finishSemFill s c
  { s with filling := s.filling ++ [(c.val, bits v 30 0)] }

/-- SEM_FILL. -/
def execSemFill (c : CoreId) (v : Word) (s : State) : Host.Outcome State Fault Refusal := .next (writeSemFill s c v)

/-- SEM_FILL_DONE. -/
def execSemFillDone (c : CoreId) (s : State) : Host.Outcome State Fault Refusal := .next (finishSemFill s c)

/-- A write of BATON_PASS: a token in a baton, or ignored and counted where the baton is full. A pass aimed at a fenced
core is answered ABORTED by the proxy (R86). -/
def writeBatonPass (s : State) (c : CoreId) (v : Word) : State :=
  let i := bits v 19 16
  if isFenced s (.sem c) then bump s (proxyOf s (.sem c)) 1 1
  else if batonRoom s c i 1 then
    batonPut s c i 1 { value := BitVec.ofNat 16 (bits v 15 0),
                       src := writeSource s c }
  else bump s (.sem c) 10 1

/-- BATON_PASS. -/
def execBatonPass (c : CoreId) (v : Word) (s : State) : Host.Outcome State Fault Refusal := .next (writeBatonPass s c v)

/-- A write of BATON_POP: the head token of the baton moves into BATON_TOKEN. -/
def writeBatonPop (s : State) (c : CoreId) (v : Word) : State :=
  let i := bits v 3 0
  match getBaton s c i with
  | [] => rput s (.sem c) Reg.Sm.BATON_TOKEN 0
  | t :: l => rput (putBaton s c i l) (.sem c) Reg.Sm.BATON_TOKEN (wordOf (2 ^ 16 + t.value.toNat))

/-- BATON_POP. -/
def execBatonPop (c : CoreId) (v : Word) (s : State) : Host.Outcome State Fault Refusal := .next (writeBatonPop s c v)

end Sys2Proof.Machine
end

