-- ==== Sys2Proof/Machine/Steward.lean ====
section
/-!
DEFINITION. Error records and the pair of stewards: the queue and the log (R421, R423, R424), localisation and charging
(R425, R427), unit states and retirement (R428–R434), sentinels (R439), switch-over (R447–R450).
-/
namespace Sys2Proof.Machine

/-! ### Records on their way (R421) -/

/-- A record at a block reaches the queue of the active steward: it is acknowledged, or refused while the queue holds 64.
During a switch-over none is acknowledged. -/
def deliverRecord (s : State) (b : Block) : State :=
  match s.records.find? (fun r => r.1 = b.page) with
  | none => s
  | some (_, r) =>
    if s.steward.switching.isSome || s.steward.failed then s
    else if 64 ≤ s.steward.queue.length then raise (bump s (activeQueue s) 1 1) (activeQueue s) 8
    else
      let s := bump { s with records := s.records.filter (fun x => x.1 ≠ b.page) } (activeQueue s) 0 1
      let q := s.steward.queue ++ [r]
      { s with steward := { s.steward with queue := q, peak := max s.steward.peak q.length } }

/-- ERROR_RECORD. -/
def execErrorRecord (b : Block) (s : State) : Host.Outcome State Fault Refusal := .next (deliverRecord s b)

/-- RECORD_RESEND: 1 µs after the block sent it last, it sends the record again. -/
def execRecordResend (b : Block) (s : State) : Host.Outcome State Fault Refusal :=
  .next (match s.records.find? (fun r => r.1 = b.page) with
    | none => s
    | some (_, r) =>
      let s := { s with now := max s.now (r.sentAt + 1000) }
      deliverRecord { s with records := s.records.map (fun x =>
        if x.1 = b.page then (x.1, { x.2 with sentAt := s.now }) else x) } b)

/-! ### Charging (R420, R425, R427) -/

/-- The set bits of a mask. -/
def maskBits (w : Word) : List (Fin 32) := (List.finRange 32).filter (fun i => w.getLsbD i.val)

/-- The unit of a CHECKSUM record, by its masks over the core's active lanes (R425). -/
def chargeChecksum (s : State) (c : CoreId) (r : ErrRecord) : Unit_ :=
  let rows := maskBits (wordAt r.syndrome 0 &&& ~~~ rget s (.array c) Reg.Arr.LANE_RETIRED)
  let cols := maskBits (wordAt r.syndrome 1)
  match rows, cols with
  | [l], _ => .lane c l
  | [], [u] => .column c u
  | _, _ => .core c

/-- How the steward takes a record: by a class alone, or as a result fault of a unit. -/
inductive Charge where
  | cls (n : Nat)
  | unit (u : Unit_)
  deriving DecidableEq, Repr

/-- Does a block raise its causes from commands, descriptors or register writes only (R427)? -/
def commandCauses : Block → Bool
  | .hbm _ | .cxl _ | .naulo _ | .host | .stride _ | .errq _ | .proxy _ | .router _ | .clock _ | .sensors _ => false
  | .glob p => 16 ≤ p.val || p.val = 7
  | _ => true

/-- The die of a block, as a unit that cannot be retired (R427). -/
def dieUnit (s : State) (b : Block) : Unit_ := .die (dieOf s b)

/-- The charge of a record (R420, R427, R441). A class that no rule states is free. -/
def chargeOf (s : State) (r : ErrRecord) : Charge :=
  match r.cls with
  | some k => .cls k
  | none =>
    match r.cause, r.unit with
    | 0, _ | 1, _ | 6, _ => .cls 5
    | 4, _ => .cls 0
    | 3, .hbm st => if r.limit then .unit (.pc st (Fin.ofNat 32 (wordAt r.syndrome 0).toNat)) else .cls 0
    | 3, _ => .cls 0
    | 5, _ => .cls 5
    | 2, .mem c _ => .unit (.core c)
    | 2, .hbm st => .unit (.pc st (Fin.ofNat 32 (wordAt r.syndrome 0).toNat))
    | 7, .array c => .unit (chargeChecksum s c r)
    | 2, b | 7, b => .unit (dieUnit s b)
    | 8, .naulo p => .unit (.nauloLane p (Fin.ofNat 4 (wordAt r.syndrome 0).toNat))
    | 11, .naulo _ => .cls 5
    | 8, .router _ | 9, .router _ => .cls 6
    | 10, .router d => .unit (.path d (Fin.ofNat 4 (wordAt r.syndrome 0).toNat))
    | 8, .sensors _ => .cls 6
    | 9, .sensors _ => .cls 4
    | 11, .hbm _ | 12, .cxl _ | 11, .stride _ | 14, .stride _ | 16, .errq _ | 17, .errq _ => .cls 5
    | c, b => if commandCauses b then .cls 5 else .cls (Config.recordClass b.type c % 8)

/-- Does a CHECKSUM record name a BF16 or FP16 operand in word 11 of its syndrome (R431)? -/
def wideOperand (r : ErrRecord) : Bool :=
  let w := wordAt r.syndrome 2
  r.cause = 7 && ([5, 6].contains (bits w 3 0) || [5, 6].contains (bits w 7 4))

/-! ### The unit table (R428) -/

/-- The entry of a unit. -/
def unitEntry (s : State) (u : Unit_) : Option UnitEntry := s.steward.units.find? (fun e => e.unit = u)

/-- Replace the entry of a unit that is in the table. -/
def putUnit (s : State) (e : UnitEntry) : State :=
  { s with steward := { s.steward with units := s.steward.units.map (fun x => if x.unit = e.unit then e else x) } }

/-- Of two entries in WATCH, the one with more committed steps since its last event; the first of equal ones. -/
def olderWatch (a b : UnitEntry) : UnitEntry := if a.steps < b.steps then b else a

/-- Enter a unit: into a free entry, or in place of the entry in WATCH with the most committed steps; where the full table
has none in WATCH, the unit is not kept. -/
def addUnit (s : State) (e : UnitEntry) : State :=
  let l := s.steward.units
  if l.length < 256 then { s with steward := { s.steward with units := l ++ [e] } }
  else
    match l.filter (fun x => x.phase = .watch) with
    | [] => s
    | x :: t =>
      let old := t.foldl olderWatch x
      { s with steward := { s.steward with units := l.map (fun y => if y.unit = old.unit then e else y) } }

/-! ### Retirement (R431, R432, R434) -/

/-- A core is retired: fenced whole, its CP disabled, STATUS.RETIRED on its pages, powered down at the re-plan point. -/
def retireCore (s : State) (c : CoreId) : State :=
  let s := fenceBy s (coreBlocks c) true (fun s =>
    (coreBlocks c).foldl (fun s b => rputBit (rputBit s b Reg.Hdr.STATUS 4 true) b Reg.Hdr.CTRL 2 true) s)
  let s := rputBit s (.cp c) Reg.Hdr.CTRL 0 false
  let d : DieId := Fin.ofNat 33 (c.val / 8)
  let x := getChange s d
  let s := putChange s d { x with powerDown := x.powerDown ++ [c] }
  noteScheduled (raise s (activeQueue s) 11) d Config.degradeCause Occur.none

/-- The lanes of a core that are retired or will be at the next re-plan point. -/
def lanesGone (s : State) (c : CoreId) : Word :=
  (getChange s (Fin.ofNat 33 (c.val / 8))).lanes.foldl (fun w x => if x.1 = c then w ||| x.2 else w)
    (rget s (.array c) Reg.Arr.LANE_RETIRED)

/-- Number of bits set. -/
def popCount (w : Word) : Nat := (maskBits w).length

/-- Retire a lane at the next re-plan point; the core in place of one lane too many. -/
def retireArrayLane (s : State) (c : CoreId) (l : Fin 32) : State :=
  let d : DieId := Fin.ofNat 33 (c.val / 8)
  let w := lanesGone s c ||| (1#32 <<< l.val)
  if rfield s (activeQueue s) Reg.Erq.POLICY 11 8 < popCount w then retireCore s c
  else
    let x := getChange s d
    noteScheduled (putChange s d { x with lanes := x.lanes ++ [(c, 1#32 <<< l.val)] }) d Config.degradeCause Occur.none

/-- Retire a column check unit at the next re-plan point. -/
def retireColumn (s : State) (c : CoreId) (u : Fin 32) : State :=
  let d : DieId := Fin.ofNat 33 (c.val / 8)
  let x := getChange s d
  noteScheduled (putChange s d { x with columns := x.columns ++ [(c, 1#32 <<< u.val)] }) d Config.degradeCause Occur.none

/-- Limit a core to the 8-bit formats at the next re-plan point. -/
def limitPrecision (s : State) (c : CoreId) : State :=
  let d : DieId := Fin.ofNat 33 (c.val / 8)
  let x := getChange s d
  noteScheduled (putChange s d { x with precision := x.precision ++ [c] }) d Config.degradeCause Occur.none

/-- Is a core limited already, or about to be? -/
def precisionLimited (s : State) (c : CoreId) : Bool :=
  rbit s (.array c) Reg.Arr.PRECISION 0 || (getChange s (Fin.ofNat 33 (c.val / 8))).precision.contains c

/-- The core whose precision may be limited in place of retiring a unit (R431). -/
def preferPrecision (s : State) (e : UnitEntry) : Option CoreId :=
  if rbit s (activeQueue s) Reg.Erq.POLICY 1 && e.wide then
    match e.unit with
    | .lane c _ | .core c => if precisionLimited s c then none else some c
    | _ => none
  else none

/-- A permanent fault of a unit: its class, and what is done (R431, R432, R434). -/
def permanent (s : State) (e : UnitEntry) : State × Nat :=
  match preferPrecision s e with
  | some c => (limitPrecision (putUnit s { e with phase := .watch, steps := 0 }) c, 6)
  | none =>
    let gone := putUnit s { e with phase := .retired }
    match e.unit with
    | .lane c l => (retireArrayLane (countLife gone 3) c l, 3)
    | .column c u => (retireColumn (countLife gone 3) c u, 3)
    | .core c => (retireCore (countLife gone 3) c, 3)
    | .pc st p => (startRetire gone st p, 3)
    | .nauloLane _ _ => (gone, 3)
    | .path _ _ | .die _ => (raise (putUnit s { e with phase := .unretirable }) (activeQueue s) 12, 4)

/-- Does a unit have margin control (R428)? -/
def hasMargin : Unit_ → Bool
  | .pc _ _ | .nauloLane _ _ | .path _ _ => false
  | _ => true

/-- A new event of a unit that is in the table. -/
def chargeKnown (s : State) (e : UnitEntry) : State × Nat :=
  match e.phase with
  | .handling => permanent (raise (bump s (activeQueue s) 10 1) (activeQueue s) 10) e
  | .watch =>
    if hasMargin e.unit then
      match marginStep s (unitDie e.unit) Config.degradeCause Occur.none with
      | some s => (putUnit s { e with phase := .suspect, stepped := false }, 2)
      | none => permanent s e
    else permanent s e
  | .suspect => permanent s e
  | .retired => (s, 3)
  | .unretirable => (s, 4)

/-- Add the class to the events charged to a unit. -/
def noteClass (s : State) (u : Unit_) (r : ErrRecord) (k : Nat) : State :=
  { s with steward := { s.steward with units := s.steward.units.map (fun e =>
      if e.unit = u then { e with seen := (r.tag, r.stride, k) :: e.seen } else e) } }

/-- Charge a result fault to a unit: its class, and the unit's next state (R428, R429). A Naulo lane has been retired by
its port already (R380), and a path that fails at half width cannot be (R441). -/
def chargeUnit (s : State) (u : Unit_) (r : ErrRecord) : State × Nat :=
  match unitEntry s u with
  | none =>
    let e : UnitEntry :=
      { unit := u, phase := .handling, events := 1, steps := 0, stepped := false, wide := wideOperand r, seen := [] }
    let s := addUnit s e
    let (s, k) := match u with
      | .nauloLane _ _ | .path _ _ => permanent s e
      | _ => (s, 1)
    (noteClass s u r k, k)
  | some e =>
    match e.seen.find? (fun x => x.1 = r.tag && x.2.1 = r.stride) with
    | some (_, _, k) => (bump s (activeQueue s) 9 1, k)
    | none =>
      let e := { e with events := sat 16 (e.events + 1), steps := 0, wide := e.wide && wideOperand r }
      let (s, k) := chargeKnown (putUnit s e) e
      (noteClass s u r k, k)

/-! ### Switch-over (R447–R450) -/

/-- The dies of the active steward and of the standby. -/
def activeDie (s : State) : DieId := if s.steward.activeSb then 32 else 30

/-- The die of the standby. -/
def standbyDie (s : State) : DieId := if s.steward.activeSb then 30 else 32

/-- Raise a cause of the active queue, with a record of a class of the steward's own. -/
def raiseOwn (s : State) (cause cls : Nat) : State :=
  ownRecord (setCause s (activeQueue s) cause 0) (activeQueue s) cause cls Occur.none

/-- The active steward has failed: the standby takes over, or the device stops where there is none (R447, R450). -/
def startSwitch (s : State) : State :=
  if s.steward.switching.isSome || s.steward.failed then s
  else if s.steward.standbyOk then { s with steward := { s.steward with switching := some s.now } }
  else haltStride { s with steward := { s.steward with failed := true } }

/-- The standby has failed: it is fenced (R450). -/
def failStandby (s : State) : State :=
  if s.steward.standbyOk then
    let s := fenceDie { s with steward := { s.steward with standbyOk := false, missedAcks := 0 } } (standbyDie s)
    raiseOwn s 14 7
  else s

/-- The 24 counters of a page go over to another page. -/
def copyCounters (a b : Block) (l : List (Nat × Nat)) : List (Nat × Nat) :=
  (List.range 24).foldl (fun l k => tset 0 l (b.page * 24 + k) (tget 0 l (a.page * 24 + k))) l

/-- The counters and latched counters of a page go over to another page. -/
def mirrorCounters (s : State) (a b : Block) : State :=
  { s with counters := copyCounters a b s.counters, latched := copyCounters a b s.latched }

/-- Registers and counters of a page go over to another page, which has held the same at every moment. -/
def mirrorPage (s : State) (a b : Block) : State :=
  mirrorCounters ((s.regs.filter (fun x => x.1 / 4096 = a.page)).foldl (fun s x => rput s b (x.1 % 4096) x.2)
    { s with regs := s.regs.filter (fun x => x.1 / 4096 ≠ b.page) }) a b

/-- The switch-over: the standby becomes the active steward within 30 µs, and the former one is fenced. -/
def switchOver (s : State) : State :=
  match s.steward.switching with
    | none => s
    | some t =>
      let n := Config.pauseNs s.fresh % 30001
      let s := useFresh { s with now := max s.now (t + n) }
      let old : Fin 2 := if s.steward.activeSb then 1 else 0
      let new : Fin 2 := if s.steward.activeSb then 0 else 1
      let s := mirrorPage (mirrorPage s (.mgmt old) (.mgmt new)) (.stride old) (.stride new)
      let s := mirrorPage (mirrorPage s (.errq old) (.errq new)) (.security old) (.security new)
      let former := activeDie s
      let s := { s with steward := { s.steward with activeSb := !s.steward.activeSb, standbyOk := false, switching := none,
                                                    missedBeats := 0, missedAcks := 0 } }
      let s := stepSkip (fenceDie s former) 8
      let q := activeQueue s
      let s := rputField s q Reg.Erq.STEWARD_STATE 31 16 (sat 16 (rfield s q Reg.Erq.STEWARD_STATE 31 16 + 1))
      let s := rput s q Reg.Erq.LAST_SWITCH (wordOf (s.now - t))
      raiseOwn (countLife (bump s q 13 1) 2) 13 7

/-- SWITCHOVER. -/
def execSwitchover (s : State) : Host.Outcome State Fault Refusal := .next (switchOver s)

/-- SWITCH_REQ.GO: software asks for a switch-over; with no standby there is none to switch to. -/
def switchRequest (s : State) : State := if s.steward.standbyOk then startSwitch s else s

/-- SWITCH_REQ. -/
def execSwitchReq (s : State) : Host.Outcome State Fault Refusal := .next (switchRequest s)

/-- HEARTBEAT: a heartbeat of the active steward reaches the standby or not, and its acknowledgement comes back or not. -/
def execHeartbeat (delivered acked : Bool) (s : State) : Host.Outcome State Fault Refusal :=
  .next (
    if !s.steward.standbyOk || s.steward.failed || s.steward.switching.isSome then s
    else
      let beats := if delivered then 0 else s.steward.missedBeats + 1
      let acks := if delivered && acked then 0 else if delivered then s.steward.missedAcks + 1 else s.steward.missedAcks
      let s := if delivered then s else bump s (activeQueue s) 14 1
      let s := { s with steward := { s.steward with missedBeats := beats, missedAcks := acks } }
      if 4 ≤ beats then startSwitch s
      else if 4 ≤ acks then failStandby s
      else s)

/-- What a record other than CORRECTED or CONFIG does that is charged to a block of a steward (R447, R450). -/
def stewardCharged (s : State) (c : Charge) (k : Nat) : State :=
  match c with
  | .unit (.die d) =>
    if k = 0 || k = 5 then s
    else if d = activeDie s then startSwitch s
    else if d = standbyDie s then failStandby s
    else s
  | _ => s

/-! ### Handling and the log (R419, R423, R424) -/

/-- HANDLING: the steward removes the next record, charges and classifies it, and logs it. HANDLING shows its unit until
it has been logged. -/
def execHandling (s : State) : Host.Outcome State Fault Refusal :=
  .next (match s.steward.queue with
    | [] => s
    | r :: rest =>
      if s.steward.switching.isSome || s.steward.failed then s
      else
        let s := { s with steward := { s.steward with queue := rest, handling := some r } }
        let c := chargeOf s r
        let (s, k) := match c with
          | .cls k => (s, k)
          | .unit u => chargeUnit s u r
        let (s, logged) := writeLog (countClass s k) r k
        let s := if logged then { s with steward := { s.steward with handling := none } } else s
        stewardCharged s c k)

/-- A write of LOG_SIZE commits the staged base and the new size; one that leaves HBM, or whose size is none of 6 to 16,
is ignored with LOG_RANGE. -/
def writeLogSize (s : State) (v : Word) : State :=
  let q := activeQueue s
  let n := bits v 4 0
  let base := rget64 s q Reg.Erq.LOG_BASE_LO Reg.Erq.LOG_BASE_HI
  if 6 ≤ n && n ≤ 16 && base + 64 * 2 ^ n ≤ hbmSize then
    let s := { s with steward := { s.steward with logBase := base, logLog2 := n } }
    rput (rput (rput s q Reg.Erq.LOG_SIZE (wordOf n)) q Reg.Erq.LOG_HEAD 0) q Reg.Erq.LOG_TAIL 0
  else raise s q 17

/-- LOG_SIZE. -/
def execLogSize (v : Word) (s : State) : Host.Outcome State Fault Refusal := .next (writeLogSize s v)

/-! ### Sentinels (R439) -/

/-- The smallest of some slacks. -/
def minSlack (l : List Int) : Int := (l.drop 1).foldl min (l.headD 0)

/-- A slack in two's complement ps. -/
def slackWord (x : Int) : Word := wordOf (BitVec.ofInt 16 x).toNat

/-- MARGIN_EXHAUSTED: logged with class UNRETIRABLE by way of its record, and by the steward itself where ERR_ENABLE lets none go
(R48, R439). -/
def marginExhausted (s : State) (b : Block) (o : Occur) : State :=
  let s := raiseWith s b 9 o
  if rbit s b Reg.Hdr.ERR_ENABLE 9 then s else ownRecord s b 9 4 o

/-- The steward takes a sample of a die's slack. -/
def sampleDie (s : State) (d : DieId) (x : Int) (failing : BitVec 8) : State :=
  let b : Block := .sensors d
  let q := activeQueue s
  let l := (x :: tget [] s.steward.slacks d.val).take 64
  let m := minSlack l
  let low : Int := rfield s q Reg.Erq.POLICY2 23 16
  let changing := rbit s (.clock d) Reg.Clk.RAIL_PENDING 31 || rbit s (.clock d) Reg.Clk.CLOCK_PENDING 31
  let off := tget 0 s.steward.holdOff d.val
  let off' := if changing then off else off - 1
  let s := { s with steward := { s.steward with slacks := tset [] s.steward.slacks d.val l,
                                                holdOff := tset 0 s.steward.holdOff d.val off' } }
  let s := rput (rput s b Reg.Sns.SLACK_NOW (slackWord x)) b Reg.Sns.SLACK_MIN (slackWord m)
  let s := bump (rput s b Reg.Sns.SENTINEL_FAIL (wordOf failing.toNat)) b 0 1
  let s := if x < low then bump s b 1 1 else s
  let s := if failing ≠ 0 then bump s b 2 1 else s
  if m < low then
    let o : Occur := { Occur.none with syn :=
      [rget s b Reg.Sns.SLACK_MIN, rget s (.clock d) Reg.Clk.RAIL_OFFSET, rget s (.clock d) Reg.Clk.CLOCK_STEP, 0] }
    let s := raiseWith s b 8 o
    if off' ≠ 0 then s
    else
      match marginStep s d 15 o with
      | some s => setCause { s with steward := { s.steward with holdOff := tset 0 s.steward.holdOff d.val 64 } } q 15 0
      | none => marginExhausted s b o
  else s

/-- SENTINEL_SAMPLE: the slack of every die, in the order of their numbers, and its failing sentinels. -/
def execSentinelSample (slack : List Int) (failing : List (BitVec 8)) (s : State) : Host.Outcome State Fault Refusal :=
  .next (
    if s.steward.failed then s
    else (List.finRange 33).foldl (fun s d => match slack[d.val]? with
      | some x => if d.val = 31 then s else sampleDie s d x (failing.getD d.val 0)
      | none => s) s)

end Sys2Proof.Machine
end

