-- ==== Sys2Proof/Machine/Startup.lean ====
section
/-!
DEFINITION. Resets of the device (R477, R524) and the states of start-up (R478–R481, R491, R492, R535).
-/
namespace Sys2Proof.Machine

/-! ### Device reset (R477) -/

/-- The register TRIP_INFO is kept through RESET_N and RESET_REQ. -/
abbrev thermalPage : Block := .glob 3

/-- The management page of the active steward. -/
def activeMgmt (s : State) : Block := .mgmt (if s.steward.activeSb then 1 else 0)

/-- The security page of the active steward. -/
def activeSecurity (s : State) : Block := .security (if s.steward.activeSb then 1 else 0)

/-- The filtered inputs through a reset: an input that is asserted already makes no edge until it has been released
(R500). -/
def inputsAtReset (x : Inputs) : Inputs := { Inputs.reset with perst := x.perst, presence := x.presence }

/-- A device reset: every block at its reset values, work in progress lost, start-up from its beginning. Kept are the time
base, the flash, what stands outside the device (levels of pins, poison in the expanders, faults of the arrays), and,
unless the power was off, THERMTRIP_N with TRIP_INFO and the count of resets. -/
def resetDevice (s : State) (cause : Nat) (power : Bool) : State :=
  let seen := if power then 0 else ctr s (activeMgmt s) 0
  let trip := if power then 0 else rget s thermalPage Reg.Thm.TRIP_INFO
  let held := s.inputs.resetHeld
  let r : State :=
    { State.reset with
      pending := s.pending, now := s.now, fresh := s.fresh, outputs := s.outputs, epoch := s.epoch + 1,
      slowPoison := s.slowPoison, arrayFaults := s.arrayFaults, flash := s.flash,
      tripped := s.tripped && !power, tap := if power then Tap.reset else tapAtReset s.tap,
      inputs := { inputsAtReset s.inputs with resetHeld := held },
      boot := { Boot.reset with resetAt := s.now, romPassed := s.boot.romPassed && !power } }
  let r := countLife (rput r thermalPage Reg.Thm.TRIP_INFO trip) 1
  [Block.mgmt 0, .mgmt 1].foldl (fun r b => bump (rput r b Reg.Mgm.RESET_CAUSE (wordOf cause)) b 0 (seen + 1)) r

/-- POWER_ON: power-on reset ends, and start-up begins (R524). -/
def execPowerOn (s : State) : Host.Outcome State Fault Refusal := .next (resetDevice s 0 true)

/-- RESET_N: its accepted assertion resets the device and holds it; its release starts start-up. -/
def execResetN (asserted : Bool) (s : State) : Host.Outcome State Fault Refusal :=
  .next (
    if asserted then
      if s.inputs.resetHeld then s
      else resetDevice { s with inputs := { s.inputs with resetHeld := true } } 1 false
    else if s.inputs.resetHeld then
      { s with inputs := { s.inputs with resetHeld := false }, boot := { s.boot with resetAt := s.now } }
    else s)

/-- A write of RESET_REQ: with KEY 0xB007 and GO, a device reset 10 µs later; with any other KEY it is ignored. -/
def writeResetReq (s : State) (v : Word) : State :=
  if bits v 31 16 = 0xB007 && bit v 0 && s.resetReq.isNone then { s with resetReq := some (s.now + 10000) } else s

/-- RESET_REQ. -/
def execResetReq (v : Word) (s : State) : Host.Outcome State Fault Refusal := .next (writeResetReq s v)

/-- DEVICE_RESET: the reset that RESET_REQ asked for. -/
def execDeviceReset (s : State) : Host.Outcome State Fault Refusal :=
  .next (match s.resetReq with
    | none => s
    | some t => resetDevice { s with now := max s.now t } 2 false)

/-- Both feeds of a rail are lost: a brown-out; on VIN_STEW and VDD_IO it ends in a power-on reset (R494, R524). -/
def brownOut (s : State) (rail : Fin 4) : State :=
  if rail.val < 2 then resetDevice s 3 false else resetDevice s 0 true

/-- BROWN_OUT. -/
def execBrownOut (rail : Fin 4) (s : State) : Host.Outcome State Fault Refusal :=
  .next (if s.inputs.resetHeld then s else brownOut s rail)

/-! ### The states of start-up (R478, R479) -/

/-- Is start-up in a state, with the device not held in reset? -/
def inPhase (s : State) (p : BootPhase) : Bool := s.boot.phase = p && !s.inputs.resetHeld

/-- A state of start-up ends within a bound, in ns from the beginning. -/
def endsWithin (s : State) (bound : Nat) : State :=
  useFresh { s with now := max s.now (s.boot.resetAt + Config.pauseNs s.fresh % (bound + 1)) }

/-- Go on to a state. -/
def toPhase (s : State) (p : BootPhase) : State := { s with boot := { s.boot with phase := p } }

/-- BOOT_TIME: µs from the reset edge. -/
def noteBootTime (s : State) : State :=
  rput s (activeMgmt s) Reg.Mgm.BOOT_TIME (wordOf (sat 32 ((s.now - s.boot.resetAt) / 1000)))

/-- RECOVERY with a reason: NODE_ID reads 0, and the host port has BAR2_SIZES bit 0 alone (R479, R507). -/
def enterRecovery (s : State) (reason : Nat) : State :=
  hostBase (noteBootTime { s with boot := { s.boot with
    phase := .recovery, reason := reason, nodeId := 0, subsys := 0, bar2Sizes := 1, bar2Default := 0 } })

/-- ROM: the self-tests end. SA becomes active, or SB if SA fails; the other is fenced if it failed. If both fail, no state
is entered. -/
def execRom (saGood sbGood : Bool) (s : State) : Host.Outcome State Fault Refusal :=
  .next (
    if !inPhase s .rom || s.steward.failed then s
    else
      let s := endsWithin s 2000000
      let s := { s with steward := { s.steward with saPassed := saGood, sbPassed := sbGood, activeSb := !saGood,
                                                    standbyOk := saGood && sbGood } }
      if !saGood && !sbGood then { s with steward := { s.steward with failed := true, activeSb := false } }
      else
        let s := toPhase { s with boot := { s.boot with romPassed := true } } .identity
        if saGood && sbGood then s else fenceDie s (standbyDie s))

/-- Can the device secret be reconstructed: from the active steward, or from the other one if it passed ROM (R496)? -/
def secretKnown (s : State) : Bool :=
  if s.steward.activeSb then s.flash.pufGood.2
  else s.flash.pufGood.1 || (s.steward.sbPassed && s.flash.pufGood.2)

/-- IDENTITY: the device secret and the owner record (R490, R496). -/
def execIdentity (s : State) : Host.Outcome State Fault Refusal :=
  .next (
    if !inPhase s .identity then s
    else
      let s := endsWithin s 5000000
      if !secretKnown s then enterRecovery s 5
      else
        let s := { s with boot := { s.boot with secret := true } }
        match s.flash.owner with
        | some (false, _) => enterRecovery s 4
        | _ => toPhase s .image)

/-- The key hash that an image's owner key must have at start-up: that of the owner record, if one stands (R490). -/
def ownerHash (s : State) : Option (List Byte) := s.flash.owner.map (fun (x : Bool × List Byte) => x.2)

/-- The device runs an image (R491): the host port has its configuration. -/
def acceptImage (s : State) (i : Image) : State :=
  { s with boot := { s.boot with
      serial := i.serial, imageHash := i.hash, ownerKey := i.ownerKey, config := i.device, repair := i.repair,
      subsys := leNat (i.host.take 4), bar2Sizes := leNat (slice i.host 4 2), bar2Default := leNat (slice i.host 6 1) } }

/-- IMAGE: the image in flash is checked (R489). -/
def execImage (s : State) : Host.Outcome State Fault Refusal :=
  .next (
    if !inPhase s .image then s
    else
      let s := endsWithin s (9000000 + 2700000 * s.flash.image.length / 2 ^ 20)
      match checkImage s.flash.image s.flash.minSerial (ownerHash s) with
      | .error reason => enterRecovery s reason
      | .ok i => toPhase (hostBase (acceptImage s i)) .configure)

/-- A core that start-up retires: RETIRED and fenced on its pages, its CP disabled, powered down (R432, R446). -/
def retireAtStart (s : State) (c : CoreId) : State :=
  let s := (coreBlocks c).foldl (fun s b => rputBit (rputBit s b Reg.Hdr.STATUS 4 true) b Reg.Hdr.CTRL 2 true) s
  let s := rputBit s (.cp c) Reg.Hdr.CTRL 0 false
  rputBit s (.proxy (Fin.ofNat 33 (c.val / 8))) Reg.Prx.CORE_POWER (c.val % 8) true

/-- Apply an entry of the repair map (R433, R486). Lane repair of a stack shows in no register. -/
def applyRepair (s : State) (e : Nat × Nat × Nat × Nat) : State :=
  match e with
  | (kind, d, u, x) =>
    let core : CoreId := Fin.ofNat 128 (d * 8 + u)
    let stack : StackId := Fin.ofNat 16 ((d - 24) * 4 + u)
    let port : NauloId := Fin.ofNat 16 ((d - 28) * 8 + u)
    let die : DieId := if d = 31 then 32 else Fin.ofNat 33 d
    match kind with
    | 1 => orReg s (.array core) Reg.Arr.LANE_RETIRED (wordOf x)
    | 2 => orReg s (.array core) Reg.Arr.CHECK_COL_RETIRED (wordOf x)
    | 3 => retireAtStart s core
    | 4 => rputBit s (.array core) Reg.Arr.PRECISION 0 true
    | 5 => orReg s (.hbm stack) Reg.Hbm.PC_RETIRED (wordOf x)
    | 7 => orReg s (.naulo port) Reg.Nau.LANE_RETIRED (wordOf x)
    | 8 =>
      let k : Fin 4 := Fin.ofNat 4 u
      let p := getPath s die k
      putPath s die k { p with spares := p.spares - 1 }
    | _ => s

/-- The image's clock steps and rail offsets: index 31 is SB (R485). -/
def applyClocks (s : State) : State :=
  (List.range 32).foldl (fun s i =>
    let d : DieId := if i = 31 then 32 else Fin.ofNat 33 i
    clockFromImage s d i) s

/-- Apply the image (R478, R491). -/
def applyImage (s : State) : State :=
  let c := s.boot.config
  let s := { s with boot := { s.boot with nodeId := Fin.ofNat 32768 (leNat (c.take 2)), hbmShared := leNat (slice c 2 1) } }
  s.boot.repair.foldl applyRepair (applyClocks (hostBase s))

/-- A feed of a rail as CONFIGURE finds it: one that is absent is held out (R492). -/
def feedFound (present : Bool) : Feed :=
  { good := present, ok := present, held := !present, told := true, lostAt := [] }

/-- Key of a feed. -/
def feedKey (rail : Fin 4) (feedB : Bool) : Nat := 2 * rail.val + if feedB then 1 else 0

/-- A feed. -/
def getFeed (s : State) (rail : Fin 4) (feedB : Bool) : Feed := tget Feed.reset s.feeds (feedKey rail feedB)

/-- Replace it. -/
def putFeed (s : State) (rail : Fin 4) (feedB : Bool) (x : Feed) : State :=
  { s with feeds := tset Feed.reset s.feeds (feedKey rail feedB) x }

/-- Does every rail have the feeds that start-up asks for? -/
def feedsEnough (a b : BitVec 4) (single : Bool) : Bool :=
  (List.range 4).all (fun r => if single then a.getLsbD r || b.getLsbD r else a.getLsbD r && b.getLsbD r)

/-- CONFIGURE: the image is applied, the stacks and the links are trained and the feeds checked. -/
def execConfigure (stacksGood : List Bool) (feedsA feedsB : BitVec 4) (s : State) : Host.Outcome State Fault Refusal :=
  .next (
    if !inPhase s .configure then s
    else
      let s := endsWithin s (79000000 + 2700000 * s.flash.image.length / 2 ^ 20)
      let single := leNat (slice s.boot.config 3 1) = 1
      let s := applyImage s
      if (List.range 16).any (fun i => !stacksGood.getD i true) then enterRecovery s 6
      else if !feedsEnough feedsA feedsB single then enterRecovery s 8
      else
        let s := (List.finRange 4).foldl (fun s r =>
          putFeed (putFeed s r false (feedFound (feedsA.getLsbD r.val))) r true (feedFound (feedsB.getLsbD r.val))) s
        toPhase s .test)

/-! ### TEST and READY (R480, R535) -/

/-- How the core test of a core ended. -/
inductive CoreTest where
  | passed
  | lanes (mask : Word)
  | failed
  deriving DecidableEq, Repr

/-- Read the two tokens, low one first. -/
def coreTest (limit : Nat) (r : Option (Tag × Tag)) : CoreTest :=
  match r with
  | none => .failed
  | some (a, b) =>
    let m := wordOf (a.toNat + b.toNat * 65536)
    if m = 0 then .passed
    else if m = 0xFFFFFFFF || limit < popCount m then .failed
    else .lanes m

/-- A failure of the core test: logged as PERMANENT, and the core's bit in TEST_FAILED. -/
def noteTestFailed (s : State) (c : CoreId) : State :=
  let s := rputBit s (activeMgmt s) (Reg.Mgm.TEST_FAILED + 4 * (c.val / 32)) (c.val % 32) true
  sendRecord s (.array c) Config.degradeCause Occur.none (some 3)

/-- The core test of one core; one that the repair map retires is not tested. -/
def testCore (s : State) (c : CoreId) (r : Option (Tag × Tag)) : State :=
  if rbit s (.cp c) Reg.Hdr.STATUS 4 then s
  else
    let s := bump s (activeMgmt s) 1 1
    match coreTest (rfield s (activeQueue s) Reg.Erq.POLICY 11 8) r with
    | .passed => s
    | .lanes m => noteTestFailed (bump (orReg s (.array c) Reg.Arr.LANE_RETIRED m) (activeMgmt s) 3 (popCount m)) c
    | .failed => noteTestFailed (bump (retireAtStart s c) (activeMgmt s) 2 1) c

/-- What R535 leaves in the memories: zero with good codes and parity, and nothing in a semaphore or a baton; the slow tier
is as it was. -/
def clearMemories (s : State) : State :=
  { s with mem := s.mem.filter (fun x => slowBase ≤ x.1), badParity := [], larderFlips := [], hbmFlips := [], reported := [],
           banks := [], batons := [], filling := [], firstPoison := [] }

/-- The descriptor tables have been filled. -/
def tablesFilled (s : State) : State :=
  allFronts.foldl (fun s f => rputBit s (descBlock f) (clearingOff f) 31 false) s

/-- READY: the Naulo ports start training, and BOOT_TIME is known (R371, R478). -/
def becomeReady (s : State) : State :=
  let s := toPhase (clearMemories s) .ready
  let s := (List.finRange 128).foldl (fun s c =>
    rputBit (rputBit s (.cp c) Reg.Hdr.CTRL 0 false) (.cp c) Reg.Cp.RING_CTRL 1 true) (tablesFilled s)
  let s := (List.finRange 16).foldl (fun s p => putPort s p { NauloPort.reset with state := 1 }) s
  noteBootTime s

/-- TEST: the memories are filled and tested and every core runs its test; then the device is READY. -/
def execTest (results : List (Option (Tag × Tag))) (s : State) : Host.Outcome State Fault Refusal :=
  .next (
    if !inPhase s .test then s
    else
      let s := endsWithin s (239000000 + 2700000 * s.flash.image.length / 2 ^ 20)
      becomeReady ((List.finRange 128).foldl (fun s c => testCore s c (results.getD c.val none)) s))

/-! ### The outputs of R520 -/

/-- FAULT_N is asserted. -/
def faultAsserted (s : State) : Bool := !s.boot.romPassed || s.boot.phase = .recovery || s.steward.failed

/-- READY is high. -/
def readyHigh (s : State) : Bool := isReady s && !s.inputs.resetHeld

/-- THERMTRIP_N is asserted. -/
def thermtripAsserted (s : State) : Bool := s.tripped

/-- XSPI_RESET_N is low. -/
def xspiResetLow (s : State) : Bool := s.inputs.resetHeld

end Sys2Proof.Machine
end

