-- ==== Sys2Proof/Machine/Board.lean ====
section
/-!
DEFINITION. The supplies (R493–R495), the board inputs (R500, R521, R522) and the temperature limits (R525, R526). While
RESET_N is asserted, every other input is ignored (R522).
-/
namespace Sys2Proof.Machine

/-! ### Supplies (R493–R495) -/

/-- The supplies page. -/
abbrev supplyPage : Block := .glob 1

/-- The board inputs page. -/
abbrev boardPage : Block := .glob 2

/-- An occurrence of a cause whose record has a class of its own. -/
def raiseClass (s : State) (b : Block) (cause cls : Nat) : State :=
  let s := setCause s b cause 0
  if rbit s b Reg.Hdr.ERR_ENABLE cause then sendRecord s b cause Occur.none (some cls) else s

/-- The throttle holds until 5 µs after a loss; the ns throttled are counted once (R494, R522). -/
def throttle (s : State) : State :=
  let till := s.now + 5000
  bump { s with throttleUntil := some till } supplyPage 2 (till - max s.now (s.throttleUntil.getD s.now))

/-- A feed is held out at its fourth loss within 60 s (R495). -/
def heldOut (now : Nat) (l : List Nat) : Bool :=
  match l[3]? with
  | some t => now ≤ t + 60000000000
  | none => false

/-- A feed of a rail is lost, while the other carries it (R494). -/
def loseFeed (s : State) (rail : Fin 4) (feedB : Bool) : State :=
  let x := getFeed s rail feedB
  let l := (s.now :: x.lostAt).take 4
  let held := heldOut s.now l
  let s := putFeed s rail feedB { good := false, ok := false, held := held, told := false, lostAt := l }
  let s := rput s supplyPage Reg.Sup.LAST_LOSS (wordOf (rail.val + if feedB then 16 else 0))
  let s := throttle (bump s supplyPage 0 1)
  if held then raise s supplyPage 9 else s

/-- FEED_LOST: every die throttles; the loss of both feeds of a rail is a brown-out. -/
def execFeedLost (rail : Fin 4) (feedB : Bool) (s : State) : Host.Outcome State Fault Refusal :=
  .next (
    if s.inputs.resetHeld || !(getFeed s rail feedB).ok then s
    else if !(getFeed s rail (!feedB)).ok then brownOut s rail
    else loseFeed s rail feedB)

/-- The feeds, by rail and group. -/
def allFeeds : List (Fin 4 × Bool) := (List.finRange 4).flatMap (fun r => [(r, false), (r, true)])

/-- FEED_LOST is raised for a feed whose loss has not been told yet. -/
def tellLoss (s : State) (f : Fin 4 × Bool) : State :=
  let x := getFeed s f.1 f.2
  if x.told then s
  else raiseClass (rputBit (putFeed s f.1 f.2 { x with told := true }) supplyPage Reg.Hdr.STATUS 5 true) supplyPage 8 6

/-- THROTTLE_END: the throttle lifts, and FEED_LOST is raised with a record of class DEGRADE. -/
def execThrottleEnd (s : State) : Host.Outcome State Fault Refusal :=
  .next (match s.throttleUntil with
    | none => s
    | some t => allFeeds.foldl tellLoss { s with now := max s.now t, throttleUntil := none })

/-- FEED_REJOIN: a lost feed that is not held out has been within limits for 100 ms. DEGRADED clears once every feed is in
use. -/
def execFeedRejoin (rail : Fin 4) (feedB : Bool) (s : State) : Host.Outcome State Fault Refusal :=
  .next (
    let x := getFeed s rail feedB
    if s.inputs.resetHeld || x.ok || x.held || s.feeds = [] then s
    else
      let since := x.lostAt.headD s.now
      let s := putFeed { s with now := max s.now (since + 100000000) } rail feedB { x with good := true, ok := true }
      let s := bump s supplyPage 1 1
      if allFeeds.all (fun (f : Fin 4 × Bool) => (getFeed s f.1 f.2).ok) then rputBit s supplyPage Reg.Hdr.STATUS 5 false
      else s)

/-- A write of FEED_CTRL.REARM: no feed is held out any more. -/
def writeRearm (s : State) : State :=
  { s with feeds := s.feeds.map (fun (f : Nat × Feed) => (f.1, { f.2 with held := false })) }

/-- REARM. -/
def execRearm (s : State) : Host.Outcome State Fault Refusal := .next (writeRearm s)

/-- A write of FEED_SHARE: limited to 32–224 (R493). -/
def writeFeedShare (s : State) (v : Word) : State :=
  rput s supplyPage Reg.Sup.FEED_SHARE (wordOf (max 32 (min 224 (bits v 7 0))))

/-- FEED_SHARE. -/
def execFeedShare (v : Word) (s : State) : Host.Outcome State Fault Refusal := .next (writeFeedShare s v)

/-! ### Presence (R500, R521) -/

/-- Change the inputs. -/
def modInputs (s : State) (f : Inputs → Inputs) : State := { s with inputs := f s.inputs }

/-- An accepted assertion of PRESENCE_N: less than 1 s after the one before, it opens nothing and is counted. -/
def presenceEdge (s : State) : State :=
  let fast : Bool := match s.inputs.presenceAt with
    | some t => s.now < t + 1000000000
    | none => false
  let at' := s.now
  let s := modInputs s (fun x => { x with presence := true, presenceAt := some at' })
  if fast then bump s boardPage 2 1
  else bump (modInputs s (fun x => { x with windowOpen := some at' })) (activeSecurity s) 2 1

/-- PRESENCE_N: a filtered edge. -/
def execPresenceN (asserted : Bool) (s : State) : Host.Outcome State Fault Refusal :=
  .next (
    if s.inputs.resetHeld then s
    else if asserted then (if s.inputs.presence then s else presenceEdge s)
    else modInputs s (fun x => { x with presence := false, presenceStuck := false }))

/-- PRESENCE_WINDOW_CLOSE: 120 s after its edge. -/
def execPresenceWindowClose (s : State) : Host.Outcome State Fault Refusal :=
  .next (match s.inputs.windowOpen with
    | some t => modInputs { s with now := max s.now (t + 120000000000) } (fun x => { x with windowOpen := none })
    | none => s)

/-- PRESENCE_STUCK: asserted over 600 s, once for each assertion. -/
def execPresenceStuck (s : State) : Host.Outcome State Fault Refusal :=
  .next (match s.inputs.presenceAt with
    | some t =>
      if s.inputs.presence && !s.inputs.presenceStuck then
        let s := modInputs { s with now := max s.now (t + 600000000000) } (fun x => { x with presenceStuck := true })
        raise (bump s boardPage 8 1) boardPage 11
      else s
    | none => s)

/-! ### The board alarm (R521) -/

/-- BOARD_ALARM: an accepted assertion; the third within 10 ms begins the chatter hold. -/
def execBoardAlarm (s : State) : Host.Outcome State Fault Refusal :=
  .next (
    if s.inputs.resetHeld then s
    else
      let t := s.now
      let l := (t :: s.inputs.alarmAt).take 3
      let chatters : Bool := match l[2]? with
        | some u => t ≤ u + 10000000 && !s.inputs.chatter
        | none => false
      let s := modInputs s (fun x => { x with
        alarm := true, alarmPin := true, alarmAt := l, alarmStuck := false,
        alarmSince := if x.alarm then x.alarmSince else t, chatter := x.chatter || chatters })
      let s := raise (bump s boardPage 4 1) boardPage 8
      match chatters with
      | true => raise (bump s boardPage 5 1) boardPage 9
      | false => s)

/-- The alarm ends: with ACTION 1, its throttle ends and the ns throttled are counted. -/
def endAlarm (s : State) : State :=
  let n := s.now - s.inputs.alarmSince
  let s := if rbit s boardPage Reg.Brd.ALARM_CTRL 0 then bump s boardPage 6 n else s
  modInputs s (fun x => { x with alarm := false, alarmPin := false, alarmStuck := false, chatter := false })

/-- ALARM_RELEASE: the input is released; a chatter hold ends once it has stayed so for 100 ms. -/
def execAlarmRelease (s : State) : Host.Outcome State Fault Refusal :=
  .next (
    if s.inputs.resetHeld || !s.inputs.alarm then s
    else if s.inputs.chatter then endAlarm { s with now := max s.now (s.inputs.alarmAt.headD 0 + 100000000) }
    else endAlarm s)

/-- ALARM_CTRL.STUCK_MS; 0 reads as 1. -/
def stuckMs (s : State) : Nat := max 1 (rfield s boardPage Reg.Brd.ALARM_CTRL 31 16)

/-- ALARM_STUCK: asserted longer than STUCK_MS; one record, and ACTION continues. -/
def execAlarmStuck (s : State) : Host.Outcome State Fault Refusal :=
  .next (
    if s.inputs.alarmPin && !s.inputs.alarmStuck then
      let s := { s with now := max s.now (s.inputs.alarmAt.headD 0 + stuckMs s * 1000000) }
      raise (bump (modInputs s (fun x => { x with alarmStuck := true })) boardPage 8 1) boardPage 10
    else s)

/-- Does a die throttle: for a feed loss, for the alarm, or for its own temperature (R522)? The sources do not add. -/
def throttled (s : State) (d : DieId) : Bool :=
  s.throttleUntil.isSome || (s.inputs.alarm && rbit s boardPage Reg.Brd.ALARM_CTRL 0) ||
  rbit s thermalPage Reg.Thm.THROTTLED (dieBit d)

/-! ### Temperature (R525, R526) -/

/-- A temperature as a register holds it: 0.125 °C units in two's complement. -/
def tempWord (t : Int) : Word := wordOf (BitVec.ofInt 16 t).toNat

/-- A temperature limit. -/
def tempLimit (s : State) (off : Nat) : Int := signed 16 (rfield s thermalPage off 15 0)

/-- A sample of a die: DIE_TEMP, and its throttle begins or ends. -/
def sampleDieTemp (s : State) (d : DieId) (t : Int) : State :=
  let s := rput s (.sensors d) Reg.Sns.DIE_TEMP (tempWord t)
  let limit := tempLimit s Reg.Thm.THROTTLE_TEMP
  let on := rbit s thermalPage Reg.Thm.THROTTLED (dieBit d)
  if limit ≤ t && !on then
    raiseClass (bump (rputBit s thermalPage Reg.Thm.THROTTLED (dieBit d) true) thermalPage 0 1) thermalPage 8 6
  else if t < limit - 40 && on then rputBit s thermalPage Reg.Thm.THROTTLED (dieBit d) false
  else s

/-- A sample of a stack: STACK_TEMP, and its throttle. -/
def sampleStackTemp (s : State) (st : StackId) (t : Int) : State :=
  let s := rput s (.hbm st) Reg.Hbm.STACK_TEMP (tempWord t)
  let limit := tempLimit s Reg.Thm.HBM_THROTTLE_TEMP
  let on := rbit s thermalPage Reg.Thm.HBM_HOT st.val
  if limit ≤ t && !on then
    raise (bump (rputBit s thermalPage Reg.Thm.HBM_HOT st.val true) thermalPage 2 1) thermalPage 9
  else if t < limit - 40 && on then rputBit s thermalPage Reg.Thm.HBM_HOT st.val false
  else s

/-- The dies that have sensors. -/
def sensorDies : List DieId := (List.finRange 33).filter (fun d => d.val ≠ 31)

/-- The hotter of two readings, the first of equal ones. -/
def hotter (a b : DieId × Int) : DieId × Int := if a.2 < b.2 then b else a

/-- HOTTEST and HOTTEST_DIE. -/
def noteHottest (s : State) (l : List (DieId × Int)) : State :=
  match l with
  | [] => s
  | x :: t =>
    let h := t.foldl hotter x
    rput (rput s thermalPage Reg.Thm.HOTTEST (tempWord h.2)) thermalPage Reg.Thm.HOTTEST_DIE (wordOf h.1.val)

/-- A trip (R526): THERMTRIP_N, the fence of every CD and MH die, the cause and TRIP_INFO. -/
def trip (s : State) (source : Nat) (t : Int) : State :=
  let s := emit { s with tripped := true } .thermTrip
  let s := sensorDies.foldl (fun s d => if d.val < 16 || (24 ≤ d.val && d.val < 28) then fenceDie s d else s) s
  let s := rput s thermalPage Reg.Thm.TRIP_INFO (wordOf (2 ^ 31 + source * 2 ^ 16 + (tempWord t).toNat))
  raise (bump s thermalPage 3 1) thermalPage 10

/-- Count the samples in succession at or above the trip limit; the tenth trips, once. -/
def tripSample (s : State) (source : Nat) (t limit : Int) : State :=
  let n := if limit ≤ t then tget 0 s.hotRuns source + 1 else 0
  let s := { s with hotRuns := tset 0 s.hotRuns source n }
  if 10 ≤ n && !s.tripped then trip s source t else s

/-- TEMP_SAMPLE: the readings of the dies, in the order of their numbers, and of the stacks. The time that any die is
throttled for temperature counts in steps of the sampling interval. -/
def execTempSample (dies hot : List Int) (s : State) : Host.Outcome State Fault Refusal :=
  .next (
    let d := sensorDies.filterMap (fun d => (dies[d.val]?).map (fun t => (d, t)))
    let h := (List.finRange 16).filterMap (fun st => (hot[st.val]?).map (fun t => (st, t)))
    let s := if rget s thermalPage Reg.Thm.THROTTLED = 0 then s else bump s thermalPage 1 100000
    let s := d.foldl (fun s (x : DieId × Int) => tripSample (sampleDieTemp s x.1 x.2) x.1.val x.2 920) s
    let s := h.foldl (fun s (x : StackId × Int) => tripSample (sampleStackTemp s x.1 x.2) (48 + x.1.val) x.2 840) s
    noteHottest s d)

/-- A write of a temperature limit, limited to its range (R525). -/
def writeTempLimit (s : State) (off : Nat) (hi : Int) (v : Word) : State :=
  rput s thermalPage off (tempWord (max 480 (min hi (signed 16 (bits v 15 0)))))

end Sys2Proof.Machine
end

