-- ==== Sys2Proof/Machine/Check.lean ====
section
/-!
DEFINITION. The check-value channels (R466–R476).
-/
namespace Sys2Proof.Machine

/-- The page of a channel. -/
def cvPage (ch : Fin 16) : Block := .glob (Fin.ofNat 256 (16 + ch.val))

/-- A channel's running state. -/
def getCv (s : State) (ch : Fin 16) : CvChan := tget CvChan.reset s.cvs ch.val

/-- Replace it. -/
def putCv (s : State) (ch : Fin 16) (v : CvChan) : State := { s with cvs := tset CvChan.reset s.cvs ch.val v }

/-- The parameters of a job, as its registers stand at GO. -/
structure CvJob where
  mode   : Nat
  poly   : Nat
  stream : Nat
  cont   : Bool
  cls    : SvcClass
  src    : Nat
  len    : Nat
  block  : Nat
  alive  : Nat
  deriving DecidableEq, Repr

/-- Read the parameters. -/
def cvJob (s : State) (ch : Fin 16) : CvJob :=
  let b := cvPage ch
  let c := rget s b Reg.Cv.CV_CTRL
  { mode := bits c 1 0, poly := bits c 3 2, stream := bits c 23 8, cont := bit c 5,
    cls := if bit c 6 then .bulk else .critical, src := rget64 s b Reg.Cv.CV_SRC_LO Reg.Cv.CV_SRC_HI,
    len := rget64 s b Reg.Cv.CV_LENGTH_LO Reg.Cv.CV_LENGTH_HI, block := (rget s b Reg.Cv.CV_BLOCK).toNat,
    alive := (rget s b Reg.Cv.CV_ALIVE_START).toNat }

/-- CV_STATE.STATE: 0 IDLE, 1 BUSY, 2 DONE, 3 FAILED. -/
def cvState (s : State) (ch : Fin 16) : Nat := rfield s (cvPage ch) Reg.Cv.CV_STATE 1 0

/-- Why a job fails at once (R473). -/
def cvInvalid (j : CvJob) (x : CvChan) : Bool :=
  j.len = 0 || j.mode = 3 || (crcOf j.poly).isNone ||
  (j.mode ≠ 0 && (j.block % 64 ≠ 0 || j.block < 64 || 65536 < j.block || j.len % j.block ≠ 0)) ||
  (j.mode = 0 && (j.block % 64 ≠ 0 || j.block < 64 || 65536 < j.block)) ||
  (j.cont && x.done ≠ some (j.mode, j.poly, j.stream))

/-- A job ends: GO, CV_STATE and the message (R471, R474, R476). -/
def cvEnd (s : State) (ch : Fin 16) (st : Nat) (pass : Bool) : State :=
  let b := cvPage ch
  let s := rput s b Reg.Cv.CV_STATE (wordOf (st + if pass then 4 else 0))
  let s := rputBit s b Reg.Cv.CV_CTRL 31 false
  if rbit s b Reg.Cv.CV_CTRL 7 then sendMsi s (rfield s b Reg.Cv.CV_VECTOR 10 0) else s

/-- The result registers, 0x124–0x150. -/
def cvResults : List Nat := (List.range 12).map (fun k => 0x124 + 4 * k)

/-- GO written 1 (R472, R473). -/
def cvGo (s : State) (ch : Fin 16) : State :=
  let b := cvPage ch
  let j := cvJob s ch
  let x := getCv s ch
  let s := bump s b 0 1
  if cvInvalid j x then
    cvEnd (raise (putCv s ch { x with done := none, finished := none }) b 9) ch 3 false
  else
    let k := (crcOf j.poly).getD crc32c
    let s := if j.cont then s else cvResults.foldl (fun s o => rput s b o 0) s
    let s := rput64 s b Reg.Cv.CV_PROGRESS_LO Reg.Cv.CV_PROGRESS_HI 0
    let x : CvChan :=
      { crc := if j.cont then x.crc else k.init, expected := if j.cont then x.expected else j.alive, last := none,
        done := none, finished := none }
    rputBit (rput (putCv s ch x) b Reg.Cv.CV_STATE 1) b Reg.Cv.CV_CTRL 31 true

/-- A write of CV_CTRL while no job runs. -/
def writeCvCtrl (s : State) (ch : Fin 16) (v : Word) : State :=
  let b := cvPage ch
  let s := rwrite s b Reg.Cv.CV_CTRL v
  if bit v 31 && rbit s b Reg.Hdr.CTRL 0 && !isFenced s b then cvGo s ch else s

/-- The request of a job. -/
def cvReq (ch : Fin 16) (j : CvJob) : Req := reqOf (cvPage ch) j.cls

/-- Read bytes for a job; counter 1 counts them. -/
def cvRead (s : State) (ch : Fin 16) (j : CvJob) (a n : Nat) : State × Status × List Byte :=
  match gRead s (cvReq ch j) a n with
  | (s, .ok, d) => (bump s (cvPage ch) 1 n, .ok, d)
  | x => x

/-- Bytes processed (CV_PROGRESS). -/
def cvProgress (s : State) (ch : Fin 16) (n : Nat) : State :=
  let b := cvPage ch
  rput64 s b Reg.Cv.CV_PROGRESS_LO Reg.Cv.CV_PROGRESS_HI (rget64 s b Reg.Cv.CV_PROGRESS_LO Reg.Cv.CV_PROGRESS_HI + n)

/-- Add to a count of the page, saturating. -/
def cvCount (s : State) (ch : Fin 16) (off n : Nat) : State :=
  rput s (cvPage ch) off (wordOf (sat 32 ((rget s (cvPage ch) off).toNat + n)))

/-- Carry the CRC of RESULT on over some bytes. -/
def cvCrc (s : State) (ch : Fin 16) (k : Crc) (d : List Byte) : State :=
  let x := getCv s ch
  putCv s ch { x with crc := k.update x.crc d }

/-- DIGEST over the requests of the range (R469). -/
def digestFrom (ch : Fin 16) (j : CvJob) (k : Crc) : List (Nat × Nat) → State → State × Status
  | [], s => (s, .ok)
  | (a, n) :: t, s =>
    match cvRead s ch j a n with
    | (s, .ok, d) => digestFrom ch j k t (cvProgress (cvCrc s ch k d) ch n)
    | (s, st, _) => (s, st)

/-- Trailer bytes 7:0 of a sealed block (R468). -/
def trailerHead (j : CvJob) (alive : Nat) : List Byte := bytesOf [wordOf alive, wordOf (j.stream + j.poly * 65536)]

/-- SEAL one block: its trailer is written (R468, R469). -/
def sealBlock (ch : Fin 16) (j : CvJob) (k : Crc) (a : Nat) (s : State) : State × Status :=
  match cvRead s ch j a (j.block - 16) with
  | (s, .ok, d) =>
    let x := getCv s ch
    let h := trailerHead j x.expected
    let t := h ++ bytesOf (words64 (k.of (d ++ h)))
    match gWrite s (cvReq ch j) (a + j.block - 16) t with
    | (s, .ok) =>
      let b := cvPage ch
      let s := cvCrc (bump (bump s b 2 16) b 3 1) ch k d
      let s := rput (cvCount s ch Reg.Cv.CV_BLOCKS 1) b Reg.Cv.CV_LAST_ALIVE (wordOf x.expected)
      let y := getCv s ch
      (cvProgress (putCv s ch { y with expected := (x.expected + 1) % 2 ^ 32 }) ch j.block, .ok)
    | (s, st) => (s, st)
  | (s, st, _) => (s, st)

/-- A flagged block: its count, counter 5, and CV_FIRST_BAD of the first one. -/
def cvFlag (s : State) (ch : Fin 16) (off n kind index : Nat) : State :=
  let b := cvPage ch
  let s := bump (cvCount s ch off n) b 5 1
  if rbit s b Reg.Cv.CV_FIRST_BAD 31 then s
  else rput s b Reg.Cv.CV_FIRST_BAD (wordOf (2 ^ 31 + kind * 2 ^ 28 + index % 2 ^ 28))

/-- An accepted block. -/
def cvAccept (s : State) (ch : Fin 16) (k : Crc) (alive : Nat) (d : List Byte) : State :=
  let b := cvPage ch
  let s := cvCrc (bump (cvCount s ch Reg.Cv.CV_BLOCKS 1) b 4 1) ch k d
  let x := getCv s ch
  rput (putCv s ch { x with expected := (alive + 1) % 2 ^ 32, last := some alive }) b Reg.Cv.CV_LAST_ALIVE (wordOf alive)

/-- Classify a block (R470). -/
def classifyBlock (s : State) (ch : Fin 16) (j : CvJob) (k : Crc) (index : Nat) (l : List Byte) : State :=
  let d := l.take (j.block - 16)
  let tr := wordsOf 4 (l.drop (j.block - 16))
  let alive := (wordAt tr 0).toNat
  let x := getCv s ch
  let diff := (alive + 2 ^ 32 - x.expected) % 2 ^ 32
  if cf64' tr ≠ k.of (l.take (j.block - 8)) then cvFlag s ch Reg.Cv.CV_BAD_CRC 1 0 index
  else if wordAt tr 1 ≠ wordOf (j.stream + j.poly * 65536) then cvFlag s ch Reg.Cv.CV_BAD_STREAM 1 1 index
  else if diff = 0 then cvAccept s ch k alive d
  else if x.last = some alive then cvFlag s ch Reg.Cv.CV_REPEATS 1 2 index
  else if diff < 2 ^ 31 then cvAccept (cvFlag s ch Reg.Cv.CV_SKIPPED diff 3 index) ch k alive d
  else cvFlag s ch Reg.Cv.CV_ORDER 1 4 index
where
  /-- CHECK of a trailer. -/
  cf64' (tr : List Word) : Nat := (wordAt tr 2).toNat + 2 ^ 32 * (wordAt tr 3).toNat

/-- VERIFY one block. -/
def verifyBlock (ch : Fin 16) (j : CvJob) (k : Crc) (a index : Nat) (s : State) : State × Status :=
  match cvRead s ch j a j.block with
  | (s, .ok, l) => (cvProgress (classifyBlock s ch j k index l) ch j.block, .ok)
  | (s, st, _) => (s, st)

/-- The blocks of a job in turn. -/
def blocksFrom (f : Nat → State → State × Status) : Nat → Nat → State → State × Status
  | 0, _, s => (s, .ok)
  | n + 1, i, s =>
    match f i s with
    | (s, .ok) => blocksFrom f n (i + 1) s
    | x => x

/-- The requests of a channel's job. -/
def jobBody (s : State) (ch : Fin 16) (j : CvJob) : State × Status :=
  let k := (crcOf j.poly).getD crc32c
  match j.mode with
  | 0 => digestFrom ch j k (requestCuts j.src j.len) s
  | 1 => blocksFrom (fun i => sealBlock ch j k (j.src + i * j.block)) (j.len / j.block) 0 s
  | _ => blocksFrom (fun i => verifyBlock ch j k (j.src + i * j.block) i) (j.len / j.block) 0 s

/-- The requests of a job have been made, or one of them must wait: then the job is run again by its row. -/
def jobDone (s0 : State) (ch : Fin 16) : State × Status → State
  | (t, .delayed) => settleWaits s0 t
  | (t, st) => putCv t ch { getCv t ch with finished := some (st = .ok) }

/-- Run the job of a channel in a mode, once it has been started. -/
def runJob (s : State) (ch : Fin 16) (mode : Nat) : State :=
  let j := cvJob s ch
  let x := getCv s ch
  if cvState s ch ≠ 1 || j.mode ≠ mode || x.finished.isSome then s
  else jobDone s ch (if isFenced s (cvPage ch) then (s, .aborted) else jobBody s ch j)

/-- DIGEST: the CRC of LENGTH bytes. -/
def execDigest (ch : Fin 16) (s : State) : Host.Outcome State Fault Refusal := .next (runJob s ch 0)

/-- SEAL: a trailer for each block. -/
def execSeal (ch : Fin 16) (s : State) : Host.Outcome State Fault Refusal := .next (runJob s ch 1)

/-- VERIFY: each block is classified. -/
def execVerify (ch : Fin 16) (s : State) : Host.Outcome State Fault Refusal := .next (runJob s ch 2)

/-- Has nothing been flagged (R471)? -/
def cvPass (s : State) (ch : Fin 16) : Bool :=
  [Reg.Cv.CV_BAD_CRC, Reg.Cv.CV_BAD_STREAM, Reg.Cv.CV_REPEATS, Reg.Cv.CV_SKIPPED, Reg.Cv.CV_ORDER].all
    (fun o => rget s (cvPage ch) o = 0)

/-- JOB_END: a job that has processed its range, or has been stopped, ends. -/
def execJobEnd (ch : Fin 16) (s : State) : Host.Outcome State Fault Refusal :=
  .next (
    let b := cvPage ch
    let j := cvJob s ch
    let x := getCv s ch
    match x.finished with
    | none => s
    | some false => cvEnd (raise (putCv s ch { x with finished := none, done := none }) b 10) ch 3 false
    | some true =>
      let k := (crcOf j.poly).getD crc32c
      let s := putCv s ch { x with finished := none, done := some (j.mode, j.poly, j.stream) }
      let s := rput64 s b Reg.Cv.CV_RESULT_LO Reg.Cv.CV_RESULT_HI (k.finish x.crc)
      let pass := cvPass s ch
      let s := if j.mode = 2 && !pass then raise s b 11 else s
      cvEnd s ch 2 pass)

end Sys2Proof.Machine
end

