-- ==== Sys2Proof/Machine/Collector.lean ====
section
/-!
DEFINITION. The trace collector (R461, R462, R465).
-/
namespace Sys2Proof.Machine

/-- A register of the collector. -/
def treg (s : State) (off : Nat) : Word := rget s tracePage off

/-- Slots of the ring. -/
def traceSlots (s : State) : Nat := 2 ^ bits (treg s Reg.Trc.TRACE_SIZE) 4 0

/-- Base of the ring. -/
def traceBase (s : State) : Nat := rget64 s tracePage Reg.Trc.TRACE_BASE_LO Reg.Trc.TRACE_BASE_HI

/-- Slots written and not yet read. -/
def traceUsed (s : State) : Nat := (treg s Reg.Trc.TRACE_TAIL - treg s Reg.Trc.TRACE_HEAD).toNat

/-- Write 16 words at the next slot. -/
def writeSlot (s : State) (ws : List Word) : State × Bool :=
  let tail := treg s Reg.Trc.TRACE_TAIL
  let a := traceBase s + 64 * (tail.toNat % traceSlots s)
  match postWrite s (reqOf tracePage .bulk) a (bytesOf ws) with
  | (s, .ok) => (rput s tracePage Reg.Trc.TRACE_TAIL (tail + 1), true)
  | (s, _) => (s, false)

/-- Write slots in turn. -/
def writeSlots (s : State) : List (List Word) → State × Bool
  | [] => (s, true)
  | w :: t =>
    match writeSlot s w with
    | (s, true) => writeSlots s t
    | x => x

/-- The record with the collector's SEQ (R461). -/
def stampSeq (s : State) (ws : List Word) : List Word := ws.set 10 (wordOf s.trace.seq)

/-- The LOST record of the drops so far. -/
def lostWords (s : State) : List Word :=
  stampSeq s (traceWords tracePage
    { kind := TraceKind.lost, tag := 0, object := 0, queue := 0, opcode := 0, value := s.trace.drops, start := waitNow s,
      length := 0, rel := Source.none, entry := 0 } 0)

/-- A record has been written: SEQ and the counters. -/
def countRecord (s : State) (kind : Nat) : State :=
  let s := bump { s with trace := { s.trace with seq := (s.trace.seq + 1) % 2 ^ 32 } } tracePage 0 1
  if kind = TraceKind.counters then bump s tracePage 5 1
  else if kind = TraceKind.lost then bump s tracePage 6 1
  else bump s tracePage 4 1

/-- Write a LOST record, where records have been dropped. -/
def writeLost (s : State) : State × Bool :=
  if s.trace.drops = 0 then (s, true)
  else
    match writeSlot s (lostWords s) with
    | (s, true) => (countRecord { s with trace := { s.trace with drops := 0 } } TraceKind.lost, true)
    | x => x

/-- TRACE_MARK has been reached: VECTOR (TRACE_CTRL.IRQ). -/
def traceIrq (s : State) (before : Nat) : State :=
  let c := treg s Reg.Trc.TRACE_CTRL
  let mark := bits (treg s Reg.Trc.TRACE_MARK) 24 0
  if bit c 3 && before < mark && mark ≤ traceUsed s then sendMsi s (bits c 26 16) else s

/-- A record arrives at the collector: it is written, after a LOST record if any was dropped, or dropped where the ring
has no room in STOP mode. -/
def takeRecord (s : State) (r : TraceRec) : State :=
  let n := 1 + r.slots.length + (if s.trace.drops = 0 then 0 else 1)
  let stop := !bit (treg s Reg.Trc.TRACE_CTRL) 1
  if stop && traceSlots s < traceUsed s + n then
    let s := if s.trace.fullSeen then s else raise { s with trace := { s.trace with fullSeen := true } } tracePage 9
    traceDrop s 2
  else
    let before := traceUsed s
    match writeLost s with
    | (s, false) => traceDrop s 2
    | (s, true) =>
      match writeSlots s (stampSeq s r.words :: r.slots) with
      | (s, true) => traceIrq (countRecord s (cf8 r.words)) before
      | (s, false) => traceDrop s 2
where
  /-- KIND of a record. -/
  cf8 (ws : List Word) : Nat := bits (wordAt ws 0) 7 0

/-- TRACE_RECORD: the record that was sent first reaches the collector. -/
def execTraceRecord (s : State) : Host.Outcome State Fault Refusal :=
  .next (match s.trace.queued with
    | [] => s
    | r :: t => takeRecord { s with trace := { s.trace with queued := t } } r)

/-- Is the trace off, and holds the collector no record (R465)? -/
def traceIdle (s : State) : Bool := !bit (treg s Reg.Trc.TRACE_CTRL) 0 && s.trace.queued = []

/-- Does the ring lie wholly in HBM? -/
def traceRingOk (s : State) : Bool := traceBase s + 64 * traceSlots s ≤ hbmSize

/-- A write of TRACE_CTRL (R465): MODE only while the trace is off, EN only with its ring in HBM. -/
def writeTraceCtrl (s : State) (v : Word) : State :=
  let old := treg s Reg.Trc.TRACE_CTRL
  let busy := !traceIdle s && bit v 1 ≠ bit old 1
  let bad := bit v 0 && !bit old 0 && !traceRingOk s
  let new := rwrite s tracePage Reg.Trc.TRACE_CTRL v
  let new := if busy then rputBit new tracePage Reg.Trc.TRACE_CTRL 1 (bit old 1) else new
  let new := if bad then rputBit new tracePage Reg.Trc.TRACE_CTRL 0 false else new
  let on := bit v 0 && !bit old 0 && !bad
  let new := if on then
      rput { new with trace := { new.trace with fullSeen := false } } tracePage Reg.Trc.TRACE_DROPPED 0 else new
  let new := if busy then raise new tracePage 8 else new
  if bad then raise new tracePage 10 else new

/-- TRACE_CTRL. -/
def execTraceCtrl (v : Word) (s : State) : Host.Outcome State Fault Refusal := .next (writeTraceCtrl s v)

/-- A write of TRACE_BASE_LO, TRACE_BASE_HI or TRACE_SIZE (R465): HEAD, TAIL and SEQ return to 0. A size outside 10 to 24
is ignored with TRACE_RANGE. -/
def writeTraceBase (s : State) (off : Nat) (v : Word) : State :=
  if !traceIdle s then raise s tracePage 8
  else if off = Reg.Trc.TRACE_SIZE && (bits v 4 0 < 10 || 24 < bits v 4 0) then raise s tracePage 10
  else
    let s := rwrite s tracePage off v
    let s := rput (rput s tracePage Reg.Trc.TRACE_HEAD 0) tracePage Reg.Trc.TRACE_TAIL 0
    { s with trace := { s.trace with seq := 0 } }

/-- TRACE_BASE: 0 for TRACE_BASE_LO, 1 for TRACE_BASE_HI, 2 for TRACE_SIZE. -/
def execTraceBase (offset : Fin 3) (v : Word) (s : State) : Host.Outcome State Fault Refusal :=
  .next (writeTraceBase s (match offset with
    | 0 => Reg.Trc.TRACE_BASE_LO
    | 1 => Reg.Trc.TRACE_BASE_HI
    | 2 => Reg.Trc.TRACE_SIZE) v)

end Sys2Proof.Machine
end

