-- ==== Sys2Proof/Machine/Security.lean ====
section
/-!
DEFINITION. The privileged operations of the steward (R496–R504) and the lifetime record (R482). A write of SEC_GO accepts
or refuses an operation; its own row runs it once start-up has ended.
-/
namespace Sys2Proof.Machine

/-- SEC_STATUS.RESULT (R501); `waits` says that a request of the operation must wait, and its row runs it again. -/
inductive SecResult where
  | ok | noPresence | badArg | signature | rollback | owner | flash | state | waits
  deriving DecidableEq, Repr

/-- Its code. -/
def SecResult.code : SecResult → Nat
  | .ok => 0
  | .noPresence => 1
  | .badArg => 2
  | .signature => 3
  | .rollback => 4
  | .owner => 5
  | .flash => 6
  | .state | .waits => 7

/-- An operation ends: GO clears, and a result other than OK raises SEC_FAIL (R501). -/
def secEnd (s : State) (r : SecResult) : State :=
  let b := activeSecurity s
  let s := rput (rputBit s b Reg.Sec.SEC_GO 0 false) b Reg.Sec.SEC_STATUS (wordOf r.code)
  if r = .ok then s else raise s b 10

/-- Does an operation need presence? -/
def needsPresence (op : Nat) : Bool := [2, 3, 4, 6, 8].contains op

/-- Is an operation refused with STATE (R501)? -/
def wrongState (s : State) (op : Nat) : Bool :=
  s.boot.phase = .recovery &&
    ([1, 6].contains op || (op = 4 && s.boot.reason ≠ 4 && s.boot.reason ≠ 5))

/-- A write of 1 to SEC_GO.GO: the operation is accepted, or refused at once. What a reserved OP answers is free. -/
def secGo (s : State) : State :=
  let b := activeSecurity s
  let op := rfield s b Reg.Sec.SEC_OP 3 0
  if rbit s b Reg.Sec.SEC_GO 0 then s
  else if op = 0 || 8 < op then
    let v := (Config.freeWord s.fresh).toNat % 16
    let s := rput (useFresh s) b Reg.Sec.SEC_STATUS (wordOf v)
    if v = 0 then s else raise s b 10
  else if needsPresence op && s.inputs.windowOpen.isNone then
    secEnd (raise (countLife (bump s b 1 1) 7) b 9) .noPresence
  else if wrongState s op then secEnd (bump s b 1 1) .state
  else rputBit s b Reg.Sec.SEC_GO 0 true

/-- Is an operation accepted, and has start-up ended? -/
def secRuns (s : State) (op : Nat) : Bool :=
  rbit s (activeSecurity s) Reg.Sec.SEC_GO 0 && rfield s (activeSecurity s) Reg.Sec.SEC_OP 3 0 = op &&
  (s.boot.phase = .ready || s.boot.phase = .recovery)

/-- Run an operation: it is counted, and its result ends it. -/
def secRun (s : State) (op : Nat) (f : State → State × SecResult) : State :=
  if secRuns s op then
    match f (bump s (activeSecurity s) 0 1) with
    | (t, .waits) => settleWaits s t
    | (t, r) => secEnd t r
  else s

/-! ### Arguments and outputs -/

/-- The local address of a range that lies wholly in HBM or in the larder of this device (R501). -/
def secRange (s : State) (a n : Nat) : Option Nat :=
  match targetOf s a with
  | .here l =>
    if l + n ≤ hbmSize then some l
    else if larderBase ≤ l && l + n ≤ larderBase + 8 * larderDieSize then some l
    else if 0x018000000000 ≤ l && l < 0x018800000000 && (l - 0x018000000000) % 2 ^ 32 + n ≤ larderDieSize then some l
    else none
  | _ => none

/-- The argument's bytes; BAD_ARG where it is no place for one, or its read is not answered OK. -/
def secArg (s : State) : State × SecResult × List Byte :=
  let b := activeSecurity s
  let n := rfield s b Reg.Sec.SEC_ARG_LEN 27 0
  match secRange s (rget64 s b Reg.Sec.SEC_ARG_LO Reg.Sec.SEC_ARG_HI) n with
  | none => (s, .badArg, [])
  | some a =>
    match readLocal s (reqOf b .bulk) a n with
    | (s, .ok, d) => (s, .ok, d)
    | (s, .delayed, _) => (s, .waits, [])
    | (s, _, _) => (s, .badArg, [])

/-- Where the output of `n` bytes goes. -/
def secOut (s : State) (n : Nat) : Option Nat :=
  let b := activeSecurity s
  secRange s (rget64 s b Reg.Sec.SEC_OUT_LO Reg.Sec.SEC_OUT_HI) n

/-- Write an output. -/
def secWrite (s : State) (a : Nat) (d : List Byte) : State × SecResult :=
  match writeLocal s (reqOf (activeSecurity s) .bulk) a d with
  | (s, .ok) => (s, .ok)
  | (s, .delayed) => (s, .waits)
  | (s, _) => (s, .badArg)

/-- Write an output that does not depend on what the operation does to the device. -/
def secAnswer (s : State) (d : List Byte) : State × SecResult :=
  match secOut s d.length with
  | some a => secWrite s a d
  | none => (s, .badArg)

/-! ### Attestation (R499) -/

/-- The identity key's private number (R496). -/
def identityNumber (s : State) : Nat := 1 + Config.identityKey s.flash.secretNo % (P521.n - 1)

/-- The identity public key. -/
def identityPublic (s : State) : List Byte := keyBytes (pointMul 521 (identityNumber s) basePoint)

/-- SEC_STATE (security page). -/
def secState (s : State) : Nat :=
  (if s.flash.restarted then 32 else 0) + (if s.flash.certValid then 16 else 0) + (if s.boot.secret then 8 else 0) +
  (if (s.flash.owner.map (fun (x : Bool × List Byte) => x.1)) = some true then 4 else 0) +
  (if s.boot.phase = .recovery then 2 else 0) + (if s.boot.debug then 1 else 0)

/-- The retirement state that the report hashes. -/
def retirementState (s : State) : List Byte :=
  bytesOf ((List.finRange 128).flatMap (fun c =>
      [rget s (.array c) Reg.Arr.LANE_RETIRED, rget s (.array c) Reg.Arr.CHECK_COL_RETIRED]) ++
    (List.finRange 16).map (fun st => rget s (.hbm st) Reg.Hbm.PC_RETIRED) ++
    (List.finRange 16).map (fun p => rget s (.naulo p) Reg.Nau.LANE_RETIRED))

/-- Bytes 511:0 of a report. -/
def reportHead (s : State) (nonce : List Byte) : List Byte :=
  leBytes 4 0x5441424F ++ leBytes 4 1 ++ nonce ++ leBytes 2 (nodeId s).val ++ leBytes 2 0x3200 ++ leBytes 4 (secState s) ++
  s.boot.imageHash ++ sha512 s.boot.ownerKey ++ leBytes 8 s.boot.serial ++ leBytes 8 s.flash.minSerial ++
  leBytes 8 s.stride.count ++ leBytes 8 Config.serialNumber ++ sha512 (retirementState s) ++
  s.flash.lifetime.flatMap (leBytes 8) ++ identityPublic s ++ List.replicate 11 0

/-- A report, signed with the identity key. -/
def report (s : State) (nonce : List Byte) : List Byte :=
  let l := reportHead s nonce
  let k := 1 + Config.ecdsaNonce s.fresh % (P521.n - 1)
  l ++ sigBytes (ecdsaSign (identityNumber s) k (sha512 l)) ++ List.replicate 60 0

/-- ATTEST. -/
def execAttest (s : State) : Host.Outcome State Fault Refusal :=
  .next (secRun s 1 (fun s =>
    match secArg s with
    | (s, .ok, d) => if d.length = 64 then secAnswer (useFresh s) (report s d) else (s, .badArg)
    | (s, x, _) => (s, x)))

/-! ### Image replacement (R502) -/

/-- What a refused image answers. -/
def imageResult (reason : Nat) : SecResult :=
  match reason with
  | 2 => .signature
  | 3 => .rollback
  | 4 => .owner
  | _ => .badArg

/-- Program a verified image: the region is erased and programmed, and read back. With `newOwner`, an owner record of the
image's key is written; it stands where the device secret is known (R490, R502). -/
def programImage (s : State) (d : List Byte) (i : Image) (newOwner : Bool) : State × SecResult :=
  let good := Config.flashGood s.fresh
  let s := useFresh s
  if !good then ({ s with flash := { s.flash with image := [] } }, .flash)
  else
    let s := bump s (activeSecurity s) 3 d.length
    let s := { s with flash := { s.flash with image := d, minSerial := max s.flash.minSerial i.floor } }
    let s := if newOwner then
        countLife { s with flash := { s.flash with owner := some (s.boot.secret, sha512 i.ownerKey) } } 5
      else s
    (countLife s 4, .ok)

/-- Verify the argument as an image, and program it. Without `newOwner` the owner record decides whose image may come: one that
does not stand lets none (R489, R490). -/
def replaceImage (newOwner : Bool) (s : State) : State × SecResult :=
  match secArg s with
  | (s, .ok, d) =>
    match checkImage d s.flash.minSerial (if newOwner then none else ownerHash s) with
    | .error reason => (s, imageResult reason)
    | .ok i =>
      if !newOwner && (s.flash.owner.map (fun (x : Bool × List Byte) => x.1)) = some false then (s, .owner)
      else programImage s d i newOwner
  | (s, x, _) => (s, x)

/-- IMAGE_REPLACE. -/
def execImageReplace (s : State) : Host.Outcome State Fault Refusal := .next (secRun s 2 (replaceImage false))

/-- IMAGE_REPLACE_OWNER. -/
def execImageReplaceOwner (s : State) : Host.Outcome State Fault Refusal := .next (secRun s 3 (replaceImage true))

/-! ### Re-enrolment (R497, R498) -/

/-- A new secret is drawn; what becomes of the owner and lifetime records depends on the state. -/
def reenrolled (s : State) : State :=
  let lost := s.boot.phase = .recovery && s.boot.reason = 5
  let f := { s.flash with secretNo := s.flash.secretNo + 1, pufGood := (true, true), certValid := false }
  let f := if s.boot.phase = .recovery then { f with owner := none } else f
  let f := if lost then { f with lifetime := [0, 0, 0, 0, 0, 0, 0, 0], restarted := true } else f
  { s with flash := { f with lifetimeSeq := f.lifetimeSeq + 1 } }

/-- REENROL: its output is the new identity public key. -/
def execReenrol (s : State) : Host.Outcome State Fault Refusal :=
  .next (secRun s 4 (fun s =>
    match secOut s 133 with
    | none => (s, .badArg)
    | some a =>
      let s := reenrolled s
      secWrite s a (identityPublic s)))

/-! ### Debug unlock (R503) -/

/-- DEBUG_NONCE: a fresh nonce replaces the one before. -/
def execDebugNonce (s : State) : Host.Outcome State Fault Refusal :=
  .next (secRun s 5 (fun s =>
    match secOut s 32 with
    | none => (s, .badArg)
    | some a =>
      let k := s.fresh
      let d := (List.range 32).map (Config.randomByte k)
      let s := useFresh s
      secWrite { s with boot := { s.boot with nonce := some d } } a d))

/-- Check a token; the nonce that it names is spent. -/
def unlock (s : State) (d : List Byte) : State × SecResult :=
  if d.length ≠ 200 then (s, .badArg)
  else
    let fresh := s.boot.nonce = some (d.take 32)
    let s := { s with boot := { s.boot with nonce := none } }
    if !fresh || leNat (slice d 32 2) ≠ (nodeId s).val || !zeroIn d 34 34 then (s, .badArg)
    else if !verifyBytes s.boot.ownerKey (slice d 68 132) (sha512 (d.take 68)) then (s, .signature)
    else (countLife { s with boot := { s.boot with debug := true } } 6, .ok)

/-- DEBUG_UNLOCK. -/
def execDebugUnlock (s : State) : Host.Outcome State Fault Refusal :=
  .next (secRun s 6 (fun s =>
    match secArg s with
    | (s, .ok, d) => unlock s d
    | (s, x, _) => (s, x)))

/-! ### Lifetime counters (R482, R504) -/

/-- READ_LIFETIME. -/
def execReadLifetime (s : State) : Host.Outcome State Fault Refusal :=
  .next (secRun s 7 (fun s => secAnswer s (s.flash.lifetime.flatMap (leBytes 8))))

/-- CLEAR_LIFETIME: counters 0 to 3; counter 7 counts the operation. -/
def execClearLifetime (s : State) : Host.Outcome State Fault Refusal :=
  .next (secRun s 8 (fun s =>
    (countLife { s with flash := { s.flash with lifetime := [0, 0, 0, 0] ++ s.flash.lifetime.drop 4 } } 7, .ok)))

/-- LIFETIME_RECORD: an hour of power-on has passed; counter 0 counts it, and the record goes to its older copy. -/
def execLifetimeRecord (s : State) : Host.Outcome State Fault Refusal := .next (countLife s 0)

/-! ### The page's registers -/

/-- A write of SEC_OP, SEC_ARG, SEC_ARG_LEN or SEC_OUT: ignored with SEC_BUSY while GO reads 1. -/
def writeSec (s : State) (off : Nat) (v : Word) : State :=
  let b := activeSecurity s
  if rbit s b Reg.Sec.SEC_GO 0 then raise s b 8 else rwrite s b off v

/-- PRESENCE. -/
def presenceWord (s : State) : Word :=
  let left := match s.inputs.windowOpen with
    | some t => 2 ^ 30 + (t + 120000000000 - s.now) / 1000000000
    | none => 0
  wordOf ((if s.inputs.presence then 2 ^ 31 else 0) + left)

end Sys2Proof.Machine
end

