-- ==== Sys2Proof/Machine/Bus.lean ====
section
/-!
DEFINITION. Register space as an access sees it (R3–R5, R37–R50): what each register reads, where the device maintains it, and
what a write of it does. Before TEST ends only the pages of dies 30 and 31 and the host port's answer (R481). The pages of
the standby steward read the active one's values and take no write (R102, R452).
-/
namespace Sys2Proof.Machine

/-! ### Which page an access means -/

/-- The index of the active steward. -/
def activeIdx (s : State) : Fin 2 := if s.steward.activeSb then 1 else 0

/-- The page whose values an access sees. -/
def shownBlock (s : State) (b : Block) : Block :=
  match b with
  | .mgmt _ => .mgmt (activeIdx s)
  | .stride _ => .stride (activeIdx s)
  | .errq _ => .errq (activeIdx s)
  | .security _ => .security (activeIdx s)
  | b => b

/-- The cause STANDBY_WRITE of a steward's page. -/
def standbyCause : Block → Nat
  | .mgmt _ => 8
  | .stride _ => 14
  | .errq _ => 16
  | _ => 11

/-! ### STATUS (0x00C) -/

/-- Is some channel of the block retired? -/
def partRetired (s : State) (b : Block) : Bool :=
  match b with
  | .array _ => rget s b Reg.Arr.LANE_RETIRED ≠ 0 || rget s b Reg.Arr.CHECK_COL_RETIRED ≠ 0
  | .hbm _ => rget s b Reg.Hbm.PC_RETIRED ≠ 0
  | .naulo _ => rget s b Reg.Nau.LANE_RETIRED ≠ 0
  | _ => false

/-- Does the block run at reduced precision (PRECISION.FP8_ONLY)? -/
def arrayLimited (s : State) (b : Block) : Bool :=
  match b with
  | .array _ => rbit s b Reg.Arr.PRECISION 0
  | _ => false

/-- Does a command in flight of a core run on an engine block of it? -/
def engineBusy (s : State) (c : CoreId) (b : Block) : Bool :=
  (getFront s (.cp c)).slots.any (fun x =>
    (x.phase = .running || x.phase = .held) && (engineBlocks (.cp c) x.queue (cmdOp x.words)).contains b)

/-- No work is accepted or in flight. -/
def blockIdle (s : State) (b : Block) : Bool :=
  match b with
  | .cp c => frontIdle s (.cp c)
  | .hub h => frontIdle s (.hub h)
  | .slow p => frontIdle s (.slow p)
  | .relay e => frontIdle s (.relay e)
  | .gme c | .vu c | .array c | .dma c _ => !engineBusy s c b
  | .sem c => !semFilling s (.cp c)
  | .larder d => s.pendingReads.all (fun x => x.die ≠ d)
  | .hbm st => s.retiringPc.all (fun x => x.1 ≠ st.val) && s.held.all (fun h => (heldDest s h).map (·.1) ≠ some b)
  | .adder _ => s.held.all (fun h => (heldDest s h).map (·.1) ≠ some b)
  | .cxl p => s.cxlReqs.all (fun x => x.port ≠ p) && s.held.all (fun h => (heldDest s h).map (·.1) ≠ some b)
  | .naulo p => (getPort s p).queue = [] && (getPort s p).replay = []
  | .errq _ => s.steward.queue = []
  | .security _ => !rbit s (activeSecurity s) Reg.Sec.SEC_GO 0
  | .glob p => if 16 ≤ p.val then cvState s (Fin.ofNat 16 (p.val - 16)) ≠ 1 else true
  | _ => true

/-- STATUS: RETIRED and DEGRADED as they have been set, the rest from the block's state. A fenced block accepts no work. -/
def statusWord (s : State) (b : Block) : Word :=
  let one (x : Bool) (k : Nat) : Nat := if x then 2 ^ k else 0
  let held := rget s b Reg.Hdr.STATUS
  wordOf (one (rbit s b Reg.Hdr.CTRL 0 && !isFenced s b) 0 + one (s.resetting.contains b.page) 1 + one (isFenced s b) 2 +
    one (blockIdle s b) 3 + one (bit held 4 || partRetired s b) 4 + one (bit held 5 || arrayLimited s b) 5)

/-! ### Registers that the device maintains -/

/-- A bit as a number. -/
def oneIf (x : Bool) (k : Nat) : Nat := if x then 2 ^ k else 0

/-- The registers of a front end. -/
def frontView (s : State) (f : FrontId) (off : Nat) : Option Word :=
  let x := getFront s f
  if off = Reg.Cp.INFLIGHT then
    some (wordOf ((x.slots.countP (fun y => y.phase = .waiting && y.waitFrom.isSome)) * 2 ^ 16 + x.slots.length))
  else if off = Reg.Cp.HOLD_STATE then
    let tag : Nat := match x.slots, x.strideWait with
      | y :: _, _ => (cmdTag y.words).toNat
      | [], some w => (cmdTag w.words).toNat
      | [], none => 0
    some (wordOf (tag * 2 ^ 16 + oneIf x.hold 0))
  else if !isCore f && off = Reg.Cp.RING_CTRL then some (rget s f.block off &&& 1)
  else none

/-- The semaphore memory page. -/
def semView (s : State) (c : CoreId) (off : Nat) : Option Word :=
  let b : Block := .sem c
  if off = Reg.Sm.SEM_DATA then
    let x := readSem s (.cp c) (rfield s b Reg.Sm.SEM_INDEX 11 0)
    some (wordOf (x.count + oneIf x.poison 31))
  else if off = Reg.Sm.SEM_FILL then some (wordOf (oneIf (semFilling s (.cp c)) 31))
  else if off = Reg.Sm.POISON_COUNT then some (wordOf (poisonCount s (.cp c)))
  else if off = Reg.Sm.FIRST_POISON then
    some (match s.firstPoison.find? (fun x => x.1 = c.val) with
      | some (_, t, i) => wordOf (t.toNat * 2 ^ 16 + 2 ^ 15 + i)
      | none => 0)
  else if Reg.Sm.BATON_LEVEL ≤ off && off < Reg.Sm.BATON_LEVEL + 64 then
    some (wordOf (getBaton s c ((off - Reg.Sm.BATON_LEVEL) / 4)).length)
  else none

/-- RNG_PEEK of the array page: the state of an array lane, or of a VU lane. -/
def peekState (s : State) (c : CoreId) : Nat :=
  let l := rfield s (.array c) Reg.Arr.RNG_PEEK_SEL 8 0
  if l < 32 then (arrayState s c l).toNat else if l < 288 then (vuState s c (l - 32)).toNat else 0

/-- The state of a segment in SEG_STATE. -/
def SegPhase.code : SegPhase → Nat
  | .on => 0
  | .draining => 1
  | .off => 2
  | .waking => 3

/-- A core memory's page. -/
def memView (s : State) (c : CoreId) (m : CoreMem) (off : Nat) : Option Word :=
  if off = Reg.Mem.SEG_STATE then
    some (wordOf ((List.range m.segments).foldl (fun n k => n + (getSeg s c m k).phase.code * 4 ^ k) 0))
  else if off = Reg.Mem.WIF_COUNT then
    let k := rfield s (.mem c m) Reg.Mem.WIF_SEL 3 0
    some (if k < m.segments then wordOf (sat 16 (getSeg s c m k).wif.length) else 0)
  else if off = Reg.Mem.PATROL_CTRL then
    let w := rget s (.mem c m) off
    some (withBits w 15 0 (max 16 (bits w 15 0)))
  else none

/-- SCRUB_CTRL: an INTERVAL below 16 reads as 16. -/
def scrubWord (w : Word) : Word := withBits w 23 0 (max 16 (bits w 23 0))

/-- The destinations of a page: a stack controller has one for each of its pseudo-channels (R362). -/
def pageDests (b : Block) : List Dest :=
  match b with
  | .hbm _ => (List.range 32).map (fun pc => (b, pc))
  | _ => [(b, 0)]

/-- QUEUE_NOW: the entries of each class in the queues of a page; what waits outside a full queue is not in it (R362). -/
def queueNow (s : State) (b : Block) : Word :=
  let count (c : SvcClass) : Nat :=
    match b with
    | .naulo p => (getPort s p).queue.countP (fun u =>
        c = (if u.1 = 3 then SvcClass.bulk else if u.1 = 5 then .speculative else .critical))
    | _ => ((pageDests b).map (fun d => min (queueDepth c) (destQueued s d c))).sum
  let field (c : SvcClass) : Nat := min 255 (count c)
  wordOf (field .critical + field .bulk * 2 ^ 8 + field .speculative * 2 ^ 16)

/-- The service-class window (R368). A worst-case time is 0 from SVC_CLEAR until a request of its class has been served; the
time itself is open (assumption 129). -/
def svcView (s : State) (b : Block) (off : Nat) : Option Word :=
  if off = Reg.Svc.QUEUE_NOW then some (queueNow s b)
  else if off = Reg.Svc.WORST_CRIT_NS || off = Reg.Svc.WORST_BULK_NS then
    some (if rget s b off = 0 then 0 else Config.measured b.base off s.now)
  else none

/-- The publish state of a hub engine: a list whose tick has fired is publishing. -/
def pubView (s : State) (h : HubId) (off : Nat) : Option Word :=
  let l := tget [] s.pubs h.val
  let active := l.find? (fun p => p.fired)
  let next := (l.map (fun p => p.target)).headD 0
  if off = Reg.Hub.PUB_STATUS then
    some (wordOf (l.length + oneIf active.isSome 3 + oneIf (active.any (fun p => p.late)) 4))
  else if off = Reg.Hub.PUB_NEXT_STRIDE_LO then some (wordOf next)
  else if off = Reg.Hub.PUB_NEXT_STRIDE_HI then some (wordHi next)
  else none

/-- A slow-tier engine's page. -/
def parkView (s : State) (p : PortDieId) (off : Nat) : Option Word :=
  let r := getPark s p
  if off = Reg.Slow.PARK_STATUS then some (wordOf (r.used + oneIf r.hold 7))
  else if off = Reg.Slow.PARK_HEAD then some (wordOf r.head)
  else if off = Reg.Slow.PARK_TAIL then some (wordOf r.tail)
  else none

/-- The code of a ledger state. -/
def LedgerPhase.code : LedgerPhase → Nat
  | .open_ => 0
  | .voting => 1
  | .decided => 2

/-- The step ledger's page. -/
def ledgerView (s : State) (off : Nat) : Option Word :=
  let l := s.ledger
  if off = Reg.Led.LEDGER_STATE then
    some (wordOf (l.phase.code + oneIf l.current.skip 2 + oneIf l.current.nonfinite 3 + oneIf l.torn 4 + oneIf l.next.skip 5 +
      oneIf l.next.nonfinite 6 + oneIf (l.lastDecision = some true) 8 + oneIf l.lastDecision.isSome 9))
  else if off = Reg.Led.COMMITTED_LO then some (wordOf l.committed)
  else if off = Reg.Led.COMMITTED_HI then some (wordHi l.committed)
  else if off = Reg.Led.NORM then some l.norm
  else if off = Reg.Led.CLOSE_DELAY then some (wordOf (max 1 (rfield s ledgerPage off 7 0)))
  else if off = Reg.Led.SKIP_SOURCES then some (wordOf l.current.sources.toNat)
  else if off = Reg.Led.LAST_FIRST_DEVICE then
    some (match l.lastFirst with
      | some d => wordOf (32768 + d.val)
      | none => 0)
  else if off = Reg.Led.LAST_FLAGS then
    some (wordOf (oneIf l.lastFlags.1 0 + oneIf l.lastFlags.2.1 1 + oneIf l.lastFlags.2.2.1 2 + oneIf l.lastFlags.2.2.2 3))
  else if off = Reg.Led.NORM_LOCAL then some (normWord l.current.norm)
  else stepView s off

/-- The stride master's page. -/
def strideView (s : State) (off : Nat) : Option Word :=
  if off = Reg.Str.STRIDE_STATE then some (wordOf s.stride.state)
  else if off = Reg.Str.STRIDE_COUNT_LO then some (wordOf s.stride.count)
  else if off = Reg.Str.STRIDE_COUNT_HI then some (wordHi s.stride.count)
  else if off = Reg.Str.PIN_FIRE_DELAY then some (wordOf (max 1000 (rfield s (activeStride s) off 19 0)))
  else none

/-- The fabric page. -/
def fabricView (s : State) (off : Nat) : Option Word :=
  if off = Reg.Fab.ROUTE_DATA then
    some (wordOf (tget (0#16) s.routes (rfield s fabricPage Reg.Fab.ROUTE_INDEX 14 0)).toNat)
  else if off = Reg.Fab.SYNC_STATE && (syncParent s).isNone then some 1
  else none

/-- TYPE and INSTANCE of a unit that the steward charges: the page that stands for it. -/
def Unit_.block : Unit_ → Block
  | .lane c _ | .column c _ => .array c
  | .core c => .cp c
  | .pc st _ => .hbm st
  | .nauloLane p _ => .naulo p
  | .path d _ => .router d
  | .die d => .proxy d

/-- The code of a unit's state. -/
def UnitPhase.code : UnitPhase → Nat
  | .handling => 1
  | .watch => 2
  | .suspect => 3
  | .retired => 4
  | .unretirable => 5

/-- The error record queue's page. -/
def queueView (s : State) (off : Nat) : Option Word :=
  let x := s.steward
  let q := activeQueue s
  let e := x.units[rfield s q Reg.Erq.UNIT_SEL 7 0]?
  if off = Reg.Erq.QUEUE_LEVEL then some (wordOf (x.queue.length + x.peak * 2 ^ 16))
  else if off = Reg.Erq.SWITCH_REQ then some (wordOf (oneIf x.switching.isSome 0))
  else if off = Reg.Erq.HANDLING_SEQ then
    some (match x.handling with
      | some r => wordOf r.seq
      | none => 0)
  else if off = Reg.Erq.UNIT_ID then
    some (match e with
      | some e => e.unit.block.unit
      | none => 0)
  else if off = Reg.Erq.UNIT_STATE then
    some (match e with
      | some e => wordOf (e.events * 2 ^ 16 + e.phase.code * 2 ^ 8 + (unitDie e.unit).val % 32)
      | none => 0)
  else if off = Reg.Erq.UNIT_STEPS then
    some (match e with
      | some e => wordOf (sat 32 e.steps)
      | none => 0)
  else if off = Reg.Erq.POLICY2 then
    let w := rget s q off
    some (withBits w 15 0 (max 1 (bits w 15 0)))
  else stewardView s off

/-- Is the whole of a core fenced: by its bit of PROXY_CTRL, or because it is retired (R446)? -/
def coreFenced (s : State) (c : CoreId) : Bool :=
  rbit s (.proxy (Fin.ofNat 33 (c.val / 8))) Reg.Prx.PROXY_CTRL (c.val % 8) || rbit s (.cp c) Reg.Hdr.STATUS 4

/-- Requests delivered into the blocks of a die and not yet answered. -/
def outstanding (s : State) (d : DieId) : Nat :=
  let bs := dieBlocks d
  let on (b : Block) : Bool := bs.contains b
  ((s.pendingReads.filter (fun x => !x.answered && on (.larder x.die))).map (fun x => x.readers.length)).sum +
  s.held.countP (fun h => bs.any (fun b => heldAt s b h)) +
  s.cxlReqs.countP (fun x => !x.answered && on (.cxl x.port) && x.xid = x.whole)

/-- A die boundary proxy's page. -/
def proxyView (s : State) (d : DieId) (off : Nat) : Option Word :=
  let w := rget s (.proxy d) Reg.Prx.PROXY_CTRL
  if off = Reg.Prx.PROXY_STATUS then
    let cores := if d.val < 16 then
        (List.range 8).foldl (fun n k => n + oneIf (coreFenced s (Fin.ofNat 128 (d.val * 8 + k))) k) 0
      else 0
    some (wordOf (oneIf (bit w 31) 31 + cores))
  else if off = Reg.Prx.OUTSTANDING then some (wordOf (min 4096 (outstanding s d)))
  else if off = Reg.Prx.LOCKS then
    some (wordOf (s.locks.countP (fun l => match l.holder with
      | .proxy cd => cd.val = d.val
      | .engine _ => false)))
  else none

/-- A router's page. -/
def routerView (s : State) (d : DieId) (off : Nat) : Option Word :=
  if Reg.Rtr.LINK ≤ off && off < Reg.Rtr.LINK + 16 then
    let k : Fin 4 := Fin.ofNat 4 ((off - Reg.Rtr.LINK) / 4)
    let x := getPath s d k
    some (if linkPresent d k then
        wordOf (2 ^ 31 + oneIf x.half 30 + oneIf x.fatal 29 + x.spares * 2 ^ 16 + crcMs s x)
      else 0)
  else none

/-- The measurements of the die sensors. -/
def sensorView (s : State) (d : DieId) (off : Nat) : Option Word :=
  let w := Config.measured (Block.base (.sensors d)) off s.now
  if off = Reg.Sns.RAIL_MV then some (w &&& 0xFFFF)
  else if Reg.Sns.RO_COUNT ≤ off && off < Reg.Sns.RO_COUNT + 64 then some w
  else none

/-- The code of a state of start-up (R478). -/
def BootPhase.code : BootPhase → Nat
  | .rom => 0
  | .identity => 1
  | .image => 2
  | .configure => 3
  | .test => 4
  | .ready => 5
  | .recovery => 6

/-- The identity page. -/
def identityView (s : State) (off : Nat) : Option Word :=
  if off = Reg.Idn.NODE_ID then some (wordOf (nodeId s).val)
  else if off = Reg.Idn.IMAGE_SERIAL_LO then some (wordOf s.boot.serial)
  else if off = Reg.Idn.IMAGE_SERIAL_HI then some (wordHi s.boot.serial)
  else if off = Reg.Idn.MIN_SERIAL_LO then some (wordOf s.flash.minSerial)
  else if off = Reg.Idn.MIN_SERIAL_HI then some (wordHi s.flash.minSerial)
  else if off = Reg.Idn.SERIAL_NO_LO then some (wordOf Config.serialNumber)
  else if off = Reg.Idn.SERIAL_NO_HI then some (wordHi Config.serialNumber)
  else none

/-- A bit for each rail, of the feeds of one group. -/
def feedBits (s : State) (feedB : Bool) (f : Feed → Bool) : Nat :=
  (List.finRange 4).foldl (fun n r => n + oneIf (f (getFeed s r feedB)) r.val) 0

/-- The supplies page. -/
def supplyView (s : State) (off : Nat) : Option Word :=
  if off = Reg.Sup.FEED_STATUS then
    some (wordOf (feedBits s false (·.ok) + feedBits s true (·.ok) * 2 ^ 8 + oneIf s.throttleUntil.isSome 16))
  else if off = Reg.Sup.FEED_HELD then some (wordOf (feedBits s false (·.held) + feedBits s true (·.held) * 2 ^ 8))
  else none

/-- The board inputs page. -/
def boardView (s : State) (off : Nat) : Option Word :=
  let x := s.inputs
  if off = Reg.Brd.INPUT_LEVEL then
    some (wordOf (oneIf x.perst 0 + oneIf x.presence 1 + oneIf s.stride.stuck 2 + oneIf x.alarmPin 3 + oneIf x.alarm 4 +
      feedBits s false (·.good) * 2 ^ 8 + feedBits s true (·.good) * 2 ^ 12))
  else if off = Reg.Brd.ALARM_CTRL then
    let w := rget s boardPage off
    some (withBits w 31 16 (max 1 (bits w 31 16)))
  else none

/-- The pages of die 31. -/
def globalView (s : State) (p : Nat) (off : Nat) : Option Word :=
  if p = 0 then identityView s off
  else if p = 1 then supplyView s off
  else if p = 2 then boardView s off
  else if p = 4 then ledgerView s off
  else if p = 5 then (if off = Reg.Map.HBM_MAP then some (wordOf (sharedQ s)) else none)
  else if p = 6 then fabricView s off
  else none

/-- What a register that the device maintains reads; none where the register table holds it. -/
def maintained (s : State) (b : Block) (off : Nat) : Option Word :=
  match b with
  | .cp c => frontView s (.cp c) off
  | .hub h => (frontView s (.hub h) off).or (pubView s h off)
  | .slow p => (frontView s (.slow p) off).or (parkView s p off)
  | .relay e =>
    if off = Reg.Rel.EARLY_USE then
      some (wordOf ((((getRelay s e).early.map (fun x => (x.seg.group, x.seg.seqId))).eraseDups).length))
    else frontView s (.relay e) off
  | .sem c => semView s c off
  | .array c =>
    if off = Reg.Arr.RNG_PEEK_LO then some (wordOf (peekState s c))
    else if off = Reg.Arr.RNG_PEEK_HI then some (wordHi (peekState s c))
    else none
  | .gme c => predView s c off
  | .mem c m => memView s c m off
  | .larder d =>
    if off = Reg.Ldr.PENDING then some (wordOf (min 256 (s.pendingReads.countP (fun x => x.die = d))))
    else if off = Reg.Ldr.SCRUB_CTRL then some (scrubWord (rget s b off))
    else svcView s b off
  | .hbm _ => if off = Reg.Hbm.SCRUB_CTRL then some (scrubWord (rget s b off)) else svcView s b off
  | .adder _ => svcView s b off
  | .cxl p =>
    if off = Reg.Cxl.OUTSTANDING then some (wordOf (s.cxlReqs.countP (fun x => x.port = p && x.issued)))
    else svcView s b off
  | .naulo p =>
    if off = Reg.Nau.LINK_STATE then some (wordOf ((getPort s p).state + (getPort s p).active.toNat * 2 ^ 16))
    else if off = Reg.Nau.CREDIT_RTT then some (Config.measured b.base off s.now &&& 0xFFFF)
    else svcView s b off
  | .mgmt _ =>
    if off = Reg.Mgm.DEVICE_STATE then some (wordOf (s.boot.phase.code + s.boot.reason * 2 ^ 8)) else none
  | .stride _ => strideView s off
  | .errq _ => queueView s off
  | .security _ =>
    if off = Reg.Sec.PRESENCE then some (presenceWord s)
    else if off = Reg.Sec.SEC_STATE then some (wordOf (secState s))
    else none
  | .proxy d => proxyView s d off
  | .router d => routerView s d off
  | .sensors d => sensorView s d off
  | .glob p => globalView s p.val off
  | _ => none

/-! ### Reads (R5, R50, R454) -/

/-- A counter as a read returns it: the latched set while FREEZE or COUNTER_MODE is 1, else the live one (R454). -/
def shownCounter (s : State) (b : Block) (k : Nat) : Nat :=
  if rbit s b Reg.Hdr.LATCH_CTRL 1 || rbit s b Reg.Hdr.CTRL 3 then tget 0 s.latched (b.page * 24 + k) else ctr s b k

/-- The 64-bit value of which a register is the low or the high word, where a read of the low one takes a shadow: counters,
STEP_ID and STRIDE_COUNT (R50). -/
def wide (s : State) (b : Block) (off : Nat) : Option (Bool × Nat) :=
  if 0x40 ≤ off && off < 0x100 then some ((off - 0x40) % 8 = 4, shownCounter s b ((off - 0x40) / 8))
  else match b with
    | .stride _ =>
      if off = Reg.Str.STRIDE_COUNT_LO then some (false, s.stride.count)
      else if off = Reg.Str.STRIDE_COUNT_HI then some (true, s.stride.count)
      else none
    | .glob p =>
      if p.val = 4 && off = Reg.Led.STEP_ID_LO then some (false, s.ledger.stepId)
      else if p.val = 4 && off = Reg.Led.STEP_ID_HI then some (true, s.ledger.stepId)
      else none
    | _ => none

/-- The registers whose only access is WO: they read zero (R5). -/
def writeOnly (b : Block) (off : Nat) : Bool :=
  match b with
  | .sem _ => off = Reg.Sm.BATON_PASS || off = Reg.Sm.BATON_POP
  | .array _ => off = Reg.Arr.CHECK_CLEAR
  | .dma _ _ => off = Reg.Dma.DMA_CMD
  | .mgmt _ => off = Reg.Mgm.RESET_REQ
  | .glob p => p.val = 1 && off = Reg.Sup.FEED_CTRL
  | _ => false

/-- What a register shows, without what a read does. -/
def regShown (s : State) (b : Block) (off : Nat) : Word :=
  if writeOnly b off then 0
  else if off = Reg.Hdr.ID then b.unit
  else if off = Reg.Hdr.VERSION then 0x01000000
  else if off = Reg.Hdr.CTRL then
    withBit (rget s b off) 1 (s.resetting.contains b.page)
  else if off = Reg.Hdr.STATUS then statusWord s b
  else (maintained s b off).getD (rget s b off)

/-- Keep a high word for the next read of its register (R50). -/
def setShadow (s : State) (k : Nat) (v : Word) : State := { s with shadows := tset (~~~ v) s.shadows k v }

/-- A 32-bit read of a register of an open page: its value, and the shadow of R50. -/
def regRead (s : State) (page : Block) (off : Nat) : State × Word :=
  if !pageOpen s page then (s, 0)
  else
    let b := if off = Reg.Hdr.ID then page else shownBlock s page
    match wide s b off with
    | some (false, n) => (setShadow s (b.base + off + 4) (wordHi n), wordOf n)
    | some (true, n) =>
      match s.shadows.find? (fun x => x.1 = b.base + off) with
      | some (_, h) => ({ s with shadows := s.shadows.filter (fun x => x.1 ≠ b.base + off) }, h)
      | none => (s, wordHi n)
    | none => (s, regShown s b off)

/-- A 64-bit read: both halves of a counter are from one instant. -/
def regRead64 (s : State) (page : Block) (off : Nat) : State × Nat :=
  if !pageOpen s page then (s, 0)
  else
    match wide s (shownBlock s page) off with
    | some (false, n) => (s, n % 2 ^ 64)
    | _ =>
      let (s, a) := regRead s page off
      let (s, b) := regRead s page (off + 4)
      (s, a.toNat + b.toNat * 2 ^ 32)

/-! ### Writes -/

/-- A register of a front end. -/
def writeFront (s : State) (f : FrontId) (off : Nat) (v : Word) : State :=
  let b := f.block
  if off = Reg.Cp.RING_TAIL then writeRingTail s f v
  else if off = Reg.Cp.RING_CTRL then writeRingCtrl s f v
  else if off = Reg.Cp.RING_SIZE || off = Reg.Cp.CQ_SIZE then rput s b off (clampLog2 v)
  else rwrite s b off v

/-- The allocation entry and register that an offset from 0x800 on names. -/
def writeAllocAt (s : State) (f : FrontId) (off : Nat) (v : Word) : State :=
  let e := (off - 0x800) / 16
  if 128 ≤ e then s
  else if off % 16 = 12 then (if bit v 0 then armAlloc s f e else s)
  else writeAlloc s f e off v

/-- DESC_CREATE: OP and INDEX as written, and GO by a 1; OP 3 is reserved, and its operation is over at once. A write of it
or of a staged word while GO reads 1 is ignored and raises TABLE_BUSY (R156). -/
def writeCreate (s : State) (f : FrontId) (off : Nat) (v : Word) : State :=
  let b := descBlock f
  if creating s f then raise s b (descCause f 1)
  else
    let s := rwrite s b off v
    if off = createOff f && bit v 31 && bits v 17 16 ≠ 3 then rputBit s b off 31 true else s

/-- Is the register at an offset DESC_CREATE or a staged word? -/
def isCreateReg (f : FrontId) (off : Nat) : Bool := off = createOff f || (stageOff f 0 ≤ off && off < stageOff f 16)

/-- The descriptor registers of an engine's page (R294, R397). -/
def writeEngineDesc (s : State) (f : FrontId) (off : Nat) (v : Word) : State :=
  if isCreateReg f off then writeCreate s f off v
  else if off = Reg.Upd.DESC_TABLE_LOG2 then commitTable s f v
  else if 0x800 ≤ off then writeAllocAt s f off v
  else rwrite s f.block off v

/-- A GME's page. -/
def writeGme (s : State) (c : CoreId) (off : Nat) (v : Word) : State :=
  if isCreateReg (.cp c) off then writeCreate s (.cp c) off v
  else if off = Reg.Gme.DESC_TABLE_OFFSET then writeTableOffset s c v
  else if off = Reg.Gme.DESC_TABLE_LOG2 then writeTableLog2 s c v
  else if 0x800 ≤ off then writeAllocAt s (.cp c) off v
  else rwrite s (.gme c) off v

/-- A semaphore memory's page. -/
def writeSemPage (s : State) (c : CoreId) (off : Nat) (v : Word) : State :=
  if off = Reg.Sm.SEM_DATA then writeSemData s c v
  else if off = Reg.Sm.SEM_FILL then writeSemFill s c v
  else if off = Reg.Sm.BATON_PASS then writeBatonPass s c v
  else if off = Reg.Sm.BATON_POP then writeBatonPop s c v
  else rwrite s (.sem c) off v

/-- A service-class window, and the page that carries it (R368). -/
def writeSvc (s : State) (b : Block) (off : Nat) (v : Word) : State :=
  if off = Reg.Svc.SVC_CLEAR then (if bit v 0 then clearSvc s b else s) else rwrite s b off v

/-- The stride master's page. -/
def writeStride (s : State) (off : Nat) (v : Word) : State :=
  if off = Reg.Str.STRIDE_CTRL then writeStrideCtrl s v
  else if off = Reg.Str.STRIDE_PERIOD then writePeriod s v
  else if off = Reg.Str.TICK_LEAD then writeTickLead s v
  else if off = Reg.Str.HOLD_LEAD then writeHoldLead s v
  else if off = Reg.Str.HOLD_BUDGET then writeHoldBudget s v
  else if off = Reg.Str.STRIDE_COUNT_LO then writeCount s false v
  else if off = Reg.Str.STRIDE_COUNT_HI then writeCount s true v
  else rwrite s (activeStride s) off v

/-- The error record queue's page. -/
def writeQueue (s : State) (off : Nat) (v : Word) : State :=
  if off = Reg.Erq.LOG_SIZE then writeLogSize s v
  else if off = Reg.Erq.RAIL_MAX then rput s (activeQueue s) off (wordOf (min 50 (bits v 7 0) / 10 * 10))
  else if off = Reg.Erq.SWITCH_REQ then (if bit v 0 then switchRequest s else s)
  else rwrite s (activeQueue s) off v

/-- The step ledger's page. -/
def writeLedger (s : State) (off : Nat) (v : Word) : State :=
  if off = Reg.Led.LEDGER_CTRL then
    let s := if bit v 0 then writeSwSkip s else s
    if bit v 1 then writeTornClear s else s
  else rwrite s ledgerPage off v

/-- The fabric page. -/
def writeFabric (s : State) (off : Nat) (v : Word) : State :=
  if off = Reg.Fab.ROUTE_DATA then writeRoute s v
  else if off = Reg.Fab.TT_PARENT then writeTtParent s v
  else if Reg.Fab.TT_CHILD ≤ off && off < Reg.Fab.TT_CHILD + 64 then writeChild s off v
  else rwrite s fabricPage off v

/-- The trace collector's page. -/
def writeTrace (s : State) (off : Nat) (v : Word) : State :=
  if off = Reg.Trc.TRACE_CTRL then writeTraceCtrl s v
  else if off = Reg.Trc.TRACE_BASE_LO || off = Reg.Trc.TRACE_BASE_HI || off = Reg.Trc.TRACE_SIZE then writeTraceBase s off v
  else rwrite s tracePage off v

/-- A check-value channel's page: while a job runs, every write is ignored with CV_BUSY (R473). -/
def writeCv (s : State) (ch : Fin 16) (off : Nat) (v : Word) : State :=
  if cvState s ch = 1 then raise s (cvPage ch) 8
  else if off = Reg.Cv.CV_CTRL then writeCvCtrl s ch v
  else rwrite s (cvPage ch) off v

/-- The pages of die 31. -/
def writeGlobal (s : State) (p : Fin 256) (off : Nat) (v : Word) : State :=
  if p.val = 1 then
    if off = Reg.Sup.FEED_SHARE then writeFeedShare s v
    else if off = Reg.Sup.FEED_CTRL then (if bit v 0 then writeRearm s else s)
    else s
  else if p.val = 3 then
    if off = Reg.Thm.THROTTLE_TEMP then writeTempLimit s off 880 v
    else if off = Reg.Thm.HBM_THROTTLE_TEMP then writeTempLimit s off 800 v
    else s
  else if p.val = 4 then writeLedger s off v
  else if p.val = 6 then writeFabric s off v
  else if p.val = 7 then writeTrace s off v
  else if 16 ≤ p.val && p.val < 32 then writeCv s (Fin.ofNat 16 (p.val - 16)) off v
  else rwrite s (.glob p) off v

/-- A write of BAR2_BASE_HI: the staged base takes effect (R508). -/
def writeBar2Hi (s : State) (v : Word) : State :=
  let s := rput s .host Reg.Hst.BAR2_BASE_HI v
  { s with host := { s.host with bar2Base := rget64 s .host Reg.Hst.BAR2_BASE_LO Reg.Hst.BAR2_BASE_HI } }

/-- BAR2_BASE_HI. -/
def execBar2BaseHi (v : Word) (s : State) : Host.Outcome State Fault Refusal := .next (writeBar2Hi s v)

/-- The bits that only the steward writes (R349, R379, R435, R442): a write of software leaves them, and writes the other
fields of their registers. -/
def stewardBits (b : Block) (off : Nat) : Word :=
  match b with
  | .proxy _ => if off = Reg.Prx.PROXY_CTRL then 0xFFFFFFFF else 0
  | .clock _ => if off = Reg.Clk.CLOCK_PENDING || off = Reg.Clk.RAIL_PENDING then 0x80000000 else 0
  | .hbm _ => if off = Reg.Hbm.PC_RETIRE then 0x80000000 else 0
  | .naulo _ => if off = Reg.Nau.LANE_RETIRE then 0x80000000 else 0
  | _ => 0

/-- A written value, with the steward's bits as they stand. -/
def byHost (s : State) (b : Block) (off : Nat) (v : Word) : Word :=
  (v &&& ~~~ (stewardBits b off)) ||| (rget s b off &&& stewardBits b off)

/-- A register of a block's own, from 0x100 on. -/
def writeOwn (s : State) (b : Block) (off : Nat) (v : Word) : State :=
  match b with
    | .cp c => writeFront s (.cp c) off v
    | .hub h =>
      if off < 0x200 then writeFront s (.hub h) off v
      else if off = Reg.Hub.PUB_ARM_GO then (if bit v 0 then manualArm s h else s)
      else if off < 0x300 then rwrite s b off v
      else writeEngineDesc s (.hub h) off v
    | .slow p =>
      if off < 0x200 then writeFront s (.slow p) off v
      else if [Reg.Slow.PARK_BASE_LO, Reg.Slow.PARK_BASE_HI, Reg.Slow.PARK_SLOT_UNITS, Reg.Slow.PARK_CFG].contains off then
        writeParkCfg s p off v
      else if off < 0x300 then rwrite s b off v
      else writeEngineDesc s (.slow p) off v
    | .relay e =>
      if off < 0x200 then writeFront s (.relay e) off v
      else if off < 0x300 then rwrite s b off v
      else writeEngineDesc s (.relay e) off v
    | .gme c => writeGme s c off v
    | .array c => if off = Reg.Arr.CHECK_CLEAR then (if bit v 0 then clearChecks s c else s) else rwrite s b off v
    | .mem c m =>
      if off = Reg.Mem.SEG_OFF then writeSegOff s c m v
      else if off = Reg.Mem.PARITY_INJECT then writeParityInject s c m v
      else rwrite s b off v
    | .sem c => writeSemPage s c off v
    | .dma c ch => if off = Reg.Dma.DMA_CMD then (if bit v 0 then dmaResume s c ch else s) else rwrite s b off v
    | .larder _ | .adder _ => writeSvc s b off v
    | .hbm st =>
      if [Reg.Hbm.SPARE_BASE_LO, Reg.Hbm.SPARE_BASE_HI, Reg.Hbm.SPARE_SLOTS].contains off then writeSpare s st off v
      else writeSvc s b off v
    | .cxl _ => if off = Reg.Cxl.PORT_CTRL then (if bit v 0 then rput s b off 1 else s) else writeSvc s b off v
    | .naulo _ => if off = Reg.Nau.PORT_CTRL then (if bit v 0 then rput s b off 1 else s) else writeSvc s b off v
    | .mgmt _ => if off = Reg.Mgm.RESET_REQ then writeResetReq s v else s
    | .stride _ => writeStride s off v
    | .errq _ => writeQueue s off v
    | .security _ =>
      if off = Reg.Sec.SEC_GO then (if bit v 0 then secGo s else s)
      else if off ≤ Reg.Sec.SEC_OUT_HI then writeSec s off v
      else s
    | .host => if off = Reg.Hst.BAR2_BASE_HI then writeBar2Hi s v else rwrite s b off v
    | .glob p => writeGlobal s p off v
    | .vu _ | .dir _ | .proxy _ | .router _ | .clock _ | .sensors _ => rwrite s b off v

/-- A register of the common header. -/
def writeHeader (s : State) (b : Block) (off : Nat) (v : Word) : State :=
  if off = Reg.Hdr.CTRL then writeCtrl s b v
  else if off = Reg.Hdr.ERR_STATUS then writeErrStatus s b v
  else if off = Reg.Hdr.LATCH_CTRL then writeLatchCtrl s b v
  else rwrite s b off v

/-- A 32-bit write of a register: ignored on a page that is not open, and on a page of the standby, which raises
STANDBY_WRITE. -/
def regWrite (s : State) (page : Block) (off : Nat) (v : Word) : State :=
  if !pageOpen s page then s
  else
    let b := shownBlock s page
    if b ≠ page then raise s b (standbyCause b)
    else if off < 0x100 then writeHeader s b off v
    else writeOwn s b off (byHost s b off v)

/-- REGISTER_WRITE: a write of a register, under its access code and its behaviour. -/
def execRegisterWrite (b : Block) (offset : Nat) (v : Word) (s : State) : Host.Outcome State Fault Refusal :=
  .next (if offset % 4 = 0 && offset < 4096 then regWrite s b offset v else s)

end Sys2Proof.Machine
end

