-- ==== Sys2Proof/Machine/Gather.lean ====
section
/-!
DEFINITION. GATHER, SCATTER_ADD and TRANSPOSE_COPY, which run on the GME alone (R168–R171, R210–R217).
-/
namespace Sys2Proof.Machine

/-- Stop DEFECT with a cause of the GME page. -/
def gmeDefect {α : Type} (c : CoreId) (ws : List Word) (cause : Nat) : Run α :=
  defectAt (.gme c) cause (cmdTag ws) (cmdOp ws)

/-- The pieces of block `i` of `b` indices along an axis: row, first element, elements (R210). -/
def blockSegs (exts : List Nat) (axis b i : Nat) : List (Nat × Nat × Nat) :=
  let last := exts.getLastD 1
  let rows := exts.dropLast.foldl (· * ·) 1
  if axis + 1 = exts.length then (List.range rows).map (fun r => (r, i * b, b))
  else
    let e := exts.getD axis 1
    let outer := (exts.take axis).foldl (· * ·) 1
    let inner := (exts.dropLast.drop (axis + 1)).foldl (· * ·) 1
    (List.range outer).flatMap (fun o => (List.range b).flatMap (fun t => (List.range inner).map (fun r =>
      ((o * e + i * b + t) * inner + r, 0, last))))

/-- Read element codes; none where a request is refused (R365). -/
def readCodesMaybe (r : Req) (d : Desc) (row j0 n : Nat) : Run (Option (List Nat)) := do
  let before := (← get).refused
  modify (fun x => { x with refused := false })
  match ← attempt (readCodes r d row j0 n) with
  | .ok l =>
    modify (fun x => { x with refused := before })
    return some l
  | .error .refused =>
    modify (fun x => { x with refused := true })
    return none
  | .error st =>
    modify (fun x => { x with refused := x.refused || before })
    stop st

/-- Read the pieces of a block; none where a request of any of them is refused. -/
def readSegs (r : Req) (d : Desc) : List (Nat × Nat × Nat) → Run (Option (List (List Nat)))
  | [] => return some []
  | (row, j0, n) :: t => do
    let x ← readCodesMaybe r d row j0 n
    let y ← readSegs r d t
    match x, y with
    | some x, some y => return some (x :: y)
    | _, _ => return none

/-- Write the pieces of a block. -/
def writeSegs (r : Req) (d : Desc) (segs : List (Nat × Nat × Nat)) (codes : List (List Nat)) : Run Unit :=
  (segs.zip codes).forM (fun ((row, j0, _), cs) => writeCodes r d row j0 cs)

/-! ### Indices (R211) -/

/-- What an index selects: its block, whether it is in range; none where it is dropped. -/
structure Pick where
  block   : Option Nat
  inRange : Bool
  deriving DecidableEq, Repr

/-- Apply an INDEX_POLICY to entry `j` with value `i`, `n` blocks (R211). -/
def pickIndex (c : CoreId) (ws : List Word) (policy n j : Nat) (i : Int) : Run Pick := do
  if 0 ≤ i && i < n then return { block := some i.toNat, inRange := true }
  match policy with
  | 1 =>
    act (fun s => bump s (.gme c) 14 1)
    return { block := some (if i < 0 then 0 else n - 1), inRange := false }
  | 2 =>
    act (fun s => bump s (.gme c) 14 1)
    return { block := none, inRange := false }
  | _ =>
    act (fun s =>
      let s := if rbit s (.gme c) Reg.Gme.INDEX_FAULT_POS 31 then s
        else rput (rput s (.gme c) Reg.Gme.INDEX_FAULT_POS (wordOf (2 ^ 31 + j))) (.gme c) Reg.Gme.INDEX_FAULT_VALUE
          (BitVec.ofInt 32 i)
      let syn := [rget s (.gme c) Reg.Gme.INDEX_FAULT_POS, rget s (.gme c) Reg.Gme.INDEX_FAULT_VALUE]
      raiseWith s (.gme c) 17 { tag := cmdTag ws, opcode := cmdOp ws, syn := syn })
    markDefect
    return { block := none, inRange := false }

/-- Read `n` entries of a list of INT32 indices from entry `e0` on, each with its number. -/
def readIndices (r : Req) (t : Tensor) (e0 n : Nat) : Run (List (Int × Nat)) := do
  return (← readCodes r t.d 0 e0 n).zipIdx.map (fun (x, i) => (signed 32 x, e0 + i))

/-- Element positions that GATHER and SCATTER_ADD along AXIS 1 may cut: whole bytes (R210). -/
def wholeBlocks (fmt axis b : Nat) : Bool :=
  axis = 0 || (if elemBits fmt = 4 then b % 2 = 0 else if elemBits fmt = 6 then b % 4 = 0 else true)

/-- Are two lists of extents equal, but for the axis, where the second has `n`? -/
def axisShape (a b : List Nat) (axis n : Nat) : Bool := setAt a axis n = b

/-! ### GATHER (R210–R213) -/

/-- A word of FP32 in a BIAS row. -/
def biasCode (ok : Bool) : Nat := if ok then 0 else 0xFF800000

/-- The bias of one index, in every row (R210). -/
def writeBias (r : Req) (t : Option Tensor) (j b : Nat) (ok : Bool) : Run Unit :=
  match t with
  | none => pure ()
  | some t => forN t.d.rows (fun row => writeCodes r t.d row (j * b) (List.replicate b (biasCode ok)))

/-- The blocks that the merge buffer keeps, latest first (R212). -/
abbrev MergeBuffer : Type := List (Nat × List (List Nat))

/-- A source block, from the merge buffer or from memory. -/
def fetchBlock (c : CoreId) (r : Req) (src : Desc) (axis b bytes i : Nat) (buf : MergeBuffer) :
    Run (MergeBuffer × Option (List (List Nat))) := do
  match buf.find? (fun x => x.1 = i) with
  | some x =>
    act (fun s => bump s (.gme c) 13 1)
    return (x :: buf.filter (fun y => y.1 ≠ i), some x.2)
  | none =>
    act (fun s => bump s (.gme c) 12 1)
    match ← readSegs r src (blockSegs src.exts axis b i) with
    | some l => return (if bytes ≤ 2048 then ((i, l) :: buf).take 16 else buf, some l)
    | none => return (buf, none)

/-- GATHER, index by index. -/
def gatherLoop (c : CoreId) (ws : List Word) (r : Req) (src out : Desc) (bias : Option Tensor) (axis b : Nat) :
    List (Int × Nat) → MergeBuffer → Run MergeBuffer
  | [], buf => pure buf
  | (i, j) :: t, buf => do
    let p ← pickIndex c ws src.policy (src.ext axis / b) j i
    let segs := blockSegs out.exts axis b j
    match p.block with
    | none =>
      writeSegs r out segs (segs.map (fun (_, _, n) => List.replicate n 0))
      writeBias r bias j b false
      gatherLoop c ws r src out bias axis b t buf
    | some k =>
      let bytes := cdiv (((blockSegs src.exts axis b k).map (fun x => x.2.2)).foldl (· + ·) 0 * elemBits src.fmt) 8
      let (buf, l) ← fetchBlock c r src axis b bytes k buf
      match l with
      | some l =>
        writeSegs r out segs l
        writeBias r bias j b p.inRange
      | none => pure ()
      gatherLoop c ws r src out bias axis b t buf

/-- GATHER. -/
def runGather (c : CoreId) (x : Slot) : Run Unit := do
  let ws := x.words
  let f : FrontId := .cp c
  act (fun s => latchPage s f x.id (.gme c))
  let src ← loadDesc f ws (cf ws 2 15 0) 0
  let out ← loadDesc f ws (cf ws 2 31 16) 0
  let idx ← loadDesc f ws (cf ws 3 15 0) 0
  let bias ← loadOpt f ws (cf ws 3 31 16) 0
  checkDest f ws out
  checkDestOpt f ws bias
  let b := 2 ^ cf ws 4 3 0
  let axis := cf ws 4 4 4
  let n := idx.d.ext 0 * b
  let biasShape := match bias with
    | none => true
    | some t => t.d.exts = [n] || (t.d.rank = 2 && t.d.ext 1 = n)
  if src.d.rank ≤ axis || idx.d.rank ≠ 1 || src.d.ext axis % b ≠ 0 || !axisShape src.d.exts out.d.exts axis n ||
      !biasShape then gmeDefect c ws 23
  if idx.d.fmt ≠ 0xE || isMx src.d.fmt || out.d.fmt ≠ src.d.fmt || !wholeBlocks src.d.fmt axis b ||
      bias.toList.any (fun t => t.d.fmt ≠ 0x7) ||
      rangesMeet out.ranges (src.ranges ++ idx.ranges ++ bias.toList.flatMap Tensor.ranges) then gmeDefect c ws 24
  let r := cmdReq (.gme c) ws
  -- the indices are read up to 256 entries ahead
  let _ ← (groups (idx.d.ext 0) 256).foldlM (fun buf (e0, k) => do
    gatherLoop c ws r src.d out.d bias axis b (← readIndices r idx e0 k) buf) []

/-- GATHER: blocks of a tensor selected by a list. -/
def execGather (c : CoreId) (slot : Nat) (s : State) : Host.Outcome State Fault Refusal :=
  .next (startCommand s (.cp c) slot [0x10] false (fun s x => runSlot s (.cp c) x (runGather c x)))

/-! ### SCATTER_ADD (R214–R217) -/

/-- Allowed pairs of TARGET and SRC formats (R214). -/
def scatterPair (t s : Nat) : Bool :=
  match t with
  | 0x7 => s = 0x7 || s = 0x5 || s = 0x6
  | 0x5 => s = 0x5 || s = 0x7
  | 0xE => s = 0xE
  | _ => false

/-- The new code of a target element from its code and its contributions (R215, R216), and whether an INT32 sum has
left its range. -/
def scatterElem (tf sf : Nat) (old : Nat) (cs : List Nat) : Nat × Bool :=
  if tf = 0xE then
    let v := (cs.map (signed 32)).foldl (· + ·) (signed 32 old)
    ((v % 2 ^ 32).toNat, v < -(2 ^ 31) || 2 ^ 31 ≤ v)
  else
    let v := ((cs.map (decodeElem sf)).foldl LongSum.add (LongSum.zero.add (decodeElem tf old))).val
    (match elemFmt tf with
      | some f => (f.convert .nearest false v).1
      | none => 0, false)

/-- Apply the contributions of one target block. -/
def scatterBlock (c : CoreId) (ws : List Word) (r : Req) (src tgt : Desc) (axis b k : Nat) (js : List Nat) :
    Run Unit := do
  let parts ← js.mapM (fun j => do
    match ← readSegs r src (blockSegs src.exts axis b j) with
    | some l => return l
    | none => stop .refused)
  let segs := blockSegs tgt.exts axis b k
  let new ← segs.zipIdx.mapM (fun ((row, j0, n), i) => do
    let old ← readCodes r tgt row j0 n
    let es := old.mapIdx (fun m o => scatterElem tgt.fmt src.fmt o (parts.map (fun p => (p.getD i []).getD m 0)))
    forN (es.filter (·.2)).length (fun _ => act (fun s => raiseTag s (.gme c) 22 (cmdTag ws) (cmdOp ws)))
    return es.map (·.1))
  writeSegs r tgt segs new
  reportNf (cb ws 4 5) (tgt.fmt ≠ 0xE && new.any (fun l => l.any (fun x => (decodeElem tgt.fmt x).nonfinite)))
  act (fun s => bump (bump s (.gme c) 16 1) (.gme c) 15 (js.length - 1))

/-- One combine window: the entries by target block, in increasing block order (R215). -/
def scatterWindow (c : CoreId) (ws : List Word) (r : Req) (src tgt : Desc) (axis b : Nat) (es : List (Int × Nat)) :
    Run Unit := do
  let ps ← es.mapM (fun (i, j) => do return (← pickIndex c ws tgt.policy (tgt.ext axis / b) j i, j))
  let hits := ps.filterMap (fun (p, j) => p.block.map (fun k => (k, j)))
  let blocks := hits.foldl (fun l (k, _) => sinsert l k) []
  blocks.forM (fun k => scatterBlock c ws r src tgt axis b k ((hits.filter (fun h => h.1 = k)).map (·.2)))

/-- SCATTER_ADD. -/
def runScatter (c : CoreId) (x : Slot) : Run Unit := do
  let ws := x.words
  let f : FrontId := .cp c
  act (fun s => latchPage s f x.id (.gme c))
  let src ← loadDesc f ws (cf ws 2 15 0) 0
  let tgt ← loadDesc f ws (cf ws 2 31 16) 0
  let idx ← loadDesc f ws (cf ws 3 15 0) 0
  checkDest f ws tgt
  let b := 2 ^ cf ws 4 3 0
  let axis := cf ws 4 4 4
  if tgt.d.rank ≤ axis || idx.d.rank ≠ 1 || tgt.d.ext axis % b ≠ 0 ||
      !axisShape tgt.d.exts src.d.exts axis (idx.d.ext 0 * b) then gmeDefect c ws 23
  if idx.d.fmt ≠ 0xE || !scatterPair tgt.d.fmt src.d.fmt || rangesMeet tgt.ranges (src.ranges ++ idx.ranges) then
    gmeDefect c ws 24
  let r := cmdReq (.gme c) ws
  (groups (idx.d.ext 0) 4096).forM (fun (e0, k) => do
    scatterWindow c ws r src.d tgt.d axis b (← readIndices r idx e0 k))

/-- SCATTER_ADD: blocks added into a tensor at listed places. -/
def execScatterAdd (c : CoreId) (slot : Nat) (s : State) : Host.Outcome State Fault Refusal :=
  .next (startCommand s (.cp c) slot [0x11] false (fun s x => runSlot s (.cp c) x (runScatter c x)))

/-! ### TRANSPOSE_COPY (R168–R171) -/

/-- A permute plan: source, destination, the source dimension of each destination dimension, in-place mode. -/
structure Plan where
  src     : Tensor
  dst     : Tensor
  perm    : List Nat
  inPlace : Bool
  deriving DecidableEq, Repr

/-- PERM of a plan's words. -/
def permOf (ws : List Word) : List Nat :=
  (List.range (cf ws 0 6 4)).map (fun d => bits (wordAt ws 2) (3 * d + 2) (3 * d))

/-- Load a plan and its members (R165, R166). -/
def loadPlan (f : FrontId) (ws : List Word) (i : Nat) : Run Plan := do
  let p ← loadDesc f ws i 3
  let w := p.d.words
  let src ← loadDesc f ws (cf w 1 15 0) 0
  let dst ← loadDesc f ws (cf w 1 31 16) 0
  if src.d.seq ≠ cf w 3 7 0 || dst.d.seq ≠ cf w 3 15 8 then refuseDesc f ws 5
  return { src := src, dst := dst, perm := permOf w, inPlace := cb w 2 31 }

/-- The index of the source element of a destination element (R170). -/
def permIndex (perm js : List Nat) : List Nat :=
  (List.range perm.length).map (fun k => match perm.idxOf? k with
    | some d => js.getD d 0
    | none => 0)

/-- Row and column of an element from its indices. -/
def rowCol (exts is : List Nat) : Nat × Nat :=
  ((is.dropLast.zip exts.dropLast).foldl (fun n (i, e) => n * e + i) 0, is.getLastD 0)

/-- One row of the destination. -/
def transposeRow (r : Req) (p : Plan) (row : Nat) : Run Unit := do
  let d := p.dst.d
  let outer := rowIndices d.exts.dropLast row
  let n := d.last
  if p.perm.getLastD 0 + 1 = p.perm.length then
    let (sr, _) := rowCol p.src.d.exts (permIndex p.perm (outer ++ [0]))
    writeCodes r d row 0 (← readCodes r p.src.d sr 0 n)
  else
    let cs ← (List.range n).mapM (fun j => do
      let (sr, sc) := rowCol p.src.d.exts (permIndex p.perm (outer ++ [j]))
      return (← readCodes r p.src.d sr sc 1).getD 0 0)
    writeCodes r d row 0 cs

/-- One tile of the in-place mode: read whole, then written (R171). -/
def transposeTileInPlace (r : Req) (d : Desc) (t : Nat) : Run Unit := do
  let n := d.last
  let rows ← (List.range n).mapM (fun i => readCodes r d (t * n + i) 0 n)
  forN n (fun i => writeCodes r d (t * n + i) 0 (rows.map (fun l => l.getD i 0)))

/-- TRANSPOSE_COPY. -/
def runTranspose (c : CoreId) (x : Slot) : Run Unit := do
  let ws := x.words
  let f : FrontId := .cp c
  act (fun s => latchPage s f x.id (.gme c))
  let p ← loadPlan f ws (cf ws 2 15 0)
  checkDest f ws p.dst
  let r := cmdReq (.gme c) ws
  let d := p.dst.d
  if p.inPlace then
    forN (d.rows / d.last) (fun t => do
      transposeTileInPlace r d t
      act (fun s => bump s (.gme c) 5 (d.last * d.rowBytes)))
  else
    forN d.rows (fun row => do
      transposeRow r p row
      act (fun s => bump s (.gme c) 5 d.rowBytes))

/-- TRANSPOSE_COPY: a tensor with its dimensions permuted. -/
def execTransposeCopy (c : CoreId) (slot : Nat) (s : State) : Host.Outcome State Fault Refusal :=
  .next (startCommand s (.cp c) slot [0x19] false (fun s x => runSlot s (.cp c) x (runTranspose c x)))

end Sys2Proof.Machine
end

