-- ==== Sys2Proof/Machine/Gme.lean ====
section
/-!
DEFINITION. The Gather-Merge Engine's window-mode products: MATMUL_POD, MATMUL_POD_T, MASKED_PRODUCT and PREDICT
(R187–R209, R218–R222), and the publish locks that hold their reads (R248).
-/
namespace Sys2Proof.Machine

/-! ### Directory reads of a command (R195, R184, R185) -/

/-- A cause of the GME page for a command. -/
def raiseGme (c : CoreId) (ws : List Word) (cause : Nat) (syn : List Word) : Run Unit :=
  act (fun s => raiseWith s (.gme c) cause { tag := cmdTag ws, opcode := cmdOp ws, syn := syn })

/-- Record a directory entry in a fault register of the GME page, unless it holds one. -/
def noteFaultEntry (s : State) (c : CoreId) (reg e : Nat) : State :=
  if rbit s (.gme c) reg 31 then s else rput s (.gme c) reg (wordOf (2 ^ 31 + e))

/-- The entry of a tile: read once for each command, when its tile is first reached (R195). -/
def tileEntry (c : CoreId) (rq : Req) (g : Grid) (tn tk : Nat) (l : TileLoop) : Run (TileLoop × DirEntry) := do
  let q := tn * g.cols + tk
  match l.entries.find? (fun x => x.1 = q) with
  | some x => return (l, x.2)
  | none =>
    let x ← readDirEntry rq (g.entry tn tk)
    act (fun s => bump s (.gme c) 11 1)
    return ({ l with entries := (q, x) :: l.entries }, x)

/-- A tile has been read: its runs with scale 0xFF are counted, and what a malformed part does (R185). -/
def noteMalformed (c : CoreId) (ws : List Word) (e : Nat) (t : TileRead) : Run Unit := do
  act (fun s => bump s (.array c) 12 t.ff)
  if t.fault.isSome || t.zeroed ≠ 0 then
    act (fun s => noteFaultEntry (bump (bump s (.gme c) 3 t.zeroed) (.gme c) 4 (if t.fault.isSome then 1 else 0)) c
      Reg.Gme.POD_FAULT e)
    let r ← look (rget · (.gme c) Reg.Gme.POD_FAULT)
    raiseGme c ws (if t.fault = some .range then 16 else 15) [r]
    markDefect
  else pure ()

/-- The forward form of a tile, read when first reached. -/
def tileForward (c : CoreId) (ws : List Word) (rq : Req) (g : Grid) (tn tk : Nat) (l : TileLoop) :
    Run (TileLoop × List (List PodSlot)) := do
  let q := tn * g.cols + tk
  match l.tiles.find? (fun x => x.1 = q) with
  | some x => return (l, x.2.rows)
  | none =>
    let (l, x) ← tileEntry c rq g tn tk l
    let t ← readForward rq g x
    if x.pod = podZero then act (fun s => bump s (.gme c) 8 1)
    noteMalformed c ws x.e t
    return ({ l with tiles := (q, t) :: l.tiles }, t.rows)

/-- An operand that stands for nothing. -/
def noElem : Elem := { v := Val.zero, sx := some 0 }

/-- The sum of one unit over one window: each slot of its row by the element at the slot's position (R187–R189). An absent
slot forms no product. -/
def windowAcc (fmt : Nat) (xs : List Elem) (row : List PodSlot) (a : Acc) : Acc :=
  row.foldl (fun a x =>
    match x.pos with
    | some p => if x.present fmt then a.term (xs.getD p noElem) (x.elem fmt) else a
    | none => a) a

/-- The beats of a 32-row group on one window (R190, R197). -/
def windowBeats (rows : List (List PodSlot)) : Nat := maxOf 0 (rows.map (fun r => cdiv r.length 32))

/-- Count the beats of a window (R197). -/
def noteWindow (c : CoreId) (beats : Nat) : Run Unit := act (fun s => bump (bump s (.gme c) 6 beats) (.gme c) 7 (beats - 1))

/-- One window of a tile: rows of A on the lanes, the given rows of slots on the columns. -/
def windowStep (c : CoreId) (rq : Req) (a : Tensor) (fmt m0 mn w : Nat) (rows : List (List PodSlot))
    (st : Nat × List (List Acc)) : Run (Nat × List (List Acc)) := do
  let beats := windowBeats rows
  if beats = 0 then return st
  noteWindow c beats
  let xs ← (List.range mn).mapM (fun j => readElems rq a (m0 + j) (128 * w) 128)
  noteFf c (128 * w) xs
  return (st.1 + beats, (st.2.zip xs).map (fun (as, x) => (as.zip rows).map (fun (a, r) => windowAcc fmt x r a)))

/-- Empty accumulators for a tile. -/
def noAccs (mn nn : Nat) : List (List Acc) := List.replicate mn (List.replicate nn Acc.zero)

/-- Windows of a chunk (R192): CHUNK_LOG2 below 7 acts as 7. -/
def chunkWindows (ws : List Word) : Nat := max 128 (2 ^ cf ws 4 4 0) / 128

/-! ### Locks (R248) -/

/-- The first entry of a list that an active lock of the core's CD holds against the command of a slot, with the engine that
publishes: the command is not old for that lock. -/
def lockedEntry (s : State) (c : CoreId) (slot : Nat) (es : List Nat) : Option (Nat × HubId) :=
  let ls := s.locks.filter (fun l => l.active && l.holder = .proxy (Fin.ofNat 16 (c.val / 8)) &&
    !l.old.contains (c.val, slot))
  es.findSome? (fun e => (ls.find? (fun l => l.first ≤ e && e ≤ l.last)).map (fun l => (e, l.hub)))

/-- A window-mode command waits at its first read of a locked entry. -/
def holdForLock (c : CoreId) (slot : Nat) (es : List Nat) : Run Unit := do
  match ← look (lockedEntry · c slot es) with
  | some e =>
    modify (fun r => { r with lock := some e })
    stop .delayed
  | none => pure ()

/-- A command that a lock has held ends its wait: the trace's record of it (R460). -/
def endLockWait (s : State) (c : CoreId) (x : Slot) : State :=
  match x.held with
  | some (w, e, h) =>
    traceWait s (.gme c) (some w) (fun w len =>
      { kind := TraceKind.lockWait, tag := cmdTag x.words, object := 0, queue := x.queue, opcode := cmdOp x.words,
        value := 0, start := w, length := len,
        rel := { unit := (Block.hub h).unit, node := (nodeId s).val, tag := 0 }, entry := e })
  | none => s

/-- A command that waits at a lock since now, with the entry and the engine that it waits for; one that has waited before
keeps those. -/
def heldBy (s : State) (x : Slot) (r : RunState) : Slot :=
  match x.held, r.lock with
  | none, some (e, h) => { x with held := some (waitNow s, e, h) }
  | _, _ => x

/-- Run a command that a lock may hold. -/
def runHeld (s : State) (f : FrontId) (c : CoreId) (x : Slot) (body : Run Unit) : State :=
  match runFrom body x.memo s with
  | (r, .delayed) => waitSlot s f (heldBy s x r) r
  | (r, st) => endSlot (endLockWait r.st c x) f x.id st

/-- Entries of a grid's tiles. -/
def Grid.entries (g : Grid) : List Nat := g.tiles.map (fun (tn, tk) => g.entry tn tk)

/-! ### MATMUL_POD (R199–R201, R221, R222) -/

/-- The descriptors that a window-mode command names beside its pod-tiled operand. -/
structure WindowArgs where
  a    : Tensor
  g    : Grid
  tot  : Tensor
  out  : Option Tensor
  stat : Option Tensor

/-- Load A, B, C, OUT and STAT_DESC (R165, R166), and refuse destinations that overlap themselves. -/
def loadWindow (c : CoreId) (x : Slot) : Run WindowArgs := do
  let ws := x.words
  let f : FrontId := .cp c
  act (fun s => latchPage s f x.id (.gme c))
  let a ← loadDesc f ws (cf ws 2 15 0) 0
  let b ← loadDesc f ws (cf ws 2 31 16) 1
  let t ← loadDesc f ws (cf ws 3 15 0) 0
  let o ← loadOpt f ws (cf ws 3 31 16) 0
  let st ← if cmdOp ws = 0x04 then pure none else loadOpt f ws (cf ws 5 31 16) 0
  checkDest f ws t
  checkDestOpt f ws o
  checkDestOpt f ws st
  let g ← loadGrid f b.d
  return { a := a, g := g, tot := t, out := o, stat := st }

/-- How a column of a neuron list stands (R211, R221). -/
inductive NeuronCol where
  | row (n : Nat) (audit : Bool)
  | dropped
  | zero (n : Nat)
  deriving DecidableEq, Repr

/-- The column of list entry `c`, by the policy of B (R211): its neuron, and what an index out of range does. -/
def neuronCol (core : CoreId) (ws : List Word) (g : Grid) (i : Nat) (entry : Nat) : Run NeuronCol := do
  let n := entry % 2 ^ 24
  let e := g.d.ext 0
  let audit := entry.testBit 30
  if n < e then return .row n audit
  match g.d.policy with
  | 1 =>
    act (fun s => bump s (.gme core) 14 1)
    return .row (e - 1) audit
  | 2 =>
    act (fun s => bump s (.gme core) 14 1)
    return .zero n
  | _ =>
    act (fun s => if rbit s (.gme core) Reg.Gme.INDEX_FAULT_POS 31 then s
      else rput (rput s (.gme core) Reg.Gme.INDEX_FAULT_POS (wordOf (2 ^ 31 + i))) (.gme core)
        Reg.Gme.INDEX_FAULT_VALUE (wordOf n))
    let s ← look id
    raiseGme core ws 17 [rget s (.gme core) Reg.Gme.INDEX_FAULT_POS, rget s (.gme core) Reg.Gme.INDEX_FAULT_VALUE]
    markDefect
    return .dropped

/-- The columns of a tile of a neuron list. -/
def listCols (ws : List Word) (scatter : Bool) (c0 : Nat) (ns : List NeuronCol) : List Col :=
  let base := signed 32 (wordAt ws 7).toNat
  ns.mapIdx (fun u n =>
    match n with
    | .row r audit =>
      { unit := u, c := c0 + u, o := some (if scatter then r else c0 + u), idx := base + r,
        keep := if audit then some (c0 + u) else none, write := true, zero := false }
    | .dropped => { unit := u, c := c0 + u, o := none, idx := base, keep := none, write := false, zero := false }
    | .zero r =>
      { unit := u, c := c0 + u, o := if scatter then none else some (c0 + u), idx := base + r,
        keep := none, write := true, zero := true })

/-- The rows of slots of a tile's columns on window `w`. -/
def columnRows (c : CoreId) (ws : List Word) (rq : Req) (g : Grid) (w : Nat) :
    List NeuronCol → TileLoop → Run (TileLoop × List (List PodSlot))
  | [], l => pure (l, [])
  | .row n _ :: t, l => do
    let (l, rows) ← tileForward c ws rq g (n / 128) w l
    let (l, rest) ← columnRows c ws rq g w t l
    return (l, rows.getD (n % 128) [] :: rest)
  | _ :: t, l => do
    let (l, rest) ← columnRows c ws rq g w t l
    return (l, [] :: rest)

/-- A chunk of windows of a tile of MATMUL_POD or PREDICT. -/
def podChunk (c : CoreId) (ws : List Word) (rq : Req) (a : Tensor) (g : Grid) (m0 mn : Nat) (ns : List NeuronCol)
    (w0 wn : Nat) : ChunkWork := fun l =>
  (List.range wn).foldlM (fun (l, beats, as) k => do
    let (l, rows) ← columnRows c ws rq g (w0 + k) ns l
    let (beats, as) ← windowStep c rq a g.fmt m0 mn (w0 + k) rows (beats, as)
    return (l, beats, as)) (l, 0, noAccs mn ns.length)

/-- The tiles of MATMUL_POD and PREDICT: lane groups by column groups of 32. -/
def podTiles (c : CoreId) (ws : List Word) (rq : Req) (lanes : List Nat) (a : Tensor) (g : Grid) (ns : List NeuronCol)
    (cols : Nat → List NeuronCol → List Col) : List OutTile :=
  (groups (a.d.ext 0) lanes.length).flatMap (fun (m0, mn) => (groups ns.length 32).map (fun (n0, nn) =>
    let sub := (ns.drop n0).take nn
    { lines := linesOf lanes m0 mn (cols n0 sub),
      chunks := (groups g.cols (chunkWindows ws)).map (fun (w0, wn) => podChunk c ws rq a g m0 mn sub w0 wn) }))

/-- Saturating 32-bit counts of a predictor layer. -/
def bumpPred (s : State) (c : CoreId) (layer audited misses : Nat) : State :=
  let k := c.val * 256 + layer
  let p := tget PredLayer.reset s.preds k
  let p := { p with audited := sat 32 (p.audited + audited), misses := sat 32 (p.misses + misses) }
  { s with preds := tset PredLayer.reset s.preds k p }

/-- The audit of R222: audited columns and misses go to the layer. -/
def noteAudit (c : CoreId) (ws : List Word) (kept : List (Nat × Val)) : Run Unit := do
  let th := f32 (wordAt ws 9)
  let cols := (kept.map (·.1)).eraseDups
  let misses := (cols.filter (fun n => kept.any (fun (k, y) => k = n && (y = .nan || y.gt th)))).length
  act (fun s =>
    let s := bumpPred s c (cf ws 10 7 0) cols.length misses
    bump (bump (bump s (.gme c) 19 cols.length) (.gme c) 20 misses) (.gme c) 21 (63 * misses))

/-- The neurons that a MATMUL_POD computes: every row of B, or those of its list. -/
def podNeurons (c : CoreId) (ws : List Word) (rq : Req) (w : WindowArgs) (list : Option Tensor) :
    Run (List NeuronCol) := do
  match list with
  | none => return (List.range (w.g.d.ext 0)).map (fun n => .row n false)
  | some t =>
    let n := (← readCodes rq t.d 0 0 1).getD 0 0
    if t.d.ext 0 ≤ max n (w.g.d.ext 0) || w.tot.d.ext 1 < max n (w.g.d.ext 0) then arrayDefect c ws 9
    let es ← readCodes rq t.d 0 1 n
    es.zipIdx.mapM (fun (e, i) => neuronCol c ws w.g (i + 1) e)

/-- The tile rows of B that a command reads. -/
def neuronEntries (g : Grid) (ns : List NeuronCol) : List Nat :=
  let rows := (ns.filterMap (fun n => match n with
    | .row n _ => some (n / 128)
    | _ => none)).eraseDups
  rows.flatMap (fun tn => (List.range g.cols).map (fun tk => g.entry tn tk))

/-- Validation of MATMUL_POD (R139, R200). -/
def validatePod (c : CoreId) (ws : List Word) (w : WindowArgs) (list : Option Tensor) : Run Unit := do
  let (n, k) := (w.g.d.ext 0, w.g.d.ext 1)
  let scatter := cb ws 8 16
  let m := w.a.d.ext 0
  let outShape := match w.out with
    | none => true
    | some o => if scatter then o.d.exts = [m, n] else o.d.exts = w.tot.d.exts
  if w.a.d.rank ≠ 2 || w.tot.d.rank ≠ 2 || cf ws 4 6 5 ≠ 0 || w.a.d.ext 1 ≠ k || w.tot.d.ext 0 ≠ m ||
      (list.isNone && w.tot.d.ext 1 ≠ n) || 2048 < w.g.rows * w.g.cols || (scatter && list.isNone) || !outShape ||
      !statShape w.tot.d w.stat then arrayDefect c ws 8
  let s ← look id
  let listBad := match list with
    | none => false
    | some t => t.d.kind ≠ 0 || t.d.rank ≠ 1 || t.d.fmt ≠ 0xE || t.d.ext 0 ≤ n || w.tot.d.ext 1 < n ||
        !rangeInCore s c .wm w.g.range
  if listBad || badOperands s c ws (w.a.ranges ++ [w.g.range]) [w.a.d.fmt] w.tot w.out w.stat then arrayDefect c ws 9
  if degraded s c [w.a.d.fmt, w.g.fmt] then arrayDefect c ws 12

/-- The lanes that carry a command's rows: a core whose lanes are all retired runs none (R198). -/
def lanesFor (c : CoreId) : Run (List Nat) := do
  let l ← look (activeLanes · c)
  if l = [] then stop .defect
  return l

/-- The drain of a window-mode command. -/
def windowDrain (c : CoreId) (ws : List Word) (w : WindowArgs) (tot : Option Tensor) (width : Nat) (cols : Bool) :
    Run DrainCtx := do
  let on ← look (checksOn · c (cb ws 4 11))
  return { core := c, ws := ws, tot := tot, out := w.out, stat := w.stat, width := width, checks := on, colChecks := cols,
           window := true, fmtA := w.a.d.fmt, fmtB := w.g.fmt,
           gather := w.out.toList.any (fun t => isMx t.d.fmt) && (cmdOp ws = 0x04 || cb ws 8 16) }

/-- MATMUL_POD. -/
def runPod (c : CoreId) (x : Slot) : Run Unit := do
  let ws := x.words
  let w ← loadWindow c x
  let list ← loadAnyOpt (.cp c) ws (cf ws 8 15 0)
  validatePod c ws w list
  let rq := cmdReq (.gme c) ws
  let lanes ← lanesFor c
  let ns ← podNeurons c ws rq w list
  holdForLock c x.id (neuronEntries w.g ns)
  act (fun s => latchPage s (.cp c) x.id (.array c))
  let d ← windowDrain c ws w (some w.tot) (ns.filter (· ≠ .dropped)).length true
  let cols := if list.isSome then listCols ws (cb ws 8 16) else fun n0 sub => plainCols ws n0 sub.length
  let (l, e) ← driveTiles d [plainStage (podTiles c ws rq lanes w.a w.g ns cols)] TileLoop.start
  if list.isSome then noteAudit c ws l.kept
  endTiles e

/-- MATMUL_POD: a product with a pod-tiled weight, of all its rows or of a neuron list's. -/
def execMatmulPod (c : CoreId) (slot : Nat) (s : State) : Host.Outcome State Fault Refusal :=
  .next (startCommand s (.cp c) slot [0x02] false (fun s x =>
    runHeld s (.cp c) c x (runPod c x)))

/-! ### MATMUL_POD_T (R202–R206) -/

/-- Bytes of a built form (R205): the pitch. -/
def formPitch (fmt nnz : Nat) : Nat :=
  128 + r64 nnz + r64 (packedBytes fmt nnz) + (if isMx fmt then r64 (cdiv nnz 32) else 0)

/-- The bytes of a built form, laid out as a transposed copy; the specification gives its scale bytes no values, since a
slot keeps the scale of its forward run: they are free. -/
def formBytes (fmt fresh : Nat) (rows : List (List PodSlot)) (pitch : Nat) : List Byte :=
  let slots := rows.flatten
  let idx := rows.map (fun r => BitVec.ofNat 8 r.length) ++ slots.map (fun x => BitVec.ofNat 8 (x.pos.getD 0))
  let vals := pack (elemBits fmt) 0 0 (List.replicate (packedBytes fmt slots.length) 0) (slots.map (·.code))
  let sc := if isMx fmt then (List.range (cdiv slots.length 32)).map (Config.freeByte fresh) else []
  let pad (l : List Byte) : List Byte := padTo (r64 l.length) l
  padTo pitch ((pad idx ++ pad vals ++ pad sc).take pitch)

/-- The scratch of a MATMUL_POD_T: where it lies, half its bytes, bytes used in the half. -/
structure Scratch where
  base : Nat
  half : Nat
  used : Nat
  deriving DecidableEq, Repr

/-- The transposed form of a tile (R203): its copy, or one that the gather builds at the next place of the half. -/
def tileForm (c : CoreId) (ws : List Word) (rq : Req) (g : Grid) (scr : Option Scratch) (tn tk : Nat) (l : TileLoop) :
    Run (TileLoop × Option Scratch × List (List PodSlot)) := do
  let (l, x) ← tileEntry c rq g tn tk l
  let empty := emptyTile none
  if entryFault g.fmt x then
    noteMalformed c ws x.e (emptyTile (some .format))
    return (l, scr, empty.rows)
  if x.pod = podZero then
    act (fun s => bump s (.gme c) 8 1)
    return (l, scr, empty.rows)
  if cf ws 8 17 16 = 0 && x.tValid then
    let t ← readTransposed rq g x
    noteMalformed c ws x.e t
    act (fun s => bump s (.gme c) 10 1)
    return (l, scr, t.rows)
  match scr with
  | none =>
    act (fun s => noteFaultEntry s c Reg.Gme.T_FAULT x.e)
    raiseGme c ws 18 [← look (rget · (.gme c) Reg.Gme.T_FAULT)]
    markDefect
    return (l, scr, empty.rows)
  | some k =>
    let t ← readForward rq g x
    noteMalformed c ws x.e t
    if t.fault.isSome then return (l, scr, empty.rows)
    let pitch := formPitch g.fmt x.nnz
    if k.half < k.used + pitch then
      raiseGme c ws 19 [rget (← look id) (.gme c) Reg.Gme.SCRATCH_USE]
      stop .defect
    let rows := transposeTile g.fmt (x.pod = podBlock) t.rows
    let fresh ← look (·.fresh)
    need (fun s => gWrite s rq (k.base + (tk % 2) * k.half + k.used) (formBytes g.fmt fresh rows pitch))
    act (fun s => bump (useFresh s) (.gme c) 9 1)
    let used := k.used + pitch
    act (fun s => rput s (.gme c) Reg.Gme.SCRATCH_USE
      (wordOf (max (rget s (.gme c) Reg.Gme.SCRATCH_USE).toNat used)))
    return (l, some { k with used := used }, rows)

/-- The forms of a tile column, in increasing t_n. -/
def columnForms (c : CoreId) (ws : List Word) (rq : Req) (g : Grid) (tk : Nat) :
    List Nat → Option Scratch → TileLoop → Run (TileLoop × List (List (List PodSlot)))
  | [], _, l => pure (l, [])
  | tn :: t, scr, l => do
    let (l, scr, rows) ← tileForm c ws rq g scr tn tk l
    let (l, rest) ← columnForms c ws rq g tk t scr l
    return (l, rows :: rest)

/-- The stage of tile column t_k: its forms are built, then its products run (R205). -/
def podTStage (c : CoreId) (ws : List Word) (rq : Req) (lanes : List Nat) (a : Tensor) (g : Grid)
    (scr : Option Scratch) (tk : Nat) : TileStage := fun l => do
  let (l, forms) ← columnForms c ws rq g tk (List.range g.rows) scr l
  let tiles := (groups (a.d.ext 0) lanes.length).flatMap (fun (m0, mn) => (List.range 4).map (fun j =>
    { lines := linesOf lanes m0 mn (plainCols ws (128 * tk + 32 * j) 32),
      chunks := (groups g.rows (chunkWindows ws)).map (fun (w0, wn) => fun l => do
        let (beats, as) ← (List.range wn).foldlM (fun st k =>
          windowStep c rq a g.fmt m0 mn (w0 + k) (((forms.getD (w0 + k) []).drop (32 * j)).take 32) st)
          (0, noAccs mn 32)
        return (l, beats, as)) : OutTile }))
  return (l, tiles)

/-- Validation of MATMUL_POD_T (R139, R200, R205). -/
def validatePodT (c : CoreId) (ws : List Word) (w : WindowArgs) (scr : Option Tensor) : Run Unit := do
  let (n, k) := (w.g.d.ext 0, w.g.d.ext 1)
  let m := w.a.d.ext 0
  if w.a.d.rank ≠ 2 || cf ws 4 6 5 ≠ 0 || w.a.d.ext 1 ≠ n || w.tot.d.exts ≠ [m, k] || 2048 < w.g.rows * w.g.cols ||
      w.out.toList.any (fun o => o.d.exts ≠ w.tot.d.exts) || !statShape w.tot.d w.stat then arrayDefect c ws 8
  let s ← look id
  let scrBad := scr.toList.any (fun t => !t.d.aligned || t.d.overlap || !rangeInCore s c .wm t.d.range)
  if scrBad || badOperands s c ws (w.a.ranges ++ [w.g.range]) [w.a.d.fmt] w.tot w.out w.stat then arrayDefect c ws 9
  if degraded s c [w.a.d.fmt, w.g.fmt] then arrayDefect c ws 12

/-- MATMUL_POD_T. -/
def runPodT (c : CoreId) (x : Slot) : Run Unit := do
  let ws := x.words
  let w ← loadWindow c x
  let t ← loadOpt (.cp c) ws (cf ws 8 15 0) 0
  validatePodT c ws w t
  let rq := cmdReq (.gme c) ws
  let lanes ← lanesFor c
  holdForLock c x.id w.g.entries
  act (fun s => rput (latchPage s (.cp c) x.id (.array c)) (.gme c) Reg.Gme.SCRATCH_USE 0)
  let d ← windowDrain c ws w (some w.tot) w.tot.d.last true
  let scr := t.map (fun t =>
    let (lo, hi) := t.d.range
    ({ base := lo.toNat, half := (hi - lo + 1).toNat / 2, used := 0 } : Scratch))
  let (_, e) ← driveTiles d ((List.range w.g.cols).map (podTStage c ws rq lanes w.a w.g scr)) TileLoop.start
  endTiles e

/-- MATMUL_POD_T: a product with the transposed weight. -/
def execMatmulPodT (c : CoreId) (slot : Nat) (s : State) : Host.Outcome State Fault Refusal :=
  .next (startCommand s (.cp c) slot [0x03] false (fun s x =>
    runHeld s (.cp c) c x (runPodT c x)))

/-! ### MASKED_PRODUCT (R207–R209) -/

/-- The slots of each row that pass `p` computes: excess slots, from number `cap` of the tile on, are not (R209). -/
def passSlots (cap p : Nat) (rows : List (List PodSlot × Nat)) : List (List PodSlot) :=
  rows.map (fun (r, first) => ((r.drop (32 * p)).take 32).take (cap - (first + 32 * p)))

/-- One pass of a group of tile rows: unit (l, u) forms slot 32 p + u of its row (R208). -/
def maskedTile (ws : List Word) (c : CoreId) (rq : Req) (lanes : List Nat) (xt dy : Tensor) (q tn tk cap r0 : Nat)
    (rows : List (List PodSlot × Nat)) (p : Nat) : OutTile :=
  let part := passSlots cap p rows
  let line (i : Nat) (r : List PodSlot × Nat) : Line :=
    { lane := lanes.getD i 0, row := q,
      cols := (part.getD i []).mapIdx (fun u _ =>
        { unit := u, c := r.2 + 32 * p + u, o := some (r.2 + 32 * p + u), idx := 0, keep := none, write := true,
          zero := false }) }
  { lines := rows.mapIdx (fun i r => line i r),
    chunks := (groups (xt.d.ext 0) (2 ^ cf ws 4 4 0)).map (fun (m0, mn) => fun l => do
      let beats := cdiv mn 32
      act (fun s => bump (bump s (.gme c) 6 beats) (.gme c) 7 (if p = 0 then 0 else beats))
      let xs ← (List.range mn).mapM (fun j => readElems rq xt (m0 + j) (128 * tk) 128)
      noteFf c (128 * tk) xs
      let as ← part.zipIdx.mapM (fun (sl, i) => do
        if sl = [] then return []
        let ys ← readElems rq dy (128 * tn + r0 + i) m0 mn
        noteFf c m0 [ys]
        return sl.map (fun s => match s.pos with
          | some k => (ys.zip xs).foldl (fun a (y, x) => a.term y (x.getD k noElem)) Acc.zero
          | none => Acc.zero))
      return (l, beats, as)) }

/-- The first slot number of each row (R175). -/
def firstSlots : List (List PodSlot) → Nat → List Nat
  | [], _ => []
  | r :: t, q => q :: firstSlots t (q + r.length)

/-- The stage of a tile of the mask. -/
def maskedStage (c : CoreId) (ws : List Word) (rq : Req) (lanes : List Nat) (xt dy : Tensor) (g : Grid) (cap : Nat)
    (tn tk : Nat) : TileStage := fun l => do
  let (l, rows) ← tileForward c ws rq g tn tk l
  let q := tn * g.cols + tk
  let numbered := rows.zip (firstSlots rows 0)
  if cap < (rows.map (·.length)).foldl (· + ·) 0 then
    raiseGme c ws 20 []
    markDefect
  let tiles := (groups 128 lanes.length).flatMap (fun (r0, rn) =>
    let part := (numbered.drop r0).take rn
    -- a pass that computes no slot takes no beat
    ((List.range (windowBeats (part.map (·.1)))).filter (fun p => (passSlots cap p part).any (· ≠ []))).map (fun p =>
      maskedTile ws c rq lanes xt dy q tn tk cap r0 part p))
  return (l, tiles)

/-- MASKED_PRODUCT. -/
def runMasked (c : CoreId) (x : Slot) : Run Unit := do
  let ws := x.words
  let w ← loadWindow c x
  let dy ← loadDesc (.cp c) ws (cf ws 8 15 0) 0
  let (n, k) := (w.g.d.ext 0, w.g.d.ext 1)
  let m := w.a.d.ext 0
  let tiles := w.g.rows * w.g.cols
  if w.a.d.rank ≠ 2 || cf ws 4 6 5 ≠ 0 || w.a.d.ext 1 ≠ k || dy.d.exts ≠ [n, m] || w.tot.d.rank ≠ 2 ||
      w.tot.d.ext 0 < tiles || 2048 < tiles || w.out.toList.any (fun o => o.d.exts ≠ w.tot.d.exts) then
    arrayDefect c ws 8
  let s ← look id
  if wordAt ws 5 ≠ 0 || cb ws 4 14 || badOperands s c ws (w.a.ranges ++ dy.ranges ++ [w.g.range]) [w.a.d.fmt, dy.d.fmt] w.tot w.out none then
    arrayDefect c ws 9
  if degraded s c [w.a.d.fmt, dy.d.fmt] then arrayDefect c ws 12
  let rq := cmdReq (.gme c) ws
  let lanes ← lanesFor c
  holdForLock c x.id w.g.entries
  act (fun s => latchPage s (.cp c) x.id (.array c))
  let d ← windowDrain c ws w (some w.tot) 0 false
  let d := { d with fmtB := dy.d.fmt }
  let (_, e) ← driveTiles d (w.g.tiles.map (fun (tn, tk) =>
    maskedStage c ws rq lanes w.a dy w.g (w.tot.d.ext 1) tn tk)) TileLoop.start
  endTiles e

/-- MASKED_PRODUCT: gradients at the stored positions. -/
def execMaskedProduct (c : CoreId) (slot : Nat) (s : State) : Host.Outcome State Fault Refusal :=
  .next (startCommand s (.cp c) slot [0x04] false (fun s x =>
    runHeld s (.cp c) c x (runMasked c x)))

/-! ### PREDICT (R218–R220) -/

/-- The largest score of a neuron; NaN if any score is. -/
def bestScore (kept : List (Nat × Val)) (n : Nat) : Val :=
  (kept.filter (fun x => x.1 = n)).foldl (fun t x =>
    if t = .nan || x.2 = .nan then .nan else if x.2.gt t then x.2 else t) (.inf true)

/-- At least, in IEEE order. -/
def Val.ge (x y : Val) : Bool := x ≠ .nan && y ≠ .nan && !y.gt x

/-- The list entry of a neuron, if it is listed (R219, R220). -/
def neuronEntry (enabled : Bool) (stride : Nat) (thresh margin s : Val) (n : Nat) : Option Nat :=
  if !enabled then some n
  else if s = .nan || s.ge thresh then some n
  else if s.ge (subF thresh margin) then some (2 ^ 31 + n)
  else if (n + stride) % 64 = 0 then some (2 ^ 30 + n)
  else none

/-- PREDICT. -/
def runPredict (c : CoreId) (x : Slot) : Run Unit := do
  let ws := x.words
  let f : FrontId := .cp c
  act (fun s => latchPage s f x.id (.gme c))
  let a ← loadDesc f ws (cf ws 2 15 0) 0
  let b ← loadDesc f ws (cf ws 2 31 16) 1
  let t ← loadDesc f ws (cf ws 8 15 0) 0
  checkDest f ws t
  let g ← loadGrid f b.d
  let n := g.d.ext 0
  if a.d.rank ≠ 2 || cf ws 4 6 5 ≠ 0 || a.d.ext 1 ≠ g.d.ext 1 || 2048 < g.rows * g.cols || 65536 < n then
    arrayDefect c ws 8
  let s ← look id
  if t.d.rank ≠ 1 || t.d.fmt ≠ 0xE || t.d.ext 0 ≤ n || wordAt ws 5 ≠ 0 || cb ws 4 14 ||
      2 ^ cf ws 4 4 0 < g.d.ext 1 || wordAt ws 3 ≠ 0 || !isOperandFmt a.d.fmt then arrayDefect c ws 9
  if degraded s c [a.d.fmt, g.fmt] then arrayDefect c ws 12
  let rq := cmdReq (.gme c) ws
  let lanes ← lanesFor c
  holdForLock c x.id g.entries
  act (fun s => latchPage s f x.id (.array c))
  let w : WindowArgs := { a := a, g := g, tot := t, out := none, stat := none }
  let d ← windowDrain c ws w none n true
  let cols (n0 : Nat) (sub : List NeuronCol) : List Col :=
    (plainCols ws n0 sub.length).map (fun c => { c with o := none, keep := some c.c })
  let ns := (List.range n).map (fun n => NeuronCol.row n false)
  let (l, e) ← driveTiles d [plainStage (podTiles c ws rq lanes a g ns cols)] TileLoop.start
  endTiles e
  let s ← look id
  let on := rbit s (.gme c) (Reg.Gme.PRED_LAYER + 4 * cf ws 11 7 0) 31
  let es := (List.range n).filterMap (fun n =>
    neuronEntry on x.startStride (f32 (wordAt ws 9)) (f32 (wordAt ws 10)) (bestScore l.kept n) n)
  writeCodes rq t.d 0 0 (es.length :: es)
  act (fun s => bump (bump s (.gme c) 17 es.length) (.gme c) 18 (es.filter (fun e => e.testBit 31)).length)

/-- PREDICT: the list of the neurons worth computing. -/
def execPredict (c : CoreId) (slot : Nat) (s : State) : Host.Outcome State Fault Refusal :=
  .next (startCommand s (.cp c) slot [0x05] false (fun s x =>
    runHeld s (.cp c) c x (runPredict c x)))

end Sys2Proof.Machine
end

