-- ==== Sys2Proof/Machine/HostPort.lean ====
section
/-!
DEFINITION. The host port (R505–R512): its link, its configuration space, the host's accesses through BAR0 and BAR2, MSI-X, and
its own resets. An access that arrives has been claimed by the PCIe layer: address assignment and Memory Space Enable are
the host's concern.
-/
namespace Sys2Proof.Machine

/-! ### Link and resets (R505, R512) -/

/-- A reset of the host port function alone: configuration space, BAR2_BASE, BAR2_CTRL and MSI-X return to their reset
values, and completions owed to the host are discarded. -/
def hostReset (s : State) : State := hostBase { s with host := HostPort.reset }

/-- HOST_LINK_UP: the link trains. It does not where no steward has passed ROM (R478), and runs at 64 GT/s in Flit mode
only. -/
def execHostLinkUp (t : LinkTrain) (flit : Bool) (s : State) : Host.Outcome State Fault Refusal :=
  .next (
    if s.steward.failed || s.inputs.resetHeld || rbit s .host Reg.Hst.LINK_STATUS 31 then s
    else if t.linked && t.good && [1, 4, 8, 16].contains t.width && 1 ≤ t.speed && t.speed ≤ 6 && (flit || t.speed ≠ 6) then
      rput s .host Reg.Hst.LINK_STATUS (wordOf (2 ^ 31 + oneIf flit 30 + t.width * 2 ^ 16 + t.speed))
    else s)

/-- PERST_N: its accepted assertion resets the host port. -/
def execPerstN (asserted : Bool) (s : State) : Host.Outcome State Fault Refusal :=
  .next (
    if s.inputs.resetHeld then s
    else
      let t := modInputs s (fun x => { x with perst := asserted })
      if asserted && !s.inputs.perst then hostReset t else t)

/-- HOT_RESET. -/
def execHotReset (s : State) : Host.Outcome State Fault Refusal := .next (hostReset s)

/-- HOST_LINK_DOWN. -/
def execHostLinkDown (s : State) : Host.Outcome State Fault Refusal :=
  .next (
    if rbit s .host Reg.Hst.LINK_STATUS 31 then
      raise (bump (rput (hostReset s) .host Reg.Hst.LINK_STATUS 0) .host 8 1) .host 8
    else s)

/-- HOST_FLR. -/
def execHostFlr (s : State) : Host.Outcome State Fault Refusal := .next (raise (bump (hostReset s) .host 9 1) .host 9)

/-! ### Configuration space (R505, R507, R508) -/

/-- Does the port answer configuration requests with Request Retry Status (R507)? -/
def configRetry (s : State) : Bool :=
  s.boot.phase = .rom || s.boot.phase = .identity || s.boot.phase = .image

/-- The bits of a base address register that the host writes: those above its size. BAR2's size is the current one. -/
def barMask (s : State) (off : Nat) : Nat :=
  match off with
  | 0x10 => 0xFC000000
  | 0x18 => (2 ^ 64 - 2 ^ (28 + s.host.bar2Size)) % 2 ^ 32
  | 0x1C => (2 ^ 64 - 2 ^ (28 + s.host.bar2Size)) / 2 ^ 32
  | 0x20 => 0xFFFF0000
  | 0x14 | 0x24 => 0xFFFFFFFF
  | _ => 0

/-- The type bits of a base address register: 64-bit, and for BAR2 prefetchable. -/
def barType (off : Nat) : Nat :=
  match off with
  | 0x10 | 0x20 => 4
  | 0x18 => 12
  | _ => 0

/-- The bits of COMMAND that the host writes: Memory Space, Bus Master, Parity, SERR, Interrupt Disable. -/
abbrev commandMask : Nat := 0x0546

/-- What the host has written to a register. -/
def configStored (s : State) (off : Nat) : Nat := (tget 0 s.host.config off).toNat

/-- A register of configuration space. What R505 does not give is free. -/
def configRead (s : State) (off : Nat) : Word :=
  if off = 0x00 then 0x32001FE5
  else if off = 0x04 then wordOf ((configStored s off &&& commandMask) + 0x00100000)
  else if off = 0x08 then 0x12000000 ||| (Config.pcieReg off &&& 0xFF)
  else if off = 0x0C then Config.pcieReg off &&& 0xFF00FFFF
  else if 0x10 ≤ off && off ≤ 0x24 then wordOf ((configStored s off &&& barMask s off) + barType off)
  else if off = 0x2C then wordOf s.boot.subsys
  else if off = 0x3C then wordOf (configStored s off % 256)
  else if off = Config.rebarControl then
    withBits (Config.pcieReg off) 13 8 ((s.host.bar2Resize.getD s.host.bar2Size) + 8)
  else Config.pcieReg off

/-- Memory Space Enable is set: a BAR2 resize that waits takes effect (R508). -/
def enableMemory (s : State) : State :=
  match s.host.bar2Resize with
  | none => { s with host := { s.host with memEnable := true } }
  | some k =>
    rputField { s with host := { s.host with memEnable := true, bar2Size := k, bar2Resize := none } } .host
      Reg.Hst.BAR2_CTRL 11 8 k

/-- A write of configuration space. -/
def configWrite (s : State) (off : Nat) (v : Word) : State :=
  let s := { s with host := { s.host with config := tset 0 s.host.config off v } }
  if off = 0x04 then
    if bit v 1 then enableMemory s else { s with host := { s.host with memEnable := false } }
  else if off = Config.rebarControl && 8 ≤ bits v 13 8 && s.boot.bar2Sizes.testBit (bits v 13 8 - 8) then
    { s with host := { s.host with bar2Resize := some (bits v 13 8 - 8) } }
  else s

/-- CONFIGURATION_REQUEST: Request Retry Status until the IMAGE state has ended, then the configuration. -/
def execConfigurationRequest (offset : Nat) (wr : Option Word) (s : State) : Host.Outcome State Fault Refusal :=
  .next (
    if s.steward.failed || s.inputs.resetHeld then s
    else if configRetry s then emit s .hostRetry
    else match wr with
      | some v => emit (configWrite s offset v) (.hostData false [])
      | none => emit s (.hostData false (leBytes 4 (configRead s offset).toNat)))

/-! ### BAR0 (R33, R449) -/

/-- Accesses to dies 30 and 31 wait through a switch-over, and complete after it. -/
def afterSwitch (s : State) (page : Nat) : State := if 30 * 256 ≤ page then switchOver s else s

/-- A BAR0 read of 32 or 64 bits. -/
def bar0Read (s : State) (x n : Nat) : State × Nat :=
  match (if x < 0x02000000 then blockAt (x / 4096) else none) with
  | none => (s, 0)
  | some b =>
    if n = 8 then regRead64 s b (x % 4096)
    else
      let (s, v) := regRead s b (x % 4096)
      (s, v.toNat)

/-- A BAR0 write of 32 or 64 bits: the low word first. -/
def bar0Write (s : State) (x n : Nat) (v : BitVec 64) : State :=
  match (if x < 0x02000000 then blockAt (x / 4096) else none) with
  | none => s
  | some b =>
    let s := regWrite s b (x % 4096) (wordOf v.toNat)
    if n = 8 then regWrite s b (x % 4096 + 4) (wordHi v.toNat) else s

/-- BAR0_ACCESS. -/
def execBar0Access (offset bytes : Nat) (wr : Option (BitVec 64)) (s : State) : Host.Outcome State Fault Refusal :=
  .next (
    if s.inputs.resetHeld || (s.steward.failed && s.boot.phase = .rom) then s
    else if (bytes = 4 || bytes = 8) && offset % bytes = 0 then
      let s := afterSwitch s (offset / 4096)
      match wr with
      | some v => bar0Write (bump s .host 1 1) offset bytes v
      | none =>
        let (s, n) := bar0Read (bump s .host 0 1) offset bytes
        emit s (.hostData false (leBytes bytes n))
    else
      let s := raise s .host Cause.ADDRESS
      match wr with
      | some _ => s
      | none => emit s (.hostData false (leBytes bytes 0)))

/-! ### BAR2 (R508, R509) -/

/-- Bytes that the BAR2 window spans. -/
def bar2Bytes (s : State) : Nat := 0x10000000 * 2 ^ s.host.bar2Size

/-- The parts of a write, at the boundaries of its requests. -/
def hostWrites : List (Nat × Nat) → List Byte → State → State
  | [], _, s => s
  | (a, n) :: t, d, s => hostWrites t (d.drop n) (hostWrite s a (d.take n))

/-- BAR2_ACCESS: split at 512-byte boundaries; a read waits for every earlier write. -/
def execBar2Access (offset : Nat) (a : Access) (s : State) : Host.Outcome State Fault Refusal :=
  .next (
    if s.inputs.resetHeld || configRetry s || bar2Bytes s < offset + accessBytes a then s
    else
      let ga := (s.host.bar2Base + offset) % 2 ^ 64
      match a with
      | .read n => hostReads { s with host := { s.host with reads := s.host.reads ++ requestCuts ga n } }
      | .write d => hostWrites (requestCuts ga d.length) d s)

/-! ### MSI-X (R511) -/

/-- MSI_X_UNMASK: a vector whose pending bit is set sends one message. -/
def execMsiXUnmask (vector : Fin 2048) (s : State) : Host.Outcome State Fault Refusal :=
  .next (
    let v := vector.val
    let pending := s.host.pendingMsi.contains v
    let s := { s with host := { s.host with unmasked := sinsert s.host.unmasked v, pendingMsi := sremove s.host.pendingMsi v } }
    if pending then sendMsi s v else s)

end Sys2Proof.Machine
end

