-- ==== Sys2Proof/Machine/Lapse.lean ====
section
/-!
DEFINITION. Requests that receive no response within their path's bound (R47, R90, R367, R389). A request that waits for
its answer is ended at once; one that its block is still to make is ended when it is made (`lapses`).
-/
namespace Sys2Proof.Machine

/-- A request whose maker waits for its answer. -/
inductive Owed where
  /-- one that has left for another device -/
  | remote (r : RemoteReq)
  /-- a SEM_OP of this front end and slot at a semaphore or a baton of this device -/
  | sem (f : FrontId) (slot : Nat)
  /-- one that is held -/
  | held (h : HeldReq)
  /-- a read that waits at the larder for this entry -/
  | larder (die : LarderId) (block : Nat)
  /-- an access at a CXL port -/
  | cxl (q : CxlReq)
  deriving DecidableEq, Repr

/-- The block that made a request to another device. -/
def RemoteReq.block (r : RemoteReq) : Block :=
  match r.use with
  | .semOp f _ => f.block
  | .dmaWrite c ch => .dma c ch
  | .hostRead _ | .hostWrite _ _ => .host

/-- The SEM_OP that an operation on its way to a semaphore or a baton is of. -/
def semOwed (who : Block) (m : SemMsg) : Option Owed :=
  match m.reply with
  | .slot f n => if f.block = who then some (.sem f n) else none
  | _ => none

/-- Does a held request's maker, on this device, wait for its answer? -/
def heldOwed (who : Block) (h : HeldReq) : Bool :=
  h.who = who && !h.answered && match h.reply with
    | .unit | .host _ => true
    | _ => false

/-- The requests of a block that wait for their answers. -/
def owedOf (s : State) (who : Block) : List Owed :=
  (s.remotes.filter (fun r => r.block = who)).map .remote ++ s.semMsgs.filterMap (semOwed who) ++
    (s.held.filter (heldOwed who)).map .held ++
    (s.pendingReads.filter (fun e => !e.answered && e.readers.any (fun x => x.1 = who))).map (fun e => .larder e.die e.block) ++
    (s.cxlReqs.filter (fun q => q.who = who && q.xid = q.whole && !q.answered && !q.lost)).map .cxl

/-- A SEM_OP ends without its answer, which is dropped when it comes (R90). -/
def timeoutSem (s : State) (f : FrontId) (x : Slot) : State :=
  let s := raiseTag s f.block Cause.TIMEOUT (cmdTag x.words) 0x20
  endSlot { s with remotes := s.remotes.filter (fun r => r.use ≠ .semOp f x.id),
                   semMsgs := s.semMsgs.map (fun m => if m.reply = .slot f x.id then { m with reply := .nobody } else m) }
    f x.id .aborted

/-- End a request as though it had been answered ABORTED (R90); the request itself goes on, and its response is dropped. A
write of a DMA channel may be made again (R333). -/
def endOwed (s : State) (who : Block) : Owed → State
  | .remote r =>
    (match r.use with
     | .semOp f n => (match getSlot s f n with
       | some x => timeoutSem s f x
       | none => s)
     | .dmaWrite c ch => dmaLost (dropRemote s r) c ch r.xid Cause.TIMEOUT
     | _ => answerRemote (raise s .host Cause.TIMEOUT) r .aborted [])
  | .sem f n =>
    (match getSlot s f n with
     | some x => timeoutSem s f x
     | none => s)
  | .held h =>
    let s := raiseAtRequester s h.request Cause.TIMEOUT
    answerHeld { s with held := s.held.map (fun y => if y = h then { y with reply := .nobody } else y) } h .aborted []
  | .larder d k =>
    respond who (raise { s with pendingReads := s.pendingReads.map (fun e =>
      if e.die = d && e.block = k then { e with readers := e.readers.filter (fun x => x.1 ≠ who) } else e) }
      who Cause.TIMEOUT, .aborted, [])
  | .cxl q =>
    respond who (raiseTag { s with cxlReqs := s.cxlReqs.map (fun y => if y.whole = q.whole then { y with lost := true } else y) }
      who Cause.TIMEOUT q.tag 0, .aborted, [])

/-- REQUEST_TIMEOUT: request `k` of a block receives no response, counted from those that wait for one on to those that the
block makes next (assumption 160). -/
def execRequestTimeout (who : Block) (k : Nat) (s : State) : Host.Outcome State Fault Refusal :=
  let l := owedOf s who
  .next (match l[k]? with
    | some o => endOwed s who o
    | none => { s with lapse := some (who, k - l.length) })

end Sys2Proof.Machine
end

