-- ==== Sys2Proof/Machine/Tap.lean ====
section
/-!
DEFINITION. The debug lands (R520): the TAP of IEEE 1149.1, with BYPASS and IDCODE. While DEBUG is 1 it also reaches debug ports
whose behaviour the specification leaves out.
-/
namespace Sys2Proof.Machine

/-- The next state of the TAP at a rising edge of DBG_TCK. -/
def TapState.next (t : TapState) (tms : Bool) : TapState :=
  match t, tms with
  | .testLogicReset, true => .testLogicReset
  | .testLogicReset, false => .runTestIdle
  | .runTestIdle, true => .selectDr
  | .runTestIdle, false => .runTestIdle
  | .selectDr, true => .selectIr
  | .selectDr, false => .captureDr
  | .captureDr, true => .exit1Dr
  | .captureDr, false => .shiftDr
  | .shiftDr, true => .exit1Dr
  | .shiftDr, false => .shiftDr
  | .exit1Dr, true => .updateDr
  | .exit1Dr, false => .pauseDr
  | .pauseDr, true => .exit2Dr
  | .pauseDr, false => .pauseDr
  | .exit2Dr, true => .updateDr
  | .exit2Dr, false => .shiftDr
  | .updateDr, true => .selectDr
  | .updateDr, false => .runTestIdle
  | .selectIr, true => .testLogicReset
  | .selectIr, false => .captureIr
  | .captureIr, true => .exit1Ir
  | .captureIr, false => .shiftIr
  | .shiftIr, true => .exit1Ir
  | .shiftIr, false => .shiftIr
  | .exit1Ir, true => .updateIr
  | .exit1Ir, false => .pauseIr
  | .pauseIr, true => .exit2Ir
  | .pauseIr, false => .pauseIr
  | .exit2Ir, true => .updateIr
  | .exit2Ir, false => .shiftIr
  | .updateIr, true => .selectDr
  | .updateIr, false => .runTestIdle

/-- IDCODE, least significant bit first. -/
def idcodeBits : List Bool := (List.range 32).map (fun i => (0x13200A4B#32).getLsbD i)

/-- What the instruction register captures: 01 in its two low bits, as IEEE 1149.1 has it. -/
def irCapture : List Bool := true :: List.replicate (1 + Config.tapIrExtra) false

/-- What an instruction selects; all ones is BYPASS, and a debug port is reached only while DEBUG is 1. -/
def tapInstr (ir : List Bool) (debug : Bool) : TapInstr :=
  if ir.all (fun b => b) then .bypass
  else match Config.tapDecode ir with
    | 1 => .idcode
    | 2 => if debug then .debugPort else .bypass
    | _ => .bypass

/-- Shift one bit in at the high end. -/
def shiftIn (l : List Bool) (b : Bool) : List Bool := l.drop 1 ++ [b]

/-- A rising edge: the state's action on its registers, then the next state. -/
def tapRise (t : Tap) (tms tdi : Bool) : Tap :=
  let t : Tap := match t.state with
    | .captureDr => { t with shift := if t.instr = TapInstr.idcode then idcodeBits else [false] }
    | .shiftDr => { t with shift := shiftIn t.shift tdi }
    | .captureIr => { t with ir := irCapture }
    | .shiftIr => { t with ir := shiftIn t.ir tdi }
    | _ => t
  { t with state := t.state.next tms }

/-- A falling edge: DBG_TDO changes, and the instruction register is updated. -/
def tapFall (t : Tap) (debug : Bool) : Tap :=
  match t.state with
  | .shiftDr => { t with tdo := t.shift.head? }
  | .shiftIr => { t with tdo := t.ir.head? }
  | .updateIr => { t with tdo := none, instr := tapInstr t.ir debug }
  | .testLogicReset => { t with tdo := none, instr := .idcode }
  | _ => { t with tdo := none }

/-- Does an edge act on the data register of a debug port? -/
def debugEdge (t : Tap) (rising : Bool) : Bool :=
  decide (t.instr = TapInstr.debugPort) && match t.state with
    | .captureDr => rising
    | .shiftDr => true
    | .updateDr => !rising
    | _ => false

/-- DBG_TCK: an edge of the debug clock. What the debug ports themselves do, once DEBUG has opened them, is not
described. -/
def execDbgTck (pins : TapPins) (s : State) : Host.Outcome State Fault Refusal :=
  if !pins.trstN then .next { s with tap := Tap.reset }
  else if debugEdge s.tap pins.rising then .refused .debugPort
  else if pins.rising then .next { s with tap := tapRise s.tap pins.tms pins.tdi }
  else .next { s with tap := tapFall s.tap s.boot.debug }

end Sys2Proof.Machine
end

