-- ==== Sys2Proof/Machine/Vu.lean ====
section
/-!
DEFINITION. The VU: ELTWISE and REDUCE (R142–R146).
-/
namespace Sys2Proof.Machine

/-- Stop DEFECT with a cause of the VU page. -/
def vuDefect {α : Type} (c : CoreId) (ws : List Word) (cause : Nat) : Run α :=
  defectAt (.vu c) cause (cmdTag ws) (cmdOp ws)

/-- An input element as FP32 (R142), and whether an MX value was rounded. -/
def toInput (e : Elem) : Val × Bool :=
  let v := e.val
  let x := rne32 v
  (x, v ≠ .nan && !v.same x)

/-- Read elements of a row as VU inputs. -/
def readInputs (c : CoreId) (r : Req) (t : Tensor) (row j0 n : Nat) : Run (List Val) := do
  let es := (← readElems r t row j0 n).map toInput
  act (fun s => bump s (.vu c) 7 (es.filter (·.2)).length)
  return es.map (·.1)

/-- The inputs that a function uses (R143): X, Y, Z. -/
def funcInputs (fn : Nat) : Bool × Bool × Bool :=
  match fn with
  | 0x01 | 0x02 | 0x03 | 0x05 | 0x06 | 0x0C => (true, true, false)
  | 0x04 | 0x0B => (true, true, true)
  | _ => (true, false, false)

/-- Maximum of two values (R143). -/
def maxV (x y : Val) : Val :=
  if x = .nan || y = .nan then .nan
  else if x.gt y then x else if y.gt x then y
  else if x.isZero && x.isNeg != y.isNeg then .fin (Config.zeroSign true x.isNeg) 0 0 else x

/-- Minimum of two values (R143). -/
def minV (x y : Val) : Val :=
  if x = .nan || y = .nan then .nan
  else if x.gt y then y else if y.gt x then x
  else if x.isZero && x.isNeg != y.isNeg then .fin (Config.zeroSign false x.isNeg) 0 0 else x

/-- CLAMP: where the bounds are out of order or one is a NaN, R143 states no result. -/
def clampV (x a b : Val) : Val :=
  if x = .nan then .nan
  else if a = .nan || b = .nan || a.gt b then f32 (Config.clampOpen (toF32 x) (toF32 a) (toF32 b))
  else if a.gt x then a else if x.gt b then b else x

/-- The FP32 result of a function (R143, R144). `draw` is the 32-bit draw of the element's beat. -/
def eltFunc (fn : Nat) (a b : Val) (immC draw : Nat) (x y z : Val) : Val :=
  match fn with
  | 0x00 => x
  | 0x01 => addF x y
  | 0x02 => subF x y
  | 0x03 => mulF x y
  | 0x04 => fmaF x y z
  | 0x05 => maxV x y
  | 0x06 => minV x y
  | 0x07 => x.abs
  | 0x08 => x.neg
  | 0x09 => fmaF a x b
  | 0x0A => clampV x a b
  | 0x0B => if z.isZero then y else x
  | 0x0C => if x.gt y then Val.one else Val.zero
  | 0x0D => if draw < immC then Val.zero else mulF x a
  | 0x10 => exp2F x
  | 0x11 => log2F x
  | 0x12 => recipF x
  | 0x13 => sqrtF x
  | 0x14 => rsqrtF x
  | 0x15 => tanhF x
  | 0x16 => sigmoidF x
  | _ => siluF x

/-- May OUT coincide with an input: same address, extents and strides (R143)? -/
def sameLayout (a b : Desc) : Bool := a.base = b.base && a.exts = b.exts && a.strides = b.strides && a.bcast = b.bcast

/-- Does OUT overlap an input otherwise than exactly? -/
def badOverlap (o i : Tensor) : Bool :=
  let pair (a b : Desc) : Bool := a.meets b && !sameLayout a b
  pair o.d i.d || o.sc.toList.any (fun a => i.sc.toList.any (pair a) || a.meets i.d) ||
  i.sc.toList.any (fun b => o.d.meets b)

/-- The generator state of element `e`: its lane's, after its own beat (R136, R142). -/
def elemState (s : State) (c : CoreId) (e : Nat) : BitVec 64 := advance (vuState s c (e % 256))

/-- One row of ELTWISE, first element `e0` of OUT's row-major order. -/
def eltRow (c : CoreId) (ws : List Word) (r : Req) (x y z : Option Tensor) (out : Tensor) (row e0 : Nat) :
    Run Unit := do
  let n := out.d.last
  let fn := cf ws 4 7 0
  let read (t : Option Tensor) : Run (List Val) := match t with
    | some t => readInputs c r t row 0 n
    | none => pure (List.replicate n Val.zero)
  let xs ← read x
  let ys ← read y
  let zs ← read z
  let a := f32 (wordAt ws 5)
  let b := f32 (wordAt ws 6)
  let immC := (wordAt ws 7).toNat
  let es ← (xs.zip (ys.zip zs)).zipIdx.mapM (fun ((x, y, z), j) => do
    let st ← look (elemState · c (e0 + j))
    act (fun s => addBeats s (vuLane c ((e0 + j) % 256)) 1)
    return (({ pos := j, v := eltFunc fn a b immC (draw32 st) x y z, draw := (Config.vuDraw24 st).toNat } : OutElem),
      fn = 0x0D && draw32 st < immC))
  let o := convertRow out.d.fmt (cf ws 4 9 8) (cb ws 4 10) (es.map (·.1))
  let bad := (es.filter (fun e => e.1.v.nonfinite)).length
  act (fun s =>
    let s := bump (bump s (.vu c) 0 n) (.vu c) 2 (if 0x10 ≤ fn then n else 0)
    bump (bump (bump s (.vu c) 3 bad) (.vu c) 4 (es.filter (·.2)).length) (.vu c) 6 (if cf ws 4 9 8 = 1 then n else 0))
  forN o.unrep (fun _ => act (fun s => raiseTag s (.vu c) 10 (cmdTag ws) (cmdOp ws)))
  if o.unrep ≠ 0 then markDefect
  writeOutRow r out row o
  reportNf (cb ws 4 11) o.nf

/-- Load an input that the function uses. -/
def loadUsed (f : FrontId) (ws : List Word) (used : Bool) (i : Nat) : Run (Option Tensor) := do
  if used then return some (← loadDesc f ws i 0) else return none

/-- ELTWISE. -/
def runEltwise (c : CoreId) (x : Slot) : Run Unit := do
  let ws := x.words
  let f : FrontId := .cp c
  let (_, uy, uz) := funcInputs (cf ws 4 7 0)
  let a ← loadDesc f ws (cf ws 2 15 0) 0
  let b ← loadUsed f ws uy (cf ws 2 31 16)
  let d ← loadUsed f ws uz (cf ws 3 15 0)
  let out ← loadDesc f ws (cf ws 3 31 16) 0
  checkDest f ws out
  let ins := [a] ++ b.toList ++ d.toList
  if ins.any (fun t => t.d.exts ≠ out.d.exts) then vuDefect c ws 8
  if (!uy && cf ws 2 31 16 ≠ 0) || (!uz && cf ws 3 15 0 ≠ 0) || !isOutFmt out.d.fmt ||
      ins.any (fun t => !isOutFmt t.d.fmt) || ins.any (badOverlap out) then vuDefect c ws 9
  act (fun s => latchPage s f x.id (.vu c))
  let r := cmdReq (.vu c) ws
  forN out.d.rows (fun row => eltRow c ws r (some a) b d out row (row * out.d.last))

/-- ELTWISE: one function of up to three inputs, element by element. -/
def execEltwise (c : CoreId) (slot : Nat) (s : State) : Host.Outcome State Fault Refusal :=
  .next (startCommand s (.cp c) slot [0x08] false (fun s x => runSlot s (.cp c) x (runEltwise c x)))

/-! ### REDUCE (R145, R146) -/

/-- A square on the long register's grid, and whether it was rounded. -/
def square (v : Val) : Val × Bool :=
  match v with
  | .fin _ m e =>
    let (g, exact) := onGrid (m * m) (e + e)
    (ofGrid g, !exact)
  | .inf _ => (.inf false, false)
  | .nan => (.nan, false)

/-- The reduction of one OUT element: its exact value, its index and the squares rounded. A search for an extreme starts
as R130 starts a row's: over a slice with no element that wins against that start, of only −infinity for a maximum, the
index is −1 (DESIGN CHOICE, assumption 161). -/
def reduceVals (op : Nat) (vs : List Val) : Val × Int × Nat :=
  match op with
  | 0 => ((vs.foldl LongSum.add LongSum.zero).val, 0, 0)
  | 1 =>
    let qs := vs.map square
    ((qs.foldl (fun a q => a.add q.1) LongSum.zero).val, 0, (qs.filter (·.2)).length)
  | 2 | 4 =>
    let x := vs.zipIdx.foldl (fun (x : Extreme) (y, i) => x.maxStep y i) { v := .inf true, idx := -1 }
    (x.v, x.idx, 0)
  | _ =>
    let x := vs.zipIdx.foldl (fun (x : Extreme) (y, i) => x.minStep y i) { v := .inf false, idx := -1 }
    (x.v, x.idx, 0)

/-- The values that one row of OUT reduces: for each of its elements, the elements of X along AXIS. -/
def reduceInputs (c : CoreId) (r : Req) (x : Tensor) (axis row : Nat) : Run (List (List Val)) := do
  let exts := x.d.exts
  let e := exts.getD axis 1
  if axis + 1 = exts.length then return [← readInputs c r x row 0 e]
  else
    let inner := (exts.dropLast.drop (axis + 1)).foldl (· * ·) 1
    let rows ← (List.range e).mapM (fun a =>
      readInputs c r x ((row / inner * e + a) * inner + row % inner) 0 x.d.last)
    return (List.range x.d.last).map (fun j => rows.map (fun l => l.getD j Val.zero))

/-- One row of REDUCE. The conversion of a sum into OUT follows R128 alone, so with SAT 1 or OUT_ROUND 2 a finite sum above
the largest finite value becomes that value and not the infinity of R132 (DESIGN CHOICE, assumption 162). -/
def reduceRow (c : CoreId) (ws : List Word) (r : Req) (x out : Tensor) (idx : Option Tensor) (row e0 : Nat) :
    Run Unit := do
  let op := cf ws 4 2 0
  let ins ← reduceInputs c r x (cf ws 4 5 3) row
  let res := ins.map (reduceVals op)
  let es ← res.zipIdx.mapM (fun ((v, _, _), j) => do
    let st ← look (elemState · c (e0 + j))
    act (fun s => addBeats s (vuLane c ((e0 + j) % 256)) 1)
    return ({ pos := j, v := v, draw := (Config.vuDraw24 st).toNat } : OutElem))
  let mode := cf ws 4 7 6
  let o := convertRow out.d.fmt mode (cb ws 4 8) es
  act (fun s =>
    let s := bump s (.vu c) 0 ((ins.map List.length).foldl (· + ·) 0)
    let s := bump s (.vu c) 3 (es.filter (fun e => e.v.nonfinite)).length
    bump (bump s (.vu c) 5 ((res.map (fun x => x.2.2)).foldl (· + ·) 0)) (.vu c) 6 (if mode = 1 then es.length else 0))
  forN o.unrep (fun _ => act (fun s => raiseTag s (.vu c) 10 (cmdTag ws) (cmdOp ws)))
  if o.unrep ≠ 0 then markDefect
  writeOutRow r out row o
  match idx with
  | some t => writeCodes r t.d row 0 (res.map (fun x => (BitVec.ofInt 32 x.2.1).toNat))
  | none => pure ()
  reportNf (cb ws 4 9) o.nf

/-- REDUCE. An IDX_DESC that the OP does not allow or lacks, and a format not allowed, raise BAD_OPERAND (DESIGN CHOICE,
assumption 163). OUT and IDX are not checked against X or one another: the rows are worked in turn, and later ones read
what earlier ones wrote (DESIGN CHOICE, assumption 164). -/
def runReduce (c : CoreId) (x : Slot) : Run Unit := do
  let ws := x.words
  let f : FrontId := .cp c
  let op := cf ws 4 2 0
  let axis := cf ws 4 5 3
  let arg := op = 4 || op = 5
  let a ← loadDesc f ws (cf ws 2 15 0) 0
  let out ← loadDesc f ws (cf ws 2 31 16) 0
  let idx ← if arg then loadOpt f ws (cf ws 3 15 0) 0 else pure none
  checkDest f ws out
  checkDestOpt f ws idx
  if a.d.rank ≤ axis || out.d.exts ≠ setAt a.d.exts axis 1 || idx.toList.any (fun t => t.d.exts ≠ out.d.exts) then
    vuDefect c ws 8
  if (arg && idx.isNone) || (!arg && cf ws 3 15 0 ≠ 0) || idx.toList.any (fun t => t.d.fmt ≠ 0xE) ||
      !isOutFmt out.d.fmt || !isOutFmt a.d.fmt then vuDefect c ws 9
  if 4194304 < a.d.ext axis then vuDefect c ws 11
  act (fun s => latchPage s f x.id (.vu c))
  let r := cmdReq (.vu c) ws
  forN out.d.rows (fun row => reduceRow c ws r a out idx row (row * out.d.last))

/-- REDUCE: sums and extremes along a dimension. -/
def execReduce (c : CoreId) (slot : Nat) (s : State) : Host.Outcome State Fault Refusal :=
  .next (startCommand s (.cp c) slot [0x09] false (fun s x => runSlot s (.cp c) x (runReduce c x)))

end Sys2Proof.Machine
end

