-- ==== Sys2Proof/Machine/Dispatch.lean ====
section
/-!
DEFINITION. What each command does to everything but the queue of waiting commands: one arm for every constructor of
Instr, each one call of its meaning.
-/
namespace Sys2Proof.Machine

/-- The effect of a command. -/
def exec (i : Instr) (s : State) : Host.Outcome State Fault Refusal :=
  match i with
  | .matmul c slot => Sys2Proof.Machine.execMatmul c slot s
  | .matmulCascade c slot => Sys2Proof.Machine.execMatmulCascade c slot s
  | .matmulElementWise c slot => Sys2Proof.Machine.execMatmulElementWise c slot s
  | .matmulPod c slot => Sys2Proof.Machine.execMatmulPod c slot s
  | .matmulPodT c slot => Sys2Proof.Machine.execMatmulPodT c slot s
  | .maskedProduct c slot => Sys2Proof.Machine.execMaskedProduct c slot s
  | .predict c slot => Sys2Proof.Machine.execPredict c slot s
  | .eltwise c slot => Sys2Proof.Machine.execEltwise c slot s
  | .reduce c slot => Sys2Proof.Machine.execReduce c slot s
  | .gather c slot => Sys2Proof.Machine.execGather c slot s
  | .scatterAdd c slot => Sys2Proof.Machine.execScatterAdd c slot s
  | .copy c slot => Sys2Proof.Machine.execCopy c slot s
  | .transposeCopy c slot => Sys2Proof.Machine.execTransposeCopy c slot s
  | .fill c slot => Sys2Proof.Machine.execFill c slot s
  | .semOp f slot => Sys2Proof.Machine.execSemOp f slot s
  | .strideWait f => Sys2Proof.Machine.execStrideWait f s
  | .dma c slot => Sys2Proof.Machine.execDma c slot s
  | .apply h slot => Sys2Proof.Machine.execApply h slot s
  | .normPass h slot => Sys2Proof.Machine.execNormPass h slot s
  | .thin h slot => Sys2Proof.Machine.execThin h slot s
  | .sprout h slot => Sys2Proof.Machine.execSprout h slot s
  | .driftAudit h slot => Sys2Proof.Machine.execDriftAudit h slot s
  | .park p slot => Sys2Proof.Machine.execPark p slot s
  | .run p slot => Sys2Proof.Machine.execRun p slot s
  | .collectiveReduce e slot => Sys2Proof.Machine.execCollectiveReduce e slot s
  | .allReduce e slot => Sys2Proof.Machine.execAllReduce e slot s
  | .reduceScatter e slot => Sys2Proof.Machine.execReduceScatter e slot s
  | .allGather e slot => Sys2Proof.Machine.execAllGather e slot s
  | .broadcast e slot => Sys2Proof.Machine.execBroadcast e slot s
  | .allToAll e slot => Sys2Proof.Machine.execAllToAll e slot s
  | .permute e slot => Sys2Proof.Machine.execPermute e slot s
  | .move e slot => Sys2Proof.Machine.execMove e slot s
  | .stepVote e slot => Sys2Proof.Machine.execStepVote e slot s
  | .ringFetch f => Sys2Proof.Machine.execRingFetch f s
  | .dispatch f => Sys2Proof.Machine.execDispatch f s
  | .waitSatisfied f queue => Sys2Proof.Machine.execWaitSatisfied f queue s
  | .batonTake c queue => Sys2Proof.Machine.execBatonTake c queue s
  | .batonStall c slot => Sys2Proof.Machine.execBatonStall c slot s
  | .completion f slot => Sys2Proof.Machine.execCompletion f slot s
  | .semOperation f index => Sys2Proof.Machine.execSemOperation f index s
  | .requestTimeout who k => Sys2Proof.Machine.execRequestTimeout who k s
  | .ringTail f v => Sys2Proof.Machine.execRingTail f v s
  | .syncMode f batons => Sys2Proof.Machine.execSyncMode f batons s
  | .tickAnnounce => Sys2Proof.Machine.execTickAnnounce s
  | .holdBudgetExpiry => Sys2Proof.Machine.execHoldBudgetExpiry s
  | .tickFire => Sys2Proof.Machine.execTickFire s
  | .holdPoint => Sys2Proof.Machine.execHoldPoint s
  | .holdChange src => Sys2Proof.Machine.execHoldChange src s
  | .tick port from_ m => Sys2Proof.Machine.execTick port from_ m s
  | .strideOut => Sys2Proof.Machine.execStrideOut s
  | .strideInPulse rise width => Sys2Proof.Machine.execStrideInPulse rise width s
  | .strideInStuck => Sys2Proof.Machine.execStrideInStuck s
  | .strideInMissing => Sys2Proof.Machine.execStrideInMissing s
  | .start => Sys2Proof.Machine.execStart s
  | .stop => Sys2Proof.Machine.execStop s
  | .holdSw v => Sys2Proof.Machine.execHoldSw v s
  | .stridePeriod v => Sys2Proof.Machine.execStridePeriod v s
  | .tickLead v => Sys2Proof.Machine.execTickLead v s
  | .holdLead v => Sys2Proof.Machine.execHoldLead v s
  | .holdBudget v => Sys2Proof.Machine.execHoldBudget v s
  | .strideCount high v => Sys2Proof.Machine.execStrideCount high v s
  | .hold from_ stride v firstId => Sys2Proof.Machine.execHold from_ stride v firstId s
  | .vote port group from_ v => Sys2Proof.Machine.execVote port group from_ v s
  | .voteResult port group from_ v voteStride => Sys2Proof.Machine.execVoteResult port group from_ v voteStride s
  | .stepClose => Sys2Proof.Machine.execStepClose s
  | .decision e => Sys2Proof.Machine.execDecision e s
  | .standIn e child => Sys2Proof.Machine.execStandIn e child s
  | .voteResultLost e => Sys2Proof.Machine.execVoteResultLost e s
  | .swSkip => Sys2Proof.Machine.execSwSkip s
  | .tornClear => Sys2Proof.Machine.execTornClear s
  | .pubArmGo h => Sys2Proof.Machine.execPubArmGo h s
  | .pendingLock r h => Sys2Proof.Machine.execPendingLock r h s
  | .lockActivate r => Sys2Proof.Machine.execLockActivate r s
  | .oldDone cd h => Sys2Proof.Machine.execOldDone cd h s
  | .publish h => Sys2Proof.Machine.execPublish h s
  | .publishTimeout h => Sys2Proof.Machine.execPublishTimeout h s
  | .unlock r h => Sys2Proof.Machine.execUnlock r h s
  | .descCreate o => Sys2Proof.Machine.execDescCreate o s
  | .descDelete o => Sys2Proof.Machine.execDescDelete o s
  | .descBatch o => Sys2Proof.Machine.execDescBatch o s
  | .descTableOffset c v => Sys2Proof.Machine.execDescTableOffset c v s
  | .descTableLog2 c v => Sys2Proof.Machine.execDescTableLog2 c v s
  | .tableCommit o v => Sys2Proof.Machine.execTableCommit o v s
  | .tableFill o => Sys2Proof.Machine.execTableFill o s
  | .arm o entry => Sys2Proof.Machine.execArm o entry s
  | .allocBase o entry high v => Sys2Proof.Machine.execAllocBase o entry high v s
  | .allocSize o entry v => Sys2Proof.Machine.execAllocSize o entry v s
  | .directoryWrite who offset data => Sys2Proof.Machine.execDirectoryWrite who offset data s
  | .coreMemoryRequest c m who tag offset a => Sys2Proof.Machine.execCoreMemoryRequest c m who tag offset a s
  | .patrolRead c m => Sys2Proof.Machine.execPatrolRead c m s
  | .parityInject c m v => Sys2Proof.Machine.execParityInject c m v s
  | .segOff c m v ahead => Sys2Proof.Machine.execSegOff c m v ahead s
  | .drainComplete c m seg => Sys2Proof.Machine.execDrainComplete c m seg s
  | .wakeComplete c m seg => Sys2Proof.Machine.execWakeComplete c m seg s
  | .larderRead d who cls offset bytes => Sys2Proof.Machine.execLarderRead d who cls offset bytes s
  | .larderWrite d who cls offset data => Sys2Proof.Machine.execLarderWrite d who cls offset data s
  | .mergeWait d block => Sys2Proof.Machine.execMergeWait d block s
  | .larderScrub d => Sys2Proof.Machine.execLarderScrub d s
  | .hbmRequest who tag cls addr a => Sys2Proof.Machine.execHbmRequest who tag cls addr a s
  | .hbmScrub stack => Sys2Proof.Machine.execHbmScrub stack s
  | .pcRetire stack pc => Sys2Proof.Machine.execPcRetire stack pc s
  | .pcRetired stack => Sys2Proof.Machine.execPcRetired stack s
  | .stackTemp stack temp corrections trip => Sys2Proof.Machine.execStackTemp stack temp corrections trip s
  | .refresh stack parityFails => Sys2Proof.Machine.execRefresh stack parityFails s
  | .memorySideAdd e tag cls addr fmt data => Sys2Proof.Machine.execMemorySideAdd e tag cls addr fmt data s
  | .cxlRequest p who tag cls offset a => Sys2Proof.Machine.execCxlRequest p who tag cls offset a s
  | .expanderResponse p xid late poison devLoad data => Sys2Proof.Machine.execExpanderResponse p xid late poison devLoad data s
  | .cxlLinkDown p => Sys2Proof.Machine.execCxlLinkDown p s
  | .cxlRetrain p t capacity expId => Sys2Proof.Machine.execCxlRetrain p t capacity expId s
  | .expEvent p => Sys2Proof.Machine.execExpEvent p s
  | .svcClear b => Sys2Proof.Machine.execSvcClear b s
  | .flitCrcError d link wire => Sys2Proof.Machine.execFlitCrcError d link wire s
  | .wireLimit d link wire => Sys2Proof.Machine.execWireLimit d link wire s
  | .wireChange d link => Sys2Proof.Machine.execWireChange d link s
  | .dataFlit p f crc => Sys2Proof.Machine.execDataFlit p f crc s
  | .nak p c => Sys2Proof.Machine.execNak p c s
  | .replayTimeout p => Sys2Proof.Machine.execReplayTimeout p s
  | .laneRetire p lane => Sys2Proof.Machine.execLaneRetire p lane s
  | .laneLockLoss p lane => Sys2Proof.Machine.execLaneLockLoss p lane s
  | .laneLimit p lane uncorrectable => Sys2Proof.Machine.execLaneLimit p lane uncorrectable s
  | .retire p lane c => Sys2Proof.Machine.execRetire p lane c s
  | .retireAck p lane c => Sys2Proof.Machine.execRetireAck p lane c s
  | .laneRetired p => Sys2Proof.Machine.execLaneRetired p s
  | .linkDown p => Sys2Proof.Machine.execLinkDown p s
  | .nauloRetrain p lanes => Sys2Proof.Machine.execNauloRetrain p lanes s
  | .ident p peer => Sys2Proof.Machine.execIdent p peer s
  | .read p h => Sys2Proof.Machine.execRead p h s
  | .write p h data => Sys2Proof.Machine.execWrite p h data s
  | .add p h fmt data => Sys2Proof.Machine.execAdd p h fmt data s
  | .sem p h operand baton => Sys2Proof.Machine.execSem p h operand baton s
  | .readResp p h status data => Sys2Proof.Machine.execReadResp p h status data s
  | .ack p h status => Sys2Proof.Machine.execAck p h status s
  | .delay p h => Sys2Proof.Machine.execDelay p h s
  | .syncInterval => Sys2Proof.Machine.execSyncInterval s
  | .syncReq from_ t1 => Sys2Proof.Machine.execSyncReq from_ t1 s
  | .syncResp from_ t1 t2 t3 t4 => Sys2Proof.Machine.execSyncResp from_ t1 t2 t3 t4 s
  | .syncLost => Sys2Proof.Machine.execSyncLost s
  | .segment p xid sg => Sys2Proof.Machine.execSegment p xid sg s
  | .segAck p xid busy => Sys2Proof.Machine.execSegAck p xid busy s
  | .busyResend e xid => Sys2Proof.Machine.execBusyResend e xid s
  | .collTimeout e => Sys2Proof.Machine.execCollTimeout e s
  | .errorRecord b => Sys2Proof.Machine.execErrorRecord b s
  | .recordResend b => Sys2Proof.Machine.execRecordResend b s
  | .handling => Sys2Proof.Machine.execHandling s
  | .logSize v => Sys2Proof.Machine.execLogSize v s
  | .heartbeat delivered acked => Sys2Proof.Machine.execHeartbeat delivered acked s
  | .switchover => Sys2Proof.Machine.execSwitchover s
  | .switchReq => Sys2Proof.Machine.execSwitchReq s
  | .sentinelSample slack failing => Sys2Proof.Machine.execSentinelSample slack failing s
  | .relock d => Sys2Proof.Machine.execRelock d s
  | .fence b => Sys2Proof.Machine.execFence b s
  | .coreFence c => Sys2Proof.Machine.execCoreFence c s
  | .dieFence d => Sys2Proof.Machine.execDieFence d s
  | .softReset b => Sys2Proof.Machine.execSoftReset b s
  | .softResetDone b => Sys2Proof.Machine.execSoftResetDone b s
  | .enable b v => Sys2Proof.Machine.execEnable b v s
  | .errStatus b v => Sys2Proof.Machine.execErrStatus b v s
  | .snapshot b => Sys2Proof.Machine.execSnapshot b s
  | .checkClear c => Sys2Proof.Machine.execCheckClear c s
  | .semData c v => Sys2Proof.Machine.execSemData c v s
  | .semFill c v => Sys2Proof.Machine.execSemFill c v s
  | .semFillDone c => Sys2Proof.Machine.execSemFillDone c s
  | .batonPass c v => Sys2Proof.Machine.execBatonPass c v s
  | .batonPop c v => Sys2Proof.Machine.execBatonPop c v s
  | .dmaRetry c ch => Sys2Proof.Machine.execDmaRetry c ch s
  | .resume c ch => Sys2Proof.Machine.execResume c ch s
  | .traceRecord => Sys2Proof.Machine.execTraceRecord s
  | .traceCtrl v => Sys2Proof.Machine.execTraceCtrl v s
  | .traceBase offset v => Sys2Proof.Machine.execTraceBase offset v s
  | .digest ch => Sys2Proof.Machine.execDigest ch s
  | .seal ch => Sys2Proof.Machine.execSeal ch s
  | .verify ch => Sys2Proof.Machine.execVerify ch s
  | .jobEnd ch => Sys2Proof.Machine.execJobEnd ch s
  | .powerOn => Sys2Proof.Machine.execPowerOn s
  | .resetN asserted => Sys2Proof.Machine.execResetN asserted s
  | .resetReq v => Sys2Proof.Machine.execResetReq v s
  | .deviceReset => Sys2Proof.Machine.execDeviceReset s
  | .brownOut rail => Sys2Proof.Machine.execBrownOut rail s
  | .rom saGood sbGood => Sys2Proof.Machine.execRom saGood sbGood s
  | .identity => Sys2Proof.Machine.execIdentity s
  | .image => Sys2Proof.Machine.execImage s
  | .configure stacksGood feedsA feedsB => Sys2Proof.Machine.execConfigure stacksGood feedsA feedsB s
  | .test results => Sys2Proof.Machine.execTest results s
  | .feedLost rail feedB => Sys2Proof.Machine.execFeedLost rail feedB s
  | .throttleEnd => Sys2Proof.Machine.execThrottleEnd s
  | .feedRejoin rail feedB => Sys2Proof.Machine.execFeedRejoin rail feedB s
  | .rearm => Sys2Proof.Machine.execRearm s
  | .feedShare v => Sys2Proof.Machine.execFeedShare v s
  | .attest => Sys2Proof.Machine.execAttest s
  | .imageReplace => Sys2Proof.Machine.execImageReplace s
  | .imageReplaceOwner => Sys2Proof.Machine.execImageReplaceOwner s
  | .reenrol => Sys2Proof.Machine.execReenrol s
  | .debugNonce => Sys2Proof.Machine.execDebugNonce s
  | .debugUnlock => Sys2Proof.Machine.execDebugUnlock s
  | .readLifetime => Sys2Proof.Machine.execReadLifetime s
  | .clearLifetime => Sys2Proof.Machine.execClearLifetime s
  | .lifetimeRecord => Sys2Proof.Machine.execLifetimeRecord s
  | .presenceN asserted => Sys2Proof.Machine.execPresenceN asserted s
  | .presenceWindowClose => Sys2Proof.Machine.execPresenceWindowClose s
  | .presenceStuck => Sys2Proof.Machine.execPresenceStuck s
  | .perstN asserted => Sys2Proof.Machine.execPerstN asserted s
  | .hotReset => Sys2Proof.Machine.execHotReset s
  | .hostLinkDown => Sys2Proof.Machine.execHostLinkDown s
  | .hostFlr => Sys2Proof.Machine.execHostFlr s
  | .configurationRequest offset wr => Sys2Proof.Machine.execConfigurationRequest offset wr s
  | .bar0Access offset bytes wr => Sys2Proof.Machine.execBar0Access offset bytes wr s
  | .bar2Access offset a => Sys2Proof.Machine.execBar2Access offset a s
  | .bar2BaseHi v => Sys2Proof.Machine.execBar2BaseHi v s
  | .msiXUnmask vector => Sys2Proof.Machine.execMsiXUnmask vector s
  | .boardAlarm => Sys2Proof.Machine.execBoardAlarm s
  | .alarmRelease => Sys2Proof.Machine.execAlarmRelease s
  | .alarmStuck => Sys2Proof.Machine.execAlarmStuck s
  | .tempSample dies hot => Sys2Proof.Machine.execTempSample dies hot s
  | .registerWrite b offset v => Sys2Proof.Machine.execRegisterWrite b offset v s
  | .ttParent v => Sys2Proof.Machine.execTtParent v s
  | .spareSlots stack offset v => Sys2Proof.Machine.execSpareSlots stack offset v s
  | .parkCfg p offset v => Sys2Proof.Machine.execParkCfg p offset v s
  | .idle p c => Sys2Proof.Machine.execIdle p c s
  | .protocol p op => Sys2Proof.Machine.execProtocol p op s
  | .hostLinkUp t flit => Sys2Proof.Machine.execHostLinkUp t flit s
  | .dbgTck pins => Sys2Proof.Machine.execDbgTck pins s

end Sys2Proof.Machine
end

