-- ==== Sys2Proof/Safety.lean ====
section
/-!
DEFINITION. What counts as a safe step and a safe run, in the terms that claims use, and the invariant of the machine's
state: sparse tables with rising keys, a memory in canonical form, counters of 64 bits, semaphores of 31 bits, batons of
32 tokens. Then the words that the statements use: the frames of registers, counters and memory, and when a command of an
engine may start and what it leaves.
-/
namespace Sys2Proof

/-- The place of a register of a block in register space (R37). -/
def Block.reg (b : Block) (off : Nat) : Nat := b.base + off

/-- The place of an always-on counter of a block in `State.counters` (R453). -/
def Block.cnt (b : Block) (k : Nat) : Nat := b.page * 24 + k

end Sys2Proof

namespace Sys2Proof.Machine

/-- Does the step answer a next state? -/
def Safe (s : State) : Prop := ∃ t, step s = .next t

/-- Every command of the queue is taken, one after another, with a next state each time. -/
def SafeRun : Nat → State → Prop
  | 0, _ => True
  | n + 1, s => ∃ t, step s = .next t ∧ SafeRun n t

/-- Do the keys of a table rise strictly, from `lo` on? -/
def keysRiseFrom {α : Type} : Nat → List (Nat × α) → Bool
  | _, [] => true
  | lo, (k, _) :: t => decide (lo ≤ k) && keysRiseFrom (k + 1) t

/-- Do the keys of a table rise strictly? -/
def keysRise {α : Type} (l : List (Nat × α)) : Bool := keysRiseFrom 0 l

/-- A semaphore's count has 31 bits (R73). -/
def semOk (x : Sem) : Bool := decide (x.count < 2 ^ 31)

/-- A semaphore bank: its listed semaphores have rising numbers, and every count has 31 bits. -/
def bankOk (b : SemBank) : Bool := semOk b.dflt && keysRise b.cells && b.cells.all (fun e => semOk e.2)

/-- A counter has 64 bits (R7, R453). -/
def counterOk (e : Nat × Nat) : Bool := decide (e.2 < 2 ^ 64)

/-- A baton holds at most 32 tokens (R82). -/
def batonOk (e : Nat × List Token) : Bool := decide (e.2.length ≤ 32)

/-- The invariant of the state. -/
structure State.Inv (s : State) : Prop where
  mem : memWf s = true
  regs : keysRise s.regs = true
  shadows : keysRise s.shadows = true
  counters : keysRise s.counters = true
  counts : s.counters.all counterOk = true
  latched : keysRise s.latched = true
  banks : keysRise s.banks = true
  sems : s.banks.all (fun e => bankOk e.2) = true
  filling : s.filling.all (fun e => decide (e.2 < 2 ^ 31)) = true
  batons : keysRise s.batons = true
  tokens : s.batons.all batonOk = true
  fronts : keysRise s.fronts = true
  segms : keysRise s.segms = true
  preds : keysRise s.preds = true
  beats : keysRise s.beats = true
  tables : keysRise s.tables = true
  dmas : keysRise s.dmas = true
  routes : keysRise s.routes = true
  decisions : keysRise s.decisions = true
  pubs : keysRise s.pubs = true
  parks : keysRise s.parks = true
  relays : keysRise s.relays = true
  nauloPorts : keysRise s.nauloPorts = true
  changes : keysRise s.changes = true
  relocks : keysRise s.relocks = true
  feeds : keysRise s.feeds = true
  hotRuns : keysRise s.hotRuns = true
  cvs : keysRise s.cvs = true
  paths : keysRise s.paths = true

/-! ### Frames -/

/-- Every register but the listed ones holds what it held. -/
def RegsBut (l : List Nat) (s t : State) : Prop := ∀ (b : Block) (off : Nat), b.reg off ∉ l → rget t b off = rget s b off

/-- Every always-on counter but the listed ones counts what it counted. -/
def CtrsBut (l : List Nat) (s t : State) : Prop := ∀ (b : Block) (k : Nat), b.cnt k ∉ l → ctr t b k = ctr s b k

/-- Every byte outside `n` bytes from `a` reads as before. -/
def BytesBut (a n : Nat) (s t : State) : Prop := ∀ k, k < a ∨ a + n ≤ k → getByte t k = getByte s k

/-- Only registers, and of them only the listed ones, may differ. -/
structure OnlyRegs (l : List Nat) (s t : State) : Prop where
  regs : RegsBut l s t
  rest : t = { s with regs := t.regs }

/-- Only registers and counters, and of them only the listed ones, may differ. -/
structure OnlyRegsCtrs (l m : List Nat) (s t : State) : Prop where
  regs : RegsBut l s t
  ctrs : CtrsBut m s t
  rest : t = { s with regs := t.regs, counters := t.counters }

/-! ### Commands of the engines -/

/-- The command of a slot may start now at its engine: it is at the head of its queue with its wait over and its engine
free, or it has started and waits there (R98); the engine is neither fenced (R443) nor disabled (R41). -/
structure MayStart (s : State) (f : FrontId) (slot op : Nat) (one : Bool) (x : Slot) : Prop where
  head : startable s f slot one = some x
  opcode : cmdOp x.words = op
  unfenced : engineFenced s f x.queue op = false
  enabled : x.phase ≠ .held → engineEnabled s f x.queue op = true

/-- The command with the stride and the generator seeds of its start (R233, R274); one that has started and waits at its
engine keeps them. -/
def started (s : State) (f : FrontId) (x : Slot) : Slot :=
  if x.phase = .held then x
  else { x with startStride := s.stride.count, began := some (tget Seeds.reset s.seeds f.num) }

/-- The state in which the command of a slot runs. -/
def running (s : State) (f : FrontId) (x : Slot) : State := putSlot s f (started s f x)

/-- The run of a command of an engine from where it stands, with the copies of its start: what it leaves, and its status. -/
def ranAs (s : State) (f : FrontId) (x : Slot) (body : Run Unit) : RunState × Status :=
  runFrom body (started s f x).memo (running s f x)

/-- What a command of an engine leaves when its work has ended: the state of its run, with its slot at the status that
the run gives (R89, R98). -/
def ended (s : State) (f : FrontId) (x : Slot) (body : Run Unit) : State :=
  endSlot (ranAs s f x body).1.st f x.id (ranAs s f x body).2

/-! ### Further parts of the statements -/

/-- The locks of a receiver that become active: pending ones whose stride has come (R248). -/
def dueLock (s : State) (r : LockHolder) (l : Lock) : Bool := l.holder = r && !l.active && l.target ≤ s.stride.count

/-- A port takes a packet that names this device (R386, R443, R450). -/
def takesPacket (s : State) (p : NauloId) (h : PacketHead) : Bool :=
  portUp s p && !isFenced s (.naulo p) && !s.steward.failed && decide (h.dst = nodeId s)

/-- What an operation of the security block leaves, begun in `s`: the state of its work, with its result (R501); one whose
request must wait stays accepted, and its row runs it again. -/
def secDone (s : State) (r : State × SecResult) : State := if r.2 = .waits then settleWaits s r.1 else secEnd r.1 r.2

/-- The security block starts an operation: it is counted. -/
def secBegun (s : State) : State := bump s (activeSecurity s) 0 1

/-- The pages of the steward dies that the stewards keep alike (R102, R447, R452). -/
def stewardPage : Block → Bool
  | .mgmt _ | .stride _ | .errq _ | .security _ => true
  | _ => false

/-- Is a counter one of such a page? -/
def stewardKey (k : Nat) : Bool := [0, 1].any (fun n =>
  let i : Fin 2 := Fin.ofNat 2 n
  k / 24 = Block.page (.mgmt i) || k / 24 = Block.page (.stride i) || k / 24 = Block.page (.errq i) ||
    k / 24 = Block.page (.security i))

/-- The commands that reset the device, or may do so, and those of start-up (R477, R478). -/
def startsUp : Instr → Bool
  | .powerOn | .resetN _ | .deviceReset | .brownOut _ | .feedLost _ _ => true
  | .rom _ _ | .identity | .image | .configure _ _ _ | .test _ => true
  | _ => false

/-- Does a block have a page in register space (R39, R528)? -/
def hasPage : Block → Bool
  | .proxy d | .router d | .clock d | .sensors d => decide (d.val ≠ 31)
  | .glob p => globAllocated p.val
  | _ => true

end Sys2Proof.Machine
end

