-- ==== Sys2Proof/Certificates/Slice0/Obligations.lean ====
section
/-!
DEFINITION. The statements for the provers. Each says which rules of the specification it rests on, and which entries of
the assumption log where it rests on a choice of the model. An equation whose right side is a whole next state is also the
frame of its command: what the right side does not update is unchanged.
-/
open Sys2Proof Sys2Proof.Machine

/-- A step runs the command at the front of the queue (R24). With a command c at the front of its queue, a step is
exec of c on the state with the rest of the queue. On an empty queue one ns passes on the time base and nothing else
changes; this second part is the model's choice (log entry 2). -/
def Obligations.StepRunsFrontCommand : Prop :=
  (∀ (s : State) (c : Instr) (rest : List Instr), s.pending = c :: rest → step s = exec c { s with pending := rest }) ∧
  (∀ s : State, s.pending = [] → step s = .next { s with now := s.now + 1 })

/-- What State.reset holds (R41, R51, R73, R82, R98, R261, R308, R371, R477, R478, R508). In State.reset every
register reads its page's reset value, every counter 0, every semaphore count 0 without poison, every baton is empty,
every front end idle, every memory segment ON and every Naulo port DOWN; the stride master is STOPPED at count 0, the
ledger OPEN at STEP_ID 0, start-up in ROM and BAR2 at the start of the larder. Four reset values are given as numbers:
STRIDE_PERIOD, TICK_LEAD, RING_CTRL (baton mode) and ERR_ENABLE. That the unlisted registers read 0 is DEDUCED (log
entry 10), the semaphores, batons and segments before READY are read from R535 and R480, and a state at the start of
start-up is the model's choice (log entry 142). -/
def Obligations.ResetLeaves : Prop :=
  (∀ (b : Block) (off : Nat), rget State.reset b off = resetValue b off) ∧
  (∀ (b : Block) (k : Nat), ctr State.reset b k = 0) ∧
  (∀ (f : FrontId) (i : Nat), (getSem State.reset f i).count = 0 ∧ (getSem State.reset f i).poison = false) ∧
  (∀ (c : CoreId) (i : Nat), getBaton State.reset c i = []) ∧
  (∀ f : FrontId, frontIdle State.reset f = true) ∧
  (∀ (c : CoreId) (m : CoreMem) (k : Nat), (getSeg State.reset c m k).phase = .on) ∧
  (∀ p : NauloId, (getPort State.reset p).state = 0) ∧
  State.reset.stride.state = 0 ∧ State.reset.stride.count = 0 ∧ State.reset.ledger.phase = .open_ ∧
  State.reset.ledger.stepId = 0 ∧ State.reset.boot.phase = .rom ∧ State.reset.host.bar2Base = 0x010000000000 ∧
  resetValue (.stride 0) Reg.Str.STRIDE_PERIOD = 1000000 ∧ resetValue (.stride 0) Reg.Str.TICK_LEAD = 8000 ∧
  resetValue (.cp 0) Reg.Cp.RING_CTRL = 2 ∧ resetValue (.cp 0) Reg.Hdr.ERR_ENABLE = 0xFFFFFFFF

/-- State.reset meets the invariant (R7, R73, R82, R453). State.reset meets State.Inv: tables with rising keys, memory
in canonical form, counters below 2^64, semaphore counts below 2^31 and at most 32 tokens in a baton. -/
def Obligations.ResetMeetsInvariant : Prop := State.reset.Inv

/-- Every step keeps the invariant (R7, R50, R73, R76, R82, R84, R453). From every state that meets State.Inv, and for
every command at the front of its queue, a step that answers a next state answers one that meets State.Inv: no counter
passes 64 bits, no semaphore 31 bits, no baton 32 tokens, and memory and tables keep their canonical form. -/
def Obligations.StepKeepsInvariant : Prop := ∀ s t : State, s.Inv → step s = .next t → t.Inv

/-- No command in service changes the configuration or, but for image replacement, the boot image (R477, R482, R491,
R502, R503). No command touches the queue of waiting commands. A command other than a device reset, a loss of supply
or a start-up command keeps all of the boot state (the phase of start-up, NODE_ID, the shared part of HBM, the image's
serial, hash, owner key and configuration) but for the debug nonce and DEBUG. Of those commands only IMAGE_REPLACE and
its owner form change the image in flash. -/
def Obligations.ExecKeepsConfiguration : Prop :=
  ∀ (c : Instr) (s t : State), exec c s = .next t → t.pending = s.pending ∧
    (startsUp c = false → t.boot = { s.boot with nonce := t.boot.nonce, debug := t.boot.debug }) ∧
    (startsUp c = false → c ≠ .imageReplace → c ≠ .imageReplaceOwner → t.flash.image = s.flash.image)

/-- Only a device reset lowers an always-on counter (R43, R453, R477). For every command other than a device reset, a
loss of supply or a start-up command, and every page but the steward dies' own pages, which a switch-over copies from
one steward to the other, every one of the 24 always-on counters is at least what it was. Fences, soft resets, freezes
and retirements included. -/
def Obligations.CountersNeverFall : Prop :=
  ∀ (c : Instr) (s t : State) (b : Block) (k : Nat), s.Inv → exec c s = .next t → startsUp c = false → stewardPage b = false →
    k < 24 → ctr s b k ≤ ctr t b k

/-- Every command answers a next state, but for an edge that reaches a debug port (R503, R520). Every command on every
state answers a next state, except DBG_TCK where TRST_N is released and the edge acts on a debug port's data register:
that one is refused as debugPort, a function that the spec does not describe (log entry 135). No command faults. -/
def Obligations.OnlyDebugEdgesStop : Prop :=
  ∀ (c : Instr) (s : State), (∃ t, exec c s = .next t) ∨
    ∃ x : TapPins, c = .dbgTck x ∧ x.trstN = true ∧ debugEdge s.tap x.rising = true ∧ exec c s = .refused .debugPort

/-- Register pages and blocks name each other (R37, R38, R39, R528). The block found at a block's own page number is
that block, for every block that has a page; and a block found at a page number has that page number. So no two blocks
share a page. -/
def Obligations.PagesNameTheirBlocks : Prop :=
  (∀ b : Block, hasPage b = true → blockAt b.page = some b) ∧
  (∀ (n : Nat) (b : Block), blockAt n = some b → b.page = n)

/-- The larder and HBM interleaves lose no byte (R27, R339, R340, R341). Every offset of the interleaved larder has a
die-local place inside one die, whose interleaved address is that offset again, and every die-local place is the place
of its own interleaved address. Every HBM address has a place (stack, pseudo-channel, offset) inside that pseudo-
channel, whose address is that address again, while the shared part's exponent is at most 12. -/
def Obligations.InterleavesInvert : Prop :=
  (∀ o, o < 8 * larderDieSize → (larderPlace o).2 < larderDieSize ∧
    larderAddr (larderPlace o).1 (larderPlace o).2 = larderBase + o) ∧
  (∀ (d : LarderId) (off : Nat), off < larderDieSize →
    larderAddr d off < larderBase + 8 * larderDieSize ∧ larderPlace (larderAddr d off - larderBase) = (d, off)) ∧
  (∀ (s : State) (a off : Nat) (st : StackId) (pc : Fin 32), sharedQ s ≤ 12 → a < hbmSize → hbmPlace s a = (st, pc, off) →
    off < 0x30000000 ∧ hbmAddr s st pc off = a)

/-- A counter counts up, stops at all ones, and nothing else moves (R7). Counting n on counter k of a block adds n to
it and stops at 2^64 - 1; every other counter, and everything else in the state, is unchanged. -/
def Obligations.CountersSaturate : Prop :=
  ∀ (s : State) (b : Block) (k n : Nat), s.Inv →
    ctr (bump s b k n) b k = min (ctr s b k + n) (2 ^ 64 - 1) ∧ CtrsBut [b.cnt k] s (bump s b k n) ∧
    bump s b k n = { s with counters := (bump s b k n).counters }

/-- What an occurrence of a cause does (R48). An occurrence of a cause at a block sets its bit of ERR_STATUS, leaving
the others, adds one to ERR_COUNT up to all ones, and loads ERR_FIRST with cause and tag only while VALID is 0. Causes
2, 5 and 7, and those enabled in ERR_ENABLE, make an event and, if the event is a new one, leave a record waiting at
the block; the others leave events and records alone. No other register changes, and of the counters at most the
queue's count of merged records. -/
def Obligations.CauseIsRaised : Prop :=
  ∀ (s : State) (b : Block) (cause : Nat) (o : Occur), s.Inv → cause < 32 →
    let t := raiseWith s b cause o
    (∀ i, i < 32 → rbit t b Reg.Hdr.ERR_STATUS i = (decide (i = cause) || rbit s b Reg.Hdr.ERR_STATUS i)) ∧
    (rget t b Reg.Hdr.ERR_COUNT).toNat = min ((rget s b Reg.Hdr.ERR_COUNT).toNat + 1) (2 ^ 32 - 1) ∧
    (rbit s b Reg.Hdr.ERR_FIRST 15 = true → rget t b Reg.Hdr.ERR_FIRST = rget s b Reg.Hdr.ERR_FIRST) ∧
    (rbit s b Reg.Hdr.ERR_FIRST 15 = false →
      rbit t b Reg.Hdr.ERR_FIRST 15 = true ∧ rfield t b Reg.Hdr.ERR_FIRST 14 0 = cause ∧
      rfield t b Reg.Hdr.ERR_FIRST 31 16 = o.tag.toNat) ∧
    ((cause = 2 ∨ cause = 5 ∨ cause = 7 ∨ rbit s b Reg.Hdr.ERR_ENABLE cause = true) →
      (b.page, cause, o.tag, s.stride.count) ∈ t.events ∧
      ((b.page, cause, o.tag, s.stride.count) ∉ s.events → ∃ r ∈ t.records, r.1 = b.page)) ∧
    (¬ (cause = 2 ∨ cause = 5 ∨ cause = 7 ∨ rbit s b Reg.Hdr.ERR_ENABLE cause = true) →
      t.events = s.events ∧ t.records = s.records) ∧
    RegsBut [b.reg Reg.Hdr.ERR_STATUS, b.reg Reg.Hdr.ERR_COUNT, b.reg Reg.Hdr.ERR_FIRST] s t ∧
    CtrsBut [(activeQueue s).cnt 2] s t ∧
    t = { s with regs := t.regs, counters := t.counters, events := t.events, records := t.records,
                 steward := { s.steward with seqNo := t.steward.seqNo } }

/-- Header registers, latches, clears and plain register writes (R5, R39, R49, R50, R102, R306, R454, R455). A write
of ERR_STATUS clears the bits written as 1; ERR_FIRST loses VALID exactly where no bit is left, and only the page's
capture registers lose theirs with it (log entry 93), a core memory's PARITY_INFO all of itself. SNAPSHOT copies the
24 counters into the latched set with tag 0, stride count and ns since the tick, and the latched sets of other pages
stay; while FREEZE is 1 it does nothing. CHECK_CLEAR zeroes the array's two check masks and its fault word. A register
write on an open page goes to the header rules below 0x100 and to the page's own rules above, with the bits that only
a steward writes as they stand; it is turned away with the page's cause on a standby steward's page, and does nothing
on a closed page. -/
def Obligations.HeaderRegistersAreWritten : Prop :=
  (∀ (s : State) (b : Block) (v : Word), s.Inv → ∃ t, exec (.errStatus b v) s = .next t ∧
    rget t b Reg.Hdr.ERR_STATUS = (rget s b Reg.Hdr.ERR_STATUS &&& ~~~ v) ∧
    (rget t b Reg.Hdr.ERR_STATUS ≠ 0 → rget t b Reg.Hdr.ERR_FIRST = rget s b Reg.Hdr.ERR_FIRST) ∧
    (rget t b Reg.Hdr.ERR_STATUS = 0 → rbit t b Reg.Hdr.ERR_FIRST 15 = false) ∧
    (∀ c m, b = .mem c m → rget t b Reg.Hdr.ERR_STATUS = 0 → rget t b Reg.Mem.PARITY_INFO = 0) ∧
    OnlyRegs ([b.reg Reg.Hdr.ERR_STATUS, b.reg Reg.Hdr.ERR_FIRST] ++ (validRegs b).map (fun x => b.reg x.1) ++
      (match b with | .mem _ _ => [b.reg Reg.Mem.PARITY_INFO] | _ => [])) s t) ∧
  (∀ (s : State) (b : Block), s.Inv → rbit s b Reg.Hdr.LATCH_CTRL 1 = false → ∃ t, exec (.snapshot b) s = .next t ∧
    (∀ k, k < 24 → tget 0 t.latched (b.cnt k) = ctr s b k) ∧
    (∀ (c : Block) (k : Nat), c.page ≠ b.page → k < 24 → tget 0 t.latched (c.cnt k) = tget 0 s.latched (c.cnt k)) ∧
    rget t b Reg.Hdr.LATCH_TAG = 0 ∧ rget64 t b Reg.Hdr.LATCH_STRIDE_LO Reg.Hdr.LATCH_STRIDE_HI = s.stride.count % 2 ^ 64 ∧
    rget t b Reg.Hdr.LATCH_NS = wordOf (nsSinceTick s) ∧
    RegsBut [b.reg Reg.Hdr.LATCH_TAG, b.reg Reg.Hdr.LATCH_STRIDE_LO, b.reg Reg.Hdr.LATCH_STRIDE_HI, b.reg Reg.Hdr.LATCH_NS] s t ∧
    t = { s with regs := t.regs, latched := t.latched }) ∧
  (∀ (s : State) (b : Block), rbit s b Reg.Hdr.LATCH_CTRL 1 = true → exec (.snapshot b) s = .next s) ∧
  (∀ (s : State) (c : CoreId), s.Inv → ∃ t, exec (.checkClear c) s = .next t ∧
    rget t (.array c) Reg.Arr.CHECK_ROW_MASK = 0 ∧ rget t (.array c) Reg.Arr.CHECK_COL_MASK = 0 ∧
    rget t (.array c) Reg.Arr.CHECK_FAULT = 0 ∧
    OnlyRegs [Block.reg (.array c) Reg.Arr.CHECK_ROW_MASK, Block.reg (.array c) Reg.Arr.CHECK_COL_MASK,
      Block.reg (.array c) Reg.Arr.CHECK_FAULT] s t) ∧
  (∀ (s : State) (b : Block) (off : Nat) (v : Word), pageOpen s b = true → shownBlock s b = b → off % 4 = 0 → off < 4096 →
    (off < 0x100 → exec (.registerWrite b off v) s = .next (writeHeader s b off v)) ∧
    (0x100 ≤ off → exec (.registerWrite b off v) s = .next (writeOwn s b off (byHost s b off v)))) ∧
  (∀ (s : State) (b : Block) (off : Nat) (v : Word), pageOpen s b = true → shownBlock s b ≠ b → off % 4 = 0 → off < 4096 →
    exec (.registerWrite b off v) s = .next (raise s (shownBlock s b) (standbyCause (shownBlock s b)))) ∧
  (∀ (s : State) (b : Block) (off : Nat) (v : Word), pageOpen s b = false → exec (.registerWrite b off v) s = .next s)

/-- Fences, soft resets and ENABLE (R41, R42, R43, R44, R432, R442, R443, R446). FENCE, CORE_FENCE and DIE_FENCE set
their bit and fence the blocks that are not fenced yet. SOFT_RESET fences its block and clears its registers but for
those that a soft reset keeps and STATUS.RETIRED; a clock page takes the image's values again. Its end unfences the
block unless its core is retired. A write of ENABLE changes that one bit of CTRL, and only on an open page. The end of
a soft reset and ENABLE change no other register. -/
def Obligations.BlocksAreFenced : Prop :=
  (∀ (s : State) (b : Block), s.resetting.contains b.page = false →
    exec (.fence b) s = .next (fenceBlocks (rputBit s b Reg.Hdr.CTRL 2 true) (unfenced s [b]) false)) ∧
  (∀ (s : State) (c : CoreId), exec (.coreFence c) s = .next (fenceBlocks
    (rputBit s (.proxy (Fin.ofNat 33 (c.val / 8))) Reg.Prx.PROXY_CTRL (c.val % 8) true) (unfenced s (coreBlocks c)) true)) ∧
  (∀ (s : State) (d : DieId), d.val ≠ 31 → exec (.dieFence d) s = .next (fenceBlocks
    (rputBit s (.proxy d) Reg.Prx.PROXY_CTRL 31 true) (unfenced s (dieBlocks d)) true)) ∧
  (∀ (s : State) (b : Block), s.resetting.contains b.page = false →
    let u := fenceBlocks { s with resetting := sinsert s.resetting b.page } (unfenced s [b]) false
    let t := { u with regs := u.regs.filter (fun x => x.1 / 4096 ≠ b.page || keepsReg b (x.1 % 4096)) }
    let v := if rbit u b Reg.Hdr.STATUS 4 then rputBit t b Reg.Hdr.STATUS 4 true else t
    ((∀ d, b ≠ .clock d) → exec (.softReset b) s = .next (resetUnit v b)) ∧
    (∀ d, b = .clock d → exec (.softReset b) s =
      .next (resetUnit (clockFromImage v d (if d.val = 32 then 31 else d.val)) b))) ∧
  (∀ (s : State) (b : Block), s.Inv → s.resetting.contains b.page = true → ∃ t, exec (.softResetDone b) s = .next t ∧
    rget t b Reg.Hdr.CTRL = (if coreRetired s b then 4 else 0) ∧ t.resetting = sremove s.resetting b.page ∧
    RegsBut [b.reg Reg.Hdr.CTRL] s t ∧ t = { s with regs := t.regs, resetting := t.resetting }) ∧
  (∀ (s : State) (b : Block) (v : Bool), s.Inv → s.resetting.contains b.page = false → ∃ t, exec (.enable b v) s = .next t ∧
    rbit t b Reg.Hdr.CTRL 0 = (v && pageOpen s b) ∧
    (∀ i, 1 ≤ i → i < 32 → rbit t b Reg.Hdr.CTRL i = rbit s b Reg.Hdr.CTRL i) ∧ OnlyRegs [b.reg Reg.Hdr.CTRL] s t)

/-- What an ADD or a SUB leaves in a semaphore (R73, R74, R76, R78). An ADD that stays below 2^31 and a SUB that does
not exceed the count change the count by their amount and keep the source. One that would leave that range changes no
count, poisons the semaphore and is answered as overflow. On a poisoned semaphore nothing changes at all. Every other
semaphore of the owner keeps its count, poison and source. -/
def Obligations.SemaphoresAddAndSubtract : Prop :=
  ∀ (s : State) (f : FrontId) (i : Nat) (sub : Bool) (amount : Nat) (src : Source), s.Inv →
    let r := semApply s f i sub amount src
    let x := getSem s f i
    (x.poison = true → r = (s, .wasPoisoned)) ∧
    (x.poison = false → sub = false → x.count + amount < 2 ^ 31 →
      r.2 = .applied ∧ getSem r.1 f i = { count := x.count + amount, poison := false, src := src }) ∧
    (x.poison = false → sub = true → amount ≤ x.count →
      r.2 = .applied ∧ getSem r.1 f i = { count := x.count - amount, poison := false, src := src }) ∧
    (x.poison = false → (sub = false ∧ 2 ^ 31 ≤ x.count + amount ∨ sub = true ∧ x.count < amount) →
      r.2 = .overflow ∧ getSem r.1 f i = { count := x.count, poison := true, src := src }) ∧
    (∀ j, j ≠ i → getSem r.1 f j = getSem s f j)

/-- The semaphore memory page writes semaphores and batons (R79, R80, R82, R84, R86, R460). SEM_DATA sets count and
poison of the indexed semaphore and no other. SEM_FILL starts a fill; its end sets every semaphore of the core to the
value, without poison, and makes the operations that it held off ready together. BATON_PASS appends a token to a baton
that has room and counts it, to a full one counts a stall alone, and at a fenced memory is dropped and counted at the
proxy. BATON_POP takes the first token of a baton and shows it in BATON_TOKEN, which shows 0 for an empty baton.
Nothing else of the state changes (log entries 55, 57, 58). -/
def Obligations.SemaphorePageIsWritten : Prop :=
  ∀ (s : State) (c : CoreId) (v : Word), s.Inv →
    (∀ i, i = rfield s (.sem c) Reg.Sm.SEM_INDEX 11 0 → s.filling.find? (fun x => x.1 = c.val) = none →
      ∃ t, exec (.semData c v) s = .next t ∧
        getSem t (.cp c) i = { count := bits v 30 0, poison := bit v 31, src := writeSource s c } ∧
        (∀ j, j ≠ i → getSem t (.cp c) j = getSem s (.cp c) j) ∧
        t = { s with banks := t.banks, firstPoison := t.firstPoison }) ∧
    (s.filling.find? (fun x => x.1 = c.val) = none →
      exec (.semFill c v) s = .next { s with filling := s.filling ++ [(c.val, bits v 30 0)] }) ∧
    (∀ n, s.filling.find? (fun x => x.1 = c.val) = some (c.val, n) → ∃ t, exec (.semFillDone c) s = .next t ∧
      (∀ j, getSem t (.cp c) j = { count := n, poison := false, src := writeSource s c }) ∧
      t.filling = s.filling.filter (fun x => x.1 ≠ c.val) ∧
      t.semMsgs = s.semMsgs.map (fun m => if m.target = .cp c && !m.baton then { m with ready := s.now } else m) ∧
      t = { s with banks := t.banks, firstPoison := t.firstPoison, filling := t.filling, semMsgs := t.semMsgs }) ∧
    (isFenced s (.sem c) = false → (getBaton s c (bits v 19 16)).length < 32 → ∃ t, exec (.batonPass c v) s = .next t ∧
      getBaton t c (bits v 19 16) = getBaton s c (bits v 19 16) ++
        [{ value := BitVec.ofNat 16 (bits v 15 0), src := writeSource s c }] ∧
      ctr t (.sem c) 7 = min (ctr s (.sem c) 7 + 1) (2 ^ 64 - 1) ∧
      (∀ j, j < 16 → j ≠ bits v 19 16 → getBaton t c j = getBaton s c j) ∧
      CtrsBut [Block.cnt (.sem c) 7] s t ∧ t = { s with batons := t.batons, counters := t.counters }) ∧
    (isFenced s (.sem c) = true → exec (.batonPass c v) s = .next (bump s (proxyOf s (.sem c)) 1 1)) ∧
    (isFenced s (.sem c) = false → 32 ≤ (getBaton s c (bits v 19 16)).length → exec (.batonPass c v) s = .next (bump s (.sem c) 10 1)) ∧
    (∀ x l, getBaton s c (bits v 3 0) = x :: l → ∃ t, exec (.batonPop c v) s = .next t ∧
      getBaton t c (bits v 3 0) = l ∧ rget t (.sem c) Reg.Sm.BATON_TOKEN = wordOf (2 ^ 16 + x.value.toNat) ∧
      RegsBut [Block.reg (.sem c) Reg.Sm.BATON_TOKEN] s t ∧ t = { s with batons := t.batons, regs := t.regs }) ∧
    (getBaton s c (bits v 3 0) = [] → ∃ t, exec (.batonPop c v) s = .next t ∧
      rget t (.sem c) Reg.Sm.BATON_TOKEN = 0 ∧ OnlyRegs [Block.reg (.sem c) Reg.Sm.BATON_TOKEN] s t)

/-- SYNC_MODE changes only while the CP is idle (R85). While the CP is idle a write of SYNC_MODE sets it and changes
no other register. At any other time a write that would change it raises MODE_BUSY and does no more, and one that
would not is no change. In every case semaphores and batons stay as they are. -/
def Obligations.SyncModeChangesOnlyWhenIdle : Prop :=
  ∀ (s : State) (c : CoreId) (v : Bool), s.Inv →
    (frontIdle s (.cp c) = true → ∃ t, exec (.syncMode (.cp c) v) s = .next t ∧ rbit t (.cp c) Reg.Cp.RING_CTRL 1 = v ∧
      OnlyRegs [Block.reg (.cp c) Reg.Cp.RING_CTRL] s t) ∧
    (frontIdle s (.cp c) = false → rbit s (.cp c) Reg.Cp.RING_CTRL 1 ≠ v →
      exec (.syncMode (.cp c) v) s = .next (raise s (.cp c) 11)) ∧
    (frontIdle s (.cp c) = false → rbit s (.cp c) Reg.Cp.RING_CTRL 1 = v → exec (.syncMode (.cp c) v) s = .next s) ∧
    (∀ t, exec (.syncMode (.cp c) v) s = .next t → t.banks = s.banks ∧ t.batons = s.batons)

/-- Ring fetch, dispatch and RING_TAIL (R94, R95, R96, R97, R98). RING_FETCH reads the command at HEAD and appends its
16 words to the fetched commands, where fetching may go on and the read is answered OK. DISPATCH places a good command
other than a STRIDE_WAIT in a free slot, waiting, if it need not follow the slots in flight or there are none.
RING_TAIL is taken unless it would put more commands in the ring than the ring holds, which raises cause 9. -/
def Obligations.RingIsFetchedAndDispatched : Prop :=
  (∀ (s : State) (f : FrontId),
    mayFetch s f = true → ringPlaceOk s f (ringAddr s f (rget s f.block Reg.Cp.RING_HEAD).toNat) = true →
    (readLocal s (reqOf f.block .critical) (ringAddr s f (rget s f.block Reg.Cp.RING_HEAD).toNat) 64).2.1 = .ok →
    exec (.ringFetch f) s = .next (
      let r := readLocal s (reqOf f.block .critical) (ringAddr s f (rget s f.block Reg.Cp.RING_HEAD).toNat) 64
      pushFetched r.1 f { words := wordsOf 16 r.2.2, fail := none })) ∧
  (∀ (s : State) (f : FrontId) (x : Fetched) (rest : List Fetched) (n : Nat),
    mayDispatch s f = true → (getFront s f).fetched = x :: rest → x.fail = none →
    badCommand f (batonMode s f) x.words = false → cmdOp x.words ≠ 0x21 →
    (cmdOrdered x.words = true → (getFront s f).slots = []) → nextSlot s f = some n →
    exec (.dispatch f) s = .next (placeCommand (popFetched s f) f x.words n .waiting)) ∧
  (∀ (s : State) (f : FrontId) (v : Word),
    exec (.ringTail f v) s = .next (
      if ringSize s f < (v - rget s f.block Reg.Cp.RING_HEAD).toNat then raise s f.block 9
      else rput s f.block Reg.Cp.RING_TAIL v))

/-- Waits, baton takes and STRIDE_WAIT (R74, R78, R83, R93, R98, R531). A command waiting at the head of its queue
becomes ready when its wait is satisfied (with the ACQUIRE taken, after the remote ADDs that are ready with it), ends
POISONED on a poisoned semaphore, and otherwise only notes that it waits. In baton mode a satisfied wait removes its
tokens. A STRIDE_WAIT whose own wait is over ends OK once the stride count has reached its target, showing the count
in STRIDE_BASE and recording the wait. -/
def Obligations.WaitsAreTaken : Prop :=
  (∀ (s : State) (f : FrontId) (q : Fin 12) (x : Slot),
    queueHead s f q.val = some x → takesBaton s f x.words = false → x.phase = .waiting →
    engineFenced s f q.val (cmdOp x.words) = false → haltedChannel s f q.val = none →
    let u := if cmdAcquire x.words && !batonMode s f then applyAdds s f (cmdWaitSem x.words) s.semMsgs.length else s
    (evalWait u f q.val x.words = .satisfied → exec (.waitSatisfied f q) s =
      .next (putSlot (takeWait u f q.val x.words x.waitFrom) f { x with phase := .ready })) ∧
    (evalWait u f q.val x.words = .poisoned → exec (.waitSatisfied f q) s =
      .next (putSlot (poisonedWait u f q.val x.words x.waitFrom) f { x with phase := .ended .poisoned })) ∧
    (evalWait u f q.val x.words = .unsatisfied → exec (.waitSatisfied f q) s = .next (noteWait u f q.val))) ∧
  (∀ (s : State) (c : CoreId) (q : Fin 12) (x : Slot),
    queueHead s (.cp c) q.val = some x → takesBaton s (.cp c) x.words = true → x.phase = .waiting →
    engineFenced s (.cp c) q.val (cmdOp x.words) = false → haltedChannel s (.cp c) q.val = none →
    evalWait s (.cp c) q.val x.words = .satisfied →
    exec (.batonTake c q) s = .next (putSlot (takeWait s (.cp c) q.val x.words x.waitFrom) (.cp c) { x with phase := .ready })) ∧
  (∀ (s : State) (f : FrontId) (w : StrideWaiter),
    (getFront s f).strideWait = some w → w.ended = none → w.waitDone = true → s.stride.state ≠ 0 →
    strideTarget s f w.words ≤ s.stride.count →
    exec (.strideWait f) s = .next (
      let u := rput64 s f.block Reg.Cp.STRIDE_BASE_LO Reg.Cp.STRIDE_BASE_HI s.stride.count
      let v := traceWait u f.block w.waitFrom (fun t len =>
        { kind := TraceKind.strideWait, tag := cmdTag w.words, object := 0, queue := 0, opcode := 0x21,
          value := strideTarget s f w.words, start := t, length := len,
          rel := { unit := (activeStride u).unit, node := (nodeId u).val, tag := 0 }, entry := 0 })
      endStrideWait v f w .ok (postTokens v f w.words)))

/-- Completion, stalled passes, semaphore operations, timeouts and the order of statuses (R47, R77, R84, R89, R90,
R92, R94, R99). A command whose work has ended completes with the status that its post leaves, the ready remote ADDs
having been applied before its SUB, also after a pass that waited for room. The operation that stands first at a
semaphore is applied and leaves the list. REQUEST_TIMEOUT ends a waiting request of its block as if answered ABORTED,
a SEM_OP's with its own rule, and otherwise makes a coming request of that block lapse (log entry 160). A ring fetch
that lapsed is retried once, and is then a failed fetch. Of two statuses the earlier of POISONED, ABORTED, BANK_OFF,
DEFECT, REFUSED, OK prevails. -/
def Obligations.CommandsComplete : Prop :=
  (∀ (s u : State) (f : FrontId) (slot : Nat) (x : Slot) (st st' : Status),
    getSlot s f slot = some x → x.phase = .ended st → makePost (readyAdds s f x.words) f x.words st (postTokens s f x.words) = (u, .made st') →
    exec (.completion f slot) s = .next (completeSlot u f x st')) ∧
  (∀ (s u : State) (c : CoreId) (slot n : Nat) (x : Slot) (st st' : Status),
    getSlot s (.cp c) slot = some x → x.phase = .passing st n → makePost (readyAdds s (.cp c) x.words) (.cp c) x.words st n = (u, .made st') →
    exec (.batonStall c slot) s = .next (completeSlot u (.cp c) x st')) ∧
  (∀ (s : State) (f : FrontId) (i k : Nat) (m : SemMsg),
    firstSemMsg s f i = some k → s.semMsgs[k]? = some m →
    exec (.semOperation f i) s = .next (applySemMsg { s with semMsgs := s.semMsgs.eraseIdx k } m)) ∧
  (∀ (s : State) (who : Block) (k : Nat),
    (∀ o, (owedOf s who)[k]? = some o → exec (.requestTimeout who k) s = .next (endOwed s who o)) ∧
    ((owedOf s who)[k]? = none →
      exec (.requestTimeout who k) s = .next { s with lapse := some (who, k - (owedOf s who).length) })) ∧
  (∀ (s : State) (f : FrontId) (slot : Nat) (x : Slot), getSlot s f slot = some x →
    endOwed s f.block (.sem f slot) = timeoutSem s f x) ∧
  (∀ (s t : State) (f : FrontId) (d : List Byte),
    mayFetch s f = true → ringPlaceOk s f (ringAddr s f (rget s f.block Reg.Cp.RING_HEAD).toNat) = true →
    readLocal s (reqOf f.block .critical) (ringAddr s f (rget s f.block Reg.Cp.RING_HEAD).toNat) 64 = (t, .aborted, d) →
    t.now ≠ s.now →
    exec (.ringFetch f) s = .next (
      if (getFront t f).retried then pushFetched t f { words := [], fail := some .timeout }
      else putFront t f { getFront t f with retried := true })) ∧
  (let l : List Status := [.poisoned, .aborted, .bankOff, .defect, .refused, .ok]
   ∀ i j, i < 6 → j < 6 → worse (l.getD i .ok) (l.getD j .ok) = l.getD (min i j) .ok)

/-- SEM_OP and DMA start (R13, R34, R77, R91, R92, R98, R328, R441). A SEM_OP that may start at its front end puts its
operation, with amount, direction, arrival port, time and source, on its way to a target on this device, its flits
counted by the routers that pass them on, and its slot runs until the answer; where a path of the way is paused it is
held, and where one has stopped it gets no answer. To a target on another device it is sent over the fabric. A DMA
command that may start starts its channel, and one that was held goes on. -/
def Obligations.SemOpAndDmaStart : Prop :=
  (∀ (s : State) (f : FrontId) (slot : Nat) (x : Slot) (a i : Nat) (t : FrontId),
    let s0 := running s f x
    let y := started s f x
    let from_ := dieOf s0 f.block
    let at_ := dieOf s0 (semBlock t)
    MayStart s f slot 0x20 false x → targetOf s0 (cf64 x.words 2) = .here a →
    semTarget s0 a (cb x.words 5 0) = some (t, i) →
    (routeStopped s0 from_ at_ = false → routeWaits s0 from_ at_ = false →
      exec (.semOp f slot) s = .next (
        let u := passFlits (putSlot s0 f { y with phase := .running }) from_ at_ 1
        { u with semMsgs := u.semMsgs ++ [{
          ready := s0.now, target := t, index := i, baton := cb x.words 5 0, sub := cb x.words 4 31,
          amount := cf x.words 4 30 0, port := arrivalPort from_ at_, src := sourceOf s0 f x.words,
          reply := .slot f x.id }] })) ∧
    (routeStopped s0 from_ at_ = false → routeWaits s0 from_ at_ = true →
      exec (.semOp f slot) s = .next (putSlot s0 f { y with phase := .held })) ∧
    (routeStopped s0 from_ at_ = true → exec (.semOp f slot) s = .next (putSlot s0 f { y with phase := .running }))) ∧
  (∀ (s : State) (f : FrontId) (slot : Nat) (x : Slot) (dev a : Nat) (ti : FrontId × Nat),
    MayStart s f slot 0x20 false x → targetOf (running s f x) (cf64 x.words 2) = .remote dev a →
    semTarget (running s f x) a (cb x.words 5 0) = some ti →
    exec (.semOp f slot) s = .next (sendSem (running s f x) f (started s f x) dev a)) ∧
  (∀ (s : State) (c : CoreId) (slot : Nat) (x : Slot),
    MayStart s (.cp c) slot 0x28 true x →
    (x.phase ≠ .held → exec (.dma c slot) s = .next (dmaStart (running s (.cp c) x) c (started s (.cp c) x))) ∧
    (x.phase = .held → exec (.dma c slot) s = .next (dmaGo (running s (.cp c) x) c (dmaChannel x.words) x)))

/-- Array, vector, gather, copy and fill commands run and end (R104, R106, R121, R123, R138, R142, R145, R210, R214,
R313, R315, R170). MATMUL in its three modes, ELTWISE, REDUCE, GATHER, SCATTER_ADD, COPY, TRANSPOSE_COPY and FILL,
each where it may start at its core, run the body that its rules give on the started slot, and leave the state of that
run with the slot ended at its status. A run that meets a request which has to wait leaves the command started and
waiting, with the copies it has taken. -/
def Obligations.ArrayAndVectorCommandsRun : Prop :=
  ∀ (s : State) (c : CoreId) (slot op : Nat) (one : Bool) (x : Slot) (body : Run Unit) (i : Instr),
    let y := started s (.cp c) x
    let r := ranAs s (.cp c) x body
    MayStart s (.cp c) slot op one x →
    ((op = 0x01 ∧ one = false ∧ cf x.words 4 6 5 = 0 ∧ i = .matmul c slot ∧ body = runMatmul c y) ∨
      (op = 0x01 ∧ one = false ∧ cf x.words 4 6 5 = 1 ∧ i = .matmulCascade c slot ∧ body = runMatmul c y) ∨
      (op = 0x01 ∧ one = false ∧ cf x.words 4 6 5 = 2 ∧ i = .matmulElementWise c slot ∧ body = runMatmul c y) ∨
      (op = 0x08 ∧ one = false ∧ i = .eltwise c slot ∧ body = runEltwise c y) ∨
      (op = 0x09 ∧ one = false ∧ i = .reduce c slot ∧ body = runReduce c y) ∨
      (op = 0x10 ∧ one = false ∧ i = .gather c slot ∧ body = runGather c y) ∨
      (op = 0x11 ∧ one = false ∧ i = .scatterAdd c slot ∧ body = runScatter c y) ∨
      (op = 0x18 ∧ one = true ∧ i = .copy c slot ∧ body = runCopy c y) ∨
      (op = 0x19 ∧ one = false ∧ i = .transposeCopy c slot ∧ body = runTranspose c y) ∨
      (op = 0x1A ∧ one = true ∧ i = .fill c slot ∧ body = runFill c y)) →
    (r.2 ≠ .delayed → exec i s = .next (endSlot r.1.st (.cp c) x.id r.2)) ∧
    (r.2 = .delayed → exec i s = .next (waitSlot (running s (.cp c) x) (.cp c) y r.1))

/-- Pod-tiled products and PREDICT run and end (R152, R165, R199, R202, R207, R218, R249). MATMUL_POD, MATMUL_POD_T,
MASKED_PRODUCT and PREDICT, each where it may start, run their body and leave the state of that run with the slot
ended at its status and, after a wait at a publish lock, that wait ended and measured. A run that meets a lock or a
request which has to wait leaves the command started and held, with the descriptors and records that it has read. -/
def Obligations.PodCommandsRun : Prop :=
  ∀ (s : State) (c : CoreId) (slot op : Nat) (x : Slot) (body : Run Unit) (i : Instr),
    let y := started s (.cp c) x
    let r := ranAs s (.cp c) x body
    let s0 := running s (.cp c) x
    MayStart s (.cp c) slot op false x →
    ((op = 0x02 ∧ i = .matmulPod c slot ∧ body = runPod c y) ∨
      (op = 0x03 ∧ i = .matmulPodT c slot ∧ body = runPodT c y) ∨
      (op = 0x04 ∧ i = .maskedProduct c slot ∧ body = runMasked c y) ∨
      (op = 0x05 ∧ i = .predict c slot ∧ body = runPredict c y)) →
    (r.2 ≠ .delayed → exec i s = .next (endSlot (endLockWait r.1.st c y) (.cp c) x.id r.2)) ∧
    (r.2 = .delayed → exec i s = .next (waitSlot s0 (.cp c) (heldBy s0 y r.1) r.1))

/-- Update-and-thinning engine commands run and end (R230, R239, R242, R267, R269, R271, R280, R281). UPDATE in APPLY
and NORM mode, THIN, SPROUT and DRIFT_AUDIT, each where it may start, run their body; the slot ends at the run's
status unless the run leaves it running until its list has been armed. A run that must wait (for its decision, a lock
or a request) leaves the command started and waiting, with what it has read. -/
def Obligations.UpdateEngineCommandsRun : Prop :=
  ∀ (s : State) (h : HubId) (slot op : Nat) (x : Slot) (body : Run Unit) (i : Instr),
    let y := started s (.hub h) x
    let r := ranAs s (.hub h) x body
    MayStart s (.hub h) slot op false x →
    ((op = 0x40 ∧ cf x.words 5 6 5 = 0 ∧ i = .apply h slot ∧ body = runApply h y) ∨
      (op = 0x40 ∧ cf x.words 5 6 5 = 1 ∧ i = .normPass h slot ∧ body = runNorm h y) ∨
      (op = 0x41 ∧ i = .thin h slot ∧ body = runThin h false y) ∨
      (op = 0x42 ∧ i = .sprout h slot ∧ body = runThin h true y) ∨
      (op = 0x43 ∧ i = .driftAudit h slot ∧ body = runAudit h y)) →
    (r.2 ≠ .delayed → exec i s = .next (
      if (getSlot r.1.st (.hub h) x.id).any (fun z => z.phase = .running) then r.1.st
      else endSlot r.1.st (.hub h) x.id r.2)) ∧
    (r.2 = .delayed → exec i s = .next (waitSlot (running s (.hub h) x) (.hub h) y r.1))

/-- LAP in PARK and RUN mode (R267, R285, R286, R288). PARK and RUN, each where it may start, run their body and end
at its status, a PARK ending the engine's hold; RUN may leave the slot running. A run that must wait leaves the
command started and waiting; where a PARK finds no free slot in a full ring, the engine asserts its hold. -/
def Obligations.SlowTierEngineCommandsRun : Prop :=
  ∀ (s : State) (p : PortDieId) (slot : Nat) (x : Slot),
    let y := started s (.slow p) x
    let s0 := running s (.slow p) x
    let rp := ranAs s (.slow p) x (runPark p y)
    let rr := ranAs s (.slow p) x (Sys2Proof.Machine.runRun p y)
    let wp := waitSlot s0 (.slow p) y rp.1
    MayStart s (.slow p) slot 0x48 false x →
    (cb x.words 5 5 = false →
      (rp.2 ≠ .delayed → exec (.park p slot) s = .next (endSlot (endParkHold rp.1.st p) (.slow p) x.id rp.2)) ∧
      (rp.2 = .delayed → exec (.park p slot) s = .next (if rp.1.full then startParkHold wp p else wp))) ∧
    (cb x.words 5 5 = true →
      (rr.2 ≠ .delayed → exec (.run p slot) s = .next (
        if (getSlot rr.1.st (.slow p) x.id).any (fun z => z.phase = .running) then rr.1.st
        else endSlot rr.1.st (.slow p) x.id rr.2)) ∧
      (rr.2 = .delayed → exec (.run p slot) s = .next (waitSlot s0 (.slow p) y rr.1)))

/-- Collectives start by their kind (R400, R401, R402, R411, R413). A COLLECTIVE that may start at its relay engine
starts as the collective, the move or the vote that its KIND names, with its slot started. -/
def Obligations.CollectiveCommandsRun : Prop :=
  ∀ (s : State) (e : RelayId) (slot : Nat) (x : Slot),
    let y := started s (.relay e) x
    let s0 := running s (.relay e) x
    MayStart s (.relay e) slot 0x50 true x →
    (cf x.words 2 3 0 = 0 → exec (.collectiveReduce e slot) s = .next (startColl s0 e y)) ∧
    (cf x.words 2 3 0 = 1 → exec (.allReduce e slot) s = .next (startColl s0 e y)) ∧
    (cf x.words 2 3 0 = 2 → exec (.reduceScatter e slot) s = .next (startColl s0 e y)) ∧
    (cf x.words 2 3 0 = 3 → exec (.allGather e slot) s = .next (startColl s0 e y)) ∧
    (cf x.words 2 3 0 = 4 → exec (.broadcast e slot) s = .next (startColl s0 e y)) ∧
    (cf x.words 2 3 0 = 5 → exec (.allToAll e slot) s = .next (startColl s0 e y)) ∧
    (cf x.words 2 3 0 = 6 → exec (.permute e slot) s = .next (startColl s0 e y)) ∧
    (cf x.words 2 3 0 = 7 → exec (.move e slot) s = .next (startColl s0 e y)) ∧
    (cf x.words 2 3 0 = 8 → exec (.stepVote e slot) s = .next (startVote s0 e y))

/-- Descriptor creation, deletion and batches (R156, R157, R158, R159, R164). A write of DESC_CREATE with GO is taken
while none runs, and its operation and index are those written. Creation writes the checked descriptor and shows its
index in the result; deletion clears the entry's VALID bit, adds one to its generation modulo 256 and writes it back;
a batch that does not overlap the table goes through the staged descriptors from the first index on. Each clears GO
when it is done. -/
def Obligations.DescriptorsAreCreated : Prop :=
  ∀ (s : State) (o : TableOwner), s.Inv →
    let go (k : Nat) := startCreate s o k
    let clearGo (u : State) := rputBit u (descBlock o) (createOff o) 31 false
    let op (u : State) := rfield u (descBlock o) (createOff o) 17 16
    (∀ k, k < 4 → creating s o = false → op (go k) = k ∧ createIndex (go k) o = createIndex s o) ∧
    (∀ u, op (go 0) = 0 → createAt (go 0) o (createIndex (go 0) o) (stagedWords (go 0) o) = (u, .ok) →
      exec (.descCreate o) s = .next (clearGo u) ∧ rfield u (descBlock o) (resultOff o) 30 0 = createIndex (go 0) o) ∧
    (∀ u v i w d, op (go 1) = 1 → i = createIndex (go 1) o → indexCode (go 1) o i = 0 → tableEntry (go 1) o i = (u, .ok, w) →
      d = w.set 0 (withBit (wordAt w 0) 31 false) →
      writeLocal u (createReq o) (entryAddr u o i)
        (bytesOf (d.set 15 (withBits (wordAt d 15) 7 0 ((cf d 15 7 0 + 1) % 256)))) = (v, .ok) →
      exec (.descDelete o) s = .next (clearGo (createDone v o i))) ∧
    (∀ s0 n v st, op (go 2) = 2 → n = rfield (go 2) (descBlock o) (batchCountOff o) 15 0 → n ≠ 0 →
      s0 = rputField (go 2) (descBlock o) (batchCountOff o) 31 16 0 →
      overlaps (batchSrc (go 2) o) (64 * n) (tablePlace s0 o).1 (tablePlace s0 o).2 = false →
      batchFrom s0 o (batchSrc (go 2) o) (rfield (go 2) (descBlock o) (batchFirstOff o) 15 0) n 0 = (v, st) → st ≠ .delayed →
      exec (.descBatch o) s = .next (clearGo v))

/-- Descriptor tables, allocations and directory writes (R28, R151, R153, R154, R155, R180, R294). A table of a core
or an engine is taken while its front end is idle and its range good, and its fill zeroes the whole table, takes an
armed parity injection, and clears CLEARING. ARM makes a good allocation VALID; a write of base or size makes it not
VALID and adds one to its generation modulo 65536; no other register changes. A directory write that the checks let
through is made as a request of its requester, and one that they refuse is answered with their status. -/
def Obligations.TablesAndAllocations : Prop :=
  (∀ (s : State) (c : CoreId) (v : Word), frontIdle s (.cp c) = true →
    amTableOk (bits v 24 6 * 64) (rfield s (.gme c) Reg.Gme.DESC_TABLE_LOG2 4 0) = true →
    exec (.descTableOffset c v) s = .next (startFill (rputField (rputField s (.gme c) Reg.Gme.DESC_TABLE_OFFSET 24 6 (bits v 24 6))
      (.gme c) Reg.Gme.DESC_TABLE_LOG2 4 0 (rfield s (.gme c) Reg.Gme.DESC_TABLE_LOG2 4 0)) (.cp c))) ∧
  (∀ (s : State) (c : CoreId) (v : Word), frontIdle s (.cp c) = true →
    amTableOk (rfield s (.gme c) Reg.Gme.DESC_TABLE_OFFSET 24 6 * 64) (bits v 4 0) = true →
    exec (.descTableLog2 c v) s = .next (startFill (rputField (rputField s (.gme c) Reg.Gme.DESC_TABLE_OFFSET 24 6
      (rfield s (.gme c) Reg.Gme.DESC_TABLE_OFFSET 24 6)) (.gme c) Reg.Gme.DESC_TABLE_LOG2 4 0 (bits v 4 0)) (.cp c))) ∧
  (∀ (s : State) (o : TableOwner) (v : Word), isCore o = false → frontIdle s o = true →
    let a := rget64 s (descBlock o) Reg.Upd.DESC_TABLE_BASE_LO Reg.Upd.DESC_TABLE_BASE_HI
    engineTableOk s o a (bits v 4 0) = true →
    exec (.tableCommit o v) s = .next (startFill (rputField { s with tables := tset (0, 6) s.tables o.num (a, bits v 4 0) }
      (descBlock o) Reg.Upd.DESC_TABLE_LOG2 4 0 (bits v 4 0)) o)) ∧
  (∀ (s : State) (o : TableOwner), tableFilling s o = true →
    exec (.tableFill o) s = .next (
      let n := 64 * tableSize s o
      let u := zeroRange s (entryAddr s o 0) n
      let u := match o with
        | .cp c => injectParity u c .am (amTable u c).1 n
        | _ => u
      rputBit (rputBit u (descBlock o) (clearingOff o) 31 false) (descBlock o) (resultOff o) 31 false)) ∧
  (∀ (s : State) (o : TableOwner) (e : Fin 128), s.Inv → allocOk s (getAlloc s o e.val) = true →
    ∃ t, exec (.arm o e) s = .next t ∧ (getAlloc t o e.val).valid = true ∧
      OnlyRegs [(descBlock o).reg (Reg.Gme.ALLOC_CTRL + 16 * e.val)] s t) ∧
  (∀ (s : State) (o : TableOwner) (e : Fin 128) (hi : Bool) (v : Word), s.Inv →
    ∃ t, exec (.allocBase o e hi v) s = .next t ∧ (getAlloc t o e.val).valid = false ∧
      (getAlloc t o e.val).gen = ((getAlloc s o e.val).gen + 1) % 65536 ∧
      OnlyRegs [(descBlock o).reg (Reg.Gme.ALLOC_CTRL + 16 * e.val),
        (descBlock o).reg ((if hi then Reg.Gme.ALLOC_BASE_HI else Reg.Gme.ALLOC_BASE_LO) + 16 * e.val)] s t) ∧
  (∀ (s : State) (o : TableOwner) (e : Fin 128) (v : Word), s.Inv →
    ∃ t, exec (.allocSize o e v) s = .next t ∧ (getAlloc t o e.val).valid = false ∧
      (getAlloc t o e.val).gen = ((getAlloc s o e.val).gen + 1) % 65536 ∧
      OnlyRegs [(descBlock o).reg (Reg.Gme.ALLOC_CTRL + 16 * e.val), (descBlock o).reg (Reg.Gme.ALLOC_SIZE + 16 * e.val)] s t) ∧
  (∀ (s u : State) (who : Block) (offset off : Nat) (d : LarderId) (data : List Byte) (st : Status),
    let r := rowReq who 0 .critical
    placeOf s (directoryBase + offset) = .larder d off → larderWriteCheck s r d off data.length = (u, st) →
    (st = .ok → exec (.directoryWrite who offset data) s = .next (takeRequest s r (directoryBase + offset) (.write data))) ∧
    (st ≠ .ok → exec (.directoryWrite who offset data) s = .next (respond who (u, st, []))))

/-- Core memories: requests, patrol reads, parity injection, segments (R31, R300, R303, R305, R307, R308, R309, R310,
R312). A request within a core memory is served and answered, or held while it must wait; one that runs past it is
answered ABORTED with ADDRESS. A patrol read visits the next block of an ON segment and reports its first byte of bad
parity. PARITY_INJECT takes block and ARM. SEG_OFF goes bit by bit: an ON segment drains unless it holds the
descriptor table, which raises SEG_BUSY; a draining one whose bit clears is ON, an OFF one wakes; writes that came
before it in its cycle are taken ahead. A drained segment has written what was in flight, is OFF and counted; a woken
one is zeroed and ON, or draining again where its bit is set. -/
def Obligations.CoreMemoriesServe : Prop :=
  (∀ (s : State) (c : CoreId) (m : CoreMem) (who : Block) (tag : Tag) (offset : Nat) (a : Access),
    offset + accessBytes a ≤ memSize m →
    let q := rowReq who tag .critical
    let r := serveLocal s q (coreAddr c m offset) a
    (r.2.1 ≠ .delayed → isFenced r.1 who = false → exec (.coreMemoryRequest c m who tag offset a) s =
      .next { r.1 with outputs := r.1.outputs ++ [.response who r.2.1 r.2.2] }) ∧
    (r.2.1 = .delayed → exec (.coreMemoryRequest c m who tag offset a) s =
      .next (holdReq s r.1 q (coreAddr c m offset) a none .unit))) ∧
  (∀ (s : State) (c : CoreId) (m : CoreMem) (who : Block) (tag : Tag) (offset : Nat) (a : Access),
    memSize m < offset + accessBytes a → exec (.coreMemoryRequest c m who tag offset a) s =
      .next (respond who (raiseAtRequester s (rowReq who tag .critical) Cause.ADDRESS, .aborted, []))) ∧
  (∀ (s : State) (c : CoreId) (m : CoreMem) (k : Nat),
    rbit s (.mem c m) Reg.Mem.PATROL_CTRL 31 = true → isFenced s (.mem c m) = false →
    nextOn s c m (rfield s (.mem c m) Reg.Mem.PATROL_POS 24 6) 12 = some k →
    (s.badParity.find? (fun x => coreAddr c m (64 * k) ≤ x && x < coreAddr c m (64 * k) + 64) = none →
      exec (.patrolRead c m) s = .next (rput (bump s (.mem c m) 4 1) (.mem c m) Reg.Mem.PATROL_POS
        (wordOf ((k + 1) % (memSize m / 64) * 64)))) ∧
    (∀ x, s.badParity.find? (fun x => coreAddr c m (64 * k) ≤ x && x < coreAddr c m (64 * k) + 64) = some x →
      exec (.patrolRead c m) s = .next (parityError (rput (bump s (.mem c m) 4 1) (.mem c m) Reg.Mem.PATROL_POS
        (wordOf ((k + 1) % (memSize m / 64) * 64))) c m (x - coreAddr c m 0) 7 (reqOf (.mem c m) .bulk)))) ∧
  (∀ (s : State) (c : CoreId) (m : CoreMem) (v : Word), s.Inv →
    ∃ t, exec (.parityInject c m v) s = .next t ∧ rfield t (.mem c m) Reg.Mem.PARITY_INJECT 24 6 = bits v 24 6 ∧
      rbit t (.mem c m) Reg.Mem.PARITY_INJECT 31 = (bit v 31 || rbit s (.mem c m) Reg.Mem.PARITY_INJECT 31) ∧
      OnlyRegs [Block.reg (.mem c m) Reg.Mem.PARITY_INJECT] s t) ∧
  (∀ (s : State) (c : CoreId) (m : CoreMem) (v : Word),
    exec (.segOff c m v []) s = .next ((List.range m.segments).foldl (fun s k => writeSegBit s c m k (bit v k)) s)) ∧
  (∀ (s : State) (c : CoreId) (m : CoreMem) (v : Word) (l : List (Block × Tag × Nat × List Byte)),
    exec (.segOff c m v l) s = .next (l.foldl (writeAhead s c m) (writeSegOff s c m v))) ∧
  (∀ (s : State) (c : CoreId) (m : CoreMem) (k : Nat),
    ((getSeg s c m k).phase = .on → segHoldsTable s c m k = false →
      writeSegBit s c m k true = putSeg (rputBit s (.mem c m) Reg.Mem.SEG_OFF k true) c m k { getSeg s c m k with phase := .draining }) ∧
    (segHoldsTable s c m k = true → writeSegBit s c m k true = raise s (.mem c m) 8) ∧
    ((getSeg s c m k).phase = .draining →
      writeSegBit s c m k false =
        landWrites (putSeg (rputBit s (.mem c m) Reg.Mem.SEG_OFF k false) c m k { getSeg s c m k with phase := .on }) c m k) ∧
    ((getSeg s c m k).phase = .off →
      writeSegBit s c m k false = putSeg (rputBit s (.mem c m) Reg.Mem.SEG_OFF k false) c m k { getSeg s c m k with phase := .waking })) ∧
  (∀ (s : State) (c : CoreId) (m : CoreMem) (k : Fin 11), (getSeg s c m k.val).phase = .draining →
    exec (.drainComplete c m k) s =
      .next (bump (putSeg (landWrites s c m k.val) c m k.val { phase := .off, wif := [] }) (.mem c m) 8 1)) ∧
  (∀ (s : State) (c : CoreId) (m : CoreMem) (k : Fin 11), (getSeg s c m k.val).phase = .waking →
    let u := zeroRange s (coreAddr c m (k.val * segBytes m)) (segBytes m)
    exec (.wakeComplete c m k) s = .next (putSeg u c m k.val { getSeg s c m k.val with
      phase := if rbit u (.mem c m) Reg.Mem.SEG_OFF k.val then .draining else .on }))

/-- Waking a segment zeroes every byte of it and no other (R311). When a WAKING segment has woken, every byte of it
reads 0 and has good parity; every byte of memory outside it, and every mark of bad parity outside it, is as before,
and of the rest of the state only the error marks of its range and the segment's own state change. -/
def Obligations.WakingWritesZeros : Prop :=
  ∀ (s : State) (c : CoreId) (m : CoreMem) (k : Fin 11), s.Inv → (getSeg s c m k.val).phase = .waking →
    ∃ t, exec (.wakeComplete c m k) s = .next t ∧
      (∀ o, o < segBytes m → getByte t (coreAddr c m (k.val * segBytes m) + o) = 0 ∧
        coreAddr c m (k.val * segBytes m) + o ∉ t.badParity) ∧
      BytesBut (coreAddr c m (k.val * segBytes m)) (segBytes m) s t ∧
      (∀ a, a < coreAddr c m (k.val * segBytes m) ∨ coreAddr c m (k.val * segBytes m) + segBytes m ≤ a →
        (a ∈ t.badParity ↔ a ∈ s.badParity)) ∧
      t = { s with mem := t.mem, badParity := t.badParity, larderFlips := t.larderFlips, hbmFlips := t.hbmFlips,
                   reported := t.reported, segms := t.segms }

/-- Larder reads, writes, merging and scrubbing (R31, R180, R322, R323, R324, R325, R327, R364, R365). A read of one
block that no entry waits for makes one, a critical one answered at once; a bulk or speculative one where nothing
holds it up; a speculative one is refused where bulk would wait. A read that finds an entry with room joins it and is
counted, and a critical one ends its wait. A write within a die is taken as a request, and one past its end is
answered ABORTED with ADDRESS. A waiting entry answers all of its readers with one access. The scrubber reads the next
block, counts its corrections and moves on. -/
def Obligations.LarderServes : Prop :=
  (∀ (s : State) (d : LarderId) (who : Block) (offset n : Nat),
    let a := larderAlias d offset
    let u := travel s who a 0 n
    offset + n ≤ larderDieSize → rowWay s who a n = .free → larderFenced s d offset n = none →
    blockCuts offset n = [(offset, n)] →
    (∀ (cls : SvcClass) (e : PendingRead), cls ≠ .critical →
      openEntry u d (offset / 64) = none → judge u (reqOf who cls) [(.larder d, 0)] false = (false, none) →
      e = { die := d, block := offset / 64, bulk := decide (cls = .bulk), readers := [(who, offset, n)], answered := false } →
      exec (.larderRead d who cls offset n) s =
        .next (noteServed { u with pendingReads := u.pendingReads ++ [e] } (reqOf who cls) [(.larder d, 0)])) ∧
    (∀ e : PendingRead, openEntry u d (offset / 64) = none →
      e = { die := d, block := offset / 64, bulk := false, readers := [(who, offset, n)], answered := false } →
      exec (.larderRead d who .critical offset n) s = .next (serveEntry
        (noteServed { u with pendingReads := u.pendingReads ++ [e] } (reqOf who .critical) [(.larder d, 0)]) e)) ∧
    (∀ (x : Dest), openEntry u d (offset / 64) = none →
      judge u (reqOf who .speculative) [(.larder d, 0)] false = (true, some x) →
      exec (.larderRead d who .speculative offset n) s =
        .next (respond who (noteRefused u (reqOf who .speculative) x.1, .refused, []))) ∧
    (∀ (cls : SvcClass) (e f : PendingRead), openEntry u d (offset / 64) = some e →
      f = { e with readers := e.readers ++ [(who, offset, n)], bulk := e.bulk || decide (cls = .bulk) } →
      exec (.larderRead d who cls offset n) s = .next (
        let v := bump { u with pendingReads := u.pendingReads.map (fun x => if x = e then f else x) } (.larder d) 1 1
        if cls = .critical then serveEntry v f else v))) ∧
  (∀ (s : State) (d : LarderId) (who : Block) (cls : SvcClass) (offset : Nat) (data : List Byte),
    (offset + data.length ≤ larderDieSize → exec (.larderWrite d who cls offset data) s =
      .next (takeRequest s (reqOf who cls) (larderAlias d offset) (.write data))) ∧
    (larderDieSize < offset + data.length → exec (.larderWrite d who cls offset data) s =
      .next (respond who (raiseAtRequester s (reqOf who cls) Cause.ADDRESS, .aborted, [])))) ∧
  (∀ (s : State) (d : LarderId) (block : Nat) (e : PendingRead),
    ((diePending s d).take 256).find? (fun e => e.block = block) = some e →
    exec (.mergeWait d block) s = .next (serveEntry s e)) ∧
  (∀ (s : State) (d : LarderId), rbit s (.larder d) Reg.Ldr.SCRUB_CTRL 31 = true → isFenced s (.larder d) = false →
    exec (.larderScrub d) s = .next (
      let k := rfield s (.larder d) Reg.Ldr.SCRUB_POS 30 6
      let u := (larderWords s d (64 * k) 0 Occur.none 16).1
      rput (bump (bump u (.larder d) 8 (ctr u (.larder d) 5 - ctr s (.larder d) 5)) (.larder d) 7 1) (.larder d) Reg.Ldr.SCRUB_POS
        (wordOf ((k + 1) % (larderDieSize / 64) * 64))))

/-- HBM requests, scrubbing, retirement, refresh and memory-side addition (R343, R345, R347, R348, R349, R350, R351,
R352). An HBM request is taken: answered with what the memory gives, or held where it must wait. The scrubber reads
the next block of a pseudo-channel in turn, passes over a retired one, and waits where a bulk request would. PC_RETIRE
begins a retirement; its end takes the spare slot and serves the held requests in order. STACK_TEMP stores the reading
and adds its counts, with STACK_ALERT where the stack reports a trip; REFRESH counts, and its command parity errors
are counted and, the second, raised. An add request is applied by the adder and answered, or held. Spare slots are
checked at each write, and their base is fixed once one is in use. -/
def Obligations.StacksServeAndRetire : Prop :=
  (∀ (s : State) (who : Block) (tag : Tag) (cls : SvcClass) (addr : Nat) (a : Access), addr < hbmSize →
    exec (.hbmRequest who tag cls addr a) s = .next (takeRequest s (rowReq who tag cls) addr a)) ∧
  (∀ (s u : State) (r : Req) (a : Nat) (acc : Access) (st : Status) (d : List Byte), serveLocal s r a acc = (u, st, d) →
    (st ≠ .delayed → takeRequest s r a acc = respond r.who (u, st, d)) ∧
    (st = .delayed → takeRequest s r a acc = holdReq s u r a acc none .unit)) ∧
  (∀ (s : State) (st : StackId), rbit s (.hbm st) Reg.Hbm.SCRUB_CTRL 31 = true → isFenced s (.hbm st) = false →
    let pc : Fin 32 := Fin.ofNat 32 (rfield s (.hbm st) Reg.Hbm.SCRUB_POS 28 24)
    let blk := rfield s (.hbm st) Reg.Hbm.SCRUB_POS 23 0
    let a := hbmAddr s st pc (64 * blk)
    let next := wordOf ((pc.val + 1) % 32 * 2 ^ 24 + if pc.val = 31 then (blk + 1) % 0xC00000 else blk)
    (pcRetired s st pc = true → exec (.hbmScrub st) s = .next (rput s (.hbm st) Reg.Hbm.SCRUB_POS next)) ∧
    (∀ u, pcRetired s st pc = false → scrubArrival s st pc a = (u, false) → exec (.hbmScrub st) s = .next (
      rput (hbmBlock (bump u (.hbm st) 6 1) st pc (64 * blk) a 0 Occur.none).1 (.hbm st) Reg.Hbm.SCRUB_POS next)) ∧
    (∀ u, pcRetired s st pc = false → scrubArrival s st pc a = (u, true) → exec (.hbmScrub st) s = .next u)) ∧
  (∀ (s : State) (st : StackId) (pc : Fin 32), rbit s (.hbm st) Reg.Hbm.PC_RETIRE 31 = false → pcRetired s st pc = false →
    s.retiringPc.any (fun x => x.1 = st.val) = false →
    exec (.pcRetire st pc) s = .next { rput s (.hbm st) Reg.Hbm.PC_RETIRE (wordOf (2 ^ 31 + pc.val)) with
      retiringPc := s.retiringPc ++ [(st.val, pc.val)] }) ∧
  (∀ (s : State) (st : StackId) (pc : Fin 32), s.retiringPc.find? (fun x => x.1 = st.val) = some (st.val, pc.val) →
    let u := { s with retiringPc := s.retiringPc.filter (fun x => x.1 ≠ st.val) }
    (pcRetired s st pc = false → exec (.pcRetired st) s = .next (releaseHeld (finishRetire u st pc))) ∧
    (pcRetired s st pc = true → exec (.pcRetired st) s = .next (releaseHeld u))) ∧
  (∀ (s : State) (st : StackId) (temp : BitVec 16) (n : Nat), s.Inv →
    ∃ t, exec (.stackTemp st temp n false) s = .next t ∧ exec (.stackTemp st temp n true) s = .next (raise t (.hbm st) 12) ∧
      rget t (.hbm st) Reg.Hbm.STACK_TEMP = wordOf temp.toNat ∧
      ctr t (.hbm st) 5 = min (ctr s (.hbm st) 5 + n) (2 ^ 64 - 1) ∧
      OnlyRegsCtrs [Block.reg (.hbm st) Reg.Hbm.STACK_TEMP] [Block.cnt (.hbm st) 5] s t) ∧
  (∀ (s : State) (st : StackId), s.Inv → ∃ t, exec (.refresh st 0) s = .next t ∧
      exec (.refresh st 1) s = .next (bump t (.hbm st) 10 1) ∧
      exec (.refresh st 2) s = .next (raise (bump t (.hbm st) 10 1) (.hbm st) 12) ∧
      ctr t (.hbm st) 7 = min (ctr s (.hbm st) 7 + 1) (2 ^ 64 - 1) ∧ OnlyRegsCtrs [] [Block.cnt (.hbm st) 7] s t) ∧
  (∀ (s u : State) (e : RelayId) (tag : Tag) (cls : SvcClass) (addr : Nat) (fmt : Fin 16) (data : List Byte) (st : Status),
    let r := rowReq (.relay e) tag cls
    let s0 := bump s (.relay e) 20 1
    memoryAdd s0 r addr fmt.val data = (u, st) →
    (st ≠ .delayed → exec (.memorySideAdd e tag cls addr fmt data) s = .next (respond (.relay e) (u, st, []))) ∧
    (st = .delayed → exec (.memorySideAdd e tag cls addr fmt data) s =
      .next (holdReq s0 u r addr (.write data) (some fmt.val) .unit))) ∧
  (∀ (s : State) (st : StackId) (v : Word), rfield s (.hbm st) Reg.Hbm.SPARE_SLOTS 6 4 ≤ bits v 2 0 →
    exec (.spareSlots st Reg.Hbm.SPARE_SLOTS v) s =
      .next (checkSpares (rputField s (.hbm st) Reg.Hbm.SPARE_SLOTS 2 0 (bits v 2 0)) st)) ∧
  (∀ (s : State) (st : StackId) (off : Nat) (v : Word), off = Reg.Hbm.SPARE_BASE_LO ∨ off = Reg.Hbm.SPARE_BASE_HI →
    (rfield s (.hbm st) Reg.Hbm.SPARE_SLOTS 6 4 = 0 →
      exec (.spareSlots st off v) s = .next (checkSpares (rwrite s (.hbm st) off v) st)) ∧
    (rfield s (.hbm st) Reg.Hbm.SPARE_SLOTS 6 4 ≠ 0 → exec (.spareSlots st off v) s = .next s))

/-- CXL ports, expander answers, service windows and the parking ring (R283, R355, R356, R357, R358, R359, R364, R365,
R367, R368). A request to an expander within its capacity is taken: its transactions are made in order, it is refused
where a speculative one would wait, and is answered ABORTED while the link is down. An expander's answer sets DEVLOAD
and the count of overload, counts a response past RESP_LIMIT, ends its transaction and lets the next be issued. Link
loss answers what is outstanding, raises its cause and sends a record. A link whose training was asked for comes up,
where good, at x16 and 64 GT/s with the expander's capacity and identity. SVC_CLEAR zeroes the eight counts of a
service window and no other register. The parking ring's registers are taken while the ring is idle and the result is
valid. -/
def Obligations.SlowTierServes : Prop :=
  (∀ (s : State) (p : CxlId) (who : Block) (tag : Tag) (cls : SvcClass) (offset : Nat) (a : Access),
    let r := rowReq who tag cls
    let ga := slowBase + slowWindow * p.val + offset
    offset + accessBytes a ≤ expanderBytes s p → rowWay s who ga (accessBytes a) = .free → isFenced s (.cxl p) = false →
    (cxlUp s p = false → exec (.cxlRequest p who tag cls offset a) s = .next (respond who (s, .aborted, []))) ∧
    (∀ x, cxlUp s p = true → judge s r [(.cxl p, 0)] false = (false, x) →
      let u := noteServed (arrive s r (false, x)) r [(.cxl p, 0)]
      (∀ n, a = .read n → exec (.cxlRequest p who tag cls offset a) s =
        .next (splitCxl (travel u who ga 0 n) p who tag cls offset a)) ∧
      (∀ d, a = .write d → exec (.cxlRequest p who tag cls offset a) s =
        .next (splitCxl (travel u who ga d.length 0) p who tag cls offset a))) ∧
    (∀ x, cxlUp s p = true → judge s r [(.cxl p, 0)] false = (true, x) →
      exec (.cxlRequest p who tag cls offset a) s = .next (respond who (arrive s r (true, x), .refused, [])))) ∧
  (∀ (s : State) (p : CxlId) (xid : Nat) (late poison : Bool) (load : Fin 4) (data : List Byte) (q : CxlReq),
    s.cxlReqs.find? (fun q => q.port = p && q.xid = xid && q.issued && q.done.isNone) = some q →
    let limit := q.issuedAt + rfield s (.cxl p) Reg.Cxl.RESP_LIMIT 19 0
    let t := { s with now := if late then max s.now (limit + 1) else s.now }
    let u := rput t (.cxl p) Reg.Cxl.DEVLOAD (wordOf load.val)
    let v := if 2 ≤ load.val then bump u (.cxl p) 9 1 else u
    let w := if limit < v.now then bump v (.cxl p) 7 1 else v
    (∀ n, q.acc = .read n → exec (.expanderResponse p xid late poison load data) s = .next (releaseHeld
      (pumpCxl (doneCxl (cxlReadDone w q poison data).1 q (cxlReadDone w q poison data).2) p 2))) ∧
    (∀ d, q.acc = .write d → exec (.expanderResponse p xid late poison load data) s = .next (releaseHeld
      (pumpCxl (doneCxl (cxlWriteDone w q d) q (.ok, [])) p 2)))) ∧
  (∀ (s : State) (p : CxlId), cxlUp s p = true → exec (.cxlLinkDown p) s = .next (releaseHeld
    (sendRecord (bump (raise (cxlDown s p) (.cxl p) 8) (.cxl p) 8 1) (.cxl p) 8 Occur.none none))) ∧
  (∀ (s : State) (p : CxlId) (t : LinkTrain) (capacity : Nat) (id : Word), mayTrain s p = true →
    t.linked = true → t.good = true → t.width = 16 → t.speed = 6 →
    exec (.cxlRetrain p t capacity id) s = .next (releaseHeld (
      let u := rputBit (rput (rput (cxlDown s p) (.cxl p) Reg.Cxl.LINK_STATUS 0) (.cxl p) Reg.Cxl.EXP_CAPACITY 0) (.cxl p) Reg.Hdr.STATUS 5 false
      let v := rput (rput u (.cxl p) Reg.Cxl.PORT_CTRL 0) (.cxl p) Reg.Cxl.LINK_STATUS 0x80100006#32
      rput (rput v (.cxl p) Reg.Cxl.EXP_CAPACITY (wordOf (min capacity 8192))) (.cxl p) Reg.Cxl.EXP_ID id))) ∧
  (∀ (s : State) (p : CxlId), exec (.expEvent p) s = .next (raise s (.cxl p) 10)) ∧
  (∀ (s : State) (b : Block) (k : Nat), s.Inv → hasSvc b = true →
    k ∈ [Reg.Svc.DELAYED_COUNT, Reg.Svc.REFUSED_COUNT, Reg.Svc.LAST_REFUSED, Reg.Svc.LAST_REFUSED_NODE, Reg.Svc.LAST_DELAYED,
      Reg.Svc.LAST_DELAYED_NODE, Reg.Svc.WORST_CRIT_NS, Reg.Svc.WORST_BULK_NS] →
    ∃ t, exec (.svcClear b) s = .next t ∧ rget t b k = 0 ∧ OnlyRegs ([Reg.Svc.DELAYED_COUNT, Reg.Svc.REFUSED_COUNT,
      Reg.Svc.LAST_REFUSED, Reg.Svc.LAST_REFUSED_NODE, Reg.Svc.LAST_DELAYED, Reg.Svc.LAST_DELAYED_NODE, Reg.Svc.WORST_CRIT_NS,
      Reg.Svc.WORST_BULK_NS].map b.reg) s t) ∧
  (∀ (s : State) (p : PortDieId) (off : Nat) (v : Word),
    off ∈ [Reg.Slow.PARK_BASE_LO, Reg.Slow.PARK_BASE_HI, Reg.Slow.PARK_SLOT_UNITS, Reg.Slow.PARK_CFG] → parkIdle s p = true →
    parkValid (rwrite s (.slow p) off v) p = true → exec (.parkCfg p off v) s = .next (rwrite s (.slow p) off v))

/-- Announcing, deferring, receiving and firing ticks (R54, R56, R58, R61, R62, R63, R66, R394). At its announce time
the root announces the first tick at once, a later one unless holds defer it; at the end of HOLD_BUDGET it announces a
hurdle tick with the holds. The next planned tick fires at its fire time. Holds open at the hold point and are
reported when they change. A follower forwards its parent's tick and applies it, while UNLOCKED it counts it at the
arrival port and while STOPPED as ignored; a root raises TICK_SEQUENCE on one, and a tick that is not the parent's
raises PROTOCOL. -/
def Obligations.TicksAnnounceAndFire : Prop :=
  (∀ s : State, mayAnnounce s = true → s.stride.first = true →
    exec .tickAnnounce s = .next (announce { s with now := max s.now (s.stride.startAt - s.stride.tickLead) } false)) ∧
  (∀ s : State, mayAnnounce s = true → s.stride.first = false →
    let u := { openHolds s with now := max (openHolds s).now ((openHolds s).stride.planned - (openHolds s).stride.tickLead) }
    (heldWord u = 0 → exec .tickAnnounce s = .next (announce u false)) ∧
    (heldWord u ≠ 0 → u.stride.state = 2 → exec .tickAnnounce s = .next (defer u))) ∧
  (∀ s : State, mayAnnounce s = true → s.stride.state = 3 → heldWord s ≠ 0 →
    exec .holdBudgetExpiry s =
      .next (announce { s with now := max s.now (s.stride.planned - s.stride.tickLead + s.stride.budget) } true)) ∧
  (∀ (s : State) (p : PlannedTick) (rest : List PlannedTick), s.stride.next = p :: rest →
    exec .tickFire s = .next (fireTick { s with now := max s.now p.msg.fire } p)) ∧
  (∀ s : State, exec .holdPoint s = .next (openHolds s)) ∧
  (∀ (s : State) (f : FrontId), 2 ≤ s.stride.state → s.stride.holdOpen = true →
    exec (.holdChange (.front f)) s = .next (
      let u := assertHold s f (frontHolds s f)
      reportHold (putFront u f { getFront u f with seen := frontHolds s f }))) ∧
  (∀ (s : State) (p : PortDieId), 2 ≤ s.stride.state → s.stride.holdOpen = true →
    exec (.holdChange (.park p)) s =
      .next (reportHold (putPark s p { getPark s p with seen := (getPark s p).hold }))) ∧
  (∀ (s : State) (p : NauloId) (d : DeviceId) (m : TickMsg), strideSource s ≠ 0 → ttParent s = some d →
    let u := sendTicks s m
    (rfield u fabricPage Reg.Fab.SYNC_STATE 1 0 ≠ 0 → u.stride.state ≠ 0 → strideSource u = 1 →
      exec (.tick p d m) s = .next (applyTick u m)) ∧
    (rfield u fabricPage Reg.Fab.SYNC_STATE 1 0 = 0 → u.stride.state ≠ 0 →
      exec (.tick p d m) s = .next (bump u (.naulo p) 14 1)) ∧
    (rfield u fabricPage Reg.Fab.SYNC_STATE 1 0 ≠ 0 → u.stride.state = 0 →
      exec (.tick p d m) s = .next (bump u (activeStride u) 12 1))) ∧
  (∀ (s : State) (p : NauloId) (d : DeviceId) (m : TickMsg), strideSource s = 0 →
    exec (.tick p d m) s = .next (raise s (activeStride s) 10)) ∧
  (∀ (s : State) (p : NauloId) (d : DeviceId) (m : TickMsg), strideSource s ≠ 0 → ttParent s ≠ some d →
    exec (.tick p d m) s = .next (raise s fabricPage Cause.PROTOCOL))

/-- STRIDE_OUT and STRIDE_IN (R67, R68, R69, R70, R71). STRIDE_OUT rises for the tick that was learnt, while OUT_EN is
1 and SOURCE is LOCAL or FABRIC, a late one counted; with no pulse due, or otherwise, none leaves. A pulse on
STRIDE_IN is classified by its width: 100 to 400 ns is a tick, 450 to 900 ns a hurdle tick, each unless it comes
early; below 50 ns, the widths between, and early pulses are counted and ignored; above 2000 ns the input is stuck
high, until a pulse after 1000 ns low. An input stuck high and a missing pulse are reported once, the latter with a
record and the step-skip flag; where nothing is due each changes nothing. -/
def Obligations.PinsTickTheDevice : Prop :=
  (∀ s : State, s.stride.outDue = none → exec .strideOut s = .next s) ∧
  (∀ (s : State) (rise width : Nat) (late : Bool), s.stride.outDue = some (rise, width, late) →
    let u : State := { s with now := max s.now rise, stride := { s.stride with outDue := none } }
    (bit (sreg s Reg.Str.PIN_CTRL) 0 = true ∧ strideSource s ≤ 1 →
      exec .strideOut s = .next (
        let v := if late then bump u (activeStride s) 13 1 else u
        { v with outputs := s.outputs ++ [.strideOut rise width] })) ∧
    (¬ (bit (sreg s Reg.Str.PIN_CTRL) 0 = true ∧ strideSource s ≤ 1) → exec .strideOut s = .next u)) ∧
  (∀ (s : State) (rise width : Nat), pinIn s = false → exec (.strideInPulse rise width) s = .next s) ∧
  (∀ (s : State) (rise width : Nat), pinIn s = true → s.stride.stuck = false →
    let u : State := { s with now := max s.now (rise + width) }
    let b := activeStride s
    let early := ∃ p, s.stride.lastPulse = some p ∧ 8 * rise < 8 * p + 7 * periodNs s
    (width < 50 → exec (.strideInPulse rise width) s = .next (bump u b 6 1)) ∧
    (50 ≤ width ∧ width < 100 ∨ 400 < width ∧ width < 450 ∨ 900 < width ∧ width ≤ 2000 →
      exec (.strideInPulse rise width) s = .next (bump u b 7 1)) ∧
    (100 ≤ width ∧ width ≤ 400 ∨ 450 ≤ width ∧ width ≤ 900 → early →
      exec (.strideInPulse rise width) s = .next (bump u b 8 1)) ∧
    (100 ≤ width → width ≤ 400 → ¬ early →
      exec (.strideInPulse rise width) s = .next (acceptPulse u rise false)) ∧
    (450 ≤ width → width ≤ 900 → ¬ early →
      exec (.strideInPulse rise width) s = .next (acceptPulse u rise true)) ∧
    (2000 < width → exec (.strideInPulse rise width) s =
      .next (modStride (stuckHigh u) (fun x => { x with fell := some (rise + width) })))) ∧
  (∀ (s : State) (rise width : Nat), pinIn s = true → s.stride.stuck = true →
    let u : State := { s with now := max s.now (rise + width) }
    (∀ f, s.stride.fell = some f → f + 1000 ≤ rise → exec (.strideInPulse rise width) s =
      .next (classify { u with stride := { s.stride with stuck := false, fell := none } } rise width)) ∧
    ((∀ f, s.stride.fell = some f → rise < f + 1000) → exec (.strideInPulse rise width) s =
      .next { u with stride := { s.stride with fell := some (rise + width) } })) ∧
  (∀ s : State,
    (pinIn s = true ∧ s.stride.stuck = false → exec .strideInStuck s =
      .next (modStride (bump (raise s (activeStride s) 12) (activeStride s) 9 1)
        (fun x => { x with stuck := true, fell := none }))) ∧
    (¬ (pinIn s = true ∧ s.stride.stuck = false) → exec .strideInStuck s = .next s)) ∧
  (∀ s : State, s.stride.lastPulse = none → exec .strideInMissing s = .next s) ∧
  (∀ (s : State) (p : Nat), s.stride.lastPulse = some p →
    (pinIn s = true ∧ s.stride.missing = false ∧ s.stride.state ≠ 0 → exec .strideInMissing s = .next (
      let b := activeStride s
      let u := { s with now := max s.now (p + periodNs s + holdBudgetNs s + 2000) }
      modStride (sendRecord (stepSkip (bump (raise u b 13) b 10 1) 2) b 13 Occur.none none)
        (fun x => { x with missing := true }))) ∧
    (¬ (pinIn s = true ∧ s.stride.missing = false ∧ s.stride.state ≠ 0) → exec .strideInMissing s = .next s))

/-- START, STOP, holds, periods and STRIDE_COUNT (R51, R53, R60, R61, R102, R103, R395, R532). START with good periods
leaves STOPPED, as a root for the later of START_AT and one lead from now, as a follower ARMED. STOP waits for an
announced tick on a root and otherwise stops at once. HOLD_SW sets its bit. PERIOD, TICK_LEAD, HOLD_LEAD and
HOLD_BUDGET inside the limits of R60 are taken while STOPPED and no other register changes. STRIDE_COUNT sets one half
of the count while STOPPED and is ignored otherwise. A child's release of its hold is counted and ends its hold. -/
def Obligations.StrideRegistersAreWritten : Prop :=
  (∀ s : State, s.stride.state = 0 → tickLeadNs s + holdLeadNs s < periodNs s → strideSource s = 0 →
    exec .start s = .next (allFronts.foldl evaluateStrideWait { s with stride := { s.stride with
      state := 2, first := true,
      startAt := max (rget64 s (activeStride s) Reg.Str.START_AT_LO Reg.Str.START_AT_HI) (s.now + tickLeadNs s),
      tickLead := tickLeadNs s, budget := holdBudgetNs s, afterHurdle := false, holdOpen := false } })) ∧
  (∀ s : State, s.stride.state = 0 → tickLeadNs s + holdLeadNs s < periodNs s →
    strideSource s = 1 ∨ strideSource s = 2 →
    exec .start s = .next (allFronts.foldl evaluateStrideWait
      { s with stride := { s.stride with state := 1, holdOpen := false } })) ∧
  (∀ s : State, s.stride.state ≠ 0 → strideSource s = 0 → s.stride.next ≠ [] →
    exec .stop s = .next (
      let u := rputBit s (activeStride s) Reg.Str.STRIDE_CTRL 5 true
      { u with stride := { s.stride with stopping := true } })) ∧
  (∀ s : State, s.stride.state ≠ 0 → (strideSource s ≠ 0 ∨ s.stride.next = []) → exec .stop s = .next (haltStride s)) ∧
  (∀ (s : State) (v : Bool), exec (.holdSw v) s = .next (reportHold (rputBit s (activeStride s) Reg.Str.STRIDE_CTRL 3 v))) ∧
  (∀ (s : State) (v : Word), s.Inv → s.stride.state = 0 →
    (10000 ≤ v.toNat → v.toNat ≤ 50000000 → ∃ t, exec (.stridePeriod v) s = .next t ∧
      sreg t Reg.Str.STRIDE_PERIOD = v ∧ OnlyRegs [(activeStride s).reg Reg.Str.STRIDE_PERIOD] s t) ∧
    (1000 ≤ v.toNat → v.toNat ≤ 1000000 → ∃ t, exec (.tickLead v) s = .next t ∧
      sreg t Reg.Str.TICK_LEAD = v ∧ OnlyRegs [(activeStride s).reg Reg.Str.TICK_LEAD] s t) ∧
    (v.toNat ≤ 1000000 → ∃ t, exec (.holdLead v) s = .next t ∧
      sreg t Reg.Str.HOLD_LEAD = v ∧ OnlyRegs [(activeStride s).reg Reg.Str.HOLD_LEAD] s t) ∧
    (v.toNat ≤ 50000000 → ∃ t, exec (.holdBudget v) s = .next t ∧
      sreg t Reg.Str.HOLD_BUDGET = v ∧ OnlyRegs [(activeStride s).reg Reg.Str.HOLD_BUDGET] s t)) ∧
  (∀ (s : State) (v : Word), s.stride.state = 0 → s.stride.count < 2 ^ 64 →
    exec (.strideCount true v) s =
      .next { s with stride := { s.stride with count := v.toNat * 2 ^ 32 + s.stride.count % 2 ^ 32 } } ∧
    exec (.strideCount false v) s =
      .next { s with stride := { s.stride with count := s.stride.count / 2 ^ 32 * 2 ^ 32 + v.toNat } }) ∧
  (∀ (s : State) (high : Bool) (v : Word), s.stride.state ≠ 0 → exec (.strideCount high v) s = .next s) ∧
  (∀ (s : State) (d first : DeviceId) (n : Nat), (ttChildren s).contains d = true →
    exec (.hold d n false first) s = .next (reportHold
      { bump s (activeStride s) 11 1 with
        lost := s.lost.filter (· ≠ d),
        stride := { s.stride with childHolds := s.stride.childHolds.filter (fun c => c.1 ≠ d) } }))

/-- Votes, results, decisions, closing a step, SW_SKIP and TORN_CLEAR (R261, R262, R264, R265, R266, R268, R413, R533,
R534). A first vote of a child of a valid group for its step is kept until the node votes. A result of the current
step from the parent ends the vote. A due close makes NEXT the CURRENT set and moves STEP_ID on. A decision reaches a
hub engine and a slow-tier engine, which files it with its parked steps. A stand-in votes SKIP for its child; a lost
result is decided alone and ends the command ABORTED. SW_SKIP sets skip and its source bit in CURRENT while OPEN and
in NEXT otherwise, and counts; TORN_CLEAR clears TORN and nothing else. -/
def Obligations.VotesAndDecisions : Prop :=
  (∀ (s u : State) (p : NauloId) (g : Fin 256) (d : DeviceId) (v : Contribution) (ws : List Word),
    peekEntry s p g = (u, some ws) → (groupEntry ws).valid = true → (groupEntry ws).kids.contains d = true →
    isFenced u (.relay (groupEntry ws).engine) = false →
    repeated (getRelay u (groupEntry ws).engine) g d v = false →
    stoodFor (getRelay u (groupEntry ws).engine) g d v = false → (getRelay u (groupEntry ws).engine).vote = none →
    exec (.vote p g d v) s = .next (putRelay u (groupEntry ws).engine
      { getRelay u (groupEntry ws).engine with
        votes := (getRelay u (groupEntry ws).engine).votes ++ [{ group := g, child := d, vote := v }] })) ∧
  (∀ (s u : State) (p : NauloId) (g : Fin 256) (d : DeviceId) (v : Contribution) (n : Nat) (ws : List Word) (r : VoteRun),
    peekEntry s p g = (u, some ws) → isFenced u (.relay (groupEntry ws).engine) = false →
    (getRelay u (groupEntry ws).engine).vote = some r → (groupEntry ws).valid = true → (groupEntry ws).root = false →
    (groupEntry ws).parent = d → stepDecided u.ledger v = false → r.group = g →
    exec (.voteResult p g d v n) s = .next (finishVote u (groupEntry ws).engine r v n)) ∧
  (∀ s : State, closeDue s = true →
    exec .stepClose s = .next { s with ledger := { s.ledger with
      stepId := (s.ledger.stepId + 1) % 2 ^ 64, current := s.ledger.next, next := LedgerSet.clear, phase := .open_ } }) ∧
  (∀ (s : State) (h : HubId) (k : Nat) (d : Decision), s.decisionMsgs.find? (fun m => m.1 = decEngine (.hub h)) = some (k, d) →
    exec (.decision (.hub h)) s = .next { s with
      decisionMsgs := s.decisionMsgs.erase (k, d),
      decisions := tset Decision.reset s.decisions k { d with known := true } }) ∧
  (∀ (s : State) (p : PortDieId) (k : Nat) (d : Decision), s.decisionMsgs.find? (fun m => m.1 = decEngine (.slow p)) = some (k, d) →
    exec (.decision (.slow p)) s = .next (fileDecision { s with
      decisionMsgs := s.decisionMsgs.erase (k, d),
      decisions := tset Decision.reset s.decisions k { d with known := true } } p d)) ∧
  (∀ (s : State) (e : RelayId) (child : DeviceId) (r : VoteRun), (getRelay s e).vote = some r →
    (groupEntry r.entry).kids.contains child = true → r.heard.contains child = false → r.sent = none →
    exec (.standIn e child) s = .next (
      let u := if routeUp s child then { s with now := max s.now (r.sampled + collTimeout s e) } else s
      let x := getRelay u e
      let w := putRelay u e { x with stood := noteVote x.stood r.group.val child r.step }
      voteUp (loseChild (bump w (.relay e) 22 1) child) e
        { r with combined := Contribution.join r.combined (standInVote r child), heard := r.heard ++ [child] })) ∧
  (∀ (s : State) (e : RelayId) (r : VoteRun) (t : Nat) (x : Slot), (getRelay s e).vote = some r → r.sent = some t →
    routeUp s (groupEntry r.entry).parent = true → getSlot s (.relay e) r.slot = some x →
    exec (.voteResultLost e) s = .next (
      let u := { s with now := max s.now (t + collTimeout s e) }
      let w := putRelay u e { getRelay u e with vote := none }
      endColl (decideAlone (raiseTag w (.relay e) 16 (cmdTag x.words) 0x50)) e r.slot .aborted)) ∧
  (∀ s : State, s.ledger.phase = .open_ → exec .swSkip s = .next (bump { s with ledger := { s.ledger with
    current := { s.ledger.current with skip := true, sources := s.ledger.current.sources ||| 0x20#11 } } } ledgerPage 8 1)) ∧
  (∀ s : State, s.ledger.phase ≠ .open_ → exec .swSkip s = .next (bump { s with ledger := { s.ledger with
    next := { s.ledger.next with skip := true, sources := s.ledger.next.sources ||| 0x20#11 } } } ledgerPage 8 1)) ∧
  (∀ s : State, exec .tornClear s = .next { s with ledger := { s.ledger with torn := false } })

/-- What the ledger does with the result of a vote (R261, R262, R265, R268, R413). The ledger commits exactly where
nobody skipped, nothing was non-finite or torn and all devices voted for the same step; it then counts one more
committed step. It records decision, step, norm, first device and the four flags of the vote, sends the decision to
all six engines, and either stays DECIDED at its step or, where its close is already due, opens the next step with
skip set. -/
def Obligations.LedgerDecides : Prop :=
  ∀ (s : State) (c : Contribution) (n : Nat),
    let commit : Bool := !c.skip && !c.nonfinite && !c.torn && decide (c.stepMin = c.stepMax)
    let count : Nat := if commit = true then s.ledger.committed + 1 else s.ledger.committed
    let d : Decision := { known := true, step := s.ledger.stepId, commit := commit, committed := count, norm := normWord c.norm }
    let t := decide_ s c n
    t.ledger.lastDecision = some commit ∧ t.ledger.lastStep = s.ledger.stepId ∧ t.ledger.committed = count ∧
    t.ledger.voteStride = n ∧ t.ledger.norm = normWord c.norm ∧ t.ledger.lastFirst = c.firstDevice ∧
    t.ledger.lastFlags = (c.skip, c.nonfinite, c.torn, decide (c.stepMin ≠ c.stepMax)) ∧
    (∀ k, k < 6 → (k, d) ∈ t.decisionMsgs) ∧
    (t.ledger.phase = .decided ∧ t.ledger.stepId = s.ledger.stepId ∨
      t.ledger.phase = .open_ ∧ t.ledger.stepId = (s.ledger.stepId + 1) % 2 ^ 64 ∧ t.ledger.current.skip = true)

/-- Publishing: arming, locks, old done, publish and unlock (R247, R248, R249, R251, R252, R255, R256). A manual
arming reads the list and arms it. A receiver registers a lock as pending, or as active if its stride has come, and
answers; its commands that had started are the old ones. At a fire the due locks become active, and each proxy without
old commands reports old done for them; the report reaches the engine. The list whose tick has fired is published once
every die has reported, or at the wait limit with cause PUB_WAIT and the step-skip flag. An unlock removes its lock.
-/
def Obligations.ListsAreLockedAndPublished : Prop :=
  (∀ (s u v : State) (h : HubId) (l : List StagedRec),
    let base := rget64 s (.hub h) Reg.Hub.PUB_ARM_LIST_LO Reg.Hub.PUB_ARM_LIST_HI
    let n := rfield s (.hub h) Reg.Hub.PUB_ARM_COUNT 21 0
    rbit s (.hub h) Reg.Hub.PUB_ARM_GO 0 = false → readList s (reqOf (.hub h) .critical) base n 0 = (u, .ok, l) →
    armList u h none .ok base n (listRange l) (rget64 s (.hub h) Reg.Hub.PUB_ARM_STRIDE_LO Reg.Hub.PUB_ARM_STRIDE_HI) = (v, true) →
    exec (.pubArmGo h) s = .next (rputBit v (.hub h) Reg.Hub.PUB_ARM_GO 0 true)) ∧
  (∀ (s : State) (r : LockHolder) (h : HubId) (l : Lock),
    s.lockMsgs.find? (fun l => l.holder = r && l.hub = h) = some l →
    (s.stride.count < l.target → exec (.pendingLock r h) s = .next (lockReply { s with
      lockMsgs := s.lockMsgs.erase l, locks := s.locks ++ [l] } h r l.id false)) ∧
    (∀ cd, l.target ≤ s.stride.count → r = .proxy cd →
      (oldCommands s r = [] → exec (.pendingLock r h) s = .next (lockReply { s with
        lockMsgs := s.lockMsgs.erase l, locks := s.locks ++ [{ l with active := true, done := true, old := [] }],
        oldMsgs := s.oldMsgs ++ [(cd, h, l.id)] } h r l.id true)) ∧
      (oldCommands s r ≠ [] → exec (.pendingLock r h) s = .next (lockReply { s with
        lockMsgs := s.lockMsgs.erase l,
        locks := s.locks ++ [{ l with active := true, done := false, old := oldCommands s r }] } h r l.id true)))) ∧
  (∀ (s : State) (h : HubId), 2 ≤ s.stride.state → exec (.lockActivate (.engine h)) s = .next (firePubs { s with
      locks := s.locks.map (fun l => if dueLock s (.engine h) l then { l with active := true, done := true, old := [] } else l) } h)) ∧
  (∀ (s : State) (cd : Fin 16), 2 ≤ s.stride.state →
    (oldCommands s (.proxy cd) = [] → exec (.lockActivate (.proxy cd)) s = .next { s with
      locks := s.locks.map (fun l => if dueLock s (.proxy cd) l then { l with active := true, done := true, old := [] } else l),
      oldMsgs := s.oldMsgs ++ (s.locks.filter (dueLock s (.proxy cd))).map (fun l => (cd, l.hub, l.id)) }) ∧
    (oldCommands s (.proxy cd) ≠ [] → exec (.lockActivate (.proxy cd)) s = .next { s with
      locks := s.locks.map (fun l => if dueLock s (.proxy cd) l then
        { l with active := true, done := false, old := oldCommands s (.proxy cd) } else l) })) ∧
  (∀ (s : State) (cd : Fin 16) (h : HubId) (id : Nat),
    s.oldMsgs.find? (fun m => m.1 = cd && m.2.1 = h) = some (cd, h, id) →
    exec (.oldDone cd h) s = .next (modPub { s with oldMsgs := s.oldMsgs.erase (cd, h, id) } h id
      (fun p => { p with oldDone := p.oldDone ++ [cd] }))) ∧
  (∀ (s : State) (h : HubId) (p : PubList), frontPub s h = some p →
    (allOldDone p = true → exec (.publish h) s = .next (runPublish s h p)) ∧
    (allOldDone p = false →
      let q : PubList := { p with oldDone := List.finRange 16 }
      exec (.publishTimeout h) s = .next (runPublish (modPub (stepSkip (raise
        { s with now := max s.now (p.fireNs + rfield s (.hub h) Reg.Hub.PUB_WAIT_LIMIT 25 0) } (.hub h) 20) 3) h p.id
          (fun _ => q)) h q))) ∧
  (∀ (s : State) (r : LockHolder) (h : HubId) (id : Nat),
    s.unlockMsgs.find? (fun m => m.1 = r && m.2.1 = h) = some (r, h, id) →
    s.lockMsgs.any (fun l => l.holder = r && l.hub = h && l.id = id) = false →
    exec (.unlock r h) s = .next { s with
      unlockMsgs := s.unlockMsgs.erase (r, h, id),
      locks := s.locks.filter (fun l => !(l.holder = r && l.hub = h && l.id = id)) })

/-- Package-network paths replay, take spares and degrade (R12, R441). A flit with a CRC error is counted, replayed,
and stops the path only after 16 in succession on a failed one. A wire over its limit takes a spare wire and pauses
the path; with no spare left it goes to half width, and at half width it is fatal, each with its cause, die, link and
wire. The pause ends within 5 us, the path replays and what waited at it goes on (log entry 92). -/
def Obligations.PathsReplayAndDegrade : Prop :=
  ∀ (s : State) (d : DieId) (link : Fin 4) (wire : Nat), linkPresent d link = true →
    let x := getPath s d link
    (let errs := if s.now < x.errs.1 + 1000000 then (x.errs.1, x.errs.2 + 1) else (s.now, 1)
     let run := if s.now ≤ x.run.1 + 80 then (s.now, x.run.2 + 1) else (s.now, 1)
     exec (.flitCrcError d link wire) s = .next (emit (bump (bump (putPath s d link
       { x with errs := errs, run := run, stopped := x.stopped || (x.fatal && 16 ≤ run.2) }) (.router d) 1 1) (.router d) 2 1)
       (.replay d link))) ∧
    (x.spares ≠ 0 → exec (.wireLimit d link wire) s = .next (raiseWith (bump (putPath s d link
      { x with spares := x.spares - 1, paused := some s.now }) (.router d) 3 1) (.router d) 8 (pathOccur s d link wire))) ∧
    (x.spares = 0 → x.half = false → exec (.wireLimit d link wire) s = .next (raiseWith (bump (rputBit (putPath s d link
      { x with half := true, paused := some s.now }) (.router d) Reg.Hdr.STATUS 5 true) (.router d) 4 1) (.router d) 9
      (pathOccur s d link wire))) ∧
    (x.spares = 0 → x.half = true → exec (.wireLimit d link wire) s = .next (raiseWith (putPath s d link
      { x with fatal := true }) (.router d) 10 (pathOccur s d link wire))) ∧
    (∀ t, x.paused = some t → ∃ n, n ≤ 5000 ∧ exec (.wireChange d link) s = .next (releaseHeld (emit (putPath
      { s with fresh := s.fresh + 1, now := max s.now (t + n) } d link { x with paused := none }) (.replay d link))))

/-- Flits of a Naulo port (R372, R373, R375, R377, R378, R382, R383). On a port that is up a flit whose CRC is that of
its bytes takes effect with its acknowledgement and credit; with the next sequence number it delivers its units, at
most four, and is counted, otherwise it is discarded. One with another CRC is counted and discarded. An idle flit
brings acknowledgement and credit. A NAK and the replay timeout send again what is not acknowledged, a NAK during a
lane retirement once replay resumes. An operation that R383 does not define raises PROTOCOL. -/
def Obligations.FlitsAreTaken : Prop :=
  ∀ (s : State) (p : NauloId), portUp s p = true →
    (∀ f : Flit, let u := takeControl s p f.ctl
      f.seq % 4096 = (getPort u p).rxNext → exec (.dataFlit p f (flitCrc f)) s = .next (
        acceptUnits (bump (bump (putPort u p { getPort u p with rxNext := ((getPort u p).rxNext + 1) % 4096, nakSent := false })
          (.naulo p) 1 1) (.naulo p) 3 (f.units.take 4).length) p (f.units.take 4))) ∧
    (∀ f : Flit, let u := takeControl s p f.ctl
      f.seq % 4096 ≠ (getPort u p).rxNext → exec (.dataFlit p f (flitCrc f)) s = .next (discardFlit u p)) ∧
    (∀ (f : Flit) (crc : BitVec 64), crc ≠ flitCrc f →
      exec (.dataFlit p f crc) s = .next (discardFlit (bump s (.naulo p) 4 1) p)) ∧
    (∀ c, exec (.idle p c) s = .next (takeControl s p c)) ∧
    (∀ c, let u := takeCredit (takeAckSeq s p c.ack) p c.creditVc c.creditCount
      ((getPort u p).state = 2 → exec (.nak p c) s = .next (replayFlits u p)) ∧
      ((getPort u p).state = 3 → exec (.nak p c) s = .next u)) ∧
    ((getPort s p).state = 2 → (getPort s p).replay ≠ [] →
      let w := max s.now ((getPort s p).ackMoved + rfield s (.naulo p) Reg.Nau.REPLAY_TIMEOUT 15 0)
      exec (.replayTimeout p) s = .next (replayFlits (bump (putPort { s with now := w } p { getPort s p with ackMoved := w })
        (.naulo p) 7 1) p)) ∧
    (∀ op : BitVec 8, packetOps.contains op.toNat = false → isFenced s (.naulo p) = false →
      exec (.protocol p op) s = .next (raiseWith s (.naulo p) Cause.PROTOCOL (portOccur s p 0)))

/-- Lanes of a Naulo port retire, ports train and go down (R371, R379, R380, R381, R432). A lane is retired by the
steward, by loss of lock, by its peer and by a count above LANE_LIMIT, and not twice. A retirement that leaves a lane
sends the message to the peer, stops the port, and after its acknowledgements ends within 12 us (log entry 92): the
port runs on the other lanes and replays. A further lane joins a retirement under way, a lane retired in training is
left out, and the last lane takes the port down. A lane that is already retired here is acknowledged to the peer. A
silent peer takes the port down. Training starts on the lanes that are not retired, and the peer's identity brings the
port up. -/
def Obligations.LanesRetire : Prop :=
  (∀ (s : State) (p : NauloId) (lane : Fin 4),
    exec (.laneRetire p lane) s = .next (retireLane (rputField s (.naulo p) Reg.Nau.LANE_RETIRE 1 0 lane.val) p lane false) ∧
    exec (.laneLockLoss p lane) s = .next (retireLane s p lane false) ∧
    (∀ c, portUp s p = true → let u := takeControl s p c
      (rbit u (.naulo p) Reg.Nau.LANE_RETIRED lane.val = false → exec (.retire p lane c) s = .next (retireLane u p lane true)) ∧
      (rbit u (.naulo p) Reg.Nau.LANE_RETIRED lane.val = true →
        exec (.retire p lane c) s = .next (sendLink (noteRetireAck u p lane) p 3 lane.val)) ∧
      exec (.retireAck p lane c) s = .next (noteRetireAck u p lane)) ∧
    (∀ n, let u := bump (rputField s (.naulo p) (Reg.Nau.LANE_FEC + 4 * lane.val) 31 16 (sat 16 n)) (.naulo p) 9 n
      (rfield u (.naulo p) Reg.Nau.LANE_LIMIT 15 0 < n → exec (.laneLimit p lane n) s = .next (retireLane u p lane false)) ∧
      (n ≤ rfield u (.naulo p) Reg.Nau.LANE_LIMIT 15 0 → exec (.laneLimit p lane n) s = .next u))) ∧
  (∀ (s : State) (p : NauloId) (lane : Fin 4) (m : BitVec 4) (t : Nat), (getPort s p).retiring = some (m, t) →
    (getPort s p).state = 3 → m.getLsbD lane.val = true →
    noteRetireAck s p lane = putPort s p { getPort s p with retireAck := (getPort s p).retireAck ||| (1#4 <<< lane.val) }) ∧
  (∀ (s : State) (p : NauloId) (lane : Fin 4), rbit s (.naulo p) Reg.Nau.LANE_RETIRED lane.val = true →
    ∀ peer, retireLane s p lane peer = s) ∧
  (∀ (s : State) (p : NauloId) (lane : Fin 4) (peer : Bool), rbit s (.naulo p) Reg.Nau.LANE_RETIRED lane.val = false →
    let u := markLane s p lane
    let left := lanesWithout (lanesLeft (getPort u p)) lane
    (getPort u p).active.getLsbD lane.val = true →
    ((getPort u p).state ≠ 0 → left = 0 → retireLane s p lane peer = portDown u p) ∧
    ((getPort u p).state = 1 → left ≠ 0 → retireLane s p lane peer = putPort u p { getPort u p with active := left }) ∧
    (2 ≤ (getPort u p).state → left ≠ 0 → retireLane s p lane peer =
      sendLink (putPort u p { getPort u p with
        state := 3, retiring := some ((((getPort u p).retiring.getD (0, u.now)).1 ||| (1#4 <<< lane.val)),
                                      ((getPort u p).retiring.getD (0, u.now)).2),
        retireAck := if peer then (getPort u p).retireAck ||| (1#4 <<< lane.val) else (getPort u p).retireAck })
        p (if peer then 3 else 2) lane.val)) ∧
  (∀ (s : State) (p : NauloId) (m : BitVec 4) (t : Nat), (getPort s p).retiring = some (m, t) →
    (getPort s p).state = 3 → (getPort s p).retireAck &&& m = m → ∃ n, n ≤ 12000 ∧
      let u := { s with fresh := s.fresh + 1, now := max s.now (t + n) }
      let x := { getPort s p with state := 2, active := (getPort s p).active &&& ~~~ m, retiring := none,
                                  retireAck := 0, ackMoved := u.now }
      exec (.laneRetired p) s = .next (replayFlits ((activeLanesOf m).foldl (fun s l => degradePort s p l)
        (rput (putPort u p x) (.naulo p) Reg.Nau.LAST_INTERRUPT (wordOf (sat 16 (u.now - t))))) p)) ∧
  (∀ (s : State) (p : NauloId), (getPort s p).state ≠ 0 → exec (.linkDown p) s = .next (portDown s p)) ∧
  (∀ (s : State) (p : NauloId) (lanes : BitVec 4), isReady s = true →
    let active := lanes &&& ~~~ BitVec.ofNat 4 (rfield s (.naulo p) Reg.Nau.LANE_RETIRED 3 0)
    active ≠ 0 → exec (.nauloRetrain p lanes) s = .next (
      let u := putPort s p { NauloPort.reset with state := 1, active := active }
      sendLink (rput (rput (loseKids s (abortCut (abortRemotes u p))) (.naulo p) Reg.Nau.PEER_ID 0) (.naulo p) Reg.Nau.PORT_CTRL 0)
        p 1 0)) ∧
  (∀ (s : State) (p : NauloId) (peer : DeviceId), (getPort s p).state = 1 → exec (.ident p peer) s = .next (
    let u := rput s (.naulo p) Reg.Nau.PEER_ID (wordOf (32768 + peer.val))
    pumpPort (putPort u p { getPort s p with state := 2, ackMoved := s.now }) p))

/-- Packets that name this device are served (R34, R36, R47, R333, R383, R386, R388, R389, R441). READ and WRITE of a
good length are made on this device and answered with their status, or held where they must wait, and get no answer
over a stopped path; an ADD goes to the adder in the same way; SEM puts its operation on the way to its semaphore. A
response, an acknowledgement and a delay notice reach the request that they answer: a host read takes its data, other
requests their status, one of the wrong kind or length raises PROTOCOL, and a delay is counted at the block that
asked. -/
def Obligations.PacketsAreServed : Prop :=
  ∀ (s : State) (p : NauloId) (h : PacketHead), takesPacket s p h = true →
    (∀ t st d, packetBytes h = true → readLocal s (packetReq (.naulo p) h) h.addr h.bytes = (t, st, d) →
      let b := answerBlock s p h.addr
      (st = .delayed → exec (.read p h) s = .next (holdPacket s t b p (packetReq (.naulo p) h) h (.read h.bytes) none)) ∧
      (st ≠ .delayed → packetWay s p h = .free →
        exec (.read p h) s = .next (sendReadResp (sendDelay s t b h) b h.src h st.code d)) ∧
      (st ≠ .delayed → packetWay s p h = .lost → exec (.read p h) s = .next s)) ∧
    (∀ data t st, packetBytes h = true → data.length = h.bytes →
      writeLocal s (packetReq (.naulo p) h) h.addr data = (t, st) →
      let b := answerBlock s p h.addr
      (st = .delayed → exec (.write p h data) s = .next (holdPacket s t b p (packetReq (.naulo p) h) h (.write data) none)) ∧
      (st ≠ .delayed → packetWay s p h = .free →
        exec (.write p h data) s = .next (sendAck (sendDelay s t b h) b h.src h st.code)) ∧
      (st ≠ .delayed → packetWay s p h = .lost → exec (.write p h data) s = .next s)) ∧
    (∀ (fmt : Fin 16) data t st, packetBytes h = true → data.length = h.bytes → isFenced s (.relay p) = false →
      let u := bump s (.relay p) 20 1
      let b := adderOf s h.addr
      memoryAdd u (packetReq (.relay p) h) h.addr fmt.val data = (t, st) →
      (st = .delayed → exec (.add p h fmt data) s =
        .next (holdPacket u t b p (packetReq (.relay p) h) h (.write data) (some fmt.val))) ∧
      (st ≠ .delayed → packetWay u p h = .free →
        exec (.add p h fmt data) s = .next (sendAck (sendDelay u t b h) b h.src h st.code)) ∧
      (st ≠ .delayed → packetWay u p h = .lost → exec (.add p h fmt data) s = .next u)) ∧
    (∀ (w : Word) (baton : Bool) (t : FrontId) (i : Nat),
      (baton = true → bit w 31 = false ∧ 1 ≤ bits w 30 0 ∧ bits w 30 0 ≤ 7) → semTarget s h.addr baton = some (t, i) →
      exec (.sem p h w baton) s = .next { s with semMsgs := s.semMsgs ++ [{
        ready := s.now, target := t, index := i, baton := baton, sub := bit w 31, amount := bits w 30 0,
        port := arrivalPort (nauloDie p) (dieOf s (semBlock t)),
        src := { unit := h.unit, node := h.src.val, tag := h.tag }, reply := .remote p h.src h.unit h.xid }] }) ∧
    (∀ (st : Fin 16) data (r : RemoteReq) n st', statusOf st.val = some st' → answered s h = some r → r.use = .hostRead n →
      ((st' = .ok → data.length = n) → exec (.readResp p h st data) s = .next (answerRemote s r st' data)) ∧
      (st' = .ok → data.length ≠ n → exec (.readResp p h st data) s = .next (badResponse s p))) ∧
    (∀ (st : Fin 16) data (r : RemoteReq) c ch, (statusOf st.val).isSome = true → answered s h = some r → r.use = .dmaWrite c ch →
      exec (.readResp p h st data) s = .next (dmaLost (dropRemote (badResponse s p) r) c ch r.xid Cause.PROTOCOL)) ∧
    (∀ (st : Fin 16) (r : RemoteReq) st', statusOf st.val = some st' → answered s h = some r → (∀ n, r.use ≠ .hostRead n) →
      exec (.ack p h st) s = .next (answerRemote s r st' [])) ∧
    (∀ (st : Fin 16) (r : RemoteReq) n, (statusOf st.val).isSome = true → answered s h = some r → r.use = .hostRead n →
      exec (.ack p h st) s = .next (badResponse s p)) ∧
    (∀ (r : RemoteReq) f n, answered s h = some r → r.use = .semOp f n →
      exec (.delay p h) s = .next (countDelayed s f.block)) ∧
    (∀ (r : RemoteReq) c ch, answered s h = some r → r.use = .dmaWrite c ch →
      exec (.delay p h) s = .next (countDelayed s (.dma c ch))) ∧
    (∀ (r : RemoteReq), answered s h = some r → (∀ f n, r.use ≠ .semOp f n) → (∀ c ch, r.use ≠ .dmaWrite c ch) →
      exec (.delay p h) s = .next (countDelayed s .host))

/-- Packets that are dropped (R383, R386, R443, R450). A packet on a port that is down or fenced, or with both
stewards failed, changes nothing. One that names another device is counted and raises MISROUTE. A malformed one raises
PROTOCOL; any other runs its body. -/
def Obligations.PacketsAreTurnedAway : Prop :=
  ∀ (s : State) (p : NauloId) (h : PacketHead) (good : Bool) (body : State → State),
    (portUp s p = false ∨ isFenced s (.naulo p) = true ∨ s.steward.failed = true → withPacket s p h good body = s) ∧
    (portUp s p = true → isFenced s (.naulo p) = false → s.steward.failed = false → h.dst ≠ nodeId s →
      withPacket s p h good body = raiseWith (bump s (.naulo p) 12 1) (.naulo p) 11 (portOccur s p 0)) ∧
    (takesPacket s p h = true →
      withPacket s p h false body = raiseWith s (.naulo p) Cause.PROTOCOL (portOccur s p 0) ∧
      withPacket s p h true body = body s)

/-- Time alignment with the parent (R391, R392, R393). A follower asks its parent every interval; any asker is
answered with the times. The slew moves the time base by at most one ns in 2000. A sample from the parent is accepted
or counted as rejected by the last 16 delays; one from another device is none. After 16 intervals without a sample the
state is LOST with its cause. A write of TT_PARENT starts the alignment again and changes no register but its own and
the state (log entries 66, 67). -/
def Obligations.TimeIsAligned : Prop :=
  (∀ (s : State) (p : DeviceId), syncParent s = some p → exec .syncInterval s = .next (
    let u := slewTime { s with now := max s.now (s.sync.sentAt + rfield s fabricPage Reg.Fab.SYNC_INTERVAL 19 0) }
    sendControl { u with sync := { u.sync with sentAt := u.now, missed := u.sync.missed + 1 } } (activeStride u) 0x12 p
      (words64 u.now) [] (.syncReq p u.now))) ∧
  (∀ s : State, let n : Int := ((s.now - s.sync.slewAt) / 2000 : Nat)
    (s.sync.slew = 0 ∨ n = 0 → slewTime s = s) ∧
    (∀ k : Int, k = max (-n) (min n s.sync.slew) → k ≠ 0 → slewTime s = { s with
      now := ((s.now : Int) + k).toNat,
      sync := { s.sync with slew := s.sync.slew - k, slewAt := ((s.now : Int) + k).toNat } })) ∧
  (∀ (s : State) (d : DeviceId) (t1 : Nat), exec (.syncReq d t1) s = .next (sendControl s (activeStride s) 0x13 d
    (words64 t1 ++ words64 s.now ++ words64 s.now) [] (.syncResp d t1 s.now s.now))) ∧
  (∀ (s : State) (p : DeviceId) (t1 t2 t3 t4 : Nat), syncParent s = some p →
    let u := bump (slewTime { s with now := max s.now t4 }) fabricPage 0 1
    let x := syncSample t1 t2 t3 t4
    let v := { u with sync := { u.sync with delays := (x.2 :: u.sync.delays).take 16 } }
    (syncAccepts u x.2 = true → exec (.syncResp p t1 t2 t3 t4) s = .next (acceptSample v x.1 x.2)) ∧
    (syncAccepts u x.2 = false → exec (.syncResp p t1 t2 t3 t4) s = .next (bump v fabricPage 1 1))) ∧
  (∀ (s : State) (d : DeviceId) (t1 t2 t3 t4 : Nat), syncParent s ≠ some d → exec (.syncResp d t1 t2 t3 t4) s = .next s) ∧
  (∀ s : State, (syncParent s).isSome = true → syncState s = 1 → 16 ≤ s.sync.missed →
    exec .syncLost s = .next (raise (setSync s (rfield s fabricPage Reg.Fab.SYNC_STATE 7 4) 2) fabricPage 9)) ∧
  (∀ (s : State) (v : Word), s.Inv → ∃ t, exec (.ttParent v) s = .next t ∧ syncState t = 0 ∧
    t.sync = { SyncM.reset with sentAt := s.sync.sentAt } ∧
    RegsBut [Block.reg fabricPage Reg.Fab.TT_PARENT, Block.reg fabricPage Reg.Fab.SYNC_STATE] s t ∧
    t = { s with regs := t.regs, sync := t.sync })

/-- Segments of a collective (R407, R414, R415). A segment of a group whose command has not started is written, kept
or both by its kind, or answered BUSY where there is no room. A good answer ends the segment that was sent and lets
the collective go on; a BUSY one is sent again 1 us later and counted, and ends the collective where its data is gone.
A collective in which nothing moved for COLL_TIMEOUT stops ABORTED. -/
def Obligations.SegmentsAreTaken : Prop :=
  (∀ (s u : State) (p : NauloId) (xid : Nat) (g : Segment) (ws : List Word), peekEntry s p g.group = (u, some ws) →
    let e := (groupEntry ws).engine
    let v := bump (bump u (.relay e) 15 1) (.relay e) 17 g.data.length
    (groupEntry ws).valid = true → isFenced u (.relay e) = false → (getRelay u e).coll = none →
    (segRoom (getRelay u e) g false = false →
      exec (.segment p xid g) s = .next (sendSegAck (bump v (.relay e) 18 1) e g .bulk xid true)) ∧
    (segRoom (getRelay u e) g false = true →
      let r := writeAtOnce v e g .bulk 0
      let w := sendSegAck r.1 e g .bulk xid false
      (g.kind.val = 7 ∨ g.kind.val = 5 ∧ r.2 = .ok → exec (.segment p xid g) s = .next w) ∧
      (g.kind.val ≠ 7 → (g.kind.val = 5 → r.2 ≠ .ok) → exec (.segment p xid g) s = .next (
        putRelay w e { getRelay w e with early := (getRelay w e).early ++
          [{ seg := if g.kind.val = 3 ∨ g.kind.val = 5 then { g with data := [] } else g,
             bytes := g.data.length, st := r.2 }] })))) ∧
  (∀ (s : State) (p : NauloId) (xid : Nat) (q : SentSeg), s.sentSegs.find? (fun q => q.xid = xid) = some q →
    exec (.segAck p xid false) s = .next (goOn { s with sentSegs := s.sentSegs.filter (fun y => y.xid ≠ xid) } q.engine) ∧
    exec (.segAck p xid true) s = .next { s with sentSegs := s.sentSegs.map (fun y =>
      if y.xid = xid then { y with busy := some s.now } else y) }) ∧
  (∀ (s v : State) (e : RelayId) (xid t : Nat) (q : SentSeg) (st : Status),
    s.sentSegs.find? (fun q => q.xid = xid && q.engine = e) = some q → q.busy = some t →
    let u := { s with now := max s.now (t + 1000) }
    sendSegment u e q = (v, st) →
    (st = .ok → exec (.busyResend e xid) s = .next (goOn (noteSeg (bump { v with sentSegs := v.sentSegs.map (fun y =>
      if y.xid = xid then { y with busy := none } else y) } (.relay e) 19 1) e) e)) ∧
    (st = .delayed → exec (.busyResend e xid) s = .next u) ∧
    (st = .aborted → exec (.busyResend e xid) s = .next (abortColl v e))) ∧
  (∀ (s : State) (e : RelayId) (c : CollRun) (x : Slot), (getRelay s e).coll = some c → getSlot s (.relay e) c.slot = some x →
    exec (.collTimeout e) s = .next (stopColl (raiseTag { s with now := max s.now (c.lastSeg + collTimeout s e) } (.relay e) 16
      (cmdTag x.words) 0x50) e c.slot (worse c.status .aborted)))

/-- Error records reach the queue, are handled and logged (R418, R420, R421, R423, R424, R427). A waiting record
enters a queue with room and is counted; a full queue raises its overflow; 1 us later the block sends it again.
Handling takes the first record, counts its class, charges the unit, and logs it; one that cannot be logged stays in
handling. LOG_SIZE from 6 to 16 commits base and size and clears head and tail if the ring lies in HBM; another size
raises its cause. -/
def Obligations.RecordsAreHandled : Prop :=
  (∀ (s : State) (b : Block) (r : ErrRecord), s.records.find? (fun r => r.1 = b.page) = some (b.page, r) →
    s.steward.switching = none → s.steward.failed = false →
    (s.steward.queue.length < 64 → exec (.errorRecord b) s = .next (bump { s with
      records := s.records.filter (fun x => x.1 ≠ b.page),
      steward := { s.steward with queue := s.steward.queue ++ [r],
                                  peak := max s.steward.peak (s.steward.queue.length + 1) } } (activeQueue s) 0 1)) ∧
    (64 ≤ s.steward.queue.length → exec (.errorRecord b) s = .next (raise (bump s (activeQueue s) 1 1) (activeQueue s) 8)) ∧
    (let w := max s.now (r.sentAt + 1000)
     exec (.recordResend b) s = .next (deliverRecord { s with now := w, records := s.records.map (fun x =>
       if x.1 = b.page then (x.1, { x.2 with sentAt := w }) else x) } b))) ∧
  (∀ (s : State) (r : ErrRecord) (rest : List ErrRecord) (k : Nat), s.steward.queue = r :: rest →
    s.steward.switching = none → s.steward.failed = false →
    let u := { s with steward := { s.steward with queue := rest, handling := some r } }
    chargeOf u r = .cls k →
    (∀ v, writeLog (countClass u k) r k = (v, true) → exec .handling s = .next { v with steward := { v.steward with handling := none } }) ∧
    (∀ v, writeLog (countClass u k) r k = (v, false) → exec .handling s = .next v)) ∧
  (∀ (s : State) (r : ErrRecord) (rest : List ErrRecord) (x : Unit_) (v w : State) (k : Nat), s.steward.queue = r :: rest →
    s.steward.switching = none → s.steward.failed = false →
    let u := { s with steward := { s.steward with queue := rest, handling := some r } }
    chargeOf u r = .unit x → chargeUnit u x r = (v, k) → writeLog (countClass v k) r k = (w, true) →
    exec .handling s = .next (stewardCharged { w with steward := { w.steward with handling := none } } (.unit x) k)) ∧
  (∀ (s : State) (k : Nat), (k ≤ 5 → countClass s k = bump s (activeQueue s) (3 + k) 1) ∧ (5 < k → countClass s k = s)) ∧
  (∀ (s : State) (v : Word), s.Inv → 6 ≤ bits v 4 0 → bits v 4 0 ≤ 16 →
    let base := rget64 s (activeQueue s) Reg.Erq.LOG_BASE_LO Reg.Erq.LOG_BASE_HI
    base + 64 * 2 ^ bits v 4 0 ≤ hbmSize →
    ∃ t, exec (.logSize v) s = .next t ∧ t.steward.logBase = base ∧ t.steward.logLog2 = bits v 4 0 ∧
      rget t (activeQueue s) Reg.Erq.LOG_SIZE = wordOf (bits v 4 0) ∧ rget t (activeQueue s) Reg.Erq.LOG_HEAD = 0 ∧
      rget t (activeQueue s) Reg.Erq.LOG_TAIL = 0 ∧
      RegsBut [(activeQueue s).reg Reg.Erq.LOG_SIZE, (activeQueue s).reg Reg.Erq.LOG_HEAD, (activeQueue s).reg Reg.Erq.LOG_TAIL] s t ∧
      t = { s with regs := t.regs, steward := { s.steward with logBase := base, logLog2 := bits v 4 0 } }) ∧
  (∀ (s : State) (v : Word), bits v 4 0 < 6 ∨ 16 < bits v 4 0 → exec (.logSize v) s = .next (raise s (activeQueue s) 17))

/-- Heartbeats, switch-over, sentinels and relocks (R436, R439, R447, R448, R449, R450). Heartbeats count missed beats
and acknowledgements up to four: the fourth missed beat starts a switch-over, the fourth missed acknowledgement fails
the standby. A switch-over within 30 us copies the four pages to the other steward, fences the former die, sets the
step-skip flag and is counted and raised. A sample of the sentinels visits every die. A relock ends within its bound,
and what waited for it goes on (log entry 92). -/
def Obligations.StewardsSwitchOver : Prop :=
  (∀ s : State, s.steward.standbyOk = true → s.steward.failed = false → s.steward.switching = none →
    (s.steward.missedAcks < 4 → exec (.heartbeat true true) s =
      .next { s with steward := { s.steward with missedBeats := 0, missedAcks := 0 } }) ∧
    (s.steward.missedAcks + 1 < 4 → exec (.heartbeat true false) s =
      .next { s with steward := { s.steward with missedBeats := 0, missedAcks := s.steward.missedAcks + 1 } }) ∧
    (3 ≤ s.steward.missedAcks → exec (.heartbeat true false) s =
      .next (failStandby { s with steward := { s.steward with missedBeats := 0, missedAcks := s.steward.missedAcks + 1 } })) ∧
    (∀ acked, s.steward.missedBeats + 1 < 4 → s.steward.missedAcks < 4 → exec (.heartbeat false acked) s =
      .next { bump s (activeQueue s) 14 1 with steward := { s.steward with missedBeats := s.steward.missedBeats + 1 } }) ∧
    (∀ acked, 3 ≤ s.steward.missedBeats → exec (.heartbeat false acked) s =
      .next { bump s (activeQueue s) 14 1 with
        steward := { s.steward with missedBeats := s.steward.missedBeats + 1, switching := some s.now } })) ∧
  (∀ s : State, s.steward.standbyOk = true → s.steward.failed = false → s.steward.switching = none →
    exec .switchReq s = .next { s with steward := { s.steward with switching := some s.now } }) ∧
  (∀ s : State, s.steward.standbyOk = false → exec .switchReq s = .next s) ∧
  (∀ (s : State) (t : Nat), s.steward.switching = some t → ∃ n, n ≤ 30000 ∧ exec .switchover s = .next (
    let u := { s with fresh := s.fresh + 1, now := max s.now (t + n) }
    let old : Fin 2 := if s.steward.activeSb then 1 else 0
    let new : Fin 2 := if s.steward.activeSb then 0 else 1
    let v := mirrorPage (mirrorPage (mirrorPage (mirrorPage u (.mgmt old) (.mgmt new)) (.stride old) (.stride new))
      (.errq old) (.errq new)) (.security old) (.security new)
    let w := stepSkip (fenceDie { v with steward := { v.steward with
      activeSb := !v.steward.activeSb, standbyOk := false, switching := none, missedBeats := 0, missedAcks := 0 } } (activeDie v)) 8
    let q := activeQueue w
    let x := rputField w q Reg.Erq.STEWARD_STATE 31 16 (sat 16 (rfield w q Reg.Erq.STEWARD_STATE 31 16 + 1))
    raiseOwn (countLife (bump (rput x q Reg.Erq.LAST_SWITCH (wordOf (x.now - t))) q 13 1) 2) 13 7)) ∧
  (∀ (s : State) (slack : List Int) (failing : List (BitVec 8)), s.steward.failed = false →
    exec (.sentinelSample slack failing) s = .next ((List.finRange 33).foldl (fun u d =>
      if d.val = 31 then u else (slack[d.val]?).elim u (fun x => sampleDie u d x (failing.getD d.val 0))) s)) ∧
  (∀ (s : State) (d : DieId) (t0 bound : Nat), s.relocks.find? (fun x => x.1 = d.val) = some (d.val, t0, bound) →
    ∃ n, n ≤ bound ∧ exec (.relock d) s = .next (releaseHeld (bump (rput
      { s with fresh := s.fresh + 1, now := max s.now (t0 + n), relocks := tset (0, 0) s.relocks d.val (0, 0) }
      (.clock d) Reg.Clk.LAST_CHANGE (wordOf n)) (.clock d) 2 n)))

/-- DMA channels retry and resume (R333, R334). A retry makes the failed request again, is counted and shown, and uses
up one of the retries left. RESUME returns a halted channel to IDLE and changes no other register; on another channel
it does nothing. -/
def Obligations.ChannelsRetryAndResume : Prop :=
  ∀ (s : State) (c : CoreId) (ch : Fin 8), s.Inv →
    (∀ (left : Nat) (x : Slot), (getDma s c ch).retry = some left → getSlot s (.cp c) (getDma s c ch).slot = some x →
      exec (.dmaRetry c ch) s = .next (dmaGo (putDma (rput (bump s (.dma c ch) 3 1) (.dma c ch) Reg.Dma.LAST_RETRIES
        (wordOf (sat 16 ((rget s (.dma c ch) Reg.Dma.LAST_RETRIES).toNat + 1)))) c ch { getDma s c ch with retry := some (left - 1) })
        c ch x)) ∧
    (rfield s (.dma c ch) Reg.Dma.DMA_STATE 1 0 = 2 → ∃ t, exec (.resume c ch) s = .next t ∧
      rfield t (.dma c ch) Reg.Dma.DMA_STATE 1 0 = 0 ∧ OnlyRegs [Block.reg (.dma c ch) Reg.Dma.DMA_STATE] s t) ∧
    (rfield s (.dma c ch) Reg.Dma.DMA_STATE 1 0 ≠ 2 → exec (.resume c ch) s = .next s)

/-- The trace collector (R461, R462, R463, R465). The first record that was sent reaches the collector. With room, or
in overwriting mode, its slots are written and it is counted; in a full ring that has said so it is dropped.
TRACE_CTRL takes effect as written; EN needs a ring in HBM. TRACE_BASE and TRACE_SIZE clear head, tail and sequence
while the collector is idle and raise TRACE_BUSY otherwise. -/
def Obligations.TraceIsCollected : Prop :=
  (∀ (s : State) (r : TraceRec) (rest : List TraceRec), s.trace.queued = r :: rest →
    let u := { s with trace := { s.trace with queued := rest } }
    exec .traceRecord s = .next (takeRecord u r)) ∧
  (∀ (s v : State) (r : TraceRec), s.trace.drops = 0 →
    (bit (treg s Reg.Trc.TRACE_CTRL) 1 = true ∨ traceUsed s + (1 + r.slots.length) ≤ traceSlots s) →
    writeSlots s (stampSeq s r.words :: r.slots) = (v, true) →
    takeRecord s r = traceIrq (countRecord v (bits (wordAt r.words 0) 7 0)) (traceUsed s)) ∧
  (∀ (s : State) (r : TraceRec), s.trace.drops = 0 → bit (treg s Reg.Trc.TRACE_CTRL) 1 = false →
    traceSlots s < traceUsed s + (1 + r.slots.length) → s.trace.fullSeen = true →
    takeRecord s r = traceDrop s 2) ∧
  (∀ (s : State) (v : Word), bit v 1 = bit (treg s Reg.Trc.TRACE_CTRL) 1 →
    (bit v 0 = false ∨ bit (treg s Reg.Trc.TRACE_CTRL) 0 = true →
      exec (.traceCtrl v) s = .next (rwrite s tracePage Reg.Trc.TRACE_CTRL v)) ∧
    (bit v 0 = true → bit (treg s Reg.Trc.TRACE_CTRL) 0 = false → traceRingOk s = true →
      exec (.traceCtrl v) s = .next (
        let u := rwrite s tracePage Reg.Trc.TRACE_CTRL v
        rput { u with trace := { s.trace with fullSeen := false } } tracePage Reg.Trc.TRACE_DROPPED 0)) ∧
    (bit v 0 = true → bit (treg s Reg.Trc.TRACE_CTRL) 0 = false → traceRingOk s = false →
      exec (.traceCtrl v) s = .next (raise (rputBit (rwrite s tracePage Reg.Trc.TRACE_CTRL v) tracePage Reg.Trc.TRACE_CTRL 0 false)
        tracePage 10))) ∧
  (∀ (s : State) (v : Word), traceIdle s = true →
    (exec (.traceBase 0 v) s = .next (
      let u := rput (rput (rwrite s tracePage Reg.Trc.TRACE_BASE_LO v) tracePage Reg.Trc.TRACE_HEAD 0) tracePage Reg.Trc.TRACE_TAIL 0
      { u with trace := { s.trace with seq := 0 } })) ∧
    (exec (.traceBase 1 v) s = .next (
      let u := rput (rput (rwrite s tracePage Reg.Trc.TRACE_BASE_HI v) tracePage Reg.Trc.TRACE_HEAD 0) tracePage Reg.Trc.TRACE_TAIL 0
      { u with trace := { s.trace with seq := 0 } })) ∧
    (10 ≤ bits v 4 0 → bits v 4 0 ≤ 24 → exec (.traceBase 2 v) s = .next (
      let u := rput (rput (rwrite s tracePage Reg.Trc.TRACE_SIZE v) tracePage Reg.Trc.TRACE_HEAD 0) tracePage Reg.Trc.TRACE_TAIL 0
      { u with trace := { s.trace with seq := 0 } }))) ∧
  (∀ (s : State) (k : Fin 3) (v : Word), traceIdle s = false → exec (.traceBase k v) s = .next (raise s tracePage 8))

/-- Check-value jobs (R467, R468, R469, R470, R471, R474, R476). A job that runs on an unfenced channel goes over its
range by its mode: DIGEST over all bytes, SEAL and VERIFY block by block; one whose request must wait is run again.
Its end writes the result and DONE, raises the mismatch cause for a VERIFY that fails, and a job that was stopped ends
FAILED with CV_ACCESS. -/
def Obligations.CheckValueJobsRun : Prop :=
  (∀ (s : State) (ch : Fin 16), cvState s ch = 1 → (getCv s ch).finished = none → isFenced s (cvPage ch) = false →
    let j := cvJob s ch
    let k := (crcOf j.poly).getD crc32c
    (j.mode = 0 →
      let r := digestFrom ch j k (requestCuts j.src j.len) s
      (r.2 ≠ .delayed → exec (.digest ch) s = .next (putCv r.1 ch { getCv r.1 ch with finished := some (decide (r.2 = .ok)) })) ∧
      (r.2 = .delayed → exec (.digest ch) s = .next (settleWaits s r.1))) ∧
    (j.mode = 1 →
      let r := blocksFrom (fun i => sealBlock ch j k (j.src + i * j.block)) (j.len / j.block) 0 s
      (r.2 ≠ .delayed → exec (.seal ch) s = .next (putCv r.1 ch { getCv r.1 ch with finished := some (decide (r.2 = .ok)) })) ∧
      (r.2 = .delayed → exec (.seal ch) s = .next (settleWaits s r.1))) ∧
    (j.mode = 2 →
      let r := blocksFrom (fun i => verifyBlock ch j k (j.src + i * j.block) i) (j.len / j.block) 0 s
      (r.2 ≠ .delayed → exec (.verify ch) s = .next (putCv r.1 ch { getCv r.1 ch with finished := some (decide (r.2 = .ok)) })) ∧
      (r.2 = .delayed → exec (.verify ch) s = .next (settleWaits s r.1)))) ∧
  (∀ (s : State) (ch : Fin 16), (getCv s ch).finished = some false →
    exec (.jobEnd ch) s = .next (cvEnd (raise (putCv s ch { getCv s ch with finished := none, done := none }) (cvPage ch) 10) ch 3 false)) ∧
  (∀ (s : State) (ch : Fin 16), (getCv s ch).finished = some true →
    let j := cvJob s ch
    let u := rput64 (putCv s ch { getCv s ch with finished := none, done := some (j.mode, j.poly, j.stream) }) (cvPage ch)
      Reg.Cv.CV_RESULT_LO Reg.Cv.CV_RESULT_HI (((crcOf j.poly).getD crc32c).finish (getCv s ch).crc)
    (j.mode ≠ 2 ∨ cvPass u ch = true → exec (.jobEnd ch) s = .next (cvEnd u ch 2 (cvPass u ch))) ∧
    (j.mode = 2 → cvPass u ch = false → exec (.jobEnd ch) s = .next (cvEnd (raise u (cvPage ch) 11) ch 2 false)))

/-- Resets of the device (R453, R477, R479, R482, R524, R526). Power-on, RESET_N, the reset that RESET_REQ asked for
(10 us later, with the key 0xB007), and a brown-out reset the device, with the cause of each. A reset leaves every
register at its reset value but for RESET_CAUSE on both management pages and TRIP_INFO, which only a power-on clears;
every counter at 0 but for the count of resets; the image and the device secret as they were; and start-up in ROM (log
entries 111, 112). -/
def Obligations.DeviceResets : Prop :=
  (∀ s : State, exec .powerOn s = .next (resetDevice s 0 true)) ∧
  (∀ s : State, s.inputs.resetHeld = false → exec (.resetN true) s =
    .next (resetDevice { s with inputs := { s.inputs with resetHeld := true } } 1 false)) ∧
  (∀ s : State, s.inputs.resetHeld = true → exec (.resetN true) s = .next s ∧ exec (.resetN false) s =
    .next { s with inputs := { s.inputs with resetHeld := false }, boot := { s.boot with resetAt := s.now } }) ∧
  (∀ (s : State) (v : Word), bits v 31 16 = 0xB007 → bit v 0 = true → s.resetReq = none →
    exec (.resetReq v) s = .next { s with resetReq := some (s.now + 10000) }) ∧
  (∀ (s : State) (v : Word), bits v 31 16 ≠ 0xB007 → exec (.resetReq v) s = .next s) ∧
  (∀ (s : State) (t : Nat), s.resetReq = some t →
    exec .deviceReset s = .next (resetDevice { s with now := max s.now t } 2 false)) ∧
  (∀ (s : State) (rail : Fin 4), s.inputs.resetHeld = false →
    (rail.val < 2 → exec (.brownOut rail) s = .next (resetDevice s 3 false)) ∧
    (2 ≤ rail.val → exec (.brownOut rail) s = .next (resetDevice s 0 true))) ∧
  (∀ (s : State) (cause : Nat) (power : Bool), cause < 16 →
    let t := resetDevice s cause power
    t.boot.phase = .rom ∧ t.now = s.now ∧ t.flash.image = s.flash.image ∧ t.flash.secretNo = s.flash.secretNo ∧
    (∀ b, b = Block.mgmt 0 ∨ b = Block.mgmt 1 → rget t b Reg.Mgm.RESET_CAUSE = wordOf cause ∧
      ctr t b 0 = min ((if power then 0 else ctr s (activeMgmt s) 0) + 1) (2 ^ 64 - 1)) ∧
    rget t thermalPage Reg.Thm.TRIP_INFO = (if power then 0 else rget s thermalPage Reg.Thm.TRIP_INFO) ∧
    (∀ (b : Block) (off : Nat), b.reg off ∉ [Block.reg (.mgmt 0) Reg.Mgm.RESET_CAUSE, Block.reg (.mgmt 1) Reg.Mgm.RESET_CAUSE,
      Block.reg thermalPage Reg.Thm.TRIP_INFO] → rget t b off = resetValue b off) ∧
    (∀ (b : Block) (k : Nat), b.cnt k ∉ [Block.cnt (.mgmt 0) 0, Block.cnt (.mgmt 1) 0] → ctr t b k = 0))

/-- The states of start-up (R433, R478, R479, R489, R490, R491, R492, R496). ROM chooses the steward, fences one that
failed, and stays where both failed. IDENTITY goes on with a known secret and no broken owner record. IMAGE goes on
with an image that is accepted and enters RECOVERY with the reason otherwise. CONFIGURE applies the image, and goes on
with trained stacks and enough feeds. TEST tests the cores and makes the device READY. Each state ends within its time
(log entry 92). -/
def Obligations.StartUpGoesOn : Prop :=
  ∀ s : State, s.inputs.resetHeld = false →
    (s.boot.phase = .rom → s.steward.failed = false → ∃ n, n ≤ 2000000 ∧
      let u := { s with fresh := s.fresh + 1, now := max s.now (s.boot.resetAt + n) }
      exec (.rom true true) s = .next { u with
        steward := { s.steward with saPassed := true, sbPassed := true, activeSb := false, standbyOk := true },
        boot := { s.boot with romPassed := true, phase := .identity } } ∧
      (∀ sa, let v := { u with
          steward := { s.steward with saPassed := sa, sbPassed := !sa, activeSb := !sa, standbyOk := false },
          boot := { s.boot with romPassed := true, phase := .identity } }
        exec (.rom sa (!sa)) s = .next (fenceDie v (if sa then 32 else 30))) ∧
      exec (.rom false false) s = .next { u with steward := { s.steward with
        saPassed := false, sbPassed := false, activeSb := false, standbyOk := false, failed := true } }) ∧
    (s.boot.phase = .identity → ∃ n, n ≤ 5000000 ∧
      let u := { s with fresh := s.fresh + 1, now := max s.now (s.boot.resetAt + n) }
      (secretKnown s = true → (∀ h, s.flash.owner ≠ some (false, h)) →
        exec .identity s = .next { u with boot := { s.boot with secret := true, phase := .image } }) ∧
      (secretKnown s = false → exec .identity s = .next (enterRecovery u 5)) ∧
      (∀ h, secretKnown s = true → s.flash.owner = some (false, h) →
        exec .identity s = .next (enterRecovery { u with boot := { s.boot with secret := true } } 4))) ∧
    (s.boot.phase = .image → ∃ n, n ≤ 9000000 + 2700000 * s.flash.image.length / 2 ^ 20 ∧
      let u := { s with fresh := s.fresh + 1, now := max s.now (s.boot.resetAt + n) }
      exec .image s = .next (match checkImage s.flash.image s.flash.minSerial (ownerHash s) with
        | .ok i => toPhase (hostBase (acceptImage u i)) .configure
        | .error r => enterRecovery u r)) ∧
    (s.boot.phase = .configure → ∃ n, n ≤ 79000000 + 2700000 * s.flash.image.length / 2 ^ 20 ∧
      ∀ (good : List Bool) (a b : BitVec 4),
      let u := applyImage { s with fresh := s.fresh + 1, now := max s.now (s.boot.resetAt + n) }
      let single := decide (leNat (slice s.boot.config 3 1) = 1)
      let ok := (List.range 16).all (fun i => good.getD i true)
      (ok = false → exec (.configure good a b) s = .next (enterRecovery u 6)) ∧
      (ok = true → feedsEnough a b single = false → exec (.configure good a b) s = .next (enterRecovery u 8)) ∧
      (ok = true → feedsEnough a b single = true → exec (.configure good a b) s = .next (toPhase
        ((List.finRange 4).foldl (fun s r => putFeed (putFeed s r false (feedFound (a.getLsbD r.val))) r true
          (feedFound (b.getLsbD r.val))) u) .test))) ∧
    (s.boot.phase = .test → ∃ n, n ≤ 239000000 + 2700000 * s.flash.image.length / 2 ^ 20 ∧
      ∀ results : List (Option (Tag × Tag)),
      exec (.test results) s = .next (becomeReady ((List.finRange 128).foldl (fun s c => testCore s c (results.getD c.val none))
        { s with fresh := s.fresh + 1, now := max s.now (s.boot.resetAt + n) })))

/-- Feeds of the supply rails (R493, R494, R495). A lost feed whose partner stands is recorded, counted and throttles
the device, and is held out after four losses within 60 s, with its cause; with its partner gone the rail is a brown-
out. The throttle ends at its time and reports the losses. A feed that is not held out rejoins after 100 ms and is
counted; DEGRADED clears when all feeds are in use. REARM ends every hold-out. FEED_SHARE is kept between 32 and 224.
-/
def Obligations.FeedsAreLostAndRejoin : Prop :=
  (∀ (s : State) (rail : Fin 4) (b : Bool), s.inputs.resetHeld = false → (getFeed s rail b).ok = true →
    ((getFeed s rail (!b)).ok = true → exec (.feedLost rail b) s = .next (
      let l := (s.now :: (getFeed s rail b).lostAt).take 4
      let u := rput (putFeed s rail b { good := false, ok := false, held := heldOut s.now l, told := false, lostAt := l }) supplyPage
        Reg.Sup.LAST_LOSS (wordOf (rail.val + if b then 16 else 0))
      let v := throttle (bump u supplyPage 0 1)
      if heldOut s.now l then raise v supplyPage 9 else v)) ∧
    ((getFeed s rail (!b)).ok = false → exec (.feedLost rail b) s = .next (brownOut s rail))) ∧
  (∀ (s : State) (t : Nat), s.throttleUntil = some t →
    exec .throttleEnd s = .next (allFeeds.foldl tellLoss { s with now := max s.now t, throttleUntil := none })) ∧
  (∀ (s : State) (rail : Fin 4) (b : Bool), s.inputs.resetHeld = false → (getFeed s rail b).ok = false →
    (getFeed s rail b).held = false → s.feeds ≠ [] →
    let w := max s.now ((getFeed s rail b).lostAt.headD s.now + 100000000)
    let u := bump (putFeed { s with now := w } rail b { getFeed s rail b with good := true, ok := true }) supplyPage 1 1
    (allFeeds.all (fun f => (getFeed u f.1 f.2).ok) = true →
      exec (.feedRejoin rail b) s = .next (rputBit u supplyPage Reg.Hdr.STATUS 5 false)) ∧
    (allFeeds.all (fun f => (getFeed u f.1 f.2).ok) = false → exec (.feedRejoin rail b) s = .next u)) ∧
  (∀ s : State, exec .rearm s = .next { s with feeds := s.feeds.map (fun f => (f.1, { f.2 with held := false })) }) ∧
  (∀ (s : State) (v : Word), s.Inv → ∃ t, exec (.feedShare v) s = .next t ∧
    rget t supplyPage Reg.Sup.FEED_SHARE = wordOf (max 32 (min 224 (bits v 7 0))) ∧
    OnlyRegs [supplyPage.reg Reg.Sup.FEED_SHARE] s t) ∧
  (∀ (now : Nat) (a b c d : Nat) (l : List Nat), heldOut now [] = false ∧ heldOut now [a] = false ∧ heldOut now [a, b] = false ∧
    heldOut now [a, b, c] = false ∧ heldOut now (a :: b :: c :: d :: l) = decide (now ≤ d + 60000000000))

/-- Security operations (R496, R497, R498, R499, R501, R502, R503, R504). An accepted operation is counted, does its
work and ends with its result, or is run again where its request must wait. ATTEST writes a report over 64 bytes of
challenge. Image replacement programs an image that is accepted and answers the reason for another one. REENROL draws
a new secret and writes the new key. DEBUG_NONCE draws a nonce. An unlock token for this device and nonce spends the
nonce and sets DEBUG exactly where its signature verifies. The lifetime record is read, cleared and counted up (log
entries 121 to 124). -/
def Obligations.SecurityOperationsRun : Prop :=
  ∀ s : State,
    (secRuns s 1 = true → ∀ u d, secArg (secBegun s) = (u, .ok, d) → d.length = 64 →
      exec .attest s = .next (secDone s (secAnswer (useFresh u) (report u d)))) ∧
    (secRuns s 2 = true → ∀ u d, secArg (secBegun s) = (u, .ok, d) → (∀ h, u.flash.owner ≠ some (false, h)) →
      exec .imageReplace s = .next (secDone s (match checkImage d u.flash.minSerial (ownerHash u) with
        | .ok i => programImage u d i false
        | .error e => (u, imageResult e)))) ∧
    (secRuns s 3 = true → ∀ u d, secArg (secBegun s) = (u, .ok, d) →
      exec .imageReplaceOwner s = .next (secDone s (match checkImage d u.flash.minSerial none with
        | .ok i => programImage u d i true
        | .error e => (u, imageResult e)))) ∧
    (secRuns s 4 = true → ∀ a, secOut (secBegun s) 133 = some a →
      exec .reenrol s = .next (secDone s (secWrite (reenrolled (secBegun s)) a (identityPublic (reenrolled (secBegun s)))))) ∧
    (secRuns s 5 = true → ∀ a, secOut (secBegun s) 32 = some a →
      let d := (List.range 32).map (Config.randomByte s.fresh)
      exec .debugNonce s = .next (secDone s (secWrite { secBegun s with
        fresh := s.fresh + 1, boot := { s.boot with nonce := some d } } a d))) ∧
    (secRuns s 6 = true → ∀ u d, secArg (secBegun s) = (u, .ok, d) → d.length = 200 → u.boot.nonce = some (d.take 32) →
      leNat (slice d 32 2) = (nodeId u).val → zeroIn d 34 34 = true →
      exec .debugUnlock s = .next (secDone s (if verifyBytes u.boot.ownerKey (slice d 68 132) (sha512 (d.take 68)) = true
        then (countLife { u with boot := { u.boot with nonce := none, debug := true } } 6, .ok)
        else ({ u with boot := { u.boot with nonce := none } }, .signature)))) ∧
    (secRuns s 7 = true →
      exec .readLifetime s = .next (secDone s (secAnswer (secBegun s) (s.flash.lifetime.flatMap (leBytes 8))))) ∧
    (secRuns s 8 = true → exec .clearLifetime s = .next (secDone s (countLife { secBegun s with
      flash := { s.flash with lifetime := [0, 0, 0, 0] ++ s.flash.lifetime.drop 4 } } 7, .ok))) ∧
    (exec .lifetimeRecord s = .next (countLife s 0))

/-- The presence input (R500, R521). An accepted edge of PRESENCE_N opens the window unless another came within the
last second, which is counted instead. A release ends presence. The window closes after 120 s, and presence of 600 s
raises its cause once. -/
def Obligations.PresenceOpensTheWindow : Prop :=
  (∀ s : State, s.inputs.resetHeld = false → s.inputs.presence = false →
    ((∀ t, s.inputs.presenceAt = some t → t + 1000000000 ≤ s.now) → exec (.presenceN true) s = .next (bump { s with
      inputs := { s.inputs with presence := true, presenceAt := some s.now, windowOpen := some s.now } } (activeSecurity s) 2 1)) ∧
    (∀ t, s.inputs.presenceAt = some t → s.now < t + 1000000000 → exec (.presenceN true) s = .next (bump { s with
      inputs := { s.inputs with presence := true, presenceAt := some s.now } } boardPage 2 1))) ∧
  (∀ s : State, s.inputs.resetHeld = false → exec (.presenceN false) s =
    .next { s with inputs := { s.inputs with presence := false, presenceStuck := false } }) ∧
  (∀ (s : State) (t : Nat), s.inputs.windowOpen = some t → exec .presenceWindowClose s =
    .next { s with now := max s.now (t + 120000000000), inputs := { s.inputs with windowOpen := none } }) ∧
  (∀ (s : State) (t : Nat), s.inputs.presenceAt = some t → s.inputs.presence = true → s.inputs.presenceStuck = false →
    exec .presenceStuck s = .next (raise (bump { s with now := max s.now (t + 600000000000),
                                                        inputs := { s.inputs with presenceStuck := true } } boardPage 8 1) boardPage 11))

/-- Resets and the link of the host port (R505, R508, R512). Hot reset, function-level reset, link down and PERST_N
put the host port and its three BAR2 registers at their reset values, and change nothing else; the latter two are
counted and raised. A link that trains shows width, speed and mode. BAR2_BASE_HI puts the new base in force. -/
def Obligations.HostPortResets : Prop :=
  (∀ s : State, exec .hotReset s = .next (hostReset s)) ∧
  (∀ s : State, exec .hostFlr s = .next (raise (bump (hostReset s) .host 9 1) .host 9)) ∧
  (∀ s : State, rbit s .host Reg.Hst.LINK_STATUS 31 = true → exec .hostLinkDown s =
    .next (raise (bump (rput (hostReset s) .host Reg.Hst.LINK_STATUS 0) .host 8 1) .host 8)) ∧
  (∀ s : State, rbit s .host Reg.Hst.LINK_STATUS 31 = false → exec .hostLinkDown s = .next s) ∧
  (∀ s : State, s.inputs.resetHeld = false →
    (s.inputs.perst = false → exec (.perstN true) s = .next (hostReset { s with inputs := { s.inputs with perst := true } })) ∧
    (s.inputs.perst = true → exec (.perstN true) s = .next { s with inputs := { s.inputs with perst := true } }) ∧
    exec (.perstN false) s = .next { s with inputs := { s.inputs with perst := false } }) ∧
  (∀ s : State, s.Inv → let t := hostReset s
    let base := 0x010000000000 + (nodeId s).val * 2 ^ 48
    t.host = { HostPort.reset with bar2Base := base, bar2Size := s.boot.bar2Default } ∧
    rget64 t .host Reg.Hst.BAR2_BASE_LO Reg.Hst.BAR2_BASE_HI = base ∧
    rget t .host Reg.Hst.BAR2_CTRL = wordOf (s.boot.bar2Default * 256 + 1) ∧
    RegsBut [Block.reg .host Reg.Hst.BAR2_BASE_LO, Block.reg .host Reg.Hst.BAR2_BASE_HI, Block.reg .host Reg.Hst.BAR2_CTRL] s t ∧
    t = { s with host := t.host, regs := t.regs }) ∧
  (∀ (s : State) (t : LinkTrain) (flit : Bool), s.steward.failed = false → s.inputs.resetHeld = false →
    rbit s .host Reg.Hst.LINK_STATUS 31 = false → t.linked = true → t.good = true → t.width ∈ [1, 4, 8, 16] →
    1 ≤ t.speed → t.speed ≤ 6 → (flit = true ∨ t.speed ≠ 6) →
    exec (.hostLinkUp t flit) s = .next (rput s .host Reg.Hst.LINK_STATUS
      (wordOf (2 ^ 31 + (if flit then 2 ^ 30 else 0) + t.width * 2 ^ 16 + t.speed)))) ∧
  (∀ (s : State) (v : Word), s.Inv → ∃ t, exec (.bar2BaseHi v) s = .next t ∧
    rget t .host Reg.Hst.BAR2_BASE_HI = v ∧
    t.host = { s.host with bar2Base := (rget s .host Reg.Hst.BAR2_BASE_LO).toNat + 2 ^ 32 * v.toNat } ∧
    RegsBut [Block.reg .host Reg.Hst.BAR2_BASE_HI] s t ∧ t = { s with host := t.host, regs := t.regs })

/-- Host accesses (R33, R505, R507, R508, R509, R511). Configuration requests are answered with Retry Status while the
image is not known, and otherwise read and write the configuration space. Aligned BAR0 accesses of 4 and 8 bytes are
counted and reach their registers; others raise ADDRESS and read 0. BAR2 accesses inside the window are split at 512
bytes and go to the global address. Unmasking a vector with its pending bit set sends one message. -/
def Obligations.HostAccessesAreServed : Prop :=
  (∀ (s : State) (offset : Nat) (w : Option Word), s.steward.failed = false → s.inputs.resetHeld = false →
    (configRetry s = true → exec (.configurationRequest offset w) s = .next { s with outputs := s.outputs ++ [.hostRetry] }) ∧
    (∀ v, configRetry s = false → w = some v → exec (.configurationRequest offset w) s =
      .next (emit (configWrite s offset v) (.hostData false []))) ∧
    (configRetry s = false → w = none → exec (.configurationRequest offset w) s =
      .next { s with outputs := s.outputs ++ [.hostData false (leBytes 4 (configRead s offset).toNat)] })) ∧
  (∀ s : State, configRead s 0x00 = 0x32001FE5#32) ∧
  (∀ (s : State) (offset bytes : Nat), s.inputs.resetHeld = false → s.steward.failed = false → bytes = 4 ∨ bytes = 8 →
    offset % bytes = 0 → offset < 30 * 256 * 4096 →
    (∀ v, exec (.bar0Access offset bytes (some v)) s = .next (bar0Write (bump s .host 1 1) offset bytes v)) ∧
    (exec (.bar0Access offset bytes none) s = .next (
      let r := bar0Read (bump s .host 0 1) offset bytes
      emit r.1 (.hostData false (leBytes bytes r.2))))) ∧
  (∀ (s : State) (offset bytes : Nat), s.inputs.resetHeld = false → s.steward.failed = false →
    bytes ≠ 4 ∧ bytes ≠ 8 ∨ offset % bytes ≠ 0 →
    (∀ v, exec (.bar0Access offset bytes (some v)) s = .next (raise s .host Cause.ADDRESS)) ∧
    exec (.bar0Access offset bytes none) s = .next (emit (raise s .host Cause.ADDRESS) (.hostData false (leBytes bytes 0)))) ∧
  (∀ (s : State) (offset : Nat), s.inputs.resetHeld = false → configRetry s = false →
    let ga := (s.host.bar2Base + offset) % 2 ^ 64
    (∀ n, offset + n ≤ bar2Bytes s → exec (.bar2Access offset (.read n)) s =
      .next (hostReads { s with host := { s.host with reads := s.host.reads ++ requestCuts ga n } })) ∧
    (∀ d, offset + d.length ≤ bar2Bytes s → exec (.bar2Access offset (.write d)) s =
      .next (hostWrites (requestCuts ga d.length) d s))) ∧
  (∀ (s : State) (v : Fin 2048), s.host.pendingMsi.contains v.val = true → exec (.msiXUnmask v) s = .next (
    let u := { s with host := { s.host with unmasked := sinsert s.host.unmasked v.val, pendingMsi := sremove s.host.pendingMsi v.val } }
    sendMsi u v.val)) ∧
  (∀ (s : State) (v : Fin 2048), s.host.pendingMsi.contains v.val = false → exec (.msiXUnmask v) s = .next
    { s with host := { s.host with unmasked := sinsert s.host.unmasked v.val, pendingMsi := sremove s.host.pendingMsi v.val } })

/-- The board alarm (R521). An alarm is raised and counted, and the third one within 10 ms begins a chatter hold with
its own cause. Its release ends it, a chatter hold after 100 ms more. An alarm over STUCK_MS raises its cause, once.
The end of an alarm counts its ns while ACTION is 1. While RESET_N is held, with no alarm to release and with none to
find stuck, nothing changes (log entry 119). -/
def Obligations.BoardAlarmsAreHandled : Prop :=
  (∀ s : State, s.inputs.resetHeld = false →
    let l := (s.now :: s.inputs.alarmAt).take 3
    let u (chatter : Bool) : State := { s with inputs := { s.inputs with
      alarm := true, alarmPin := true, alarmAt := l, alarmStuck := false,
      alarmSince := if s.inputs.alarm then s.inputs.alarmSince else s.now, chatter := chatter } }
    let v (chatter : Bool) : State := raise (bump (u chatter) boardPage 4 1) boardPage 8
    let third := ∃ t, l[2]? = some t ∧ s.now ≤ t + 10000000
    (third → s.inputs.chatter = false →
      exec .boardAlarm s = .next (raise (bump (v true) boardPage 5 1) boardPage 9)) ∧
    (¬ third ∨ s.inputs.chatter = true → exec .boardAlarm s = .next (v s.inputs.chatter))) ∧
  (∀ s : State, s.inputs.resetHeld = true → exec .boardAlarm s = .next s) ∧
  (∀ s : State,
    (s.inputs.resetHeld = false → s.inputs.alarm = true → s.inputs.chatter = true → exec .alarmRelease s =
      .next (endAlarm { s with now := max s.now (s.inputs.alarmAt.headD 0 + 100000000) })) ∧
    (s.inputs.resetHeld = false → s.inputs.alarm = true → s.inputs.chatter = false →
      exec .alarmRelease s = .next (endAlarm s)) ∧
    (s.inputs.resetHeld = true ∨ s.inputs.alarm = false → exec .alarmRelease s = .next s)) ∧
  (∀ s : State,
    (s.inputs.alarmPin = true → s.inputs.alarmStuck = false → exec .alarmStuck s = .next (raise (bump
      { s with now := max s.now (s.inputs.alarmAt.headD 0 + stuckMs s * 1000000),
               inputs := { s.inputs with alarmStuck := true } }
      boardPage 8 1) boardPage 10)) ∧
    (s.inputs.alarmPin = false ∨ s.inputs.alarmStuck = true → exec .alarmStuck s = .next s)) ∧
  (∀ s : State, endAlarm s = { (if rbit s boardPage Reg.Brd.ALARM_CTRL 0 then bump s boardPage 6 (s.now - s.inputs.alarmSince) else s) with
    inputs := { s.inputs with alarm := false, alarmPin := false, alarmStuck := false, chatter := false } })

/-- Temperature samples and trips (R525, R526). A sample goes over the dies and then the stacks, and notes the
hottest. A reading at or above the limit (920 and 840 eighths of a degree: 115.0 and 105.0 degrees) counts up to ten
in succession, the tenth trips the device, once; a lower one starts the count again. -/
def Obligations.TemperaturesAreSampled : Prop :=
  (∀ (s : State) (dies hot : List Int),
    exec (.tempSample dies hot) s = .next (
      let d := sensorDies.filterMap (fun d => (dies[d.val]?).map (fun t => (d, t)))
      let h := (List.finRange 16).filterMap (fun st => (hot[st.val]?).map (fun t => (st, t)))
      let u := if rget s thermalPage Reg.Thm.THROTTLED = 0 then s else bump s thermalPage 1 100000
      let v := d.foldl (fun s x => tripSample (sampleDieTemp s x.1 x.2) x.1.val x.2 920) u
      noteHottest (h.foldl (fun s x => tripSample (sampleStackTemp s x.1 x.2) (48 + x.1.val) x.2 840) v) d)) ∧
  (∀ (s : State) (n : Nat) (t limit : Int),
    (t < limit → tripSample s n t limit = { s with hotRuns := tset 0 s.hotRuns n 0 }) ∧
    (limit ≤ t → tget 0 s.hotRuns n < 9 → tripSample s n t limit = { s with hotRuns := tset 0 s.hotRuns n (tget 0 s.hotRuns n + 1) }) ∧
    (limit ≤ t → 9 ≤ tget 0 s.hotRuns n → s.tripped = false → tripSample s n t limit =
      trip { s with hotRuns := tset 0 s.hotRuns n (tget 0 s.hotRuns n + 1) } n t) ∧
    (s.tripped = true → ∃ k, tripSample s n t limit = { s with hotRuns := tset 0 s.hotRuns n k }))

/-- The debug clock (R503, R520). TRST_N resets the TAP. A rising edge moves its state and shifts, a falling edge
drives the output and takes up the instruction, with DEBUG deciding whether a debug port may be selected. An edge that
acts on a debug port's data register is refused as debugPort, and no edge is while another instruction is selected
(log entry 135). -/
def Obligations.DebugPortScans : Prop :=
  ∀ (s : State) (x : TapPins),
    (x.trstN = false → exec (.dbgTck x) s = .next { s with tap := Tap.reset }) ∧
    (x.trstN = true → debugEdge s.tap x.rising = false → x.rising = true →
      exec (.dbgTck x) s = .next { s with tap := tapRise s.tap x.tms x.tdi }) ∧
    (x.trstN = true → debugEdge s.tap x.rising = false → x.rising = false →
      exec (.dbgTck x) s = .next { s with tap := tapFall s.tap s.boot.debug }) ∧
    (x.trstN = true → debugEdge s.tap x.rising = true → exec (.dbgTck x) s = .refused .debugPort) ∧
    (s.tap.instr ≠ .debugPort → debugEdge s.tap x.rising = false)
end

