-- ==== Sys2Proof/Laws/Bits.lean ====
section
/-!
SUPPORT. What a bit or a field of a word reads as after a write of it or of another one.
-/
namespace Sys2Proof.Machine

/-- A bit of a word one field of which has been written. -/
theorem bit_withBits (w : Word) (hi lo v i : Nat) (h : lo ≤ hi) (hi32 : i < 32) :
    bit (withBits w hi lo v) i = if lo ≤ i ∧ i ≤ hi then v.testBit (i - lo) else bit w i := by
  have f : (0xFFFFFFFF : Nat).testBit i = true := by
    have : (0xFFFFFFFF : Nat) = 2 ^ 32 - 1 := by decide
    rw [this, Nat.testBit_two_pow_sub_one]; simpa using hi32
  unfold bit withBits
  simp only [BitVec.getLsbD_ofNat, hi32, decide_true, Bool.true_and, Nat.testBit_or, Nat.testBit_and, Nat.testBit_xor,
    Nat.testBit_shiftLeft, Nat.testBit_two_pow_sub_one, f]
  by_cases a : lo ≤ i
  · by_cases b : i ≤ hi
    · have : i - lo < hi - lo + 1 := by omega
      simp [a, b, this]
    · have : ¬ i - lo < hi - lo + 1 := by omega
      simp [a, b, this, BitVec.getLsbD]
  · simp [a, BitVec.getLsbD]

/-- A bit of a word one bit of which has been written. -/
theorem bit_withBit (w : Word) (k i : Nat) (v : Bool) (hi32 : i < 32) :
    bit (withBit w k v) i = if i = k then v else bit w i := by
  unfold withBit
  rw [bit_withBits _ _ _ _ _ (Nat.le_refl k) hi32]
  by_cases h : i = k
  · subst h; cases v <;> simp
  · have : ¬ (k ≤ i ∧ i ≤ k) := by omega
    simp [h, this]

/-- The bits of a field. -/
theorem testBit_bits (w : Word) (hi lo i : Nat) : (bits w hi lo).testBit i = (decide (i < hi - lo + 1) && bit w (lo + i)) := by
  unfold bits bit
  rw [Nat.testBit_mod_two_pow, Nat.testBit_shiftRight, BitVec.getLsbD]

/-- A field just written reads as written, cut to its width. -/
theorem bits_withBits (w : Word) (hi lo v : Nat) (h : lo ≤ hi) (h32 : hi < 32) :
    bits (withBits w hi lo v) hi lo = v % 2 ^ (hi - lo + 1) := by
  apply Nat.eq_of_testBit_eq
  intro i
  rw [testBit_bits, Nat.testBit_mod_two_pow]
  by_cases a : i < hi - lo + 1
  · rw [bit_withBits _ _ _ _ _ h (by omega)]
    have b : lo ≤ lo + i ∧ lo + i ≤ hi := by omega
    simp [b]
  · simp [a]

/-- A field that does not meet the one written reads as before. -/
theorem bits_withBits_ne (w : Word) (hi lo v hi' lo' : Nat) (h : lo ≤ hi) (h32 : hi' < 32) (hl : lo' ≤ hi')
    (d : hi' < lo ∨ hi < lo') : bits (withBits w hi lo v) hi' lo' = bits w hi' lo' := by
  apply Nat.eq_of_testBit_eq
  intro i
  rw [testBit_bits, testBit_bits]
  by_cases a : i < hi' - lo' + 1
  · rw [bit_withBits _ _ _ _ _ h (by omega)]
    have b : ¬ (lo ≤ lo' + i ∧ lo' + i ≤ hi) := by omega
    simp [b]
  · simp [a]

/-- A word made from a number below 2^32 is that number. -/
theorem toNat_wordOf (n : Nat) (h : n < 2 ^ 32) : (wordOf n).toNat = n := by
  unfold wordOf
  rw [BitVec.toNat_ofNat, Nat.mod_eq_of_lt h]

/-- A field of a word made from a number. -/
theorem bits_wordOf (n hi lo : Nat) (h : hi < 32) (hl : lo ≤ hi) : bits (wordOf n) hi lo = n / 2 ^ lo % 2 ^ (hi - lo + 1) := by
  unfold bits wordOf
  rw [BitVec.toNat_ofNat, Nat.shiftRight_eq_div_pow]
  have e : 2 ^ 32 = 2 ^ lo * (2 ^ (hi - lo + 1) * 2 ^ (31 - hi)) := by
    rw [← pow_add, ← pow_add]; congr 1; omega
  rw [e, Nat.mod_mul_right_div_self, Nat.mod_mul_right_mod]

/-- A bit of a word made from a number. -/
theorem bit_wordOf (n i : Nat) (h : i < 32) : bit (wordOf n) i = n.testBit i := by
  unfold bit wordOf
  rw [BitVec.getLsbD_ofNat]
  simp only [h, decide_true, Bool.true_and]

end Sys2Proof.Machine
end

