-- ==== Sys2Proof/Laws/Table.lean ====
section
/-!
SUPPORT. Laws of sparse tables: what is read after a write, and that a write, a filter and the empty table are in the
canonical form.
-/
namespace Sys2Proof.Machine

variable {α : Type}

/-- Writing a key and reading it gives the value written, in a table whose keys rise from `lo`. -/
theorem tget_tset_self_from [DecidableEq α] (d : Nat → α) (k : Nat) (v : α) :
    ∀ (lo : Nat) (l : List (Nat × α)), twfFrom d lo l = true → tget (d k) (tset (d k) l k v) k = v
  | _, [], _ => by by_cases h : v = d k <;> simp [tset, tget, h]
  | lo, (j, w) :: t, h => by
    simp only [twfFrom, Bool.and_eq_true, decide_eq_true_eq] at h
    by_cases h1 : k < j
    · by_cases h2 : v = d k
      · have : ¬ j = k := by omega
        simp [tset, tget, h1, h2, this]
      · simp [tset, tget, h1, h2]
    · by_cases h2 : j = k
      · subst h2
        by_cases h3 : v = d j
        · have key : ∀ (lo : Nat) (l : List (Nat × α)), twfFrom d lo l = true → j < lo → tget (d j) l j = d j := by
            intro lo l
            cases l with
            | nil => intros; rfl
            | cons x l =>
              obtain ⟨a, b⟩ := x
              intro hw hl
              simp only [twfFrom, Bool.and_eq_true, decide_eq_true_eq] at hw
              have h4 : ¬ a = j := by omega
              have h5 : j < a := by omega
              simp [tget, h4, h5]
          simp [tset, h3, key (j + 1) t h.2 (by omega)]
        · simp [tset, tget, h3]
      · simp [tset, tget, h1, h2, tget_tset_self_from d k v (j + 1) t h.2]

/-- Writing a key leaves what every other key reads. -/
theorem tget_tset_ne [DecidableEq α] (d : Nat → α) (k k' : Nat) (v : α) (hk : k' ≠ k) :
    ∀ (lo : Nat) (l : List (Nat × α)), twfFrom d lo l = true → tget (d k') (tset (d k) l k v) k' = tget (d k') l k'
  | _, [], _ => by
    by_cases h : v = d k
    · simp [tset, tget, h]
    · have : ¬ k = k' := fun e => hk e.symm
      simp [tset, tget, h, this]
  | lo, (j, w) :: t, h => by
    simp only [twfFrom, Bool.and_eq_true, decide_eq_true_eq] at h
    have hk' : ¬ k = k' := fun e => hk e.symm
    by_cases h1 : k < j
    · by_cases h2 : v = d k
      · simp [tset, h1, h2]
      · by_cases h3 : k' < k
        · have h4 : ¬ j = k' := by omega
          have h5 : k' < j := by omega
          simp [tset, tget, h1, h2, hk', h3, h4, h5]
        · simp [tset, tget, h1, h2, hk', h3]
    · by_cases h2 : j = k
      · subst h2
        have below : ∀ (lo : Nat) (l : List (Nat × α)), twfFrom d lo l = true → k' < lo → tget (d k') l k' = d k' := by
          intro lo l
          cases l with
          | nil => intros; rfl
          | cons x l =>
            obtain ⟨a, b⟩ := x
            intro hw hl
            simp only [twfFrom, Bool.and_eq_true, decide_eq_true_eq] at hw
            have h4 : ¬ a = k' := by omega
            have h5 : k' < a := by omega
            simp [tget, h4, h5]
        by_cases h3 : v = d j
        · by_cases h4 : k' < j
          · simp [tset, tget, h3, hk', h4, below (j + 1) t h.2 (by omega)]
          · simp [tset, tget, h3, hk', h4]
        · by_cases h4 : k' < j <;> simp [tset, tget, h3, hk', h4]
      · simp only [tset, h1, h2, if_false, tget]
        rw [tget_tset_ne d k k' v hk (j + 1) t h.2]

/-- A write keeps the canonical form. -/
theorem twfFrom_tset [DecidableEq α] (d : Nat → α) (k : Nat) (v : α) :
    ∀ (lo : Nat) (l : List (Nat × α)), lo ≤ k → twfFrom d lo l = true → twfFrom d lo (tset (d k) l k v) = true
  | _, [], hk, _ => by by_cases h : v = d k <;> simp [tset, twfFrom, h, hk]
  | lo, (j, w) :: t, hk, h => by
    simp only [twfFrom, Bool.and_eq_true, decide_eq_true_eq] at h
    by_cases h1 : k < j
    · by_cases h2 : v = d k
      · simp [tset, h1, h2, twfFrom, h]
      · have h3 : k + 1 ≤ j := by omega
        simp [tset, h1, h2, twfFrom, h, hk, h3]
    · by_cases h2 : j = k
      · subst h2
        by_cases h3 : v = d j
        · simp only [tset, h1, h3, if_true, if_false]
          have mono : ∀ (a b : Nat) (l : List (Nat × α)), a ≤ b → twfFrom d b l = true → twfFrom d a l = true := by
            intro a b l
            cases l with
            | nil => intros; rfl
            | cons x l =>
              obtain ⟨p, q⟩ := x
              intro hab hw
              simp only [twfFrom, Bool.and_eq_true, decide_eq_true_eq] at hw ⊢
              exact ⟨⟨by omega, hw.1.2⟩, hw.2⟩
          exact mono lo (j + 1) t (by omega) h.2
        · simp [tset, h3, twfFrom, h]
      · have := twfFrom_tset d k v (j + 1) t (by omega) h.2
        simp [tset, h1, h2, twfFrom, h, this]

/-- A table with keys from `b` on is one with keys from `a ≤ b` on. -/
theorem twfFrom_mono [DecidableEq α] (d : Nat → α) (a b : Nat) (l : List (Nat × α)) (hab : a ≤ b)
    (h : twfFrom d b l = true) : twfFrom d a l = true := by
  cases l with
  | nil => rfl
  | cons x l =>
    simp only [twfFrom, Bool.and_eq_true, decide_eq_true_eq] at h ⊢
    exact ⟨⟨by omega, h.1.2⟩, h.2⟩

/-- Dropping entries keeps the canonical form, also for other unlisted values where the entries that stay agree. -/
theorem twfFrom_filter [DecidableEq α] (d d' : Nat → α) (p : Nat × α → Bool) (hd : ∀ x, p x = true → d' x.1 = d x.1) :
    ∀ (lo : Nat) (l : List (Nat × α)), twfFrom d lo l = true → twfFrom d' lo (l.filter p) = true
  | _, [], _ => rfl
  | lo, x :: t, h => by
    simp only [twfFrom, Bool.and_eq_true, decide_eq_true_eq] at h
    have ih := twfFrom_filter d d' p hd (x.1 + 1) t h.2
    by_cases hp : p x = true
    · simp only [List.filter_cons, hp, if_true, twfFrom, Bool.and_eq_true, decide_eq_true_eq]
      exact ⟨⟨h.1.1, by rw [hd x hp]; exact h.1.2⟩, ih⟩
    · simp only [List.filter_cons, hp]
      exact twfFrom_mono d' lo (x.1 + 1) _ (by omega) ih

/-- The empty table is canonical. -/
@[simp] theorem twf_nil [DecidableEq α] (d : Nat → α) : twf d [] = true := rfl

/-- A write keeps the canonical form of a whole table. -/
theorem twf_tset [DecidableEq α] (d : Nat → α) (l : List (Nat × α)) (k : Nat) (v : α) (h : twf d l = true) :
    twf d (tset (d k) l k v) = true := twfFrom_tset d k v 0 l (Nat.zero_le _) h

/-- Reading the key just written. -/
theorem tget_tset_self [DecidableEq α] (d : Nat → α) (l : List (Nat × α)) (k : Nat) (v : α) (h : twf d l = true) :
    tget (d k) (tset (d k) l k v) k = v := tget_tset_self_from d k v 0 l h

/-- Reading another key. -/
theorem tget_tset_other [DecidableEq α] (d : Nat → α) (l : List (Nat × α)) (k k' : Nat) (v : α) (hk : k' ≠ k)
    (h : twf d l = true) : tget (d k') (tset (d k) l k v) k' = tget (d k') l k' := tget_tset_ne d k k' v hk 0 l h

/-- Reading the key just written, of an unlisted value that does not depend on the key. -/
theorem tget_tset_const [DecidableEq α] (d : α) (l : List (Nat × α)) (k : Nat) (v : α)
    (h : twf (fun _ => d) l = true) : tget d (tset d l k v) k = v := tget_tset_self (fun _ => d) l k v h

/-- Reading another key, of an unlisted value that does not depend on the key. -/
theorem tget_tset_const_ne [DecidableEq α] (d : α) (l : List (Nat × α)) (k k' : Nat) (v : α) (hk : k' ≠ k)
    (h : twf (fun _ => d) l = true) : tget d (tset d l k v) k' = tget d l k' :=
  tget_tset_other (fun _ => d) l k k' v hk h

/-- Dropping entries keeps the canonical form. -/
theorem twf_filter [DecidableEq α] (d : Nat → α) (p : Nat × α → Bool) (l : List (Nat × α)) (h : twf d l = true) :
    twf d (l.filter p) = true := twfFrom_filter d d p (fun _ _ => rfl) 0 l h

end Sys2Proof.Machine
end

