-- ==== Sys2Proof/Laws/Keeps.lean ====
section
/-!
SUPPORT. What every operation of the device keeps: the queue of waiting commands, and the invariant of the state. The
relation, its laws, and what each form of a record update needs.
-/
namespace Sys2Proof.Machine

/-! ### Tables whose keys rise -/

theorem keysRiseFrom_mono {α : Type} (a b : Nat) (l : List (Nat × α)) (hab : a ≤ b) (h : keysRiseFrom b l = true) :
    keysRiseFrom a l = true := by
  cases l with
  | nil => rfl
  | cons x l =>
    simp only [keysRiseFrom, Bool.and_eq_true, decide_eq_true_eq] at h ⊢
    exact ⟨by omega, h.2⟩

theorem keysRiseFrom_tset {α : Type} [DecidableEq α] (d : α) (k : Nat) (v : α) :
    ∀ (lo : Nat) (l : List (Nat × α)), lo ≤ k → keysRiseFrom lo l = true → keysRiseFrom lo (tset d l k v) = true
  | _, [], hk, _ => by by_cases h : v = d <;> simp [tset, keysRiseFrom, h, hk]
  | lo, (j, w) :: t, hk, h => by
    simp only [keysRiseFrom, Bool.and_eq_true, decide_eq_true_eq] at h
    by_cases h1 : k < j
    · by_cases h2 : v = d
      · simp [tset, h1, h2, keysRiseFrom, h]
      · have h3 : k + 1 ≤ j := by omega
        simp [tset, h1, h2, keysRiseFrom, h, hk, h3]
    · by_cases h2 : j = k
      · subst h2
        by_cases h3 : v = d
        · simpa [tset, h3] using keysRiseFrom_mono lo (j + 1) t (by omega) h.2
        · simp [tset, h3, keysRiseFrom, h]
      · have := keysRiseFrom_tset d k v (j + 1) t (by omega) h.2
        simp [tset, h1, h2, keysRiseFrom, h, this]

/-- A write of a table keeps its keys rising. -/
theorem keysRise_tset {α : Type} [DecidableEq α] (d : α) (l : List (Nat × α)) (k : Nat) (v : α)
    (h : keysRise l = true) : keysRise (tset d l k v) = true := keysRiseFrom_tset d k v 0 l (Nat.zero_le _) h

theorem keysRiseFrom_filter {α : Type} (p : Nat × α → Bool) :
    ∀ (lo : Nat) (l : List (Nat × α)), keysRiseFrom lo l = true → keysRiseFrom lo (l.filter p) = true
  | _, [], _ => rfl
  | lo, x :: t, h => by
    simp only [keysRiseFrom, Bool.and_eq_true, decide_eq_true_eq] at h
    have ih := keysRiseFrom_filter p (x.1 + 1) t h.2
    by_cases hp : p x = true
    · simp [List.filter_cons, hp, keysRiseFrom, h, ih]
    · simpa [List.filter_cons, hp] using keysRiseFrom_mono lo (x.1 + 1) _ (by omega) ih

/-- Dropping entries keeps the keys rising. -/
theorem keysRise_filter {α : Type} (p : Nat × α → Bool) (l : List (Nat × α)) (h : keysRise l = true) :
    keysRise (l.filter p) = true := keysRiseFrom_filter p 0 l h

theorem keysRiseFrom_map {α : Type} (f : Nat × α → Nat × α) (hf : ∀ x, (f x).1 = x.1) :
    ∀ (lo : Nat) (l : List (Nat × α)), keysRiseFrom lo l = true → keysRiseFrom lo (l.map f) = true
  | _, [], _ => rfl
  | lo, x :: t, h => by
    simp only [keysRiseFrom, Bool.and_eq_true, decide_eq_true_eq] at h
    simp [keysRiseFrom, hf, h, keysRiseFrom_map f hf (x.1 + 1) t h.2]

/-- Changing values alone keeps the keys rising. -/
theorem keysRise_map {α : Type} (f : Nat × α → Nat × α) (hf : ∀ x, (f x).1 = x.1) (l : List (Nat × α))
    (h : keysRise l = true) : keysRise (l.map f) = true := keysRiseFrom_map f hf 0 l h

/-- Reading a key just written, of a table whose keys rise. -/
theorem tget_tset_rise {α : Type} [DecidableEq α] (d : α) (k : Nat) (v : α) :
    ∀ (lo : Nat) (l : List (Nat × α)), keysRiseFrom lo l = true → tget d (tset d l k v) k = v
  | _, [], _ => by by_cases h : v = d <;> simp [tset, tget, h]
  | lo, (j, w) :: t, h => by
    simp only [keysRiseFrom, Bool.and_eq_true, decide_eq_true_eq] at h
    by_cases h1 : k < j
    · by_cases h2 : v = d
      · have : ¬ j = k := by omega
        simp [tset, tget, h1, h2, this]
      · simp [tset, tget, h1, h2]
    · by_cases h2 : j = k
      · subst h2
        by_cases h3 : v = d
        · have key : tget d t j = d := by
            cases t with
            | nil => rfl
            | cons x l =>
              have h4 := h.2
              simp only [keysRiseFrom, Bool.and_eq_true, decide_eq_true_eq] at h4
              have h5 : ¬ x.1 = j := by omega
              have h6 : j < x.1 := by omega
              obtain ⟨a, b⟩ := x
              simp_all [tget]
          simp [tset, h3, key]
        · simp [tset, tget, h3]
      · simp [tset, tget, h1, h2, tget_tset_rise d k v (j + 1) t h.2]

/-- Every entry of a table after a write is one that was there or the one written. -/
theorem all_tset {α : Type} [DecidableEq α] (p : Nat × α → Bool) (d : α) (k : Nat) (v : α) (hv : p (k, v) = true) :
    ∀ (l : List (Nat × α)), l.all p = true → (tset d l k v).all p = true
  | [], _ => by by_cases h : v = d <;> simp [tset, h, hv]
  | (j, w) :: t, h => by
    simp only [List.all_cons, Bool.and_eq_true] at h
    have ih := all_tset p d k v hv t h.2
    unfold tset
    split
    · split <;> simp [h, hv]
    · split
      · split <;> simp [h, hv]
      · simp [h, ih]

theorem all_filter {α : Type} (p q : α → Bool) (l : List α) (h : l.all p = true) : (l.filter q).all p = true := by
  simp only [List.all_eq_true, List.mem_filter] at h ⊢
  exact fun x hx => h x hx.1

/-- A value read from a table is the unlisted one or that of an entry. -/
theorem tget_all {α : Type} (p : α → Prop) (d : α) (hd : p d) (k : Nat) :
    ∀ (l : List (Nat × α)), (∀ e ∈ l, p e.2) → p (tget d l k)
  | [], _ => hd
  | (j, w) :: t, h => by
    unfold tget
    split
    · exact h (j, w) (by simp)
    · split
      · exact hd
      · exact tget_all p d hd k t (fun e he => h e (by simp [he]))

/-- Reading another key, of a table whose keys rise, with any unlisted value. -/
theorem tget_tset_rise_ne {α : Type} [DecidableEq α] (d e : α) (k j : Nat) (v : α) (hj : j ≠ k) :
    ∀ (lo : Nat) (l : List (Nat × α)), keysRiseFrom lo l = true → tget e (tset d l k v) j = tget e l j
  | _, [], _ => by
    have : k ≠ j := fun h => hj h.symm
    by_cases h : v = d <;> simp [tset, tget, h, this]
  | lo, (i, w) :: t, h => by
    simp only [keysRiseFrom, Bool.and_eq_true, decide_eq_true_eq] at h
    have hkj : k ≠ j := fun h => hj h.symm
    have low : ∀ l : List (Nat × α), keysRiseFrom (i + 1) l = true → j ≤ i → tget e l j = e := by
      intro l hl hji
      cases l with
      | nil => rfl
      | cons x l =>
        simp only [keysRiseFrom, Bool.and_eq_true, decide_eq_true_eq] at hl
        have h1 : ¬ x.1 = j := by omega
        have h2 : j < x.1 := by omega
        obtain ⟨a, b⟩ := x
        simp_all [tget]
    by_cases h1 : k < i
    · by_cases h2 : v = d
      · simp [tset, h1, h2]
      · simp only [tset, h1, h2, if_true, if_false]
        by_cases h3 : j < k
        · have h4 : ¬ i = j := by omega
          have h5 : j < i := by omega
          simp [tget, hkj, h3, h4, h5]
        · simp [tget, hkj, h3]
    · by_cases h2 : i = k
      · subst h2
        have h3 : ¬ i = j := fun h => hj h.symm
        by_cases h4 : v = d
        · simp only [tset, h4, Nat.lt_irrefl, if_true, if_false, tget, h3]
          by_cases h5 : j < i
          · simp [h5, low t h.2 (by omega)]
          · simp [h5]
        · simp [tset, tget, h4, h3]
      · have ih := tget_tset_rise_ne d e k j v hj (i + 1) t h.2
        simp only [tset, h1, h2, if_false, tget, ih]

/-! ### The relation -/

/-- A boot state without what the security block writes in service: the nonce and DEBUG. -/
def bootRest (b : Boot) : Boot := { b with nonce := none, debug := false }

theorem bootRest_phase {a b : Boot} (h : bootRest a = bootRest b) : a.phase = b.phase :=
  show (bootRest a).phase = (bootRest b).phase from congrArg Boot.phase h

/-- From `s` to `t` the queue and the phase of start-up have not changed, and the invariant is kept. -/
structure Keeps (s t : State) : Prop where
  pending : t.pending = s.pending
  boot : bootRest t.boot = bootRest s.boot
  image : t.flash.image = s.flash.image
  mono : s.Inv → ∀ k, stewardKey k = false → tget 0 s.counters k ≤ tget 0 t.counters k
  inv : s.Inv → t.Inv

/-- Start-up stands where it stood. -/
theorem Keeps.phase {s t : State} (h : Keeps s t) : t.boot.phase = s.boot.phase := bootRest_phase h.boot

/-- What a step keeps that may replace the boot image: `Keeps` but for the image. -/
structure KeepsRest (s t : State) : Prop where
  pending : t.pending = s.pending
  boot : bootRest t.boot = bootRest s.boot
  mono : s.Inv → ∀ k, stewardKey k = false → tget 0 s.counters k ≤ tget 0 t.counters k
  inv : s.Inv → t.Inv

theorem Keeps.rest {s t : State} (h : Keeps s t) : KeepsRest s t := ⟨h.pending, h.boot, h.mono, h.inv⟩

theorem KeepsRest.trans {r s t : State} (h : KeepsRest r s) (g : KeepsRest s t) : KeepsRest r t :=
  ⟨g.pending.trans h.pending, g.boot.trans h.boot,
    fun i k hk => Nat.le_trans (h.mono i k hk) (g.mono (h.inv i) k hk), fun i => g.inv (h.inv i)⟩

/-- Nothing has changed. -/
theorem Keeps.refl (s : State) : Keeps s s := ⟨rfl, rfl, rfl, fun _ _ _ => Nat.le_refl _, id⟩

theorem Keeps.trans {r s t : State} (h : Keeps r s) (g : Keeps s t) : Keeps r t :=
  ⟨g.pending.trans h.pending, g.boot.trans h.boot, g.image.trans h.image,
    fun i k hk => Nat.le_trans (h.mono i k hk) (g.mono (h.inv i) k hk), fun i => g.inv (h.inv i)⟩

/-- The state in the first place of an answer. -/
theorem Keeps.fst {α : Type} {r t : State} {x : α} {p : State × α} (h : Keeps r p.1) (e : p = (t, x)) : Keeps r t := by
  subst e; exact h

/-- A fold over a list. -/
theorem Keeps.foldl {α : Type} {r s : State} {f : State → α → State} (l : List α)
    (hf : ∀ s a, Keeps s (f s a)) (h : Keeps r s) : Keeps r (l.foldl f s) := by
  induction l generalizing s with
  | nil => exact h
  | cons a l ih => exact ih (h.trans (hf s a))

/-- A fold with a result beside the state. -/
theorem Keeps.foldlFst {α β : Type} {r : State} {x : State × β} {f : State × β → α → State × β} (l : List α)
    (hf : ∀ s b a, Keeps s (f (s, b) a).1) (h : Keeps r x.1) : Keeps r (l.foldl f x).1 := by
  induction l generalizing x with
  | nil => exact h
  | cons a l ih => exact ih (h.trans (hf x.1 x.2 a))

/-- From `s` to `t` the queue has not changed, and the invariant is kept. -/
structure Holds (s t : State) : Prop where
  pending : t.pending = s.pending
  inv : s.Inv → t.Inv

theorem Keeps.holds {s t : State} (h : Keeps s t) : Holds s t := ⟨h.pending, h.inv⟩

theorem KeepsRest.holds {s t : State} (h : KeepsRest s t) : Holds s t := ⟨h.pending, h.inv⟩

theorem Holds.trans {r s t : State} (h : Holds r s) (g : Holds s t) : Holds r t :=
  ⟨g.pending.trans h.pending, fun i => g.inv (h.inv i)⟩

theorem Holds.keeps {r s t : State} (h : Holds r s) (g : Keeps s t) : Holds r t := h.trans g.holds

theorem Keeps.getD {r s : State} {o : Option State} (h : Keeps r s) (ho : ∀ t, o = some t → Keeps r t) :
    Keeps r (o.getD s) := by
  cases o with
  | none => exact h
  | some t => exact ho t rfl

/-- A record update that leaves the queue, the memory and what its free content depends on, the counters, the semaphores
and the batons, and that keeps the keys of every table rising. -/
theorem Keeps.leaf {r s : State}
    {now : Nat} {fresh : Nat} {outputs : List Output} {regs : List (Nat × Word)} {shadows : List (Nat × Word)}
    {latched : List (Nat × Nat)} {badParity : List Nat} {larderFlips : List (Nat × BitVec 44)}
    {hbmFlips : List (Nat × BitVec 640)} {slowPoison : List Nat} {semMsgs : List SemMsg}
    {firstPoison : List (Nat × (Tag × Nat))} {fronts : List (Nat × Front)} {seeds : List (Nat × Seeds)}
    {beats : List (Nat × Nat)} {preds : List (Nat × PredLayer)} {segms : List (Nat × Segm)}
    {arrayFaults : List ArrayFault} {tables : List (Nat × (Nat × Nat))} {pendingReads : List PendingRead}
    {retiringPc : List (Nat × Nat)} {held : List HeldReq} {noticed : List Noticed} {lapse : Option (Block × Nat)} {cxlReqs : List CxlReq} {cxlXid : Nat}
    {pcCorr : List (Nat × (Nat × Nat))} {dmas : List (Nat × DmaRun)} {remotes : List RemoteReq} {xid : Nat}
    {stride : StrideM} {sync : SyncM} {routes : List (Nat × BitVec 16)} {lost : List DeviceId} {ledger : Ledger}
    {decisionMsgs : List (Nat × Decision)} {decisions : List (Nat × Decision)} {pubs : List (Nat × List PubList)}
    {pubNext : Nat} {locks : List Lock} {lockMsgs : List Lock} {oldMsgs : List (Fin 16 × HubId × Nat)}
    {unlockMsgs : List (LockHolder × HubId × Nat)} {parks : List (Nat × ParkRing)} {relays : List (Nat × Relay)}
    {sentSegs : List SentSeg} {nauloPorts : List (Nat × NauloPort)} {reported : List Nat}
    {records : List (Nat × ErrRecord)} {events : List (Nat × Nat × Tag × Nat)} {steward : Steward}
    {changes : List (Nat × PendingChange)} {relocks : List (Nat × (Nat × Nat))} {resetting : List Nat}
    {replan : Bool} {feeds : List (Nat × Feed)} {throttleUntil : Option Nat} {inputs : Inputs}
    {hotRuns : List (Nat × Nat)} {tripped : Bool} {flash : Flash} {boot : Boot} {host : HostPort}
    {resetReq : Option Nat} {tap : Tap} {trace : Trace} {cvs : List (Nat × CvChan)}
    {paths : List (Nat × PathState)}
    (h : Keeps r s)
    (hboot : bootRest boot = bootRest s.boot := by rfl)
    (himage : flash.image = s.flash.image := by rfl)
    (h_regs : keysRise s.regs = true → keysRise regs = true := by first | exact id | exact fun h => keysRise_tset _ _ _ _ h | exact fun h => keysRise_filter _ _ h | exact fun _ => rfl | exact fun h => keysRise_map _ (fun _ => rfl) _ h)
    (h_shadows : keysRise s.shadows = true → keysRise shadows = true := by first | exact id | exact fun h => keysRise_tset _ _ _ _ h | exact fun h => keysRise_filter _ _ h | exact fun _ => rfl | exact fun h => keysRise_map _ (fun _ => rfl) _ h)
    (h_latched : keysRise s.latched = true → keysRise latched = true := by first | exact id | exact fun h => keysRise_tset _ _ _ _ h | exact fun h => keysRise_filter _ _ h | exact fun _ => rfl | exact fun h => keysRise_map _ (fun _ => rfl) _ h)
    (h_fronts : keysRise s.fronts = true → keysRise fronts = true := by first | exact id | exact fun h => keysRise_tset _ _ _ _ h | exact fun h => keysRise_filter _ _ h | exact fun _ => rfl | exact fun h => keysRise_map _ (fun _ => rfl) _ h)
    (h_segms : keysRise s.segms = true → keysRise segms = true := by first | exact id | exact fun h => keysRise_tset _ _ _ _ h | exact fun h => keysRise_filter _ _ h | exact fun _ => rfl | exact fun h => keysRise_map _ (fun _ => rfl) _ h)
    (h_preds : keysRise s.preds = true → keysRise preds = true := by first | exact id | exact fun h => keysRise_tset _ _ _ _ h | exact fun h => keysRise_filter _ _ h | exact fun _ => rfl | exact fun h => keysRise_map _ (fun _ => rfl) _ h)
    (h_beats : keysRise s.beats = true → keysRise beats = true := by first | exact id | exact fun h => keysRise_tset _ _ _ _ h | exact fun h => keysRise_filter _ _ h | exact fun _ => rfl | exact fun h => keysRise_map _ (fun _ => rfl) _ h)
    (h_tables : keysRise s.tables = true → keysRise tables = true := by first | exact id | exact fun h => keysRise_tset _ _ _ _ h | exact fun h => keysRise_filter _ _ h | exact fun _ => rfl | exact fun h => keysRise_map _ (fun _ => rfl) _ h)
    (h_dmas : keysRise s.dmas = true → keysRise dmas = true := by first | exact id | exact fun h => keysRise_tset _ _ _ _ h | exact fun h => keysRise_filter _ _ h | exact fun _ => rfl | exact fun h => keysRise_map _ (fun _ => rfl) _ h)
    (h_routes : keysRise s.routes = true → keysRise routes = true := by first | exact id | exact fun h => keysRise_tset _ _ _ _ h | exact fun h => keysRise_filter _ _ h | exact fun _ => rfl | exact fun h => keysRise_map _ (fun _ => rfl) _ h)
    (h_decisions : keysRise s.decisions = true → keysRise decisions = true := by first | exact id | exact fun h => keysRise_tset _ _ _ _ h | exact fun h => keysRise_filter _ _ h | exact fun _ => rfl | exact fun h => keysRise_map _ (fun _ => rfl) _ h)
    (h_pubs : keysRise s.pubs = true → keysRise pubs = true := by first | exact id | exact fun h => keysRise_tset _ _ _ _ h | exact fun h => keysRise_filter _ _ h | exact fun _ => rfl | exact fun h => keysRise_map _ (fun _ => rfl) _ h)
    (h_parks : keysRise s.parks = true → keysRise parks = true := by first | exact id | exact fun h => keysRise_tset _ _ _ _ h | exact fun h => keysRise_filter _ _ h | exact fun _ => rfl | exact fun h => keysRise_map _ (fun _ => rfl) _ h)
    (h_relays : keysRise s.relays = true → keysRise relays = true := by first | exact id | exact fun h => keysRise_tset _ _ _ _ h | exact fun h => keysRise_filter _ _ h | exact fun _ => rfl | exact fun h => keysRise_map _ (fun _ => rfl) _ h)
    (h_nauloPorts : keysRise s.nauloPorts = true → keysRise nauloPorts = true := by first | exact id | exact fun h => keysRise_tset _ _ _ _ h | exact fun h => keysRise_filter _ _ h | exact fun _ => rfl | exact fun h => keysRise_map _ (fun _ => rfl) _ h)
    (h_changes : keysRise s.changes = true → keysRise changes = true := by first | exact id | exact fun h => keysRise_tset _ _ _ _ h | exact fun h => keysRise_filter _ _ h | exact fun _ => rfl | exact fun h => keysRise_map _ (fun _ => rfl) _ h)
    (h_relocks : keysRise s.relocks = true → keysRise relocks = true := by first | exact id | exact fun h => keysRise_tset _ _ _ _ h | exact fun h => keysRise_filter _ _ h | exact fun _ => rfl | exact fun h => keysRise_map _ (fun _ => rfl) _ h)
    (h_feeds : keysRise s.feeds = true → keysRise feeds = true := by first | exact id | exact fun h => keysRise_tset _ _ _ _ h | exact fun h => keysRise_filter _ _ h | exact fun _ => rfl | exact fun h => keysRise_map _ (fun _ => rfl) _ h)
    (h_hotRuns : keysRise s.hotRuns = true → keysRise hotRuns = true := by first | exact id | exact fun h => keysRise_tset _ _ _ _ h | exact fun h => keysRise_filter _ _ h | exact fun _ => rfl | exact fun h => keysRise_map _ (fun _ => rfl) _ h)
    (h_cvs : keysRise s.cvs = true → keysRise cvs = true := by first | exact id | exact fun h => keysRise_tset _ _ _ _ h | exact fun h => keysRise_filter _ _ h | exact fun _ => rfl | exact fun h => keysRise_map _ (fun _ => rfl) _ h)
    (h_paths : keysRise s.paths = true → keysRise paths = true := by first | exact id | exact fun h => keysRise_tset _ _ _ _ h | exact fun h => keysRise_filter _ _ h | exact fun _ => rfl | exact fun h => keysRise_map _ (fun _ => rfl) _ h)
    : Keeps r (State.mk
      s.pending now fresh outputs regs shadows s.counters latched s.mem badParity larderFlips hbmFlips slowPoison
      s.epoch s.banks s.batons semMsgs s.filling firstPoison fronts seeds beats preds segms arrayFaults tables
      pendingReads retiringPc held noticed lapse cxlReqs cxlXid pcCorr dmas remotes xid stride sync routes lost ledger decisionMsgs
      decisions pubs pubNext locks lockMsgs oldMsgs unlockMsgs parks relays sentSegs nauloPorts reported records
      events steward changes relocks resetting replan feeds throttleUntil inputs hotRuns tripped flash boot host
      resetReq tap trace cvs paths) where
  pending := h.pending
  boot := hboot.trans h.boot
  image := himage.trans h.image
  mono := h.mono
  inv i := by
    have j := h.inv i
    refine { mem := ?_, regs := h_regs j.regs, shadows := h_shadows j.shadows, latched := h_latched j.latched, fronts := h_fronts j.fronts, segms := h_segms j.segms, preds := h_preds j.preds, beats := h_beats j.beats, tables := h_tables j.tables, dmas := h_dmas j.dmas, routes := h_routes j.routes, decisions := h_decisions j.decisions, pubs := h_pubs j.pubs, parks := h_parks j.parks, relays := h_relays j.relays, nauloPorts := h_nauloPorts j.nauloPorts, changes := h_changes j.changes, relocks := h_relocks j.relocks, feeds := h_feeds j.feeds, hotRuns := h_hotRuns j.hotRuns, cvs := h_cvs j.cvs, paths := h_paths j.paths, counters := j.counters, counts := j.counts, banks := j.banks, sems := j.sems, filling := j.filling, batons := j.batons, tokens := j.tokens }
    have hu : unlistedByte (State.mk
        s.pending now fresh outputs regs shadows s.counters latched s.mem badParity larderFlips hbmFlips
        slowPoison s.epoch s.banks s.batons semMsgs s.filling firstPoison fronts seeds beats preds segms
        arrayFaults tables pendingReads retiringPc held noticed lapse cxlReqs cxlXid pcCorr dmas remotes xid stride sync routes lost
        ledger decisionMsgs decisions pubs pubNext locks lockMsgs oldMsgs unlockMsgs parks relays sentSegs
        nauloPorts reported records events steward changes relocks resetting replan feeds throttleUntil inputs
        hotRuns tripped flash boot host resetReq tap trace cvs paths) = unlistedByte s := by
      funext a
      have hphase : boot.phase = s.boot.phase := bootRest_phase hboot
      simp only [unlistedByte, hphase]
    have hm := j.mem
    unfold memWf at hm ⊢
    rw [hu]
    exact hm

/-- A state built from its fields: a name for the constructor that unification does not see through. -/
@[irreducible] def built
    (pending : List Instr) (now : Nat) (fresh : Nat) (outputs : List Output) (regs : List (Nat × Word))
    (shadows : List (Nat × Word)) (counters : List (Nat × Nat)) (latched : List (Nat × Nat))
    (mem : List Host.Cell) (badParity : List Nat) (larderFlips : List (Nat × BitVec 44))
    (hbmFlips : List (Nat × BitVec 640)) (slowPoison : List Nat) (epoch : Nat) (banks : List (Nat × SemBank))
    (batons : List (Nat × List Token)) (semMsgs : List SemMsg) (filling : List (Nat × Nat))
    (firstPoison : List (Nat × (Tag × Nat))) (fronts : List (Nat × Front)) (seeds : List (Nat × Seeds))
    (beats : List (Nat × Nat)) (preds : List (Nat × PredLayer)) (segms : List (Nat × Segm))
    (arrayFaults : List ArrayFault) (tables : List (Nat × (Nat × Nat))) (pendingReads : List PendingRead)
    (retiringPc : List (Nat × Nat)) (held : List HeldReq) (noticed : List Noticed) (lapse : Option (Block × Nat)) (cxlReqs : List CxlReq) (cxlXid : Nat)
    (pcCorr : List (Nat × (Nat × Nat))) (dmas : List (Nat × DmaRun)) (remotes : List RemoteReq) (xid : Nat)
    (stride : StrideM) (sync : SyncM) (routes : List (Nat × BitVec 16)) (lost : List DeviceId) (ledger : Ledger)
    (decisionMsgs : List (Nat × Decision)) (decisions : List (Nat × Decision)) (pubs : List (Nat × List PubList))
    (pubNext : Nat) (locks : List Lock) (lockMsgs : List Lock) (oldMsgs : List (Fin 16 × HubId × Nat))
    (unlockMsgs : List (LockHolder × HubId × Nat)) (parks : List (Nat × ParkRing)) (relays : List (Nat × Relay))
    (sentSegs : List SentSeg) (nauloPorts : List (Nat × NauloPort)) (reported : List Nat)
    (records : List (Nat × ErrRecord)) (events : List (Nat × Nat × Tag × Nat)) (steward : Steward)
    (changes : List (Nat × PendingChange)) (relocks : List (Nat × (Nat × Nat))) (resetting : List Nat)
    (replan : Bool) (feeds : List (Nat × Feed)) (throttleUntil : Option Nat) (inputs : Inputs)
    (hotRuns : List (Nat × Nat)) (tripped : Bool) (flash : Flash) (boot : Boot) (host : HostPort)
    (resetReq : Option Nat) (tap : Tap) (trace : Trace) (cvs : List (Nat × CvChan))
    (paths : List (Nat × PathState)) : State :=
  State.mk
    pending now fresh outputs regs shadows counters latched mem badParity larderFlips hbmFlips slowPoison epoch
    banks batons semMsgs filling firstPoison fronts seeds beats preds segms arrayFaults tables pendingReads
    retiringPc held noticed lapse cxlReqs cxlXid pcCorr dmas remotes xid stride sync routes lost ledger decisionMsgs decisions pubs
    pubNext locks lockMsgs oldMsgs unlockMsgs parks relays sentSegs nauloPorts reported records events steward
    changes relocks resetting replan feeds throttleUntil inputs hotRuns tripped flash boot host resetReq tap trace
    cvs paths

theorem mk_built
    (pending : List Instr) (now : Nat) (fresh : Nat) (outputs : List Output) (regs : List (Nat × Word))
    (shadows : List (Nat × Word)) (counters : List (Nat × Nat)) (latched : List (Nat × Nat))
    (mem : List Host.Cell) (badParity : List Nat) (larderFlips : List (Nat × BitVec 44))
    (hbmFlips : List (Nat × BitVec 640)) (slowPoison : List Nat) (epoch : Nat) (banks : List (Nat × SemBank))
    (batons : List (Nat × List Token)) (semMsgs : List SemMsg) (filling : List (Nat × Nat))
    (firstPoison : List (Nat × (Tag × Nat))) (fronts : List (Nat × Front)) (seeds : List (Nat × Seeds))
    (beats : List (Nat × Nat)) (preds : List (Nat × PredLayer)) (segms : List (Nat × Segm))
    (arrayFaults : List ArrayFault) (tables : List (Nat × (Nat × Nat))) (pendingReads : List PendingRead)
    (retiringPc : List (Nat × Nat)) (held : List HeldReq) (noticed : List Noticed) (lapse : Option (Block × Nat)) (cxlReqs : List CxlReq) (cxlXid : Nat)
    (pcCorr : List (Nat × (Nat × Nat))) (dmas : List (Nat × DmaRun)) (remotes : List RemoteReq) (xid : Nat)
    (stride : StrideM) (sync : SyncM) (routes : List (Nat × BitVec 16)) (lost : List DeviceId) (ledger : Ledger)
    (decisionMsgs : List (Nat × Decision)) (decisions : List (Nat × Decision)) (pubs : List (Nat × List PubList))
    (pubNext : Nat) (locks : List Lock) (lockMsgs : List Lock) (oldMsgs : List (Fin 16 × HubId × Nat))
    (unlockMsgs : List (LockHolder × HubId × Nat)) (parks : List (Nat × ParkRing)) (relays : List (Nat × Relay))
    (sentSegs : List SentSeg) (nauloPorts : List (Nat × NauloPort)) (reported : List Nat)
    (records : List (Nat × ErrRecord)) (events : List (Nat × Nat × Tag × Nat)) (steward : Steward)
    (changes : List (Nat × PendingChange)) (relocks : List (Nat × (Nat × Nat))) (resetting : List Nat)
    (replan : Bool) (feeds : List (Nat × Feed)) (throttleUntil : Option Nat) (inputs : Inputs)
    (hotRuns : List (Nat × Nat)) (tripped : Bool) (flash : Flash) (boot : Boot) (host : HostPort)
    (resetReq : Option Nat) (tap : Tap) (trace : Trace) (cvs : List (Nat × CvChan))
    (paths : List (Nat × PathState)) :
    State.mk
      pending now fresh outputs regs shadows counters latched mem badParity larderFlips hbmFlips slowPoison epoch
      banks batons semMsgs filling firstPoison fronts seeds beats preds segms arrayFaults tables pendingReads
      retiringPc held noticed lapse cxlReqs cxlXid pcCorr dmas remotes xid stride sync routes lost ledger decisionMsgs decisions pubs
      pubNext locks lockMsgs oldMsgs unlockMsgs parks relays sentSegs nauloPorts reported records events steward
      changes relocks resetting replan feeds throttleUntil inputs hotRuns tripped flash boot host resetReq tap
      trace cvs paths =
    built
      pending now fresh outputs regs shadows counters latched mem badParity larderFlips hbmFlips slowPoison epoch
      banks batons semMsgs filling firstPoison fronts seeds beats preds segms arrayFaults tables pendingReads
      retiringPc held noticed lapse cxlReqs cxlXid pcCorr dmas remotes xid stride sync routes lost ledger decisionMsgs decisions pubs
      pubNext locks lockMsgs oldMsgs unlockMsgs parks relays sentSegs nauloPorts reported records events steward
      changes relocks resetting replan feeds throttleUntil inputs hotRuns tripped flash boot host resetReq tap
      trace cvs paths := by
  unfold built
  rfl

/-- `Keeps.leaf` of a built state. -/
theorem Keeps.built {r s : State}
    {now : Nat} {fresh : Nat} {outputs : List Output} {regs : List (Nat × Word)} {shadows : List (Nat × Word)}
    {latched : List (Nat × Nat)} {badParity : List Nat} {larderFlips : List (Nat × BitVec 44)}
    {hbmFlips : List (Nat × BitVec 640)} {slowPoison : List Nat} {semMsgs : List SemMsg}
    {firstPoison : List (Nat × (Tag × Nat))} {fronts : List (Nat × Front)} {seeds : List (Nat × Seeds)}
    {beats : List (Nat × Nat)} {preds : List (Nat × PredLayer)} {segms : List (Nat × Segm)}
    {arrayFaults : List ArrayFault} {tables : List (Nat × (Nat × Nat))} {pendingReads : List PendingRead}
    {retiringPc : List (Nat × Nat)} {held : List HeldReq} {noticed : List Noticed} {lapse : Option (Block × Nat)} {cxlReqs : List CxlReq} {cxlXid : Nat}
    {pcCorr : List (Nat × (Nat × Nat))} {dmas : List (Nat × DmaRun)} {remotes : List RemoteReq} {xid : Nat}
    {stride : StrideM} {sync : SyncM} {routes : List (Nat × BitVec 16)} {lost : List DeviceId} {ledger : Ledger}
    {decisionMsgs : List (Nat × Decision)} {decisions : List (Nat × Decision)} {pubs : List (Nat × List PubList)}
    {pubNext : Nat} {locks : List Lock} {lockMsgs : List Lock} {oldMsgs : List (Fin 16 × HubId × Nat)}
    {unlockMsgs : List (LockHolder × HubId × Nat)} {parks : List (Nat × ParkRing)} {relays : List (Nat × Relay)}
    {sentSegs : List SentSeg} {nauloPorts : List (Nat × NauloPort)} {reported : List Nat}
    {records : List (Nat × ErrRecord)} {events : List (Nat × Nat × Tag × Nat)} {steward : Steward}
    {changes : List (Nat × PendingChange)} {relocks : List (Nat × (Nat × Nat))} {resetting : List Nat}
    {replan : Bool} {feeds : List (Nat × Feed)} {throttleUntil : Option Nat} {inputs : Inputs}
    {hotRuns : List (Nat × Nat)} {tripped : Bool} {flash : Flash} {boot : Boot} {host : HostPort}
    {resetReq : Option Nat} {tap : Tap} {trace : Trace} {cvs : List (Nat × CvChan)}
    {paths : List (Nat × PathState)}
    (h : Keeps r s)
    (hboot : bootRest boot = bootRest s.boot)
    (himage : flash.image = s.flash.image)
    (h_regs : keysRise s.regs = true → keysRise regs = true)
    (h_shadows : keysRise s.shadows = true → keysRise shadows = true)
    (h_latched : keysRise s.latched = true → keysRise latched = true)
    (h_fronts : keysRise s.fronts = true → keysRise fronts = true)
    (h_segms : keysRise s.segms = true → keysRise segms = true)
    (h_preds : keysRise s.preds = true → keysRise preds = true)
    (h_beats : keysRise s.beats = true → keysRise beats = true)
    (h_tables : keysRise s.tables = true → keysRise tables = true)
    (h_dmas : keysRise s.dmas = true → keysRise dmas = true)
    (h_routes : keysRise s.routes = true → keysRise routes = true)
    (h_decisions : keysRise s.decisions = true → keysRise decisions = true)
    (h_pubs : keysRise s.pubs = true → keysRise pubs = true)
    (h_parks : keysRise s.parks = true → keysRise parks = true)
    (h_relays : keysRise s.relays = true → keysRise relays = true)
    (h_nauloPorts : keysRise s.nauloPorts = true → keysRise nauloPorts = true)
    (h_changes : keysRise s.changes = true → keysRise changes = true)
    (h_relocks : keysRise s.relocks = true → keysRise relocks = true)
    (h_feeds : keysRise s.feeds = true → keysRise feeds = true)
    (h_hotRuns : keysRise s.hotRuns = true → keysRise hotRuns = true)
    (h_cvs : keysRise s.cvs = true → keysRise cvs = true)
    (h_paths : keysRise s.paths = true → keysRise paths = true)
    : Keeps r (Machine.built
      s.pending now fresh outputs regs shadows s.counters latched s.mem badParity larderFlips hbmFlips slowPoison
      s.epoch s.banks s.batons semMsgs s.filling firstPoison fronts seeds beats preds segms arrayFaults tables
      pendingReads retiringPc held noticed lapse cxlReqs cxlXid pcCorr dmas remotes xid stride sync routes lost ledger decisionMsgs
      decisions pubs pubNext locks lockMsgs oldMsgs unlockMsgs parks relays sentSegs nauloPorts reported records
      events steward changes relocks resetting replan feeds throttleUntil inputs hotRuns tripped flash boot host
      resetReq tap trace cvs paths) := by
  rw [← mk_built]
  exact Keeps.leaf h hboot himage h_regs h_shadows h_latched h_fronts h_segms h_preds h_beats h_tables h_dmas h_routes h_decisions h_pubs h_parks h_relays h_nauloPorts h_changes h_relocks h_feeds h_hotRuns h_cvs h_paths

end Sys2Proof.Machine
end

