-- ==== Sys2Proof/Laws/State.lean ====
section
/-!
SUPPORT. What the setters of the state leave as it was, field by field, and what a register or a counter reads as after a
write of it or of another one.
-/
namespace Sys2Proof.Machine

/-! ### rput -/

@[simp] theorem rput_pending (s : State) (b : Block) (off : Nat) (v : Word) :
    (rput s b off v).pending = s.pending := rfl

@[simp] theorem rput_now (s : State) (b : Block) (off : Nat) (v : Word) :
    (rput s b off v).now = s.now := rfl

@[simp] theorem rput_fresh (s : State) (b : Block) (off : Nat) (v : Word) :
    (rput s b off v).fresh = s.fresh := rfl

@[simp] theorem rput_outputs (s : State) (b : Block) (off : Nat) (v : Word) :
    (rput s b off v).outputs = s.outputs := rfl

@[simp] theorem rput_shadows (s : State) (b : Block) (off : Nat) (v : Word) :
    (rput s b off v).shadows = s.shadows := rfl

@[simp] theorem rput_counters (s : State) (b : Block) (off : Nat) (v : Word) :
    (rput s b off v).counters = s.counters := rfl

@[simp] theorem rput_latched (s : State) (b : Block) (off : Nat) (v : Word) :
    (rput s b off v).latched = s.latched := rfl

@[simp] theorem rput_mem (s : State) (b : Block) (off : Nat) (v : Word) :
    (rput s b off v).mem = s.mem := rfl

@[simp] theorem rput_badParity (s : State) (b : Block) (off : Nat) (v : Word) :
    (rput s b off v).badParity = s.badParity := rfl

@[simp] theorem rput_larderFlips (s : State) (b : Block) (off : Nat) (v : Word) :
    (rput s b off v).larderFlips = s.larderFlips := rfl

@[simp] theorem rput_hbmFlips (s : State) (b : Block) (off : Nat) (v : Word) :
    (rput s b off v).hbmFlips = s.hbmFlips := rfl

@[simp] theorem rput_slowPoison (s : State) (b : Block) (off : Nat) (v : Word) :
    (rput s b off v).slowPoison = s.slowPoison := rfl

@[simp] theorem rput_epoch (s : State) (b : Block) (off : Nat) (v : Word) :
    (rput s b off v).epoch = s.epoch := rfl

@[simp] theorem rput_banks (s : State) (b : Block) (off : Nat) (v : Word) :
    (rput s b off v).banks = s.banks := rfl

@[simp] theorem rput_batons (s : State) (b : Block) (off : Nat) (v : Word) :
    (rput s b off v).batons = s.batons := rfl

@[simp] theorem rput_semMsgs (s : State) (b : Block) (off : Nat) (v : Word) :
    (rput s b off v).semMsgs = s.semMsgs := rfl

@[simp] theorem rput_filling (s : State) (b : Block) (off : Nat) (v : Word) :
    (rput s b off v).filling = s.filling := rfl

@[simp] theorem rput_firstPoison (s : State) (b : Block) (off : Nat) (v : Word) :
    (rput s b off v).firstPoison = s.firstPoison := rfl

@[simp] theorem rput_fronts (s : State) (b : Block) (off : Nat) (v : Word) :
    (rput s b off v).fronts = s.fronts := rfl

@[simp] theorem rput_seeds (s : State) (b : Block) (off : Nat) (v : Word) :
    (rput s b off v).seeds = s.seeds := rfl

@[simp] theorem rput_beats (s : State) (b : Block) (off : Nat) (v : Word) :
    (rput s b off v).beats = s.beats := rfl

@[simp] theorem rput_preds (s : State) (b : Block) (off : Nat) (v : Word) :
    (rput s b off v).preds = s.preds := rfl

@[simp] theorem rput_segms (s : State) (b : Block) (off : Nat) (v : Word) :
    (rput s b off v).segms = s.segms := rfl

@[simp] theorem rput_arrayFaults (s : State) (b : Block) (off : Nat) (v : Word) :
    (rput s b off v).arrayFaults = s.arrayFaults := rfl

@[simp] theorem rput_tables (s : State) (b : Block) (off : Nat) (v : Word) :
    (rput s b off v).tables = s.tables := rfl

@[simp] theorem rput_pendingReads (s : State) (b : Block) (off : Nat) (v : Word) :
    (rput s b off v).pendingReads = s.pendingReads := rfl

@[simp] theorem rput_retiringPc (s : State) (b : Block) (off : Nat) (v : Word) :
    (rput s b off v).retiringPc = s.retiringPc := rfl

@[simp] theorem rput_held (s : State) (b : Block) (off : Nat) (v : Word) :
    (rput s b off v).held = s.held := rfl

@[simp] theorem rput_noticed (s : State) (b : Block) (off : Nat) (v : Word) :
    (rput s b off v).noticed = s.noticed := rfl

@[simp] theorem rput_lapse (s : State) (b : Block) (off : Nat) (v : Word) :
    (rput s b off v).lapse = s.lapse := rfl

@[simp] theorem rput_cxlReqs (s : State) (b : Block) (off : Nat) (v : Word) :
    (rput s b off v).cxlReqs = s.cxlReqs := rfl

@[simp] theorem rput_cxlXid (s : State) (b : Block) (off : Nat) (v : Word) :
    (rput s b off v).cxlXid = s.cxlXid := rfl

@[simp] theorem rput_pcCorr (s : State) (b : Block) (off : Nat) (v : Word) :
    (rput s b off v).pcCorr = s.pcCorr := rfl

@[simp] theorem rput_dmas (s : State) (b : Block) (off : Nat) (v : Word) :
    (rput s b off v).dmas = s.dmas := rfl

@[simp] theorem rput_remotes (s : State) (b : Block) (off : Nat) (v : Word) :
    (rput s b off v).remotes = s.remotes := rfl

@[simp] theorem rput_xid (s : State) (b : Block) (off : Nat) (v : Word) :
    (rput s b off v).xid = s.xid := rfl

@[simp] theorem rput_stride (s : State) (b : Block) (off : Nat) (v : Word) :
    (rput s b off v).stride = s.stride := rfl

@[simp] theorem rput_sync (s : State) (b : Block) (off : Nat) (v : Word) :
    (rput s b off v).sync = s.sync := rfl

@[simp] theorem rput_routes (s : State) (b : Block) (off : Nat) (v : Word) :
    (rput s b off v).routes = s.routes := rfl

@[simp] theorem rput_lost (s : State) (b : Block) (off : Nat) (v : Word) :
    (rput s b off v).lost = s.lost := rfl

@[simp] theorem rput_ledger (s : State) (b : Block) (off : Nat) (v : Word) :
    (rput s b off v).ledger = s.ledger := rfl

@[simp] theorem rput_decisionMsgs (s : State) (b : Block) (off : Nat) (v : Word) :
    (rput s b off v).decisionMsgs = s.decisionMsgs := rfl

@[simp] theorem rput_decisions (s : State) (b : Block) (off : Nat) (v : Word) :
    (rput s b off v).decisions = s.decisions := rfl

@[simp] theorem rput_pubs (s : State) (b : Block) (off : Nat) (v : Word) :
    (rput s b off v).pubs = s.pubs := rfl

@[simp] theorem rput_pubNext (s : State) (b : Block) (off : Nat) (v : Word) :
    (rput s b off v).pubNext = s.pubNext := rfl

@[simp] theorem rput_locks (s : State) (b : Block) (off : Nat) (v : Word) :
    (rput s b off v).locks = s.locks := rfl

@[simp] theorem rput_lockMsgs (s : State) (b : Block) (off : Nat) (v : Word) :
    (rput s b off v).lockMsgs = s.lockMsgs := rfl

@[simp] theorem rput_oldMsgs (s : State) (b : Block) (off : Nat) (v : Word) :
    (rput s b off v).oldMsgs = s.oldMsgs := rfl

@[simp] theorem rput_unlockMsgs (s : State) (b : Block) (off : Nat) (v : Word) :
    (rput s b off v).unlockMsgs = s.unlockMsgs := rfl

@[simp] theorem rput_parks (s : State) (b : Block) (off : Nat) (v : Word) :
    (rput s b off v).parks = s.parks := rfl

@[simp] theorem rput_relays (s : State) (b : Block) (off : Nat) (v : Word) :
    (rput s b off v).relays = s.relays := rfl

@[simp] theorem rput_sentSegs (s : State) (b : Block) (off : Nat) (v : Word) :
    (rput s b off v).sentSegs = s.sentSegs := rfl

@[simp] theorem rput_nauloPorts (s : State) (b : Block) (off : Nat) (v : Word) :
    (rput s b off v).nauloPorts = s.nauloPorts := rfl

@[simp] theorem rput_reported (s : State) (b : Block) (off : Nat) (v : Word) :
    (rput s b off v).reported = s.reported := rfl

@[simp] theorem rput_records (s : State) (b : Block) (off : Nat) (v : Word) :
    (rput s b off v).records = s.records := rfl

@[simp] theorem rput_events (s : State) (b : Block) (off : Nat) (v : Word) :
    (rput s b off v).events = s.events := rfl

@[simp] theorem rput_steward (s : State) (b : Block) (off : Nat) (v : Word) :
    (rput s b off v).steward = s.steward := rfl

@[simp] theorem rput_changes (s : State) (b : Block) (off : Nat) (v : Word) :
    (rput s b off v).changes = s.changes := rfl

@[simp] theorem rput_relocks (s : State) (b : Block) (off : Nat) (v : Word) :
    (rput s b off v).relocks = s.relocks := rfl

@[simp] theorem rput_resetting (s : State) (b : Block) (off : Nat) (v : Word) :
    (rput s b off v).resetting = s.resetting := rfl

@[simp] theorem rput_replan (s : State) (b : Block) (off : Nat) (v : Word) :
    (rput s b off v).replan = s.replan := rfl

@[simp] theorem rput_feeds (s : State) (b : Block) (off : Nat) (v : Word) :
    (rput s b off v).feeds = s.feeds := rfl

@[simp] theorem rput_throttleUntil (s : State) (b : Block) (off : Nat) (v : Word) :
    (rput s b off v).throttleUntil = s.throttleUntil := rfl

@[simp] theorem rput_inputs (s : State) (b : Block) (off : Nat) (v : Word) :
    (rput s b off v).inputs = s.inputs := rfl

@[simp] theorem rput_hotRuns (s : State) (b : Block) (off : Nat) (v : Word) :
    (rput s b off v).hotRuns = s.hotRuns := rfl

@[simp] theorem rput_tripped (s : State) (b : Block) (off : Nat) (v : Word) :
    (rput s b off v).tripped = s.tripped := rfl

@[simp] theorem rput_flash (s : State) (b : Block) (off : Nat) (v : Word) :
    (rput s b off v).flash = s.flash := rfl

@[simp] theorem rput_boot (s : State) (b : Block) (off : Nat) (v : Word) :
    (rput s b off v).boot = s.boot := rfl

@[simp] theorem rput_host (s : State) (b : Block) (off : Nat) (v : Word) :
    (rput s b off v).host = s.host := rfl

@[simp] theorem rput_resetReq (s : State) (b : Block) (off : Nat) (v : Word) :
    (rput s b off v).resetReq = s.resetReq := rfl

@[simp] theorem rput_tap (s : State) (b : Block) (off : Nat) (v : Word) :
    (rput s b off v).tap = s.tap := rfl

@[simp] theorem rput_trace (s : State) (b : Block) (off : Nat) (v : Word) :
    (rput s b off v).trace = s.trace := rfl

@[simp] theorem rput_cvs (s : State) (b : Block) (off : Nat) (v : Word) :
    (rput s b off v).cvs = s.cvs := rfl

@[simp] theorem rput_paths (s : State) (b : Block) (off : Nat) (v : Word) :
    (rput s b off v).paths = s.paths := rfl

/-! ### bump -/

@[simp] theorem bump_pending (s : State) (b : Block) (k n : Nat) :
    (bump s b k n).pending = s.pending := rfl

@[simp] theorem bump_now (s : State) (b : Block) (k n : Nat) :
    (bump s b k n).now = s.now := rfl

@[simp] theorem bump_fresh (s : State) (b : Block) (k n : Nat) :
    (bump s b k n).fresh = s.fresh := rfl

@[simp] theorem bump_outputs (s : State) (b : Block) (k n : Nat) :
    (bump s b k n).outputs = s.outputs := rfl

@[simp] theorem bump_regs (s : State) (b : Block) (k n : Nat) :
    (bump s b k n).regs = s.regs := rfl

@[simp] theorem bump_shadows (s : State) (b : Block) (k n : Nat) :
    (bump s b k n).shadows = s.shadows := rfl

@[simp] theorem bump_latched (s : State) (b : Block) (k n : Nat) :
    (bump s b k n).latched = s.latched := rfl

@[simp] theorem bump_mem (s : State) (b : Block) (k n : Nat) :
    (bump s b k n).mem = s.mem := rfl

@[simp] theorem bump_badParity (s : State) (b : Block) (k n : Nat) :
    (bump s b k n).badParity = s.badParity := rfl

@[simp] theorem bump_larderFlips (s : State) (b : Block) (k n : Nat) :
    (bump s b k n).larderFlips = s.larderFlips := rfl

@[simp] theorem bump_hbmFlips (s : State) (b : Block) (k n : Nat) :
    (bump s b k n).hbmFlips = s.hbmFlips := rfl

@[simp] theorem bump_slowPoison (s : State) (b : Block) (k n : Nat) :
    (bump s b k n).slowPoison = s.slowPoison := rfl

@[simp] theorem bump_epoch (s : State) (b : Block) (k n : Nat) :
    (bump s b k n).epoch = s.epoch := rfl

@[simp] theorem bump_banks (s : State) (b : Block) (k n : Nat) :
    (bump s b k n).banks = s.banks := rfl

@[simp] theorem bump_batons (s : State) (b : Block) (k n : Nat) :
    (bump s b k n).batons = s.batons := rfl

@[simp] theorem bump_semMsgs (s : State) (b : Block) (k n : Nat) :
    (bump s b k n).semMsgs = s.semMsgs := rfl

@[simp] theorem bump_filling (s : State) (b : Block) (k n : Nat) :
    (bump s b k n).filling = s.filling := rfl

@[simp] theorem bump_firstPoison (s : State) (b : Block) (k n : Nat) :
    (bump s b k n).firstPoison = s.firstPoison := rfl

@[simp] theorem bump_fronts (s : State) (b : Block) (k n : Nat) :
    (bump s b k n).fronts = s.fronts := rfl

@[simp] theorem bump_seeds (s : State) (b : Block) (k n : Nat) :
    (bump s b k n).seeds = s.seeds := rfl

@[simp] theorem bump_beats (s : State) (b : Block) (k n : Nat) :
    (bump s b k n).beats = s.beats := rfl

@[simp] theorem bump_preds (s : State) (b : Block) (k n : Nat) :
    (bump s b k n).preds = s.preds := rfl

@[simp] theorem bump_segms (s : State) (b : Block) (k n : Nat) :
    (bump s b k n).segms = s.segms := rfl

@[simp] theorem bump_arrayFaults (s : State) (b : Block) (k n : Nat) :
    (bump s b k n).arrayFaults = s.arrayFaults := rfl

@[simp] theorem bump_tables (s : State) (b : Block) (k n : Nat) :
    (bump s b k n).tables = s.tables := rfl

@[simp] theorem bump_pendingReads (s : State) (b : Block) (k n : Nat) :
    (bump s b k n).pendingReads = s.pendingReads := rfl

@[simp] theorem bump_retiringPc (s : State) (b : Block) (k n : Nat) :
    (bump s b k n).retiringPc = s.retiringPc := rfl

@[simp] theorem bump_held (s : State) (b : Block) (k n : Nat) :
    (bump s b k n).held = s.held := rfl

@[simp] theorem bump_noticed (s : State) (b : Block) (k n : Nat) :
    (bump s b k n).noticed = s.noticed := rfl

@[simp] theorem bump_lapse (s : State) (b : Block) (k n : Nat) :
    (bump s b k n).lapse = s.lapse := rfl

@[simp] theorem bump_cxlReqs (s : State) (b : Block) (k n : Nat) :
    (bump s b k n).cxlReqs = s.cxlReqs := rfl

@[simp] theorem bump_cxlXid (s : State) (b : Block) (k n : Nat) :
    (bump s b k n).cxlXid = s.cxlXid := rfl

@[simp] theorem bump_pcCorr (s : State) (b : Block) (k n : Nat) :
    (bump s b k n).pcCorr = s.pcCorr := rfl

@[simp] theorem bump_dmas (s : State) (b : Block) (k n : Nat) :
    (bump s b k n).dmas = s.dmas := rfl

@[simp] theorem bump_remotes (s : State) (b : Block) (k n : Nat) :
    (bump s b k n).remotes = s.remotes := rfl

@[simp] theorem bump_xid (s : State) (b : Block) (k n : Nat) :
    (bump s b k n).xid = s.xid := rfl

@[simp] theorem bump_stride (s : State) (b : Block) (k n : Nat) :
    (bump s b k n).stride = s.stride := rfl

@[simp] theorem bump_sync (s : State) (b : Block) (k n : Nat) :
    (bump s b k n).sync = s.sync := rfl

@[simp] theorem bump_routes (s : State) (b : Block) (k n : Nat) :
    (bump s b k n).routes = s.routes := rfl

@[simp] theorem bump_lost (s : State) (b : Block) (k n : Nat) :
    (bump s b k n).lost = s.lost := rfl

@[simp] theorem bump_ledger (s : State) (b : Block) (k n : Nat) :
    (bump s b k n).ledger = s.ledger := rfl

@[simp] theorem bump_decisionMsgs (s : State) (b : Block) (k n : Nat) :
    (bump s b k n).decisionMsgs = s.decisionMsgs := rfl

@[simp] theorem bump_decisions (s : State) (b : Block) (k n : Nat) :
    (bump s b k n).decisions = s.decisions := rfl

@[simp] theorem bump_pubs (s : State) (b : Block) (k n : Nat) :
    (bump s b k n).pubs = s.pubs := rfl

@[simp] theorem bump_pubNext (s : State) (b : Block) (k n : Nat) :
    (bump s b k n).pubNext = s.pubNext := rfl

@[simp] theorem bump_locks (s : State) (b : Block) (k n : Nat) :
    (bump s b k n).locks = s.locks := rfl

@[simp] theorem bump_lockMsgs (s : State) (b : Block) (k n : Nat) :
    (bump s b k n).lockMsgs = s.lockMsgs := rfl

@[simp] theorem bump_oldMsgs (s : State) (b : Block) (k n : Nat) :
    (bump s b k n).oldMsgs = s.oldMsgs := rfl

@[simp] theorem bump_unlockMsgs (s : State) (b : Block) (k n : Nat) :
    (bump s b k n).unlockMsgs = s.unlockMsgs := rfl

@[simp] theorem bump_parks (s : State) (b : Block) (k n : Nat) :
    (bump s b k n).parks = s.parks := rfl

@[simp] theorem bump_relays (s : State) (b : Block) (k n : Nat) :
    (bump s b k n).relays = s.relays := rfl

@[simp] theorem bump_sentSegs (s : State) (b : Block) (k n : Nat) :
    (bump s b k n).sentSegs = s.sentSegs := rfl

@[simp] theorem bump_nauloPorts (s : State) (b : Block) (k n : Nat) :
    (bump s b k n).nauloPorts = s.nauloPorts := rfl

@[simp] theorem bump_reported (s : State) (b : Block) (k n : Nat) :
    (bump s b k n).reported = s.reported := rfl

@[simp] theorem bump_records (s : State) (b : Block) (k n : Nat) :
    (bump s b k n).records = s.records := rfl

@[simp] theorem bump_events (s : State) (b : Block) (k n : Nat) :
    (bump s b k n).events = s.events := rfl

@[simp] theorem bump_steward (s : State) (b : Block) (k n : Nat) :
    (bump s b k n).steward = s.steward := rfl

@[simp] theorem bump_changes (s : State) (b : Block) (k n : Nat) :
    (bump s b k n).changes = s.changes := rfl

@[simp] theorem bump_relocks (s : State) (b : Block) (k n : Nat) :
    (bump s b k n).relocks = s.relocks := rfl

@[simp] theorem bump_resetting (s : State) (b : Block) (k n : Nat) :
    (bump s b k n).resetting = s.resetting := rfl

@[simp] theorem bump_replan (s : State) (b : Block) (k n : Nat) :
    (bump s b k n).replan = s.replan := rfl

@[simp] theorem bump_feeds (s : State) (b : Block) (k n : Nat) :
    (bump s b k n).feeds = s.feeds := rfl

@[simp] theorem bump_throttleUntil (s : State) (b : Block) (k n : Nat) :
    (bump s b k n).throttleUntil = s.throttleUntil := rfl

@[simp] theorem bump_inputs (s : State) (b : Block) (k n : Nat) :
    (bump s b k n).inputs = s.inputs := rfl

@[simp] theorem bump_hotRuns (s : State) (b : Block) (k n : Nat) :
    (bump s b k n).hotRuns = s.hotRuns := rfl

@[simp] theorem bump_tripped (s : State) (b : Block) (k n : Nat) :
    (bump s b k n).tripped = s.tripped := rfl

@[simp] theorem bump_flash (s : State) (b : Block) (k n : Nat) :
    (bump s b k n).flash = s.flash := rfl

@[simp] theorem bump_boot (s : State) (b : Block) (k n : Nat) :
    (bump s b k n).boot = s.boot := rfl

@[simp] theorem bump_host (s : State) (b : Block) (k n : Nat) :
    (bump s b k n).host = s.host := rfl

@[simp] theorem bump_resetReq (s : State) (b : Block) (k n : Nat) :
    (bump s b k n).resetReq = s.resetReq := rfl

@[simp] theorem bump_tap (s : State) (b : Block) (k n : Nat) :
    (bump s b k n).tap = s.tap := rfl

@[simp] theorem bump_trace (s : State) (b : Block) (k n : Nat) :
    (bump s b k n).trace = s.trace := rfl

@[simp] theorem bump_cvs (s : State) (b : Block) (k n : Nat) :
    (bump s b k n).cvs = s.cvs := rfl

@[simp] theorem bump_paths (s : State) (b : Block) (k n : Nat) :
    (bump s b k n).paths = s.paths := rfl

/-! ### emit -/

@[simp] theorem emit_pending (s : State) (o : Output) :
    (emit s o).pending = s.pending := rfl

@[simp] theorem emit_now (s : State) (o : Output) :
    (emit s o).now = s.now := rfl

@[simp] theorem emit_fresh (s : State) (o : Output) :
    (emit s o).fresh = s.fresh := rfl

@[simp] theorem emit_regs (s : State) (o : Output) :
    (emit s o).regs = s.regs := rfl

@[simp] theorem emit_shadows (s : State) (o : Output) :
    (emit s o).shadows = s.shadows := rfl

@[simp] theorem emit_counters (s : State) (o : Output) :
    (emit s o).counters = s.counters := rfl

@[simp] theorem emit_latched (s : State) (o : Output) :
    (emit s o).latched = s.latched := rfl

@[simp] theorem emit_mem (s : State) (o : Output) :
    (emit s o).mem = s.mem := rfl

@[simp] theorem emit_badParity (s : State) (o : Output) :
    (emit s o).badParity = s.badParity := rfl

@[simp] theorem emit_larderFlips (s : State) (o : Output) :
    (emit s o).larderFlips = s.larderFlips := rfl

@[simp] theorem emit_hbmFlips (s : State) (o : Output) :
    (emit s o).hbmFlips = s.hbmFlips := rfl

@[simp] theorem emit_slowPoison (s : State) (o : Output) :
    (emit s o).slowPoison = s.slowPoison := rfl

@[simp] theorem emit_epoch (s : State) (o : Output) :
    (emit s o).epoch = s.epoch := rfl

@[simp] theorem emit_banks (s : State) (o : Output) :
    (emit s o).banks = s.banks := rfl

@[simp] theorem emit_batons (s : State) (o : Output) :
    (emit s o).batons = s.batons := rfl

@[simp] theorem emit_semMsgs (s : State) (o : Output) :
    (emit s o).semMsgs = s.semMsgs := rfl

@[simp] theorem emit_filling (s : State) (o : Output) :
    (emit s o).filling = s.filling := rfl

@[simp] theorem emit_firstPoison (s : State) (o : Output) :
    (emit s o).firstPoison = s.firstPoison := rfl

@[simp] theorem emit_fronts (s : State) (o : Output) :
    (emit s o).fronts = s.fronts := rfl

@[simp] theorem emit_seeds (s : State) (o : Output) :
    (emit s o).seeds = s.seeds := rfl

@[simp] theorem emit_beats (s : State) (o : Output) :
    (emit s o).beats = s.beats := rfl

@[simp] theorem emit_preds (s : State) (o : Output) :
    (emit s o).preds = s.preds := rfl

@[simp] theorem emit_segms (s : State) (o : Output) :
    (emit s o).segms = s.segms := rfl

@[simp] theorem emit_arrayFaults (s : State) (o : Output) :
    (emit s o).arrayFaults = s.arrayFaults := rfl

@[simp] theorem emit_tables (s : State) (o : Output) :
    (emit s o).tables = s.tables := rfl

@[simp] theorem emit_pendingReads (s : State) (o : Output) :
    (emit s o).pendingReads = s.pendingReads := rfl

@[simp] theorem emit_retiringPc (s : State) (o : Output) :
    (emit s o).retiringPc = s.retiringPc := rfl

@[simp] theorem emit_held (s : State) (o : Output) :
    (emit s o).held = s.held := rfl

@[simp] theorem emit_noticed (s : State) (o : Output) :
    (emit s o).noticed = s.noticed := rfl

@[simp] theorem emit_lapse (s : State) (o : Output) :
    (emit s o).lapse = s.lapse := rfl

@[simp] theorem emit_cxlReqs (s : State) (o : Output) :
    (emit s o).cxlReqs = s.cxlReqs := rfl

@[simp] theorem emit_cxlXid (s : State) (o : Output) :
    (emit s o).cxlXid = s.cxlXid := rfl

@[simp] theorem emit_pcCorr (s : State) (o : Output) :
    (emit s o).pcCorr = s.pcCorr := rfl

@[simp] theorem emit_dmas (s : State) (o : Output) :
    (emit s o).dmas = s.dmas := rfl

@[simp] theorem emit_remotes (s : State) (o : Output) :
    (emit s o).remotes = s.remotes := rfl

@[simp] theorem emit_xid (s : State) (o : Output) :
    (emit s o).xid = s.xid := rfl

@[simp] theorem emit_stride (s : State) (o : Output) :
    (emit s o).stride = s.stride := rfl

@[simp] theorem emit_sync (s : State) (o : Output) :
    (emit s o).sync = s.sync := rfl

@[simp] theorem emit_routes (s : State) (o : Output) :
    (emit s o).routes = s.routes := rfl

@[simp] theorem emit_lost (s : State) (o : Output) :
    (emit s o).lost = s.lost := rfl

@[simp] theorem emit_ledger (s : State) (o : Output) :
    (emit s o).ledger = s.ledger := rfl

@[simp] theorem emit_decisionMsgs (s : State) (o : Output) :
    (emit s o).decisionMsgs = s.decisionMsgs := rfl

@[simp] theorem emit_decisions (s : State) (o : Output) :
    (emit s o).decisions = s.decisions := rfl

@[simp] theorem emit_pubs (s : State) (o : Output) :
    (emit s o).pubs = s.pubs := rfl

@[simp] theorem emit_pubNext (s : State) (o : Output) :
    (emit s o).pubNext = s.pubNext := rfl

@[simp] theorem emit_locks (s : State) (o : Output) :
    (emit s o).locks = s.locks := rfl

@[simp] theorem emit_lockMsgs (s : State) (o : Output) :
    (emit s o).lockMsgs = s.lockMsgs := rfl

@[simp] theorem emit_oldMsgs (s : State) (o : Output) :
    (emit s o).oldMsgs = s.oldMsgs := rfl

@[simp] theorem emit_unlockMsgs (s : State) (o : Output) :
    (emit s o).unlockMsgs = s.unlockMsgs := rfl

@[simp] theorem emit_parks (s : State) (o : Output) :
    (emit s o).parks = s.parks := rfl

@[simp] theorem emit_relays (s : State) (o : Output) :
    (emit s o).relays = s.relays := rfl

@[simp] theorem emit_sentSegs (s : State) (o : Output) :
    (emit s o).sentSegs = s.sentSegs := rfl

@[simp] theorem emit_nauloPorts (s : State) (o : Output) :
    (emit s o).nauloPorts = s.nauloPorts := rfl

@[simp] theorem emit_reported (s : State) (o : Output) :
    (emit s o).reported = s.reported := rfl

@[simp] theorem emit_records (s : State) (o : Output) :
    (emit s o).records = s.records := rfl

@[simp] theorem emit_events (s : State) (o : Output) :
    (emit s o).events = s.events := rfl

@[simp] theorem emit_steward (s : State) (o : Output) :
    (emit s o).steward = s.steward := rfl

@[simp] theorem emit_changes (s : State) (o : Output) :
    (emit s o).changes = s.changes := rfl

@[simp] theorem emit_relocks (s : State) (o : Output) :
    (emit s o).relocks = s.relocks := rfl

@[simp] theorem emit_resetting (s : State) (o : Output) :
    (emit s o).resetting = s.resetting := rfl

@[simp] theorem emit_replan (s : State) (o : Output) :
    (emit s o).replan = s.replan := rfl

@[simp] theorem emit_feeds (s : State) (o : Output) :
    (emit s o).feeds = s.feeds := rfl

@[simp] theorem emit_throttleUntil (s : State) (o : Output) :
    (emit s o).throttleUntil = s.throttleUntil := rfl

@[simp] theorem emit_inputs (s : State) (o : Output) :
    (emit s o).inputs = s.inputs := rfl

@[simp] theorem emit_hotRuns (s : State) (o : Output) :
    (emit s o).hotRuns = s.hotRuns := rfl

@[simp] theorem emit_tripped (s : State) (o : Output) :
    (emit s o).tripped = s.tripped := rfl

@[simp] theorem emit_flash (s : State) (o : Output) :
    (emit s o).flash = s.flash := rfl

@[simp] theorem emit_boot (s : State) (o : Output) :
    (emit s o).boot = s.boot := rfl

@[simp] theorem emit_host (s : State) (o : Output) :
    (emit s o).host = s.host := rfl

@[simp] theorem emit_resetReq (s : State) (o : Output) :
    (emit s o).resetReq = s.resetReq := rfl

@[simp] theorem emit_tap (s : State) (o : Output) :
    (emit s o).tap = s.tap := rfl

@[simp] theorem emit_trace (s : State) (o : Output) :
    (emit s o).trace = s.trace := rfl

@[simp] theorem emit_cvs (s : State) (o : Output) :
    (emit s o).cvs = s.cvs := rfl

@[simp] theorem emit_paths (s : State) (o : Output) :
    (emit s o).paths = s.paths := rfl

/-! ### putFront -/

@[simp] theorem putFront_pending (s : State) (f : FrontId) (v : Front) :
    (putFront s f v).pending = s.pending := rfl

@[simp] theorem putFront_now (s : State) (f : FrontId) (v : Front) :
    (putFront s f v).now = s.now := rfl

@[simp] theorem putFront_fresh (s : State) (f : FrontId) (v : Front) :
    (putFront s f v).fresh = s.fresh := rfl

@[simp] theorem putFront_outputs (s : State) (f : FrontId) (v : Front) :
    (putFront s f v).outputs = s.outputs := rfl

@[simp] theorem putFront_regs (s : State) (f : FrontId) (v : Front) :
    (putFront s f v).regs = s.regs := rfl

@[simp] theorem putFront_shadows (s : State) (f : FrontId) (v : Front) :
    (putFront s f v).shadows = s.shadows := rfl

@[simp] theorem putFront_counters (s : State) (f : FrontId) (v : Front) :
    (putFront s f v).counters = s.counters := rfl

@[simp] theorem putFront_latched (s : State) (f : FrontId) (v : Front) :
    (putFront s f v).latched = s.latched := rfl

@[simp] theorem putFront_mem (s : State) (f : FrontId) (v : Front) :
    (putFront s f v).mem = s.mem := rfl

@[simp] theorem putFront_badParity (s : State) (f : FrontId) (v : Front) :
    (putFront s f v).badParity = s.badParity := rfl

@[simp] theorem putFront_larderFlips (s : State) (f : FrontId) (v : Front) :
    (putFront s f v).larderFlips = s.larderFlips := rfl

@[simp] theorem putFront_hbmFlips (s : State) (f : FrontId) (v : Front) :
    (putFront s f v).hbmFlips = s.hbmFlips := rfl

@[simp] theorem putFront_slowPoison (s : State) (f : FrontId) (v : Front) :
    (putFront s f v).slowPoison = s.slowPoison := rfl

@[simp] theorem putFront_epoch (s : State) (f : FrontId) (v : Front) :
    (putFront s f v).epoch = s.epoch := rfl

@[simp] theorem putFront_banks (s : State) (f : FrontId) (v : Front) :
    (putFront s f v).banks = s.banks := rfl

@[simp] theorem putFront_batons (s : State) (f : FrontId) (v : Front) :
    (putFront s f v).batons = s.batons := rfl

@[simp] theorem putFront_semMsgs (s : State) (f : FrontId) (v : Front) :
    (putFront s f v).semMsgs = s.semMsgs := rfl

@[simp] theorem putFront_filling (s : State) (f : FrontId) (v : Front) :
    (putFront s f v).filling = s.filling := rfl

@[simp] theorem putFront_firstPoison (s : State) (f : FrontId) (v : Front) :
    (putFront s f v).firstPoison = s.firstPoison := rfl

@[simp] theorem putFront_seeds (s : State) (f : FrontId) (v : Front) :
    (putFront s f v).seeds = s.seeds := rfl

@[simp] theorem putFront_beats (s : State) (f : FrontId) (v : Front) :
    (putFront s f v).beats = s.beats := rfl

@[simp] theorem putFront_preds (s : State) (f : FrontId) (v : Front) :
    (putFront s f v).preds = s.preds := rfl

@[simp] theorem putFront_segms (s : State) (f : FrontId) (v : Front) :
    (putFront s f v).segms = s.segms := rfl

@[simp] theorem putFront_arrayFaults (s : State) (f : FrontId) (v : Front) :
    (putFront s f v).arrayFaults = s.arrayFaults := rfl

@[simp] theorem putFront_tables (s : State) (f : FrontId) (v : Front) :
    (putFront s f v).tables = s.tables := rfl

@[simp] theorem putFront_pendingReads (s : State) (f : FrontId) (v : Front) :
    (putFront s f v).pendingReads = s.pendingReads := rfl

@[simp] theorem putFront_retiringPc (s : State) (f : FrontId) (v : Front) :
    (putFront s f v).retiringPc = s.retiringPc := rfl

@[simp] theorem putFront_held (s : State) (f : FrontId) (v : Front) :
    (putFront s f v).held = s.held := rfl

@[simp] theorem putFront_noticed (s : State) (f : FrontId) (v : Front) :
    (putFront s f v).noticed = s.noticed := rfl

@[simp] theorem putFront_lapse (s : State) (f : FrontId) (v : Front) :
    (putFront s f v).lapse = s.lapse := rfl

@[simp] theorem putFront_cxlReqs (s : State) (f : FrontId) (v : Front) :
    (putFront s f v).cxlReqs = s.cxlReqs := rfl

@[simp] theorem putFront_cxlXid (s : State) (f : FrontId) (v : Front) :
    (putFront s f v).cxlXid = s.cxlXid := rfl

@[simp] theorem putFront_pcCorr (s : State) (f : FrontId) (v : Front) :
    (putFront s f v).pcCorr = s.pcCorr := rfl

@[simp] theorem putFront_dmas (s : State) (f : FrontId) (v : Front) :
    (putFront s f v).dmas = s.dmas := rfl

@[simp] theorem putFront_remotes (s : State) (f : FrontId) (v : Front) :
    (putFront s f v).remotes = s.remotes := rfl

@[simp] theorem putFront_xid (s : State) (f : FrontId) (v : Front) :
    (putFront s f v).xid = s.xid := rfl

@[simp] theorem putFront_stride (s : State) (f : FrontId) (v : Front) :
    (putFront s f v).stride = s.stride := rfl

@[simp] theorem putFront_sync (s : State) (f : FrontId) (v : Front) :
    (putFront s f v).sync = s.sync := rfl

@[simp] theorem putFront_routes (s : State) (f : FrontId) (v : Front) :
    (putFront s f v).routes = s.routes := rfl

@[simp] theorem putFront_lost (s : State) (f : FrontId) (v : Front) :
    (putFront s f v).lost = s.lost := rfl

@[simp] theorem putFront_ledger (s : State) (f : FrontId) (v : Front) :
    (putFront s f v).ledger = s.ledger := rfl

@[simp] theorem putFront_decisionMsgs (s : State) (f : FrontId) (v : Front) :
    (putFront s f v).decisionMsgs = s.decisionMsgs := rfl

@[simp] theorem putFront_decisions (s : State) (f : FrontId) (v : Front) :
    (putFront s f v).decisions = s.decisions := rfl

@[simp] theorem putFront_pubs (s : State) (f : FrontId) (v : Front) :
    (putFront s f v).pubs = s.pubs := rfl

@[simp] theorem putFront_pubNext (s : State) (f : FrontId) (v : Front) :
    (putFront s f v).pubNext = s.pubNext := rfl

@[simp] theorem putFront_locks (s : State) (f : FrontId) (v : Front) :
    (putFront s f v).locks = s.locks := rfl

@[simp] theorem putFront_lockMsgs (s : State) (f : FrontId) (v : Front) :
    (putFront s f v).lockMsgs = s.lockMsgs := rfl

@[simp] theorem putFront_oldMsgs (s : State) (f : FrontId) (v : Front) :
    (putFront s f v).oldMsgs = s.oldMsgs := rfl

@[simp] theorem putFront_unlockMsgs (s : State) (f : FrontId) (v : Front) :
    (putFront s f v).unlockMsgs = s.unlockMsgs := rfl

@[simp] theorem putFront_parks (s : State) (f : FrontId) (v : Front) :
    (putFront s f v).parks = s.parks := rfl

@[simp] theorem putFront_relays (s : State) (f : FrontId) (v : Front) :
    (putFront s f v).relays = s.relays := rfl

@[simp] theorem putFront_sentSegs (s : State) (f : FrontId) (v : Front) :
    (putFront s f v).sentSegs = s.sentSegs := rfl

@[simp] theorem putFront_nauloPorts (s : State) (f : FrontId) (v : Front) :
    (putFront s f v).nauloPorts = s.nauloPorts := rfl

@[simp] theorem putFront_reported (s : State) (f : FrontId) (v : Front) :
    (putFront s f v).reported = s.reported := rfl

@[simp] theorem putFront_records (s : State) (f : FrontId) (v : Front) :
    (putFront s f v).records = s.records := rfl

@[simp] theorem putFront_events (s : State) (f : FrontId) (v : Front) :
    (putFront s f v).events = s.events := rfl

@[simp] theorem putFront_steward (s : State) (f : FrontId) (v : Front) :
    (putFront s f v).steward = s.steward := rfl

@[simp] theorem putFront_changes (s : State) (f : FrontId) (v : Front) :
    (putFront s f v).changes = s.changes := rfl

@[simp] theorem putFront_relocks (s : State) (f : FrontId) (v : Front) :
    (putFront s f v).relocks = s.relocks := rfl

@[simp] theorem putFront_resetting (s : State) (f : FrontId) (v : Front) :
    (putFront s f v).resetting = s.resetting := rfl

@[simp] theorem putFront_replan (s : State) (f : FrontId) (v : Front) :
    (putFront s f v).replan = s.replan := rfl

@[simp] theorem putFront_feeds (s : State) (f : FrontId) (v : Front) :
    (putFront s f v).feeds = s.feeds := rfl

@[simp] theorem putFront_throttleUntil (s : State) (f : FrontId) (v : Front) :
    (putFront s f v).throttleUntil = s.throttleUntil := rfl

@[simp] theorem putFront_inputs (s : State) (f : FrontId) (v : Front) :
    (putFront s f v).inputs = s.inputs := rfl

@[simp] theorem putFront_hotRuns (s : State) (f : FrontId) (v : Front) :
    (putFront s f v).hotRuns = s.hotRuns := rfl

@[simp] theorem putFront_tripped (s : State) (f : FrontId) (v : Front) :
    (putFront s f v).tripped = s.tripped := rfl

@[simp] theorem putFront_flash (s : State) (f : FrontId) (v : Front) :
    (putFront s f v).flash = s.flash := rfl

@[simp] theorem putFront_boot (s : State) (f : FrontId) (v : Front) :
    (putFront s f v).boot = s.boot := rfl

@[simp] theorem putFront_host (s : State) (f : FrontId) (v : Front) :
    (putFront s f v).host = s.host := rfl

@[simp] theorem putFront_resetReq (s : State) (f : FrontId) (v : Front) :
    (putFront s f v).resetReq = s.resetReq := rfl

@[simp] theorem putFront_tap (s : State) (f : FrontId) (v : Front) :
    (putFront s f v).tap = s.tap := rfl

@[simp] theorem putFront_trace (s : State) (f : FrontId) (v : Front) :
    (putFront s f v).trace = s.trace := rfl

@[simp] theorem putFront_cvs (s : State) (f : FrontId) (v : Front) :
    (putFront s f v).cvs = s.cvs := rfl

@[simp] theorem putFront_paths (s : State) (f : FrontId) (v : Front) :
    (putFront s f v).paths = s.paths := rfl

/-! ### putSlot -/

@[simp] theorem putSlot_pending (s : State) (f : FrontId) (x : Slot) :
    (putSlot s f x).pending = s.pending := rfl

@[simp] theorem putSlot_now (s : State) (f : FrontId) (x : Slot) :
    (putSlot s f x).now = s.now := rfl

@[simp] theorem putSlot_fresh (s : State) (f : FrontId) (x : Slot) :
    (putSlot s f x).fresh = s.fresh := rfl

@[simp] theorem putSlot_outputs (s : State) (f : FrontId) (x : Slot) :
    (putSlot s f x).outputs = s.outputs := rfl

@[simp] theorem putSlot_regs (s : State) (f : FrontId) (x : Slot) :
    (putSlot s f x).regs = s.regs := rfl

@[simp] theorem putSlot_shadows (s : State) (f : FrontId) (x : Slot) :
    (putSlot s f x).shadows = s.shadows := rfl

@[simp] theorem putSlot_counters (s : State) (f : FrontId) (x : Slot) :
    (putSlot s f x).counters = s.counters := rfl

@[simp] theorem putSlot_latched (s : State) (f : FrontId) (x : Slot) :
    (putSlot s f x).latched = s.latched := rfl

@[simp] theorem putSlot_mem (s : State) (f : FrontId) (x : Slot) :
    (putSlot s f x).mem = s.mem := rfl

@[simp] theorem putSlot_badParity (s : State) (f : FrontId) (x : Slot) :
    (putSlot s f x).badParity = s.badParity := rfl

@[simp] theorem putSlot_larderFlips (s : State) (f : FrontId) (x : Slot) :
    (putSlot s f x).larderFlips = s.larderFlips := rfl

@[simp] theorem putSlot_hbmFlips (s : State) (f : FrontId) (x : Slot) :
    (putSlot s f x).hbmFlips = s.hbmFlips := rfl

@[simp] theorem putSlot_slowPoison (s : State) (f : FrontId) (x : Slot) :
    (putSlot s f x).slowPoison = s.slowPoison := rfl

@[simp] theorem putSlot_epoch (s : State) (f : FrontId) (x : Slot) :
    (putSlot s f x).epoch = s.epoch := rfl

@[simp] theorem putSlot_banks (s : State) (f : FrontId) (x : Slot) :
    (putSlot s f x).banks = s.banks := rfl

@[simp] theorem putSlot_batons (s : State) (f : FrontId) (x : Slot) :
    (putSlot s f x).batons = s.batons := rfl

@[simp] theorem putSlot_semMsgs (s : State) (f : FrontId) (x : Slot) :
    (putSlot s f x).semMsgs = s.semMsgs := rfl

@[simp] theorem putSlot_filling (s : State) (f : FrontId) (x : Slot) :
    (putSlot s f x).filling = s.filling := rfl

@[simp] theorem putSlot_firstPoison (s : State) (f : FrontId) (x : Slot) :
    (putSlot s f x).firstPoison = s.firstPoison := rfl

@[simp] theorem putSlot_seeds (s : State) (f : FrontId) (x : Slot) :
    (putSlot s f x).seeds = s.seeds := rfl

@[simp] theorem putSlot_beats (s : State) (f : FrontId) (x : Slot) :
    (putSlot s f x).beats = s.beats := rfl

@[simp] theorem putSlot_preds (s : State) (f : FrontId) (x : Slot) :
    (putSlot s f x).preds = s.preds := rfl

@[simp] theorem putSlot_segms (s : State) (f : FrontId) (x : Slot) :
    (putSlot s f x).segms = s.segms := rfl

@[simp] theorem putSlot_arrayFaults (s : State) (f : FrontId) (x : Slot) :
    (putSlot s f x).arrayFaults = s.arrayFaults := rfl

@[simp] theorem putSlot_tables (s : State) (f : FrontId) (x : Slot) :
    (putSlot s f x).tables = s.tables := rfl

@[simp] theorem putSlot_pendingReads (s : State) (f : FrontId) (x : Slot) :
    (putSlot s f x).pendingReads = s.pendingReads := rfl

@[simp] theorem putSlot_retiringPc (s : State) (f : FrontId) (x : Slot) :
    (putSlot s f x).retiringPc = s.retiringPc := rfl

@[simp] theorem putSlot_held (s : State) (f : FrontId) (x : Slot) :
    (putSlot s f x).held = s.held := rfl

@[simp] theorem putSlot_noticed (s : State) (f : FrontId) (x : Slot) :
    (putSlot s f x).noticed = s.noticed := rfl

@[simp] theorem putSlot_lapse (s : State) (f : FrontId) (x : Slot) :
    (putSlot s f x).lapse = s.lapse := rfl

@[simp] theorem putSlot_cxlReqs (s : State) (f : FrontId) (x : Slot) :
    (putSlot s f x).cxlReqs = s.cxlReqs := rfl

@[simp] theorem putSlot_cxlXid (s : State) (f : FrontId) (x : Slot) :
    (putSlot s f x).cxlXid = s.cxlXid := rfl

@[simp] theorem putSlot_pcCorr (s : State) (f : FrontId) (x : Slot) :
    (putSlot s f x).pcCorr = s.pcCorr := rfl

@[simp] theorem putSlot_dmas (s : State) (f : FrontId) (x : Slot) :
    (putSlot s f x).dmas = s.dmas := rfl

@[simp] theorem putSlot_remotes (s : State) (f : FrontId) (x : Slot) :
    (putSlot s f x).remotes = s.remotes := rfl

@[simp] theorem putSlot_xid (s : State) (f : FrontId) (x : Slot) :
    (putSlot s f x).xid = s.xid := rfl

@[simp] theorem putSlot_stride (s : State) (f : FrontId) (x : Slot) :
    (putSlot s f x).stride = s.stride := rfl

@[simp] theorem putSlot_sync (s : State) (f : FrontId) (x : Slot) :
    (putSlot s f x).sync = s.sync := rfl

@[simp] theorem putSlot_routes (s : State) (f : FrontId) (x : Slot) :
    (putSlot s f x).routes = s.routes := rfl

@[simp] theorem putSlot_lost (s : State) (f : FrontId) (x : Slot) :
    (putSlot s f x).lost = s.lost := rfl

@[simp] theorem putSlot_ledger (s : State) (f : FrontId) (x : Slot) :
    (putSlot s f x).ledger = s.ledger := rfl

@[simp] theorem putSlot_decisionMsgs (s : State) (f : FrontId) (x : Slot) :
    (putSlot s f x).decisionMsgs = s.decisionMsgs := rfl

@[simp] theorem putSlot_decisions (s : State) (f : FrontId) (x : Slot) :
    (putSlot s f x).decisions = s.decisions := rfl

@[simp] theorem putSlot_pubs (s : State) (f : FrontId) (x : Slot) :
    (putSlot s f x).pubs = s.pubs := rfl

@[simp] theorem putSlot_pubNext (s : State) (f : FrontId) (x : Slot) :
    (putSlot s f x).pubNext = s.pubNext := rfl

@[simp] theorem putSlot_locks (s : State) (f : FrontId) (x : Slot) :
    (putSlot s f x).locks = s.locks := rfl

@[simp] theorem putSlot_lockMsgs (s : State) (f : FrontId) (x : Slot) :
    (putSlot s f x).lockMsgs = s.lockMsgs := rfl

@[simp] theorem putSlot_oldMsgs (s : State) (f : FrontId) (x : Slot) :
    (putSlot s f x).oldMsgs = s.oldMsgs := rfl

@[simp] theorem putSlot_unlockMsgs (s : State) (f : FrontId) (x : Slot) :
    (putSlot s f x).unlockMsgs = s.unlockMsgs := rfl

@[simp] theorem putSlot_parks (s : State) (f : FrontId) (x : Slot) :
    (putSlot s f x).parks = s.parks := rfl

@[simp] theorem putSlot_relays (s : State) (f : FrontId) (x : Slot) :
    (putSlot s f x).relays = s.relays := rfl

@[simp] theorem putSlot_sentSegs (s : State) (f : FrontId) (x : Slot) :
    (putSlot s f x).sentSegs = s.sentSegs := rfl

@[simp] theorem putSlot_nauloPorts (s : State) (f : FrontId) (x : Slot) :
    (putSlot s f x).nauloPorts = s.nauloPorts := rfl

@[simp] theorem putSlot_reported (s : State) (f : FrontId) (x : Slot) :
    (putSlot s f x).reported = s.reported := rfl

@[simp] theorem putSlot_records (s : State) (f : FrontId) (x : Slot) :
    (putSlot s f x).records = s.records := rfl

@[simp] theorem putSlot_events (s : State) (f : FrontId) (x : Slot) :
    (putSlot s f x).events = s.events := rfl

@[simp] theorem putSlot_steward (s : State) (f : FrontId) (x : Slot) :
    (putSlot s f x).steward = s.steward := rfl

@[simp] theorem putSlot_changes (s : State) (f : FrontId) (x : Slot) :
    (putSlot s f x).changes = s.changes := rfl

@[simp] theorem putSlot_relocks (s : State) (f : FrontId) (x : Slot) :
    (putSlot s f x).relocks = s.relocks := rfl

@[simp] theorem putSlot_resetting (s : State) (f : FrontId) (x : Slot) :
    (putSlot s f x).resetting = s.resetting := rfl

@[simp] theorem putSlot_replan (s : State) (f : FrontId) (x : Slot) :
    (putSlot s f x).replan = s.replan := rfl

@[simp] theorem putSlot_feeds (s : State) (f : FrontId) (x : Slot) :
    (putSlot s f x).feeds = s.feeds := rfl

@[simp] theorem putSlot_throttleUntil (s : State) (f : FrontId) (x : Slot) :
    (putSlot s f x).throttleUntil = s.throttleUntil := rfl

@[simp] theorem putSlot_inputs (s : State) (f : FrontId) (x : Slot) :
    (putSlot s f x).inputs = s.inputs := rfl

@[simp] theorem putSlot_hotRuns (s : State) (f : FrontId) (x : Slot) :
    (putSlot s f x).hotRuns = s.hotRuns := rfl

@[simp] theorem putSlot_tripped (s : State) (f : FrontId) (x : Slot) :
    (putSlot s f x).tripped = s.tripped := rfl

@[simp] theorem putSlot_flash (s : State) (f : FrontId) (x : Slot) :
    (putSlot s f x).flash = s.flash := rfl

@[simp] theorem putSlot_boot (s : State) (f : FrontId) (x : Slot) :
    (putSlot s f x).boot = s.boot := rfl

@[simp] theorem putSlot_host (s : State) (f : FrontId) (x : Slot) :
    (putSlot s f x).host = s.host := rfl

@[simp] theorem putSlot_resetReq (s : State) (f : FrontId) (x : Slot) :
    (putSlot s f x).resetReq = s.resetReq := rfl

@[simp] theorem putSlot_tap (s : State) (f : FrontId) (x : Slot) :
    (putSlot s f x).tap = s.tap := rfl

@[simp] theorem putSlot_trace (s : State) (f : FrontId) (x : Slot) :
    (putSlot s f x).trace = s.trace := rfl

@[simp] theorem putSlot_cvs (s : State) (f : FrontId) (x : Slot) :
    (putSlot s f x).cvs = s.cvs := rfl

@[simp] theorem putSlot_paths (s : State) (f : FrontId) (x : Slot) :
    (putSlot s f x).paths = s.paths := rfl

/-! ### putSem -/

@[simp] theorem putSem_pending (s : State) (f : FrontId) (i : Nat) (v : Sem) :
    (putSem s f i v).pending = s.pending := rfl

@[simp] theorem putSem_now (s : State) (f : FrontId) (i : Nat) (v : Sem) :
    (putSem s f i v).now = s.now := rfl

@[simp] theorem putSem_fresh (s : State) (f : FrontId) (i : Nat) (v : Sem) :
    (putSem s f i v).fresh = s.fresh := rfl

@[simp] theorem putSem_outputs (s : State) (f : FrontId) (i : Nat) (v : Sem) :
    (putSem s f i v).outputs = s.outputs := rfl

@[simp] theorem putSem_regs (s : State) (f : FrontId) (i : Nat) (v : Sem) :
    (putSem s f i v).regs = s.regs := rfl

@[simp] theorem putSem_shadows (s : State) (f : FrontId) (i : Nat) (v : Sem) :
    (putSem s f i v).shadows = s.shadows := rfl

@[simp] theorem putSem_counters (s : State) (f : FrontId) (i : Nat) (v : Sem) :
    (putSem s f i v).counters = s.counters := rfl

@[simp] theorem putSem_latched (s : State) (f : FrontId) (i : Nat) (v : Sem) :
    (putSem s f i v).latched = s.latched := rfl

@[simp] theorem putSem_mem (s : State) (f : FrontId) (i : Nat) (v : Sem) :
    (putSem s f i v).mem = s.mem := rfl

@[simp] theorem putSem_badParity (s : State) (f : FrontId) (i : Nat) (v : Sem) :
    (putSem s f i v).badParity = s.badParity := rfl

@[simp] theorem putSem_larderFlips (s : State) (f : FrontId) (i : Nat) (v : Sem) :
    (putSem s f i v).larderFlips = s.larderFlips := rfl

@[simp] theorem putSem_hbmFlips (s : State) (f : FrontId) (i : Nat) (v : Sem) :
    (putSem s f i v).hbmFlips = s.hbmFlips := rfl

@[simp] theorem putSem_slowPoison (s : State) (f : FrontId) (i : Nat) (v : Sem) :
    (putSem s f i v).slowPoison = s.slowPoison := rfl

@[simp] theorem putSem_epoch (s : State) (f : FrontId) (i : Nat) (v : Sem) :
    (putSem s f i v).epoch = s.epoch := rfl

@[simp] theorem putSem_batons (s : State) (f : FrontId) (i : Nat) (v : Sem) :
    (putSem s f i v).batons = s.batons := rfl

@[simp] theorem putSem_semMsgs (s : State) (f : FrontId) (i : Nat) (v : Sem) :
    (putSem s f i v).semMsgs = s.semMsgs := rfl

@[simp] theorem putSem_filling (s : State) (f : FrontId) (i : Nat) (v : Sem) :
    (putSem s f i v).filling = s.filling := rfl

@[simp] theorem putSem_firstPoison (s : State) (f : FrontId) (i : Nat) (v : Sem) :
    (putSem s f i v).firstPoison = s.firstPoison := rfl

@[simp] theorem putSem_fronts (s : State) (f : FrontId) (i : Nat) (v : Sem) :
    (putSem s f i v).fronts = s.fronts := rfl

@[simp] theorem putSem_seeds (s : State) (f : FrontId) (i : Nat) (v : Sem) :
    (putSem s f i v).seeds = s.seeds := rfl

@[simp] theorem putSem_beats (s : State) (f : FrontId) (i : Nat) (v : Sem) :
    (putSem s f i v).beats = s.beats := rfl

@[simp] theorem putSem_preds (s : State) (f : FrontId) (i : Nat) (v : Sem) :
    (putSem s f i v).preds = s.preds := rfl

@[simp] theorem putSem_segms (s : State) (f : FrontId) (i : Nat) (v : Sem) :
    (putSem s f i v).segms = s.segms := rfl

@[simp] theorem putSem_arrayFaults (s : State) (f : FrontId) (i : Nat) (v : Sem) :
    (putSem s f i v).arrayFaults = s.arrayFaults := rfl

@[simp] theorem putSem_tables (s : State) (f : FrontId) (i : Nat) (v : Sem) :
    (putSem s f i v).tables = s.tables := rfl

@[simp] theorem putSem_pendingReads (s : State) (f : FrontId) (i : Nat) (v : Sem) :
    (putSem s f i v).pendingReads = s.pendingReads := rfl

@[simp] theorem putSem_retiringPc (s : State) (f : FrontId) (i : Nat) (v : Sem) :
    (putSem s f i v).retiringPc = s.retiringPc := rfl

@[simp] theorem putSem_held (s : State) (f : FrontId) (i : Nat) (v : Sem) :
    (putSem s f i v).held = s.held := rfl

@[simp] theorem putSem_noticed (s : State) (f : FrontId) (i : Nat) (v : Sem) :
    (putSem s f i v).noticed = s.noticed := rfl

@[simp] theorem putSem_lapse (s : State) (f : FrontId) (i : Nat) (v : Sem) :
    (putSem s f i v).lapse = s.lapse := rfl

@[simp] theorem putSem_cxlReqs (s : State) (f : FrontId) (i : Nat) (v : Sem) :
    (putSem s f i v).cxlReqs = s.cxlReqs := rfl

@[simp] theorem putSem_cxlXid (s : State) (f : FrontId) (i : Nat) (v : Sem) :
    (putSem s f i v).cxlXid = s.cxlXid := rfl

@[simp] theorem putSem_pcCorr (s : State) (f : FrontId) (i : Nat) (v : Sem) :
    (putSem s f i v).pcCorr = s.pcCorr := rfl

@[simp] theorem putSem_dmas (s : State) (f : FrontId) (i : Nat) (v : Sem) :
    (putSem s f i v).dmas = s.dmas := rfl

@[simp] theorem putSem_remotes (s : State) (f : FrontId) (i : Nat) (v : Sem) :
    (putSem s f i v).remotes = s.remotes := rfl

@[simp] theorem putSem_xid (s : State) (f : FrontId) (i : Nat) (v : Sem) :
    (putSem s f i v).xid = s.xid := rfl

@[simp] theorem putSem_stride (s : State) (f : FrontId) (i : Nat) (v : Sem) :
    (putSem s f i v).stride = s.stride := rfl

@[simp] theorem putSem_sync (s : State) (f : FrontId) (i : Nat) (v : Sem) :
    (putSem s f i v).sync = s.sync := rfl

@[simp] theorem putSem_routes (s : State) (f : FrontId) (i : Nat) (v : Sem) :
    (putSem s f i v).routes = s.routes := rfl

@[simp] theorem putSem_lost (s : State) (f : FrontId) (i : Nat) (v : Sem) :
    (putSem s f i v).lost = s.lost := rfl

@[simp] theorem putSem_ledger (s : State) (f : FrontId) (i : Nat) (v : Sem) :
    (putSem s f i v).ledger = s.ledger := rfl

@[simp] theorem putSem_decisionMsgs (s : State) (f : FrontId) (i : Nat) (v : Sem) :
    (putSem s f i v).decisionMsgs = s.decisionMsgs := rfl

@[simp] theorem putSem_decisions (s : State) (f : FrontId) (i : Nat) (v : Sem) :
    (putSem s f i v).decisions = s.decisions := rfl

@[simp] theorem putSem_pubs (s : State) (f : FrontId) (i : Nat) (v : Sem) :
    (putSem s f i v).pubs = s.pubs := rfl

@[simp] theorem putSem_pubNext (s : State) (f : FrontId) (i : Nat) (v : Sem) :
    (putSem s f i v).pubNext = s.pubNext := rfl

@[simp] theorem putSem_locks (s : State) (f : FrontId) (i : Nat) (v : Sem) :
    (putSem s f i v).locks = s.locks := rfl

@[simp] theorem putSem_lockMsgs (s : State) (f : FrontId) (i : Nat) (v : Sem) :
    (putSem s f i v).lockMsgs = s.lockMsgs := rfl

@[simp] theorem putSem_oldMsgs (s : State) (f : FrontId) (i : Nat) (v : Sem) :
    (putSem s f i v).oldMsgs = s.oldMsgs := rfl

@[simp] theorem putSem_unlockMsgs (s : State) (f : FrontId) (i : Nat) (v : Sem) :
    (putSem s f i v).unlockMsgs = s.unlockMsgs := rfl

@[simp] theorem putSem_parks (s : State) (f : FrontId) (i : Nat) (v : Sem) :
    (putSem s f i v).parks = s.parks := rfl

@[simp] theorem putSem_relays (s : State) (f : FrontId) (i : Nat) (v : Sem) :
    (putSem s f i v).relays = s.relays := rfl

@[simp] theorem putSem_sentSegs (s : State) (f : FrontId) (i : Nat) (v : Sem) :
    (putSem s f i v).sentSegs = s.sentSegs := rfl

@[simp] theorem putSem_nauloPorts (s : State) (f : FrontId) (i : Nat) (v : Sem) :
    (putSem s f i v).nauloPorts = s.nauloPorts := rfl

@[simp] theorem putSem_reported (s : State) (f : FrontId) (i : Nat) (v : Sem) :
    (putSem s f i v).reported = s.reported := rfl

@[simp] theorem putSem_records (s : State) (f : FrontId) (i : Nat) (v : Sem) :
    (putSem s f i v).records = s.records := rfl

@[simp] theorem putSem_events (s : State) (f : FrontId) (i : Nat) (v : Sem) :
    (putSem s f i v).events = s.events := rfl

@[simp] theorem putSem_steward (s : State) (f : FrontId) (i : Nat) (v : Sem) :
    (putSem s f i v).steward = s.steward := rfl

@[simp] theorem putSem_changes (s : State) (f : FrontId) (i : Nat) (v : Sem) :
    (putSem s f i v).changes = s.changes := rfl

@[simp] theorem putSem_relocks (s : State) (f : FrontId) (i : Nat) (v : Sem) :
    (putSem s f i v).relocks = s.relocks := rfl

@[simp] theorem putSem_resetting (s : State) (f : FrontId) (i : Nat) (v : Sem) :
    (putSem s f i v).resetting = s.resetting := rfl

@[simp] theorem putSem_replan (s : State) (f : FrontId) (i : Nat) (v : Sem) :
    (putSem s f i v).replan = s.replan := rfl

@[simp] theorem putSem_feeds (s : State) (f : FrontId) (i : Nat) (v : Sem) :
    (putSem s f i v).feeds = s.feeds := rfl

@[simp] theorem putSem_throttleUntil (s : State) (f : FrontId) (i : Nat) (v : Sem) :
    (putSem s f i v).throttleUntil = s.throttleUntil := rfl

@[simp] theorem putSem_inputs (s : State) (f : FrontId) (i : Nat) (v : Sem) :
    (putSem s f i v).inputs = s.inputs := rfl

@[simp] theorem putSem_hotRuns (s : State) (f : FrontId) (i : Nat) (v : Sem) :
    (putSem s f i v).hotRuns = s.hotRuns := rfl

@[simp] theorem putSem_tripped (s : State) (f : FrontId) (i : Nat) (v : Sem) :
    (putSem s f i v).tripped = s.tripped := rfl

@[simp] theorem putSem_flash (s : State) (f : FrontId) (i : Nat) (v : Sem) :
    (putSem s f i v).flash = s.flash := rfl

@[simp] theorem putSem_boot (s : State) (f : FrontId) (i : Nat) (v : Sem) :
    (putSem s f i v).boot = s.boot := rfl

@[simp] theorem putSem_host (s : State) (f : FrontId) (i : Nat) (v : Sem) :
    (putSem s f i v).host = s.host := rfl

@[simp] theorem putSem_resetReq (s : State) (f : FrontId) (i : Nat) (v : Sem) :
    (putSem s f i v).resetReq = s.resetReq := rfl

@[simp] theorem putSem_tap (s : State) (f : FrontId) (i : Nat) (v : Sem) :
    (putSem s f i v).tap = s.tap := rfl

@[simp] theorem putSem_trace (s : State) (f : FrontId) (i : Nat) (v : Sem) :
    (putSem s f i v).trace = s.trace := rfl

@[simp] theorem putSem_cvs (s : State) (f : FrontId) (i : Nat) (v : Sem) :
    (putSem s f i v).cvs = s.cvs := rfl

@[simp] theorem putSem_paths (s : State) (f : FrontId) (i : Nat) (v : Sem) :
    (putSem s f i v).paths = s.paths := rfl

/-! ### putBaton -/

@[simp] theorem putBaton_pending (s : State) (c : CoreId) (i : Nat) (l : List Token) :
    (putBaton s c i l).pending = s.pending := rfl

@[simp] theorem putBaton_now (s : State) (c : CoreId) (i : Nat) (l : List Token) :
    (putBaton s c i l).now = s.now := rfl

@[simp] theorem putBaton_fresh (s : State) (c : CoreId) (i : Nat) (l : List Token) :
    (putBaton s c i l).fresh = s.fresh := rfl

@[simp] theorem putBaton_outputs (s : State) (c : CoreId) (i : Nat) (l : List Token) :
    (putBaton s c i l).outputs = s.outputs := rfl

@[simp] theorem putBaton_regs (s : State) (c : CoreId) (i : Nat) (l : List Token) :
    (putBaton s c i l).regs = s.regs := rfl

@[simp] theorem putBaton_shadows (s : State) (c : CoreId) (i : Nat) (l : List Token) :
    (putBaton s c i l).shadows = s.shadows := rfl

@[simp] theorem putBaton_counters (s : State) (c : CoreId) (i : Nat) (l : List Token) :
    (putBaton s c i l).counters = s.counters := rfl

@[simp] theorem putBaton_latched (s : State) (c : CoreId) (i : Nat) (l : List Token) :
    (putBaton s c i l).latched = s.latched := rfl

@[simp] theorem putBaton_mem (s : State) (c : CoreId) (i : Nat) (l : List Token) :
    (putBaton s c i l).mem = s.mem := rfl

@[simp] theorem putBaton_badParity (s : State) (c : CoreId) (i : Nat) (l : List Token) :
    (putBaton s c i l).badParity = s.badParity := rfl

@[simp] theorem putBaton_larderFlips (s : State) (c : CoreId) (i : Nat) (l : List Token) :
    (putBaton s c i l).larderFlips = s.larderFlips := rfl

@[simp] theorem putBaton_hbmFlips (s : State) (c : CoreId) (i : Nat) (l : List Token) :
    (putBaton s c i l).hbmFlips = s.hbmFlips := rfl

@[simp] theorem putBaton_slowPoison (s : State) (c : CoreId) (i : Nat) (l : List Token) :
    (putBaton s c i l).slowPoison = s.slowPoison := rfl

@[simp] theorem putBaton_epoch (s : State) (c : CoreId) (i : Nat) (l : List Token) :
    (putBaton s c i l).epoch = s.epoch := rfl

@[simp] theorem putBaton_banks (s : State) (c : CoreId) (i : Nat) (l : List Token) :
    (putBaton s c i l).banks = s.banks := rfl

@[simp] theorem putBaton_semMsgs (s : State) (c : CoreId) (i : Nat) (l : List Token) :
    (putBaton s c i l).semMsgs = s.semMsgs := rfl

@[simp] theorem putBaton_filling (s : State) (c : CoreId) (i : Nat) (l : List Token) :
    (putBaton s c i l).filling = s.filling := rfl

@[simp] theorem putBaton_firstPoison (s : State) (c : CoreId) (i : Nat) (l : List Token) :
    (putBaton s c i l).firstPoison = s.firstPoison := rfl

@[simp] theorem putBaton_fronts (s : State) (c : CoreId) (i : Nat) (l : List Token) :
    (putBaton s c i l).fronts = s.fronts := rfl

@[simp] theorem putBaton_seeds (s : State) (c : CoreId) (i : Nat) (l : List Token) :
    (putBaton s c i l).seeds = s.seeds := rfl

@[simp] theorem putBaton_beats (s : State) (c : CoreId) (i : Nat) (l : List Token) :
    (putBaton s c i l).beats = s.beats := rfl

@[simp] theorem putBaton_preds (s : State) (c : CoreId) (i : Nat) (l : List Token) :
    (putBaton s c i l).preds = s.preds := rfl

@[simp] theorem putBaton_segms (s : State) (c : CoreId) (i : Nat) (l : List Token) :
    (putBaton s c i l).segms = s.segms := rfl

@[simp] theorem putBaton_arrayFaults (s : State) (c : CoreId) (i : Nat) (l : List Token) :
    (putBaton s c i l).arrayFaults = s.arrayFaults := rfl

@[simp] theorem putBaton_tables (s : State) (c : CoreId) (i : Nat) (l : List Token) :
    (putBaton s c i l).tables = s.tables := rfl

@[simp] theorem putBaton_pendingReads (s : State) (c : CoreId) (i : Nat) (l : List Token) :
    (putBaton s c i l).pendingReads = s.pendingReads := rfl

@[simp] theorem putBaton_retiringPc (s : State) (c : CoreId) (i : Nat) (l : List Token) :
    (putBaton s c i l).retiringPc = s.retiringPc := rfl

@[simp] theorem putBaton_held (s : State) (c : CoreId) (i : Nat) (l : List Token) :
    (putBaton s c i l).held = s.held := rfl

@[simp] theorem putBaton_noticed (s : State) (c : CoreId) (i : Nat) (l : List Token) :
    (putBaton s c i l).noticed = s.noticed := rfl

@[simp] theorem putBaton_lapse (s : State) (c : CoreId) (i : Nat) (l : List Token) :
    (putBaton s c i l).lapse = s.lapse := rfl

@[simp] theorem putBaton_cxlReqs (s : State) (c : CoreId) (i : Nat) (l : List Token) :
    (putBaton s c i l).cxlReqs = s.cxlReqs := rfl

@[simp] theorem putBaton_cxlXid (s : State) (c : CoreId) (i : Nat) (l : List Token) :
    (putBaton s c i l).cxlXid = s.cxlXid := rfl

@[simp] theorem putBaton_pcCorr (s : State) (c : CoreId) (i : Nat) (l : List Token) :
    (putBaton s c i l).pcCorr = s.pcCorr := rfl

@[simp] theorem putBaton_dmas (s : State) (c : CoreId) (i : Nat) (l : List Token) :
    (putBaton s c i l).dmas = s.dmas := rfl

@[simp] theorem putBaton_remotes (s : State) (c : CoreId) (i : Nat) (l : List Token) :
    (putBaton s c i l).remotes = s.remotes := rfl

@[simp] theorem putBaton_xid (s : State) (c : CoreId) (i : Nat) (l : List Token) :
    (putBaton s c i l).xid = s.xid := rfl

@[simp] theorem putBaton_stride (s : State) (c : CoreId) (i : Nat) (l : List Token) :
    (putBaton s c i l).stride = s.stride := rfl

@[simp] theorem putBaton_sync (s : State) (c : CoreId) (i : Nat) (l : List Token) :
    (putBaton s c i l).sync = s.sync := rfl

@[simp] theorem putBaton_routes (s : State) (c : CoreId) (i : Nat) (l : List Token) :
    (putBaton s c i l).routes = s.routes := rfl

@[simp] theorem putBaton_lost (s : State) (c : CoreId) (i : Nat) (l : List Token) :
    (putBaton s c i l).lost = s.lost := rfl

@[simp] theorem putBaton_ledger (s : State) (c : CoreId) (i : Nat) (l : List Token) :
    (putBaton s c i l).ledger = s.ledger := rfl

@[simp] theorem putBaton_decisionMsgs (s : State) (c : CoreId) (i : Nat) (l : List Token) :
    (putBaton s c i l).decisionMsgs = s.decisionMsgs := rfl

@[simp] theorem putBaton_decisions (s : State) (c : CoreId) (i : Nat) (l : List Token) :
    (putBaton s c i l).decisions = s.decisions := rfl

@[simp] theorem putBaton_pubs (s : State) (c : CoreId) (i : Nat) (l : List Token) :
    (putBaton s c i l).pubs = s.pubs := rfl

@[simp] theorem putBaton_pubNext (s : State) (c : CoreId) (i : Nat) (l : List Token) :
    (putBaton s c i l).pubNext = s.pubNext := rfl

@[simp] theorem putBaton_locks (s : State) (c : CoreId) (i : Nat) (l : List Token) :
    (putBaton s c i l).locks = s.locks := rfl

@[simp] theorem putBaton_lockMsgs (s : State) (c : CoreId) (i : Nat) (l : List Token) :
    (putBaton s c i l).lockMsgs = s.lockMsgs := rfl

@[simp] theorem putBaton_oldMsgs (s : State) (c : CoreId) (i : Nat) (l : List Token) :
    (putBaton s c i l).oldMsgs = s.oldMsgs := rfl

@[simp] theorem putBaton_unlockMsgs (s : State) (c : CoreId) (i : Nat) (l : List Token) :
    (putBaton s c i l).unlockMsgs = s.unlockMsgs := rfl

@[simp] theorem putBaton_parks (s : State) (c : CoreId) (i : Nat) (l : List Token) :
    (putBaton s c i l).parks = s.parks := rfl

@[simp] theorem putBaton_relays (s : State) (c : CoreId) (i : Nat) (l : List Token) :
    (putBaton s c i l).relays = s.relays := rfl

@[simp] theorem putBaton_sentSegs (s : State) (c : CoreId) (i : Nat) (l : List Token) :
    (putBaton s c i l).sentSegs = s.sentSegs := rfl

@[simp] theorem putBaton_nauloPorts (s : State) (c : CoreId) (i : Nat) (l : List Token) :
    (putBaton s c i l).nauloPorts = s.nauloPorts := rfl

@[simp] theorem putBaton_reported (s : State) (c : CoreId) (i : Nat) (l : List Token) :
    (putBaton s c i l).reported = s.reported := rfl

@[simp] theorem putBaton_records (s : State) (c : CoreId) (i : Nat) (l : List Token) :
    (putBaton s c i l).records = s.records := rfl

@[simp] theorem putBaton_events (s : State) (c : CoreId) (i : Nat) (l : List Token) :
    (putBaton s c i l).events = s.events := rfl

@[simp] theorem putBaton_steward (s : State) (c : CoreId) (i : Nat) (l : List Token) :
    (putBaton s c i l).steward = s.steward := rfl

@[simp] theorem putBaton_changes (s : State) (c : CoreId) (i : Nat) (l : List Token) :
    (putBaton s c i l).changes = s.changes := rfl

@[simp] theorem putBaton_relocks (s : State) (c : CoreId) (i : Nat) (l : List Token) :
    (putBaton s c i l).relocks = s.relocks := rfl

@[simp] theorem putBaton_resetting (s : State) (c : CoreId) (i : Nat) (l : List Token) :
    (putBaton s c i l).resetting = s.resetting := rfl

@[simp] theorem putBaton_replan (s : State) (c : CoreId) (i : Nat) (l : List Token) :
    (putBaton s c i l).replan = s.replan := rfl

@[simp] theorem putBaton_feeds (s : State) (c : CoreId) (i : Nat) (l : List Token) :
    (putBaton s c i l).feeds = s.feeds := rfl

@[simp] theorem putBaton_throttleUntil (s : State) (c : CoreId) (i : Nat) (l : List Token) :
    (putBaton s c i l).throttleUntil = s.throttleUntil := rfl

@[simp] theorem putBaton_inputs (s : State) (c : CoreId) (i : Nat) (l : List Token) :
    (putBaton s c i l).inputs = s.inputs := rfl

@[simp] theorem putBaton_hotRuns (s : State) (c : CoreId) (i : Nat) (l : List Token) :
    (putBaton s c i l).hotRuns = s.hotRuns := rfl

@[simp] theorem putBaton_tripped (s : State) (c : CoreId) (i : Nat) (l : List Token) :
    (putBaton s c i l).tripped = s.tripped := rfl

@[simp] theorem putBaton_flash (s : State) (c : CoreId) (i : Nat) (l : List Token) :
    (putBaton s c i l).flash = s.flash := rfl

@[simp] theorem putBaton_boot (s : State) (c : CoreId) (i : Nat) (l : List Token) :
    (putBaton s c i l).boot = s.boot := rfl

@[simp] theorem putBaton_host (s : State) (c : CoreId) (i : Nat) (l : List Token) :
    (putBaton s c i l).host = s.host := rfl

@[simp] theorem putBaton_resetReq (s : State) (c : CoreId) (i : Nat) (l : List Token) :
    (putBaton s c i l).resetReq = s.resetReq := rfl

@[simp] theorem putBaton_tap (s : State) (c : CoreId) (i : Nat) (l : List Token) :
    (putBaton s c i l).tap = s.tap := rfl

@[simp] theorem putBaton_trace (s : State) (c : CoreId) (i : Nat) (l : List Token) :
    (putBaton s c i l).trace = s.trace := rfl

@[simp] theorem putBaton_cvs (s : State) (c : CoreId) (i : Nat) (l : List Token) :
    (putBaton s c i l).cvs = s.cvs := rfl

@[simp] theorem putBaton_paths (s : State) (c : CoreId) (i : Nat) (l : List Token) :
    (putBaton s c i l).paths = s.paths := rfl

/-! ### putByte -/

@[simp] theorem putByte_pending (s : State) (k : Nat) (v : Byte) :
    (putByte s k v).pending = s.pending := rfl

@[simp] theorem putByte_now (s : State) (k : Nat) (v : Byte) :
    (putByte s k v).now = s.now := rfl

@[simp] theorem putByte_fresh (s : State) (k : Nat) (v : Byte) :
    (putByte s k v).fresh = s.fresh := rfl

@[simp] theorem putByte_outputs (s : State) (k : Nat) (v : Byte) :
    (putByte s k v).outputs = s.outputs := rfl

@[simp] theorem putByte_regs (s : State) (k : Nat) (v : Byte) :
    (putByte s k v).regs = s.regs := rfl

@[simp] theorem putByte_shadows (s : State) (k : Nat) (v : Byte) :
    (putByte s k v).shadows = s.shadows := rfl

@[simp] theorem putByte_counters (s : State) (k : Nat) (v : Byte) :
    (putByte s k v).counters = s.counters := rfl

@[simp] theorem putByte_latched (s : State) (k : Nat) (v : Byte) :
    (putByte s k v).latched = s.latched := rfl

@[simp] theorem putByte_badParity (s : State) (k : Nat) (v : Byte) :
    (putByte s k v).badParity = s.badParity := rfl

@[simp] theorem putByte_larderFlips (s : State) (k : Nat) (v : Byte) :
    (putByte s k v).larderFlips = s.larderFlips := rfl

@[simp] theorem putByte_hbmFlips (s : State) (k : Nat) (v : Byte) :
    (putByte s k v).hbmFlips = s.hbmFlips := rfl

@[simp] theorem putByte_slowPoison (s : State) (k : Nat) (v : Byte) :
    (putByte s k v).slowPoison = s.slowPoison := rfl

@[simp] theorem putByte_epoch (s : State) (k : Nat) (v : Byte) :
    (putByte s k v).epoch = s.epoch := rfl

@[simp] theorem putByte_banks (s : State) (k : Nat) (v : Byte) :
    (putByte s k v).banks = s.banks := rfl

@[simp] theorem putByte_batons (s : State) (k : Nat) (v : Byte) :
    (putByte s k v).batons = s.batons := rfl

@[simp] theorem putByte_semMsgs (s : State) (k : Nat) (v : Byte) :
    (putByte s k v).semMsgs = s.semMsgs := rfl

@[simp] theorem putByte_filling (s : State) (k : Nat) (v : Byte) :
    (putByte s k v).filling = s.filling := rfl

@[simp] theorem putByte_firstPoison (s : State) (k : Nat) (v : Byte) :
    (putByte s k v).firstPoison = s.firstPoison := rfl

@[simp] theorem putByte_fronts (s : State) (k : Nat) (v : Byte) :
    (putByte s k v).fronts = s.fronts := rfl

@[simp] theorem putByte_seeds (s : State) (k : Nat) (v : Byte) :
    (putByte s k v).seeds = s.seeds := rfl

@[simp] theorem putByte_beats (s : State) (k : Nat) (v : Byte) :
    (putByte s k v).beats = s.beats := rfl

@[simp] theorem putByte_preds (s : State) (k : Nat) (v : Byte) :
    (putByte s k v).preds = s.preds := rfl

@[simp] theorem putByte_segms (s : State) (k : Nat) (v : Byte) :
    (putByte s k v).segms = s.segms := rfl

@[simp] theorem putByte_arrayFaults (s : State) (k : Nat) (v : Byte) :
    (putByte s k v).arrayFaults = s.arrayFaults := rfl

@[simp] theorem putByte_tables (s : State) (k : Nat) (v : Byte) :
    (putByte s k v).tables = s.tables := rfl

@[simp] theorem putByte_pendingReads (s : State) (k : Nat) (v : Byte) :
    (putByte s k v).pendingReads = s.pendingReads := rfl

@[simp] theorem putByte_retiringPc (s : State) (k : Nat) (v : Byte) :
    (putByte s k v).retiringPc = s.retiringPc := rfl

@[simp] theorem putByte_held (s : State) (k : Nat) (v : Byte) :
    (putByte s k v).held = s.held := rfl

@[simp] theorem putByte_noticed (s : State) (k : Nat) (v : Byte) :
    (putByte s k v).noticed = s.noticed := rfl

@[simp] theorem putByte_lapse (s : State) (k : Nat) (v : Byte) :
    (putByte s k v).lapse = s.lapse := rfl

@[simp] theorem putByte_cxlReqs (s : State) (k : Nat) (v : Byte) :
    (putByte s k v).cxlReqs = s.cxlReqs := rfl

@[simp] theorem putByte_cxlXid (s : State) (k : Nat) (v : Byte) :
    (putByte s k v).cxlXid = s.cxlXid := rfl

@[simp] theorem putByte_pcCorr (s : State) (k : Nat) (v : Byte) :
    (putByte s k v).pcCorr = s.pcCorr := rfl

@[simp] theorem putByte_dmas (s : State) (k : Nat) (v : Byte) :
    (putByte s k v).dmas = s.dmas := rfl

@[simp] theorem putByte_remotes (s : State) (k : Nat) (v : Byte) :
    (putByte s k v).remotes = s.remotes := rfl

@[simp] theorem putByte_xid (s : State) (k : Nat) (v : Byte) :
    (putByte s k v).xid = s.xid := rfl

@[simp] theorem putByte_stride (s : State) (k : Nat) (v : Byte) :
    (putByte s k v).stride = s.stride := rfl

@[simp] theorem putByte_sync (s : State) (k : Nat) (v : Byte) :
    (putByte s k v).sync = s.sync := rfl

@[simp] theorem putByte_routes (s : State) (k : Nat) (v : Byte) :
    (putByte s k v).routes = s.routes := rfl

@[simp] theorem putByte_lost (s : State) (k : Nat) (v : Byte) :
    (putByte s k v).lost = s.lost := rfl

@[simp] theorem putByte_ledger (s : State) (k : Nat) (v : Byte) :
    (putByte s k v).ledger = s.ledger := rfl

@[simp] theorem putByte_decisionMsgs (s : State) (k : Nat) (v : Byte) :
    (putByte s k v).decisionMsgs = s.decisionMsgs := rfl

@[simp] theorem putByte_decisions (s : State) (k : Nat) (v : Byte) :
    (putByte s k v).decisions = s.decisions := rfl

@[simp] theorem putByte_pubs (s : State) (k : Nat) (v : Byte) :
    (putByte s k v).pubs = s.pubs := rfl

@[simp] theorem putByte_pubNext (s : State) (k : Nat) (v : Byte) :
    (putByte s k v).pubNext = s.pubNext := rfl

@[simp] theorem putByte_locks (s : State) (k : Nat) (v : Byte) :
    (putByte s k v).locks = s.locks := rfl

@[simp] theorem putByte_lockMsgs (s : State) (k : Nat) (v : Byte) :
    (putByte s k v).lockMsgs = s.lockMsgs := rfl

@[simp] theorem putByte_oldMsgs (s : State) (k : Nat) (v : Byte) :
    (putByte s k v).oldMsgs = s.oldMsgs := rfl

@[simp] theorem putByte_unlockMsgs (s : State) (k : Nat) (v : Byte) :
    (putByte s k v).unlockMsgs = s.unlockMsgs := rfl

@[simp] theorem putByte_parks (s : State) (k : Nat) (v : Byte) :
    (putByte s k v).parks = s.parks := rfl

@[simp] theorem putByte_relays (s : State) (k : Nat) (v : Byte) :
    (putByte s k v).relays = s.relays := rfl

@[simp] theorem putByte_sentSegs (s : State) (k : Nat) (v : Byte) :
    (putByte s k v).sentSegs = s.sentSegs := rfl

@[simp] theorem putByte_nauloPorts (s : State) (k : Nat) (v : Byte) :
    (putByte s k v).nauloPorts = s.nauloPorts := rfl

@[simp] theorem putByte_reported (s : State) (k : Nat) (v : Byte) :
    (putByte s k v).reported = s.reported := rfl

@[simp] theorem putByte_records (s : State) (k : Nat) (v : Byte) :
    (putByte s k v).records = s.records := rfl

@[simp] theorem putByte_events (s : State) (k : Nat) (v : Byte) :
    (putByte s k v).events = s.events := rfl

@[simp] theorem putByte_steward (s : State) (k : Nat) (v : Byte) :
    (putByte s k v).steward = s.steward := rfl

@[simp] theorem putByte_changes (s : State) (k : Nat) (v : Byte) :
    (putByte s k v).changes = s.changes := rfl

@[simp] theorem putByte_relocks (s : State) (k : Nat) (v : Byte) :
    (putByte s k v).relocks = s.relocks := rfl

@[simp] theorem putByte_resetting (s : State) (k : Nat) (v : Byte) :
    (putByte s k v).resetting = s.resetting := rfl

@[simp] theorem putByte_replan (s : State) (k : Nat) (v : Byte) :
    (putByte s k v).replan = s.replan := rfl

@[simp] theorem putByte_feeds (s : State) (k : Nat) (v : Byte) :
    (putByte s k v).feeds = s.feeds := rfl

@[simp] theorem putByte_throttleUntil (s : State) (k : Nat) (v : Byte) :
    (putByte s k v).throttleUntil = s.throttleUntil := rfl

@[simp] theorem putByte_inputs (s : State) (k : Nat) (v : Byte) :
    (putByte s k v).inputs = s.inputs := rfl

@[simp] theorem putByte_hotRuns (s : State) (k : Nat) (v : Byte) :
    (putByte s k v).hotRuns = s.hotRuns := rfl

@[simp] theorem putByte_tripped (s : State) (k : Nat) (v : Byte) :
    (putByte s k v).tripped = s.tripped := rfl

@[simp] theorem putByte_flash (s : State) (k : Nat) (v : Byte) :
    (putByte s k v).flash = s.flash := rfl

@[simp] theorem putByte_boot (s : State) (k : Nat) (v : Byte) :
    (putByte s k v).boot = s.boot := rfl

@[simp] theorem putByte_host (s : State) (k : Nat) (v : Byte) :
    (putByte s k v).host = s.host := rfl

@[simp] theorem putByte_resetReq (s : State) (k : Nat) (v : Byte) :
    (putByte s k v).resetReq = s.resetReq := rfl

@[simp] theorem putByte_tap (s : State) (k : Nat) (v : Byte) :
    (putByte s k v).tap = s.tap := rfl

@[simp] theorem putByte_trace (s : State) (k : Nat) (v : Byte) :
    (putByte s k v).trace = s.trace := rfl

@[simp] theorem putByte_cvs (s : State) (k : Nat) (v : Byte) :
    (putByte s k v).cvs = s.cvs := rfl

@[simp] theorem putByte_paths (s : State) (k : Nat) (v : Byte) :
    (putByte s k v).paths = s.paths := rfl

/-! ### useFresh -/

@[simp] theorem useFresh_pending (s : State) :
    (useFresh s).pending = s.pending := rfl

@[simp] theorem useFresh_now (s : State) :
    (useFresh s).now = s.now := rfl

@[simp] theorem useFresh_outputs (s : State) :
    (useFresh s).outputs = s.outputs := rfl

@[simp] theorem useFresh_regs (s : State) :
    (useFresh s).regs = s.regs := rfl

@[simp] theorem useFresh_shadows (s : State) :
    (useFresh s).shadows = s.shadows := rfl

@[simp] theorem useFresh_counters (s : State) :
    (useFresh s).counters = s.counters := rfl

@[simp] theorem useFresh_latched (s : State) :
    (useFresh s).latched = s.latched := rfl

@[simp] theorem useFresh_mem (s : State) :
    (useFresh s).mem = s.mem := rfl

@[simp] theorem useFresh_badParity (s : State) :
    (useFresh s).badParity = s.badParity := rfl

@[simp] theorem useFresh_larderFlips (s : State) :
    (useFresh s).larderFlips = s.larderFlips := rfl

@[simp] theorem useFresh_hbmFlips (s : State) :
    (useFresh s).hbmFlips = s.hbmFlips := rfl

@[simp] theorem useFresh_slowPoison (s : State) :
    (useFresh s).slowPoison = s.slowPoison := rfl

@[simp] theorem useFresh_epoch (s : State) :
    (useFresh s).epoch = s.epoch := rfl

@[simp] theorem useFresh_banks (s : State) :
    (useFresh s).banks = s.banks := rfl

@[simp] theorem useFresh_batons (s : State) :
    (useFresh s).batons = s.batons := rfl

@[simp] theorem useFresh_semMsgs (s : State) :
    (useFresh s).semMsgs = s.semMsgs := rfl

@[simp] theorem useFresh_filling (s : State) :
    (useFresh s).filling = s.filling := rfl

@[simp] theorem useFresh_firstPoison (s : State) :
    (useFresh s).firstPoison = s.firstPoison := rfl

@[simp] theorem useFresh_fronts (s : State) :
    (useFresh s).fronts = s.fronts := rfl

@[simp] theorem useFresh_seeds (s : State) :
    (useFresh s).seeds = s.seeds := rfl

@[simp] theorem useFresh_beats (s : State) :
    (useFresh s).beats = s.beats := rfl

@[simp] theorem useFresh_preds (s : State) :
    (useFresh s).preds = s.preds := rfl

@[simp] theorem useFresh_segms (s : State) :
    (useFresh s).segms = s.segms := rfl

@[simp] theorem useFresh_arrayFaults (s : State) :
    (useFresh s).arrayFaults = s.arrayFaults := rfl

@[simp] theorem useFresh_tables (s : State) :
    (useFresh s).tables = s.tables := rfl

@[simp] theorem useFresh_pendingReads (s : State) :
    (useFresh s).pendingReads = s.pendingReads := rfl

@[simp] theorem useFresh_retiringPc (s : State) :
    (useFresh s).retiringPc = s.retiringPc := rfl

@[simp] theorem useFresh_held (s : State) :
    (useFresh s).held = s.held := rfl

@[simp] theorem useFresh_noticed (s : State) :
    (useFresh s).noticed = s.noticed := rfl

@[simp] theorem useFresh_lapse (s : State) :
    (useFresh s).lapse = s.lapse := rfl

@[simp] theorem useFresh_cxlReqs (s : State) :
    (useFresh s).cxlReqs = s.cxlReqs := rfl

@[simp] theorem useFresh_cxlXid (s : State) :
    (useFresh s).cxlXid = s.cxlXid := rfl

@[simp] theorem useFresh_pcCorr (s : State) :
    (useFresh s).pcCorr = s.pcCorr := rfl

@[simp] theorem useFresh_dmas (s : State) :
    (useFresh s).dmas = s.dmas := rfl

@[simp] theorem useFresh_remotes (s : State) :
    (useFresh s).remotes = s.remotes := rfl

@[simp] theorem useFresh_xid (s : State) :
    (useFresh s).xid = s.xid := rfl

@[simp] theorem useFresh_stride (s : State) :
    (useFresh s).stride = s.stride := rfl

@[simp] theorem useFresh_sync (s : State) :
    (useFresh s).sync = s.sync := rfl

@[simp] theorem useFresh_routes (s : State) :
    (useFresh s).routes = s.routes := rfl

@[simp] theorem useFresh_lost (s : State) :
    (useFresh s).lost = s.lost := rfl

@[simp] theorem useFresh_ledger (s : State) :
    (useFresh s).ledger = s.ledger := rfl

@[simp] theorem useFresh_decisionMsgs (s : State) :
    (useFresh s).decisionMsgs = s.decisionMsgs := rfl

@[simp] theorem useFresh_decisions (s : State) :
    (useFresh s).decisions = s.decisions := rfl

@[simp] theorem useFresh_pubs (s : State) :
    (useFresh s).pubs = s.pubs := rfl

@[simp] theorem useFresh_pubNext (s : State) :
    (useFresh s).pubNext = s.pubNext := rfl

@[simp] theorem useFresh_locks (s : State) :
    (useFresh s).locks = s.locks := rfl

@[simp] theorem useFresh_lockMsgs (s : State) :
    (useFresh s).lockMsgs = s.lockMsgs := rfl

@[simp] theorem useFresh_oldMsgs (s : State) :
    (useFresh s).oldMsgs = s.oldMsgs := rfl

@[simp] theorem useFresh_unlockMsgs (s : State) :
    (useFresh s).unlockMsgs = s.unlockMsgs := rfl

@[simp] theorem useFresh_parks (s : State) :
    (useFresh s).parks = s.parks := rfl

@[simp] theorem useFresh_relays (s : State) :
    (useFresh s).relays = s.relays := rfl

@[simp] theorem useFresh_sentSegs (s : State) :
    (useFresh s).sentSegs = s.sentSegs := rfl

@[simp] theorem useFresh_nauloPorts (s : State) :
    (useFresh s).nauloPorts = s.nauloPorts := rfl

@[simp] theorem useFresh_reported (s : State) :
    (useFresh s).reported = s.reported := rfl

@[simp] theorem useFresh_records (s : State) :
    (useFresh s).records = s.records := rfl

@[simp] theorem useFresh_events (s : State) :
    (useFresh s).events = s.events := rfl

@[simp] theorem useFresh_steward (s : State) :
    (useFresh s).steward = s.steward := rfl

@[simp] theorem useFresh_changes (s : State) :
    (useFresh s).changes = s.changes := rfl

@[simp] theorem useFresh_relocks (s : State) :
    (useFresh s).relocks = s.relocks := rfl

@[simp] theorem useFresh_resetting (s : State) :
    (useFresh s).resetting = s.resetting := rfl

@[simp] theorem useFresh_replan (s : State) :
    (useFresh s).replan = s.replan := rfl

@[simp] theorem useFresh_feeds (s : State) :
    (useFresh s).feeds = s.feeds := rfl

@[simp] theorem useFresh_throttleUntil (s : State) :
    (useFresh s).throttleUntil = s.throttleUntil := rfl

@[simp] theorem useFresh_inputs (s : State) :
    (useFresh s).inputs = s.inputs := rfl

@[simp] theorem useFresh_hotRuns (s : State) :
    (useFresh s).hotRuns = s.hotRuns := rfl

@[simp] theorem useFresh_tripped (s : State) :
    (useFresh s).tripped = s.tripped := rfl

@[simp] theorem useFresh_flash (s : State) :
    (useFresh s).flash = s.flash := rfl

@[simp] theorem useFresh_boot (s : State) :
    (useFresh s).boot = s.boot := rfl

@[simp] theorem useFresh_host (s : State) :
    (useFresh s).host = s.host := rfl

@[simp] theorem useFresh_resetReq (s : State) :
    (useFresh s).resetReq = s.resetReq := rfl

@[simp] theorem useFresh_tap (s : State) :
    (useFresh s).tap = s.tap := rfl

@[simp] theorem useFresh_trace (s : State) :
    (useFresh s).trace = s.trace := rfl

@[simp] theorem useFresh_cvs (s : State) :
    (useFresh s).cvs = s.cvs := rfl

@[simp] theorem useFresh_paths (s : State) :
    (useFresh s).paths = s.paths := rfl

/-! ### modStride -/

@[simp] theorem modStride_pending (s : State) (f : StrideM → StrideM) :
    (modStride s f).pending = s.pending := rfl

@[simp] theorem modStride_now (s : State) (f : StrideM → StrideM) :
    (modStride s f).now = s.now := rfl

@[simp] theorem modStride_fresh (s : State) (f : StrideM → StrideM) :
    (modStride s f).fresh = s.fresh := rfl

@[simp] theorem modStride_outputs (s : State) (f : StrideM → StrideM) :
    (modStride s f).outputs = s.outputs := rfl

@[simp] theorem modStride_regs (s : State) (f : StrideM → StrideM) :
    (modStride s f).regs = s.regs := rfl

@[simp] theorem modStride_shadows (s : State) (f : StrideM → StrideM) :
    (modStride s f).shadows = s.shadows := rfl

@[simp] theorem modStride_counters (s : State) (f : StrideM → StrideM) :
    (modStride s f).counters = s.counters := rfl

@[simp] theorem modStride_latched (s : State) (f : StrideM → StrideM) :
    (modStride s f).latched = s.latched := rfl

@[simp] theorem modStride_mem (s : State) (f : StrideM → StrideM) :
    (modStride s f).mem = s.mem := rfl

@[simp] theorem modStride_badParity (s : State) (f : StrideM → StrideM) :
    (modStride s f).badParity = s.badParity := rfl

@[simp] theorem modStride_larderFlips (s : State) (f : StrideM → StrideM) :
    (modStride s f).larderFlips = s.larderFlips := rfl

@[simp] theorem modStride_hbmFlips (s : State) (f : StrideM → StrideM) :
    (modStride s f).hbmFlips = s.hbmFlips := rfl

@[simp] theorem modStride_slowPoison (s : State) (f : StrideM → StrideM) :
    (modStride s f).slowPoison = s.slowPoison := rfl

@[simp] theorem modStride_epoch (s : State) (f : StrideM → StrideM) :
    (modStride s f).epoch = s.epoch := rfl

@[simp] theorem modStride_banks (s : State) (f : StrideM → StrideM) :
    (modStride s f).banks = s.banks := rfl

@[simp] theorem modStride_batons (s : State) (f : StrideM → StrideM) :
    (modStride s f).batons = s.batons := rfl

@[simp] theorem modStride_semMsgs (s : State) (f : StrideM → StrideM) :
    (modStride s f).semMsgs = s.semMsgs := rfl

@[simp] theorem modStride_filling (s : State) (f : StrideM → StrideM) :
    (modStride s f).filling = s.filling := rfl

@[simp] theorem modStride_firstPoison (s : State) (f : StrideM → StrideM) :
    (modStride s f).firstPoison = s.firstPoison := rfl

@[simp] theorem modStride_fronts (s : State) (f : StrideM → StrideM) :
    (modStride s f).fronts = s.fronts := rfl

@[simp] theorem modStride_seeds (s : State) (f : StrideM → StrideM) :
    (modStride s f).seeds = s.seeds := rfl

@[simp] theorem modStride_beats (s : State) (f : StrideM → StrideM) :
    (modStride s f).beats = s.beats := rfl

@[simp] theorem modStride_preds (s : State) (f : StrideM → StrideM) :
    (modStride s f).preds = s.preds := rfl

@[simp] theorem modStride_segms (s : State) (f : StrideM → StrideM) :
    (modStride s f).segms = s.segms := rfl

@[simp] theorem modStride_arrayFaults (s : State) (f : StrideM → StrideM) :
    (modStride s f).arrayFaults = s.arrayFaults := rfl

@[simp] theorem modStride_tables (s : State) (f : StrideM → StrideM) :
    (modStride s f).tables = s.tables := rfl

@[simp] theorem modStride_pendingReads (s : State) (f : StrideM → StrideM) :
    (modStride s f).pendingReads = s.pendingReads := rfl

@[simp] theorem modStride_retiringPc (s : State) (f : StrideM → StrideM) :
    (modStride s f).retiringPc = s.retiringPc := rfl

@[simp] theorem modStride_held (s : State) (f : StrideM → StrideM) :
    (modStride s f).held = s.held := rfl

@[simp] theorem modStride_noticed (s : State) (f : StrideM → StrideM) :
    (modStride s f).noticed = s.noticed := rfl

@[simp] theorem modStride_lapse (s : State) (f : StrideM → StrideM) :
    (modStride s f).lapse = s.lapse := rfl

@[simp] theorem modStride_cxlReqs (s : State) (f : StrideM → StrideM) :
    (modStride s f).cxlReqs = s.cxlReqs := rfl

@[simp] theorem modStride_cxlXid (s : State) (f : StrideM → StrideM) :
    (modStride s f).cxlXid = s.cxlXid := rfl

@[simp] theorem modStride_pcCorr (s : State) (f : StrideM → StrideM) :
    (modStride s f).pcCorr = s.pcCorr := rfl

@[simp] theorem modStride_dmas (s : State) (f : StrideM → StrideM) :
    (modStride s f).dmas = s.dmas := rfl

@[simp] theorem modStride_remotes (s : State) (f : StrideM → StrideM) :
    (modStride s f).remotes = s.remotes := rfl

@[simp] theorem modStride_xid (s : State) (f : StrideM → StrideM) :
    (modStride s f).xid = s.xid := rfl

@[simp] theorem modStride_sync (s : State) (f : StrideM → StrideM) :
    (modStride s f).sync = s.sync := rfl

@[simp] theorem modStride_routes (s : State) (f : StrideM → StrideM) :
    (modStride s f).routes = s.routes := rfl

@[simp] theorem modStride_lost (s : State) (f : StrideM → StrideM) :
    (modStride s f).lost = s.lost := rfl

@[simp] theorem modStride_ledger (s : State) (f : StrideM → StrideM) :
    (modStride s f).ledger = s.ledger := rfl

@[simp] theorem modStride_decisionMsgs (s : State) (f : StrideM → StrideM) :
    (modStride s f).decisionMsgs = s.decisionMsgs := rfl

@[simp] theorem modStride_decisions (s : State) (f : StrideM → StrideM) :
    (modStride s f).decisions = s.decisions := rfl

@[simp] theorem modStride_pubs (s : State) (f : StrideM → StrideM) :
    (modStride s f).pubs = s.pubs := rfl

@[simp] theorem modStride_pubNext (s : State) (f : StrideM → StrideM) :
    (modStride s f).pubNext = s.pubNext := rfl

@[simp] theorem modStride_locks (s : State) (f : StrideM → StrideM) :
    (modStride s f).locks = s.locks := rfl

@[simp] theorem modStride_lockMsgs (s : State) (f : StrideM → StrideM) :
    (modStride s f).lockMsgs = s.lockMsgs := rfl

@[simp] theorem modStride_oldMsgs (s : State) (f : StrideM → StrideM) :
    (modStride s f).oldMsgs = s.oldMsgs := rfl

@[simp] theorem modStride_unlockMsgs (s : State) (f : StrideM → StrideM) :
    (modStride s f).unlockMsgs = s.unlockMsgs := rfl

@[simp] theorem modStride_parks (s : State) (f : StrideM → StrideM) :
    (modStride s f).parks = s.parks := rfl

@[simp] theorem modStride_relays (s : State) (f : StrideM → StrideM) :
    (modStride s f).relays = s.relays := rfl

@[simp] theorem modStride_sentSegs (s : State) (f : StrideM → StrideM) :
    (modStride s f).sentSegs = s.sentSegs := rfl

@[simp] theorem modStride_nauloPorts (s : State) (f : StrideM → StrideM) :
    (modStride s f).nauloPorts = s.nauloPorts := rfl

@[simp] theorem modStride_reported (s : State) (f : StrideM → StrideM) :
    (modStride s f).reported = s.reported := rfl

@[simp] theorem modStride_records (s : State) (f : StrideM → StrideM) :
    (modStride s f).records = s.records := rfl

@[simp] theorem modStride_events (s : State) (f : StrideM → StrideM) :
    (modStride s f).events = s.events := rfl

@[simp] theorem modStride_steward (s : State) (f : StrideM → StrideM) :
    (modStride s f).steward = s.steward := rfl

@[simp] theorem modStride_changes (s : State) (f : StrideM → StrideM) :
    (modStride s f).changes = s.changes := rfl

@[simp] theorem modStride_relocks (s : State) (f : StrideM → StrideM) :
    (modStride s f).relocks = s.relocks := rfl

@[simp] theorem modStride_resetting (s : State) (f : StrideM → StrideM) :
    (modStride s f).resetting = s.resetting := rfl

@[simp] theorem modStride_replan (s : State) (f : StrideM → StrideM) :
    (modStride s f).replan = s.replan := rfl

@[simp] theorem modStride_feeds (s : State) (f : StrideM → StrideM) :
    (modStride s f).feeds = s.feeds := rfl

@[simp] theorem modStride_throttleUntil (s : State) (f : StrideM → StrideM) :
    (modStride s f).throttleUntil = s.throttleUntil := rfl

@[simp] theorem modStride_inputs (s : State) (f : StrideM → StrideM) :
    (modStride s f).inputs = s.inputs := rfl

@[simp] theorem modStride_hotRuns (s : State) (f : StrideM → StrideM) :
    (modStride s f).hotRuns = s.hotRuns := rfl

@[simp] theorem modStride_tripped (s : State) (f : StrideM → StrideM) :
    (modStride s f).tripped = s.tripped := rfl

@[simp] theorem modStride_flash (s : State) (f : StrideM → StrideM) :
    (modStride s f).flash = s.flash := rfl

@[simp] theorem modStride_boot (s : State) (f : StrideM → StrideM) :
    (modStride s f).boot = s.boot := rfl

@[simp] theorem modStride_host (s : State) (f : StrideM → StrideM) :
    (modStride s f).host = s.host := rfl

@[simp] theorem modStride_resetReq (s : State) (f : StrideM → StrideM) :
    (modStride s f).resetReq = s.resetReq := rfl

@[simp] theorem modStride_tap (s : State) (f : StrideM → StrideM) :
    (modStride s f).tap = s.tap := rfl

@[simp] theorem modStride_trace (s : State) (f : StrideM → StrideM) :
    (modStride s f).trace = s.trace := rfl

@[simp] theorem modStride_cvs (s : State) (f : StrideM → StrideM) :
    (modStride s f).cvs = s.cvs := rfl

@[simp] theorem modStride_paths (s : State) (f : StrideM → StrideM) :
    (modStride s f).paths = s.paths := rfl

/-! ### modInputs -/

@[simp] theorem modInputs_pending (s : State) (f : Inputs → Inputs) :
    (modInputs s f).pending = s.pending := rfl

@[simp] theorem modInputs_now (s : State) (f : Inputs → Inputs) :
    (modInputs s f).now = s.now := rfl

@[simp] theorem modInputs_fresh (s : State) (f : Inputs → Inputs) :
    (modInputs s f).fresh = s.fresh := rfl

@[simp] theorem modInputs_outputs (s : State) (f : Inputs → Inputs) :
    (modInputs s f).outputs = s.outputs := rfl

@[simp] theorem modInputs_regs (s : State) (f : Inputs → Inputs) :
    (modInputs s f).regs = s.regs := rfl

@[simp] theorem modInputs_shadows (s : State) (f : Inputs → Inputs) :
    (modInputs s f).shadows = s.shadows := rfl

@[simp] theorem modInputs_counters (s : State) (f : Inputs → Inputs) :
    (modInputs s f).counters = s.counters := rfl

@[simp] theorem modInputs_latched (s : State) (f : Inputs → Inputs) :
    (modInputs s f).latched = s.latched := rfl

@[simp] theorem modInputs_mem (s : State) (f : Inputs → Inputs) :
    (modInputs s f).mem = s.mem := rfl

@[simp] theorem modInputs_badParity (s : State) (f : Inputs → Inputs) :
    (modInputs s f).badParity = s.badParity := rfl

@[simp] theorem modInputs_larderFlips (s : State) (f : Inputs → Inputs) :
    (modInputs s f).larderFlips = s.larderFlips := rfl

@[simp] theorem modInputs_hbmFlips (s : State) (f : Inputs → Inputs) :
    (modInputs s f).hbmFlips = s.hbmFlips := rfl

@[simp] theorem modInputs_slowPoison (s : State) (f : Inputs → Inputs) :
    (modInputs s f).slowPoison = s.slowPoison := rfl

@[simp] theorem modInputs_epoch (s : State) (f : Inputs → Inputs) :
    (modInputs s f).epoch = s.epoch := rfl

@[simp] theorem modInputs_banks (s : State) (f : Inputs → Inputs) :
    (modInputs s f).banks = s.banks := rfl

@[simp] theorem modInputs_batons (s : State) (f : Inputs → Inputs) :
    (modInputs s f).batons = s.batons := rfl

@[simp] theorem modInputs_semMsgs (s : State) (f : Inputs → Inputs) :
    (modInputs s f).semMsgs = s.semMsgs := rfl

@[simp] theorem modInputs_filling (s : State) (f : Inputs → Inputs) :
    (modInputs s f).filling = s.filling := rfl

@[simp] theorem modInputs_firstPoison (s : State) (f : Inputs → Inputs) :
    (modInputs s f).firstPoison = s.firstPoison := rfl

@[simp] theorem modInputs_fronts (s : State) (f : Inputs → Inputs) :
    (modInputs s f).fronts = s.fronts := rfl

@[simp] theorem modInputs_seeds (s : State) (f : Inputs → Inputs) :
    (modInputs s f).seeds = s.seeds := rfl

@[simp] theorem modInputs_beats (s : State) (f : Inputs → Inputs) :
    (modInputs s f).beats = s.beats := rfl

@[simp] theorem modInputs_preds (s : State) (f : Inputs → Inputs) :
    (modInputs s f).preds = s.preds := rfl

@[simp] theorem modInputs_segms (s : State) (f : Inputs → Inputs) :
    (modInputs s f).segms = s.segms := rfl

@[simp] theorem modInputs_arrayFaults (s : State) (f : Inputs → Inputs) :
    (modInputs s f).arrayFaults = s.arrayFaults := rfl

@[simp] theorem modInputs_tables (s : State) (f : Inputs → Inputs) :
    (modInputs s f).tables = s.tables := rfl

@[simp] theorem modInputs_pendingReads (s : State) (f : Inputs → Inputs) :
    (modInputs s f).pendingReads = s.pendingReads := rfl

@[simp] theorem modInputs_retiringPc (s : State) (f : Inputs → Inputs) :
    (modInputs s f).retiringPc = s.retiringPc := rfl

@[simp] theorem modInputs_held (s : State) (f : Inputs → Inputs) :
    (modInputs s f).held = s.held := rfl

@[simp] theorem modInputs_noticed (s : State) (f : Inputs → Inputs) :
    (modInputs s f).noticed = s.noticed := rfl

@[simp] theorem modInputs_lapse (s : State) (f : Inputs → Inputs) :
    (modInputs s f).lapse = s.lapse := rfl

@[simp] theorem modInputs_cxlReqs (s : State) (f : Inputs → Inputs) :
    (modInputs s f).cxlReqs = s.cxlReqs := rfl

@[simp] theorem modInputs_cxlXid (s : State) (f : Inputs → Inputs) :
    (modInputs s f).cxlXid = s.cxlXid := rfl

@[simp] theorem modInputs_pcCorr (s : State) (f : Inputs → Inputs) :
    (modInputs s f).pcCorr = s.pcCorr := rfl

@[simp] theorem modInputs_dmas (s : State) (f : Inputs → Inputs) :
    (modInputs s f).dmas = s.dmas := rfl

@[simp] theorem modInputs_remotes (s : State) (f : Inputs → Inputs) :
    (modInputs s f).remotes = s.remotes := rfl

@[simp] theorem modInputs_xid (s : State) (f : Inputs → Inputs) :
    (modInputs s f).xid = s.xid := rfl

@[simp] theorem modInputs_stride (s : State) (f : Inputs → Inputs) :
    (modInputs s f).stride = s.stride := rfl

@[simp] theorem modInputs_sync (s : State) (f : Inputs → Inputs) :
    (modInputs s f).sync = s.sync := rfl

@[simp] theorem modInputs_routes (s : State) (f : Inputs → Inputs) :
    (modInputs s f).routes = s.routes := rfl

@[simp] theorem modInputs_lost (s : State) (f : Inputs → Inputs) :
    (modInputs s f).lost = s.lost := rfl

@[simp] theorem modInputs_ledger (s : State) (f : Inputs → Inputs) :
    (modInputs s f).ledger = s.ledger := rfl

@[simp] theorem modInputs_decisionMsgs (s : State) (f : Inputs → Inputs) :
    (modInputs s f).decisionMsgs = s.decisionMsgs := rfl

@[simp] theorem modInputs_decisions (s : State) (f : Inputs → Inputs) :
    (modInputs s f).decisions = s.decisions := rfl

@[simp] theorem modInputs_pubs (s : State) (f : Inputs → Inputs) :
    (modInputs s f).pubs = s.pubs := rfl

@[simp] theorem modInputs_pubNext (s : State) (f : Inputs → Inputs) :
    (modInputs s f).pubNext = s.pubNext := rfl

@[simp] theorem modInputs_locks (s : State) (f : Inputs → Inputs) :
    (modInputs s f).locks = s.locks := rfl

@[simp] theorem modInputs_lockMsgs (s : State) (f : Inputs → Inputs) :
    (modInputs s f).lockMsgs = s.lockMsgs := rfl

@[simp] theorem modInputs_oldMsgs (s : State) (f : Inputs → Inputs) :
    (modInputs s f).oldMsgs = s.oldMsgs := rfl

@[simp] theorem modInputs_unlockMsgs (s : State) (f : Inputs → Inputs) :
    (modInputs s f).unlockMsgs = s.unlockMsgs := rfl

@[simp] theorem modInputs_parks (s : State) (f : Inputs → Inputs) :
    (modInputs s f).parks = s.parks := rfl

@[simp] theorem modInputs_relays (s : State) (f : Inputs → Inputs) :
    (modInputs s f).relays = s.relays := rfl

@[simp] theorem modInputs_sentSegs (s : State) (f : Inputs → Inputs) :
    (modInputs s f).sentSegs = s.sentSegs := rfl

@[simp] theorem modInputs_nauloPorts (s : State) (f : Inputs → Inputs) :
    (modInputs s f).nauloPorts = s.nauloPorts := rfl

@[simp] theorem modInputs_reported (s : State) (f : Inputs → Inputs) :
    (modInputs s f).reported = s.reported := rfl

@[simp] theorem modInputs_records (s : State) (f : Inputs → Inputs) :
    (modInputs s f).records = s.records := rfl

@[simp] theorem modInputs_events (s : State) (f : Inputs → Inputs) :
    (modInputs s f).events = s.events := rfl

@[simp] theorem modInputs_steward (s : State) (f : Inputs → Inputs) :
    (modInputs s f).steward = s.steward := rfl

@[simp] theorem modInputs_changes (s : State) (f : Inputs → Inputs) :
    (modInputs s f).changes = s.changes := rfl

@[simp] theorem modInputs_relocks (s : State) (f : Inputs → Inputs) :
    (modInputs s f).relocks = s.relocks := rfl

@[simp] theorem modInputs_resetting (s : State) (f : Inputs → Inputs) :
    (modInputs s f).resetting = s.resetting := rfl

@[simp] theorem modInputs_replan (s : State) (f : Inputs → Inputs) :
    (modInputs s f).replan = s.replan := rfl

@[simp] theorem modInputs_feeds (s : State) (f : Inputs → Inputs) :
    (modInputs s f).feeds = s.feeds := rfl

@[simp] theorem modInputs_throttleUntil (s : State) (f : Inputs → Inputs) :
    (modInputs s f).throttleUntil = s.throttleUntil := rfl

@[simp] theorem modInputs_hotRuns (s : State) (f : Inputs → Inputs) :
    (modInputs s f).hotRuns = s.hotRuns := rfl

@[simp] theorem modInputs_tripped (s : State) (f : Inputs → Inputs) :
    (modInputs s f).tripped = s.tripped := rfl

@[simp] theorem modInputs_flash (s : State) (f : Inputs → Inputs) :
    (modInputs s f).flash = s.flash := rfl

@[simp] theorem modInputs_boot (s : State) (f : Inputs → Inputs) :
    (modInputs s f).boot = s.boot := rfl

@[simp] theorem modInputs_host (s : State) (f : Inputs → Inputs) :
    (modInputs s f).host = s.host := rfl

@[simp] theorem modInputs_resetReq (s : State) (f : Inputs → Inputs) :
    (modInputs s f).resetReq = s.resetReq := rfl

@[simp] theorem modInputs_tap (s : State) (f : Inputs → Inputs) :
    (modInputs s f).tap = s.tap := rfl

@[simp] theorem modInputs_trace (s : State) (f : Inputs → Inputs) :
    (modInputs s f).trace = s.trace := rfl

@[simp] theorem modInputs_cvs (s : State) (f : Inputs → Inputs) :
    (modInputs s f).cvs = s.cvs := rfl

@[simp] theorem modInputs_paths (s : State) (f : Inputs → Inputs) :
    (modInputs s f).paths = s.paths := rfl

/-! ### putPort -/

@[simp] theorem putPort_pending (s : State) (p : NauloId) (v : NauloPort) :
    (putPort s p v).pending = s.pending := rfl

@[simp] theorem putPort_now (s : State) (p : NauloId) (v : NauloPort) :
    (putPort s p v).now = s.now := rfl

@[simp] theorem putPort_fresh (s : State) (p : NauloId) (v : NauloPort) :
    (putPort s p v).fresh = s.fresh := rfl

@[simp] theorem putPort_outputs (s : State) (p : NauloId) (v : NauloPort) :
    (putPort s p v).outputs = s.outputs := rfl

@[simp] theorem putPort_regs (s : State) (p : NauloId) (v : NauloPort) :
    (putPort s p v).regs = s.regs := rfl

@[simp] theorem putPort_shadows (s : State) (p : NauloId) (v : NauloPort) :
    (putPort s p v).shadows = s.shadows := rfl

@[simp] theorem putPort_counters (s : State) (p : NauloId) (v : NauloPort) :
    (putPort s p v).counters = s.counters := rfl

@[simp] theorem putPort_latched (s : State) (p : NauloId) (v : NauloPort) :
    (putPort s p v).latched = s.latched := rfl

@[simp] theorem putPort_mem (s : State) (p : NauloId) (v : NauloPort) :
    (putPort s p v).mem = s.mem := rfl

@[simp] theorem putPort_badParity (s : State) (p : NauloId) (v : NauloPort) :
    (putPort s p v).badParity = s.badParity := rfl

@[simp] theorem putPort_larderFlips (s : State) (p : NauloId) (v : NauloPort) :
    (putPort s p v).larderFlips = s.larderFlips := rfl

@[simp] theorem putPort_hbmFlips (s : State) (p : NauloId) (v : NauloPort) :
    (putPort s p v).hbmFlips = s.hbmFlips := rfl

@[simp] theorem putPort_slowPoison (s : State) (p : NauloId) (v : NauloPort) :
    (putPort s p v).slowPoison = s.slowPoison := rfl

@[simp] theorem putPort_epoch (s : State) (p : NauloId) (v : NauloPort) :
    (putPort s p v).epoch = s.epoch := rfl

@[simp] theorem putPort_banks (s : State) (p : NauloId) (v : NauloPort) :
    (putPort s p v).banks = s.banks := rfl

@[simp] theorem putPort_batons (s : State) (p : NauloId) (v : NauloPort) :
    (putPort s p v).batons = s.batons := rfl

@[simp] theorem putPort_semMsgs (s : State) (p : NauloId) (v : NauloPort) :
    (putPort s p v).semMsgs = s.semMsgs := rfl

@[simp] theorem putPort_filling (s : State) (p : NauloId) (v : NauloPort) :
    (putPort s p v).filling = s.filling := rfl

@[simp] theorem putPort_firstPoison (s : State) (p : NauloId) (v : NauloPort) :
    (putPort s p v).firstPoison = s.firstPoison := rfl

@[simp] theorem putPort_fronts (s : State) (p : NauloId) (v : NauloPort) :
    (putPort s p v).fronts = s.fronts := rfl

@[simp] theorem putPort_seeds (s : State) (p : NauloId) (v : NauloPort) :
    (putPort s p v).seeds = s.seeds := rfl

@[simp] theorem putPort_beats (s : State) (p : NauloId) (v : NauloPort) :
    (putPort s p v).beats = s.beats := rfl

@[simp] theorem putPort_preds (s : State) (p : NauloId) (v : NauloPort) :
    (putPort s p v).preds = s.preds := rfl

@[simp] theorem putPort_segms (s : State) (p : NauloId) (v : NauloPort) :
    (putPort s p v).segms = s.segms := rfl

@[simp] theorem putPort_arrayFaults (s : State) (p : NauloId) (v : NauloPort) :
    (putPort s p v).arrayFaults = s.arrayFaults := rfl

@[simp] theorem putPort_tables (s : State) (p : NauloId) (v : NauloPort) :
    (putPort s p v).tables = s.tables := rfl

@[simp] theorem putPort_pendingReads (s : State) (p : NauloId) (v : NauloPort) :
    (putPort s p v).pendingReads = s.pendingReads := rfl

@[simp] theorem putPort_retiringPc (s : State) (p : NauloId) (v : NauloPort) :
    (putPort s p v).retiringPc = s.retiringPc := rfl

@[simp] theorem putPort_held (s : State) (p : NauloId) (v : NauloPort) :
    (putPort s p v).held = s.held := rfl

@[simp] theorem putPort_noticed (s : State) (p : NauloId) (v : NauloPort) :
    (putPort s p v).noticed = s.noticed := rfl

@[simp] theorem putPort_lapse (s : State) (p : NauloId) (v : NauloPort) :
    (putPort s p v).lapse = s.lapse := rfl

@[simp] theorem putPort_cxlReqs (s : State) (p : NauloId) (v : NauloPort) :
    (putPort s p v).cxlReqs = s.cxlReqs := rfl

@[simp] theorem putPort_cxlXid (s : State) (p : NauloId) (v : NauloPort) :
    (putPort s p v).cxlXid = s.cxlXid := rfl

@[simp] theorem putPort_pcCorr (s : State) (p : NauloId) (v : NauloPort) :
    (putPort s p v).pcCorr = s.pcCorr := rfl

@[simp] theorem putPort_dmas (s : State) (p : NauloId) (v : NauloPort) :
    (putPort s p v).dmas = s.dmas := rfl

@[simp] theorem putPort_remotes (s : State) (p : NauloId) (v : NauloPort) :
    (putPort s p v).remotes = s.remotes := rfl

@[simp] theorem putPort_xid (s : State) (p : NauloId) (v : NauloPort) :
    (putPort s p v).xid = s.xid := rfl

@[simp] theorem putPort_stride (s : State) (p : NauloId) (v : NauloPort) :
    (putPort s p v).stride = s.stride := rfl

@[simp] theorem putPort_sync (s : State) (p : NauloId) (v : NauloPort) :
    (putPort s p v).sync = s.sync := rfl

@[simp] theorem putPort_routes (s : State) (p : NauloId) (v : NauloPort) :
    (putPort s p v).routes = s.routes := rfl

@[simp] theorem putPort_lost (s : State) (p : NauloId) (v : NauloPort) :
    (putPort s p v).lost = s.lost := rfl

@[simp] theorem putPort_ledger (s : State) (p : NauloId) (v : NauloPort) :
    (putPort s p v).ledger = s.ledger := rfl

@[simp] theorem putPort_decisionMsgs (s : State) (p : NauloId) (v : NauloPort) :
    (putPort s p v).decisionMsgs = s.decisionMsgs := rfl

@[simp] theorem putPort_decisions (s : State) (p : NauloId) (v : NauloPort) :
    (putPort s p v).decisions = s.decisions := rfl

@[simp] theorem putPort_pubs (s : State) (p : NauloId) (v : NauloPort) :
    (putPort s p v).pubs = s.pubs := rfl

@[simp] theorem putPort_pubNext (s : State) (p : NauloId) (v : NauloPort) :
    (putPort s p v).pubNext = s.pubNext := rfl

@[simp] theorem putPort_locks (s : State) (p : NauloId) (v : NauloPort) :
    (putPort s p v).locks = s.locks := rfl

@[simp] theorem putPort_lockMsgs (s : State) (p : NauloId) (v : NauloPort) :
    (putPort s p v).lockMsgs = s.lockMsgs := rfl

@[simp] theorem putPort_oldMsgs (s : State) (p : NauloId) (v : NauloPort) :
    (putPort s p v).oldMsgs = s.oldMsgs := rfl

@[simp] theorem putPort_unlockMsgs (s : State) (p : NauloId) (v : NauloPort) :
    (putPort s p v).unlockMsgs = s.unlockMsgs := rfl

@[simp] theorem putPort_parks (s : State) (p : NauloId) (v : NauloPort) :
    (putPort s p v).parks = s.parks := rfl

@[simp] theorem putPort_relays (s : State) (p : NauloId) (v : NauloPort) :
    (putPort s p v).relays = s.relays := rfl

@[simp] theorem putPort_sentSegs (s : State) (p : NauloId) (v : NauloPort) :
    (putPort s p v).sentSegs = s.sentSegs := rfl

@[simp] theorem putPort_reported (s : State) (p : NauloId) (v : NauloPort) :
    (putPort s p v).reported = s.reported := rfl

@[simp] theorem putPort_records (s : State) (p : NauloId) (v : NauloPort) :
    (putPort s p v).records = s.records := rfl

@[simp] theorem putPort_events (s : State) (p : NauloId) (v : NauloPort) :
    (putPort s p v).events = s.events := rfl

@[simp] theorem putPort_steward (s : State) (p : NauloId) (v : NauloPort) :
    (putPort s p v).steward = s.steward := rfl

@[simp] theorem putPort_changes (s : State) (p : NauloId) (v : NauloPort) :
    (putPort s p v).changes = s.changes := rfl

@[simp] theorem putPort_relocks (s : State) (p : NauloId) (v : NauloPort) :
    (putPort s p v).relocks = s.relocks := rfl

@[simp] theorem putPort_resetting (s : State) (p : NauloId) (v : NauloPort) :
    (putPort s p v).resetting = s.resetting := rfl

@[simp] theorem putPort_replan (s : State) (p : NauloId) (v : NauloPort) :
    (putPort s p v).replan = s.replan := rfl

@[simp] theorem putPort_feeds (s : State) (p : NauloId) (v : NauloPort) :
    (putPort s p v).feeds = s.feeds := rfl

@[simp] theorem putPort_throttleUntil (s : State) (p : NauloId) (v : NauloPort) :
    (putPort s p v).throttleUntil = s.throttleUntil := rfl

@[simp] theorem putPort_inputs (s : State) (p : NauloId) (v : NauloPort) :
    (putPort s p v).inputs = s.inputs := rfl

@[simp] theorem putPort_hotRuns (s : State) (p : NauloId) (v : NauloPort) :
    (putPort s p v).hotRuns = s.hotRuns := rfl

@[simp] theorem putPort_tripped (s : State) (p : NauloId) (v : NauloPort) :
    (putPort s p v).tripped = s.tripped := rfl

@[simp] theorem putPort_flash (s : State) (p : NauloId) (v : NauloPort) :
    (putPort s p v).flash = s.flash := rfl

@[simp] theorem putPort_boot (s : State) (p : NauloId) (v : NauloPort) :
    (putPort s p v).boot = s.boot := rfl

@[simp] theorem putPort_host (s : State) (p : NauloId) (v : NauloPort) :
    (putPort s p v).host = s.host := rfl

@[simp] theorem putPort_resetReq (s : State) (p : NauloId) (v : NauloPort) :
    (putPort s p v).resetReq = s.resetReq := rfl

@[simp] theorem putPort_tap (s : State) (p : NauloId) (v : NauloPort) :
    (putPort s p v).tap = s.tap := rfl

@[simp] theorem putPort_trace (s : State) (p : NauloId) (v : NauloPort) :
    (putPort s p v).trace = s.trace := rfl

@[simp] theorem putPort_cvs (s : State) (p : NauloId) (v : NauloPort) :
    (putPort s p v).cvs = s.cvs := rfl

@[simp] theorem putPort_paths (s : State) (p : NauloId) (v : NauloPort) :
    (putPort s p v).paths = s.paths := rfl

/-! ### putPath -/

@[simp] theorem putPath_pending (s : State) (d : DieId) (k : Fin 4) (v : PathState) :
    (putPath s d k v).pending = s.pending := rfl

@[simp] theorem putPath_now (s : State) (d : DieId) (k : Fin 4) (v : PathState) :
    (putPath s d k v).now = s.now := rfl

@[simp] theorem putPath_fresh (s : State) (d : DieId) (k : Fin 4) (v : PathState) :
    (putPath s d k v).fresh = s.fresh := rfl

@[simp] theorem putPath_outputs (s : State) (d : DieId) (k : Fin 4) (v : PathState) :
    (putPath s d k v).outputs = s.outputs := rfl

@[simp] theorem putPath_regs (s : State) (d : DieId) (k : Fin 4) (v : PathState) :
    (putPath s d k v).regs = s.regs := rfl

@[simp] theorem putPath_shadows (s : State) (d : DieId) (k : Fin 4) (v : PathState) :
    (putPath s d k v).shadows = s.shadows := rfl

@[simp] theorem putPath_counters (s : State) (d : DieId) (k : Fin 4) (v : PathState) :
    (putPath s d k v).counters = s.counters := rfl

@[simp] theorem putPath_latched (s : State) (d : DieId) (k : Fin 4) (v : PathState) :
    (putPath s d k v).latched = s.latched := rfl

@[simp] theorem putPath_mem (s : State) (d : DieId) (k : Fin 4) (v : PathState) :
    (putPath s d k v).mem = s.mem := rfl

@[simp] theorem putPath_badParity (s : State) (d : DieId) (k : Fin 4) (v : PathState) :
    (putPath s d k v).badParity = s.badParity := rfl

@[simp] theorem putPath_larderFlips (s : State) (d : DieId) (k : Fin 4) (v : PathState) :
    (putPath s d k v).larderFlips = s.larderFlips := rfl

@[simp] theorem putPath_hbmFlips (s : State) (d : DieId) (k : Fin 4) (v : PathState) :
    (putPath s d k v).hbmFlips = s.hbmFlips := rfl

@[simp] theorem putPath_slowPoison (s : State) (d : DieId) (k : Fin 4) (v : PathState) :
    (putPath s d k v).slowPoison = s.slowPoison := rfl

@[simp] theorem putPath_epoch (s : State) (d : DieId) (k : Fin 4) (v : PathState) :
    (putPath s d k v).epoch = s.epoch := rfl

@[simp] theorem putPath_banks (s : State) (d : DieId) (k : Fin 4) (v : PathState) :
    (putPath s d k v).banks = s.banks := rfl

@[simp] theorem putPath_batons (s : State) (d : DieId) (k : Fin 4) (v : PathState) :
    (putPath s d k v).batons = s.batons := rfl

@[simp] theorem putPath_semMsgs (s : State) (d : DieId) (k : Fin 4) (v : PathState) :
    (putPath s d k v).semMsgs = s.semMsgs := rfl

@[simp] theorem putPath_filling (s : State) (d : DieId) (k : Fin 4) (v : PathState) :
    (putPath s d k v).filling = s.filling := rfl

@[simp] theorem putPath_firstPoison (s : State) (d : DieId) (k : Fin 4) (v : PathState) :
    (putPath s d k v).firstPoison = s.firstPoison := rfl

@[simp] theorem putPath_fronts (s : State) (d : DieId) (k : Fin 4) (v : PathState) :
    (putPath s d k v).fronts = s.fronts := rfl

@[simp] theorem putPath_seeds (s : State) (d : DieId) (k : Fin 4) (v : PathState) :
    (putPath s d k v).seeds = s.seeds := rfl

@[simp] theorem putPath_beats (s : State) (d : DieId) (k : Fin 4) (v : PathState) :
    (putPath s d k v).beats = s.beats := rfl

@[simp] theorem putPath_preds (s : State) (d : DieId) (k : Fin 4) (v : PathState) :
    (putPath s d k v).preds = s.preds := rfl

@[simp] theorem putPath_segms (s : State) (d : DieId) (k : Fin 4) (v : PathState) :
    (putPath s d k v).segms = s.segms := rfl

@[simp] theorem putPath_arrayFaults (s : State) (d : DieId) (k : Fin 4) (v : PathState) :
    (putPath s d k v).arrayFaults = s.arrayFaults := rfl

@[simp] theorem putPath_tables (s : State) (d : DieId) (k : Fin 4) (v : PathState) :
    (putPath s d k v).tables = s.tables := rfl

@[simp] theorem putPath_pendingReads (s : State) (d : DieId) (k : Fin 4) (v : PathState) :
    (putPath s d k v).pendingReads = s.pendingReads := rfl

@[simp] theorem putPath_retiringPc (s : State) (d : DieId) (k : Fin 4) (v : PathState) :
    (putPath s d k v).retiringPc = s.retiringPc := rfl

@[simp] theorem putPath_held (s : State) (d : DieId) (k : Fin 4) (v : PathState) :
    (putPath s d k v).held = s.held := rfl

@[simp] theorem putPath_noticed (s : State) (d : DieId) (k : Fin 4) (v : PathState) :
    (putPath s d k v).noticed = s.noticed := rfl

@[simp] theorem putPath_lapse (s : State) (d : DieId) (k : Fin 4) (v : PathState) :
    (putPath s d k v).lapse = s.lapse := rfl

@[simp] theorem putPath_cxlReqs (s : State) (d : DieId) (k : Fin 4) (v : PathState) :
    (putPath s d k v).cxlReqs = s.cxlReqs := rfl

@[simp] theorem putPath_cxlXid (s : State) (d : DieId) (k : Fin 4) (v : PathState) :
    (putPath s d k v).cxlXid = s.cxlXid := rfl

@[simp] theorem putPath_pcCorr (s : State) (d : DieId) (k : Fin 4) (v : PathState) :
    (putPath s d k v).pcCorr = s.pcCorr := rfl

@[simp] theorem putPath_dmas (s : State) (d : DieId) (k : Fin 4) (v : PathState) :
    (putPath s d k v).dmas = s.dmas := rfl

@[simp] theorem putPath_remotes (s : State) (d : DieId) (k : Fin 4) (v : PathState) :
    (putPath s d k v).remotes = s.remotes := rfl

@[simp] theorem putPath_xid (s : State) (d : DieId) (k : Fin 4) (v : PathState) :
    (putPath s d k v).xid = s.xid := rfl

@[simp] theorem putPath_stride (s : State) (d : DieId) (k : Fin 4) (v : PathState) :
    (putPath s d k v).stride = s.stride := rfl

@[simp] theorem putPath_sync (s : State) (d : DieId) (k : Fin 4) (v : PathState) :
    (putPath s d k v).sync = s.sync := rfl

@[simp] theorem putPath_routes (s : State) (d : DieId) (k : Fin 4) (v : PathState) :
    (putPath s d k v).routes = s.routes := rfl

@[simp] theorem putPath_lost (s : State) (d : DieId) (k : Fin 4) (v : PathState) :
    (putPath s d k v).lost = s.lost := rfl

@[simp] theorem putPath_ledger (s : State) (d : DieId) (k : Fin 4) (v : PathState) :
    (putPath s d k v).ledger = s.ledger := rfl

@[simp] theorem putPath_decisionMsgs (s : State) (d : DieId) (k : Fin 4) (v : PathState) :
    (putPath s d k v).decisionMsgs = s.decisionMsgs := rfl

@[simp] theorem putPath_decisions (s : State) (d : DieId) (k : Fin 4) (v : PathState) :
    (putPath s d k v).decisions = s.decisions := rfl

@[simp] theorem putPath_pubs (s : State) (d : DieId) (k : Fin 4) (v : PathState) :
    (putPath s d k v).pubs = s.pubs := rfl

@[simp] theorem putPath_pubNext (s : State) (d : DieId) (k : Fin 4) (v : PathState) :
    (putPath s d k v).pubNext = s.pubNext := rfl

@[simp] theorem putPath_locks (s : State) (d : DieId) (k : Fin 4) (v : PathState) :
    (putPath s d k v).locks = s.locks := rfl

@[simp] theorem putPath_lockMsgs (s : State) (d : DieId) (k : Fin 4) (v : PathState) :
    (putPath s d k v).lockMsgs = s.lockMsgs := rfl

@[simp] theorem putPath_oldMsgs (s : State) (d : DieId) (k : Fin 4) (v : PathState) :
    (putPath s d k v).oldMsgs = s.oldMsgs := rfl

@[simp] theorem putPath_unlockMsgs (s : State) (d : DieId) (k : Fin 4) (v : PathState) :
    (putPath s d k v).unlockMsgs = s.unlockMsgs := rfl

@[simp] theorem putPath_parks (s : State) (d : DieId) (k : Fin 4) (v : PathState) :
    (putPath s d k v).parks = s.parks := rfl

@[simp] theorem putPath_relays (s : State) (d : DieId) (k : Fin 4) (v : PathState) :
    (putPath s d k v).relays = s.relays := rfl

@[simp] theorem putPath_sentSegs (s : State) (d : DieId) (k : Fin 4) (v : PathState) :
    (putPath s d k v).sentSegs = s.sentSegs := rfl

@[simp] theorem putPath_nauloPorts (s : State) (d : DieId) (k : Fin 4) (v : PathState) :
    (putPath s d k v).nauloPorts = s.nauloPorts := rfl

@[simp] theorem putPath_reported (s : State) (d : DieId) (k : Fin 4) (v : PathState) :
    (putPath s d k v).reported = s.reported := rfl

@[simp] theorem putPath_records (s : State) (d : DieId) (k : Fin 4) (v : PathState) :
    (putPath s d k v).records = s.records := rfl

@[simp] theorem putPath_events (s : State) (d : DieId) (k : Fin 4) (v : PathState) :
    (putPath s d k v).events = s.events := rfl

@[simp] theorem putPath_steward (s : State) (d : DieId) (k : Fin 4) (v : PathState) :
    (putPath s d k v).steward = s.steward := rfl

@[simp] theorem putPath_changes (s : State) (d : DieId) (k : Fin 4) (v : PathState) :
    (putPath s d k v).changes = s.changes := rfl

@[simp] theorem putPath_relocks (s : State) (d : DieId) (k : Fin 4) (v : PathState) :
    (putPath s d k v).relocks = s.relocks := rfl

@[simp] theorem putPath_resetting (s : State) (d : DieId) (k : Fin 4) (v : PathState) :
    (putPath s d k v).resetting = s.resetting := rfl

@[simp] theorem putPath_replan (s : State) (d : DieId) (k : Fin 4) (v : PathState) :
    (putPath s d k v).replan = s.replan := rfl

@[simp] theorem putPath_feeds (s : State) (d : DieId) (k : Fin 4) (v : PathState) :
    (putPath s d k v).feeds = s.feeds := rfl

@[simp] theorem putPath_throttleUntil (s : State) (d : DieId) (k : Fin 4) (v : PathState) :
    (putPath s d k v).throttleUntil = s.throttleUntil := rfl

@[simp] theorem putPath_inputs (s : State) (d : DieId) (k : Fin 4) (v : PathState) :
    (putPath s d k v).inputs = s.inputs := rfl

@[simp] theorem putPath_hotRuns (s : State) (d : DieId) (k : Fin 4) (v : PathState) :
    (putPath s d k v).hotRuns = s.hotRuns := rfl

@[simp] theorem putPath_tripped (s : State) (d : DieId) (k : Fin 4) (v : PathState) :
    (putPath s d k v).tripped = s.tripped := rfl

@[simp] theorem putPath_flash (s : State) (d : DieId) (k : Fin 4) (v : PathState) :
    (putPath s d k v).flash = s.flash := rfl

@[simp] theorem putPath_boot (s : State) (d : DieId) (k : Fin 4) (v : PathState) :
    (putPath s d k v).boot = s.boot := rfl

@[simp] theorem putPath_host (s : State) (d : DieId) (k : Fin 4) (v : PathState) :
    (putPath s d k v).host = s.host := rfl

@[simp] theorem putPath_resetReq (s : State) (d : DieId) (k : Fin 4) (v : PathState) :
    (putPath s d k v).resetReq = s.resetReq := rfl

@[simp] theorem putPath_tap (s : State) (d : DieId) (k : Fin 4) (v : PathState) :
    (putPath s d k v).tap = s.tap := rfl

@[simp] theorem putPath_trace (s : State) (d : DieId) (k : Fin 4) (v : PathState) :
    (putPath s d k v).trace = s.trace := rfl

@[simp] theorem putPath_cvs (s : State) (d : DieId) (k : Fin 4) (v : PathState) :
    (putPath s d k v).cvs = s.cvs := rfl

/-! ### Reading a table after a write of it -/

/-- A register just written reads as written. -/
theorem rget_rput (s : State) (b : Block) (off : Nat) (v : Word) (i : s.Inv) : rget (rput s b off v) b off = v :=
  tget_tset_rise _ _ _ 0 _ i.regs

/-- Another register reads as before. -/
theorem rget_rput_ne (s : State) (b c : Block) (off j : Nat) (v : Word) (i : s.Inv) (h : c.base + j ≠ b.base + off) :
    rget (rput s b off v) c j = rget s c j := tget_tset_rise_ne _ _ _ _ _ h 0 _ i.regs

/-- A counter just counted. -/
theorem ctr_bump (s : State) (b : Block) (k n : Nat) (i : s.Inv) : ctr (bump s b k n) b k = sat 64 (ctr s b k + n) :=
  tget_tset_rise _ _ _ 0 _ i.counters

/-- Another counter. -/
theorem ctr_bump_ne (s : State) (b c : Block) (k j n : Nat) (i : s.Inv) (h : c.page * 24 + j ≠ b.page * 24 + k) :
    ctr (bump s b k n) c j = ctr s c j := tget_tset_rise_ne _ _ _ _ _ h 0 _ i.counters

@[simp] theorem rget_bump (s : State) (b c : Block) (k n j : Nat) : rget (bump s b k n) c j = rget s c j := rfl
@[simp] theorem rget_emit (s : State) (o : Output) (c : Block) (j : Nat) : rget (emit s o) c j = rget s c j := rfl
@[simp] theorem rget_useFresh (s : State) (c : Block) (j : Nat) : rget (useFresh s) c j = rget s c j := rfl
@[simp] theorem ctr_rput (s : State) (b c : Block) (off j : Nat) (v : Word) : ctr (rput s b off v) c j = ctr s c j := rfl
@[simp] theorem ctr_emit (s : State) (o : Output) (c : Block) (j : Nat) : ctr (emit s o) c j = ctr s c j := rfl
@[simp] theorem ctr_useFresh (s : State) (c : Block) (j : Nat) : ctr (useFresh s) c j = ctr s c j := rfl

/-- A byte just written reads as written. -/
theorem getByte_putByte (s : State) (k : Nat) (v : Byte) (i : s.Inv) : getByte (putByte s k v) k = v :=
  tget_tset_self (unlistedByte s) s.mem k v i.mem

/-- Another byte reads as before. -/
theorem getByte_putByte_ne (s : State) (k j : Nat) (v : Byte) (h : j ≠ k) (i : s.Inv) :
    getByte (putByte s k v) j = getByte s j := tget_tset_other (unlistedByte s) s.mem k j v h i.mem

/-- Every write of a byte keeps the memory in its canonical form. -/
theorem memWf_putByte (s : State) (k : Nat) (v : Byte) (h : memWf s = true) : memWf (putByte s k v) = true :=
  twf_tset (unlistedByte s) s.mem k v h

/-- A write of bytes keeps the memory in its canonical form. -/
theorem memWf_putBytes (s : State) (k : Nat) (l : List Byte) (h : memWf s = true) : memWf (putBytes s k l) = true := by
  induction l generalizing s k with
  | nil => exact h
  | cons b t ih => exact ih _ _ (memWf_putByte s k b h)

end Sys2Proof.Machine
end

