-- ==== Sys2Proof/Laws/Fill.lean ====
section
/-!
SUPPORT. What memory reads as after a write of bytes and after a fill with zeros.
-/
namespace Sys2Proof.Machine

/-- Reading a table of which only some keys stay. -/
theorem tget_filter {α : Type} (d : α) (p : Nat → Bool) (k : Nat) : ∀ (lo : Nat) (l : List (Nat × α)), keysRiseFrom lo l = true →
    tget d (l.filter (fun x => p x.1)) k = if p k then tget d l k else d
  | _, [], _ => by simp [tget]
  | lo, (j, v) :: t, h => by
    simp only [keysRiseFrom, Bool.and_eq_true, decide_eq_true_eq] at h
    have ih := tget_filter d p k (j + 1) t h.2
    have low : k ≤ j → tget d t k = d := by
      intro hk
      cases t with
      | nil => rfl
      | cons x t =>
        obtain ⟨a, b⟩ := x
        simp only [keysRiseFrom, Bool.and_eq_true, decide_eq_true_eq] at h
        have h1 : ¬ a = k := by omega
        have h2 : k < a := by omega
        simp [tget, h1, h2]
    by_cases hp : p j = true
    · rw [List.filter_cons_of_pos (by simpa using hp)]
      by_cases h1 : j = k
      · subst h1; simp [tget, hp]
      · by_cases h2 : k < j
        · simp [tget, h1, h2]
        · simp [tget, h1, h2, ih]
    · rw [List.filter_cons_of_neg (by simpa using hp), ih]
      by_cases h1 : j = k
      · subst h1; simp [hp]
      · by_cases h2 : k < j
        · simp [tget, h1, h2, low (by omega)]
        · simp [tget, h1, h2]

/-- A table in canonical form has rising keys. -/
theorem twfFrom_rise {α : Type} [DecidableEq α] (d : Nat → α) : ∀ (lo : Nat) (l : List (Nat × α)), twfFrom d lo l = true →
    keysRiseFrom lo l = true
  | _, [], _ => rfl
  | lo, (k, v) :: t, h => by
    simp only [twfFrom, Bool.and_eq_true, decide_eq_true_eq] at h
    simp [keysRiseFrom, h.1.1, twfFrom_rise d _ t h.2]

/-- A byte after a write of bytes. -/
theorem getByte_putBytes (l : List Byte) : ∀ (s : State) (k j : Nat), s.Inv →
    getByte (putBytes s k l) j = if k ≤ j ∧ j < k + l.length then l.getD (j - k) 0 else getByte s j := by
  induction l with
  | nil => intro s k j _; simp only [putBytes, List.length_nil]; rw [if_neg (by omega)]
  | cons b t ih =>
    intro s k j i
    have i' : (putByte s k b).Inv := { i with mem := memWf_putByte s k b i.mem }
    rw [putBytes, ih _ _ _ i']
    by_cases h : k + 1 ≤ j ∧ j < k + 1 + t.length
    · rw [if_pos h, if_pos (by simp; omega)]
      obtain ⟨n, rfl⟩ : ∃ n, j = k + 1 + n := ⟨j - (k+1), by omega⟩
      have : k + 1 + n - k = n + 1 := by omega
      simp [this]
    · rw [if_neg h]
      by_cases hj : j = k
      · subst hj; rw [if_pos (by simp), getByte_putByte _ _ _ i]; simp
      · rw [if_neg (by simp; omega), getByte_putByte_ne _ _ _ _ hj i]

/-- A write of bytes changes the memory alone. -/
theorem putBytes_only (l : List Byte) : ∀ (s : State) (k : Nat), putBytes s k l = { s with mem := (putBytes s k l).mem } := by
  induction l with
  | nil => intros; rfl
  | cons b t ih => intro s k; rw [putBytes, ih]; rfl

/-- A byte after a fill with zeros. -/
theorem getByte_zeroRange (s : State) (k n j : Nat) (i : s.Inv) :
    getByte (zeroRange s k n) j = if k ≤ j ∧ j < k + n then 0 else getByte s j := by
  unfold zeroRange
  by_cases h : s.boot.phase = .ready ∧ k + n ≤ slowBase
  · have e : (s.boot.phase = .ready && k + n ≤ slowBase) = true := by simp [h.1, h.2]
    simp only [e, if_true]
    show tget (unlistedByte s j) (s.mem.filter (fun x => outside k n x.1)) j = _
    rw [tget_filter _ (outside k n) j 0 _ (twfFrom_rise _ _ _ i.mem)]
    by_cases hj : k ≤ j ∧ j < k + n
    · have : outside k n j = false := by simp [outside]; omega
      rw [this, if_pos hj]
      simp only [Bool.false_eq_true, if_false]
      unfold unlistedByte
      rw [if_neg (by omega), if_pos h.1]
    · have : outside k n j = true := by simp [outside]; omega
      rw [this, if_neg hj]; rfl
  · have e : (s.boot.phase = .ready && k + n ≤ slowBase) = false := by simpa using h
    simp only [e, Bool.false_eq_true, if_false]
    show getByte (putBytes s k (List.replicate n 0)) j = _
    rw [getByte_putBytes _ _ _ _ i]
    simp only [List.length_replicate]
    by_cases hj : k ≤ j ∧ j < k + n
    · rw [if_pos hj, if_pos hj]; simp
    · rw [if_neg hj, if_neg hj]

/-- What a fill with zeros changes: the bytes, and the marks of its range. -/
theorem zeroRange_rest (s : State) (k n : Nat) : zeroRange s k n = { s with
    mem := (zeroRange s k n).mem, badParity := s.badParity.filter (outside k n),
    larderFlips := s.larderFlips.filter (fun x => outside k n x.1),
    hbmFlips := s.hbmFlips.filter (fun x => outside k n x.1),
    reported := s.reported.filter (outside k n) } := by
  unfold zeroRange
  split
  · rfl
  · rw [putBytes_only]

end Sys2Proof.Machine
end

