-- ==== Sys2Proof/Laws/KeepsRun.lean ====
section
/-!
SUPPORT. What a computation of a command keeps, by the ways in which computations are put together.
-/
namespace Sys2Proof.Machine

/-- Running `x` changes the state only as `Keeps` allows, however it ends. -/
def RunKeeps {α : Type} (x : Run α) : Prop := ∀ r : RunState, Keeps r.st (x.run.run r).2.st

theorem RunKeeps.pure {α : Type} (a : α) : RunKeeps (Pure.pure a : Run α) := fun _ => Keeps.refl _

theorem RunKeeps.throw {α : Type} (e : Status) : RunKeeps (MonadExcept.throw e : Run α) := fun _ => Keeps.refl _

theorem RunKeeps.throwThe {α : Type} (e : Status) : RunKeeps (throwThe Status e : Run α) := fun _ => Keeps.refl _

theorem RunKeeps.stop {α : Type} (e : Status) : RunKeeps (stop e : Run α) := fun _ => Keeps.refl _

theorem RunKeeps.get : RunKeeps (MonadState.get : Run RunState) := fun _ => Keeps.refl _

theorem RunKeeps.getThe : RunKeeps (getThe RunState : Run RunState) := fun _ => Keeps.refl _

theorem RunKeeps.look {α : Type} (f : State → α) : RunKeeps (look f) := fun _ => Keeps.refl _

theorem RunKeeps.markDefect : RunKeeps markDefect := fun _ => Keeps.refl _

theorem RunKeeps.modify {f : RunState → RunState} (h : ∀ r, Keeps r.st (f r).st) : RunKeeps (modify f : Run PUnit) :=
  fun r => h r

theorem RunKeeps.act {f : State → State} (h : ∀ s, Keeps s (f s)) : RunKeeps (act f) := fun r => h r.st

theorem RunKeeps.bind {α β : Type} {x : Run α} {f : α → Run β} (hx : RunKeeps x) (hf : ∀ a, RunKeeps (f a)) :
    RunKeeps (x >>= f) := by
  intro r
  have h1 := hx r
  simp only [ExceptT.run_bind, StateT.run_bind]
  revert h1
  generalize (ExceptT.run x).run r = p
  obtain ⟨e, r'⟩ := p
  intro h1
  cases e with
  | error e => exact h1
  | ok a => exact h1.trans (hf a r')

theorem RunKeeps.map {α β : Type} {x : Run α} (f : α → β) (hx : RunKeeps x) : RunKeeps (f <$> x) := by
  rw [← bind_pure_comp]
  exact hx.bind fun _ => RunKeeps.pure _

theorem RunKeeps.seqRight {α β : Type} {x : Run α} {y : Run β} (hx : RunKeeps x) (hy : RunKeeps y) :
    RunKeeps (do let _ ← x; y) := hx.bind fun _ => hy

theorem RunKeeps.tryCatch {α : Type} {x : Run α} {f : Status → Run α} (hx : RunKeeps x) (hf : ∀ e, RunKeeps (f e)) :
    RunKeeps (MonadExcept.tryCatch x f) := by
  intro r
  have h1 := hx r
  rw [ExceptT.run_tryCatch, StateT.run_bind]
  revert h1
  generalize (ExceptT.run x).run r = p
  obtain ⟨e, r'⟩ := p
  intro h1
  cases e with
  | error e => exact h1.trans (hf e r')
  | ok a => exact h1

theorem RunKeeps.tryCatchThe {α : Type} {x : Run α} {f : Status → Run α} (hx : RunKeeps x)
    (hf : ∀ e, RunKeeps (f e)) : RunKeeps (tryCatchThe Status x f) := RunKeeps.tryCatch hx hf

/-- A computation that only looks at the state it starts from before it goes on. -/
theorem RunKeeps.ofGet {β : Type} {f : RunState → Run β} (h : ∀ r, Keeps r.st ((f r).run.run r).2.st) :
    RunKeeps (MonadState.get >>= f) := by
  intro r
  have e : (ExceptT.run (MonadState.get >>= f)).run r = (ExceptT.run (f r)).run r := rfl
  rw [e]
  exact h r

/-- Replace the state and go on. -/
theorem RunKeeps.afterModify {β : Type} {g : RunState → RunState} {x : Run β} {r : RunState} (hg : Keeps r.st (g r).st)
    (hx : RunKeeps x) : Keeps r.st (((MonadState.modifyGet (fun r => (PUnit.unit, g r)) : Run PUnit) >>= fun _ => x).run.run r).2.st := by
  have e : (ExceptT.run ((MonadState.modifyGet (fun r => (PUnit.unit, g r)) : Run PUnit) >>= fun _ => x)).run r =
      (ExceptT.run x).run (g r) := rfl
  rw [e]
  exact hg.trans (hx (g r))

theorem RunKeeps.need {f : State → State × Status} (h : ∀ s, Keeps s (f s).1) : RunKeeps (Machine.need f) := by
  refine RunKeeps.ofGet fun r => RunKeeps.afterModify (h r.st) ?_
  split
  · exact RunKeeps.pure _
  · exact RunKeeps.modify fun _ => Keeps.refl _
  · exact RunKeeps.throw _

theorem RunKeeps.thenPure {α β : Type} {x : Run α} {b : β} (hx : RunKeeps x) : RunKeeps (do let _ ← x; Pure.pure b) :=
  hx.bind fun _ => RunKeeps.pure _

theorem RunKeeps.needMaybe {f : State → State × Status × List Byte} (h : ∀ s, Keeps s (f s).1) :
    RunKeeps (Machine.needMaybe f) := by
  refine RunKeeps.ofGet fun r => RunKeeps.afterModify (h r.st) ?_
  split
  · exact RunKeeps.pure _
  · refine RunKeeps.bind (RunKeeps.modify ?_) fun _ => RunKeeps.pure _
    exact fun _ => Keeps.refl _
  · exact RunKeeps.throw _

theorem RunKeeps.needData {f : State → State × Status × List Byte} (h : ∀ s, Keeps s (f s).1) :
    RunKeeps (Machine.needData f) := by
  unfold Machine.needData
  refine (RunKeeps.needMaybe h).bind fun o => ?_
  split
  · exact RunKeeps.pure _
  · exact RunKeeps.throw _

theorem RunKeeps.defectAt {α : Type} (b : Block) (cause : Nat) (tag : Tag) (op : Nat)
    (h : ∀ s, Keeps s (raiseTag s b cause tag op)) : RunKeeps (Machine.defectAt b cause tag op : Run α) :=
  (RunKeeps.act h).bind fun _ => RunKeeps.throw _

theorem RunKeeps.forM {α : Type} {f : α → Run PUnit} (l : List α) (h : ∀ a, RunKeeps (f a)) : RunKeeps (l.forM f) := by
  induction l with
  | nil => exact RunKeeps.pure _
  | cons a l ih => exact (h a).bind fun _ => ih

theorem RunKeeps.forN {n : Nat} {f : Nat → Run Unit} (h : ∀ a, RunKeeps (f a)) : RunKeeps (Machine.forN n f) :=
  RunKeeps.forM _ h

theorem RunKeeps.mapM {α β : Type} {f : α → Run β} (l : List α) (h : ∀ a, RunKeeps (f a)) : RunKeeps (l.mapM f) := by
  rw [← List.mapM'_eq_mapM]
  induction l with
  | nil => exact RunKeeps.pure _
  | cons a l ih => exact (h a).bind fun _ => ih.bind fun _ => RunKeeps.pure _

theorem RunKeeps.foldlM {α β : Type} {f : β → α → Run β} (l : List α) (b : β) (h : ∀ b a, RunKeeps (f b a)) :
    RunKeeps (l.foldlM f b) := by
  induction l generalizing b with
  | nil => exact RunKeeps.pure _
  | cons a l ih => exact (h b a).bind fun b' => ih b'

theorem RunKeeps.forIn {α β : Type} {f : α → β → Run (ForInStep β)} (l : List α) (b : β) (h : ∀ a b, RunKeeps (f a b)) :
    RunKeeps (ForIn.forIn l b f) := by
  induction l generalizing b with
  | nil => exact RunKeeps.pure _
  | cons a l ih =>
    rw [List.forIn_cons]
    refine (h a b).bind fun x => ?_
    cases x with
    | done b => exact RunKeeps.pure _
    | yield b => exact ih b

/-- `RunKeeps`, and what the computation answers satisfies `P`. -/
def RunGives {α : Type} (x : Run α) (P : α → Prop) : Prop :=
  RunKeeps x ∧ ∀ (r : RunState) (a : α), (x.run.run r).1 = .ok a → P a

theorem RunKeeps.gives {α : Type} {x : Run α} (h : RunKeeps x) : RunGives x (fun _ => True) := ⟨h, fun _ _ _ => trivial⟩

theorem RunGives.pure {α : Type} {P : α → Prop} {a : α} (h : P a) : RunGives (Pure.pure a : Run α) P :=
  ⟨RunKeeps.pure a, fun _ b e => by cases e; exact h⟩

/-- One computation after another, where the second needs what the first answers. -/
theorem RunGives.keeps {α β : Type} {x : Run α} {P : α → Prop} {f : α → Run β} (hx : RunGives x P)
    (hf : ∀ a, P a → RunKeeps (f a)) : RunKeeps (x >>= f) := by
  intro r
  have h1 := hx.1 r
  have h2 := hx.2 r
  simp only [ExceptT.run_bind, StateT.run_bind]
  revert h1 h2
  generalize (ExceptT.run x).run r = p
  obtain ⟨e, r'⟩ := p
  intro h1 h2
  cases e with
  | error e => exact h1
  | ok a => exact h1.trans (hf a (h2 a rfl) r')

theorem RunGives.bind {α β : Type} {x : Run α} {P : α → Prop} {f : α → Run β} {Q : β → Prop} (hx : RunGives x P)
    (hf : ∀ a, P a → RunGives (f a) Q) : RunGives (x >>= f) Q := by
  refine ⟨hx.keeps fun a ha => (hf a ha).1, fun r b => ?_⟩
  have h2 := hx.2 r
  simp only [ExceptT.run_bind, StateT.run_bind]
  revert h2
  generalize (ExceptT.run x).run r = p
  obtain ⟨e, r'⟩ := p
  intro h2
  cases e with
  | error e => exact fun h => nomatch h
  | ok a => exact (hf a (h2 a rfl)).2 r' b

theorem RunGives.attempt {α : Type} {x : Run α} {P : α → Prop} (hx : RunGives x P) :
    RunGives (MonadExcept.tryCatch (do return Except.ok (← x)) (fun e => return Except.error e) : Run (Except Status α))
      (fun e => ∀ a, e = .ok a → P a) := by
  refine ⟨(hx.1.bind fun _ => RunKeeps.pure _).tryCatch fun _ => RunKeeps.pure _, fun r b => ?_⟩
  have h2 := hx.2 r
  rw [ExceptT.run_tryCatch, StateT.run_bind, ExceptT.run_bind, StateT.run_bind]
  revert h2
  generalize (ExceptT.run x).run r = p
  obtain ⟨e, r'⟩ := p
  intro h2
  cases e with
  | error e => intro h a ha; cases h; cases ha
  | ok a => intro h a' ha; cases h; cases ha; exact h2 a rfl

/-- A computation made only where a condition holds, before what comes after. -/
theorem RunKeeps.iteThen {β : Type} {c : Prop} [Decidable c] {x : Run PUnit} {k : PUnit → Run β} (hx : RunKeeps x)
    (hk : ∀ u, RunKeeps (k u)) : RunKeeps (if c then x >>= k else k PUnit.unit) := by
  split
  · exact hx.bind hk
  · exact hk _

/-- What a computation has left, told by the equation of its run. -/
theorem Keeps.ofRun {α : Type} {s : State} {x : Run α} {q r : RunState} {a : Except Status α}
    (e : StateT.run (ExceptT.run x) q = (a, r)) (h : RunKeeps x) (g : Keeps s q.st) : Keeps s r.st := by
  have := h q
  rw [e] at this
  exact g.trans this

/-- Running a computation keeps what it keeps. -/
theorem Keeps.runVal {α : Type} {s : State} {x : Run α} (memo : List (Nat × List Word)) (h : RunKeeps x) :
    Keeps s (Machine.runVal x memo s).2.st := by
  unfold Machine.runVal
  exact h { st := s, defect := false, refused := false, wrote := false, nf := false, memo := memo, lock := none, full := false }

theorem Keeps.runValEq {α : Type} {q s : State} {x : Run α} {memo : List (Nat × List Word)} {e : Except Status α}
    {r : RunState} (h : Machine.runVal x memo s = (e, r)) (hx : RunKeeps x) (g : Keeps q s) : Keeps q r.st := by
  have := Keeps.runVal (s := s) memo hx
  rw [h] at this
  exact g.trans this

/-- Running a command keeps what its computation keeps. -/
theorem Keeps.runFromEq {q s : State} {x : Run Unit} {memo : List (Nat × List Word)} {r : RunState} {st : Status}
    (h : Machine.runFrom x memo s = (r, st)) (hx : RunKeeps x) (g : Keeps q s) : Keeps q r.st := by
  have := Keeps.runVal (s := s) memo hx
  unfold Machine.runFrom at h
  cases h
  exact g.trans this

/-- A copy made at the start of a command. -/
theorem RunKeeps.startCopy {key : Nat} {x : Run (List Word)} (h : RunKeeps x) : RunKeeps (Machine.startCopy key x) := by
  refine RunKeeps.get.bind fun r => ?_
  split
  · exact RunKeeps.pure _
  · refine h.bind fun ws => RunKeeps.bind (RunKeeps.modify ?_) fun _ => RunKeeps.pure ws
    exact fun _ => Keeps.refl _

/-- An outcome's next state, if it has one, is one that `Keeps` allows. -/
def OutKeeps (s : State) (o : Host.Outcome State Fault Refusal) : Prop := ∀ t, o = .next t → Keeps s t

theorem OutKeeps.next {s t : State} (h : Keeps s t) : OutKeeps s (.next t) := by
  intro u e
  cases e
  exact h

/-- An outcome's next state, if it has one, is one that `Holds` allows. -/
def OutHolds (s : State) (o : Host.Outcome State Fault Refusal) : Prop := ∀ t, o = .next t → Holds s t

theorem OutHolds.next {s t : State} (h : Holds s t) : OutHolds s (.next t) := by
  intro u e
  cases e
  exact h

/-- An outcome's next state, if it has one, is one that `KeepsRest` allows. -/
def OutRest (s : State) (o : Host.Outcome State Fault Refusal) : Prop := ∀ t, o = .next t → KeepsRest s t

theorem OutRest.next {s t : State} (h : KeepsRest s t) : OutRest s (.next t) := by
  intro u e
  cases e
  exact h

theorem OutRest.holds {s : State} {o : Host.Outcome State Fault Refusal} (h : OutRest s o) : OutHolds s o :=
  fun t e => (h t e).holds

theorem OutKeeps.rest {s : State} {o : Host.Outcome State Fault Refusal} (h : OutKeeps s o) : OutRest s o :=
  fun t e => (h t e).rest

theorem OutKeeps.holds {s : State} {o : Host.Outcome State Fault Refusal} (h : OutKeeps s o) : OutHolds s o :=
  fun t e => (h t e).holds

theorem OutKeeps.refused {s : State} (r : Refusal) : OutKeeps s (.refused r) := fun _ e => nomatch e

end Sys2Proof.Machine
end

