-- ==== Sys2Proof/Laws/KeepRegs.lean ====
section
/-!
SUPPORT. What the operations of Machine/Regs.lean keep: the queue and the invariant.
-/
namespace Sys2Proof.Machine

theorem rput_keeps {sB : State} (s : State) (b : Block) (off : Nat) (v : Word)  (hK : Keeps sB s) :
    Keeps sB (rput s b off v) := by
  unfold rput
  repeat' first
    | (rw [mk_built]; with_reducible apply Keeps.built)
    | with_reducible exact keysRise_tset _ _ _ _ (by assumption)
    | with_reducible intro _
    | (apply_assumption; done)

theorem rwrite_keeps {sB : State} (s : State) (b : Block) (off : Nat) (v : Word)  (hK : Keeps sB s) :
    Keeps sB (rwrite s b off v) := by
  unfold rwrite
  repeat' first
    | with_reducible apply rput_keeps
    | (apply_assumption; done)

theorem rputField_keeps {sB : State} (s : State) (b : Block) (off hi lo v : Nat)  (hK : Keeps sB s) :
    Keeps sB (rputField s b off hi lo v) := by
  unfold rputField
  repeat' first
    | with_reducible apply rput_keeps
    | (apply_assumption; done)

theorem rputBit_keeps {sB : State} (s : State) (b : Block) (off i : Nat) (v : Bool)  (hK : Keeps sB s) :
    Keeps sB (rputBit s b off i v) := by
  unfold rputBit
  repeat' first
    | with_reducible apply rput_keeps
    | (apply_assumption; done)

theorem rput64_keeps {sB : State} (s : State) (b : Block) (lo hi v : Nat)  (hK : Keeps sB s) :
    Keeps sB (rput64 s b lo hi v) := by
  unfold rput64
  repeat' first
    | with_reducible apply rput_keeps
    | (apply_assumption; done)

theorem putFront_keeps {sB : State} (s : State) (f : FrontId) (v : Front)  (hK : Keeps sB s) :
    Keeps sB (putFront s f v) := by
  unfold putFront
  repeat' first
    | (rw [mk_built]; with_reducible apply Keeps.built)
    | with_reducible exact keysRise_tset _ _ _ _ (by assumption)
    | with_reducible intro _
    | (apply_assumption; done)

end Sys2Proof.Machine
end

