-- ==== Sys2Proof/Laws/KeepFlags.lean ====
section
/-!
SUPPORT. What the operations of Machine/Flags.lean keep: the queue and the invariant.
-/
namespace Sys2Proof.Machine

/-- A count lowers no counter. -/
theorem bump_mono {s : State} (i : s.Inv) (b : Block) (k n j : Nat) :
    tget 0 s.counters j ≤ tget 0 (bump s b k n).counters j := by
  by_cases h : j = b.page * 24 + k
  · subst h
    have h1 : tget 0 (bump s b k n).counters (b.page * 24 + k) = sat 64 (ctr s b k + n) := tget_tset_rise _ _ _ 0 _ i.counters
    have h2 : ctr s b k < 2 ^ 64 := tget_all (fun n => n < 2 ^ 64) 0 (by decide) _ _ (fun e he => by
      have := i.counts
      rw [List.all_eq_true] at this
      simpa [counterOk] using this e he)
    rw [h1]
    show ctr s b k ≤ _
    unfold sat
    omega
  · exact Nat.le_of_eq (tget_tset_rise_ne _ _ _ _ _ h 0 _ i.counters).symm

theorem bump_keeps {s0 : State} (s : State) (b : Block) (k n : Nat) (h : Keeps s0 s) : Keeps s0 (bump s b k n) :=
  ⟨h.pending, h.boot, h.image, fun i j hj => Nat.le_trans (h.mono i j hj) (bump_mono (h.inv i) b k n j), fun i =>
    let j := h.inv i
    { j with
      counters := keysRise_tset _ _ _ _ j.counters
      counts := all_tset _ _ _ _ (by simp [counterOk, sat]) _ j.counts }⟩

theorem latchCounters_keeps {s0 : State} (s : State) (b : Block) (tag : Tag) (h : Keeps s0 s) :
    Keeps s0 (latchCounters s b tag) := by
  unfold latchCounters
  split
  · exact h
  · have rise : ∀ (f : Nat → Nat) (g : Nat → Nat) (ks : List Nat) (l : List (Nat × Nat)), keysRise l = true →
        keysRise (ks.foldl (fun l k => tset 0 l (f k) (g k)) l) = true := by
      intro f g ks
      induction ks with
      | nil => exact fun _ hl => hl
      | cons a ks ih => exact fun l hl => ih _ (keysRise_tset _ _ _ _ hl)
    refine rput_keeps _ _ _ _ (rput64_keeps _ _ _ _ _ (rput_keeps _ _ _ _ ?_))
    exact Keeps.leaf h (h_latched := fun g => rise _ _ _ _ g)

theorem nextSeq_keeps {sB : State} (s : State)  (hK : Keeps sB s) :
    Keeps sB (nextSeq s) := by
  unfold nextSeq
  repeat' first
    | with_reducible assumption
    | (rw [mk_built]; with_reducible apply Keeps.built)
    | with_reducible rfl
    | with_reducible intro _

theorem sendRecord_keeps {sB : State} (s : State) (b : Block) (cause : Nat) (o : Occur) (cls : Option Nat)  (hK : Keeps sB s) :
    Keeps sB (sendRecord s b cause o cls) := by
  unfold sendRecord
  repeat' first
    | with_reducible assumption
    | with_reducible apply bump_keeps
    | with_reducible apply nextSeq_keeps
    | (rw [mk_built]; with_reducible apply Keeps.built)
    | with_reducible rfl
    | split
    | dsimp only
    | with_reducible intro _

theorem setCause_keeps {sB : State} (s : State) (b : Block) (cause : Nat) (tag : Tag)  (hK : Keeps sB s) :
    Keeps sB (setCause s b cause tag) := by
  unfold setCause
  repeat' first
    | with_reducible apply rputBit_keeps
    | with_reducible apply rput_keeps
    | split
    | dsimp only
    | (apply_assumption; done)

theorem raiseWith_keeps {sB : State} (s : State) (b : Block) (cause : Nat) (o : Occur)  (hK : Keeps sB s) :
    Keeps sB (raiseWith s b cause o) := by
  unfold raiseWith
  repeat' first
    | with_reducible apply setCause_keeps
    | with_reducible apply sendRecord_keeps
    | split
    | dsimp only
    | (apply_assumption; done)

theorem raiseTag_keeps {sB : State} (s : State) (b : Block) (cause : Nat) (tag : Tag) (opcode : Nat)  (hK : Keeps sB s) :
    Keeps sB (raiseTag s b cause tag opcode) := by
  unfold raiseTag
  repeat' first
    | with_reducible apply raiseWith_keeps
    | (apply_assumption; done)

theorem raise_keeps {sB : State} (s : State) (b : Block) (cause : Nat)  (hK : Keeps sB s) :
    Keeps sB (raise s b cause) := by
  unfold raise
  repeat' first
    | with_reducible apply raiseWith_keeps
    | (apply_assumption; done)

theorem raiseAt_keeps {sB : State} (s : State) (b : Block) (cause : Nat) (o : Occur) (loc : Nat)  (hK : Keeps sB s) :
    Keeps sB (raiseAt s b cause o loc) := by
  unfold raiseAt
  repeat' first
    | with_reducible apply setCause_keeps
    | with_reducible apply raiseWith_keeps
    | (rw [mk_built]; with_reducible apply Keeps.built)
    | split
    | with_reducible intro _
    | (apply_assumption; done)

theorem rewritten_keeps {sB : State} (s : State) (loc : Nat)  (hK : Keeps sB s) :
    Keeps sB (rewritten s loc) := by
  unfold rewritten
  repeat' first
    | (rw [mk_built]; with_reducible apply Keeps.built)
    | with_reducible intro _
    | (apply_assumption; done)

theorem stepSkip_keeps {sB : State} (s : State) (src : Nat)  (hK : Keeps sB s) :
    Keeps sB (stepSkip s src) := by
  unfold stepSkip
  repeat' first
    | (rw [mk_built]; with_reducible apply Keeps.built)
    | split
    | with_reducible intro _
    | (apply_assumption; done)

theorem setNonfinite_keeps {sB : State} (s : State)  (hK : Keeps sB s) :
    Keeps sB (setNonfinite s) := by
  unfold setNonfinite
  repeat' first
    | (rw [mk_built]; with_reducible apply Keeps.built)
    | split
    | with_reducible intro _
    | (apply_assumption; done)

theorem setNonfiniteNext_keeps {sB : State} (s : State)  (hK : Keeps sB s) :
    Keeps sB (setNonfiniteNext s) := by
  unfold setNonfiniteNext
  repeat' first
    | with_reducible assumption
    | (rw [mk_built]; with_reducible apply Keeps.built)
    | with_reducible rfl
    | with_reducible intro _

theorem addNorm_keeps {sB : State} (s : State) (n : Nat)  (hK : Keeps sB s) :
    Keeps sB (addNorm s n) := by
  unfold addNorm
  repeat' first
    | (rw [mk_built]; with_reducible apply Keeps.built)
    | split
    | with_reducible intro _
    | (apply_assumption; done)

theorem setTorn_keeps {sB : State} (s : State)  (hK : Keeps sB s) :
    Keeps sB (setTorn s) := by
  unfold setTorn
  repeat' first
    | with_reducible apply raise_keeps
    | (rw [mk_built]; with_reducible apply Keeps.built)
    | with_reducible intro _
    | (apply_assumption; done)

theorem emit_keeps {sB : State} (s : State) (o : Output)  (hK : Keeps sB s) :
    Keeps sB (emit s o) := by
  unfold emit
  repeat' first
    | (rw [mk_built]; with_reducible apply Keeps.built)
    | with_reducible intro _
    | (apply_assumption; done)

theorem sendMsi_keeps {sB : State} (s : State) (v : Nat)  (hK : Keeps sB s) :
    Keeps sB (sendMsi s v) := by
  unfold sendMsi
  repeat' first
    | with_reducible apply emit_keeps
    | with_reducible apply bump_keeps
    | (rw [mk_built]; with_reducible apply Keeps.built)
    | split
    | with_reducible intro _
    | (apply_assumption; done)

theorem countLife_keeps {sB : State} (s : State) (k : Nat)  (hK : Keeps sB s) :
    Keeps sB (countLife s k) := by
  unfold countLife
  repeat' first
    | (rw [mk_built]; with_reducible apply Keeps.built)
    | with_reducible intro _
    | (apply_assumption; done)

theorem useFresh_keeps {sB : State} (s : State)  (hK : Keeps sB s) :
    Keeps sB (useFresh s) := by
  unfold useFresh
  repeat' first
    | (rw [mk_built]; with_reducible apply Keeps.built)
    | with_reducible intro _
    | (apply_assumption; done)

end Sys2Proof.Machine
end

