-- ==== Sys2Proof/Laws/Frames.lean ====
section
/-!
SUPPORT. The frames of Safety.lean under the setters of the state, and what the operations of Machine/Flags.lean change.
-/
namespace Sys2Proof.Machine

/-! ### The invariant under the setters -/

theorem inv_rput {s : State} (b : Block) (off : Nat) (v : Word) (i : s.Inv) : (rput s b off v).Inv :=
  (rput_keeps s b off v (Keeps.refl s)).inv i

theorem inv_bump {s : State} (b : Block) (k n : Nat) (i : s.Inv) : (bump s b k n).Inv :=
  (bump_keeps s b k n (Keeps.refl s)).inv i

/-- Another register of the same block. -/
theorem rget_rput_off (s : State) (b : Block) (off j : Nat) (v : Word) (i : s.Inv) (h : j ≠ off) :
    rget (rput s b off v) b j = rget s b j := rget_rput_ne s b b off j v i (by omega)

/-! ### Frames of registers -/

theorem RegsBut.refl (l : List Nat) (s : State) : RegsBut l s s := fun _ _ _ => rfl

theorem RegsBut.trans {l : List Nat} {r s t : State} (h : RegsBut l r s) (g : RegsBut l s t) : RegsBut l r t :=
  fun b off m => (g b off m).trans (h b off m)

theorem RegsBut.rput {l : List Nat} {s t : State} (b : Block) (off : Nat) (v : Word) (i : keysRise t.regs = true)
    (m : b.reg off ∈ l) (h : RegsBut l s t) : RegsBut l s (rput t b off v) := fun c j n =>
  (tget_tset_rise_ne _ _ _ _ _ (fun e => n (by unfold Block.reg; rw [e]; exact m)) 0 _ i).trans (h c j n)

/-- A change of other parts of the state changes no register. -/
theorem RegsBut.regs {l : List Nat} {s t u : State} (h : RegsBut l s t) (e : u.regs = t.regs) : RegsBut l s u :=
  fun b off m => by
    have : rget u b off = rget t b off := by unfold rget; rw [e]
    rw [this]; exact h b off m

theorem RegsBut.mono {l m : List Nat} {s t : State} (h : RegsBut l s t) (e : ∀ x ∈ l, x ∈ m) : RegsBut m s t :=
  fun b off n => h b off (fun k => n (e _ k))

/-! ### Frames of counters -/

theorem CtrsBut.refl (l : List Nat) (s : State) : CtrsBut l s s := fun _ _ _ => rfl

theorem CtrsBut.bump {l : List Nat} {s t : State} (b : Block) (k n : Nat) (i : keysRise t.counters = true)
    (m : b.cnt k ∈ l) (h : CtrsBut l s t) : CtrsBut l s (bump t b k n) := fun c j d =>
  (tget_tset_rise_ne _ _ _ _ _ (fun e => d (by unfold Block.cnt; rw [e]; exact m)) 0 _ i).trans (h c j d)

/-- A change of other parts of the state changes no counter. -/
theorem CtrsBut.counters {l : List Nat} {s t u : State} (h : CtrsBut l s t) (e : u.counters = t.counters) : CtrsBut l s u :=
  fun b k m => by
    have : ctr u b k = ctr t b k := by unfold ctr; rw [e]
    rw [this]; exact h b k m

/-! ### Causes -/

/-- Setting a cause: ERR_STATUS, ERR_COUNT and ERR_FIRST, and nothing else. -/
theorem setCause_spec (s : State) (b : Block) (cause : Nat) (tag : Tag) (i : s.Inv) :
    rget (setCause s b cause tag) b Reg.Hdr.ERR_STATUS = withBit (rget s b Reg.Hdr.ERR_STATUS) cause true ∧
    rget (setCause s b cause tag) b Reg.Hdr.ERR_COUNT = wordOf (sat 32 ((rget s b Reg.Hdr.ERR_COUNT).toNat + 1)) ∧
    rget (setCause s b cause tag) b Reg.Hdr.ERR_FIRST =
      (if rbit s b Reg.Hdr.ERR_FIRST 15 then rget s b Reg.Hdr.ERR_FIRST
       else wordOf (tag.toNat * 65536 + 32768 + cause)) ∧
    RegsBut [b.reg Reg.Hdr.ERR_STATUS, b.reg Reg.Hdr.ERR_COUNT, b.reg Reg.Hdr.ERR_FIRST] s (setCause s b cause tag) ∧
    setCause s b cause tag = { s with regs := (setCause s b cause tag).regs } ∧ (setCause s b cause tag).Inv := by
  unfold setCause rputBit
  simp only []
  generalize hs1 : rput s b Reg.Hdr.ERR_STATUS (withBit (rget s b Reg.Hdr.ERR_STATUS) cause true) = s1
  have i1 : s1.Inv := hs1 ▸ inv_rput _ _ _ i
  have c1 : rget s1 b Reg.Hdr.ERR_COUNT = rget s b Reg.Hdr.ERR_COUNT := by
    rw [← hs1, rget_rput_off _ _ _ _ _ i (by decide)]
  have a1 : rget s1 b Reg.Hdr.ERR_STATUS = withBit (rget s b Reg.Hdr.ERR_STATUS) cause true := by
    rw [← hs1, rget_rput _ _ _ _ i]
  have g1 : rget s1 b Reg.Hdr.ERR_FIRST = rget s b Reg.Hdr.ERR_FIRST := by
    rw [← hs1, rget_rput_off _ _ _ _ _ i (by decide)]
  have r1 : RegsBut [b.reg Reg.Hdr.ERR_STATUS, b.reg Reg.Hdr.ERR_COUNT, b.reg Reg.Hdr.ERR_FIRST] s s1 :=
    hs1 ▸ (RegsBut.refl _ s).rput b _ _ i.regs (by simp)
  have e1 : s1 = { s with regs := s1.regs } := by rw [← hs1]; rfl
  rw [c1]
  generalize hs2 : rput s1 b Reg.Hdr.ERR_COUNT (wordOf (sat 32 ((rget s b Reg.Hdr.ERR_COUNT).toNat + 1))) = s2
  have i2 : s2.Inv := hs2 ▸ inv_rput _ _ _ i1
  have c2 : rget s2 b Reg.Hdr.ERR_COUNT = wordOf (sat 32 ((rget s b Reg.Hdr.ERR_COUNT).toNat + 1)) := by
    rw [← hs2, rget_rput _ _ _ _ i1]
  have a2 : rget s2 b Reg.Hdr.ERR_STATUS = withBit (rget s b Reg.Hdr.ERR_STATUS) cause true := by
    rw [← hs2, rget_rput_off _ _ _ _ _ i1 (by decide), a1]
  have g2 : rget s2 b Reg.Hdr.ERR_FIRST = rget s b Reg.Hdr.ERR_FIRST := by
    rw [← hs2, rget_rput_off _ _ _ _ _ i1 (by decide), g1]
  have r2 : RegsBut [b.reg Reg.Hdr.ERR_STATUS, b.reg Reg.Hdr.ERR_COUNT, b.reg Reg.Hdr.ERR_FIRST] s s2 :=
    hs2 ▸ r1.rput b _ _ i1.regs (by simp)
  have e2 : s2 = { s with regs := s2.regs } := by rw [← hs2, e1]; rfl
  have v2 : rbit s2 b Reg.Hdr.ERR_FIRST 15 = rbit s b Reg.Hdr.ERR_FIRST 15 := by unfold rbit; rw [g2]
  rw [v2]
  split
  · exact ⟨a2, c2, g2, r2, e2, i2⟩
  · refine ⟨?_, ?_, ?_, r2.rput b _ _ i2.regs (by simp), ?_, inv_rput _ _ _ i2⟩
    · rw [rget_rput_off _ _ _ _ _ i2 (by decide), a2]
    · rw [rget_rput_off _ _ _ _ _ i2 (by decide), c2]
    · rw [rget_rput _ _ _ _ i2]
    · rw [e2]; rfl

/-- Sending a record changes no register, and of the counters at most the queue's count of merged records. -/
theorem sendRecord_spec (s : State) (b : Block) (cause : Nat) (o : Occur) (cls : Option Nat) (i : s.Inv) :
    (b.page, cause, o.tag, s.stride.count) ∈ (sendRecord s b cause o cls).events ∧
    ((b.page, cause, o.tag, s.stride.count) ∉ s.events → ∃ r ∈ (sendRecord s b cause o cls).records, r.1 = b.page) ∧
    CtrsBut [(activeQueue s).cnt 2] s (sendRecord s b cause o cls) ∧
    sendRecord s b cause o cls =
      { s with counters := (sendRecord s b cause o cls).counters, events := (sendRecord s b cause o cls).events,
               records := (sendRecord s b cause o cls).records,
               steward := { s.steward with seqNo := (sendRecord s b cause o cls).steward.seqNo } } ∧
    (sendRecord s b cause o cls).Inv := by
  refine ⟨?_, ?_, ?_, ?_, (sendRecord_keeps s b cause o cls (Keeps.refl s)).inv i⟩ <;> unfold sendRecord <;> split
  · rename_i h; simpa using h
  · dsimp only; split <;> simp [Machine.bump, nextSeq]
  · rename_i h; intro g; exact absurd (by simpa using h) g
  · intro _
    dsimp only
    split
    · rename_i r hr
      have hp := List.find?_some hr
      have hm := List.mem_of_find?_eq_some hr
      refine ⟨_, List.mem_map_of_mem hm, ?_⟩
      have : r.1 = b.page := by simpa using hp
      simp [this]
    · exact ⟨(b.page, _), by simp [nextSeq]; exact Or.inr rfl, rfl⟩
  · exact CtrsBut.refl _ _
  · dsimp only
    split
    · exact ((CtrsBut.refl _ s).counters rfl).bump _ _ _ i.counters (by simp [activeQueue])
    · exact CtrsBut.refl _ _
  · rfl
  · dsimp only; split <;> rfl

/-! ### Semaphores -/

/-- What a semaphore reads as after a write of one of the same owner. -/
theorem getSem_putSem (s : State) (f : FrontId) (i j : Nat) (v : Sem) (h : s.Inv) :
    getSem (putSem s f i v) f j = if j = i then v else getSem s f j := by
  unfold getSem putSem getBank
  dsimp only
  rw [tget_tset_rise _ _ _ 0 _ h.banks]
  dsimp only
  have hb : keysRise (tget SemBank.reset s.banks f.num).cells = true := by
    by_cases m : ∃ e ∈ s.banks, e.1 = f.num
    · have := h.sems
      rw [List.all_eq_true] at this
      have q : (tget SemBank.reset s.banks f.num) = SemBank.reset ∨ ∃ e ∈ s.banks, e.2 = tget SemBank.reset s.banks f.num := by
        clear * -
        generalize s.banks = l
        induction l with
        | nil => left; rfl
        | cons x t ih =>
          obtain ⟨k, w⟩ := x
          unfold tget
          split
          · right; exact ⟨(k, w), by simp, rfl⟩
          · first
            | (rcases ih with ih | ⟨e, he, hh⟩
               · left; exact ih
               · right; exact ⟨e, by simp [he], hh⟩)
            | (split
               · left; rfl
               · rcases ih with ih | ⟨e, he, hh⟩
                 · left; exact ih
                 · right; exact ⟨e, by simp [he], hh⟩)
      rcases q with q | ⟨e, he, q⟩
      · rw [q]; rfl
      · have := this e he
        rw [q] at this
        unfold bankOk at this
        simp at this
        exact this.1.2
    · have q : (tget SemBank.reset s.banks f.num) = SemBank.reset ∨ ∃ e ∈ s.banks, e.1 = f.num := by
        clear * -
        generalize s.banks = l
        induction l with
        | nil => left; rfl
        | cons x t ih =>
          obtain ⟨k, w⟩ := x
          unfold tget
          split
          · right; exact ⟨(k, w), by simp, by assumption⟩
          · first
            | (rcases ih with ih | ⟨e, he, hh⟩
               · left; exact ih
               · right; exact ⟨e, by simp [he], hh⟩)
            | (split
               · left; rfl
               · rcases ih with ih | ⟨e, he, hh⟩
                 · left; exact ih
                 · right; exact ⟨e, by simp [he], hh⟩)
      rcases q with q | q
      · rw [q]; rfl
      · exact absurd q m
  by_cases e : j = i
  · subst e; rw [if_pos rfl]; exact tget_tset_rise _ _ _ 0 _ hb
  · rw [if_neg e]; exact tget_tset_rise_ne _ _ _ _ _ e 0 _ hb

end Sys2Proof.Machine
end

