-- ==== Sys2Proof/Laws/KeepMesh.lean ====
section
/-!
SUPPORT. What the operations of Machine/Mesh.lean keep: the queue and the invariant.
-/
namespace Sys2Proof.Machine

theorem putPath_keeps {sB : State} (s : State) (d : DieId) (k : Fin 4) (v : PathState)  (hK : Keeps sB s) :
    Keeps sB (putPath s d k v) := by
  unfold putPath
  repeat' first
    | (rw [mk_built]; with_reducible apply Keeps.built)
    | with_reducible exact keysRise_tset _ _ _ _ (by assumption)
    | with_reducible intro _
    | (apply_assumption; done)

theorem passFlits_keeps {sB : State} (s : State) (f t : DieId) (n : Nat)  (hK : Keeps sB s) :
    Keeps sB (passFlits s f t n) := by
  unfold passFlits
  repeat' first
    | with_reducible assumption
    | with_reducible exact Keeps.refl _
    | with_reducible apply bump_keeps
    | with_reducible refine Keeps.foldl _ (fun _ _ => ?_) ?_

end Sys2Proof.Machine
end

