-- ==== Sys2Proof/Laws/KeepOps.lean ====
section
/-!
SUPPORT. What the operations of Machine/Ops.lean keep: the queue and the invariant.
-/
namespace Sys2Proof.Machine

theorem putByte_keeps {s0 : State} (s : State) (k : Nat) (v : Byte) (h : Keeps s0 s) : Keeps s0 (putByte s k v) :=
  ⟨h.pending, h.boot, h.image, h.mono, fun i =>
    let j := h.inv i
    { j with mem := twf_tset (unlistedByte s) s.mem k v j.mem }⟩

theorem putBytes_keeps {s0 : State} (s : State) (k : Nat) (l : List Byte) (h : Keeps s0 s) : Keeps s0 (putBytes s k l) := by
  induction l generalizing s k with
  | nil => exact h
  | cons b t ih => exact ih _ _ (putByte_keeps _ _ _ h)

theorem raiseAtRequester_keeps {sB : State} (s : State) (r : Req) (cause : Nat)  (hK : Keeps sB s) :
    Keeps sB (raiseAtRequester s r cause) := by
  unfold raiseAtRequester
  repeat' first
    | with_reducible apply raiseWith_keeps
    | split
    | (apply_assumption; done)

theorem respond_keeps {sB : State} (who : Block) (x : State × Status × List Byte) (hK : Keeps sB x.1) :
    Keeps sB (respond who x) := by
  unfold respond
  split
  · exact bump_keeps _ _ _ _ hK
  · exact emit_keeps _ _ hK

theorem fencedAnswer_keeps {sB : State} (s : State) (r : Req) (b : Block)  (hK : Keeps sB s) :
    Keeps sB (fencedAnswer s r b) := by
  unfold fencedAnswer
  repeat' first
    | with_reducible apply raiseAtRequester_keeps
    | with_reducible apply bump_keeps
    | (apply_assumption; done)

theorem putSeg_keeps {sB : State} (s : State) (c : CoreId) (m : CoreMem) (seg : Nat) (v : Segm)  (hK : Keeps sB s) :
    Keeps sB (putSeg s c m seg v) := by
  unfold putSeg
  repeat' first
    | (rw [mk_built]; with_reducible apply Keeps.built)
    | with_reducible exact keysRise_tset _ _ _ _ (by assumption)
    | with_reducible intro _
    | (apply_assumption; done)

theorem parityError_keeps {sB : State} (s : State) (c : CoreId) (m : CoreMem) (off src : Nat) (r : Req)  (hK : Keeps sB s) :
    Keeps sB (parityError s c m off src r) := by
  unfold parityError
  repeat' first
    | with_reducible apply bump_keeps
    | with_reducible apply raiseAt_keeps
    | with_reducible apply rput_keeps
    | split
    | dsimp only
    | (apply_assumption; done)

theorem coreRead_keeps {sB : State} (s : State) (r : Req) (c : CoreId) (m : CoreMem) (off n : Nat)  (hK : Keeps sB s) :
    Keeps sB (coreRead s r c m off n).1 := by
  unfold coreRead
  repeat' first
    | with_reducible apply fencedAnswer_keeps
    | with_reducible apply bump_keeps
    | with_reducible apply parityError_keeps
    | split
    | dsimp only
    | (apply_assumption; done)

theorem coreWriteCheck_keeps {sB : State} (s : State) (r : Req) (c : CoreId) (m : CoreMem) (off n : Nat)  (hK : Keeps sB s) :
    Keeps sB (coreWriteCheck s r c m off n).1 := by
  unfold coreWriteCheck
  repeat' first
    | with_reducible assumption
    | with_reducible apply fencedAnswer_keeps
    | with_reducible apply raiseWith_keeps
    | with_reducible apply bump_keeps
    | with_reducible apply raiseAtRequester_keeps
    | split
    | dsimp only

theorem injectParity_keeps {sB : State} (s : State) (c : CoreId) (m : CoreMem) (off n : Nat)  (hK : Keeps sB s) :
    Keeps sB (injectParity s c m off n) := by
  unfold injectParity
  repeat' first
    | with_reducible assumption
    | with_reducible apply rputBit_keeps
    | (rw [mk_built]; with_reducible apply Keeps.built)
    | with_reducible rfl
    | split
    | dsimp only
    | with_reducible intro _

theorem coreWrite_keeps {sB : State} (s : State) (c : CoreId) (m : CoreMem) (off : Nat) (data : List Byte)  (hK : Keeps sB s) :
    Keeps sB (coreWrite s c m off data) := by
  unfold coreWrite
  repeat' first
    | with_reducible assumption
    | with_reducible apply bump_keeps
    | with_reducible apply putBytes_keeps
    | with_reducible apply injectParity_keeps
    | (rw [mk_built]; with_reducible apply Keeps.built)
    | with_reducible rfl
    | with_reducible intro _

theorem larderWord_keeps {sB : State} (s : State) (d : LarderId) (off : Nat) (src : Word) (o : Occur)  (hK : Keeps sB s) :
    Keeps sB (larderWord s d off src o).1 := by
  unfold larderWord
  repeat' first
    | with_reducible assumption
    | with_reducible apply bump_keeps
    | with_reducible apply raiseAt_keeps
    | with_reducible apply rewritten_keeps
    | with_reducible apply rput_keeps
    | (rw [mk_built]; with_reducible apply Keeps.built)
    | with_reducible rfl
    | split
    | dsimp only
    | with_reducible intro _

theorem larderWords_keeps {s0 : State} (s : State) (d : LarderId) (off : Nat) (src : Word) (o : Occur) (n : Nat)
    (h : Keeps s0 s) : Keeps s0 (larderWords s d off src o n).1 := by
  induction n generalizing s off with
  | zero => exact h
  | succ n ih =>
    unfold larderWords
    split
    rename_i s1 w e1
    split
    rename_i s2 ws e2
    have h2 := Keeps.fst (ih s1 (off + 4) (Keeps.fst (larderWord_keeps _ _ _ _ _ h) e1)) e2
    split <;> exact h2

theorem larderReadPiece_keeps {sB : State} (s : State) (r : Req) (d : LarderId) (off n : Nat)  (hK : Keeps sB s) :
    Keeps sB (larderReadPiece s r d off n).1 := by
  unfold larderReadPiece
  repeat' first
    | with_reducible assumption
    | with_reducible apply fencedAnswer_keeps
    | with_reducible apply bump_keeps
    | with_reducible apply larderWords_keeps
    | with_reducible refine Keeps.fst ?_ (by assumption)
    | split
    | dsimp only

theorem touchedWords_keeps {sB : State} (s : State) (d : LarderId) (blk : Nat) (src : Word) (l : List (Nat × Nat)) (y0 : List Nat)  (hK : Keeps sB s) :
    Keeps sB (touchedWords s d blk src l y0).1 := by
  induction y0 generalizing s with
  | nil =>
  unfold touchedWords
  repeat' first
    | with_reducible assumption
  | cons a l ih =>
  unfold touchedWords
  repeat' first
    | with_reducible assumption
    | with_reducible apply ih
    | with_reducible apply larderWord_keeps
    | split
    | dsimp only


theorem answerReaders_keeps {sB : State} (d : LarderId) (blk : Nat) (ws : List (Nat × Option Word)) (late : Bool) (all : List (Block × Nat × Nat)) (y0 : List (Block × Nat × Nat)) (y1 : List (Block × Nat × Nat)) (y2 : State)  (hK : Keeps sB y2) :
    Keeps sB (answerReaders d blk ws late all y0 y1 y2) := by
  induction y0 generalizing y1 y2 with
  | nil =>
  unfold answerReaders
  repeat' first
    | with_reducible assumption
  | cons a l ih =>
  unfold answerReaders
  repeat' first
    | with_reducible assumption
    | with_reducible apply ih
    | with_reducible apply bump_keeps
    | with_reducible apply emit_keeps
    | with_reducible apply respond_keeps
    | split


theorem serveEntry_keeps {sB : State} (s : State) (e : PendingRead)  (hK : Keeps sB s) :
    Keeps sB (serveEntry s e) := by
  unfold serveEntry
  repeat' first
    | with_reducible assumption
    | with_reducible apply bump_keeps
    | with_reducible apply touchedWords_keeps
    | with_reducible apply answerReaders_keeps
    | (rw [mk_built]; with_reducible apply Keeps.built)
    | with_reducible rfl
    | split
    | with_reducible intro _

theorem serveBlock_keeps {sB : State} (s : State) (d : LarderId) (blk : Nat)  (hK : Keeps sB s) :
    Keeps sB (serveBlock s d blk) := by
  unfold serveBlock
  repeat' first
    | with_reducible exact Keeps.refl _
    | with_reducible apply serveEntry_keeps
    | with_reducible refine Keeps.foldl _ (fun _ _ => ?_) ?_
    | (apply_assumption; done)

theorem larderRead_keeps {sB : State} (s : State) (r : Req) (d : LarderId) (off n : Nat)  (hK : Keeps sB s) :
    Keeps sB (larderRead s r d off n).1 := by
  unfold larderRead
  repeat' first
    | with_reducible assumption
    | with_reducible apply larderReadPiece_keeps
    | with_reducible apply bump_keeps
    | with_reducible apply serveEntry_keeps
    | with_reducible apply larderWords_keeps
    | with_reducible refine Keeps.fst ?_ (by assumption)
    | split
    | dsimp only

theorem larderWriteCheck_keeps {sB : State} (s : State) (r : Req) (d : LarderId) (a len : Nat)  (hK : Keeps sB s) :
    Keeps sB (larderWriteCheck s r d a len).1 := by
  unfold larderWriteCheck
  repeat' first
    | with_reducible assumption
    | with_reducible apply fencedAnswer_keeps
    | with_reducible apply rput_keeps
    | with_reducible apply bump_keeps
    | with_reducible apply raiseAtRequester_keeps
    | with_reducible apply raiseWith_keeps
    | split

theorem directoryNote_keeps {sB : State} (s : State) (r : Req) (d : LarderId) (off n : Nat)  (hK : Keeps sB s) :
    Keeps sB (directoryNote s r d off n) := by
  unfold directoryNote
  repeat' first
    | with_reducible apply bump_keeps
    | with_reducible apply rput_keeps
    | split
    | (apply_assumption; done)

theorem clearWords_keeps {s0 : State} (s : State) (d : LarderId) (off n : Nat) (h : Keeps s0 s) :
    Keeps s0 (clearWords s d off n) := by
  induction n generalizing s off with
  | zero => exact h
  | succ n ih => exact ih _ _ (rewritten_keeps _ _ (Keeps.leaf h))

theorem correctWords_keeps {sB : State} (r : Req) (d : LarderId) (y0 : List Nat) (y1 : State)  (hK : Keeps sB y1) :
    Keeps sB (correctWords r d y0 y1).1 := by
  induction y0 generalizing y1 with
  | nil =>
  unfold correctWords
  repeat' first
    | with_reducible assumption
  | cons a l ih =>
  unfold correctWords
  repeat' first
    | with_reducible assumption
    | with_reducible apply ih
    | with_reducible apply larderWord_keeps
    | with_reducible apply putBytes_keeps
    | with_reducible apply raiseWith_keeps
    | (rw [mk_built]; with_reducible apply Keeps.built)
    | with_reducible refine Keeps.fst ?_ (by assumption)
    | with_reducible rfl
    | split
    | with_reducible intro _


theorem larderWritePiece_keeps {sB : State} (s : State) (r : Req) (d : LarderId) (off : Nat) (data : List Byte)  (hK : Keeps sB s) :
    Keeps sB (larderWritePiece s r d off data) := by
  unfold larderWritePiece
  repeat' first
    | with_reducible assumption
    | with_reducible apply bump_keeps
    | with_reducible apply serveBlock_keeps
    | with_reducible apply putBytes_keeps
    | with_reducible apply directoryNote_keeps
    | with_reducible apply clearWords_keeps

theorem countCorrected_keeps {sB : State} (s : State) (k n : Nat) (o : Occur)  (hK : Keeps sB s) :
    Keeps sB (countCorrected s k n o) := by
  unfold countCorrected
  repeat' first
    | with_reducible assumption
    | with_reducible apply nextSeq_keeps
    | (rw [mk_built]; with_reducible apply Keeps.built)
    | with_reducible rfl
    | split
    | dsimp only
    | with_reducible intro _

theorem hbmDetected_keeps {sB : State} (s : State) (st : StackId) (pc : Fin 32) (blk k bad : Nat) (src : Word) (o : Occur)  (hK : Keeps sB s) :
    Keeps sB (hbmDetected s st pc blk k bad src o) := by
  unfold hbmDetected
  repeat' first
    | with_reducible apply bump_keeps
    | with_reducible apply raiseAt_keeps
    | with_reducible apply rput_keeps
    | split
    | dsimp only
    | (apply_assumption; done)

theorem hbmCorrected_keeps {sB : State} (s : State) (st : StackId) (pc : Fin 32) (blk n c i v : Nat) (src : Word) (o : Occur)  (hK : Keeps sB s) :
    Keeps sB (hbmCorrected s st pc blk n c i v src o) := by
  unfold hbmCorrected
  repeat' first
    | with_reducible assumption
    | with_reducible apply countCorrected_keeps
    | with_reducible apply bump_keeps
    | with_reducible apply raiseWith_keeps
    | with_reducible apply rput_keeps

theorem hbmFound_keeps {sB : State} (s : State) (st : StackId) (pc : Fin 32) (blk k : Nat) (x : BlockRead) (src : Word) (o : Occur)  (hK : Keeps sB s) :
    Keeps sB (hbmFound s st pc blk k x src o).1 := by
  unfold hbmFound
  repeat' first
    | with_reducible apply hbmDetected_keeps
    | with_reducible apply hbmCorrected_keeps
    | (rw [mk_built]; with_reducible apply Keeps.built)
    | split
    | with_reducible intro _
    | (apply_assumption; done)

theorem hbmBlock_keeps {sB : State} (s : State) (st : StackId) (pc : Fin 32) (off k : Nat) (src : Word) (o : Occur)  (hK : Keeps sB s) :
    Keeps sB (hbmBlock s st pc off k src o).1 := by
  unfold hbmBlock
  repeat' first
    | with_reducible apply hbmFound_keeps
    | (apply_assumption; done)

theorem respTime_keeps {sB : State} (s : State) (b : Block)  (hK : Keeps sB s) :
    Keeps sB (respTime s b) := by
  unfold respTime
  repeat' first
    | with_reducible assumption
    | with_reducible apply bump_keeps
    | with_reducible apply useFresh_keeps
    | split

theorem expanderPoison_keeps {sB : State} (s : State) (r : Req) (p : CxlId) (k : Nat)  (hK : Keeps sB s) :
    Keeps sB (expanderPoison s r p k) := by
  unfold expanderPoison
  repeat' first
    | with_reducible assumption
    | with_reducible apply rput_keeps
    | with_reducible apply raiseWith_keeps
    | with_reducible apply bump_keeps
    | split

theorem slowRead_keeps {sB : State} (s : State) (r : Req) (p : CxlId) (off k n : Nat)  (hK : Keeps sB s) :
    Keeps sB (slowRead s r p off k n).1 := by
  unfold slowRead
  repeat' first
    | with_reducible assumption
    | with_reducible apply fencedAnswer_keeps
    | with_reducible apply respTime_keeps
    | with_reducible apply bump_keeps
    | with_reducible apply emit_keeps
    | with_reducible apply expanderPoison_keeps
    | split
    | dsimp only

theorem slowWrite_keeps {sB : State} (s : State) (r : Req) (p : CxlId) (off k : Nat) (data : List Byte)  (hK : Keeps sB s) :
    Keeps sB (slowWrite s r p off k data).1 := by
  unfold slowWrite
  repeat' first
    | with_reducible assumption
    | with_reducible apply fencedAnswer_keeps
    | with_reducible apply emit_keeps
    | with_reducible apply respTime_keeps
    | with_reducible apply bump_keeps
    | with_reducible apply putBytes_keeps
    | (rw [mk_built]; with_reducible apply Keeps.built)
    | with_reducible rfl
    | split
    | dsimp only
    | with_reducible intro _

theorem finishRetire_keeps {sB : State} (s : State) (st : StackId) (pc : Fin 32)  (hK : Keeps sB s) :
    Keeps sB (finishRetire s st pc) := by
  unfold finishRetire
  repeat' first
    | with_reducible apply rputField_keeps
    | with_reducible apply rputBit_keeps
    | with_reducible apply countLife_keeps
    | with_reducible apply stepSkip_keeps
    | with_reducible apply raise_keeps
    | split
    | (apply_assumption; done)

theorem spareRead_keeps {sB : State} (s : State) (r : Req) (st : StackId) (pc : Fin 32) (off n : Nat)  (hK : Keeps sB s) :
    Keeps sB (spareRead s r st pc off n).1 := by
  unfold spareRead
  repeat' first
    | with_reducible assumption
    | with_reducible apply raiseWith_keeps
    | with_reducible apply bump_keeps
    | with_reducible apply slowRead_keeps
    | with_reducible apply raiseAtRequester_keeps
    | with_reducible refine Keeps.fst ?_ (by assumption)
    | split
    | dsimp only

theorem spareWrite_keeps {sB : State} (s : State) (r : Req) (st : StackId) (pc : Fin 32) (off : Nat) (data : List Byte)  (hK : Keeps sB s) :
    Keeps sB (spareWrite s r st pc off data).1 := by
  unfold spareWrite
  repeat' first
    | with_reducible apply raiseWith_keeps
    | with_reducible apply bump_keeps
    | with_reducible apply slowRead_keeps
    | with_reducible apply slowWrite_keeps
    | with_reducible refine Keeps.fst ?_ (by assumption)
    | split
    | dsimp only
    | (apply_assumption; done)

theorem countDelayed_keeps {sB : State} (s : State) (who : Block)  (hK : Keeps sB s) :
    Keeps sB (countDelayed s who) := by
  unfold countDelayed
  repeat' first
    | with_reducible apply bump_keeps
    | split
    | (apply_assumption; done)

theorem noteDelayed_keeps {sB : State} (s : State) (r : Req) (b : Block)  (hK : Keeps sB s) :
    Keeps sB (noteDelayed s r b) := by
  unfold noteDelayed
  repeat' first
    | with_reducible apply rput_keeps
    | with_reducible apply countDelayed_keeps
    | split
    | (apply_assumption; done)

theorem noteRefused_keeps {sB : State} (s : State) (r : Req) (b : Block)  (hK : Keeps sB s) :
    Keeps sB (noteRefused s r b) := by
  unfold noteRefused
  repeat' first
    | with_reducible apply rput_keeps
    | with_reducible apply bump_keeps
    | split
    | (apply_assumption; done)

theorem arrive_keeps {sB : State} (s : State) (r : Req) (y0 : Bool × Option Dest)  (hK : Keeps sB s) :
    Keeps sB (arrive s r y0) := by
  unfold arrive
  repeat' first
    | with_reducible assumption
    | with_reducible apply noteRefused_keeps
    | with_reducible apply noteDelayed_keeps
    | split

theorem noteServed_keeps {sB : State} (s : State) (r : Req) (ds : List Dest)  (hK : Keeps sB s) :
    Keeps sB (noteServed s r ds) := by
  unfold noteServed
  repeat' first
    | with_reducible assumption
    | with_reducible exact Keeps.refl _
    | with_reducible apply rput_keeps
    | with_reducible refine Keeps.foldl _ (fun _ _ => ?_) ?_
    | split

theorem hbmRead_keeps {sB : State} (s : State) (r : Req) (st : StackId) (pc : Fin 32) (off a n : Nat)  (hK : Keeps sB s) :
    Keeps sB (hbmRead s r st pc off a n).1 := by
  unfold hbmRead
  repeat' first
    | with_reducible assumption
    | with_reducible apply fencedAnswer_keeps
    | with_reducible apply spareRead_keeps
    | with_reducible apply bump_keeps
    | with_reducible apply hbmBlock_keeps
    | with_reducible refine Keeps.fst ?_ (by assumption)
    | split
    | dsimp only

theorem hbmWriteCheck_keeps {sB : State} (s : State) (r : Req) (st : StackId) (a n : Nat)  (hK : Keeps sB s) :
    Keeps sB (hbmWriteCheck s r st a n).1 := by
  unfold hbmWriteCheck
  repeat' first
    | with_reducible assumption
    | with_reducible apply fencedAnswer_keeps
    | with_reducible apply raiseAtRequester_keeps
    | with_reducible apply raiseWith_keeps
    | split

theorem hbmWrite_keeps {s0 : State} (s : State) (r : Req) (st : StackId) (pc : Fin 32) (off a : Nat) (data : List Byte)
    (h : Keeps s0 s) : Keeps s0 (hbmWrite s r st pc off a data).1 := by
  suffices go : ∀ p, hbmWrite s r st pc off a data = p → Keeps s0 p.1 from go _ rfl
  intro p e
  unfold hbmWrite at e
  extract_lets b k s1 at e
  have h1 : Keeps s0 s1 := putBytes_keeps _ _ _ (bump_keeps _ _ _ _ h)
  have h2 := hbmBlock_keeps s st pc off k r.unit r.occ h
  generalize hbmBlock s st pc off k r.unit r.occ = q at e h2
  clear_value s1
  split at e
  · subst e; exact spareWrite_keeps _ _ _ _ _ _ h
  · split at e
    · subst e; exact rewritten_keeps _ _ (Keeps.leaf h1)
    · obtain ⟨s3, pt⟩ := q
      cases pt with
      | none => subst e; exact raiseWith_keeps _ _ _ _ h2
      | some pt =>
        subst e
        exact putBytes_keeps _ _ _ (Keeps.leaf (putBytes_keeps _ _ _ (bump_keeps _ _ _ _ (bump_keeps _ _ _ _ h2))))

theorem getBank_ok {s : State} (i : s.Inv) (f : FrontId) : bankOk (getBank s f) = true := by
  refine tget_all (fun b => bankOk b = true) SemBank.reset (by decide) f.num s.banks fun e he => ?_
  have := i.sems
  rw [List.all_eq_true] at this
  exact this e he

theorem getSem_ok {s : State} (i : s.Inv) (f : FrontId) (k : Nat) : (getSem s f k).count < 2 ^ 31 := by
  have hb := getBank_ok i f
  simp only [bankOk, Bool.and_eq_true] at hb
  have := tget_all (fun x => semOk x = true) (getBank s f).dflt hb.1.1 k (getBank s f).cells
    (fun e he => by have := hb.2; rw [List.all_eq_true] at this; exact this e he)
  simpa [semOk, getSem] using this

/-- Replacing an owner's bank by one whose counts have 31 bits. -/
theorem putBank_keeps {s0 : State} (s : State) (f : FrontId) (b : SemBank) (hb : s0.Inv → bankOk b = true)
    (h : Keeps s0 s) : Keeps s0 { s with banks := tset SemBank.reset s.banks f.num b } :=
  ⟨h.pending, h.boot, h.image, h.mono, fun i =>
    let j := h.inv i
    { j with
      banks := keysRise_tset _ _ _ _ j.banks
      sems := all_tset _ _ _ _ (hb i) _ j.sems }⟩

/-- Replacing one semaphore by one whose count has 31 bits. -/
theorem putSem_keeps {s0 : State} (s : State) (f : FrontId) (k : Nat) (v : Sem) (hv : s0.Inv → v.count < 2 ^ 31)
    (h : Keeps s0 s) : Keeps s0 (putSem s f k v) := by
  refine putBank_keeps s f _ (fun i => ?_) h
  have hb := getBank_ok (h.inv i) f
  simp only [bankOk, Bool.and_eq_true] at hb ⊢
  refine ⟨⟨hb.1.1, keysRise_tset _ _ _ _ hb.1.2⟩, all_tset _ _ _ _ ?_ _ hb.2⟩
  simpa [semOk] using hv i

theorem readPiece_keeps {sB : State} (s : State) (r : Req) (a n : Nat)  (hK : Keeps sB s) :
    Keeps sB (readPiece s r a n).1 := by
  unfold readPiece
  repeat' first
    | with_reducible assumption
    | with_reducible apply coreRead_keeps
    | with_reducible apply fencedAnswer_keeps
    | with_reducible apply larderRead_keeps
    | with_reducible apply hbmRead_keeps
    | with_reducible apply slowRead_keeps
    | with_reducible apply raiseAtRequester_keeps
    | split

theorem readPieces_keeps {s0 : State} (s : State) (r : Req) (l : List (Nat × Nat)) (h : Keeps s0 s) :
    Keeps s0 (readPieces s r l).1 := by
  induction l generalizing s with
  | nil => exact h
  | cons x t ih => exact ih _ (readPiece_keeps _ _ _ _ h)

theorem checkPiece_keeps {sB : State} (s : State) (r : Req) (ra rn a n : Nat)  (hK : Keeps sB s) :
    Keeps sB (checkPiece s r ra rn a n).1 := by
  unfold checkPiece
  repeat' first
    | with_reducible assumption
    | with_reducible apply coreWriteCheck_keeps
    | with_reducible apply fencedAnswer_keeps
    | with_reducible apply raiseAtRequester_keeps
    | with_reducible apply raiseWith_keeps
    | with_reducible apply larderWriteCheck_keeps
    | with_reducible apply hbmWriteCheck_keeps
    | split

theorem checkPieces_keeps {s0 : State} (s : State) (r : Req) (ra rn : Nat) (l : List (Nat × Nat)) (h : Keeps s0 s) :
    Keeps s0 (checkPieces s r ra rn l).1 := by
  induction l generalizing s with
  | nil => exact h
  | cons x t ih =>
    unfold checkPieces
    have h1 := checkPiece_keeps s r ra rn x.1 x.2 h
    split
    · rename_i s1 e
      exact ih _ (Keeps.fst h1 e)
    · exact h1

theorem mergePiece_keeps {sB : State} (r : Req) (s : State) (a n : Nat)  (hK : Keeps sB s) :
    Keeps sB (mergePiece r s a n).1 := by
  unfold mergePiece
  repeat' first
    | with_reducible assumption
    | with_reducible apply correctWords_keeps
    | with_reducible apply hbmBlock_keeps
    | with_reducible apply raiseWith_keeps
    | with_reducible refine Keeps.fst ?_ (by assumption)
    | split

theorem mergeCheck_keeps {sB : State} (r : Req) (l : List (Nat × Nat)) (s : State) (hK : Keeps sB s) :
    Keeps sB (mergeCheck r l s).1 := by
  induction l generalizing s with
  | nil => exact hK
  | cons x t ih =>
    obtain ⟨a, n⟩ := x
    have h := mergePiece_keeps r s a n hK
    have e : mergeCheck r ((a, n) :: t) s =
        (match mergePiece r s a n with
         | (s, true) => mergeCheck r t s
         | x => x) := rfl
    rw [e]
    generalize mergePiece r s a n = p at h
    obtain ⟨u, b⟩ := p
    cases b with
    | true => exact ih u h
    | false => exact h

theorem writePiece_keeps {sB : State} (s : State) (r : Req) (a : Nat) (data : List Byte)  (hK : Keeps sB s) :
    Keeps sB (writePiece s r a data).1 := by
  unfold writePiece
  repeat' first
    | with_reducible assumption
    | with_reducible apply coreWrite_keeps
    | with_reducible apply larderWritePiece_keeps
    | with_reducible apply hbmWrite_keeps
    | with_reducible apply slowWrite_keeps
    | split

theorem writePieces_keeps {s0 : State} (s : State) (r : Req) (l : List (Nat × Nat)) (d : List Byte) (h : Keeps s0 s) :
    Keeps s0 (writePieces s r l d).1 := by
  induction l generalizing s d with
  | nil => exact h
  | cons x t ih => exact ih _ _ (writePiece_keeps _ _ _ _ h)

theorem writeMerged_keeps {sB : State} (s : State) (r : Req) (ps : List (Nat × Nat)) (data : List Byte)  (hK : Keeps sB s) :
    Keeps sB (writeMerged s r ps data).1 := by
  unfold writeMerged
  repeat' first
    | with_reducible assumption
    | with_reducible apply mergeCheck_keeps
    | with_reducible apply writePieces_keeps
    | with_reducible refine Keeps.fst ?_ (by assumption)
    | split

theorem travel_keeps {sB : State} (s : State) (who : Block) (a n m : Nat)  (hK : Keeps sB s) :
    Keeps sB (travel s who a n m) := by
  unfold travel
  repeat' first
    | with_reducible assumption
    | with_reducible apply passFlits_keeps
    | split

theorem timedOut_keeps {sB : State} (s : State) (r : Req) (bound : Nat)  (hK : Keeps sB s) :
    Keeps sB (timedOut s r bound) := by
  unfold timedOut
  repeat' first
    | with_reducible assumption
    | with_reducible apply raiseAtRequester_keeps
    | (rw [mk_built]; with_reducible apply Keeps.built)
    | with_reducible rfl
    | with_reducible intro _

theorem lapses_keeps {sB : State} (s : State) (who : Block)  (hK : Keeps sB s) :
    Keeps sB (lapses s who).1 := by
  unfold lapses
  repeat' first
    | with_reducible assumption
    | (rw [mk_built]; with_reducible apply Keeps.built)
    | with_reducible rfl
    | split
    | with_reducible intro _

theorem forgetNotice_keeps {sB : State} (s : State) (r : Req) (a : Nat)  (hK : Keeps sB s) :
    Keeps sB (forgetNotice s r a) := by
  unfold forgetNotice
  repeat' first
    | with_reducible assumption
    | (rw [mk_built]; with_reducible apply Keeps.built)
    | with_reducible rfl
    | split
    | with_reducible intro _

theorem waitsHere_keeps {sB : State} (s : State) (r : Req) (a : Nat) (j : Bool × Option Dest)  (hK : Keeps sB s) :
    Keeps sB (waitsHere s r a j) := by
  unfold waitsHere
  repeat' first
    | with_reducible assumption
    | (rw [mk_built]; with_reducible apply Keeps.built)
    | with_reducible rfl
    | split
    | with_reducible intro _

theorem settleWaits_keeps {sB : State} (s0 s : State) (hK : Keeps sB s0) : Keeps sB (settleWaits s0 s) := by
  unfold settleWaits
  refine Keeps.foldl _ (fun t w => ?_) hK
  exact noteDelayed_keeps _ _ _ (Keeps.leaf (Keeps.refl t))

theorem admission_keeps {sB : State} (s : State) (r : Req) (ps : List (Nat × Nat)) (a n : Nat) (joins : Bool)  (hK : Keeps sB s) :
    Keeps sB (admission s r ps a n joins).1 := by
  unfold admission
  repeat' first
    | with_reducible assumption
    | with_reducible apply arrive_keeps
    | with_reducible apply waitsHere_keeps
    | with_reducible apply noteServed_keeps
    | with_reducible apply forgetNotice_keeps
    | split
    | dsimp only

theorem readRequest_keeps {sB : State} (s : State) (r : Req) (a n : Nat)  (hK : Keeps sB s) :
    Keeps sB (readRequest s r a n).1 := by
  unfold readRequest
  repeat' first
    | with_reducible assumption
    | with_reducible apply lapses_keeps
    | with_reducible apply timedOut_keeps
    | with_reducible apply admission_keeps
    | with_reducible apply readPieces_keeps
    | with_reducible apply travel_keeps
    | with_reducible refine Keeps.fst ?_ (by assumption)
    | split
    | dsimp only

theorem readRequests_keeps {sB : State} (s : State) (r : Req) (y0 : List (Nat × Nat))  (hK : Keeps sB s) :
    Keeps sB (readRequests s r y0).1 := by
  induction y0 generalizing s with
  | nil =>
  unfold readRequests
  repeat' first
    | with_reducible assumption
  | cons a l ih =>
  unfold readRequests
  repeat' first
    | with_reducible assumption
    | with_reducible apply ih
    | with_reducible apply readRequest_keeps
    | with_reducible refine Keeps.fst ?_ (by assumption)
    | split


theorem consume_keeps {sB : State} (r : Req) (x : State × Status × List Byte) (hK : Keeps sB x.1) :
    Keeps sB (consume r x).1 := by
  unfold consume
  split
  · exact raiseAtRequester_keeps _ _ _ hK
  · exact hK

theorem readLocal_keeps {sB : State} (s : State) (r : Req) (a n : Nat) (hK : Keeps sB s) :
    Keeps sB (readLocal s r a n).1 := consume_keeps _ _ (readRequests_keeps _ _ _ hK)

theorem writeRequest_keeps {sB : State} (s : State) (r : Req) (a : Nat) (data : List Byte)  (hK : Keeps sB s) :
    Keeps sB (writeRequest s r a data).1 := by
  unfold writeRequest
  repeat' first
    | with_reducible assumption
    | with_reducible apply checkPieces_keeps
    | with_reducible apply admission_keeps
    | with_reducible apply writeMerged_keeps
    | with_reducible apply travel_keeps
    | with_reducible apply lapses_keeps
    | with_reducible apply useFresh_keeps
    | with_reducible apply timedOut_keeps
    | with_reducible refine Keeps.fst ?_ (by assumption)
    | split
    | dsimp only

theorem writeRequests_keeps {sB : State} (s : State) (r : Req) (l : List (Nat × Nat)) (d : List Byte) (hK : Keeps sB s) :
    Keeps sB (writeRequests s r l d).1 := by
  induction l generalizing s d with
  | nil => exact hK
  | cons x t ih =>
    unfold writeRequests
    split
    · rename_i e
      exact Keeps.fst (writeRequest_keeps _ _ _ _ hK) e
    · rename_i e
      exact ih _ _ (Keeps.fst (writeRequest_keeps _ _ _ _ hK) e)

theorem writeLocal_keeps {sB : State} (s : State) (r : Req) (a : Nat) (data : List Byte)  (hK : Keeps sB s) :
    Keeps sB (writeLocal s r a data).1 := by
  unfold writeLocal
  repeat' first
    | with_reducible apply writeRequests_keeps
    | (apply_assumption; done)

theorem hold_keeps {sB : State} (s : State) (r : Req) (a : Nat) (acc : Access) (fmt : Option Nat) (reply : HeldReply)  (hK : Keeps sB s) :
    Keeps sB (hold s r a acc fmt reply) := by
  unfold hold
  repeat' first
    | with_reducible assumption
    | (rw [mk_built]; with_reducible apply Keeps.built)
    | with_reducible rfl
    | with_reducible intro _

theorem holdReq_keeps {sB : State} (s s' : State) (r : Req) (a : Nat) (acc : Access) (fmt : Option Nat)
    (reply : HeldReply) (hK : Keeps sB s) : Keeps sB (holdReq s s' r a acc fmt reply) := by
  unfold holdReq
  have h := settleWaits_keeps s s' hK
  refine hold_keeps _ _ _ _ _ _ ?_
  split
  · exact bump_keeps _ _ _ _ (Keeps.leaf h)
  · exact Keeps.leaf h

theorem peekLocal_keeps {sB : State} (s : State) (r : Req) (a n : Nat)  (hK : Keeps sB s) :
    Keeps sB (peekLocal s r a n).1 := by
  unfold peekLocal
  repeat' first
    | with_reducible assumption
    | with_reducible apply readLocal_keeps
    | with_reducible apply settleWaits_keeps
    | with_reducible refine Keeps.fst ?_ (by assumption)
    | split

theorem postWrite_keeps {sB : State} (s : State) (r : Req) (a : Nat) (data : List Byte)  (hK : Keeps sB s) :
    Keeps sB (postWrite s r a data).1 := by
  unfold postWrite
  repeat' first
    | with_reducible assumption
    | with_reducible apply writeLocal_keeps
    | with_reducible apply hold_keeps
    | with_reducible apply settleWaits_keeps
    | split

end Sys2Proof.Machine
end

