-- ==== Sys2Proof/Laws/KeepFabric.lean ====
section
/-!
SUPPORT. What the operations of Machine/Fabric.lean keep: the queue and the invariant.
-/
namespace Sys2Proof.Machine

theorem putPort_keeps {sB : State} (s : State) (p : NauloId) (v : NauloPort)  (hK : Keeps sB s) :
    Keeps sB (putPort s p v) := by
  unfold putPort
  repeat' first
    | (rw [mk_built]; with_reducible apply Keeps.built)
    | with_reducible exact keysRise_tset _ _ _ _ (by assumption)
    | with_reducible intro _
    | (apply_assumption; done)

theorem sendFlit_keeps {sB : State} (s : State) (p : NauloId) (type : FlitType) (seq : Nat) (units : List (Fin 8 × List Byte))  (hK : Keeps sB s) :
    Keeps sB (sendFlit s p type seq units) := by
  unfold sendFlit
  repeat' first
    | with_reducible assumption
    | with_reducible exact Keeps.refl _
    | with_reducible apply emit_keeps
    | with_reducible apply putPort_keeps
    | (rw [mk_built]; with_reducible apply Keeps.built)
    | with_reducible refine Keeps.fst ?_ (by assumption)
    | with_reducible refine Keeps.foldl _ (fun _ _ => ?_) ?_
    | with_reducible refine Keeps.foldlFst _ (fun _ _ _ => ?_) ?_
    | with_reducible rfl
    | with_reducible exact keysRise_tset _ _ _ _ (by assumption)
    | with_reducible exact keysRise_filter _ _ (by assumption)
    | with_reducible exact keysRise_map _ (fun _ => rfl) _ (by assumption)
    | (with_reducible refine keysRise_map _ ?_ _ (by assumption); intro _; rfl)
    | (with_reducible refine keysRise_filter _ _ (keysRise_map _ ?_ _ (by assumption)); intro _; rfl)
    | split
    | dsimp only
    | with_reducible intro _
    | (apply_assumption; done)

theorem sendLink_keeps {sB : State} (s : State) (p : NauloId) (msg lane : Nat)  (hK : Keeps sB s) :
    Keeps sB (sendLink s p msg lane) := by
  unfold sendLink
  repeat' first
    | with_reducible assumption
    | with_reducible exact Keeps.refl _
    | with_reducible apply sendFlit_keeps
    | (rw [mk_built]; with_reducible apply Keeps.built)
    | with_reducible refine Keeps.fst ?_ (by assumption)
    | with_reducible refine Keeps.foldl _ (fun _ _ => ?_) ?_
    | with_reducible refine Keeps.foldlFst _ (fun _ _ _ => ?_) ?_
    | with_reducible rfl
    | with_reducible exact keysRise_tset _ _ _ _ (by assumption)
    | with_reducible exact keysRise_filter _ _ (by assumption)
    | with_reducible exact keysRise_map _ (fun _ => rfl) _ (by assumption)
    | (with_reducible refine keysRise_map _ ?_ _ (by assumption); intro _; rfl)
    | (with_reducible refine keysRise_filter _ _ (keysRise_map _ ?_ _ (by assumption)); intro _; rfl)
    | split
    | dsimp only
    | with_reducible intro _
    | (apply_assumption; done)

theorem sendIdle_keeps {sB : State} (s : State) (p : NauloId)  (hK : Keeps sB s) :
    Keeps sB (sendIdle s p) := by
  unfold sendIdle
  repeat' first
    | with_reducible assumption
    | with_reducible exact Keeps.refl _
    | with_reducible apply sendFlit_keeps
    | (rw [mk_built]; with_reducible apply Keeps.built)
    | with_reducible refine Keeps.fst ?_ (by assumption)
    | with_reducible refine Keeps.foldl _ (fun _ _ => ?_) ?_
    | with_reducible refine Keeps.foldlFst _ (fun _ _ _ => ?_) ?_
    | with_reducible rfl
    | with_reducible exact keysRise_tset _ _ _ _ (by assumption)
    | with_reducible exact keysRise_filter _ _ (by assumption)
    | with_reducible exact keysRise_map _ (fun _ => rfl) _ (by assumption)
    | (with_reducible refine keysRise_map _ ?_ _ (by assumption); intro _; rfl)
    | (with_reducible refine keysRise_filter _ _ (keysRise_map _ ?_ _ (by assumption)); intro _; rfl)
    | split
    | dsimp only
    | with_reducible intro _
    | (apply_assumption; done)

theorem pump_keeps {sB : State} (s : State) (p : NauloId) (y0 : Nat)  (hK : Keeps sB s) :
    Keeps sB (pump s p y0) := by
  induction y0 generalizing s with
  | zero =>
  unfold pump
  repeat' first
    | with_reducible assumption
    | with_reducible exact Keeps.refl _
    | with_reducible apply bump_keeps
    | with_reducible apply putPort_keeps
    | with_reducible apply sendFlit_keeps
    | (rw [mk_built]; with_reducible apply Keeps.built)
    | with_reducible refine Keeps.fst ?_ (by assumption)
    | with_reducible refine Keeps.foldl _ (fun _ _ => ?_) ?_
    | with_reducible refine Keeps.foldlFst _ (fun _ _ _ => ?_) ?_
    | with_reducible rfl
    | with_reducible exact keysRise_tset _ _ _ _ (by assumption)
    | with_reducible exact keysRise_filter _ _ (by assumption)
    | with_reducible exact keysRise_map _ (fun _ => rfl) _ (by assumption)
    | (with_reducible refine keysRise_map _ ?_ _ (by assumption); intro _; rfl)
    | (with_reducible refine keysRise_filter _ _ (keysRise_map _ ?_ _ (by assumption)); intro _; rfl)
    | split
    | dsimp only
    | with_reducible intro _
    | (apply_assumption; done)
  | succ n ih =>
  unfold pump
  repeat' first
    | with_reducible assumption
    | with_reducible exact Keeps.refl _
    | with_reducible apply ih
    | with_reducible apply bump_keeps
    | with_reducible apply putPort_keeps
    | with_reducible apply sendFlit_keeps
    | (rw [mk_built]; with_reducible apply Keeps.built)
    | with_reducible refine Keeps.fst ?_ (by assumption)
    | with_reducible refine Keeps.foldl _ (fun _ _ => ?_) ?_
    | with_reducible refine Keeps.foldlFst _ (fun _ _ _ => ?_) ?_
    | with_reducible rfl
    | with_reducible exact keysRise_tset _ _ _ _ (by assumption)
    | with_reducible exact keysRise_filter _ _ (by assumption)
    | with_reducible exact keysRise_map _ (fun _ => rfl) _ (by assumption)
    | (with_reducible refine keysRise_map _ ?_ _ (by assumption); intro _; rfl)
    | (with_reducible refine keysRise_filter _ _ (keysRise_map _ ?_ _ (by assumption)); intro _; rfl)
    | split
    | dsimp only
    | with_reducible intro _
    | (apply_assumption; done)


theorem portSend_keeps {sB : State} (s : State) (p : NauloId) (vc : Fin 8) (units : List (List Byte))  (hK : Keeps sB s) :
    Keeps sB (portSend s p vc units) := by
  unfold portSend
  repeat' first
    | with_reducible apply putPort_keeps
    | with_reducible apply pump_keeps
    | (apply_assumption; done)

theorem noRoute_keeps {sB : State} (s : State)  (hK : Keeps sB s) :
    Keeps sB (noRoute s) := by
  unfold noRoute
  repeat' first
    | with_reducible apply bump_keeps
    | with_reducible apply raise_keeps
    | (apply_assumption; done)

theorem sendPacket_keeps {sB : State} (s : State) (op : Nat) (vc : Fin 8) (h : PacketHead) (w6 : Nat) (operand : Word) (ext : List Word) (data : List Byte)  (hK : Keeps sB s) :
    Keeps sB (sendPacket s op vc h w6 operand ext data).1 := by
  unfold sendPacket
  repeat' first
    | with_reducible apply noRoute_keeps
    | with_reducible apply emit_keeps
    | with_reducible apply portSend_keeps
    | split
    | (apply_assumption; done)

theorem sendControl_keeps {sB : State} (s : State) (b : Block) (op : Nat) (dst : DeviceId) (ext : List Word) (data : List Byte) (out : Output)  (hK : Keeps sB s) :
    Keeps sB (sendControl s b op dst ext data out) := by
  unfold sendControl
  repeat' first
    | with_reducible apply emit_keeps
    | with_reducible apply portSend_keeps
    | split
    | dsimp only
    | (apply_assumption; done)

theorem remoteAnswer_keeps {sB : State} (s : State) (r : Req)  (hK : Keeps sB s) :
    Keeps sB (remoteAnswer s r).1 := by
  unfold remoteAnswer
  generalize Config.remoteStatus s.fresh % 8 = code
  repeat' first
    | with_reducible assumption
    | with_reducible exact Keeps.refl _
    | with_reducible apply useFresh_keeps
    | with_reducible apply raiseAtRequester_keeps
    | with_reducible apply countDelayed_keeps
    | (rw [mk_built]; with_reducible apply Keeps.built)
    | with_reducible refine Keeps.fst ?_ (by assumption)
    | with_reducible refine Keeps.foldl _ (fun _ _ => ?_) ?_
    | with_reducible refine Keeps.foldlFst _ (fun _ _ _ => ?_) ?_
    | with_reducible rfl
    | with_reducible exact keysRise_tset _ _ _ _ (by assumption)
    | with_reducible exact keysRise_filter _ _ (by assumption)
    | with_reducible exact keysRise_map _ (fun _ => rfl) _ (by assumption)
    | (with_reducible refine keysRise_map _ ?_ _ (by assumption); intro _; rfl)
    | (with_reducible refine keysRise_filter _ _ (keysRise_map _ ?_ _ (by assumption)); intro _; rfl)
    | split
    | dsimp only
    | with_reducible intro _
    | (apply_assumption; done)

theorem portArrival_keeps {sB : State} (s : State) (r : Req) (dst : DeviceId) (hK : Keeps sB s) :
    Keeps sB (portArrival s r dst).1 := by
  unfold portArrival
  split
  · exact hK
  · dsimp only
    split
    · exact fencedAnswer_keeps _ _ _ hK
    · generalize portQueued s _ [3] = a
      generalize portQueued s _ [1, 3] = b
      repeat' first
        | exact hK
        | apply noteDelayed_keeps
        | apply noteRefused_keeps
        | split

theorem setOut_keeps {sB : State} (s : State) (r : Req) (ga n op w6 : Nat) (operand : Word) (ext : List Word) (data : List Byte)  (hK : Keeps sB s) :
    Keeps sB (setOut s r ga n op w6 operand ext data).1 := by
  unfold setOut
  repeat' first
    | with_reducible assumption
    | with_reducible exact Keeps.refl _
    | with_reducible apply timedOut_keeps
    | with_reducible apply portArrival_keeps
    | with_reducible apply sendPacket_keeps
    | with_reducible apply passFlits_keeps
    | (rw [mk_built]; with_reducible apply Keeps.built)
    | with_reducible refine Keeps.fst ?_ (by assumption)
    | with_reducible refine Keeps.foldl _ (fun _ _ => ?_) ?_
    | with_reducible refine Keeps.foldlFst _ (fun _ _ _ => ?_) ?_
    | with_reducible rfl
    | with_reducible exact keysRise_tset _ _ _ _ (by assumption)
    | with_reducible exact keysRise_filter _ _ (by assumption)
    | with_reducible exact keysRise_map _ (fun _ => rfl) _ (by assumption)
    | (with_reducible refine keysRise_map _ ?_ _ (by assumption); intro _; rfl)
    | (with_reducible refine keysRise_filter _ _ (keysRise_map _ ?_ _ (by assumption)); intro _; rfl)
    | split
    | dsimp only
    | with_reducible intro _
    | (apply_assumption; done)

theorem remoteRequest_keeps {sB : State} (s : State) (r : Req) (ga n op w6 back : Nat) (data : List Byte)  (hK : Keeps sB s) :
    Keeps sB (remoteRequest s r ga n op w6 back data).1 := by
  unfold remoteRequest
  repeat' first
    | with_reducible assumption
    | with_reducible exact Keeps.refl _
    | with_reducible apply lapses_keeps
    | with_reducible apply setOut_keeps
    | with_reducible apply timedOut_keeps
    | with_reducible apply remoteAnswer_keeps
    | with_reducible apply passFlits_keeps
    | (rw [mk_built]; with_reducible apply Keeps.built)
    | with_reducible refine Keeps.fst ?_ (by assumption)
    | with_reducible refine Keeps.foldl _ (fun _ _ => ?_) ?_
    | with_reducible refine Keeps.foldlFst _ (fun _ _ _ => ?_) ?_
    | with_reducible rfl
    | with_reducible exact keysRise_tset _ _ _ _ (by assumption)
    | with_reducible exact keysRise_filter _ _ (by assumption)
    | with_reducible exact keysRise_map _ (fun _ => rfl) _ (by assumption)
    | (with_reducible refine keysRise_map _ ?_ _ (by assumption); intro _; rfl)
    | (with_reducible refine keysRise_filter _ _ (keysRise_map _ ?_ _ (by assumption)); intro _; rfl)
    | split
    | dsimp only
    | with_reducible intro _
    | (apply_assumption; done)

theorem remoteReads_keeps {sB : State} (s : State) (r : Req) (dev : Nat) (y0 : List (Nat × Nat))  (hK : Keeps sB s) :
    Keeps sB (remoteReads s r dev y0).1 := by
  induction y0 generalizing s with
  | nil =>
  unfold remoteReads
  repeat' first
    | with_reducible assumption
    | with_reducible exact Keeps.refl _
    | with_reducible apply remoteRequest_keeps
    | (rw [mk_built]; with_reducible apply Keeps.built)
    | with_reducible refine Keeps.fst ?_ (by assumption)
    | with_reducible refine Keeps.foldl _ (fun _ _ => ?_) ?_
    | with_reducible refine Keeps.foldlFst _ (fun _ _ _ => ?_) ?_
    | with_reducible rfl
    | with_reducible exact keysRise_tset _ _ _ _ (by assumption)
    | with_reducible exact keysRise_filter _ _ (by assumption)
    | with_reducible exact keysRise_map _ (fun _ => rfl) _ (by assumption)
    | (with_reducible refine keysRise_map _ ?_ _ (by assumption); intro _; rfl)
    | (with_reducible refine keysRise_filter _ _ (keysRise_map _ ?_ _ (by assumption)); intro _; rfl)
    | split
    | dsimp only
    | with_reducible intro _
    | (apply_assumption; done)
  | cons a l ih =>
  unfold remoteReads
  repeat' first
    | with_reducible assumption
    | with_reducible exact Keeps.refl _
    | with_reducible apply ih
    | with_reducible apply remoteRequest_keeps
    | (rw [mk_built]; with_reducible apply Keeps.built)
    | with_reducible refine Keeps.fst ?_ (by assumption)
    | with_reducible refine Keeps.foldl _ (fun _ _ => ?_) ?_
    | with_reducible refine Keeps.foldlFst _ (fun _ _ _ => ?_) ?_
    | with_reducible rfl
    | with_reducible exact keysRise_tset _ _ _ _ (by assumption)
    | with_reducible exact keysRise_filter _ _ (by assumption)
    | with_reducible exact keysRise_map _ (fun _ => rfl) _ (by assumption)
    | (with_reducible refine keysRise_map _ ?_ _ (by assumption); intro _; rfl)
    | (with_reducible refine keysRise_filter _ _ (keysRise_map _ ?_ _ (by assumption)); intro _; rfl)
    | split
    | dsimp only
    | with_reducible intro _
    | (apply_assumption; done)


theorem remoteWrites_keeps {sB : State} (s : State) (r : Req) (dev : Nat) (y0 : List (Nat × Nat)) (y1 : List Byte)  (hK : Keeps sB s) :
    Keeps sB (remoteWrites s r dev y0 y1).1 := by
  induction y0 generalizing y1 s with
  | nil =>
  unfold remoteWrites
  repeat' first
    | with_reducible assumption
    | with_reducible exact Keeps.refl _
    | with_reducible apply remoteRequest_keeps
    | (rw [mk_built]; with_reducible apply Keeps.built)
    | with_reducible refine Keeps.fst ?_ (by assumption)
    | with_reducible refine Keeps.foldl _ (fun _ _ => ?_) ?_
    | with_reducible refine Keeps.foldlFst _ (fun _ _ _ => ?_) ?_
    | with_reducible rfl
    | with_reducible exact keysRise_tset _ _ _ _ (by assumption)
    | with_reducible exact keysRise_filter _ _ (by assumption)
    | with_reducible exact keysRise_map _ (fun _ => rfl) _ (by assumption)
    | (with_reducible refine keysRise_map _ ?_ _ (by assumption); intro _; rfl)
    | (with_reducible refine keysRise_filter _ _ (keysRise_map _ ?_ _ (by assumption)); intro _; rfl)
    | split
    | dsimp only
    | with_reducible intro _
    | (apply_assumption; done)
  | cons a l ih =>
  unfold remoteWrites
  repeat' first
    | with_reducible assumption
    | with_reducible exact Keeps.refl _
    | with_reducible apply ih
    | with_reducible apply remoteRequest_keeps
    | (rw [mk_built]; with_reducible apply Keeps.built)
    | with_reducible refine Keeps.fst ?_ (by assumption)
    | with_reducible refine Keeps.foldl _ (fun _ _ => ?_) ?_
    | with_reducible refine Keeps.foldlFst _ (fun _ _ _ => ?_) ?_
    | with_reducible rfl
    | with_reducible exact keysRise_tset _ _ _ _ (by assumption)
    | with_reducible exact keysRise_filter _ _ (by assumption)
    | with_reducible exact keysRise_map _ (fun _ => rfl) _ (by assumption)
    | (with_reducible refine keysRise_map _ ?_ _ (by assumption); intro _; rfl)
    | (with_reducible refine keysRise_filter _ _ (keysRise_map _ ?_ _ (by assumption)); intro _; rfl)
    | split
    | dsimp only
    | with_reducible intro _
    | (apply_assumption; done)


theorem gRead_keeps {sB : State} (s : State) (r : Req) (ga n : Nat)  (hK : Keeps sB s) :
    Keeps sB (gRead s r ga n).1 := by
  unfold gRead
  repeat' first
    | with_reducible assumption
    | with_reducible exact Keeps.refl _
    | with_reducible apply raiseAtRequester_keeps
    | with_reducible apply readLocal_keeps
    | with_reducible apply consume_keeps
    | with_reducible apply remoteReads_keeps
    | (rw [mk_built]; with_reducible apply Keeps.built)
    | with_reducible refine Keeps.fst ?_ (by assumption)
    | with_reducible refine Keeps.foldl _ (fun _ _ => ?_) ?_
    | with_reducible refine Keeps.foldlFst _ (fun _ _ _ => ?_) ?_
    | with_reducible rfl
    | with_reducible exact keysRise_tset _ _ _ _ (by assumption)
    | with_reducible exact keysRise_filter _ _ (by assumption)
    | with_reducible exact keysRise_map _ (fun _ => rfl) _ (by assumption)
    | (with_reducible refine keysRise_map _ ?_ _ (by assumption); intro _; rfl)
    | (with_reducible refine keysRise_filter _ _ (keysRise_map _ ?_ _ (by assumption)); intro _; rfl)
    | split
    | dsimp only
    | with_reducible intro _
    | (apply_assumption; done)

theorem gWrite_keeps {sB : State} (s : State) (r : Req) (ga : Nat) (data : List Byte)  (hK : Keeps sB s) :
    Keeps sB (gWrite s r ga data).1 := by
  unfold gWrite
  repeat' first
    | with_reducible apply raiseAtRequester_keeps
    | with_reducible apply writeLocal_keeps
    | with_reducible apply remoteWrites_keeps
    | split
    | (apply_assumption; done)

theorem addressOnce_keeps {sB : State} (s0 s : State) (b : Block) (a : Nat) (o : Occur)  (hK : Keeps sB s) :
    Keeps sB (addressOnce s0 s b a o) := by
  unfold addressOnce
  repeat' first
    | with_reducible assumption
    | with_reducible exact Keeps.refl _
    | with_reducible apply raiseWith_keeps
    | (rw [mk_built]; with_reducible apply Keeps.built)
    | with_reducible refine Keeps.fst ?_ (by assumption)
    | with_reducible refine Keeps.foldl _ (fun _ _ => ?_) ?_
    | with_reducible refine Keeps.foldlFst _ (fun _ _ _ => ?_) ?_
    | with_reducible rfl
    | with_reducible exact keysRise_tset _ _ _ _ (by assumption)
    | with_reducible exact keysRise_filter _ _ (by assumption)
    | with_reducible exact keysRise_map _ (fun _ => rfl) _ (by assumption)
    | (with_reducible refine keysRise_map _ ?_ _ (by assumption); intro _; rfl)
    | (with_reducible refine keysRise_filter _ _ (keysRise_map _ ?_ _ (by assumption)); intro _; rfl)
    | split
    | dsimp only
    | with_reducible intro _
    | (apply_assumption; done)

theorem sendAck_keeps {sB : State} (s : State) (b : Block) (node : DeviceId) (h : PacketHead) (code : Nat)  (hK : Keeps sB s) :
    Keeps sB (sendAck s b node h code) := by
  unfold sendAck
  repeat' first
    | with_reducible apply sendPacket_keeps
    | split
    | (apply_assumption; done)

theorem sendReadResp_keeps {sB : State} (s : State) (b : Block) (node : DeviceId) (h : PacketHead) (code : Nat) (data : List Byte)  (hK : Keeps sB s) :
    Keeps sB (sendReadResp s b node h code data) := by
  unfold sendReadResp
  repeat' first
    | with_reducible apply sendPacket_keeps
    | split
    | (apply_assumption; done)

end Sys2Proof.Machine
end

