-- ==== Sys2Proof/Laws/KeepTrace.lean ====
section
/-!
SUPPORT. What the operations of Machine/Trace.lean keep: the queue and the invariant.
-/
namespace Sys2Proof.Machine

theorem traceDrop_keeps {sB : State} (s : State) (counter : Nat)  (hK : Keeps sB s) :
    Keeps sB (traceDrop s counter) := by
  unfold traceDrop
  repeat' first
    | with_reducible apply bump_keeps
    | with_reducible apply rput_keeps
    | (rw [mk_built]; with_reducible apply Keeps.built)
    | with_reducible intro _
    | (apply_assumption; done)

theorem traceQueue_keeps {sB : State} (s : State) (b : Block) (words : List Word) (slots : List (List Word))  (hK : Keeps sB s) :
    Keeps sB (traceQueue s b words slots) := by
  unfold traceQueue
  repeat' first
    | with_reducible apply traceDrop_keeps
    | (rw [mk_built]; with_reducible apply Keeps.built)
    | split
    | with_reducible intro _
    | (apply_assumption; done)

theorem traceSend_keeps {sB : State} (s : State) (b : Block) (i : TraceInfo)  (hK : Keeps sB s) :
    Keeps sB (traceSend s b i) := by
  unfold traceSend
  repeat' first
    | with_reducible apply traceQueue_keeps
    | split
    | (apply_assumption; done)

theorem traceWait_keeps {sB : State} (s : State) (b : Block) (from_ : Option WaitStart) (i : WaitStart → Nat → TraceInfo)  (hK : Keeps sB s) :
    Keeps sB (traceWait s b from_ i) := by
  unfold traceWait
  repeat' first
    | with_reducible apply traceSend_keeps
    | split
    | (apply_assumption; done)

theorem commandLatch_keeps {sB : State} (s : State) (b : Block) (tag : Tag) (queue opcode edge : Nat)  (hK : Keeps sB s) :
    Keeps sB (commandLatch s b tag queue opcode edge) := by
  unfold commandLatch
  repeat' first
    | with_reducible apply latchCounters_keeps
    | with_reducible apply traceQueue_keeps
    | split
    | dsimp only
    | (apply_assumption; done)

theorem startLatch_keeps {sB : State} (s : State) (b : Block) (tag : Tag) (queue opcode : Nat) (l : List Nat)  (hK : Keeps sB s) :
    Keeps sB (startLatch s b tag queue opcode l).1 := by
  unfold startLatch
  repeat' first
    | with_reducible apply commandLatch_keeps
    | split
    | (apply_assumption; done)

theorem endLatches_keeps {sB : State} (s : State) (l : List Nat) (tag : Tag) (queue opcode : Nat)  (hK : Keeps sB s) :
    Keeps sB (endLatches s l tag queue opcode) := by
  unfold endLatches
  repeat' first
    | with_reducible exact Keeps.refl _
    | with_reducible apply commandLatch_keeps
    | with_reducible refine Keeps.foldl _ (fun _ _ => ?_) ?_
    | split
    | (apply_assumption; done)

end Sys2Proof.Machine
end

