-- ==== Sys2Proof/Laws/KeepQueues.lean ====
section
/-!
SUPPORT. What the operations of Machine/Queues.lean keep: the queue and the invariant.
-/
namespace Sys2Proof.Machine

theorem semBump_keeps {sB : State} (s : State) (f : FrontId) (k n : Nat)  (hK : Keeps sB s) :
    Keeps sB (semBump s f k n) := by
  unfold semBump
  repeat' first
    | with_reducible apply bump_keeps
    | split
    | (apply_assumption; done)

theorem noteFirstPoison_keeps {sB : State} (s : State) (f : FrontId) (i : Nat) (tag : Tag)  (hK : Keeps sB s) :
    Keeps sB (noteFirstPoison s f i tag) := by
  unfold noteFirstPoison
  repeat' first
    | (rw [mk_built]; with_reducible apply Keeps.built)
    | split
    | with_reducible intro _
    | (apply_assumption; done)

theorem clearFirstPoison_keeps {sB : State} (s : State) (f : FrontId)  (hK : Keeps sB s) :
    Keeps sB (clearFirstPoison s f) := by
  unfold clearFirstPoison
  repeat' first
    | (rw [mk_built]; with_reducible apply Keeps.built)
    | split
    | with_reducible intro _
    | (apply_assumption; done)

theorem poisonSem_keeps {sB : State} (s : State) (f : FrontId) (i : Nat) (src : Source)  (hK : Keeps sB s) :
    Keeps sB (poisonSem s f i src) := by
  unfold poisonSem
  repeat' first
    | exact fun i => getSem_ok (Keeps.inv (by assumption) i) _ _
    | with_reducible apply noteFirstPoison_keeps
    | with_reducible apply putSem_keeps
    | (apply_assumption; done)

theorem semFault_keeps {sB : State} (s : State) (f : FrontId) (i : Nat) (sub : Bool) (amount : Nat) (src : Source)  (hK : Keeps sB s) :
    Keeps sB (semFault s f i sub amount src) := by
  unfold semFault
  repeat' first
    | with_reducible assumption
    | with_reducible apply poisonSem_keeps
    | with_reducible apply bump_keeps
    | with_reducible apply rput_keeps
    | with_reducible apply raiseTag_keeps
    | split

theorem semApply_keeps {sB : State} (s : State) (f : FrontId) (i : Nat) (sub : Bool) (amount : Nat) (src : Source)
    (hK : Keeps sB s) : Keeps sB (semApply s f i sub amount src).1 := by
  unfold semApply
  dsimp only
  split
  · exact hK
  · split
    · split
      · exact semFault_keeps _ _ _ _ _ _ hK
      · refine semBump_keeps _ _ _ _ (putSem_keeps _ _ _ _ (fun j => ?_) hK)
        exact Nat.lt_of_le_of_lt (Nat.sub_le _ _) (getSem_ok (hK.inv j) _ _)
    · split
      · exact semFault_keeps _ _ _ _ _ _ hK
      · refine semBump_keeps _ _ _ _ (putSem_keeps _ _ _ _ (fun j => ?_) hK)
        dsimp only
        omega

theorem fillBank_keeps {sB : State} (s : State) (f : FrontId) (v : Sem) (hv : sB.Inv → v.count < 2 ^ 31)
    (hK : Keeps sB s) : Keeps sB (fillBank s f v) := by
  refine clearFirstPoison_keeps _ _ (putBank_keeps _ _ _ (fun j => ?_) hK)
  simpa [bankOk, semOk, keysRise, keysRiseFrom] using hv j

theorem poisonBank_keeps {sB : State} (s : State) (f : FrontId) (proxy : Block) (hK : Keeps sB s) :
    Keeps sB (poisonBank s f proxy) := by
  have key : ∀ (g : Sem → Sem) (p : Nat × Sem → Bool), (∀ x, (g x).count = x.count) → s.Inv →
      bankOk { dflt := g (getBank s f).dflt,
               cells := ((getBank s f).cells.map (fun c => (c.1, g c.2))).filter p } = true := by
    intro g p hg j
    have hb := getBank_ok j f
    simp only [bankOk, Bool.and_eq_true] at hb ⊢
    refine ⟨⟨?_, keysRise_filter _ _ (keysRise_map (fun c => (c.1, g c.2)) (fun _ => rfl) _ hb.1.2)⟩, all_filter _ _ _ ?_⟩
    · simpa [semOk, hg] using hb.1.1
    · simpa [semOk, hg, List.all_map, Function.comp_def] using hb.2
  unfold poisonBank
  have h1 := putBank_keeps s f _ (fun i => key (fun x => if x.poison then x else
      { x with poison := true, src := { unit := proxy.unit, node := (nodeId s).val, tag := 0 } })
      (fun c => c.2 ≠ (if (getBank s f).dflt.poison then (getBank s f).dflt else
      { (getBank s f).dflt with poison := true, src := { unit := proxy.unit, node := (nodeId s).val, tag := 0 } }))
      (fun x => by split <;> rfl) (hK.inv i)) hK
  dsimp only
  split
  · exact semBump_keeps _ _ _ _ h1
  · exact noteFirstPoison_keeps _ _ _ _ (semBump_keeps _ _ _ _ h1)

theorem getBaton_le {s : State} (i : s.Inv) (c : CoreId) (k : Nat) : (getBaton s c k).length ≤ 32 := by
  refine tget_all (fun l : List Token => l.length ≤ 32) [] (by simp) _ s.batons fun e he => ?_
  have := i.tokens
  rw [List.all_eq_true] at this
  simpa [batonOk] using this e he

/-- Replacing the tokens of a baton by at most 32 of them. -/
theorem putBaton_keeps {sB : State} (s : State) (c : CoreId) (i : Nat) (l : List Token)
    (hl : s.Inv → l.length ≤ 32) (hK : Keeps sB s) : Keeps sB (putBaton s c i l) :=
  ⟨hK.pending, hK.boot, hK.image, hK.mono, fun i =>
    let j := hK.inv i
    { j with
      batons := keysRise_tset _ _ _ _ j.batons
      tokens := all_tset _ _ _ _ (by simpa [batonOk] using hl j) _ j.tokens }⟩

theorem batonPut_keeps {sB : State} (s : State) (c : CoreId) (i n : Nat) (t : Token)
    (hn : s.Inv → (getBaton s c i).length + n ≤ 32) (hK : Keeps sB s) : Keeps sB (batonPut s c i n t) :=
  bump_keeps _ _ _ _ (putBaton_keeps _ _ _ _ (fun j => by simpa using hn j) hK)

theorem batonPass_keeps {sB : State} (s : State) (c : CoreId) (i n : Nat) (t : Token) (hK : Keeps sB s) :
    Keeps sB (batonPass s c i n t).1 := by
  unfold batonPass
  split
  · rename_i h
    refine batonPut_keeps _ _ _ _ _ (fun _ => ?_) hK
    simpa [batonRoom] using h
  · exact hK

theorem emptyBatons_keeps {sB : State} (s : State) (c : CoreId) (hK : Keeps sB s) : Keeps sB (emptyBatons s c) :=
  ⟨hK.pending, hK.boot, hK.image, hK.mono, fun i =>
    let j := hK.inv i
    { j with
      batons := keysRise_filter _ _ j.batons
      tokens := all_filter _ _ _ j.tokens }⟩

theorem putSlot_keeps {sB : State} (s : State) (f : FrontId) (x : Slot)  (hK : Keeps sB s) :
    Keeps sB (putSlot s f x) := by
  unfold putSlot
  repeat' first
    | with_reducible apply putFront_keeps
    | (apply_assumption; done)

theorem reportOldDone_keeps {sB : State} (s : State) (l : Lock)  (hK : Keeps sB s) :
    Keeps sB (reportOldDone s l) := by
  unfold reportOldDone
  repeat' first
    | (rw [mk_built]; with_reducible apply Keeps.built)
    | split
    | with_reducible intro _
    | (apply_assumption; done)

theorem oldEnded_keeps {sB : State} (s : State) (f : FrontId) (n : Nat)  (hK : Keeps sB s) :
    Keeps sB (oldEnded s f n) := by
  unfold oldEnded
  repeat' first
    | with_reducible assumption
    | with_reducible exact Keeps.refl _
    | with_reducible apply reportOldDone_keeps
    | (rw [mk_built]; with_reducible apply Keeps.built)
    | with_reducible refine Keeps.foldl _ (fun _ _ => ?_) ?_
    | with_reducible rfl
    | split
    | with_reducible intro _

theorem freeSlot_keeps {sB : State} (s : State) (f : FrontId) (n : Nat)  (hK : Keeps sB s) :
    Keeps sB (freeSlot s f n) := by
  unfold freeSlot
  repeat' first
    | with_reducible assumption
    | with_reducible apply oldEnded_keeps
    | with_reducible apply putFront_keeps

theorem endSlot_keeps {sB : State} (s : State) (f : FrontId) (n : Nat) (st : Status)  (hK : Keeps sB s) :
    Keeps sB (endSlot s f n st) := by
  unfold endSlot
  repeat' first
    | with_reducible assumption
    | with_reducible apply oldEnded_keeps
    | with_reducible apply putSlot_keeps
    | split

theorem getSem_semBump (s : State) (f g : FrontId) (k n i : Nat) : getSem (semBump s f k n) g i = getSem s g i := by
  cases f <;> rfl

theorem takeWait_keeps {sB : State} (s : State) (f : FrontId) (q : Nat) (ws : List Word) (from_ : Option WaitStart)
    (hK : Keeps sB s) : Keeps sB (takeWait s f q ws from_) := by
  unfold takeWait
  split
  · dsimp only
    split
    · exact hK
    · refine traceWait_keeps _ _ _ _ (bump_keeps _ _ _ _ (putBaton_keeps _ _ _ _ (fun j => ?_) hK))
      rw [List.length_drop]
      exact Nat.le_trans (Nat.sub_le _ _) (getBaton_le j _ _)
  · dsimp only
    split
    · exact hK
    · refine traceWait_keeps _ _ _ _ ?_
      have h1 : ∀ (g : FrontId) (b : Bool), Keeps sB (if b = true then semBump s g 3 1 else s) := by
        intro g b
        split
        · exact semBump_keeps _ _ _ _ hK
        · exact hK
      split
      · refine semBump_keeps _ _ _ _ (putSem_keeps _ _ _ _ (fun j => ?_) (h1 _ _))
        refine Nat.lt_of_le_of_lt (Nat.sub_le _ _) ?_
        exact getSem_ok (hK.inv j) _ _
      · exact h1 _ _

theorem poisonedWait_keeps {sB : State} (s : State) (f : FrontId) (q : Nat) (ws : List Word) (from_ : Option WaitStart)  (hK : Keeps sB s) :
    Keeps sB (poisonedWait s f q ws from_) := by
  unfold poisonedWait
  repeat' first
    | with_reducible apply raiseTag_keeps
    | with_reducible apply traceWait_keeps
    | (apply_assumption; done)

theorem makePost_keeps {sB : State} (s : State) (f : FrontId) (ws : List Word) (st : Status) (left : Nat)  (hK : Keeps sB s) :
    Keeps sB (makePost s f ws st left).1 := by
  unfold makePost
  repeat' first
    | with_reducible apply raiseTag_keeps
    | with_reducible apply batonPass_keeps
    | with_reducible apply semBump_keeps
    | with_reducible apply semApply_keeps
    | with_reducible refine Keeps.fst ?_ (by assumption)
    | split
    | dsimp only
    | (apply_assumption; done)

theorem writeRecord_keeps {sB : State} (s : State) (f : FrontId) (ws : List Word) (st : Status)  (hK : Keeps sB s) :
    Keeps sB (writeRecord s f ws st) := by
  unfold writeRecord
  repeat' first
    | with_reducible assumption
    | with_reducible apply bump_keeps
    | with_reducible apply raiseTag_keeps
    | with_reducible apply postWrite_keeps
    | with_reducible apply rput_keeps
    | with_reducible apply sendMsi_keeps
    | with_reducible apply addressOnce_keeps
    | with_reducible refine Keeps.fst ?_ (by assumption)
    | split
    | dsimp only

theorem finishCommand_keeps {sB : State} (s : State) (f : FrontId) (ws : List Word) (q : Nat) (latches : List Nat) (st : Status)  (hK : Keeps sB s) :
    Keeps sB (finishCommand s f ws q latches st) := by
  unfold finishCommand
  repeat' first
    | with_reducible apply bump_keeps
    | with_reducible apply stepSkip_keeps
    | with_reducible apply rput_keeps
    | with_reducible apply writeRecord_keeps
    | with_reducible apply endLatches_keeps
    | split
    | (apply_assumption; done)

theorem slotFreed_keeps {sB : State} (s : State) (f : FrontId) (x : Slot)  (hK : Keeps sB s) :
    Keeps sB (slotFreed s f x) := by
  unfold slotFreed
  repeat' first
    | with_reducible apply putFront_keeps
    | with_reducible apply traceWait_keeps
    | split
    | dsimp only
    | (apply_assumption; done)

theorem completeSlot_keeps {sB : State} (s : State) (f : FrontId) (x : Slot) (st : Status)  (hK : Keeps sB s) :
    Keeps sB (completeSlot s f x st) := by
  unfold completeSlot
  repeat' first
    | with_reducible apply slotFreed_keeps
    | with_reducible apply freeSlot_keeps
    | with_reducible apply finishCommand_keeps
    | (apply_assumption; done)

theorem abortSlot_keeps {sB : State} (s : State) (f : FrontId) (x : Slot)  (hK : Keeps sB s) :
    Keeps sB (abortSlot s f x) := by
  unfold abortSlot
  repeat' first
    | with_reducible apply makePost_keeps
    | with_reducible apply completeSlot_keeps
    | with_reducible refine Keeps.fst ?_ (by assumption)
    | split
    | (apply_assumption; done)

end Sys2Proof.Machine
end

