-- ==== Sys2Proof/Laws/KeepCommands.lean ====
section
/-!
SUPPORT. What the operations of Machine/Commands.lean keep: the queue and the invariant.
-/
namespace Sys2Proof.Machine

theorem loopAtTail_keeps {sB : State} (s : State) (f : FrontId)  (hK : Keeps sB s) :
    Keeps sB (loopAtTail s f) := by
  unfold loopAtTail
  repeat' first
    | with_reducible apply rput_keeps
    | with_reducible apply raise_keeps
    | split
    | dsimp only
    | (apply_assumption; done)

theorem advanceHead_keeps {sB : State} (s : State) (f : FrontId)  (hK : Keeps sB s) :
    Keeps sB (advanceHead s f) := by
  unfold advanceHead
  repeat' first
    | with_reducible apply loopAtTail_keeps
    | with_reducible apply rput_keeps
    | (apply_assumption; done)

theorem pushFetched_keeps {sB : State} (s : State) (f : FrontId) (x : Fetched)  (hK : Keeps sB s) :
    Keeps sB (pushFetched s f x) := by
  unfold pushFetched
  repeat' first
    | with_reducible apply advanceHead_keeps
    | with_reducible apply putFront_keeps
    | (apply_assumption; done)

theorem fetchAborted_keeps {sB : State} (s t : State) (f : FrontId) (a : Nat) (hs : Keeps sB s) (hK : Keeps sB t) :
    Keeps sB (fetchAborted s t f a) := by
  unfold fetchAborted
  dsimp only
  split
  · split
    · exact pushFetched_keeps _ _ _ hK
    · exact putFront_keeps _ _ _ hK
  · exact pushFetched_keeps _ _ _ (addressOnce_keeps _ _ _ _ _ hK)

theorem fetchOne_keeps {sB : State} (s : State) (f : FrontId)  (hK : Keeps sB s) :
    Keeps sB (fetchOne s f) := by
  unfold fetchOne
  repeat' first
    | with_reducible assumption
    | with_reducible apply pushFetched_keeps
    | with_reducible apply raise_keeps
    | with_reducible apply readLocal_keeps
    | with_reducible apply settleWaits_keeps
    | with_reducible apply fetchAborted_keeps
    | with_reducible refine Keeps.fst ?_ (by assumption)
    | split
    | dsimp only

theorem execRingFetch_keeps {sB : State} (f : FrontId) (s : State)  (hK : Keeps sB s) :
    OutKeeps sB (execRingFetch f s) := by
  unfold execRingFetch
  repeat' first
    | with_reducible refine OutKeeps.next ?_
    | with_reducible apply loopAtTail_keeps
    | with_reducible apply fetchOne_keeps
    | split
    | (apply_assumption; done)

theorem replySem_keeps {sB : State} (s : State) (m : SemMsg) (st : Status) (used : Bool)  (hK : Keeps sB s) :
    Keeps sB (replySem s m st used) := by
  unfold replySem
  repeat' first
    | with_reducible apply raiseTag_keeps
    | with_reducible apply endSlot_keeps
    | with_reducible apply sendAck_keeps
    | split
    | (apply_assumption; done)

theorem raiseAtIssuer_keeps {sB : State} (s : State) (m : SemMsg) (cause : Nat)  (hK : Keeps sB s) :
    Keeps sB (raiseAtIssuer s m cause) := by
  unfold raiseAtIssuer
  repeat' first
    | with_reducible apply raiseTag_keeps
    | split
    | (apply_assumption; done)

theorem applySemMsg_keeps {sB : State} (s : State) (m : SemMsg)  (hK : Keeps sB s) :
    Keeps sB (applySemMsg s m) := by
  unfold applySemMsg
  repeat' first
    | with_reducible apply replySem_keeps
    | with_reducible apply raiseAtIssuer_keeps
    | with_reducible apply bump_keeps
    | with_reducible apply batonPass_keeps
    | with_reducible apply semApply_keeps
    | with_reducible apply semBump_keeps
    | (rw [mk_built]; with_reducible apply Keeps.built)
    | with_reducible refine Keeps.fst ?_ (by assumption)
    | split
    | dsimp only
    | with_reducible intro _
    | (apply_assumption; done)

theorem deliverSemMsg_keeps {sB : State} (s : State) (k : Nat)  (hK : Keeps sB s) :
    Keeps sB (deliverSemMsg s k) := by
  unfold deliverSemMsg
  repeat' first
    | with_reducible apply applySemMsg_keeps
    | (rw [mk_built]; with_reducible apply Keeps.built)
    | split
    | with_reducible intro _
    | (apply_assumption; done)

theorem applyAdds_keeps {sB : State} (s : State) (f : FrontId) (i : Nat) (y0 : Nat)  (hK : Keeps sB s) :
    Keeps sB (applyAdds s f i y0) := by
  induction y0 generalizing s with
  | zero =>
  unfold applyAdds
  repeat' first
    | with_reducible assumption
  | succ n ih =>
  unfold applyAdds
  repeat' first
    | with_reducible assumption
    | with_reducible apply ih
    | with_reducible apply deliverSemMsg_keeps
    | split


theorem readyAdds_keeps {sB : State} (s : State) (f : FrontId) (ws : List Word)  (hK : Keeps sB s) :
    Keeps sB (readyAdds s f ws) := by
  unfold readyAdds
  repeat' first
    | with_reducible assumption
    | with_reducible apply applyAdds_keeps
    | split

theorem tryComplete_keeps {sB : State} (s : State) (f : FrontId) (x : Slot) (st : Status) (left : Nat)  (hK : Keeps sB s) :
    Keeps sB (tryComplete s f x st left) := by
  unfold tryComplete
  repeat' first
    | with_reducible assumption
    | with_reducible apply makePost_keeps
    | with_reducible apply readyAdds_keeps
    | with_reducible apply completeSlot_keeps
    | with_reducible apply putSlot_keeps
    | with_reducible refine Keeps.fst ?_ (by assumption)
    | split

theorem endStrideWait_keeps {sB : State} (s : State) (f : FrontId) (w : StrideWaiter) (st : Status) (left : Nat)  (hK : Keeps sB s) :
    Keeps sB (endStrideWait s f w st left) := by
  unfold endStrideWait
  repeat' first
    | with_reducible assumption
    | with_reducible apply putFront_keeps
    | with_reducible apply makePost_keeps
    | with_reducible apply readyAdds_keeps
    | with_reducible apply finishCommand_keeps
    | with_reducible refine Keeps.fst ?_ (by assumption)
    | split

theorem noteWait_keeps {sB : State} (s : State) (f : FrontId) (q : Nat)  (hK : Keeps sB s) :
    Keeps sB (noteWait s f q) := by
  unfold noteWait
  repeat' first
    | with_reducible apply putSlot_keeps
    | split
    | (apply_assumption; done)

theorem placeCommand_keeps {sB : State} (s : State) (f : FrontId) (ws : List Word) (n : Nat) (ph : Phase)  (hK : Keeps sB s) :
    Keeps sB (placeCommand s f ws n ph) := by
  unfold placeCommand
  repeat' first
    | with_reducible assumption
    | with_reducible apply bump_keeps
    | with_reducible apply startLatch_keeps
    | with_reducible apply noteWait_keeps
    | with_reducible apply putFront_keeps

theorem popFetched_keeps {sB : State} (s : State) (f : FrontId)  (hK : Keeps sB s) :
    Keeps sB (popFetched s f) := by
  unfold popFetched
  repeat' first
    | with_reducible apply putFront_keeps
    | (apply_assumption; done)

theorem noteSlotWait_keeps {sB : State} (s : State) (f : FrontId)  (hK : Keeps sB s) :
    Keeps sB (noteSlotWait s f) := by
  unfold noteSlotWait
  repeat' first
    | with_reducible apply putFront_keeps
    | split
    | dsimp only
    | (apply_assumption; done)

theorem dispatchWords_keeps {sB : State} (s : State) (f : FrontId) (ws : List Word)  (hK : Keeps sB s) :
    Keeps sB (dispatchWords s f ws) := by
  unfold dispatchWords
  repeat' first
    | with_reducible assumption
    | with_reducible apply raiseTag_keeps
    | with_reducible apply bump_keeps
    | with_reducible apply popFetched_keeps
    | with_reducible apply startLatch_keeps
    | with_reducible apply putFront_keeps
    | with_reducible apply endStrideWait_keeps
    | with_reducible apply noteSlotWait_keeps
    | with_reducible apply placeCommand_keeps
    | with_reducible apply tryComplete_keeps
    | split
    | dsimp only

theorem execDispatch_keeps {sB : State} (f : FrontId) (s : State)  (hK : Keeps sB s) :
    OutKeeps sB (execDispatch f s) := by
  unfold execDispatch
  repeat' first
    | with_reducible refine OutKeeps.next ?_
    | with_reducible apply finishCommand_keeps
    | with_reducible apply bump_keeps
    | with_reducible apply popFetched_keeps
    | with_reducible apply dispatchWords_keeps
    | split
    | (apply_assumption; done)

theorem evaluateHead_keeps {sB : State} (s : State) (f : FrontId) (q : Nat)  (hK : Keeps sB s) :
    Keeps sB (evaluateHead s f q) := by
  unfold evaluateHead
  repeat' first
    | with_reducible assumption
    | with_reducible apply putSlot_keeps
    | with_reducible apply bump_keeps
    | with_reducible apply applyAdds_keeps
    | with_reducible apply noteWait_keeps
    | with_reducible apply takeWait_keeps
    | with_reducible apply poisonedWait_keeps
    | split
    | dsimp only

theorem execWaitSatisfied_keeps {sB : State} (f : FrontId) (queue : Fin 12) (s : State)  (hK : Keeps sB s) :
    OutKeeps sB (execWaitSatisfied f queue s) := by
  unfold execWaitSatisfied
  repeat' first
    | with_reducible refine OutKeeps.next ?_
    | with_reducible apply evaluateHead_keeps
    | split
    | (apply_assumption; done)

theorem execBatonTake_keeps {sB : State} (c : CoreId) (queue : Fin 12) (s : State)  (hK : Keeps sB s) :
    OutKeeps sB (execBatonTake c queue s) := by
  unfold execBatonTake
  repeat' first
    | with_reducible refine OutKeeps.next ?_
    | with_reducible apply evaluateHead_keeps
    | split
    | (apply_assumption; done)

theorem strideCondition_keeps {sB : State} (s : State) (f : FrontId) (w : StrideWaiter)  (hK : Keeps sB s) :
    Keeps sB (strideCondition s f w) := by
  unfold strideCondition
  repeat' first
    | with_reducible apply rput64_keeps
    | with_reducible apply traceWait_keeps
    | with_reducible apply endStrideWait_keeps
    | with_reducible apply putFront_keeps
    | split
    | (apply_assumption; done)

theorem evaluateStrideWait_keeps {sB : State} (s : State) (f : FrontId)  (hK : Keeps sB s) :
    Keeps sB (evaluateStrideWait s f) := by
  unfold evaluateStrideWait
  repeat' first
    | with_reducible apply endStrideWait_keeps
    | with_reducible apply strideCondition_keeps
    | with_reducible apply putFront_keeps
    | with_reducible apply poisonedWait_keeps
    | with_reducible apply takeWait_keeps
    | split
    | (apply_assumption; done)

theorem execStrideWait_keeps {sB : State} (f : FrontId) (s : State)  (hK : Keeps sB s) :
    OutKeeps sB (execStrideWait f s) := by
  unfold execStrideWait
  repeat' first
    | with_reducible refine OutKeeps.next ?_
    | with_reducible apply evaluateStrideWait_keeps
    | (apply_assumption; done)

theorem sendSem_keeps {sB : State} (s : State) (f : FrontId) (x : Slot) (dev a : Nat)  (hK : Keeps sB s) :
    Keeps sB (sendSem s f x dev a) := by
  unfold sendSem
  repeat' first
    | with_reducible assumption
    | with_reducible apply setOut_keeps
    | with_reducible apply putSlot_keeps
    | with_reducible apply endSlot_keeps
    | (rw [mk_built]; with_reducible apply Keeps.built)
    | with_reducible refine Keeps.fst ?_ (by assumption)
    | with_reducible rfl
    | split
    | dsimp only
    | with_reducible intro _

theorem semRefused_keeps {sB : State} (s : State) (f : FrontId) (x : Slot)  (hK : Keeps sB s) :
    Keeps sB (semRefused s f x) := by
  unfold semRefused
  repeat' first
    | with_reducible apply endSlot_keeps
    | with_reducible apply raiseTag_keeps
    | (apply_assumption; done)

theorem sendSemHere_keeps {sB : State} (s : State) (f : FrontId) (x : Slot) (t : FrontId) (i : Nat) (baton : Bool)  (hK : Keeps sB s) :
    Keeps sB (sendSemHere s f x t i baton) := by
  unfold sendSemHere
  repeat' first
    | with_reducible assumption
    | with_reducible apply putSlot_keeps
    | with_reducible apply passFlits_keeps
    | (rw [mk_built]; with_reducible apply Keeps.built)
    | with_reducible rfl
    | split
    | dsimp only
    | with_reducible intro _

theorem startSemOp_keeps {sB : State} (s : State) (f : FrontId) (x : Slot)  (hK : Keeps sB s) :
    Keeps sB (startSemOp s f x) := by
  unfold startSemOp
  repeat' first
    | with_reducible assumption
    | with_reducible apply semRefused_keeps
    | with_reducible apply sendSem_keeps
    | with_reducible apply sendSemHere_keeps
    | split
    | dsimp only

theorem startCommand_keeps {sB : State} (s : State) (f : FrontId) (n : Nat) (ops : List Nat) (one : Bool) (body : State → Slot → State) (hbody : ∀ (x0 : State), ∀ (x1 : Slot), Keeps x0 (body x0 x1)) (hK : Keeps sB s) :
    Keeps sB (startCommand s f n ops one body) := by
  unfold startCommand
  repeat' first
    | with_reducible assumption
    | with_reducible refine Keeps.trans ?_ (hbody _ _)
    | with_reducible apply endSlot_keeps
    | with_reducible apply bump_keeps
    | with_reducible apply putSlot_keeps
    | split

theorem execSemOp_keeps {sB : State} (f : FrontId) (slot : Nat) (s : State)  (hK : Keeps sB s) :
    OutKeeps sB (execSemOp f slot s) := by
  unfold execSemOp
  repeat' first
    | with_reducible exact Keeps.refl _
    | with_reducible refine OutKeeps.next ?_
    | with_reducible apply startCommand_keeps
    | with_reducible apply startSemOp_keeps
    | with_reducible intro _
    | (apply_assumption; done)

theorem execSemOperation_keeps {sB : State} (f : FrontId) (index : Nat) (s : State)  (hK : Keeps sB s) :
    OutKeeps sB (execSemOperation f index s) := by
  unfold execSemOperation
  repeat' first
    | with_reducible refine OutKeeps.next ?_
    | with_reducible apply deliverSemMsg_keeps
    | split
    | (apply_assumption; done)

theorem execCompletion_keeps {sB : State} (f : FrontId) (slot : Nat) (s : State)  (hK : Keeps sB s) :
    OutKeeps sB (execCompletion f slot s) := by
  unfold execCompletion
  repeat' first
    | with_reducible refine OutKeeps.next ?_
    | with_reducible apply tryComplete_keeps
    | split
    | (apply_assumption; done)

theorem execBatonStall_keeps {sB : State} (c : CoreId) (slot : Nat) (s : State)  (hK : Keeps sB s) :
    OutKeeps sB (execBatonStall c slot s) := by
  unfold execBatonStall
  repeat' first
    | with_reducible refine OutKeeps.next ?_
    | with_reducible apply tryComplete_keeps
    | with_reducible apply deliverSemMsg_keeps
    | split
    | (apply_assumption; done)

theorem writeRingTail_keeps {sB : State} (s : State) (f : FrontId) (v : Word)  (hK : Keeps sB s) :
    Keeps sB (writeRingTail s f v) := by
  unfold writeRingTail
  repeat' first
    | with_reducible apply raise_keeps
    | with_reducible apply rput_keeps
    | split
    | (apply_assumption; done)

theorem writeSyncMode_keeps {sB : State} (s : State) (f : FrontId) (v : Bool)  (hK : Keeps sB s) :
    Keeps sB (writeSyncMode s f v) := by
  unfold writeSyncMode
  repeat' first
    | with_reducible apply rputBit_keeps
    | with_reducible apply raise_keeps
    | split
    | (apply_assumption; done)

theorem writeRingCtrl_keeps {sB : State} (s : State) (f : FrontId) (v : Word)  (hK : Keeps sB s) :
    Keeps sB (writeRingCtrl s f v) := by
  unfold writeRingCtrl
  repeat' first
    | with_reducible apply rputBit_keeps
    | with_reducible apply writeSyncMode_keeps
    | (apply_assumption; done)

theorem execRingTail_keeps {sB : State} (f : FrontId) (v : Word) (s : State)  (hK : Keeps sB s) :
    OutKeeps sB (execRingTail f v s) := by
  unfold execRingTail
  repeat' first
    | with_reducible refine OutKeeps.next ?_
    | with_reducible apply writeRingTail_keeps
    | (apply_assumption; done)

theorem execSyncMode_keeps {sB : State} (f : FrontId) (batons : Bool) (s : State)  (hK : Keeps sB s) :
    OutKeeps sB (execSyncMode f batons s) := by
  unfold execSyncMode
  repeat' first
    | with_reducible refine OutKeeps.next ?_
    | with_reducible apply writeSyncMode_keeps
    | (apply_assumption; done)

end Sys2Proof.Machine
end

