-- ==== Sys2Proof/Laws/KeepRun.lean ====
section
/-!
SUPPORT. What the operations of Machine/Run.lean keep: the queue and the invariant.
-/
namespace Sys2Proof.Machine

theorem startCopy_keeps (key : Nat) (x : Run (List Word)) (hx : RunKeeps x) : RunKeeps (startCopy key x : Run (List Word)) := by
  unfold startCopy
  repeat' first
    | with_reducible assumption
    | with_reducible exact Keeps.refl _
    | with_reducible exact RunKeeps.pure _
    | with_reducible exact RunKeeps.get
    | with_reducible refine RunKeeps.modify fun _ => ?_
    | with_reducible refine RunKeeps.bind ?_ fun _ => ?_
    | split

theorem waitSlot_keeps {sB : State} (s : State) (f : FrontId) (x : Slot) (r : RunState) (hr : Keeps sB r.st) (hK : Keeps sB s) :
    Keeps sB (waitSlot s f x r) := by
  unfold waitSlot
  repeat' first
    | with_reducible assumption
    | with_reducible apply putSlot_keeps
    | with_reducible apply settleWaits_keeps

theorem runSlot_keeps {sB : State} (s : State) (f : FrontId) (x : Slot) (body : Run Unit) (hbody : RunKeeps body) (hK : Keeps sB s) :
    Keeps sB (runSlot s f x body) := by
  unfold runSlot
  repeat' first
    | with_reducible assumption
    | with_reducible apply waitSlot_keeps
    | with_reducible apply endSlot_keeps
    | with_reducible refine Keeps.runFromEq (by assumption) ?_ ?_
    | split

theorem latchPage_keeps {sB : State} (s : State) (f : FrontId) (n : Nat) (b : Block)  (hK : Keeps sB s) :
    Keeps sB (latchPage s f n b) := by
  unfold latchPage
  repeat' first
    | with_reducible apply startLatch_keeps
    | with_reducible apply putSlot_keeps
    | split
    | (apply_assumption; done)

end Sys2Proof.Machine
end

