-- ==== Sys2Proof/Laws/KeepDesc.lean ====
section
/-!
SUPPORT. What the operations of Machine/Desc.lean keep: the queue and the invariant.
-/
namespace Sys2Proof.Machine

theorem readEntry_keeps (f : FrontId) (r : Req) (i : Nat)  : RunKeeps (readEntry f r i : Run (Option (List Word))) := by
  unfold readEntry
  repeat' first
    | with_reducible exact Keeps.refl _
    | with_reducible exact RunKeeps.pure _
    | with_reducible exact RunKeeps.look _
    | with_reducible apply readLocal_keeps
    | with_reducible refine RunKeeps.needData fun _ => ?_
    | with_reducible refine RunKeeps.bind ?_ fun _ => ?_
    | split

theorem refuseDesc_keeps {α : Type} (f : FrontId) (ws : List Word) (k : Nat)  : RunKeeps (refuseDesc f ws k : Run α) := by
  unfold refuseDesc
  repeat' first
    | with_reducible exact Keeps.refl _
    | with_reducible apply bump_keeps
    | with_reducible apply raiseTag_keeps
    | with_reducible refine RunKeeps.act fun _ => ?_
    | with_reducible refine RunKeeps.defectAt _ _ _ _ fun _ => ?_
    | with_reducible refine RunKeeps.bind ?_ fun _ => ?_
    | split

theorem scaleWords_keeps (f : FrontId) (ws : List Word) (d : Desc)  : RunKeeps (scaleWords f ws d : Run (List Word)) := by
  unfold scaleWords
  repeat' first
    | with_reducible exact RunKeeps.pure _
    | with_reducible exact RunKeeps.look _
    | with_reducible apply readEntry_keeps
    | with_reducible apply refuseDesc_keeps
    | with_reducible refine RunKeeps.bind ?_ fun _ => ?_
    | split
    | dsimp only

theorem descWords_keeps (f : FrontId) (ws : List Word) (i : Nat) (kinds : List Nat)  : RunKeeps (descWords f ws i kinds : Run (List Word)) := by
  unfold descWords
  repeat' first
    | with_reducible exact RunKeeps.pure _
    | with_reducible exact RunKeeps.look _
    | with_reducible apply readEntry_keeps
    | with_reducible apply refuseDesc_keeps
    | with_reducible apply scaleWords_keeps
    | with_reducible refine RunKeeps.bind ?_ fun _ => ?_
    | split
    | dsimp only

theorem loadDesc_keeps (f : FrontId) (ws : List Word) (i kind : Nat)  : RunKeeps (loadDesc f ws i kind : Run Tensor) := by
  unfold loadDesc
  repeat' first
    | with_reducible exact RunKeeps.pure _
    | with_reducible apply startCopy_keeps
    | with_reducible apply descWords_keeps
    | with_reducible refine RunKeeps.bind ?_ fun _ => ?_

theorem loadAny_keeps (f : FrontId) (ws : List Word) (i : Nat)  : RunKeeps (loadAny f ws i : Run Tensor) := by
  unfold loadAny
  repeat' first
    | with_reducible exact RunKeeps.pure _
    | with_reducible apply startCopy_keeps
    | with_reducible apply descWords_keeps
    | with_reducible refine RunKeeps.bind ?_ fun _ => ?_

theorem loadAnyOpt_keeps (f : FrontId) (ws : List Word) (i : Nat)  : RunKeeps (loadAnyOpt f ws i : Run (Option Tensor)) := by
  unfold loadAnyOpt
  repeat' first
    | with_reducible exact RunKeeps.pure _
    | with_reducible apply loadAny_keeps
    | with_reducible refine RunKeeps.bind ?_ fun _ => ?_
    | split

theorem loadOpt_keeps (f : FrontId) (ws : List Word) (i kind : Nat)  : RunKeeps (loadOpt f ws i kind : Run (Option Tensor)) := by
  unfold loadOpt
  repeat' first
    | with_reducible exact RunKeeps.pure _
    | with_reducible apply loadDesc_keeps
    | with_reducible refine RunKeeps.bind ?_ fun _ => ?_
    | split

theorem checkDest_keeps (f : FrontId) (ws : List Word) (t : Tensor)  : RunKeeps (checkDest f ws t : Run Unit) := by
  unfold checkDest
  repeat' first
    | with_reducible exact Keeps.refl _
    | with_reducible exact RunKeeps.pure _
    | with_reducible apply bump_keeps
    | with_reducible apply raiseTag_keeps
    | with_reducible refine RunKeeps.act fun _ => ?_
    | with_reducible refine RunKeeps.defectAt _ _ _ _ fun _ => ?_
    | with_reducible refine RunKeeps.bind ?_ fun _ => ?_
    | split

theorem checkDestOpt_keeps (f : FrontId) (ws : List Word) (y0 : Option Tensor)  : RunKeeps (checkDestOpt f ws y0 : Run Unit) := by
  unfold checkDestOpt
  repeat' first
    | with_reducible exact RunKeeps.pure _
    | with_reducible apply checkDest_keeps
    | split

theorem readCodes_keeps (r : Req) (d : Desc) (row j0 n : Nat)  : RunKeeps (readCodes r d row j0 n : Run (List Nat)) := by
  unfold readCodes
  repeat' first
    | with_reducible exact Keeps.refl _
    | with_reducible exact RunKeeps.pure _
    | with_reducible apply gRead_keeps
    | with_reducible refine RunKeeps.needData fun _ => ?_
    | with_reducible refine RunKeeps.bind ?_ fun _ => ?_
    | split

theorem writeCodes_keeps (r : Req) (d : Desc) (row j0 : Nat) (codes : List Nat)  : RunKeeps (writeCodes r d row j0 codes : Run Unit) := by
  unfold writeCodes
  repeat' first
    | with_reducible exact Keeps.refl _
    | with_reducible exact RunKeeps.pure _
    | with_reducible apply gRead_keeps
    | with_reducible apply gWrite_keeps
    | with_reducible refine RunKeeps.need fun _ => ?_
    | with_reducible refine RunKeeps.needData fun _ => ?_
    | with_reducible refine RunKeeps.bind ?_ fun _ => ?_
    | split
    | dsimp only

theorem readScales_keeps (r : Req) (t : Tensor) (row j0 n : Nat)  : RunKeeps (readScales r t row j0 n : Run (List Nat)) := by
  unfold readScales
  repeat' first
    | with_reducible exact RunKeeps.pure _
    | with_reducible apply readCodes_keeps
    | with_reducible refine RunKeeps.bind ?_ fun _ => ?_
    | split

theorem readElems_keeps (r : Req) (t : Tensor) (row j0 n : Nat)  : RunKeeps (readElems r t row j0 n : Run (List Elem)) := by
  unfold readElems
  repeat' first
    | with_reducible exact RunKeeps.pure _
    | with_reducible apply readCodes_keeps
    | with_reducible apply readScales_keeps
    | with_reducible refine RunKeeps.bind ?_ fun _ => ?_
    | split

end Sys2Proof.Machine
end

