-- ==== Sys2Proof/Laws/KeepConvert.lean ====
section
/-!
SUPPORT. What the operations of Machine/Convert.lean keep: the queue and the invariant.
-/
namespace Sys2Proof.Machine

theorem writeAt_keeps (r : Req) (d : Desc) (row : Nat) (l : List (Nat × Nat))  : RunKeeps (writeAt r d row l : Run Unit) := by
  unfold writeAt
  repeat' first
    | with_reducible apply writeCodes_keeps
    | with_reducible refine RunKeeps.forM _ fun _ => ?_

theorem writeOutRow_keeps (r : Req) (t : Tensor) (row : Nat) (o : OutRow)  : RunKeeps (writeOutRow r t row o : Run Unit) := by
  unfold writeOutRow
  repeat' first
    | with_reducible exact RunKeeps.pure _
    | with_reducible apply writeAt_keeps
    | with_reducible refine RunKeeps.bind ?_ fun _ => ?_
    | split

theorem addBeats_keeps {sB : State} (s : State) (key n : Nat)  (hK : Keeps sB s) :
    Keeps sB (addBeats s key n) := by
  unfold addBeats
  repeat' first
    | (rw [mk_built]; with_reducible apply Keeps.built)
    | with_reducible exact keysRise_tset _ _ _ _ (by assumption)
    | with_reducible intro _
    | (apply_assumption; done)

end Sys2Proof.Machine
end

