-- ==== Sys2Proof/Laws/KeepPods.lean ====
section
/-!
SUPPORT. What the operations of Machine/Pods.lean keep: the queue and the invariant.
-/
namespace Sys2Proof.Machine

theorem readDirEntry_keeps (r : Req) (e : Nat)  : RunKeeps (readDirEntry r e : Run DirEntry) := by
  unfold readDirEntry
  repeat' first
    | with_reducible exact Keeps.refl _
    | with_reducible exact RunKeeps.pure _
    | with_reducible apply readLocal_keeps
    | with_reducible refine RunKeeps.needData fun _ => ?_
    | with_reducible refine RunKeeps.bind ?_ fun _ => ?_

theorem loadGrid_keeps (f : FrontId) (d : Desc)  : RunKeeps (loadGrid f d : Run Grid) := by
  unfold loadGrid
  repeat' first
    | with_reducible exact RunKeeps.pure _
    | with_reducible exact RunKeeps.look _
    | with_reducible apply startCopy_keeps
    | with_reducible refine RunKeeps.bind ?_ fun _ => ?_

theorem readBlock_keeps (r : Req) (a n : Nat)  : RunKeeps (readBlock r a n : Run (List Byte)) := by
  unfold readBlock
  repeat' first
    | with_reducible exact Keeps.refl _
    | with_reducible exact RunKeeps.pure _
    | with_reducible apply gRead_keeps
    | with_reducible refine RunKeeps.needData fun _ => ?_
    | split

theorem readRunScales_keeps (r : Req) (g : Grid) (off n : Nat)  : RunKeeps (readRunScales r g off n : Run (List Byte)) := by
  unfold readRunScales
  repeat' first
    | with_reducible exact RunKeeps.pure _
    | with_reducible apply readBlock_keeps
    | split

theorem readBlockForm_keeps (r : Req) (g : Grid) (nnz vOff iOff sOff : Nat)  : RunKeeps (readBlockForm r g nnz vOff iOff sOff : Run TileRead) := by
  unfold readBlockForm
  repeat' first
    | with_reducible exact RunKeeps.pure _
    | with_reducible apply readBlock_keeps
    | with_reducible apply readRunScales_keeps
    | with_reducible refine RunKeeps.bind ?_ fun _ => ?_
    | split
    | dsimp only

theorem readPodForm_keeps (r : Req) (g : Grid) (f : PodForm) (x : DirEntry)  : RunKeeps (readPodForm r g f x : Run TileRead) := by
  unfold readPodForm
  repeat' first
    | with_reducible exact RunKeeps.pure _
    | with_reducible apply readBlock_keeps
    | with_reducible apply readRunScales_keeps
    | with_reducible refine RunKeeps.bind ?_ fun _ => ?_

theorem readForward_keeps (r : Req) (g : Grid) (x : DirEntry)  : RunKeeps (readForward r g x : Run TileRead) := by
  unfold readForward
  repeat' first
    | with_reducible exact RunKeeps.pure _
    | with_reducible apply readPodForm_keeps
    | with_reducible apply readBlockForm_keeps
    | split

theorem readTransposed_keeps (r : Req) (g : Grid) (x : DirEntry)  : RunKeeps (readTransposed r g x : Run TileRead) := by
  unfold readTransposed
  repeat' first
    | with_reducible exact RunKeeps.pure _
    | with_reducible apply readBlockForm_keeps
    | split

end Sys2Proof.Machine
end

