-- ==== Sys2Proof/Laws/KeepArray.lean ====
section
/-!
SUPPORT. What the operations of Machine/Array.lean keep: the queue and the invariant.
-/
namespace Sys2Proof.Machine

/-- The chunks of a tile keep. -/
def TileKeeps (t : OutTile) : Prop := ∀ w ∈ t.chunks, ∀ l, RunKeeps (w l)

/-- A stage keeps, and so do the tiles that it answers. -/
def StageKeeps (g : TileStage) : Prop := ∀ l, RunGives (g l) (fun p => ∀ t ∈ p.2, TileKeeps t)

theorem plainStage_keeps (ts : List OutTile) (h : ∀ t ∈ ts, TileKeeps t) : StageKeeps (plainStage ts) :=
  fun _ => RunGives.pure h

theorem reportNf_keeps (on nf : Bool)  : RunKeeps (reportNf on nf : Run Unit) := by
  unfold reportNf
  repeat' first
    | with_reducible exact Keeps.refl _
    | with_reducible exact RunKeeps.pure _
    | with_reducible apply setNonfinite_keeps
    | with_reducible refine RunKeeps.act fun _ => ?_
    | split

theorem noteFf_keeps (c : CoreId) (k0 : Nat) (rows : List (List Elem))  : RunKeeps (noteFf c k0 rows : Run Unit) := by
  unfold noteFf
  repeat' first
    | with_reducible exact Keeps.refl _
    | with_reducible apply bump_keeps
    | with_reducible refine RunKeeps.act fun _ => ?_

theorem noteProducts_keeps (x : DrainCtx) (beats : Nat) (as : List Acc)  : RunKeeps (noteProducts x beats as : Run Unit) := by
  unfold noteProducts
  repeat' first
    | with_reducible exact Keeps.refl _
    | with_reducible apply bump_keeps
    | with_reducible apply addBeats_keeps
    | with_reducible apply raiseTag_keeps
    | with_reducible refine RunKeeps.act fun _ => ?_
    | with_reducible refine RunKeeps.bind ?_ fun _ => ?_
    | with_reducible refine RunKeeps.forN fun _ => ?_

theorem noteChecks_keeps (x : DrainCtx) (lines : List Line) (as : List (List Acc)) (deltas : List (List Int)) (l : TileLoop)  : RunKeeps (noteChecks x lines as deltas l : Run TileLoop) := by
  unfold noteChecks
  repeat' first
    | with_reducible exact Keeps.refl _
    | with_reducible exact RunKeeps.pure _
    | with_reducible exact RunKeeps.look _
    | with_reducible exact RunKeeps.markDefect
    | with_reducible apply bump_keeps
    | with_reducible apply rput_keeps
    | with_reducible apply setCause_keeps
    | with_reducible refine RunKeeps.act fun _ => ?_
    | with_reducible refine RunKeeps.bind ?_ fun _ => ?_
    | split

theorem startStat_keeps (x : DrainCtx) (row : Nat)  : RunKeeps (startStat x row : Run RowStat) := by
  unfold startStat
  repeat' first
    | with_reducible exact Keeps.refl _
    | with_reducible exact RunKeeps.pure _
    | with_reducible apply gRead_keeps
    | with_reducible refine RunKeeps.needData fun _ => ?_
    | with_reducible refine RunKeeps.bind ?_ fun _ => ?_
    | split

theorem writeStat_keeps (x : DrainCtx) (t : Tensor) (row : Nat) (r : RowStat)  : RunKeeps (writeStat x t row r : Run Unit) := by
  unfold writeStat
  repeat' first
    | with_reducible exact Keeps.refl _
    | with_reducible exact RunKeeps.pure _
    | with_reducible apply gWrite_keeps
    | with_reducible apply reportNf_keeps
    | with_reducible refine RunKeeps.need fun _ => ?_
    | with_reducible refine RunKeeps.bind ?_ fun _ => ?_
    | split
    | dsimp only

theorem attempt_keeps {α : Type} (x : Run α) (hx : RunKeeps x) : RunKeeps (attempt x : Run (Except Status α)) := by
  unfold attempt
  repeat' first
    | with_reducible exact RunKeeps.pure _
    | with_reducible refine RunKeeps.bind ?_ fun _ => ?_
    | with_reducible refine RunKeeps.tryCatch ?_ fun _ => ?_
    | (apply_assumption; done)

theorem feedStats_keeps (x : DrainCtx) (l : TileLoop) (row : Nat) (ys : List (Int × Val))  : RunKeeps (feedStats x l row ys : Run TileLoop) := by
  unfold feedStats
  repeat' first
    | with_reducible exact RunKeeps.pure _
    | with_reducible apply startStat_keeps
    | with_reducible refine RunKeeps.bind ?_ fun _ => ?_
    | split

theorem oldTotals_keeps (x : DrainCtx) (first : Bool) (ln : Line)  : RunKeeps (oldTotals x first ln : Run (List Val)) := by
  unfold oldTotals
  repeat' first
    | with_reducible exact RunKeeps.pure _
    | with_reducible apply readCodes_keeps
    | with_reducible refine RunKeeps.bind ?_ fun _ => ?_
    | split

theorem writeTotals_keeps (x : DrainCtx) (ln : Line) (vs : List Val)  : RunKeeps (writeTotals x ln vs : Run Unit) := by
  unfold writeTotals
  repeat' first
    | with_reducible exact RunKeeps.pure _
    | with_reducible apply writeAt_keeps
    | split

theorem writeConverted_keeps (x : DrainCtx) (t : Tensor) (row : Nat) (es : List OutElem)  : RunKeeps (writeConverted x t row es : Run Unit) := by
  unfold writeConverted
  repeat' first
    | with_reducible exact Keeps.refl _
    | with_reducible exact RunKeeps.markDefect
    | with_reducible apply bump_keeps
    | with_reducible apply raiseTag_keeps
    | with_reducible apply writeOutRow_keeps
    | with_reducible apply reportNf_keeps
    | with_reducible refine RunKeeps.act fun _ => ?_
    | with_reducible refine RunKeeps.iteThen ?_ fun _ => ?_
    | with_reducible refine RunKeeps.bind ?_ fun _ => ?_
    | with_reducible refine RunKeeps.forN fun _ => ?_

theorem writeOuts_keeps (x : DrainCtx) (ln : Line) (vs : List Val) (l : TileLoop)  : RunKeeps (writeOuts x ln vs l : Run TileLoop) := by
  unfold writeOuts
  repeat' first
    | with_reducible exact RunKeeps.pure _
    | with_reducible exact RunKeeps.look _
    | with_reducible apply writeConverted_keeps
    | with_reducible refine RunKeeps.bind ?_ fun _ => ?_
    | split

theorem flushOuts_keeps (x : DrainCtx) (l : TileLoop)  : RunKeeps (flushOuts x l : Run TileLoop) := by
  unfold flushOuts
  repeat' first
    | with_reducible exact RunKeeps.pure _
    | with_reducible apply writeConverted_keeps
    | with_reducible refine RunKeeps.bind ?_ fun _ => ?_
    | with_reducible refine RunKeeps.forM _ fun _ => ?_
    | split

theorem runChunk_keeps (x : DrainCtx) (lines : List Line) (first last : Bool) (w : ChunkWork) (l : TileLoop) (hw : ∀ (x0 : TileLoop), RunKeeps (w x0)) : RunKeeps (runChunk x lines first last w l : Run TileLoop) := by
  unfold runChunk
  repeat' first
    | with_reducible exact Keeps.refl _
    | with_reducible exact RunKeeps.pure _
    | with_reducible exact RunKeeps.look _
    | with_reducible apply noteProducts_keeps
    | with_reducible apply oldTotals_keeps
    | with_reducible apply bump_keeps
    | with_reducible apply reportNf_keeps
    | with_reducible apply noteChecks_keeps
    | with_reducible apply writeTotals_keeps
    | with_reducible apply writeOuts_keeps
    | with_reducible apply feedStats_keeps
    | with_reducible refine RunKeeps.act fun _ => ?_
    | with_reducible refine RunKeeps.iteThen ?_ fun _ => ?_
    | with_reducible refine RunKeeps.bind ?_ fun _ => ?_
    | with_reducible refine RunKeeps.forM _ fun _ => ?_
    | with_reducible refine RunKeeps.mapM _ fun _ => ?_
    | with_reducible refine RunKeeps.foldlM _ _ fun _ _ => ?_
    | split
    | (apply_assumption; done)

theorem runChunks_keeps (x : DrainCtx) (lines : List Line) (first : Bool) (ws : List ChunkWork) (l : TileLoop)
    (hw : ∀ w ∈ ws, ∀ l, RunKeeps (w l)) : RunKeeps (runChunks x lines first ws l) := by
  induction ws generalizing first l with
  | nil => exact RunKeeps.pure _
  | cons w ws ih =>
    exact (runChunk_keeps _ _ _ _ _ _ (hw w (by simp))).bind fun l =>
      ih _ _ fun w h => hw w (by simp [h])

theorem runTiles_keeps (x : DrainCtx) (ts : List OutTile) (l : TileLoop) (ht : ∀ t ∈ ts, TileKeeps t) :
    RunKeeps (runTiles x ts l) := by
  induction ts generalizing l with
  | nil => exact RunKeeps.pure _
  | cons t ts ih =>
    refine (attempt_keeps _ (runChunks_keeps _ _ _ _ _ (ht t (by simp)))).bind fun e => ?_
    split
    · exact ih _ fun t h => ht t (by simp [h])
    · exact RunKeeps.pure _

theorem runStages_keeps (x : DrainCtx) (gs : List TileStage) (l : TileLoop) (hg : ∀ g ∈ gs, StageKeeps g) :
    RunKeeps (runStages x gs l) := by
  induction gs generalizing l with
  | nil => exact RunKeeps.pure _
  | cons g gs ih =>
    refine (hg g (by simp) l).attempt.keeps fun e he => ?_
    split
    · exact RunKeeps.pure _
    · refine (runTiles_keeps _ _ _ (he _ rfl)).bind fun p => ?_
      split
      · exact RunKeeps.pure _
      · refine RunKeeps.bind (attempt_keeps _ (flushOuts_keeps _ _)) fun e => ?_
        split
        · exact ih _ fun g h => hg g (by simp [h])
        · exact RunKeeps.pure _

theorem writeStats_keeps (x : DrainCtx) (l : TileLoop)  : RunKeeps (writeStats x l : Run Unit) := by
  unfold writeStats
  repeat' first
    | with_reducible exact RunKeeps.pure _
    | with_reducible apply writeStat_keeps
    | with_reducible refine RunKeeps.forM _ fun _ => ?_
    | split

theorem checksumRecord_keeps {sB : State} (s : State) (x : DrainCtx) (l : TileLoop)  (hK : Keeps sB s) :
    Keeps sB (checksumRecord s x l) := by
  unfold checksumRecord
  repeat' first
    | with_reducible apply sendRecord_keeps
    | split
    | (apply_assumption; done)

theorem driveTiles_keeps (x : DrainCtx) (gs : List TileStage) (l : TileLoop) (hg : ∀ g ∈ gs, StageKeeps g) :
    RunKeeps (driveTiles x gs l) := by
  refine (runStages_keeps _ _ _ hg).bind fun p => ?_
  have tail : ∀ l : TileLoop, ∀ st : Option Status,
      RunKeeps (do act (fun s => checksumRecord s x l); pure (l, st)) :=
    fun l st => (RunKeeps.act fun s => checksumRecord_keeps s x l (Keeps.refl s)).bind fun _ => RunKeeps.pure _
  obtain ⟨l, st⟩ := p
  cases st with
  | none => exact (writeStats_keeps _ _).bind fun _ => tail _ _
  | some e => exact (attempt_keeps _ (writeStats_keeps _ _)).bind fun _ => tail _ _

theorem endTiles_keeps (e : Option Status) : RunKeeps (endTiles e) := by
  cases e with
  | none => exact RunKeeps.pure _
  | some e => exact RunKeeps.throw _

theorem arrayDefect_keeps {α : Type} (c : CoreId) (ws : List Word) (cause : Nat)  : RunKeeps (arrayDefect c ws cause : Run α) := by
  unfold arrayDefect
  repeat' first
    | with_reducible exact Keeps.refl _
    | with_reducible apply raiseTag_keeps
    | with_reducible refine RunKeeps.defectAt _ _ _ _ fun _ => ?_

theorem plainStages_keep (ts : List OutTile) (h : ∀ t ∈ ts, TileKeeps t) : ∀ g ∈ [plainStage ts], StageKeeps g := by
  intro g hg
  rw [List.mem_singleton.1 hg]
  exact plainStage_keeps ts h

theorem productTiles_keeps (c : CoreId) (ws : List Word) (rq : Req) (lanes : List Nat) (a b : Tensor) :
    ∀ t ∈ productTiles c ws rq lanes a b, TileKeeps t := by
  intro t ht w hw l
  simp only [productTiles, List.mem_flatMap, List.mem_map] at ht
  obtain ⟨i, -, p, -, q, -, rfl⟩ := ht
  obtain ⟨k, -, rfl⟩ := List.mem_map.1 hw
  exact (RunKeeps.mapM _ fun _ => readElems_keeps _ _ _ _ _).bind fun _ =>
    (RunKeeps.mapM _ fun _ => readElems_keeps _ _ _ _ _).bind fun _ =>
      (noteFf_keeps _ _ _).bind fun _ => RunKeeps.pure _

theorem cascadeTiles_keeps (c : CoreId) (ws : List Word) (rq : Req) (a b : Tensor) :
    ∀ t ∈ cascadeTiles c ws rq a b, TileKeeps t := by
  intro t ht w hw l
  simp only [cascadeTiles, List.mem_flatMap, List.mem_map] at ht
  obtain ⟨i, -, p, -, rfl⟩ := ht
  obtain ⟨k, -, rfl⟩ := List.mem_map.1 hw
  exact (readElems_keeps _ _ _ _ _).bind fun _ => (readElems_keeps _ _ _ _ _).bind fun _ =>
    (noteFf_keeps _ _ _).bind fun _ => RunKeeps.pure _

theorem elementTiles_keeps (c : CoreId) (ws : List Word) (rq : Req) (lanes : List Nat) (a b : Tensor) :
    ∀ t ∈ elementTiles c ws rq lanes a b, TileKeeps t := by
  intro t ht w hw l
  simp only [elementTiles, List.mem_flatMap, List.mem_map] at ht
  obtain ⟨i, -, p, -, rfl⟩ := ht
  obtain ⟨k, -, rfl⟩ := List.mem_map.1 hw
  refine (RunKeeps.mapM _ fun _ => RunKeeps.mapM _ fun _ => ?_).bind fun _ => RunKeeps.pure _
  exact (readElems_keeps _ _ _ _ _).bind fun _ => (readElems_keeps _ _ _ _ _).bind fun _ =>
    (noteFf_keeps _ _ _).bind fun _ => RunKeeps.pure _

theorem runMatmul_keeps (c : CoreId) (x : Slot)  : RunKeeps (runMatmul c x : Run Unit) := by
  unfold runMatmul
  repeat' first
    | exact plainStages_keep _ (elementTiles_keeps _ _ _ _ _ _) _ (by assumption)
    | exact plainStages_keep _ (cascadeTiles_keeps _ _ _ _ _) _ (by assumption)
    | exact plainStages_keep _ (productTiles_keeps _ _ _ _ _ _) _ (by assumption)
    | with_reducible exact Keeps.refl _
    | with_reducible exact RunKeeps.stop _
    | with_reducible exact RunKeeps.look _
    | with_reducible apply latchPage_keeps
    | with_reducible apply loadDesc_keeps
    | with_reducible apply loadOpt_keeps
    | with_reducible apply checkDest_keeps
    | with_reducible apply checkDestOpt_keeps
    | with_reducible apply arrayDefect_keeps
    | with_reducible apply driveTiles_keeps
    | with_reducible apply endTiles_keeps
    | with_reducible refine RunKeeps.act fun _ => ?_
    | with_reducible refine RunKeeps.iteThen ?_ fun _ => ?_
    | with_reducible refine RunKeeps.bind ?_ fun _ => ?_
    | split
    | with_reducible intro _

theorem startMatmul_keeps {sB : State} (c : CoreId) (slot mode : Nat) (s : State)  (hK : Keeps sB s) :
    Keeps sB (startMatmul c slot mode s) := by
  unfold startMatmul
  repeat' first
    | with_reducible exact Keeps.refl _
    | with_reducible apply startCommand_keeps
    | with_reducible apply runSlot_keeps
    | with_reducible apply runMatmul_keeps
    | split
    | with_reducible intro _
    | (apply_assumption; done)

theorem execMatmul_keeps {sB : State} (c : CoreId) (slot : Nat) (s : State)  (hK : Keeps sB s) :
    OutKeeps sB (execMatmul c slot s) := by
  unfold execMatmul
  repeat' first
    | with_reducible refine OutKeeps.next ?_
    | with_reducible apply startMatmul_keeps
    | (apply_assumption; done)

theorem execMatmulCascade_keeps {sB : State} (c : CoreId) (slot : Nat) (s : State)  (hK : Keeps sB s) :
    OutKeeps sB (execMatmulCascade c slot s) := by
  unfold execMatmulCascade
  repeat' first
    | with_reducible refine OutKeeps.next ?_
    | with_reducible apply startMatmul_keeps
    | (apply_assumption; done)

theorem execMatmulElementWise_keeps {sB : State} (c : CoreId) (slot : Nat) (s : State)  (hK : Keeps sB s) :
    OutKeeps sB (execMatmulElementWise c slot s) := by
  unfold execMatmulElementWise
  repeat' first
    | with_reducible refine OutKeeps.next ?_
    | with_reducible apply startMatmul_keeps
    | (apply_assumption; done)

end Sys2Proof.Machine
end

