-- ==== Sys2Proof/Laws/KeepBar2.lean ====
section
/-!
SUPPORT. What the operations of Machine/Bar2.lean keep: the queue and the invariant.
-/
namespace Sys2Proof.Machine

theorem hostReadAnswer_keeps {sB : State} (s : State) (n : Nat) (st : Status) (data : List Byte)  (hK : Keeps sB s) :
    Keeps sB (hostReadAnswer s n st data) := by
  unfold hostReadAnswer
  repeat' first
    | with_reducible assumption
    | with_reducible apply emit_keeps
    | with_reducible apply bump_keeps
    | with_reducible apply useFresh_keeps
    | split

theorem hostWriteAnswer_keeps {sB : State} (s : State) (ga n : Nat) (st : Status)  (hK : Keeps sB s) :
    Keeps sB (hostWriteAnswer s ga n st) := by
  unfold hostWriteAnswer
  repeat' first
    | with_reducible assumption
    | with_reducible apply bump_keeps
    | with_reducible apply rput_keeps
    | with_reducible apply rput64_keeps
    | with_reducible apply raise_keeps
    | split

theorem hostAnswer_keeps {sB : State} (s : State) (ga n : Nat) (op : Nat) (st : Status) (data : List Byte)  (hK : Keeps sB s) :
    Keeps sB (hostAnswer s ga n op st data) := by
  unfold hostAnswer
  repeat' first
    | with_reducible assumption
    | with_reducible apply hostReadAnswer_keeps
    | with_reducible apply hostWriteAnswer_keeps
    | split

theorem hostSend_keeps {sB : State} (s : State) (ga n op : Nat) (data : List Byte) (use : RemoteUse)  (hK : Keeps sB s) :
    Keeps sB (hostSend s ga n op data use) := by
  unfold hostSend
  repeat' first
    | with_reducible assumption
    | with_reducible apply lapses_keeps
    | with_reducible apply hostAnswer_keeps
    | with_reducible apply timedOut_keeps
    | with_reducible apply setOut_keeps
    | with_reducible apply hold_keeps
    | (rw [mk_built]; with_reducible apply Keeps.built)
    | with_reducible refine Keeps.fst ?_ (by assumption)
    | with_reducible rfl
    | split
    | dsimp only
    | with_reducible intro _

theorem hostRead_keeps {sB : State} (s : State) (ga n : Nat)  (hK : Keeps sB s) :
    Keeps sB (hostRead s ga n) := by
  unfold hostRead
  repeat' first
    | with_reducible assumption
    | with_reducible apply hostReadAnswer_keeps
    | with_reducible apply raise_keeps
    | with_reducible apply readLocal_keeps
    | with_reducible apply holdReq_keeps
    | with_reducible apply hostSend_keeps
    | with_reducible refine Keeps.fst ?_ (by assumption)
    | split

theorem hostWrite_keeps {sB : State} (s : State) (ga : Nat) (data : List Byte)  (hK : Keeps sB s) :
    Keeps sB (hostWrite s ga data) := by
  unfold hostWrite
  repeat' first
    | with_reducible assumption
    | with_reducible apply hostWriteAnswer_keeps
    | with_reducible apply raise_keeps
    | with_reducible apply writeLocal_keeps
    | with_reducible apply holdReq_keeps
    | with_reducible apply hostSend_keeps
    | with_reducible refine Keeps.fst ?_ (by assumption)
    | split

theorem hostReads_keeps {sB : State} (s : State)  (hK : Keeps sB s) :
    Keeps sB (hostReads s) := by
  unfold hostReads
  repeat' first
    | with_reducible exact Keeps.refl _
    | with_reducible apply hostRead_keeps
    | (rw [mk_built]; with_reducible apply Keeps.built)
    | with_reducible refine Keeps.foldl _ (fun _ _ => ?_) ?_
    | split
    | with_reducible intro _
    | (apply_assumption; done)

end Sys2Proof.Machine
end

