-- ==== Sys2Proof/Laws/KeepCopy.lean ====
section
/-!
SUPPORT. What the operations of Machine/Copy.lean keep: the queue and the invariant.
-/
namespace Sys2Proof.Machine

theorem runCopy_keeps (c : CoreId) (x : Slot)  : RunKeeps (runCopy c x : Run Unit) := by
  unfold runCopy
  repeat' first
    | with_reducible exact Keeps.refl _
    | with_reducible exact RunKeeps.look _
    | with_reducible apply loadDesc_keeps
    | with_reducible apply checkDest_keeps
    | with_reducible apply latchPage_keeps
    | with_reducible apply writeCodes_keeps
    | with_reducible apply readCodes_keeps
    | with_reducible apply bump_keeps
    | with_reducible apply raiseTag_keeps
    | with_reducible refine RunKeeps.act fun _ => ?_
    | with_reducible refine RunKeeps.defectAt _ _ _ _ fun _ => ?_
    | with_reducible refine RunKeeps.bind ?_ fun _ => ?_
    | with_reducible refine RunKeeps.forM _ fun _ => ?_
    | split
    | dsimp only

theorem execCopy_keeps {sB : State} (c : CoreId) (slot : Nat) (s : State)  (hK : Keeps sB s) :
    OutKeeps sB (execCopy c slot s) := by
  unfold execCopy
  repeat' first
    | with_reducible exact Keeps.refl _
    | with_reducible refine OutKeeps.next ?_
    | with_reducible apply startCommand_keeps
    | with_reducible apply runSlot_keeps
    | with_reducible apply runCopy_keeps
    | with_reducible intro _
    | (apply_assumption; done)

theorem runFill_keeps (c : CoreId) (x : Slot)  : RunKeeps (runFill c x : Run Unit) := by
  unfold runFill
  repeat' first
    | with_reducible exact Keeps.refl _
    | with_reducible exact RunKeeps.look _
    | with_reducible apply loadDesc_keeps
    | with_reducible apply checkDest_keeps
    | with_reducible apply latchPage_keeps
    | with_reducible apply writeCodes_keeps
    | with_reducible apply bump_keeps
    | with_reducible apply raiseTag_keeps
    | with_reducible refine RunKeeps.act fun _ => ?_
    | with_reducible refine RunKeeps.defectAt _ _ _ _ fun _ => ?_
    | with_reducible refine RunKeeps.bind ?_ fun _ => ?_
    | with_reducible refine RunKeeps.forN fun _ => ?_
    | split

theorem execFill_keeps {sB : State} (c : CoreId) (slot : Nat) (s : State)  (hK : Keeps sB s) :
    OutKeeps sB (execFill c slot s) := by
  unfold execFill
  repeat' first
    | with_reducible exact Keeps.refl _
    | with_reducible refine OutKeeps.next ?_
    | with_reducible apply startCommand_keeps
    | with_reducible apply runSlot_keeps
    | with_reducible apply runFill_keeps
    | with_reducible intro _
    | (apply_assumption; done)

end Sys2Proof.Machine
end

