-- ==== Sys2Proof/Laws/KeepDma.lean ====
section
/-!
SUPPORT. What the operations of Machine/Dma.lean keep: the queue and the invariant.
-/
namespace Sys2Proof.Machine

theorem putDma_keeps {sB : State} (s : State) (c : CoreId) (ch : Fin 8) (v : DmaRun)  (hK : Keeps sB s) :
    Keeps sB (putDma s c ch v) := by
  unfold putDma
  repeat' first
    | (rw [mk_built]; with_reducible apply Keeps.built)
    | with_reducible exact keysRise_tset _ _ _ _ (by assumption)
    | with_reducible intro _
    | (apply_assumption; done)

theorem dmaState_keeps {sB : State} (s : State) (c : CoreId) (ch : Fin 8) (v : Nat)  (hK : Keeps sB s) :
    Keeps sB (dmaState s c ch v) := by
  unfold dmaState
  repeat' first
    | with_reducible apply rputField_keeps
    | (apply_assumption; done)

theorem dmaRead_keeps {sB : State} (c : CoreId) (ch : Fin 8) (r : Req) (y0 : List (Nat × Nat)) (y1 : State)  (hK : Keeps sB y1) :
    Keeps sB (dmaRead c ch r y0 y1).1 := by
  induction y0 generalizing y1 with
  | nil =>
  unfold dmaRead
  repeat' first
    | with_reducible assumption
  | cons a l ih =>
  unfold dmaRead
  repeat' first
    | with_reducible assumption
    | with_reducible apply ih
    | with_reducible apply gRead_keeps
    | with_reducible apply putDma_keeps
    | with_reducible apply bump_keeps
    | with_reducible apply settleWaits_keeps
    | with_reducible refine Keeps.fst ?_ (by assumption)
    | split


theorem dmaProgress_keeps {sB : State} (s : State) (b : Block) (n : Nat)  (hK : Keeps sB s) :
    Keeps sB (dmaProgress s b n) := by
  unfold dmaProgress
  repeat' first
    | with_reducible assumption
    | with_reducible apply rput64_keeps
    | with_reducible apply bump_keeps

theorem dmaSend_keeps {sB : State} (s : State) (r : Req) (c : CoreId) (ch : Fin 8) (ga left : Nat) (d : List Byte)  (hK : Keeps sB s) :
    Keeps sB (dmaSend s r c ch ga left d).1 := by
  unfold dmaSend
  repeat' first
    | with_reducible assumption
    | with_reducible apply setOut_keeps
    | with_reducible apply putDma_keeps
    | (rw [mk_built]; with_reducible apply Keeps.built)
    | with_reducible refine Keeps.fst ?_ (by assumption)
    | with_reducible rfl
    | split
    | with_reducible intro _

theorem dmaWrite_keeps {sB : State} (s : State) (r : Req) (c : CoreId) (ch : Fin 8) (ga : Nat) (d : List Byte)  (hK : Keeps sB s) :
    Keeps sB (dmaWrite s r c ch ga d).1 := by
  unfold dmaWrite
  repeat' first
    | with_reducible assumption
    | with_reducible apply dmaSend_keeps
    | with_reducible apply gWrite_keeps
    | with_reducible apply dmaProgress_keeps
    | with_reducible apply settleWaits_keeps
    | with_reducible refine Keeps.fst ?_ (by assumption)
    | split

theorem dmaPiece_keeps {sB : State} (s : State) (r : Req) (c : CoreId) (ch : Fin 8) (ws : List Word) (p : DmaPiece)  (hK : Keeps sB s) :
    Keeps sB (dmaPiece s r c ch ws p).1 := by
  unfold dmaPiece
  repeat' first
    | with_reducible assumption
    | with_reducible apply dmaRead_keeps
    | with_reducible apply dmaWrite_keeps
    | split
    | dsimp only

theorem dmaEnd_keeps {sB : State} (s : State) (c : CoreId) (ch : Fin 8) (n : Nat) (st : Status)  (hK : Keeps sB s) :
    Keeps sB (dmaEnd s c ch n st) := by
  unfold dmaEnd
  repeat' first
    | with_reducible apply endSlot_keeps
    | with_reducible apply dmaState_keeps
    | with_reducible apply putDma_keeps
    | (apply_assumption; done)

theorem dmaHalt_keeps {sB : State} (s : State) (c : CoreId) (ch : Fin 8) (x : Slot) (st : Status) (cause : Nat) (write : Bool) (ga : Nat)  (hK : Keeps sB s) :
    Keeps sB (dmaHalt s c ch x st cause write ga) := by
  unfold dmaHalt
  repeat' first
    | with_reducible apply rput_keeps
    | with_reducible apply rput64_keeps
    | with_reducible apply raiseTag_keeps
    | with_reducible apply bump_keeps
    | with_reducible apply dmaState_keeps
    | with_reducible apply dmaEnd_keeps
    | (apply_assumption; done)

theorem dmaSettle_keeps {sB : State} (s : State) (c : CoreId) (ch : Fin 8)  (hK : Keeps sB s) :
    Keeps sB (dmaSettle s c ch) := by
  unfold dmaSettle
  repeat' first
    | with_reducible assumption
    | with_reducible apply dmaEnd_keeps
    | with_reducible apply dmaHalt_keeps
    | split
    | dsimp only

theorem dmaStop_keeps {sB : State} (s : State) (c : CoreId) (ch : Fin 8) (e : DmaStop)  (hK : Keeps sB s) :
    Keeps sB (dmaStop s c ch e) := by
  unfold dmaStop
  repeat' first
    | with_reducible assumption
    | with_reducible apply dmaSettle_keeps
    | with_reducible apply putDma_keeps

theorem dmaFailed_keeps {sB : State} (s : State) (c : CoreId) (ch : Fin 8) (st : Status) (cause : Nat) (write : Bool) (ga : Nat)  (hK : Keeps sB s) :
    Keeps sB (dmaFailed s c ch st cause write ga) := by
  unfold dmaFailed
  repeat' first
    | with_reducible assumption
    | with_reducible apply dmaStop_keeps
    | with_reducible apply putDma_keeps
    | split
    | dsimp only

theorem dmaNext_keeps {sB : State} (s : State) (c : CoreId) (ch : Fin 8) (refused : Bool)  (hK : Keeps sB s) :
    Keeps sB (dmaNext s c ch refused) := by
  unfold dmaNext
  repeat' first
    | with_reducible assumption
    | with_reducible apply putDma_keeps

theorem dmaRunFrom_keeps {sB : State} (c : CoreId) (ch : Fin 8) (x : Slot) (r : Req) (y0 : List DmaPiece) (y1 : State)  (hK : Keeps sB y1) :
    Keeps sB (dmaRunFrom c ch x r y0 y1) := by
  induction y0 generalizing y1 with
  | nil =>
  unfold dmaRunFrom
  repeat' first
    | with_reducible assumption
    | with_reducible apply dmaStop_keeps
  | cons a l ih =>
  unfold dmaRunFrom
  repeat' first
    | with_reducible assumption
    | with_reducible apply ih
    | with_reducible apply dmaStop_keeps
    | with_reducible apply dmaPiece_keeps
    | with_reducible apply dmaNext_keeps
    | with_reducible apply putSlot_keeps
    | with_reducible apply dmaFailed_keeps
    | with_reducible refine Keeps.fst ?_ (by assumption)
    | split


theorem dmaGo_keeps {sB : State} (s : State) (c : CoreId) (ch : Fin 8) (x : Slot)  (hK : Keeps sB s) :
    Keeps sB (dmaGo s c ch x) := by
  unfold dmaGo
  repeat' first
    | with_reducible assumption
    | with_reducible apply dmaRunFrom_keeps
    | with_reducible apply putSlot_keeps
    | split
    | dsimp only

theorem dmaWritten_keeps {sB : State} (s : State) (c : CoreId) (ch : Fin 8) (xid : Nat) (st : Status)  (hK : Keeps sB s) :
    Keeps sB (dmaWritten s c ch xid st) := by
  unfold dmaWritten
  repeat' first
    | with_reducible assumption
    | with_reducible apply putDma_keeps
    | with_reducible apply dmaSettle_keeps
    | with_reducible apply dmaProgress_keeps
    | with_reducible apply dmaStop_keeps
    | split
    | dsimp only

theorem dmaLost_keeps {sB : State} (s : State) (c : CoreId) (ch : Fin 8) (xid cause : Nat)  (hK : Keeps sB s) :
    Keeps sB (dmaLost s c ch xid cause) := by
  unfold dmaLost
  repeat' first
    | with_reducible assumption
    | with_reducible apply raiseTag_keeps
    | with_reducible apply dmaStop_keeps
    | with_reducible apply putDma_keeps
    | split
    | dsimp only

theorem dmaStart_keeps {sB : State} (s : State) (c : CoreId) (x : Slot)  (hK : Keeps sB s) :
    Keeps sB (dmaStart s c x) := by
  unfold dmaStart
  repeat' first
    | with_reducible assumption
    | with_reducible apply endSlot_keeps
    | with_reducible apply bump_keeps
    | with_reducible apply rput_keeps
    | with_reducible apply rput64_keeps
    | with_reducible apply raiseTag_keeps
    | with_reducible apply dmaState_keeps
    | with_reducible apply latchPage_keeps
    | with_reducible apply putDma_keeps
    | with_reducible apply dmaGo_keeps
    | split
    | dsimp only

theorem execDma_keeps {sB : State} (c : CoreId) (slot : Nat) (s : State)  (hK : Keeps sB s) :
    OutKeeps sB (execDma c slot s) := by
  unfold execDma
  repeat' first
    | with_reducible assumption
    | with_reducible exact Keeps.refl _
    | with_reducible refine OutKeeps.next ?_
    | with_reducible apply startCommand_keeps
    | with_reducible apply dmaGo_keeps
    | with_reducible apply dmaStart_keeps
    | split
    | with_reducible intro _

theorem countRetry_keeps {sB : State} (s : State) (c : CoreId) (ch : Fin 8)  (hK : Keeps sB s) :
    Keeps sB (countRetry s c ch) := by
  unfold countRetry
  repeat' first
    | with_reducible assumption
    | with_reducible apply rput_keeps
    | with_reducible apply bump_keeps

theorem dmaResend_keeps {sB : State} (s : State) (c : CoreId) (ch : Fin 8) (x : Slot) (w : DmaWrite)  (hK : Keeps sB s) :
    Keeps sB (dmaResend s c ch x w) := by
  unfold dmaResend
  repeat' first
    | with_reducible assumption
    | with_reducible apply putDma_keeps
    | with_reducible apply dmaSend_keeps
    | with_reducible apply countRetry_keeps
    | with_reducible apply dmaSettle_keeps
    | with_reducible apply dmaStop_keeps
    | with_reducible refine Keeps.fst ?_ (by assumption)
    | split
    | dsimp only

theorem dmaReissue_keeps {sB : State} (s : State) (c : CoreId) (ch : Fin 8)  (hK : Keeps sB s) :
    Keeps sB (dmaReissue s c ch) := by
  unfold dmaReissue
  repeat' first
    | with_reducible assumption
    | with_reducible apply dmaGo_keeps
    | with_reducible apply putDma_keeps
    | with_reducible apply countRetry_keeps
    | with_reducible apply dmaResend_keeps
    | split
    | dsimp only

theorem execDmaRetry_keeps {sB : State} (c : CoreId) (ch : Fin 8) (s : State)  (hK : Keeps sB s) :
    OutKeeps sB (execDmaRetry c ch s) := by
  unfold execDmaRetry
  repeat' first
    | with_reducible assumption
    | with_reducible refine OutKeeps.next ?_
    | with_reducible apply dmaReissue_keeps

theorem dmaResume_keeps {sB : State} (s : State) (c : CoreId) (ch : Fin 8)  (hK : Keeps sB s) :
    Keeps sB (dmaResume s c ch) := by
  unfold dmaResume
  repeat' first
    | with_reducible apply dmaState_keeps
    | split
    | (apply_assumption; done)

theorem execResume_keeps {sB : State} (c : CoreId) (ch : Fin 8) (s : State)  (hK : Keeps sB s) :
    OutKeeps sB (execResume c ch s) := by
  unfold execResume
  repeat' first
    | with_reducible refine OutKeeps.next ?_
    | with_reducible apply dmaResume_keeps
    | (apply_assumption; done)

end Sys2Proof.Machine
end

