-- ==== Sys2Proof/Laws/KeepDescTable.lean ====
section
/-!
SUPPORT. What the operations of Machine/DescTable.lean keep: the queue and the invariant.
-/
namespace Sys2Proof.Machine

/-- Dropping bytes keeps the canonical form of the memory. -/
theorem memFilter_keeps {sB : State} (s : State) (p : Host.Cell → Bool) (hK : Keeps sB s) :
    Keeps sB { s with mem := s.mem.filter p } :=
  ⟨hK.pending, hK.boot, hK.image, hK.mono, fun i =>
    let j := hK.inv i
    { j with mem := twf_filter (unlistedByte s) p s.mem j.mem }⟩

theorem zeroRange_keeps {sB : State} (s : State) (k n : Nat) (hK : Keeps sB s) : Keeps sB (zeroRange s k n) := by
  have h1 : Keeps sB (if (s.boot.phase = .ready && k + n ≤ slowBase) = true then
      { s with mem := s.mem.filter (fun x => outside k n x.1) } else putBytes s k (List.replicate n 0)) := by
    split
    · exact memFilter_keeps _ _ hK
    · exact putBytes_keeps _ _ _ hK
  unfold zeroRange
  exact Keeps.leaf h1

theorem startFill_keeps {sB : State} (s : State) (f : FrontId)  (hK : Keeps sB s) :
    Keeps sB (startFill s f) := by
  unfold startFill
  repeat' first
    | with_reducible apply rputBit_keeps
    | (apply_assumption; done)

theorem finishFill_keeps {sB : State} (s : State) (f : FrontId)  (hK : Keeps sB s) :
    Keeps sB (finishFill s f) := by
  unfold finishFill
  repeat' first
    | with_reducible assumption
    | with_reducible apply zeroRange_keeps
    | with_reducible apply injectParity_keeps
    | with_reducible apply rputBit_keeps
    | split

theorem execTableFill_keeps {sB : State} (o : TableOwner) (s : State)  (hK : Keeps sB s) :
    OutKeeps sB (execTableFill o s) := by
  unfold execTableFill
  repeat' first
    | with_reducible refine OutKeeps.next ?_
    | with_reducible apply finishFill_keeps
    | split
    | (apply_assumption; done)

theorem writeAmTable_keeps {sB : State} (s : State) (c : CoreId) (off log2 : Nat)  (hK : Keeps sB s) :
    Keeps sB (writeAmTable s c off log2) := by
  unfold writeAmTable
  repeat' first
    | with_reducible apply raise_keeps
    | with_reducible apply rputField_keeps
    | with_reducible apply startFill_keeps
    | split
    | (apply_assumption; done)

theorem writeTableOffset_keeps {sB : State} (s : State) (c : CoreId) (v : Word)  (hK : Keeps sB s) :
    Keeps sB (writeTableOffset s c v) := by
  unfold writeTableOffset
  repeat' first
    | with_reducible apply writeAmTable_keeps
    | (apply_assumption; done)

theorem writeTableLog2_keeps {sB : State} (s : State) (c : CoreId) (v : Word)  (hK : Keeps sB s) :
    Keeps sB (writeTableLog2 s c v) := by
  unfold writeTableLog2
  repeat' first
    | with_reducible apply writeAmTable_keeps
    | (apply_assumption; done)

theorem execDescTableOffset_keeps {sB : State} (c : CoreId) (v : Word) (s : State)  (hK : Keeps sB s) :
    OutKeeps sB (execDescTableOffset c v s) := by
  unfold execDescTableOffset
  repeat' first
    | with_reducible refine OutKeeps.next ?_
    | with_reducible apply writeTableOffset_keeps
    | (apply_assumption; done)

theorem execDescTableLog2_keeps {sB : State} (c : CoreId) (v : Word) (s : State)  (hK : Keeps sB s) :
    OutKeeps sB (execDescTableLog2 c v s) := by
  unfold execDescTableLog2
  repeat' first
    | with_reducible refine OutKeeps.next ?_
    | with_reducible apply writeTableLog2_keeps
    | (apply_assumption; done)

theorem commitTable_keeps {sB : State} (s : State) (f : FrontId) (v : Word)  (hK : Keeps sB s) :
    Keeps sB (commitTable s f v) := by
  unfold commitTable
  repeat' first
    | with_reducible apply raise_keeps
    | with_reducible apply startFill_keeps
    | with_reducible apply rputField_keeps
    | (rw [mk_built]; with_reducible apply Keeps.built)
    | with_reducible exact keysRise_tset _ _ _ _ (by assumption)
    | split
    | dsimp only
    | with_reducible intro _
    | (apply_assumption; done)

theorem execTableCommit_keeps {sB : State} (o : TableOwner) (v : Word) (s : State)  (hK : Keeps sB s) :
    OutKeeps sB (execTableCommit o v s) := by
  unfold execTableCommit
  repeat' first
    | with_reducible refine OutKeeps.next ?_
    | with_reducible apply commitTable_keeps
    | (apply_assumption; done)

theorem armAlloc_keeps {sB : State} (s : State) (f : FrontId) (e : Nat)  (hK : Keeps sB s) :
    Keeps sB (armAlloc s f e) := by
  unfold armAlloc
  repeat' first
    | with_reducible apply rputBit_keeps
    | with_reducible apply raise_keeps
    | split
    | (apply_assumption; done)

theorem execArm_keeps {sB : State} (o : TableOwner) (entry : Fin 128) (s : State)  (hK : Keeps sB s) :
    OutKeeps sB (execArm o entry s) := by
  unfold execArm
  repeat' first
    | with_reducible refine OutKeeps.next ?_
    | with_reducible apply armAlloc_keeps
    | (apply_assumption; done)

theorem writeAlloc_keeps {sB : State} (s : State) (f : FrontId) (e off : Nat) (v : Word)  (hK : Keeps sB s) :
    Keeps sB (writeAlloc s f e off v) := by
  unfold writeAlloc
  repeat' first
    | with_reducible apply rwrite_keeps
    | with_reducible apply rputField_keeps
    | with_reducible apply rputBit_keeps
    | (apply_assumption; done)

theorem execAllocBase_keeps {sB : State} (o : TableOwner) (entry : Fin 128) (high : Bool) (v : Word) (s : State)  (hK : Keeps sB s) :
    OutKeeps sB (execAllocBase o entry high v s) := by
  unfold execAllocBase
  repeat' first
    | with_reducible refine OutKeeps.next ?_
    | with_reducible apply writeAlloc_keeps
    | (apply_assumption; done)

theorem execAllocSize_keeps {sB : State} (o : TableOwner) (entry : Fin 128) (v : Word) (s : State)  (hK : Keeps sB s) :
    OutKeeps sB (execAllocSize o entry v s) := by
  unfold execAllocSize
  repeat' first
    | with_reducible refine OutKeeps.next ?_
    | with_reducible apply writeAlloc_keeps
    | (apply_assumption; done)

theorem tableEntry_keeps {sB : State} (s : State) (f : FrontId) (i : Nat)  (hK : Keeps sB s) :
    Keeps sB (tableEntry s f i).1 := by
  unfold tableEntry
  repeat' first
    | with_reducible assumption
    | with_reducible apply readLocal_keeps
    | with_reducible refine Keeps.fst ?_ (by assumption)
    | split
    | dsimp only

theorem readMembers_keeps {sB : State} (s : State) (f : FrontId) (y0 : List Nat)  (hK : Keeps sB s) :
    Keeps sB (readMembers s f y0).1 := by
  induction y0 generalizing s with
  | nil =>
  unfold readMembers
  repeat' first
    | with_reducible assumption
  | cons a l ih =>
  unfold readMembers
  repeat' first
    | with_reducible assumption
    | with_reducible apply ih
    | with_reducible apply tableEntry_keeps
    | with_reducible refine Keeps.fst ?_ (by assumption)
    | split


theorem createFailed_keeps {sB : State} (s : State) (f : FrontId) (i code : Nat)  (hK : Keeps sB s) :
    Keeps sB (createFailed s f i code) := by
  unfold createFailed
  repeat' first
    | with_reducible apply rputField_keeps
    | with_reducible apply bump_keeps
    | with_reducible apply raise_keeps
    | split
    | (apply_assumption; done)

theorem createDone_keeps {sB : State} (s : State) (f : FrontId) (i : Nat)  (hK : Keeps sB s) :
    Keeps sB (createDone s f i) := by
  unfold createDone
  repeat' first
    | with_reducible apply rputField_keeps
    | (apply_assumption; done)

theorem writeEntry_keeps {sB : State} (s : State) (f : FrontId) (i : Nat) (w : List Word)  (hK : Keeps sB s) :
    Keeps sB (writeEntry s f i w).1 := by
  unfold writeEntry
  repeat' first
    | with_reducible assumption
    | with_reducible apply writeLocal_keeps
    | with_reducible apply createDone_keeps
    | with_reducible apply createFailed_keeps
    | with_reducible refine Keeps.fst ?_ (by assumption)
    | split

theorem createOver_keeps {sB : State} (s : State) (f : FrontId) (l : Lookup) (i : Nat) (w : List Word)
    (x : State × Status × List Word) (hK : Keeps sB x.1) : Keeps sB (createOver s f l i w x).1 := by
  obtain ⟨t, st, old⟩ := x
  unfold createOver
  split
  · rename_i e
    cases e
    have h := writeEntry_keeps t f i (storedWords s f l w (((descOf old).seq + 1) % 256)) hK
    split
    · rename_i e
      have h := Keeps.fst h e
      split
      · exact bump_keeps _ _ _ _ h
      · exact h
    · exact h
  · rename_i e
    cases e
    exact hK
  · rename_i e
    cases e
    exact createFailed_keeps _ _ _ _ hK

theorem createAt_keeps {sB : State} (s : State) (f : FrontId) (i : Nat) (w : List Word)  (hK : Keeps sB s) :
    Keeps sB (createAt s f i w).1 := by
  unfold createAt
  repeat' first
    | with_reducible assumption
    | with_reducible apply readMembers_keeps
    | with_reducible apply createFailed_keeps
    | with_reducible apply createOver_keeps
    | with_reducible apply tableEntry_keeps
    | with_reducible refine Keeps.fst ?_ (by assumption)
    | split
    | dsimp only

theorem createOp_keeps {sB : State} (s : State) (f : FrontId)  (hK : Keeps sB s) :
    Keeps sB (createOp s f).1 := by
  unfold createOp
  repeat' first
    | with_reducible assumption
    | with_reducible apply createAt_keeps

theorem deleteOp_keeps {sB : State} (s : State) (f : FrontId)  (hK : Keeps sB s) :
    Keeps sB (deleteOp s f).1 := by
  unfold deleteOp
  repeat' first
    | with_reducible assumption
    | with_reducible apply createFailed_keeps
    | with_reducible apply tableEntry_keeps
    | with_reducible apply writeEntry_keeps
    | with_reducible refine Keeps.fst ?_ (by assumption)
    | split
    | dsimp only

theorem batchFrom_keeps {sB : State} (s : State) (f : FrontId) (src first : Nat) (y0 : Nat) (y1 : Nat)  (hK : Keeps sB s) :
    Keeps sB (batchFrom s f src first y0 y1).1 := by
  induction y0 generalizing y1 s with
  | zero =>
  unfold batchFrom
  repeat' first
    | with_reducible assumption
  | succ n ih =>
  unfold batchFrom
  repeat' first
    | with_reducible assumption
    | with_reducible apply ih
    | with_reducible apply readLocal_keeps
    | with_reducible apply createAt_keeps
    | with_reducible apply rputField_keeps
    | with_reducible apply createFailed_keeps
    | with_reducible refine Keeps.fst ?_ (by assumption)
    | split


theorem batchOp_keeps {sB : State} (s : State) (f : FrontId)  (hK : Keeps sB s) :
    Keeps sB (batchOp s f).1 := by
  unfold batchOp
  repeat' first
    | with_reducible assumption
    | with_reducible apply rputField_keeps
    | with_reducible apply createFailed_keeps
    | with_reducible apply batchFrom_keeps
    | split
    | dsimp only

theorem setCreateOp_keeps {sB : State} (s : State) (f : FrontId) (op : Nat)  (hK : Keeps sB s) :
    Keeps sB (setCreateOp s f op) := by
  unfold setCreateOp
  repeat' first
    | with_reducible apply rputField_keeps
    | (apply_assumption; done)

theorem startCreate_keeps {sB : State} (s : State) (f : FrontId) (op : Nat)  (hK : Keeps sB s) :
    Keeps sB (startCreate s f op) := by
  unfold startCreate
  repeat' first
    | with_reducible assumption
    | with_reducible apply rputBit_keeps
    | with_reducible apply setCreateOp_keeps
    | split

theorem runCreate_keeps {sB : State} (s : State) (f : FrontId) (op : Nat) (x : State → State × Status)
    (hx : ∀ s, Keeps s (x s).1) (hK : Keeps sB s) : Keeps sB (runCreate s f op x) := by
  unfold runCreate
  have h := startCreate_keeps s f op hK
  dsimp only
  split
  · exact h
  · split
    · exact settleWaits_keeps _ _ h
    · rename_i e
      exact rputBit_keeps _ _ _ _ _ (Keeps.fst (h.trans (hx _)) e)

theorem execDescCreate_keeps {sB : State} (o : TableOwner) (s : State)  (hK : Keeps sB s) :
    OutKeeps sB (execDescCreate o s) := by
  unfold execDescCreate
  repeat' first
    | with_reducible assumption
    | with_reducible exact Keeps.refl _
    | with_reducible refine OutKeeps.next ?_
    | with_reducible apply runCreate_keeps
    | with_reducible apply createOp_keeps
    | with_reducible intro _

theorem execDescDelete_keeps {sB : State} (o : TableOwner) (s : State)  (hK : Keeps sB s) :
    OutKeeps sB (execDescDelete o s) := by
  unfold execDescDelete
  repeat' first
    | with_reducible assumption
    | with_reducible exact Keeps.refl _
    | with_reducible refine OutKeeps.next ?_
    | with_reducible apply runCreate_keeps
    | with_reducible apply deleteOp_keeps
    | with_reducible intro _

theorem execDescBatch_keeps {sB : State} (o : TableOwner) (s : State)  (hK : Keeps sB s) :
    OutKeeps sB (execDescBatch o s) := by
  unfold execDescBatch
  repeat' first
    | with_reducible assumption
    | with_reducible exact Keeps.refl _
    | with_reducible refine OutKeeps.next ?_
    | with_reducible apply runCreate_keeps
    | with_reducible apply batchOp_keeps
    | with_reducible intro _

end Sys2Proof.Machine
end

