-- ==== Sys2Proof/Laws/KeepPublish.lean ====
section
/-!
SUPPORT. What the operations of Machine/Publish.lean keep: the queue and the invariant.
-/
namespace Sys2Proof.Machine

theorem putPubs_keeps {sB : State} (s : State) (h : HubId) (l : List PubList)  (hK : Keeps sB s) :
    Keeps sB (putPubs s h l) := by
  unfold putPubs
  repeat' first
    | (rw [mk_built]; with_reducible apply Keeps.built)
    | with_reducible exact keysRise_tset _ _ _ _ (by assumption)
    | with_reducible intro _
    | (apply_assumption; done)

theorem modPub_keeps {sB : State} (s : State) (h : HubId) (id : Nat) (f : PubList → PubList)  (hK : Keeps sB s) :
    Keeps sB (modPub s h id f) := by
  unfold modPub
  repeat' first
    | with_reducible apply putPubs_keeps
    | (apply_assumption; done)

theorem armingDone_keeps {sB : State} (s : State) (h : HubId) (p : PubList)  (hK : Keeps sB s) :
    Keeps sB (armingDone s h p) := by
  unfold armingDone
  repeat' first
    | with_reducible assumption
    | with_reducible apply endSlot_keeps
    | with_reducible apply raiseTag_keeps
    | with_reducible apply rputBit_keeps
    | with_reducible apply rput_keeps
    | split

theorem armList_keeps {sB : State} (s : State) (h : HubId) (slot : Option Nat) (st : Status) (base count : Nat) (range : Nat × Nat) (target : Nat)  (hK : Keeps sB s) :
    Keeps sB (armList s h slot st base count range target).1 := by
  unfold armList
  repeat' first
    | with_reducible assumption
    | with_reducible apply putPubs_keeps
    | (rw [mk_built]; with_reducible apply Keeps.built)
    | with_reducible rfl
    | split
    | dsimp only
    | with_reducible intro _

theorem readList_keeps {sB : State} (s : State) (r : Req) (base : Nat) (y0 : Nat) (y1 : Nat)  (hK : Keeps sB s) :
    Keeps sB (readList s r base y0 y1).1 := by
  induction y0 generalizing y1 s with
  | zero =>
  unfold readList
  repeat' first
    | with_reducible assumption
  | succ n ih =>
  unfold readList
  repeat' first
    | with_reducible assumption
    | with_reducible apply ih
    | with_reducible apply gRead_keeps
    | with_reducible refine Keeps.fst ?_ (by assumption)
    | split


theorem armManual_keeps {sB : State} (s : State) (h : HubId) (base n target : Nat) (l : List StagedRec)  (hK : Keeps sB s) :
    Keeps sB (armManual s h base n target l) := by
  unfold armManual
  repeat' first
    | with_reducible assumption
    | with_reducible apply armList_keeps
    | with_reducible apply rputBit_keeps
    | with_reducible apply rput_keeps
    | with_reducible apply raise_keeps
    | with_reducible refine Keeps.fst ?_ (by assumption)
    | split
    | dsimp only

theorem manualArm_keeps {sB : State} (s : State) (h : HubId)  (hK : Keeps sB s) :
    Keeps sB (manualArm s h) := by
  unfold manualArm
  repeat' first
    | with_reducible assumption
    | with_reducible apply armManual_keeps
    | with_reducible apply readList_keeps
    | with_reducible apply settleWaits_keeps
    | with_reducible apply useFresh_keeps
    | with_reducible refine Keeps.fst ?_ (by assumption)
    | split
    | dsimp only

theorem execPubArmGo_keeps {sB : State} (h : HubId) (s : State)  (hK : Keeps sB s) :
    OutKeeps sB (execPubArmGo h s) := by
  unfold execPubArmGo
  repeat' first
    | with_reducible refine OutKeeps.next ?_
    | with_reducible apply manualArm_keeps
    | (apply_assumption; done)

theorem reportActive_keeps {sB : State} (s : State) (l : Lock)  (hK : Keeps sB s) :
    Keeps sB (reportActive s l) := by
  unfold reportActive
  repeat' first
    | with_reducible assumption
    | with_reducible apply reportOldDone_keeps
    | split

theorem lockReply_keeps {sB : State} (s : State) (h : HubId) (r : LockHolder) (id : Nat) (late : Bool)  (hK : Keeps sB s) :
    Keeps sB (lockReply s h r id late) := by
  unfold lockReply
  repeat' first
    | with_reducible apply modPub_keeps
    | with_reducible apply stepSkip_keeps
    | with_reducible apply armingDone_keeps
    | split
    | dsimp only
    | (apply_assumption; done)

theorem execPendingLock_keeps {sB : State} (r : LockHolder) (h : HubId) (s : State)  (hK : Keeps sB s) :
    OutKeeps sB (execPendingLock r h s) := by
  unfold execPendingLock
  repeat' first
    | with_reducible assumption
    | with_reducible refine OutKeeps.next ?_
    | with_reducible apply reportActive_keeps
    | with_reducible apply lockReply_keeps
    | (rw [mk_built]; with_reducible apply Keeps.built)
    | with_reducible rfl
    | split
    | with_reducible intro _

theorem firePubs_keeps {sB : State} (s : State) (h : HubId)  (hK : Keeps sB s) :
    Keeps sB (firePubs s h) := by
  unfold firePubs
  repeat' first
    | with_reducible apply putPubs_keeps
    | (apply_assumption; done)

theorem execLockActivate_keeps {sB : State} (r : LockHolder) (s : State)  (hK : Keeps sB s) :
    OutKeeps sB (execLockActivate r s) := by
  unfold execLockActivate
  repeat' first
    | with_reducible assumption
    | with_reducible exact Keeps.refl _
    | with_reducible refine OutKeeps.next ?_
    | with_reducible apply reportActive_keeps
    | with_reducible apply firePubs_keeps
    | (rw [mk_built]; with_reducible apply Keeps.built)
    | with_reducible refine Keeps.foldl _ (fun _ _ => ?_) ?_
    | with_reducible rfl
    | split
    | with_reducible intro _

theorem execOldDone_keeps {sB : State} (cd : Fin 16) (h : HubId) (s : State)  (hK : Keeps sB s) :
    OutKeeps sB (execOldDone cd h s) := by
  unfold execOldDone
  repeat' first
    | with_reducible refine OutKeeps.next ?_
    | with_reducible apply modPub_keeps
    | (rw [mk_built]; with_reducible apply Keeps.built)
    | split
    | with_reducible intro _
    | (apply_assumption; done)

theorem publishRecord_keeps {sB : State} (s : State) (h : HubId) (x : PubDone) (rec : StagedRec)  (hK : Keeps sB s) :
    Keeps sB (publishRecord s h x rec).1 := by
  unfold publishRecord
  repeat' first
    | with_reducible assumption
    | with_reducible apply readLocal_keeps
    | with_reducible apply rput_keeps
    | with_reducible apply stepSkip_keeps
    | with_reducible apply raise_keeps
    | with_reducible apply bump_keeps
    | with_reducible apply writeLocal_keeps
    | with_reducible refine Keeps.fst ?_ (by assumption)
    | split
    | dsimp only

theorem publishFrom_keeps {sB : State} (s : State) (h : HubId) (base : Nat) (y0 : Nat) (y1 : Nat) (y2 : PubDone)  (hK : Keeps sB s) :
    Keeps sB (publishFrom s h base y0 y1 y2).1 := by
  induction y0 generalizing y1 y2 s with
  | zero =>
  unfold publishFrom
  repeat' first
    | with_reducible assumption
  | succ n ih =>
  unfold publishFrom
  repeat' first
    | with_reducible assumption
    | with_reducible apply ih
    | with_reducible apply gRead_keeps
    | with_reducible apply publishRecord_keeps
    | with_reducible refine Keeps.fst ?_ (by assumption)
    | split


theorem sendUnlock_keeps {sB : State} (s : State) (h : HubId) (id : Nat)  (hK : Keeps sB s) :
    Keeps sB (sendUnlock s h id) := by
  unfold sendUnlock
  repeat' first
    | (rw [mk_built]; with_reducible apply Keeps.built)
    | with_reducible intro _
    | (apply_assumption; done)

theorem publishEnd_keeps {sB : State} (s : State) (h : HubId) (p : PubList) (x : PubDone)  (hK : Keeps sB s) :
    Keeps sB (publishEnd s h p x) := by
  unfold publishEnd
  repeat' first
    | with_reducible assumption
    | with_reducible apply rput_keeps
    | with_reducible apply armingDone_keeps
    | with_reducible apply stepSkip_keeps
    | with_reducible apply sendUnlock_keeps
    | with_reducible apply putPubs_keeps
    | split

theorem runPublish_keeps {sB : State} (s0 : State) (h : HubId) (p : PubList)  (hK : Keeps sB s0) :
    Keeps sB (runPublish s0 h p) := by
  unfold runPublish
  repeat' first
    | with_reducible assumption
    | with_reducible apply rput_keeps
    | with_reducible apply publishFrom_keeps
    | with_reducible apply settleWaits_keeps
    | with_reducible apply publishEnd_keeps
    | split
    | dsimp only

theorem execPublish_keeps {sB : State} (h : HubId) (s : State)  (hK : Keeps sB s) :
    OutKeeps sB (execPublish h s) := by
  unfold execPublish
  repeat' first
    | with_reducible refine OutKeeps.next ?_
    | with_reducible apply runPublish_keeps
    | split
    | (apply_assumption; done)

theorem execPublishTimeout_keeps {sB : State} (h : HubId) (s : State)  (hK : Keeps sB s) :
    OutKeeps sB (execPublishTimeout h s) := by
  unfold execPublishTimeout
  repeat' first
    | with_reducible assumption
    | with_reducible refine OutKeeps.next ?_
    | with_reducible apply runPublish_keeps
    | with_reducible apply modPub_keeps
    | with_reducible apply stepSkip_keeps
    | with_reducible apply raise_keeps
    | (rw [mk_built]; with_reducible apply Keeps.built)
    | with_reducible rfl
    | split
    | with_reducible intro _

theorem execUnlock_keeps {sB : State} (r : LockHolder) (h : HubId) (s : State)  (hK : Keeps sB s) :
    OutKeeps sB (execUnlock r h s) := by
  unfold execUnlock
  repeat' first
    | with_reducible refine OutKeeps.next ?_
    | (rw [mk_built]; with_reducible apply Keeps.built)
    | split
    | with_reducible intro _
    | (apply_assumption; done)

theorem discardPubs_keeps {sB : State} (s : State) (h : HubId)  (hK : Keeps sB s) :
    Keeps sB (discardPubs s h) := by
  unfold discardPubs
  repeat' first
    | with_reducible exact Keeps.refl _
    | with_reducible apply putPubs_keeps
    | with_reducible apply sendUnlock_keeps
    | with_reducible apply bump_keeps
    | with_reducible refine Keeps.foldl _ (fun _ _ => ?_) ?_
    | (apply_assumption; done)

end Sys2Proof.Machine
end

