-- ==== Sys2Proof/Laws/KeepThin.lean ====
section
/-!
SUPPORT. What the operations of Machine/Thin.lean keep: the queue and the invariant.
-/
namespace Sys2Proof.Machine

theorem runEngine_keeps {sB : State} (s : State) (f : FrontId) (x : Slot) (body : Run Unit) (hbody : RunKeeps body) (hK : Keeps sB s) :
    Keeps sB (runEngine s f x body) := by
  unfold runEngine
  repeat' first
    | with_reducible assumption
    | with_reducible apply waitSlot_keeps
    | with_reducible apply endSlot_keeps
    | with_reducible refine Keeps.runFromEq (by assumption) ?_ ?_
    | split

theorem gated_keeps (f : FrontId) (e : Nat) (x : Slot) (stale : Nat)  : RunKeeps (gated f e x stale : Run (Option Decision)) := by
  unfold gated
  repeat' first
    | with_reducible exact Keeps.refl _
    | with_reducible exact RunKeeps.pure _
    | with_reducible exact RunKeeps.stop _
    | with_reducible exact RunKeeps.look _
    | with_reducible apply raiseTag_keeps
    | with_reducible refine RunKeeps.defectAt _ _ _ _ fun _ => ?_
    | with_reducible refine RunKeeps.bind ?_ fun _ => ?_
    | split

theorem engineFault_keeps (f : FrontId) (ws : List Word) (cause : Nat)  : RunKeeps (engineFault f ws cause : Run Unit) := by
  unfold engineFault
  repeat' first
    | with_reducible exact Keeps.refl _
    | with_reducible exact RunKeeps.markDefect
    | with_reducible apply raiseTag_keeps
    | with_reducible refine RunKeeps.act fun _ => ?_
    | with_reducible refine RunKeeps.bind ?_ fun _ => ?_

theorem engineDefect_keeps {α : Type} (f : FrontId) (ws : List Word) (cause : Nat)  : RunKeeps (engineDefect f ws cause : Run α) := by
  unfold engineDefect
  repeat' first
    | with_reducible exact Keeps.refl _
    | with_reducible apply raiseTag_keeps
    | with_reducible refine RunKeeps.defectAt _ _ _ _ fun _ => ?_

theorem writeBlock_keeps (rq : Req) (g : Grid) (off : Nat) (l : List Byte)  : RunKeeps (writeBlock rq g off l : Run Unit) := by
  unfold writeBlock
  repeat' first
    | with_reducible exact Keeps.refl _
    | with_reducible exact RunKeeps.pure _
    | with_reducible apply gWrite_keeps
    | with_reducible refine RunKeeps.need fun _ => ?_
    | split

theorem writeRecord__keeps (rq : Req) (g : Grid) (o : TileOut) (f : PodForm) (pod q gen : Nat) (k : Kept)  : RunKeeps (writeRecord_ rq g o f pod q gen k : Run (List Word × Nat × Bool)) := by
  unfold writeRecord_
  repeat' first
    | with_reducible exact RunKeeps.pure _
    | with_reducible exact RunKeeps.markDefect
    | with_reducible apply writeBlock_keeps
    | with_reducible refine RunKeeps.iteThen ?_ fun _ => ?_
    | with_reducible refine RunKeeps.bind ?_ fun _ => ?_
    | split
    | dsimp only

theorem liveRows_keeps (rq : Req) (g : Grid) (x : DirEntry)  : RunKeeps (liveRows rq g x : Run (Bool × List (List PodSlot))) := by
  unfold liveRows
  repeat' first
    | with_reducible exact RunKeeps.pure _
    | with_reducible apply readForward_keeps
    | with_reducible apply readTransposed_keeps
    | with_reducible refine RunKeeps.bind ?_ fun _ => ?_
    | split

theorem readLive_keeps (rq : Req) (g : Grid) (e start n : Nat)  : RunKeeps (readLive rq g e start n : Run LiveTile) := by
  unfold readLive
  repeat' first
    | with_reducible exact RunKeeps.pure _
    | with_reducible apply readDirEntry_keeps
    | with_reducible apply liveRows_keeps
    | with_reducible refine RunKeeps.bind ?_ fun _ => ?_
    | split

theorem noteFault_keeps (h : HubId) (e : Nat)  : RunKeeps (noteFault h e : Run Unit) := by
  unfold noteFault
  repeat' first
    | with_reducible exact Keeps.refl _
    | with_reducible apply rput_keeps
    | with_reducible refine RunKeeps.act fun _ => ?_
    | split

theorem waitForLock_keeps (h : HubId) (es : List Nat)  : RunKeeps (waitForLock h es : Run Unit) := by
  unfold waitForLock
  repeat' first
    | with_reducible exact RunKeeps.pure _
    | with_reducible exact RunKeeps.stop _
    | with_reducible exact RunKeeps.look _
    | with_reducible refine RunKeeps.bind ?_ fun _ => ?_
    | split

theorem freeWords_keeps (n : Nat)  : RunKeeps (freeWords n : Run (List Word)) := by
  unfold freeWords
  repeat' first
    | with_reducible exact Keeps.refl _
    | with_reducible exact RunKeeps.pure _
    | with_reducible exact RunKeeps.look _
    | with_reducible apply useFresh_keeps
    | with_reducible refine RunKeeps.act fun _ => ?_
    | with_reducible refine RunKeeps.bind ?_ fun _ => ?_
    | with_reducible refine Keeps.foldl _ (fun _ _ => ?_) ?_

theorem stage_keeps (rq : Req) (pub : Tensor) (j : Nat) (rec : List Word)  : RunKeeps (stage rq pub j rec : Run Unit) := by
  unfold stage
  repeat' first
    | with_reducible apply writeCodes_keeps

theorem writeTileStats_keeps (rq : Req) (stats : Option Tensor) (j : Nat) (l : List Nat)  : RunKeeps (writeTileStats rq stats j l : Run Unit) := by
  unfold writeTileStats
  repeat' first
    | with_reducible exact RunKeeps.pure _
    | with_reducible apply writeCodes_keeps
    | split

theorem tileRow_keeps (rq : Req) (t : Tensor) (r c0 : Nat)  : RunKeeps (tileRow rq t r c0 : Run (List Val)) := by
  unfold tileRow
  repeat' first
    | with_reducible exact RunKeeps.pure _
    | with_reducible apply readElems_keeps
    | with_reducible refine RunKeeps.bind ?_ fun _ => ?_

theorem thinRow_keeps (ws : List Word) (sprout : Bool) (rq : Req) (a : ThinArgs) (seed : BitVec 64) (e tn tk i : Nat) (m : List Nat)  : RunKeeps (thinRow ws sprout rq a seed e tn tk i m : Run (List (Nat × Val) × Bool)) := by
  unfold thinRow
  repeat' first
    | with_reducible exact RunKeeps.pure _
    | with_reducible apply tileRow_keeps
    | with_reducible refine RunKeeps.bind ?_ fun _ => ?_
    | split

theorem thinTile_keeps (h : HubId) (ws : List Word) (sprout : Bool) (rq : Req) (a : ThinArgs) (pub : Tensor) (o : TileOut) (seed : BitVec 64) (d : ThinDone) (j : Nat)  : RunKeeps (thinTile h ws sprout rq a pub o seed d j : Run ThinDone) := by
  unfold thinTile
  repeat' first
    | with_reducible exact Keeps.refl _
    | with_reducible exact RunKeeps.pure _
    | with_reducible apply readLive_keeps
    | with_reducible apply noteFault_keeps
    | with_reducible apply engineFault_keeps
    | with_reducible apply freeWords_keeps
    | with_reducible apply stage_keeps
    | with_reducible apply writeTileStats_keeps
    | with_reducible apply thinRow_keeps
    | with_reducible apply setNonfinite_keeps
    | with_reducible apply raiseTag_keeps
    | with_reducible apply writeRecord__keeps
    | with_reducible apply bump_keeps
    | with_reducible refine RunKeeps.act fun _ => ?_
    | with_reducible refine RunKeeps.iteThen ?_ fun _ => ?_
    | with_reducible refine RunKeeps.bind ?_ fun _ => ?_
    | with_reducible refine RunKeeps.mapM _ fun _ => ?_
    | split

theorem armAndWait_keeps {sB : State} (s : State) (h : HubId) (x : Slot) (st : Status) (base count : Nat) (recs : Nat × Nat) (target : Nat)  (hK : Keeps sB s) :
    Keeps sB (armAndWait s h x st base count recs target) := by
  unfold armAndWait
  repeat' first
    | with_reducible apply armList_keeps
    | with_reducible apply putSlot_keeps
    | with_reducible refine Keeps.fst ?_ (by assumption)
    | split
    | (apply_assumption; done)

theorem armWritten_keeps (h : HubId) (x : Slot) (mode stride : Nat) (pub : Tensor) (count : Nat) (recs : Nat × Nat)  : RunKeeps (armWritten h x mode stride pub count recs : Run Unit) := by
  unfold armWritten
  repeat' first
    | with_reducible exact Keeps.refl _
    | with_reducible exact RunKeeps.pure _
    | with_reducible exact RunKeeps.get
    | with_reducible exact RunKeeps.look _
    | with_reducible apply armAndWait_keeps
    | with_reducible apply engineFault_keeps
    | with_reducible refine RunKeeps.act fun _ => ?_
    | with_reducible refine RunKeeps.bind ?_ fun _ => ?_
    | split

theorem runThin_keeps (h : HubId) (sprout : Bool) (x : Slot)  : RunKeeps (runThin h sprout x : Run Unit) := by
  unfold runThin
  repeat' first
    | with_reducible exact Keeps.refl _
    | with_reducible exact RunKeeps.pure _
    | with_reducible apply gated_keeps
    | with_reducible apply bump_keeps
    | with_reducible apply loadDesc_keeps
    | with_reducible apply loadAny_keeps
    | with_reducible apply loadAnyOpt_keeps
    | with_reducible apply loadOpt_keeps
    | with_reducible apply checkDestOpt_keeps
    | with_reducible apply loadGrid_keeps
    | with_reducible apply engineDefect_keeps
    | with_reducible apply waitForLock_keeps
    | with_reducible apply rput_keeps
    | with_reducible apply thinTile_keeps
    | with_reducible apply armWritten_keeps
    | with_reducible refine RunKeeps.act fun _ => ?_
    | with_reducible refine RunKeeps.bind ?_ fun _ => ?_
    | with_reducible refine RunKeeps.foldlM _ _ fun _ _ => ?_
    | split
    | dsimp only

theorem execThin_keeps {sB : State} (h : HubId) (slot : Nat) (s : State)  (hK : Keeps sB s) :
    OutKeeps sB (execThin h slot s) := by
  unfold execThin
  repeat' first
    | with_reducible exact Keeps.refl _
    | with_reducible refine OutKeeps.next ?_
    | with_reducible apply startCommand_keeps
    | with_reducible apply runEngine_keeps
    | with_reducible apply runThin_keeps
    | with_reducible intro _
    | (apply_assumption; done)

theorem execSprout_keeps {sB : State} (h : HubId) (slot : Nat) (s : State)  (hK : Keeps sB s) :
    OutKeeps sB (execSprout h slot s) := by
  unfold execSprout
  repeat' first
    | with_reducible exact Keeps.refl _
    | with_reducible refine OutKeeps.next ?_
    | with_reducible apply startCommand_keeps
    | with_reducible apply runEngine_keeps
    | with_reducible apply runThin_keeps
    | with_reducible intro _
    | (apply_assumption; done)

end Sys2Proof.Machine
end

