-- ==== Sys2Proof/Laws/KeepUpdate.lean ====
section
/-!
SUPPORT. What the operations of Machine/Update.lean keep: the queue and the invariant.
-/
namespace Sys2Proof.Machine

theorem groupAtStart_keeps (b : Block) (g : Nat)  : RunKeeps (groupAtStart b g : Run Group) := by
  unfold groupAtStart
  repeat' first
    | with_reducible exact RunKeeps.pure _
    | with_reducible exact RunKeeps.look _
    | with_reducible apply startCopy_keeps
    | with_reducible refine RunKeeps.bind ?_ fun _ => ?_

theorem readSched_keeps (f : FrontId) (ws : List Word)  : RunKeeps (readSched f ws : Run (Option (List SchedEntry))) := by
  unfold readSched
  repeat' first
    | with_reducible exact Keeps.refl _
    | with_reducible exact RunKeeps.pure _
    | with_reducible exact RunKeeps.look _
    | with_reducible apply startCopy_keeps
    | with_reducible apply gRead_keeps
    | with_reducible refine RunKeeps.needData fun _ => ?_
    | with_reducible refine RunKeeps.bind ?_ fun _ => ?_
    | split

theorem writing_keeps (x : Run Unit) (hx : RunKeeps x) : RunKeeps (writing x : Run Unit) := by
  unfold writing
  repeat' first
    | with_reducible exact Keeps.refl _
    | with_reducible exact RunKeeps.throw _
    | with_reducible exact RunKeeps.look _
    | with_reducible refine RunKeeps.modify fun _ => ?_
    | with_reducible refine RunKeeps.bind ?_ fun _ => ?_
    | with_reducible refine RunKeeps.tryCatch ?_ fun _ => ?_
    | split
    | (apply_assumption; done)

theorem noteNf_keeps (b : Bool)  : RunKeeps (noteNf b : Run Unit) := by
  unfold noteNf
  repeat' first
    | with_reducible exact Keeps.refl _
    | with_reducible refine RunKeeps.modify fun _ => ?_

theorem rowVals_keeps (rq : Req) (t : Tensor) (row c0 n : Nat)  : RunKeeps (rowVals rq t row c0 n : Run (List Val)) := by
  unfold rowVals
  repeat' first
    | with_reducible exact RunKeeps.pure _
    | with_reducible apply readCodes_keeps
    | with_reducible apply readElems_keeps
    | with_reducible refine RunKeeps.bind ?_ fun _ => ?_
    | split

theorem momentVals_keeps (rq : Req) (t : Option Tensor) (row c0 n : Nat)  : RunKeeps (momentVals rq t row c0 n : Run (List Val)) := by
  unfold momentVals
  repeat' first
    | with_reducible exact RunKeeps.pure _
    | with_reducible apply rowVals_keeps
    | split

theorem writePositions_keeps (k : Consts) (rq : Req) (p : ParamSet) (row base : Nat) (ws moms : List (Nat × Pos))  : RunKeeps (writePositions k rq p row base ws moms : Run Unit) := by
  unfold writePositions
  repeat' first
    | with_reducible exact RunKeeps.pure _
    | with_reducible apply noteNf_keeps
    | with_reducible apply writing_keeps
    | with_reducible apply writeAt_keeps
    | with_reducible refine RunKeeps.bind ?_ fun _ => ?_
    | split

theorem writeWork_keeps (k : Consts) (rq : Req) (work : Option Tensor) (row : Nat) (vs : List Val)  : RunKeeps (writeWork k rq work row vs : Run Unit) := by
  unfold writeWork
  repeat' first
    | with_reducible exact RunKeeps.pure _
    | with_reducible exact RunKeeps.markDefect
    | with_reducible apply noteNf_keeps
    | with_reducible apply writing_keeps
    | with_reducible apply writeOutRow_keeps
    | with_reducible refine RunKeeps.iteThen ?_ fun _ => ?_
    | with_reducible refine RunKeeps.bind ?_ fun _ => ?_
    | split

theorem applyDense_keeps (k : Consts) (rq : Req) (p : ParamSet) (work : Option Tensor) (grad : Nat → Run (List Val)) (count : Nat → Run Unit) (hgrad : ∀ (x0 : Nat), RunKeeps (grad x0)) (hcount : ∀ (x0 : Nat), RunKeeps (count x0)) : RunKeeps (applyDense k rq p work grad count : Run Unit) := by
  unfold applyDense
  repeat' first
    | with_reducible apply rowVals_keeps
    | with_reducible apply momentVals_keeps
    | with_reducible apply writePositions_keeps
    | with_reducible apply writeWork_keeps
    | with_reducible refine RunKeeps.bind ?_ fun _ => ?_
    | with_reducible refine RunKeeps.forN fun _ => ?_
    | (apply_assumption; done)

theorem tornGuard_keeps (f : FrontId) (ws : List Word) (x : Run Unit) (hx : RunKeeps x) : RunKeeps (tornGuard f ws x : Run Unit) := by
  unfold tornGuard
  repeat' first
    | with_reducible exact Keeps.refl _
    | with_reducible exact RunKeeps.throw _
    | with_reducible exact RunKeeps.get
    | with_reducible apply raiseTag_keeps
    | with_reducible apply setTorn_keeps
    | with_reducible refine RunKeeps.act fun _ => ?_
    | with_reducible refine RunKeeps.bind ?_ fun _ => ?_
    | with_reducible refine RunKeeps.tryCatch ?_ fun _ => ?_
    | split
    | (apply_assumption; done)

theorem nfGuard_keeps (f : FrontId) (ws : List Word) (x : Run Unit) (hx : RunKeeps x) : RunKeeps (nfGuard f ws x : Run Unit) := by
  unfold nfGuard
  repeat' first
    | with_reducible assumption
    | with_reducible exact Keeps.refl _
    | with_reducible exact RunKeeps.pure _
    | with_reducible exact RunKeeps.throw _
    | with_reducible exact RunKeeps.get
    | with_reducible apply setNonfiniteNext_keeps
    | with_reducible apply raiseTag_keeps
    | with_reducible refine RunKeeps.act fun _ => ?_
    | with_reducible refine RunKeeps.bind ?_ fun _ => ?_
    | with_reducible refine RunKeeps.tryCatch ?_ fun _ => ?_
    | split

theorem loadWork_keeps (f : FrontId) (ws : List Word) (i : Nat)  : RunKeeps (loadWork f ws i : Run (Option Tensor)) := by
  unfold loadWork
  repeat' first
    | with_reducible exact RunKeeps.pure _
    | with_reducible exact RunKeeps.look _
    | with_reducible apply loadDesc_keeps
    | with_reducible refine RunKeeps.bind ?_ fun _ => ?_
    | split

theorem loadUpdate_keeps (f : FrontId) (ws : List Word)  : RunKeeps (loadUpdate f ws : Run UpdateArgs) := by
  unfold loadUpdate
  repeat' first
    | with_reducible exact RunKeeps.pure _
    | with_reducible apply loadDesc_keeps
    | with_reducible apply loadOpt_keeps
    | with_reducible apply loadWork_keeps
    | with_reducible apply loadGrid_keeps
    | with_reducible refine RunKeeps.bind ?_ fun _ => ?_
    | with_reducible refine RunKeeps.map _ ?_
    | split

theorem applyTileRow_keeps (k : Consts) (rq : Req) (a : UpdateArgs) (tn tk q i first : Nat) (slots : List PodSlot)  : RunKeeps (applyTileRow k rq a tn tk q i first slots : Run (List (Nat × Val))) := by
  unfold applyTileRow
  repeat' first
    | with_reducible exact RunKeeps.pure _
    | with_reducible apply rowVals_keeps
    | with_reducible apply momentVals_keeps
    | with_reducible apply writePositions_keeps
    | with_reducible refine RunKeeps.bind ?_ fun _ => ?_
    | split
    | dsimp only

theorem applyTile_keeps (h : HubId) (ws : List Word) (k : Consts) (rq : Req) (a : UpdateArgs) (g : Grid) (pub : Tensor) (o : TileOut) (j tn tk q e : Nat) (x : DirEntry)  : RunKeeps (applyTile h ws k rq a g pub o j tn tk q e x : Run Bool) := by
  unfold applyTile
  repeat' first
    | with_reducible exact Keeps.refl _
    | with_reducible exact RunKeeps.pure _
    | with_reducible exact RunKeeps.throw _
    | with_reducible exact RunKeeps.look _
    | with_reducible apply liveRows_keeps
    | with_reducible apply noteFault_keeps
    | with_reducible apply engineFault_keeps
    | with_reducible apply freeWords_keeps
    | with_reducible apply stage_keeps
    | with_reducible apply applyTileRow_keeps
    | with_reducible apply bump_keeps
    | with_reducible apply rput_keeps
    | with_reducible apply noteNf_keeps
    | with_reducible apply writeRecord__keeps
    | with_reducible refine RunKeeps.act fun _ => ?_
    | with_reducible refine RunKeeps.modify fun _ => ?_
    | with_reducible refine RunKeeps.iteThen ?_ fun _ => ?_
    | with_reducible refine RunKeeps.bind ?_ fun _ => ?_
    | with_reducible refine RunKeeps.tryCatch ?_ fun _ => ?_
    | with_reducible refine RunKeeps.mapM _ fun _ => ?_
    | split

theorem runApply_keeps (h : HubId) (x : Slot)  : RunKeeps (runApply h x : Run Unit) := by
  unfold runApply
  repeat' first
    | with_reducible exact Keeps.refl _
    | with_reducible exact RunKeeps.pure _
    | with_reducible apply groupAtStart_keeps
    | with_reducible apply readSched_keeps
    | with_reducible apply gated_keeps
    | with_reducible apply bump_keeps
    | with_reducible apply loadUpdate_keeps
    | with_reducible apply checkDest_keeps
    | with_reducible apply checkDestOpt_keeps
    | with_reducible apply waitForLock_keeps
    | with_reducible apply readDirEntry_keeps
    | with_reducible apply engineDefect_keeps
    | with_reducible apply rput_keeps
    | with_reducible apply nfGuard_keeps
    | with_reducible apply tornGuard_keeps
    | with_reducible apply applyTile_keeps
    | with_reducible apply armWritten_keeps
    | with_reducible apply applyDense_keeps
    | with_reducible apply rowVals_keeps
    | with_reducible refine RunKeeps.act fun _ => ?_
    | with_reducible refine RunKeeps.iteThen ?_ fun _ => ?_
    | with_reducible refine RunKeeps.bind ?_ fun _ => ?_
    | with_reducible refine RunKeeps.mapM _ fun _ => ?_
    | with_reducible refine RunKeeps.foldlM _ _ fun _ _ => ?_
    | split
    | dsimp only
    | with_reducible intro _

theorem execApply_keeps {sB : State} (h : HubId) (slot : Nat) (s : State)  (hK : Keeps sB s) :
    OutKeeps sB (execApply h slot s) := by
  unfold execApply
  repeat' first
    | with_reducible exact Keeps.refl _
    | with_reducible refine OutKeeps.next ?_
    | with_reducible apply startCommand_keeps
    | with_reducible apply runEngine_keeps
    | with_reducible apply runApply_keeps
    | split
    | with_reducible intro _
    | (apply_assumption; done)

theorem addToLedger_keeps {sB : State} (s : State) (x : SumSq)  (hK : Keeps sB s) :
    Keeps sB (addToLedger s x) := by
  unfold addToLedger
  repeat' first
    | with_reducible apply addNorm_keeps
    | with_reducible apply setNonfinite_keeps
    | split
    | (apply_assumption; done)

theorem runNorm_keeps (h : HubId) (x : Slot)  : RunKeeps (runNorm h x : Run Unit) := by
  unfold runNorm
  repeat' first
    | with_reducible exact Keeps.refl _
    | with_reducible exact RunKeeps.pure _
    | with_reducible apply groupAtStart_keeps
    | with_reducible apply readSched_keeps
    | with_reducible apply loadUpdate_keeps
    | with_reducible apply readDirEntry_keeps
    | with_reducible apply engineDefect_keeps
    | with_reducible apply liveRows_keeps
    | with_reducible apply noteFault_keeps
    | with_reducible apply engineFault_keeps
    | with_reducible apply rowVals_keeps
    | with_reducible apply addToLedger_keeps
    | with_reducible refine RunKeeps.act fun _ => ?_
    | with_reducible refine RunKeeps.bind ?_ fun _ => ?_
    | with_reducible refine RunKeeps.mapM _ fun _ => ?_
    | with_reducible refine RunKeeps.foldlM _ _ fun _ _ => ?_
    | split

theorem execNormPass_keeps {sB : State} (h : HubId) (slot : Nat) (s : State)  (hK : Keeps sB s) :
    OutKeeps sB (execNormPass h slot s) := by
  unfold execNormPass
  repeat' first
    | with_reducible exact Keeps.refl _
    | with_reducible refine OutKeeps.next ?_
    | with_reducible apply startCommand_keeps
    | with_reducible apply runEngine_keeps
    | with_reducible apply runNorm_keeps
    | split
    | with_reducible intro _
    | (apply_assumption; done)

theorem noteDrift_keeps (f : FrontId) (ws : List Word) (l : List Nat)  : RunKeeps (noteDrift f ws l : Run Unit) := by
  unfold noteDrift
  repeat' first
    | with_reducible exact Keeps.refl _
    | with_reducible exact RunKeeps.pure _
    | with_reducible exact RunKeeps.markDefect
    | with_reducible apply rput_keeps
    | with_reducible apply raiseTag_keeps
    | with_reducible apply bump_keeps
    | with_reducible refine RunKeeps.act fun _ => ?_
    | with_reducible refine RunKeeps.bind ?_ fun _ => ?_
    | with_reducible refine Keeps.foldl _ (fun _ _ => ?_) ?_
    | split

theorem auditRow_keeps (rq : Req) (g : Group) (master work : Tensor) (r : Nat)  : RunKeeps (auditRow rq g master work r : Run (List Nat)) := by
  unfold auditRow
  repeat' first
    | with_reducible exact RunKeeps.pure _
    | with_reducible apply rowVals_keeps
    | with_reducible apply readCodes_keeps
    | with_reducible apply readScales_keeps
    | with_reducible refine RunKeeps.bind ?_ fun _ => ?_

theorem auditTile_keeps (rq : Req) (g : Group) (grid : Grid) (master : Tensor) (tn tk e : Nat)  : RunKeeps (auditTile rq g grid master tn tk e : Run Bool) := by
  unfold auditTile
  repeat' first
    | with_reducible exact RunKeeps.pure _
    | with_reducible apply readDirEntry_keeps
    | with_reducible apply liveRows_keeps
    | with_reducible apply rowVals_keeps
    | with_reducible apply readTransposed_keeps
    | with_reducible refine RunKeeps.bind ?_ fun _ => ?_
    | with_reducible refine RunKeeps.mapM _ fun _ => ?_
    | split
    | dsimp only

theorem runAudit_keeps (h : HubId) (x : Slot)  : RunKeeps (runAudit h x : Run Unit) := by
  unfold runAudit
  repeat' first
    | with_reducible exact Keeps.refl _
    | with_reducible exact RunKeeps.pure _
    | with_reducible apply groupAtStart_keeps
    | with_reducible apply readSched_keeps
    | with_reducible apply loadDesc_keeps
    | with_reducible apply loadWork_keeps
    | with_reducible apply refuseDesc_keeps
    | with_reducible apply loadGrid_keeps
    | with_reducible apply engineDefect_keeps
    | with_reducible apply auditTile_keeps
    | with_reducible apply bump_keeps
    | with_reducible apply noteDrift_keeps
    | with_reducible apply auditRow_keeps
    | with_reducible refine RunKeeps.act fun _ => ?_
    | with_reducible refine RunKeeps.iteThen ?_ fun _ => ?_
    | with_reducible refine RunKeeps.bind ?_ fun _ => ?_
    | with_reducible refine RunKeeps.forM _ fun _ => ?_
    | split

theorem execDriftAudit_keeps {sB : State} (h : HubId) (slot : Nat) (s : State)  (hK : Keeps sB s) :
    OutKeeps sB (execDriftAudit h slot s) := by
  unfold execDriftAudit
  repeat' first
    | with_reducible exact Keeps.refl _
    | with_reducible refine OutKeeps.next ?_
    | with_reducible apply startCommand_keeps
    | with_reducible apply runEngine_keeps
    | with_reducible apply runAudit_keeps
    | with_reducible intro _
    | (apply_assumption; done)

end Sys2Proof.Machine
end

