-- ==== Sys2Proof/Laws/KeepSlow.lean ====
section
/-!
SUPPORT. What the operations of Machine/Slow.lean keep: the queue and the invariant.
-/
namespace Sys2Proof.Machine

theorem putPark_keeps {sB : State} (s : State) (p : PortDieId) (r : ParkRing)  (hK : Keeps sB s) :
    Keeps sB (putPark s p r) := by
  unfold putPark
  repeat' first
    | (rw [mk_built]; with_reducible apply Keeps.built)
    | with_reducible exact keysRise_tset _ _ _ _ (by assumption)
    | with_reducible intro _
    | (apply_assumption; done)

theorem writeParkCfg_keeps {sB : State} (s : State) (p : PortDieId) (off : Nat) (v : Word)  (hK : Keeps sB s) :
    Keeps sB (writeParkCfg s p off v) := by
  unfold writeParkCfg
  repeat' first
    | with_reducible apply rwrite_keeps
    | with_reducible apply raise_keeps
    | split
    | dsimp only
    | (apply_assumption; done)

theorem execParkCfg_keeps {sB : State} (p : PortDieId) (offset : Nat) (v : Word) (s : State)  (hK : Keeps sB s) :
    OutKeeps sB (execParkCfg p offset v s) := by
  unfold execParkCfg
  repeat' first
    | with_reducible refine OutKeeps.next ?_
    | with_reducible apply writeParkCfg_keeps
    | split
    | (apply_assumption; done)

theorem endParkHold_keeps {sB : State} (s : State) (p : PortDieId)  (hK : Keeps sB s) :
    Keeps sB (endParkHold s p) := by
  unfold endParkHold
  repeat' first
    | with_reducible apply bump_keeps
    | with_reducible apply putPark_keeps
    | split
    | dsimp only
    | (apply_assumption; done)

theorem startParkHold_keeps {sB : State} (s : State) (p : PortDieId)  (hK : Keeps sB s) :
    Keeps sB (startParkHold s p) := by
  unfold startParkHold
  repeat' first
    | with_reducible apply putPark_keeps
    | split
    | dsimp only
    | (apply_assumption; done)

theorem loadLap_keeps (f : FrontId) (ws : List Word) (park : Bool)  : RunKeeps (loadLap f ws park : Run LapArgs) := by
  unfold loadLap
  repeat' first
    | with_reducible exact RunKeeps.pure _
    | with_reducible apply loadDesc_keeps
    | with_reducible apply engineDefect_keeps
    | with_reducible apply loadOpt_keeps
    | with_reducible refine RunKeeps.bind ?_ fun _ => ?_
    | split

theorem lapFault_keeps {α : Type} (f : FrontId) (ws : List Word) (cause : Nat)  : RunKeeps (lapFault f ws cause : Run α) := by
  unfold lapFault
  repeat' first
    | with_reducible exact Keeps.refl _
    | with_reducible apply stepSkip_keeps
    | with_reducible apply engineDefect_keeps
    | with_reducible refine RunKeeps.act fun _ => ?_
    | with_reducible refine RunKeeps.bind ?_ fun _ => ?_

theorem readParkHead_keeps (rq : Req) (a : Nat)  : RunKeeps (readParkHead rq a : Run ParkHead) := by
  unfold readParkHead
  repeat' first
    | with_reducible exact Keeps.refl _
    | with_reducible exact RunKeeps.pure _
    | with_reducible apply readLocal_keeps
    | with_reducible refine RunKeeps.needData fun _ => ?_
    | with_reducible refine RunKeeps.bind ?_ fun _ => ?_

theorem parkSlot_keeps (p : PortDieId) (rq : Req)  : RunKeeps (parkSlot p rq : Run (Option (Nat × ParkHead))) := by
  unfold parkSlot
  repeat' first
    | with_reducible exact Keeps.refl _
    | with_reducible exact RunKeeps.pure _
    | with_reducible exact RunKeeps.look _
    | with_reducible apply readParkHead_keeps
    | with_reducible apply writeLocal_keeps
    | with_reducible apply putPark_keeps
    | with_reducible refine RunKeeps.act fun _ => ?_
    | with_reducible refine RunKeeps.need fun _ => ?_
    | with_reducible refine RunKeeps.bind ?_ fun _ => ?_
    | split
    | dsimp only

theorem runPark_keeps (p : PortDieId) (x : Slot)  : RunKeeps (runPark p x : Run Unit) := by
  unfold runPark
  repeat' first
    | with_reducible exact Keeps.refl _
    | with_reducible exact RunKeeps.pure _
    | with_reducible exact RunKeeps.stop _
    | with_reducible exact RunKeeps.look _
    | with_reducible apply groupAtStart_keeps
    | with_reducible apply readSched_keeps
    | with_reducible apply loadLap_keeps
    | with_reducible apply engineDefect_keeps
    | with_reducible apply parkSlot_keeps
    | with_reducible apply lapFault_keeps
    | with_reducible apply writeLocal_keeps
    | with_reducible apply rowVals_keeps
    | with_reducible apply bump_keeps
    | with_reducible apply addToLedger_keeps
    | with_reducible apply raiseTag_keeps
    | with_reducible refine RunKeeps.act fun _ => ?_
    | with_reducible refine RunKeeps.need fun _ => ?_
    | with_reducible refine RunKeeps.modify fun _ => ?_
    | with_reducible refine RunKeeps.iteThen ?_ fun _ => ?_
    | with_reducible refine RunKeeps.bind ?_ fun _ => ?_
    | with_reducible refine RunKeeps.foldlM _ _ fun _ _ => ?_
    | split

theorem execPark_keeps {sB : State} (p : PortDieId) (slot : Nat) (s : State)  (hK : Keeps sB s) :
    OutKeeps sB (execPark p slot s) := by
  unfold execPark
  repeat' first
    | with_reducible assumption
    | with_reducible exact Keeps.refl _
    | with_reducible refine OutKeeps.next ?_
    | with_reducible apply startCommand_keeps
    | with_reducible apply runPark_keeps
    | with_reducible apply waitSlot_keeps
    | with_reducible apply startParkHold_keeps
    | with_reducible apply endSlot_keeps
    | with_reducible apply endParkHold_keeps
    | with_reducible refine Keeps.runFromEq (by assumption) ?_ ?_
    | split
    | dsimp only
    | with_reducible intro _

theorem fileDecision_keeps {sB : State} (s : State) (p : PortDieId) (d : Decision)  (hK : Keeps sB s) :
    Keeps sB (fileDecision s p d) := by
  unfold fileDecision
  repeat' first
    | with_reducible assumption
    | with_reducible exact Keeps.refl _
    | with_reducible apply peekLocal_keeps
    | with_reducible apply postWrite_keeps
    | with_reducible refine Keeps.fst ?_ (by assumption)
    | with_reducible refine Keeps.foldl _ (fun _ _ => ?_) ?_
    | split
    | dsimp only

theorem deliverDecision_keeps {sB : State} (s : State) (e : DecisionEngine)  (hK : Keeps sB s) :
    Keeps sB (deliverDecision s e) := by
  unfold deliverDecision
  repeat' first
    | with_reducible apply fileDecision_keeps
    | (rw [mk_built]; with_reducible apply Keeps.built)
    | with_reducible exact keysRise_tset _ _ _ _ (by assumption)
    | split
    | with_reducible intro _
    | (apply_assumption; done)

theorem execDecision_keeps {sB : State} (e : DecisionEngine) (s : State)  (hK : Keeps sB s) :
    OutKeeps sB (execDecision e s) := by
  unfold execDecision
  repeat' first
    | with_reducible refine OutKeeps.next ?_
    | with_reducible apply deliverDecision_keeps
    | (apply_assumption; done)

theorem regionAt_keeps (rq : Req) (a : Nat) (y0 : Nat) (y1 : Nat)  : RunKeeps (regionAt rq a y0 y1 : Run Nat) := by
  induction y0 generalizing y1 with
  | zero =>
  unfold regionAt
  repeat' first
    | with_reducible exact RunKeeps.pure _
  | succ n ih =>
  unfold regionAt
  repeat' first
    | with_reducible exact Keeps.refl _
    | with_reducible apply ih
    | with_reducible apply readLocal_keeps
    | with_reducible refine RunKeeps.needData fun _ => ?_
    | with_reducible refine RunKeeps.bind ?_ fun _ => ?_


theorem consumeRegion_keeps (p : PortDieId) (rq : Req) (a : Nat) (h : ParkHead)  : RunKeeps (consumeRegion p rq a h : Run Unit) := by
  unfold consumeRegion
  repeat' first
    | with_reducible exact Keeps.refl _
    | with_reducible exact RunKeeps.pure _
    | with_reducible apply writeLocal_keeps
    | with_reducible apply endParkHold_keeps
    | with_reducible apply putPark_keeps
    | with_reducible apply rput64_keeps
    | with_reducible apply bump_keeps
    | with_reducible refine RunKeeps.act fun _ => ?_
    | with_reducible refine RunKeeps.need fun _ => ?_
    | with_reducible refine RunKeeps.bind ?_ fun _ => ?_
    | split

theorem dueSlot_keeps (p : PortDieId) (rq : Req) (u : Nat)  : RunKeeps (dueSlot p rq u : Run (Option (Nat × ParkHead))) := by
  unfold dueSlot
  repeat' first
    | with_reducible exact RunKeeps.pure _
    | with_reducible exact RunKeeps.look _
    | with_reducible apply readParkHead_keeps
    | with_reducible refine RunKeeps.bind ?_ fun _ => ?_
    | split
    | dsimp only

theorem runRun_keeps (p : PortDieId) (x : Slot)  : RunKeeps (runRun p x : Run Unit) := by
  unfold runRun
  repeat' first
    | with_reducible exact Keeps.refl _
    | with_reducible exact RunKeeps.pure _
    | with_reducible exact RunKeeps.look _
    | with_reducible apply groupAtStart_keeps
    | with_reducible apply readSched_keeps
    | with_reducible apply gated_keeps
    | with_reducible apply loadLap_keeps
    | with_reducible apply checkDest_keeps
    | with_reducible apply checkDestOpt_keeps
    | with_reducible apply engineDefect_keeps
    | with_reducible apply dueSlot_keeps
    | with_reducible apply bump_keeps
    | with_reducible apply lapFault_keeps
    | with_reducible apply regionAt_keeps
    | with_reducible apply readLocal_keeps
    | with_reducible apply nfGuard_keeps
    | with_reducible apply tornGuard_keeps
    | with_reducible apply applyDense_keeps
    | with_reducible apply consumeRegion_keeps
    | with_reducible refine RunKeeps.act fun _ => ?_
    | with_reducible refine RunKeeps.needData fun _ => ?_
    | with_reducible refine RunKeeps.iteThen ?_ fun _ => ?_
    | with_reducible refine RunKeeps.bind ?_ fun _ => ?_
    | split
    | with_reducible intro _

theorem execRun_keeps {sB : State} (p : PortDieId) (slot : Nat) (s : State)  (hK : Keeps sB s) :
    OutKeeps sB (execRun p slot s) := by
  unfold execRun
  repeat' first
    | with_reducible exact Keeps.refl _
    | with_reducible refine OutKeeps.next ?_
    | with_reducible apply startCommand_keeps
    | with_reducible apply runEngine_keeps
    | with_reducible apply runRun_keeps
    | split
    | with_reducible intro _
    | (apply_assumption; done)

end Sys2Proof.Machine
end

