-- ==== Sys2Proof/Laws/KeepChange.lean ====
section
/-!
SUPPORT. What the operations of Machine/Change.lean keep: the queue and the invariant.
-/
namespace Sys2Proof.Machine

theorem writeLog_keeps {sB : State} (s : State) (r : ErrRecord) (k : Nat)  (hK : Keeps sB s) :
    Keeps sB (writeLog s r k).1 := by
  unfold writeLog
  repeat' first
    | with_reducible assumption
    | with_reducible apply bump_keeps
    | with_reducible apply raise_keeps
    | with_reducible apply postWrite_keeps
    | with_reducible apply rput_keeps
    | with_reducible apply sendMsi_keeps
    | with_reducible refine Keeps.fst ?_ (by assumption)
    | split
    | dsimp only

theorem countClass_keeps {sB : State} (s : State) (k : Nat)  (hK : Keeps sB s) :
    Keeps sB (countClass s k) := by
  unfold countClass
  repeat' first
    | with_reducible assumption
    | with_reducible apply bump_keeps
    | split

theorem ownRecord_keeps {sB : State} (s : State) (b : Block) (cause cls : Nat) (o : Occur)  (hK : Keeps sB s) :
    Keeps sB (ownRecord s b cause cls o) := by
  unfold ownRecord
  repeat' first
    | with_reducible assumption
    | with_reducible apply writeLog_keeps
    | with_reducible apply countClass_keeps
    | with_reducible apply nextSeq_keeps

theorem putChange_keeps {sB : State} (s : State) (d : DieId) (x : PendingChange)  (hK : Keeps sB s) :
    Keeps sB (putChange s d x) := by
  unfold putChange
  repeat' first
    | (rw [mk_built]; with_reducible apply Keeps.built)
    | with_reducible exact keysRise_tset _ _ _ _ (by assumption)
    | with_reducible intro _
    | (apply_assumption; done)

theorem noteScheduled_keeps {sB : State} (s : State) (d : DieId) (cause : Nat) (o : Occur)  (hK : Keeps sB s) :
    Keeps sB (noteScheduled s d cause o) := by
  unfold noteScheduled
  repeat' first
    | with_reducible assumption
    | with_reducible apply rputBit_keeps
    | with_reducible apply sendMsi_keeps
    | with_reducible apply ownRecord_keeps

theorem marginStep_keeps {sB s t : State} {d : DieId} {cause : Nat} {o : Occur}
    (e : marginStep s d cause o = some t)
    (hK : Keeps sB s) : Keeps sB t := by
  unfold marginStep at e
  simp only [Option.map_eq_some_iff] at e
  obtain ⟨u, hu, rfl⟩ := e
  refine bump_keeps _ _ _ _ (noteScheduled_keeps _ _ _ _ ?_)
  have key : ∀ {c : Prop} [Decidable c] {b : Block} {o : Nat} {w : Word} {x : State},
      (if c then some (rput s b o w) else none) = some x → Keeps sB x := by
    intro c _ b o w x h
    split at h
    · cases h
      exact rput_keeps _ _ _ _ hK
    · cases h
  split at hu <;> rcases Option.or_eq_some_iff.1 hu with h | ⟨-, h⟩ <;> exact key h

theorem orReg_keeps {sB : State} (s : State) (b : Block) (off : Nat) (v : Word)  (hK : Keeps sB s) :
    Keeps sB (orReg s b off v) := by
  unfold orReg
  repeat' first
    | with_reducible apply rput_keeps
    | (apply_assumption; done)

theorem applyMargin_keeps {sB : State} (s : State) (d : DieId)  (hK : Keeps sB s) :
    Keeps sB (applyMargin s d) := by
  unfold applyMargin
  repeat' first
    | with_reducible apply bump_keeps
    | with_reducible apply rput_keeps
    | (rw [mk_built]; with_reducible apply Keeps.built)
    | with_reducible exact keysRise_tset _ _ _ _ (by assumption)
    | split
    | dsimp only
    | with_reducible intro _
    | (apply_assumption; done)

theorem applyChanges_keeps {sB : State} (s : State) (d : DieId)  (hK : Keeps sB s) :
    Keeps sB (applyChanges s d) := by
  unfold applyChanges
  repeat' first
    | with_reducible exact Keeps.refl _
    | with_reducible apply applyMargin_keeps
    | with_reducible apply orReg_keeps
    | with_reducible apply rputBit_keeps
    | with_reducible apply putChange_keeps
    | with_reducible refine Keeps.foldl _ (fun _ _ => ?_) ?_
    | (apply_assumption; done)

theorem replanPoint_keeps {sB : State} (s : State)  (hK : Keeps sB s) :
    Keeps sB (replanPoint s) := by
  unfold replanPoint
  repeat' first
    | with_reducible exact Keeps.refl _
    | with_reducible apply applyChanges_keeps
    | (rw [mk_built]; with_reducible apply Keeps.built)
    | with_reducible refine Keeps.foldl _ (fun _ _ => ?_) ?_
    | split
    | with_reducible intro _
    | (apply_assumption; done)

theorem endRelock_keeps {sB : State} (s : State) (d : DieId)  (hK : Keeps sB s) :
    Keeps sB (endRelock s d) := by
  unfold endRelock
  repeat' first
    | with_reducible apply useFresh_keeps
    | with_reducible apply bump_keeps
    | with_reducible apply rput_keeps
    | (rw [mk_built]; with_reducible apply Keeps.built)
    | with_reducible exact keysRise_tset _ _ _ _ (by assumption)
    | split
    | with_reducible intro _
    | (apply_assumption; done)

end Sys2Proof.Machine
end

