-- ==== Sys2Proof/Laws/KeepStride.lean ====
section
/-!
SUPPORT. What the operations of Machine/Stride.lean keep: the queue and the invariant.
-/
namespace Sys2Proof.Machine

theorem modStride_keeps {sB : State} (s : State) (f : StrideM → StrideM)  (hK : Keeps sB s) :
    Keeps sB (modStride s f) := by
  unfold modStride
  repeat' first
    | (rw [mk_built]; with_reducible apply Keeps.built)
    | with_reducible intro _
    | (apply_assumption; done)

theorem joinHolds_keeps {sB : State} (s : State)  (hK : Keeps sB s) :
    Keeps sB (joinHolds s) := by
  unfold joinHolds
  repeat' first
    | with_reducible assumption
    | with_reducible apply modStride_keeps

theorem reportHold_keeps {sB : State} (s : State)  (hK : Keeps sB s) :
    Keeps sB (reportHold s) := by
  unfold reportHold
  repeat' first
    | with_reducible assumption
    | with_reducible apply joinHolds_keeps
    | with_reducible apply rput_keeps
    | with_reducible apply modStride_keeps
    | with_reducible apply bump_keeps
    | with_reducible apply sendControl_keeps
    | split
    | dsimp only

theorem closeHolds_keeps {sB : State} (s : State)  (hK : Keeps sB s) :
    Keeps sB (closeHolds s) := by
  unfold closeHolds
  repeat' first
    | with_reducible apply reportHold_keeps
    | with_reducible apply modStride_keeps
    | (rw [mk_built]; with_reducible apply Keeps.built)
    | (with_reducible refine keysRise_filter _ _ (keysRise_map _ ?_ _ (by assumption)); intro _; rfl)
    | with_reducible intro _
    | (apply_assumption; done)

theorem assertHold_keeps {sB : State} (s : State) (f : FrontId) (v : Bool)  (hK : Keeps sB s) :
    Keeps sB (assertHold s f v) := by
  unfold assertHold
  repeat' first
    | with_reducible apply bump_keeps
    | with_reducible apply putFront_keeps
    | split
    | (apply_assumption; done)

theorem hurdle_keeps {sB : State} (s : State)  (hK : Keeps sB s) :
    Keeps sB (hurdle s) := by
  unfold hurdle
  repeat' first
    | with_reducible assumption
    | with_reducible apply sendRecord_keeps
    | with_reducible apply stepSkip_keeps
    | with_reducible apply raise_keeps

theorem openHolds_keeps {sB : State} (s : State)  (hK : Keeps sB s) :
    Keeps sB (openHolds s) := by
  unfold openHolds
  repeat' first
    | with_reducible assumption
    | with_reducible exact Keeps.refl _
    | with_reducible apply assertHold_keeps
    | with_reducible apply reportHold_keeps
    | with_reducible apply modStride_keeps
    | with_reducible apply hurdle_keeps
    | (rw [mk_built]; with_reducible apply Keeps.built)
    | with_reducible refine Keeps.foldl _ (fun _ _ => ?_) ?_
    | with_reducible rfl
    | split
    | dsimp only
    | with_reducible intro _

theorem execHoldPoint_keeps {sB : State} (s : State)  (hK : Keeps sB s) :
    OutKeeps sB (execHoldPoint s) := by
  unfold execHoldPoint
  repeat' first
    | with_reducible refine OutKeeps.next ?_
    | with_reducible apply openHolds_keeps
    | (apply_assumption; done)

theorem execHoldChange_keeps {sB : State} (src : HoldSource) (s : State)  (hK : Keeps sB s) :
    OutKeeps sB (execHoldChange src s) := by
  unfold execHoldChange
  repeat' first
    | with_reducible refine OutKeeps.next ?_
    | with_reducible apply assertHold_keeps
    | with_reducible apply reportHold_keeps
    | with_reducible apply putFront_keeps
    | with_reducible apply putPark_keeps
    | split
    | (apply_assumption; done)

theorem writeHoldSw_keeps {sB : State} (s : State) (v : Bool)  (hK : Keeps sB s) :
    Keeps sB (writeHoldSw s v) := by
  unfold writeHoldSw
  repeat' first
    | with_reducible apply reportHold_keeps
    | with_reducible apply rputBit_keeps
    | (apply_assumption; done)

theorem execHoldSw_keeps {sB : State} (v : Bool) (s : State)  (hK : Keeps sB s) :
    OutKeeps sB (execHoldSw v s) := by
  unfold execHoldSw
  repeat' first
    | with_reducible refine OutKeeps.next ?_
    | with_reducible apply writeHoldSw_keeps
    | (apply_assumption; done)

theorem loadFirst_keeps {sB : State} (s : State) (d : Option DeviceId)  (hK : Keeps sB s) :
    Keeps sB (loadFirst s d) := by
  unfold loadFirst
  repeat' first
    | with_reducible apply rput_keeps
    | (apply_assumption; done)

theorem execHold_keeps {sB : State} (from_ : DeviceId) (_stride : Nat) (v : Bool) (firstId : DeviceId) (s : State)  (hK : Keeps sB s) :
    OutKeeps sB (execHold from_ _stride v firstId s) := by
  unfold execHold
  repeat' first
    | with_reducible refine OutKeeps.next ?_
    | with_reducible apply bump_keeps
    | with_reducible apply modStride_keeps
    | with_reducible apply loadFirst_keeps
    | with_reducible apply reportHold_keeps
    | (rw [mk_built]; with_reducible apply Keeps.built)
    | split
    | with_reducible intro _
    | (apply_assumption; done)

theorem scheduleOut_keeps {sB : State} (s : State) (fire : Nat) (h : Bool)  (hK : Keeps sB s) :
    Keeps sB (scheduleOut s fire h) := by
  unfold scheduleOut
  repeat' first
    | with_reducible apply modStride_keeps
    | split
    | (apply_assumption; done)

theorem sendTicks_keeps {sB : State} (s : State) (m : TickMsg)  (hK : Keeps sB s) :
    Keeps sB (sendTicks s m) := by
  unfold sendTicks
  repeat' first
    | with_reducible exact Keeps.refl _
    | with_reducible apply bump_keeps
    | with_reducible apply sendControl_keeps
    | with_reducible refine Keeps.foldl _ (fun _ _ => ?_) ?_
    | (apply_assumption; done)

theorem noteStretch_keeps {sB : State} (s : State) (n : Nat)  (hK : Keeps sB s) :
    Keeps sB (noteStretch s n) := by
  unfold noteStretch
  repeat' first
    | with_reducible assumption
    | with_reducible apply rput_keeps
    | with_reducible apply loadFirst_keeps
    | with_reducible apply bump_keeps
    | split

theorem announce_keeps {sB : State} (s : State) (h : Bool)  (hK : Keeps sB s) :
    Keeps sB (announce s h) := by
  unfold announce
  repeat' first
    | with_reducible apply noteStretch_keeps
    | with_reducible apply modStride_keeps
    | with_reducible apply closeHolds_keeps
    | with_reducible apply scheduleOut_keeps
    | with_reducible apply sendTicks_keeps
    | (apply_assumption; done)

theorem defer_keeps {sB : State} (s : State)  (hK : Keeps sB s) :
    Keeps sB (defer s) := by
  unfold defer
  repeat' first
    | with_reducible assumption
    | with_reducible apply joinHolds_keeps
    | with_reducible apply loadFirst_keeps
    | with_reducible apply rput_keeps
    | with_reducible apply modStride_keeps

theorem execTickAnnounce_keeps {sB : State} (s : State)  (hK : Keeps sB s) :
    OutKeeps sB (execTickAnnounce s) := by
  unfold execTickAnnounce
  repeat' first
    | with_reducible refine OutKeeps.next ?_
    | with_reducible apply announce_keeps
    | with_reducible apply openHolds_keeps
    | with_reducible apply defer_keeps
    | (rw [mk_built]; with_reducible apply Keeps.built)
    | split
    | dsimp only
    | with_reducible intro _
    | (apply_assumption; done)

theorem execHoldBudgetExpiry_keeps {sB : State} (s : State)  (hK : Keeps sB s) :
    OutKeeps sB (execHoldBudgetExpiry s) := by
  unfold execHoldBudgetExpiry
  repeat' first
    | with_reducible refine OutKeeps.next ?_
    | with_reducible apply announce_keeps
    | (rw [mk_built]; with_reducible apply Keeps.built)
    | split
    | with_reducible intro _
    | (apply_assumption; done)

theorem reseed_keeps {sB : State} (s : State)  (hK : Keeps sB s) :
    Keeps sB (reseed s) := by
  unfold reseed
  repeat' first
    | (rw [mk_built]; with_reducible apply Keeps.built)
    | with_reducible intro _
    | (apply_assumption; done)

theorem rollLayer_keeps {sB : State} (s : State) (k : Nat)  (hK : Keeps sB s) :
    Keeps sB (rollLayer s k) := by
  unfold rollLayer
  repeat' first
    | with_reducible apply bump_keeps
    | with_reducible apply raise_keeps
    | with_reducible apply rputBit_keeps
    | (rw [mk_built]; with_reducible apply Keeps.built)
    | with_reducible exact keysRise_tset _ _ _ _ (by assumption)
    | split
    | dsimp only
    | with_reducible intro _
    | (apply_assumption; done)

theorem rollPredictors_keeps {sB : State} (s : State)  (hK : Keeps sB s) :
    Keeps sB (rollPredictors s) := by
  unfold rollPredictors
  repeat' first
    | with_reducible exact Keeps.refl _
    | with_reducible apply rollLayer_keeps
    | with_reducible refine Keeps.foldl _ (fun _ _ => ?_) ?_
    | (apply_assumption; done)

theorem lateLists_keeps {sB : State} (s : State)  (hK : Keeps sB s) :
    Keeps sB (lateLists s) := by
  unfold lateLists
  repeat' first
    | with_reducible apply stepSkip_keeps
    | split
    | (apply_assumption; done)

theorem traceControls_keeps {sB : State} (s : State)  (hK : Keeps sB s) :
    Keeps sB (traceControls s) := by
  unfold traceControls
  repeat' first
    | (rw [mk_built]; with_reducible apply Keeps.built)
    | with_reducible intro _
    | (apply_assumption; done)

theorem traceTick_keeps {sB : State} (s : State) (p : PlannedTick) (before : StrideM)  (hK : Keeps sB s) :
    Keeps sB (traceTick s p before) := by
  unfold traceTick
  repeat' first
    | with_reducible apply traceSend_keeps
    | split
    | (apply_assumption; done)

theorem haltStride_keeps {sB : State} (s : State)  (hK : Keeps sB s) :
    Keeps sB (haltStride s) := by
  unfold haltStride
  repeat' first
    | with_reducible apply rputBit_keeps
    | with_reducible apply closeHolds_keeps
    | with_reducible apply modStride_keeps
    | (apply_assumption; done)

theorem fireTick_keeps {sB : State} (s : State) (p : PlannedTick)  (hK : Keeps sB s) :
    Keeps sB (fireTick s p) := by
  unfold fireTick
  repeat' first
    | with_reducible assumption
    | with_reducible exact Keeps.refl _
    | with_reducible apply modStride_keeps
    | with_reducible apply bump_keeps
    | with_reducible apply hurdle_keeps
    | with_reducible apply traceTick_keeps
    | with_reducible apply lateLists_keeps
    | with_reducible apply rollPredictors_keeps
    | with_reducible apply reseed_keeps
    | with_reducible apply traceControls_keeps
    | with_reducible apply evaluateStrideWait_keeps
    | with_reducible apply replanPoint_keeps
    | with_reducible apply haltStride_keeps
    | (rw [mk_built]; with_reducible apply Keeps.built)
    | with_reducible refine Keeps.foldl _ (fun _ _ => ?_) ?_
    | split
    | dsimp only
    | with_reducible intro _

theorem execTickFire_keeps {sB : State} (s : State)  (hK : Keeps sB s) :
    OutKeeps sB (execTickFire s) := by
  unfold execTickFire
  repeat' first
    | with_reducible refine OutKeeps.next ?_
    | with_reducible apply fireTick_keeps
    | (rw [mk_built]; with_reducible apply Keeps.built)
    | split
    | with_reducible intro _
    | (apply_assumption; done)

theorem applyTick_keeps {sB : State} (s : State) (m : TickMsg) (hK : Keeps sB s) : Keeps sB (applyTick s m) := by
  unfold applyTick
  extract_lets b s1 late stretch s2 p s3 s4
  have h1 : Keeps sB s1 := by
    unfold s1
    split
    · exact raise_keeps _ _ _ hK
    · exact hK
  have h4 : Keeps sB s4 :=
    closeHolds_keeps _ (scheduleOut_keeps _ _ _ (modStride_keeps _ _ (noteStretch_keeps _ _ h1)))
  clear_value s4 late p
  split
  · exact fireTick_keeps _ _ (bump_keeps _ _ _ _ (raise_keeps _ _ _ h4))
  · exact h4

theorem execTick_keeps {sB : State} (port : NauloId) (from_ : DeviceId) (m : TickMsg) (s : State)  (hK : Keeps sB s) :
    OutKeeps sB (execTick port from_ m s) := by
  unfold execTick
  repeat' first
    | with_reducible assumption
    | with_reducible refine OutKeeps.next ?_
    | with_reducible apply raise_keeps
    | with_reducible apply sendTicks_keeps
    | with_reducible apply bump_keeps
    | with_reducible apply applyTick_keeps
    | split
    | dsimp only

theorem execStrideOut_keeps {sB : State} (s : State)  (hK : Keeps sB s) :
    OutKeeps sB (execStrideOut s) := by
  unfold execStrideOut
  repeat' first
    | with_reducible refine OutKeeps.next ?_
    | with_reducible apply modStride_keeps
    | with_reducible apply emit_keeps
    | with_reducible apply bump_keeps
    | (rw [mk_built]; with_reducible apply Keeps.built)
    | split
    | dsimp only
    | with_reducible intro _
    | (apply_assumption; done)

theorem stuckHigh_keeps {sB : State} (s : State)  (hK : Keeps sB s) :
    Keeps sB (stuckHigh s) := by
  unfold stuckHigh
  repeat' first
    | with_reducible apply modStride_keeps
    | with_reducible apply bump_keeps
    | with_reducible apply raise_keeps
    | (apply_assumption; done)

theorem acceptPulse_keeps {sB : State} (s : State) (rise : Nat) (h : Bool)  (hK : Keeps sB s) :
    Keeps sB (acceptPulse s rise h) := by
  unfold acceptPulse
  repeat' first
    | with_reducible assumption
    | with_reducible apply modStride_keeps
    | with_reducible apply bump_keeps
    | with_reducible apply noteStretch_keeps
    | with_reducible apply closeHolds_keeps
    | split
    | dsimp only

theorem classify_keeps {sB : State} (s : State) (rise width : Nat)  (hK : Keeps sB s) :
    Keeps sB (classify s rise width) := by
  unfold classify
  repeat' first
    | with_reducible apply modStride_keeps
    | with_reducible apply stuckHigh_keeps
    | with_reducible apply bump_keeps
    | with_reducible apply acceptPulse_keeps
    | split
    | (apply_assumption; done)

theorem execStrideInPulse_keeps {sB : State} (rise width : Nat) (s : State)  (hK : Keeps sB s) :
    OutKeeps sB (execStrideInPulse rise width s) := by
  unfold execStrideInPulse
  repeat' first
    | with_reducible refine OutKeeps.next ?_
    | with_reducible apply classify_keeps
    | with_reducible apply modStride_keeps
    | (rw [mk_built]; with_reducible apply Keeps.built)
    | split
    | dsimp only
    | with_reducible intro _
    | (apply_assumption; done)

theorem execStrideInStuck_keeps {sB : State} (s : State)  (hK : Keeps sB s) :
    OutKeeps sB (execStrideInStuck s) := by
  unfold execStrideInStuck
  repeat' first
    | with_reducible refine OutKeeps.next ?_
    | with_reducible apply stuckHigh_keeps
    | split
    | (apply_assumption; done)

theorem execStrideInMissing_keeps {sB : State} (s : State)  (hK : Keeps sB s) :
    OutKeeps sB (execStrideInMissing s) := by
  unfold execStrideInMissing
  repeat' first
    | with_reducible refine OutKeeps.next ?_
    | with_reducible apply stepSkip_keeps
    | with_reducible apply bump_keeps
    | with_reducible apply raise_keeps
    | with_reducible apply modStride_keeps
    | with_reducible apply sendRecord_keeps
    | (rw [mk_built]; with_reducible apply Keeps.built)
    | split
    | with_reducible intro _
    | (apply_assumption; done)

theorem writeStart_keeps {sB : State} (s : State)  (hK : Keeps sB s) :
    Keeps sB (writeStart s) := by
  unfold writeStart
  repeat' first
    | with_reducible exact Keeps.refl _
    | with_reducible apply raise_keeps
    | with_reducible apply evaluateStrideWait_keeps
    | with_reducible apply modStride_keeps
    | with_reducible refine Keeps.foldl _ (fun _ _ => ?_) ?_
    | split
    | (apply_assumption; done)

theorem execStart_keeps {sB : State} (s : State)  (hK : Keeps sB s) :
    OutKeeps sB (execStart s) := by
  unfold execStart
  repeat' first
    | with_reducible refine OutKeeps.next ?_
    | with_reducible apply writeStart_keeps
    | (apply_assumption; done)

theorem writeStop_keeps {sB : State} (s : State)  (hK : Keeps sB s) :
    Keeps sB (writeStop s) := by
  unfold writeStop
  repeat' first
    | with_reducible apply modStride_keeps
    | with_reducible apply rputBit_keeps
    | with_reducible apply haltStride_keeps
    | split
    | (apply_assumption; done)

theorem execStop_keeps {sB : State} (s : State)  (hK : Keeps sB s) :
    OutKeeps sB (execStop s) := by
  unfold execStop
  repeat' first
    | with_reducible refine OutKeeps.next ?_
    | with_reducible apply writeStop_keeps
    | (apply_assumption; done)

theorem writeTiming_keeps {sB : State} (s : State) (off lo hi : Nat) (v : Word)  (hK : Keeps sB s) :
    Keeps sB (writeTiming s off lo hi v) := by
  unfold writeTiming
  repeat' first
    | with_reducible apply rput_keeps
    | with_reducible apply raise_keeps
    | split
    | dsimp only
    | (apply_assumption; done)

theorem writePeriod_keeps {sB : State} (s : State) (v : Word)  (hK : Keeps sB s) :
    Keeps sB (writePeriod s v) := by
  unfold writePeriod
  repeat' first
    | with_reducible apply writeTiming_keeps
    | (apply_assumption; done)

theorem writeTickLead_keeps {sB : State} (s : State) (v : Word)  (hK : Keeps sB s) :
    Keeps sB (writeTickLead s v) := by
  unfold writeTickLead
  repeat' first
    | with_reducible apply writeTiming_keeps
    | (apply_assumption; done)

theorem writeHoldLead_keeps {sB : State} (s : State) (v : Word)  (hK : Keeps sB s) :
    Keeps sB (writeHoldLead s v) := by
  unfold writeHoldLead
  repeat' first
    | with_reducible apply writeTiming_keeps
    | (apply_assumption; done)

theorem writeHoldBudget_keeps {sB : State} (s : State) (v : Word)  (hK : Keeps sB s) :
    Keeps sB (writeHoldBudget s v) := by
  unfold writeHoldBudget
  repeat' first
    | with_reducible apply writeTiming_keeps
    | (apply_assumption; done)

theorem execStridePeriod_keeps {sB : State} (v : Word) (s : State)  (hK : Keeps sB s) :
    OutKeeps sB (execStridePeriod v s) := by
  unfold execStridePeriod
  repeat' first
    | with_reducible refine OutKeeps.next ?_
    | with_reducible apply writePeriod_keeps
    | (apply_assumption; done)

theorem execTickLead_keeps {sB : State} (v : Word) (s : State)  (hK : Keeps sB s) :
    OutKeeps sB (execTickLead v s) := by
  unfold execTickLead
  repeat' first
    | with_reducible refine OutKeeps.next ?_
    | with_reducible apply writeTickLead_keeps
    | (apply_assumption; done)

theorem execHoldLead_keeps {sB : State} (v : Word) (s : State)  (hK : Keeps sB s) :
    OutKeeps sB (execHoldLead v s) := by
  unfold execHoldLead
  repeat' first
    | with_reducible refine OutKeeps.next ?_
    | with_reducible apply writeHoldLead_keeps
    | (apply_assumption; done)

theorem execHoldBudget_keeps {sB : State} (v : Word) (s : State)  (hK : Keeps sB s) :
    OutKeeps sB (execHoldBudget v s) := by
  unfold execHoldBudget
  repeat' first
    | with_reducible refine OutKeeps.next ?_
    | with_reducible apply writeHoldBudget_keeps
    | (apply_assumption; done)

theorem writeCount_keeps {sB : State} (s : State) (high : Bool) (v : Word)  (hK : Keeps sB s) :
    Keeps sB (writeCount s high v) := by
  unfold writeCount
  repeat' first
    | with_reducible apply modStride_keeps
    | split
    | (apply_assumption; done)

theorem execStrideCount_keeps {sB : State} (high : Bool) (v : Word) (s : State)  (hK : Keeps sB s) :
    OutKeeps sB (execStrideCount high v s) := by
  unfold execStrideCount
  repeat' first
    | with_reducible refine OutKeeps.next ?_
    | with_reducible apply writeCount_keeps
    | (apply_assumption; done)

theorem writeStrideCtrl_keeps {sB : State} (s : State) (v : Word)  (hK : Keeps sB s) :
    Keeps sB (writeStrideCtrl s v) := by
  unfold writeStrideCtrl
  repeat' first
    | with_reducible apply rputField_keeps
    | with_reducible apply writeHoldSw_keeps
    | with_reducible apply rputBit_keeps
    | with_reducible apply writeStop_keeps
    | with_reducible apply writeStart_keeps
    | split
    | (apply_assumption; done)

end Sys2Proof.Machine
end

