-- ==== Sys2Proof/Laws/KeepLedger.lean ====
section
/-!
SUPPORT. What the operations of Machine/Ledger.lean keep: the queue and the invariant.
-/
namespace Sys2Proof.Machine

theorem sampleLedger_keeps {sB : State} (s : State)  (hK : Keeps sB s) :
    Keeps sB (sampleLedger s) := by
  unfold sampleLedger
  repeat' first
    | with_reducible apply bump_keeps
    | (rw [mk_built]; with_reducible apply Keeps.built)
    | split
    | with_reducible intro _
    | (apply_assumption; done)

theorem closeStep_keeps {sB : State} (s : State)  (hK : Keeps sB s) :
    Keeps sB (closeStep s) := by
  unfold closeStep
  repeat' first
    | (rw [mk_built]; with_reducible apply Keeps.built)
    | with_reducible intro _
    | (apply_assumption; done)

theorem commitUnits_keeps {sB : State} (s : State)  (hK : Keeps sB s) :
    Keeps sB (commitUnits s) := by
  unfold commitUnits
  repeat' first
    | (rw [mk_built]; with_reducible apply Keeps.built)
    | with_reducible intro _
    | (apply_assumption; done)

theorem sendDecision_keeps {sB : State} (s : State)  (hK : Keeps sB s) :
    Keeps sB (sendDecision s) := by
  unfold sendDecision
  repeat' first
    | (rw [mk_built]; with_reducible apply Keeps.built)
    | with_reducible intro _
    | (apply_assumption; done)

theorem decide__keeps {sB : State} (s : State) (c : Contribution) (voteStride : Nat)  (hK : Keeps sB s) :
    Keeps sB (decide_ s c voteStride) := by
  unfold decide_
  repeat' first
    | with_reducible assumption
    | with_reducible apply bump_keeps
    | with_reducible apply commitUnits_keeps
    | with_reducible apply raise_keeps
    | with_reducible apply sendDecision_keeps
    | with_reducible apply stepSkip_keeps
    | with_reducible apply closeStep_keeps
    | (rw [mk_built]; with_reducible apply Keeps.built)
    | split
    | dsimp only
    | with_reducible intro _

theorem execStepClose_keeps {sB : State} (s : State)  (hK : Keeps sB s) :
    OutKeeps sB (execStepClose s) := by
  unfold execStepClose
  repeat' first
    | with_reducible refine OutKeeps.next ?_
    | with_reducible apply closeStep_keeps
    | split
    | (apply_assumption; done)

theorem decideAlone_keeps {sB : State} (s : State)  (hK : Keeps sB s) :
    Keeps sB (decideAlone s) := by
  unfold decideAlone
  repeat' first
    | with_reducible assumption
    | with_reducible apply decide__keeps
    | with_reducible apply stepSkip_keeps
    | with_reducible apply setTorn_keeps
    | (rw [mk_built]; with_reducible apply Keeps.built)
    | with_reducible intro _
    | (apply_assumption; done)

theorem writeSwSkip_keeps {sB : State} (s : State)  (hK : Keeps sB s) :
    Keeps sB (writeSwSkip s) := by
  unfold writeSwSkip
  repeat' first
    | with_reducible apply stepSkip_keeps
    | with_reducible apply bump_keeps
    | (apply_assumption; done)

theorem execSwSkip_keeps {sB : State} (s : State)  (hK : Keeps sB s) :
    OutKeeps sB (execSwSkip s) := by
  unfold execSwSkip
  repeat' first
    | with_reducible refine OutKeeps.next ?_
    | with_reducible apply writeSwSkip_keeps
    | (apply_assumption; done)

theorem writeTornClear_keeps {sB : State} (s : State)  (hK : Keeps sB s) :
    Keeps sB (writeTornClear s) := by
  unfold writeTornClear
  repeat' first
    | (rw [mk_built]; with_reducible apply Keeps.built)
    | with_reducible intro _
    | (apply_assumption; done)

theorem execTornClear_keeps {sB : State} (s : State)  (hK : Keeps sB s) :
    OutKeeps sB (execTornClear s) := by
  unfold execTornClear
  repeat' first
    | with_reducible refine OutKeeps.next ?_
    | with_reducible apply writeTornClear_keeps
    | (apply_assumption; done)

end Sys2Proof.Machine
end

