-- ==== Sys2Proof/Laws/KeepGroup.lean ====
section
/-!
SUPPORT. What the operations of Machine/Group.lean keep: the queue and the invariant.
-/
namespace Sys2Proof.Machine

theorem putRelay_keeps {sB : State} (s : State) (e : RelayId) (r : Relay)  (hK : Keeps sB s) :
    Keeps sB (putRelay s e r) := by
  unfold putRelay
  repeat' first
    | (rw [mk_built]; with_reducible apply Keeps.built)
    | with_reducible exact keysRise_tset _ _ _ _ (by assumption)
    | with_reducible intro _
    | (apply_assumption; done)

theorem peekEntry_keeps {sB : State} (s : State) (p : NauloId) (g : Fin 256)  (hK : Keeps sB s) :
    Keeps sB (peekEntry s p g).1 := by
  unfold peekEntry
  repeat' first
    | with_reducible assumption
    | with_reducible apply peekLocal_keeps
    | split
    | dsimp only

theorem loadGroup_keeps (e : RelayId) (ws : List Word)  : RunKeeps (loadGroup e ws : Run (List Word × List Nat)) := by
  unfold loadGroup
  repeat' first
    | with_reducible exact Keeps.refl _
    | with_reducible exact RunKeeps.pure _
    | with_reducible exact RunKeeps.look _
    | with_reducible apply startCopy_keeps
    | with_reducible apply readLocal_keeps
    | with_reducible apply raiseTag_keeps
    | with_reducible refine RunKeeps.needData fun _ => ?_
    | with_reducible refine RunKeeps.defectAt _ _ _ _ fun _ => ?_
    | with_reducible refine RunKeeps.iteThen ?_ fun _ => ?_
    | with_reducible refine RunKeeps.bind ?_ fun _ => ?_

theorem loseChild_keeps {sB : State} (s : State) (d : DeviceId)  (hK : Keeps sB s) :
    Keeps sB (loseChild s d) := by
  unfold loseChild
  repeat' first
    | with_reducible apply bump_keeps
    | with_reducible apply raise_keeps
    | with_reducible apply reportHold_keeps
    | (rw [mk_built]; with_reducible apply Keeps.built)
    | with_reducible intro _
    | (apply_assumption; done)

theorem groupMismatch_keeps {sB : State} (s : State) (e : RelayId) (from_ : DeviceId) (o : Occur)  (hK : Keeps sB s) :
    Keeps sB (groupMismatch s e from_ o) := by
  unfold groupMismatch
  repeat' first
    | with_reducible assumption
    | with_reducible apply rput_keeps
    | with_reducible apply raiseWith_keeps
    | split

theorem noteColl_keeps {sB : State} (s : State) (e : RelayId) (ws : List Word)  (hK : Keeps sB s) :
    Keeps sB (noteColl s e ws) := by
  unfold noteColl
  repeat' first
    | with_reducible apply rput_keeps
    | (apply_assumption; done)

theorem endColl_keeps {sB : State} (s : State) (e : RelayId) (slot : Nat) (st : Status)  (hK : Keeps sB s) :
    Keeps sB (endColl s e slot st) := by
  unfold endColl
  repeat' first
    | with_reducible apply endSlot_keeps
    | with_reducible apply bump_keeps
    | (apply_assumption; done)

theorem sendVote_keeps {sB : State} (s : State) (e : RelayId) (g : Fin 256) (dst : DeviceId) (v : Contribution)  (hK : Keeps sB s) :
    Keeps sB (sendVote s e g dst v) := by
  unfold sendVote
  repeat' first
    | with_reducible apply sendControl_keeps
    | with_reducible apply bump_keeps
    | split
    | (apply_assumption; done)

theorem sendResult_keeps {sB : State} (s : State) (e : RelayId) (g : Fin 256) (dst : DeviceId) (v : Contribution) (stride : Nat)  (hK : Keeps sB s) :
    Keeps sB (sendResult s e g dst v stride) := by
  unfold sendResult
  repeat' first
    | with_reducible apply sendControl_keeps
    | (apply_assumption; done)

theorem finishVote_keeps {sB : State} (s : State) (e : RelayId) (r : VoteRun) (v : Contribution) (stride : Nat)  (hK : Keeps sB s) :
    Keeps sB (finishVote s e r v stride) := by
  unfold finishVote
  repeat' first
    | with_reducible exact Keeps.refl _
    | with_reducible apply putRelay_keeps
    | with_reducible apply sendResult_keeps
    | with_reducible apply endColl_keeps
    | with_reducible apply decide__keeps
    | with_reducible refine Keeps.foldl _ (fun _ _ => ?_) ?_
    | (apply_assumption; done)

theorem voteUp_keeps {sB : State} (s : State) (e : RelayId) (r : VoteRun)  (hK : Keeps sB s) :
    Keeps sB (voteUp s e r) := by
  unfold voteUp
  repeat' first
    | with_reducible apply finishVote_keeps
    | with_reducible apply putRelay_keeps
    | with_reducible apply sendVote_keeps
    | split
    | dsimp only
    | (apply_assumption; done)

theorem joinVote_keeps {sB : State} (s : State) (e : RelayId) (r : VoteRun) (d : DeviceId) (v : Contribution)  (hK : Keeps sB s) :
    Keeps sB (joinVote s e r d v).1 := by
  unfold joinVote
  repeat' first
    | with_reducible apply putRelay_keeps
    | (rw [mk_built]; with_reducible apply Keeps.built)
    | with_reducible intro _
    | (apply_assumption; done)

theorem joinKept_keeps {sB : State} (s : State) (e : RelayId) (r : VoteRun)  (hK : Keeps sB s) :
    Keeps sB (joinKept s e r).1 := by
  unfold joinKept
  repeat' first
    | with_reducible assumption
    | with_reducible exact Keeps.refl _
    | with_reducible apply putRelay_keeps
    | with_reducible apply joinVote_keeps
    | with_reducible refine Keeps.foldlFst _ (fun _ _ _ => ?_) ?_

theorem startVote_keeps {sB : State} (s : State) (e : RelayId) (x : Slot)  (hK : Keeps sB s) :
    Keeps sB (startVote s e x) := by
  unfold startVote
  repeat' first
    | with_reducible assumption
    | with_reducible apply noteColl_keeps
    | with_reducible apply loadGroup_keeps
    | with_reducible apply waitSlot_keeps
    | with_reducible apply endColl_keeps
    | with_reducible apply putSlot_keeps
    | with_reducible apply sampleLedger_keeps
    | with_reducible apply joinKept_keeps
    | with_reducible apply voteUp_keeps
    | with_reducible refine Keeps.runValEq (by assumption) ?_ ?_
    | split
    | dsimp only

theorem execStepVote_keeps {sB : State} (e : RelayId) (slot : Nat) (s : State)  (hK : Keeps sB s) :
    OutKeeps sB (execStepVote e slot s) := by
  unfold execStepVote
  repeat' first
    | with_reducible exact Keeps.refl _
    | with_reducible refine OutKeeps.next ?_
    | with_reducible apply startCommand_keeps
    | with_reducible apply startVote_keeps
    | split
    | with_reducible intro _
    | (apply_assumption; done)

theorem takeVote_keeps {sB : State} (s : State) (e : RelayId) (entry : Option (List Word)) (g : Fin 256) (d : DeviceId) (v : Contribution)  (hK : Keeps sB s) :
    Keeps sB (takeVote s e entry g d v) := by
  unfold takeVote
  repeat' first
    | with_reducible apply groupMismatch_keeps
    | with_reducible apply joinVote_keeps
    | with_reducible apply voteUp_keeps
    | with_reducible apply putRelay_keeps
    | split
    | dsimp only
    | (apply_assumption; done)

theorem execVote_keeps {sB : State} (port : NauloId) (group : Fin 256) (from_ : DeviceId) (v : Contribution) (s : State)  (hK : Keeps sB s) :
    OutKeeps sB (execVote port group from_ v s) := by
  unfold execVote
  repeat' first
    | with_reducible refine OutKeeps.next ?_
    | with_reducible apply peekEntry_keeps
    | with_reducible apply takeVote_keeps
    | (apply_assumption; done)

theorem takeResult_keeps {sB : State} (s : State) (e : RelayId) (entry : Option (List Word)) (g : Fin 256) (d : DeviceId) (v : Contribution) (stride : Nat)  (hK : Keeps sB s) :
    Keeps sB (takeResult s e entry g d v stride) := by
  unfold takeResult
  repeat' first
    | with_reducible assumption
    | with_reducible exact Keeps.refl _
    | with_reducible apply finishVote_keeps
    | with_reducible apply groupMismatch_keeps
    | with_reducible apply decide__keeps
    | with_reducible apply sendResult_keeps
    | with_reducible refine Keeps.foldl _ (fun _ _ => ?_) ?_
    | split

theorem execVoteResult_keeps {sB : State} (port : NauloId) (group : Fin 256) (from_ : DeviceId) (v : Contribution) (voteStride : Nat) (s : State)  (hK : Keeps sB s) :
    OutKeeps sB (execVoteResult port group from_ v voteStride s) := by
  unfold execVoteResult
  repeat' first
    | with_reducible refine OutKeeps.next ?_
    | with_reducible apply peekEntry_keeps
    | with_reducible apply takeResult_keeps
    | (apply_assumption; done)

theorem execStandIn_keeps {sB : State} (e : RelayId) (child : DeviceId) (s : State)  (hK : Keeps sB s) :
    OutKeeps sB (execStandIn e child s) := by
  unfold execStandIn
  repeat' first
    | with_reducible refine OutKeeps.next ?_
    | with_reducible apply putRelay_keeps
    | with_reducible apply voteUp_keeps
    | with_reducible apply loseChild_keeps
    | with_reducible apply bump_keeps
    | (rw [mk_built]; with_reducible apply Keeps.built)
    | split
    | with_reducible intro _
    | (apply_assumption; done)

theorem execVoteResultLost_keeps {sB : State} (e : RelayId) (s : State)  (hK : Keeps sB s) :
    OutKeeps sB (execVoteResultLost e s) := by
  unfold execVoteResultLost
  repeat' first
    | with_reducible refine OutKeeps.next ?_
    | with_reducible apply putRelay_keeps
    | with_reducible apply endColl_keeps
    | with_reducible apply decideAlone_keeps
    | with_reducible apply raiseTag_keeps
    | (rw [mk_built]; with_reducible apply Keeps.built)
    | split
    | with_reducible intro _
    | (apply_assumption; done)

end Sys2Proof.Machine
end

