-- ==== Sys2Proof/Laws/KeepMemory.lean ====
section
/-!
SUPPORT. What the operations of Machine/Memory.lean keep: the queue and the invariant.
-/
namespace Sys2Proof.Machine

theorem serveLocal_keeps {sB : State} (s : State) (r : Req) (a : Nat) (y0 : Access)  (hK : Keeps sB s) :
    Keeps sB (serveLocal s r a y0).1 := by
  unfold serveLocal
  repeat' first
    | with_reducible apply readLocal_keeps
    | with_reducible apply writeLocal_keeps
    | split
    | (apply_assumption; done)

theorem takeRequest_keeps {sB : State} (s : State) (r : Req) (a : Nat) (acc : Access)  (hK : Keeps sB s) :
    Keeps sB (takeRequest s r a acc) := by
  unfold takeRequest
  repeat' first
    | with_reducible assumption
    | with_reducible apply serveLocal_keeps
    | with_reducible apply holdReq_keeps
    | with_reducible apply respond_keeps
    | split

theorem execCoreMemoryRequest_keeps {sB : State} (c : CoreId) (m : CoreMem) (who : Block) (tag : Tag) (offset : Nat) (a : Access) (s : State)  (hK : Keeps sB s) :
    OutKeeps sB (execCoreMemoryRequest c m who tag offset a s) := by
  unfold execCoreMemoryRequest
  repeat' first
    | with_reducible assumption
    | with_reducible refine OutKeeps.next ?_
    | with_reducible apply respond_keeps
    | with_reducible apply raiseAtRequester_keeps
    | with_reducible apply takeRequest_keeps
    | split

theorem execPatrolRead_keeps {sB : State} (c : CoreId) (m : CoreMem) (s : State)  (hK : Keeps sB s) :
    OutKeeps sB (execPatrolRead c m s) := by
  unfold execPatrolRead
  repeat' first
    | with_reducible refine OutKeeps.next ?_
    | with_reducible apply rput_keeps
    | with_reducible apply bump_keeps
    | with_reducible apply parityError_keeps
    | split
    | dsimp only
    | (apply_assumption; done)

theorem writeParityInject_keeps {sB : State} (s : State) (c : CoreId) (m : CoreMem) (v : Word)  (hK : Keeps sB s) :
    Keeps sB (writeParityInject s c m v) := by
  unfold writeParityInject
  repeat' first
    | with_reducible apply rputField_keeps
    | with_reducible apply rputBit_keeps
    | split
    | (apply_assumption; done)

theorem execParityInject_keeps {sB : State} (c : CoreId) (m : CoreMem) (v : Word) (s : State)  (hK : Keeps sB s) :
    OutKeeps sB (execParityInject c m v s) := by
  unfold execParityInject
  repeat' first
    | with_reducible refine OutKeeps.next ?_
    | with_reducible apply writeParityInject_keeps
    | (apply_assumption; done)

theorem landWrites_keeps {sB : State} (s : State) (c : CoreId) (m : CoreMem) (k : Nat)  (hK : Keeps sB s) :
    Keeps sB (landWrites s c m k) := by
  unfold landWrites
  repeat' first
    | with_reducible assumption
    | with_reducible exact Keeps.refl _
    | with_reducible apply coreWrite_keeps
    | with_reducible apply putSeg_keeps
    | with_reducible refine Keeps.foldl _ (fun _ _ => ?_) ?_

theorem writeSegBit_keeps {sB : State} (s : State) (c : CoreId) (m : CoreMem) (k : Nat) (v : Bool)  (hK : Keeps sB s) :
    Keeps sB (writeSegBit s c m k v) := by
  unfold writeSegBit
  repeat' first
    | with_reducible assumption
    | with_reducible apply raise_keeps
    | with_reducible apply rputBit_keeps
    | with_reducible apply putSeg_keeps
    | with_reducible apply landWrites_keeps
    | split
    | dsimp only

theorem writeSegOff_keeps {sB : State} (s : State) (c : CoreId) (m : CoreMem) (v : Word)  (hK : Keeps sB s) :
    Keeps sB (writeSegOff s c m v) := by
  unfold writeSegOff
  repeat' first
    | with_reducible exact Keeps.refl _
    | with_reducible apply writeSegBit_keeps
    | with_reducible refine Keeps.foldl _ (fun _ _ => ?_) ?_
    | (apply_assumption; done)

theorem writeAhead_keeps {sB : State} (s0 : State) (c : CoreId) (m : CoreMem) (s : State) (x : Block × Tag × Nat × List Byte)  (hK : Keeps sB s) :
    Keeps sB (writeAhead s0 c m s x) := by
  unfold writeAhead
  repeat' first
    | with_reducible assumption
    | with_reducible apply respond_keeps
    | with_reducible apply putSeg_keeps
    | with_reducible apply fencedAnswer_keeps
    | with_reducible apply takeRequest_keeps
    | split
    | dsimp only

theorem execSegOff_keeps {sB : State} (c : CoreId) (m : CoreMem) (v : Word) (ahead : List (Block × Tag × Nat × List Byte)) (s : State)  (hK : Keeps sB s) :
    OutKeeps sB (execSegOff c m v ahead s) := by
  unfold execSegOff
  repeat' first
    | with_reducible assumption
    | with_reducible exact Keeps.refl _
    | with_reducible refine OutKeeps.next ?_
    | with_reducible apply writeAhead_keeps
    | with_reducible apply writeSegOff_keeps
    | with_reducible refine Keeps.foldl _ (fun _ _ => ?_) ?_

theorem execDrainComplete_keeps {sB : State} (c : CoreId) (m : CoreMem) (seg : Fin 11) (s : State)  (hK : Keeps sB s) :
    OutKeeps sB (execDrainComplete c m seg s) := by
  unfold execDrainComplete
  repeat' first
    | with_reducible assumption
    | with_reducible refine OutKeeps.next ?_
    | with_reducible apply landWrites_keeps
    | with_reducible apply bump_keeps
    | with_reducible apply putSeg_keeps
    | split

theorem execWakeComplete_keeps {sB : State} (c : CoreId) (m : CoreMem) (seg : Fin 11) (s : State)  (hK : Keeps sB s) :
    OutKeeps sB (execWakeComplete c m seg s) := by
  unfold execWakeComplete
  repeat' first
    | with_reducible refine OutKeeps.next ?_
    | with_reducible apply zeroRange_keeps
    | with_reducible apply putSeg_keeps
    | split
    | (apply_assumption; done)

theorem larderReadBlock_keeps {sB : State} (s : State) (d : LarderId) (who : Block) (cls : SvcClass) (off n : Nat)  (hK : Keeps sB s) :
    Keeps sB (larderReadBlock s d who cls off n) := by
  unfold larderReadBlock
  repeat' first
    | with_reducible assumption
    | with_reducible apply bump_keeps
    | with_reducible apply serveEntry_keeps
    | with_reducible apply arrive_keeps
    | with_reducible apply respond_keeps
    | with_reducible apply noteServed_keeps
    | (rw [mk_built]; with_reducible apply Keeps.built)
    | with_reducible rfl
    | split
    | dsimp only
    | with_reducible intro _

theorem execLarderRead_keeps {sB : State} (d : LarderId) (who : Block) (cls : SvcClass) (offset bytes : Nat) (s : State)  (hK : Keeps sB s) :
    OutKeeps sB (execLarderRead d who cls offset bytes s) := by
  unfold execLarderRead
  repeat' first
    | with_reducible assumption
    | with_reducible exact Keeps.refl _
    | with_reducible refine OutKeeps.next ?_
    | with_reducible apply respond_keeps
    | with_reducible apply raiseAtRequester_keeps
    | with_reducible apply holdReq_keeps
    | with_reducible apply timedOut_keeps
    | with_reducible apply fencedAnswer_keeps
    | with_reducible apply larderReadBlock_keeps
    | with_reducible apply travel_keeps
    | with_reducible refine Keeps.foldl _ (fun _ _ => ?_) ?_
    | split

theorem execLarderWrite_keeps {sB : State} (d : LarderId) (who : Block) (cls : SvcClass) (offset : Nat) (data : List Byte) (s : State)  (hK : Keeps sB s) :
    OutKeeps sB (execLarderWrite d who cls offset data s) := by
  unfold execLarderWrite
  repeat' first
    | with_reducible assumption
    | with_reducible refine OutKeeps.next ?_
    | with_reducible apply respond_keeps
    | with_reducible apply raiseAtRequester_keeps
    | with_reducible apply takeRequest_keeps
    | split

theorem execMergeWait_keeps {sB : State} (d : LarderId) (block : Nat) (s : State)  (hK : Keeps sB s) :
    OutKeeps sB (execMergeWait d block s) := by
  unfold execMergeWait
  repeat' first
    | with_reducible refine OutKeeps.next ?_
    | with_reducible apply serveEntry_keeps
    | split
    | (apply_assumption; done)

theorem execLarderScrub_keeps {sB : State} (d : LarderId) (s : State)  (hK : Keeps sB s) :
    OutKeeps sB (execLarderScrub d s) := by
  unfold execLarderScrub
  repeat' first
    | with_reducible refine OutKeeps.next ?_
    | with_reducible apply larderWords_keeps
    | with_reducible apply bump_keeps
    | with_reducible apply rput_keeps
    | split
    | (apply_assumption; done)

theorem hbmServe_keeps {sB : State} (s : State) (r : Req) (a : Nat) (acc : Access)  (hK : Keeps sB s) :
    Keeps sB (hbmServe s r a acc) := by
  unfold hbmServe
  repeat' first
    | with_reducible assumption
    | with_reducible apply takeRequest_keeps
    | with_reducible apply respond_keeps
    | with_reducible apply raiseAtRequester_keeps
    | split

theorem execHbmRequest_keeps {sB : State} (who : Block) (tag : Tag) (cls : SvcClass) (addr : Nat) (a : Access) (s : State)  (hK : Keeps sB s) :
    OutKeeps sB (execHbmRequest who tag cls addr a s) := by
  unfold execHbmRequest
  repeat' first
    | with_reducible assumption
    | with_reducible refine OutKeeps.next ?_
    | with_reducible apply hbmServe_keeps

theorem scrubArrival_keeps {sB : State} (s : State) (st : StackId) (pc : Fin 32) (a : Nat)  (hK : Keeps sB s) :
    Keeps sB (scrubArrival s st pc a).1 := by
  unfold scrubArrival
  repeat' first
    | with_reducible assumption
    | with_reducible apply settleWaits_keeps
    | with_reducible apply noteServed_keeps
    | with_reducible apply forgetNotice_keeps
    | with_reducible apply arrive_keeps
    | split
    | dsimp only

theorem execHbmScrub_keeps {sB : State} (st : StackId) (s : State)  (hK : Keeps sB s) :
    OutKeeps sB (execHbmScrub st s) := by
  unfold execHbmScrub
  repeat' first
    | with_reducible assumption
    | with_reducible refine OutKeeps.next ?_
    | with_reducible apply rput_keeps
    | with_reducible apply scrubArrival_keeps
    | with_reducible apply hbmBlock_keeps
    | with_reducible apply bump_keeps
    | with_reducible refine Keeps.fst ?_ (by assumption)
    | split
    | dsimp only

theorem startRetire_keeps {sB : State} (s : State) (st : StackId) (pc : Fin 32)  (hK : Keeps sB s) :
    Keeps sB (startRetire s st pc) := by
  unfold startRetire
  repeat' first
    | with_reducible assumption
    | with_reducible apply rput_keeps
    | (rw [mk_built]; with_reducible apply Keeps.built)
    | with_reducible rfl
    | split
    | dsimp only
    | with_reducible intro _

theorem execPcRetire_keeps {sB : State} (s_ : StackId) (pc : Fin 32) (s : State)  (hK : Keeps sB s) :
    OutKeeps sB (execPcRetire s_ pc s) := by
  unfold execPcRetire
  repeat' first
    | with_reducible refine OutKeeps.next ?_
    | with_reducible apply startRetire_keeps
    | (apply_assumption; done)

theorem pcDone_keeps {sB : State} (s : State) (st : StackId)  (hK : Keeps sB s) :
    Keeps sB (pcDone s st) := by
  unfold pcDone
  repeat' first
    | with_reducible assumption
    | with_reducible apply finishRetire_keeps
    | (rw [mk_built]; with_reducible apply Keeps.built)
    | with_reducible rfl
    | split
    | dsimp only
    | with_reducible intro _

theorem execStackTemp_keeps {sB : State} (st : StackId) (temp : BitVec 16) (corrections : Nat) (trip : Bool) (s : State)  (hK : Keeps sB s) :
    OutKeeps sB (execStackTemp st temp corrections trip s) := by
  unfold execStackTemp
  repeat' first
    | with_reducible assumption
    | with_reducible refine OutKeeps.next ?_
    | with_reducible apply bump_keeps
    | with_reducible apply rput_keeps
    | with_reducible apply raise_keeps
    | split

theorem execRefresh_keeps {sB : State} (st : StackId) (parityFails : Fin 3) (s : State)  (hK : Keeps sB s) :
    OutKeeps sB (execRefresh st parityFails s) := by
  unfold execRefresh
  repeat' first
    | with_reducible assumption
    | with_reducible refine OutKeeps.next ?_
    | with_reducible apply bump_keeps
    | with_reducible apply raise_keeps
    | split

theorem checkSpares_keeps {sB : State} (s : State) (st : StackId)  (hK : Keeps sB s) :
    Keeps sB (checkSpares s st) := by
  unfold checkSpares
  repeat' first
    | with_reducible apply raise_keeps
    | with_reducible apply rputField_keeps
    | split
    | dsimp only
    | (apply_assumption; done)

theorem writeSpare_keeps {sB : State} (s : State) (st : StackId) (off : Nat) (v : Word)  (hK : Keeps sB s) :
    Keeps sB (writeSpare s st off v) := by
  unfold writeSpare
  repeat' first
    | with_reducible apply checkSpares_keeps
    | with_reducible apply rputField_keeps
    | with_reducible apply rwrite_keeps
    | split
    | dsimp only
    | (apply_assumption; done)

theorem execSpareSlots_keeps {sB : State} (st : StackId) (offset : Nat) (v : Word) (s : State)  (hK : Keeps sB s) :
    OutKeeps sB (execSpareSlots st offset v s) := by
  unfold execSpareSlots
  repeat' first
    | with_reducible refine OutKeeps.next ?_
    | with_reducible apply writeSpare_keeps
    | (apply_assumption; done)

theorem addOverflow_keeps {sB : State} (s : State) (r : Req) (b : Block) (a : Nat)  (hK : Keeps sB s) :
    Keeps sB (addOverflow s r b a) := by
  unfold addOverflow
  repeat' first
    | with_reducible assumption
    | with_reducible apply rput_keeps
    | with_reducible apply raiseWith_keeps
    | with_reducible apply bump_keeps
    | split

theorem addPiece_keeps {sB : State} (s : State) (r : Req) (b : Block) (fmt sz a : Nat) (old new : List Byte)  (hK : Keeps sB s) :
    Keeps sB (addPiece s r b fmt sz a old new).1 := by
  unfold addPiece
  repeat' first
    | with_reducible exact Keeps.refl _
    | with_reducible apply bump_keeps
    | with_reducible apply addOverflow_keeps
    | with_reducible refine Keeps.fst ?_ (by assumption)
    | with_reducible refine Keeps.foldlFst _ (fun _ _ _ => ?_) ?_
    | split
    | (apply_assumption; done)

theorem addWritten_keeps {sB : State} (st : StackId) (x : State × Status) (hK : Keeps sB x.1) :
    Keeps sB (addWritten st x).1 := by
  obtain ⟨s, st⟩ := x
  cases st <;> first | exact hK | exact bump_keeps _ _ _ _ hK

theorem addRead_keeps {sB : State} (r : Req) (fmt sz : Nat) (st : StackId) (pc : Fin 32) (off a : Nat)
    (data : List Byte) (x : State × Status × List Byte) (hK : Keeps sB x.1) :
    Keeps sB (addRead r fmt sz st pc off a data x).1 := by
  obtain ⟨s, x, old⟩ := x
  cases x <;> first
    | exact hK
    | exact bump_keeps _ _ _ _ hK
    | exact addWritten_keeps _ _ (hbmWrite_keeps _ _ _ _ _ _ _ (addPiece_keeps _ _ _ _ _ _ _ _ hK))

theorem addBlock_keeps {sB : State} (s : State) (r : Req) (fmt sz a : Nat) (data : List Byte) (hK : Keeps sB s) :
    Keeps sB (addBlock s r fmt sz a data).1 := by
  unfold addBlock
  generalize placeOf s a = pl
  cases pl with
  | hbm st pc off => exact addRead_keeps _ _ _ _ _ _ _ _ _ (hbmRead_keeps _ _ _ _ _ _ _ hK)
  | _ => exact hK

theorem addBlocks_keeps {sB : State} (s : State) (r : Req) (fmt sz : Nat) (l : List (Nat × Nat)) (data : List Byte)
    (hK : Keeps sB s) : Keeps sB (addBlocks s r fmt sz l data).1 := by
  induction l generalizing s data with
  | nil => exact hK
  | cons p t ih =>
    obtain ⟨a, n⟩ := p
    unfold addBlocks
    have h1 := addBlock_keeps s r fmt sz a (data.take n) hK
    generalize addBlock s r fmt sz a (data.take n) = q at h1 ⊢
    obtain ⟨s1, x⟩ := q
    exact ih s1 (data.drop n) h1

theorem addArrived_keeps {sB : State} (s : State) (r : Req) (a fmt : Nat) (data : List Byte)  (hK : Keeps sB s) :
    Keeps sB (addArrived s r a fmt data).1 := by
  unfold addArrived
  repeat' first
    | with_reducible assumption
    | with_reducible apply arrive_keeps
    | with_reducible apply waitsHere_keeps
    | with_reducible apply noteServed_keeps
    | with_reducible apply forgetNotice_keeps
    | with_reducible apply checkPieces_keeps
    | with_reducible apply addBlocks_keeps
    | with_reducible refine Keeps.fst ?_ (by assumption)
    | split
    | dsimp only

theorem memoryAdd_keeps {sB : State} (s : State) (r : Req) (a fmt : Nat) (data : List Byte)  (hK : Keeps sB s) :
    Keeps sB (memoryAdd s r a fmt data).1 := by
  unfold memoryAdd
  repeat' first
    | with_reducible assumption
    | with_reducible apply fencedAnswer_keeps
    | with_reducible apply bump_keeps
    | with_reducible apply raiseWith_keeps
    | with_reducible apply addArrived_keeps
    | with_reducible apply travel_keeps
    | with_reducible apply lapses_keeps
    | with_reducible apply timedOut_keeps
    | with_reducible refine Keeps.fst ?_ (by assumption)
    | split
    | dsimp only

theorem execMemorySideAdd_keeps {sB : State} (e : RelayId) (tag : Tag) (cls : SvcClass) (addr : Nat) (fmt : Fin 16) (data : List Byte) (s : State)  (hK : Keeps sB s) :
    OutKeeps sB (execMemorySideAdd e tag cls addr fmt data s) := by
  unfold execMemorySideAdd
  repeat' first
    | with_reducible assumption
    | with_reducible refine OutKeeps.next ?_
    | with_reducible apply bump_keeps
    | with_reducible apply memoryAdd_keeps
    | with_reducible apply holdReq_keeps
    | with_reducible apply respond_keeps
    | with_reducible refine Keeps.fst ?_ (by assumption)
    | split

theorem issueCxl_keeps {sB : State} (s : State) (q : CxlReq)  (hK : Keeps sB s) :
    Keeps sB (issueCxl s q) := by
  unfold issueCxl
  repeat' first
    | with_reducible assumption
    | with_reducible apply emit_keeps
    | with_reducible apply bump_keeps
    | (rw [mk_built]; with_reducible apply Keeps.built)
    | with_reducible rfl
    | split
    | with_reducible intro _

theorem pumpCxl_keeps {sB : State} (s : State) (p : CxlId) (y0 : Nat)  (hK : Keeps sB s) :
    Keeps sB (pumpCxl s p y0) := by
  induction y0 generalizing s with
  | zero =>
  unfold pumpCxl
  repeat' first
    | (apply_assumption; done)
  | succ n ih =>
  unfold pumpCxl
  repeat' first
    | with_reducible apply ih
    | with_reducible apply issueCxl_keeps
    | split
    | (apply_assumption; done)

theorem answerCxl_keeps {sB : State} (s : State) (w : Nat)  (hK : Keeps sB s) :
    Keeps sB (answerCxl s w) := by
  unfold answerCxl
  repeat' first
    | with_reducible assumption
    | with_reducible apply bump_keeps
    | with_reducible apply respond_keeps
    | (rw [mk_built]; with_reducible apply Keeps.built)
    | with_reducible rfl
    | split
    | dsimp only
    | with_reducible intro _

theorem doneCxl_keeps {sB : State} (s : State) (q : CxlReq) (x : Status × List Byte)  (hK : Keeps sB s) :
    Keeps sB (doneCxl s q x) := by
  unfold doneCxl
  repeat' first
    | with_reducible apply answerCxl_keeps
    | (rw [mk_built]; with_reducible apply Keeps.built)
    | with_reducible intro _
    | (apply_assumption; done)

theorem splitCxl_keeps {sB : State} (s : State) (p : CxlId) (who : Block) (tag : Tag) (cls : SvcClass) (offset : Nat) (a : Access)  (hK : Keeps sB s) :
    Keeps sB (splitCxl s p who tag cls offset a) := by
  unfold splitCxl
  repeat' first
    | with_reducible assumption
    | with_reducible apply pumpCxl_keeps
    | (rw [mk_built]; with_reducible apply Keeps.built)
    | with_reducible rfl
    | with_reducible intro _

theorem execCxlRequest_keeps {sB : State} (p : CxlId) (who : Block) (tag : Tag) (cls : SvcClass) (offset : Nat) (a : Access) (s : State)  (hK : Keeps sB s) :
    OutKeeps sB (execCxlRequest p who tag cls offset a s) := by
  unfold execCxlRequest
  repeat' first
    | with_reducible assumption
    | with_reducible refine OutKeeps.next ?_
    | with_reducible apply respond_keeps
    | with_reducible apply raiseAtRequester_keeps
    | with_reducible apply holdReq_keeps
    | with_reducible apply timedOut_keeps
    | with_reducible apply fencedAnswer_keeps
    | with_reducible apply arrive_keeps
    | with_reducible apply splitCxl_keeps
    | with_reducible apply travel_keeps
    | with_reducible apply noteServed_keeps
    | split
    | dsimp only

theorem cxlReadDone_keeps {sB : State} (s : State) (q : CxlReq) (poison : Bool) (data : List Byte)  (hK : Keeps sB s) :
    Keeps sB (cxlReadDone s q poison data).1 := by
  unfold cxlReadDone
  repeat' first
    | with_reducible assumption
    | with_reducible apply expanderPoison_keeps
    | with_reducible apply putBytes_keeps
    | (rw [mk_built]; with_reducible apply Keeps.built)
    | with_reducible rfl
    | split
    | with_reducible intro _

theorem cxlWriteDone_keeps {sB : State} (s : State) (q : CxlReq) (d : List Byte)  (hK : Keeps sB s) :
    Keeps sB (cxlWriteDone s q d) := by
  unfold cxlWriteDone
  repeat' first
    | with_reducible apply putBytes_keeps
    | (rw [mk_built]; with_reducible apply Keeps.built)
    | split
    | with_reducible intro _
    | (apply_assumption; done)

theorem expanderAnswer_keeps {sB : State} (s : State) (p : CxlId) (xid : Nat) (late poison : Bool) (devLoad : Fin 4) (data : List Byte)  (hK : Keeps sB s) :
    Keeps sB (expanderAnswer s p xid late poison devLoad data) := by
  unfold expanderAnswer
  repeat' first
    | with_reducible assumption
    | with_reducible apply rput_keeps
    | with_reducible apply bump_keeps
    | with_reducible apply cxlReadDone_keeps
    | with_reducible apply cxlWriteDone_keeps
    | with_reducible apply pumpCxl_keeps
    | with_reducible apply doneCxl_keeps
    | (rw [mk_built]; with_reducible apply Keeps.built)
    | with_reducible rfl
    | split
    | with_reducible intro _

theorem abortCxl_keeps {sB : State} (s : State) (p : CxlId)  (hK : Keeps sB s) :
    Keeps sB (abortCxl s p) := by
  unfold abortCxl
  repeat' first
    | with_reducible exact Keeps.refl _
    | with_reducible apply doneCxl_keeps
    | with_reducible refine Keeps.foldl _ (fun _ _ => ?_) ?_
    | (apply_assumption; done)

theorem cxlDown_keeps {sB : State} (s : State) (p : CxlId)  (hK : Keeps sB s) :
    Keeps sB (cxlDown s p) := by
  unfold cxlDown
  repeat' first
    | with_reducible apply abortCxl_keeps
    | with_reducible apply rputBit_keeps
    | (apply_assumption; done)

theorem cxlLost_keeps {sB : State} (s : State) (p : CxlId)  (hK : Keeps sB s) :
    Keeps sB (cxlLost s p) := by
  unfold cxlLost
  repeat' first
    | with_reducible assumption
    | with_reducible apply sendRecord_keeps
    | with_reducible apply bump_keeps
    | with_reducible apply raise_keeps
    | with_reducible apply cxlDown_keeps
    | split

theorem trainCxl_keeps {sB : State} (s : State) (p : CxlId) (t : LinkTrain) (capacity : Nat) (expId : Word)  (hK : Keeps sB s) :
    Keeps sB (trainCxl s p t capacity expId) := by
  unfold trainCxl
  repeat' first
    | with_reducible apply cxlDown_keeps
    | with_reducible apply rputBit_keeps
    | with_reducible apply rput_keeps
    | with_reducible apply raise_keeps
    | split
    | dsimp only
    | (apply_assumption; done)

theorem execExpEvent_keeps {sB : State} (p : CxlId) (s : State)  (hK : Keeps sB s) :
    OutKeeps sB (execExpEvent p s) := by
  unfold execExpEvent
  repeat' first
    | with_reducible refine OutKeeps.next ?_
    | with_reducible apply raise_keeps
    | (apply_assumption; done)

theorem clearSvc_keeps {sB : State} (s : State) (b : Block)  (hK : Keeps sB s) :
    Keeps sB (clearSvc s b) := by
  unfold clearSvc
  repeat' first
    | with_reducible exact Keeps.refl _
    | with_reducible apply rput_keeps
    | with_reducible refine Keeps.foldl _ (fun _ _ => ?_) ?_
    | split
    | (apply_assumption; done)

theorem execSvcClear_keeps {sB : State} (b : Block) (s : State)  (hK : Keeps sB s) :
    OutKeeps sB (execSvcClear b s) := by
  unfold execSvcClear
  repeat' first
    | with_reducible refine OutKeeps.next ?_
    | with_reducible apply clearSvc_keeps
    | (apply_assumption; done)

end Sys2Proof.Machine
end

