-- ==== Sys2Proof/Laws/KeepRelay.lean ====
section
/-!
SUPPORT. What the operations of Machine/Relay.lean keep: the queue and the invariant.
-/
namespace Sys2Proof.Machine

theorem readFlat_keeps (r : Req) (d : Desc) (e0 n : Nat)  : RunKeeps (readFlat r d e0 n : Run (List Nat)) := by
  unfold readFlat
  repeat' first
    | with_reducible exact RunKeeps.pure _
    | with_reducible apply readCodes_keeps
    | with_reducible refine RunKeeps.bind ?_ fun _ => ?_
    | with_reducible refine RunKeeps.foldlM _ _ fun _ _ => ?_

theorem writeFlat_keeps (r : Req) (d : Desc) (e0 : Nat) (codes : List Nat)  : RunKeeps (writeFlat r d e0 codes : Run Unit) := by
  unfold writeFlat
  repeat' first
    | with_reducible apply writeCodes_keeps
    | with_reducible refine RunKeeps.forM _ fun _ => ?_

theorem addRequests_keeps {sB : State} (e : RelayId) (r : Req) (code : Nat) (y0 : List (Nat × Nat)) (y1 : List Byte) (y2 : State)  (hK : Keeps sB y2) :
    Keeps sB (addRequests e r code y0 y1 y2).1 := by
  induction y0 generalizing y1 y2 with
  | nil =>
  unfold addRequests
  repeat' first
    | with_reducible assumption
  | cons a l ih =>
  unfold addRequests
  repeat' first
    | with_reducible assumption
    | with_reducible apply ih
    | with_reducible apply bump_keeps
    | with_reducible apply memoryAdd_keeps
    | with_reducible apply raiseAtRequester_keeps
    | with_reducible apply remoteRequest_keeps
    | split


theorem addFlat_keeps (e : RelayId) (r : Req) (d : Desc) (e0 : Nat) (codes : List Nat)  : RunKeeps (addFlat e r d e0 codes : Run Unit) := by
  unfold addFlat
  repeat' first
    | with_reducible exact Keeps.refl _
    | with_reducible apply addRequests_keeps
    | with_reducible refine RunKeeps.need fun _ => ?_
    | with_reducible refine RunKeeps.forM _ fun _ => ?_

theorem loadRole_keeps (e : RelayId) (ws : List Word) (i : Nat)  : RunKeeps (loadRole e ws i : Run (List Word)) := by
  unfold loadRole
  repeat' first
    | with_reducible exact RunKeeps.pure _
    | with_reducible apply loadDesc_keeps
    | with_reducible refine RunKeeps.bind ?_ fun _ => ?_
    | split

theorem loadColl_keeps (e : RelayId) (x : Slot)  : RunKeeps (loadColl e x : Run CollRun) := by
  unfold loadColl
  repeat' first
    | with_reducible exact RunKeeps.pure _
    | with_reducible exact RunKeeps.look _
    | with_reducible apply loadGroup_keeps
    | with_reducible apply engineDefect_keeps
    | with_reducible apply loadRole_keeps
    | with_reducible refine RunKeeps.bind ?_ fun _ => ?_
    | with_reducible refine RunKeeps.mapM _ fun _ => ?_
    | split
    | dsimp only

theorem nextXid_keeps {sB : State} (s : State)  (hK : Keeps sB s) :
    Keeps sB (nextXid s) := by
  unfold nextXid
  repeat' first
    | (rw [mk_built]; with_reducible apply Keeps.built)
    | with_reducible intro _
    | (apply_assumption; done)

theorem sendSegment_keeps {sB : State} (s : State) (e : RelayId) (q : SentSeg)  (hK : Keeps sB s) :
    Keeps sB (sendSegment s e q).1 := by
  unfold sendSegment
  repeat' first
    | with_reducible assumption
    | with_reducible apply bump_keeps
    | with_reducible apply sendPacket_keeps
    | with_reducible apply passFlits_keeps
    | with_reducible refine Keeps.fst ?_ (by assumption)
    | split
    | dsimp only

theorem orPoison_keeps {α : Type} (x : Run α) (hx : RunKeeps x) : RunKeeps (orPoison x : Run (Option α)) := by
  unfold orPoison
  repeat' first
    | with_reducible exact RunKeeps.pure _
    | with_reducible exact RunKeeps.throw _
    | with_reducible refine RunKeeps.bind ?_ fun _ => ?_
    | with_reducible refine RunKeeps.tryCatch ?_ fun _ => ?_
    | split
    | (apply_assumption; done)

theorem segData_keeps (r : Req) (o : OutSeg)  : RunKeeps (segData r o : Run (Option (List Byte))) := by
  unfold segData
  repeat' first
    | with_reducible exact Keeps.refl _
    | with_reducible exact RunKeeps.pure _
    | with_reducible apply orPoison_keeps
    | with_reducible apply gRead_keeps
    | with_reducible refine RunKeeps.needData fun _ => ?_
    | split

theorem placePiece_keeps (r : Req) (c : CollRun) (off : Nat) (data : List Byte)  : RunKeeps (placePiece r c off data : Run CollRun) := by
  unfold placePiece
  repeat' first
    | with_reducible exact Keeps.refl _
    | with_reducible exact RunKeeps.pure _
    | with_reducible apply gWrite_keeps
    | with_reducible refine RunKeeps.need fun _ => ?_
    | with_reducible refine RunKeeps.bind ?_ fun _ => ?_

theorem takePiece_keeps (e : RelayId) (x : Slot) (c : CollRun) (off : Nat) (poisoned : Bool) (data : List Byte)  : RunKeeps (takePiece e x c off poisoned data : Run CollRun) := by
  unfold takePiece
  repeat' first
    | with_reducible exact Keeps.refl _
    | with_reducible exact RunKeeps.pure _
    | with_reducible apply raiseTag_keeps
    | with_reducible apply gWrite_keeps
    | with_reducible apply rput_keeps
    | with_reducible apply placePiece_keeps
    | with_reducible refine RunKeeps.act fun _ => ?_
    | with_reducible refine RunKeeps.need fun _ => ?_
    | with_reducible refine RunKeeps.bind ?_ fun _ => ?_
    | split
    | dsimp only

theorem blockRead_keeps (e : RelayId) (x : Slot) (c : CollRun) (i : Nat)  : RunKeeps (blockRead e x c i : Run CollRun) := by
  unfold blockRead
  repeat' first
    | with_reducible exact Keeps.refl _
    | with_reducible apply gRead_keeps
    | with_reducible apply placePiece_keeps
    | with_reducible refine RunKeeps.needData fun _ => ?_
    | with_reducible refine RunKeeps.bind ?_ fun _ => ?_
    | with_reducible refine RunKeeps.foldlM _ _ fun _ _ => ?_

theorem pumpColl_keeps (e : RelayId) (x : Slot) (y0 : Nat) (y1 : CollRun)  : RunKeeps (pumpColl e x y0 y1 : Run CollRun) := by
  induction y0 generalizing y1 with
  | zero =>
  unfold pumpColl
  repeat' first
    | with_reducible exact RunKeeps.pure _
  | succ n ih =>
  unfold pumpColl
  repeat' first
    | with_reducible assumption
    | with_reducible exact Keeps.refl _
    | with_reducible apply ih
    | with_reducible exact RunKeeps.pure _
    | with_reducible exact RunKeeps.look _
    | with_reducible apply segData_keeps
    | with_reducible apply blockRead_keeps
    | with_reducible apply takePiece_keeps
    | with_reducible apply sendSegment_keeps
    | with_reducible apply nextXid_keeps
    | with_reducible refine RunKeeps.act fun _ => ?_
    | with_reducible refine RunKeeps.need fun _ => ?_
    | with_reducible refine RunKeeps.bind ?_ fun _ => ?_
    | (rw [mk_built]; with_reducible apply Keeps.built)
    | with_reducible rfl
    | split
    | with_reducible intro _


theorem placeResult_keeps (e : RelayId) (x : Slot) (c : CollRun) (e0 : Nat) (poisoned : Bool) (codes : List Nat)  : RunKeeps (placeResult e x c e0 poisoned codes : Run CollRun) := by
  unfold placeResult
  repeat' first
    | with_reducible exact RunKeeps.pure _
    | with_reducible apply addFlat_keeps
    | with_reducible apply writeFlat_keeps
    | with_reducible refine RunKeeps.bind ?_ fun _ => ?_
    | split
    | dsimp only

theorem spread_keeps (e : RelayId) (x : Slot) (c : CollRun) (e0 n : Nat) (poisoned : Bool) (codes : List Nat)  : RunKeeps (spread e x c e0 n poisoned codes : Run CollRun) := by
  unfold spread
  repeat' first
    | with_reducible exact RunKeeps.pure _
    | with_reducible apply placeResult_keeps
    | split
    | dsimp only

theorem localParts_keeps (e : RelayId) (x : Slot) (c : CollRun) (e0 n : Nat)  : RunKeeps (localParts e x c e0 n : Run (List (List Nat))) := by
  unfold localParts
  repeat' first
    | with_reducible apply readFlat_keeps
    | with_reducible refine RunKeeps.mapM _ fun _ => ?_

theorem reduceChunk_keeps (e : RelayId) (x : Slot) (c : CollRun) (parts : List Segment) (n : Nat)  : RunKeeps (reduceChunk e x c parts n : Run CollRun) := by
  unfold reduceChunk
  repeat' first
    | with_reducible exact Keeps.refl _
    | with_reducible exact RunKeeps.pure _
    | with_reducible apply orPoison_keeps
    | with_reducible apply localParts_keeps
    | with_reducible apply raiseTag_keeps
    | with_reducible apply spread_keeps
    | with_reducible refine RunKeeps.act fun _ => ?_
    | with_reducible refine RunKeeps.bind ?_ fun _ => ?_
    | split
    | dsimp only

theorem reduceLoop_keeps (e : RelayId) (x : Slot) (y0 : Nat) (y1 : CollRun)  : RunKeeps (reduceLoop e x y0 y1 : Run CollRun) := by
  induction y0 generalizing y1 with
  | zero =>
  unfold reduceLoop
  repeat' first
    | with_reducible exact RunKeeps.pure _
  | succ n ih =>
  unfold reduceLoop
  repeat' first
    | with_reducible apply ih
    | with_reducible exact RunKeeps.pure _
    | with_reducible apply reduceChunk_keeps
    | with_reducible refine RunKeeps.bind ?_ fun _ => ?_
    | split
    | dsimp only

theorem copyBlock_keeps (e : RelayId) (x : Slot) (c : CollRun) (s0 d0 n : Nat)  : RunKeeps (copyBlock e x c s0 d0 n : Run CollRun) := by
  unfold copyBlock
  repeat' first
    | with_reducible exact RunKeeps.pure _
    | with_reducible apply orPoison_keeps
    | with_reducible apply readFlat_keeps
    | with_reducible apply writeFlat_keeps
    | with_reducible refine RunKeeps.bind ?_ fun _ => ?_
    | with_reducible refine RunKeeps.foldlM _ _ fun _ _ => ?_
    | split

theorem startGather_keeps (e : RelayId) (x : Slot) (c : CollRun)  : RunKeeps (startGather e x c : Run CollRun) := by
  unfold startGather
  repeat' first
    | with_reducible exact RunKeeps.pure _
    | with_reducible apply copyBlock_keeps
    | split
    | dsimp only

theorem startBroadcast_keeps (e : RelayId) (x : Slot) (c : CollRun)  : RunKeeps (startBroadcast e x c : Run CollRun) := by
  unfold startBroadcast
  repeat' first
    | with_reducible exact RunKeeps.pure _
    | with_reducible apply copyBlock_keeps
    | split

theorem readInts_keeps (r : Req) (d : Desc)  : RunKeeps (readInts r d : Run (List Int)) := by
  unfold readInts
  repeat' first
    | with_reducible exact RunKeeps.pure _
    | with_reducible apply readFlat_keeps
    | with_reducible refine RunKeeps.bind ?_ fun _ => ?_

theorem startAllToAll_keeps (e : RelayId) (x : Slot) (c : CollRun)  : RunKeeps (startAllToAll e x c : Run CollRun) := by
  unfold startAllToAll
  repeat' first
    | with_reducible exact Keeps.refl _
    | with_reducible exact RunKeeps.pure _
    | with_reducible apply readInts_keeps
    | with_reducible apply engineDefect_keeps
    | with_reducible apply copyBlock_keeps
    | with_reducible apply gWrite_keeps
    | with_reducible apply rput_keeps
    | with_reducible apply raiseTag_keeps
    | with_reducible refine RunKeeps.act fun _ => ?_
    | with_reducible refine RunKeeps.need fun _ => ?_
    | with_reducible refine RunKeeps.iteThen ?_ fun _ => ?_
    | with_reducible refine RunKeeps.bind ?_ fun _ => ?_
    | with_reducible refine RunKeeps.foldlM _ _ fun _ _ => ?_
    | split

theorem startPermute_keeps (e : RelayId) (x : Slot) (c : CollRun)  : RunKeeps (startPermute e x c : Run CollRun) := by
  unfold startPermute
  repeat' first
    | with_reducible exact RunKeeps.pure _
    | with_reducible apply readInts_keeps
    | with_reducible apply engineDefect_keeps
    | with_reducible refine RunKeeps.bind ?_ fun _ => ?_
    | split
    | dsimp only

theorem startMove_keeps (e : RelayId) (x : Slot) (c : CollRun)  : RunKeeps (startMove e x c : Run CollRun) := by
  unfold startMove
  repeat' first
    | with_reducible exact RunKeeps.pure _
    | with_reducible exact RunKeeps.look _
    | with_reducible apply readCodes_keeps
    | with_reducible apply addFlat_keeps
    | with_reducible apply writeCodes_keeps
    | with_reducible refine RunKeeps.bind ?_ fun _ => ?_
    | with_reducible refine RunKeeps.foldlM _ _ fun _ _ => ?_
    | split

theorem beginColl_keeps (e : RelayId) (x : Slot) (c : CollRun)  : RunKeeps (beginColl e x c : Run CollRun) := by
  unfold beginColl
  repeat' first
    | with_reducible exact RunKeeps.pure _
    | with_reducible apply startGather_keeps
    | with_reducible apply startBroadcast_keeps
    | with_reducible apply startAllToAll_keeps
    | with_reducible apply startPermute_keeps
    | with_reducible apply startMove_keeps
    | split

theorem takeWritten_keeps (c : CollRun) (st : Status)  : RunKeeps (takeWritten c st : Run CollRun) := by
  unfold takeWritten
  repeat' first
    | with_reducible exact RunKeeps.pure _
    | with_reducible exact RunKeeps.stop _
    | split

theorem takeSegment_keeps (e : RelayId) (x : Slot) (c : CollRun) (g : Segment) (bytes : Nat) (st : Status)  : RunKeeps (takeSegment e x c g bytes st : Run CollRun) := by
  unfold takeSegment
  repeat' first
    | with_reducible exact Keeps.refl _
    | with_reducible exact RunKeeps.pure _
    | with_reducible apply groupMismatch_keeps
    | with_reducible apply takeWritten_keeps
    | with_reducible apply takePiece_keeps
    | with_reducible apply writeFlat_keeps
    | with_reducible apply spread_keeps
    | with_reducible refine RunKeeps.act fun _ => ?_
    | with_reducible refine RunKeeps.bind ?_ fun _ => ?_
    | split

theorem postNotify_keeps (e : RelayId) (x : Slot) (c : CollRun)  : RunKeeps (postNotify e x c : Run Unit) := by
  unfold postNotify
  repeat' first
    | with_reducible assumption
    | with_reducible exact Keeps.refl _
    | with_reducible exact RunKeeps.pure _
    | with_reducible exact RunKeeps.stop _
    | with_reducible exact RunKeeps.look _
    | with_reducible apply raiseTag_keeps
    | with_reducible apply setOut_keeps
    | with_reducible refine RunKeeps.act fun _ => ?_
    | with_reducible refine RunKeeps.need fun _ => ?_
    | with_reducible refine RunKeeps.iteThen ?_ fun _ => ?_
    | with_reducible refine RunKeeps.bind ?_ fun _ => ?_
    | with_reducible refine RunKeeps.forM _ fun _ => ?_
    | (rw [mk_built]; with_reducible apply Keeps.built)
    | with_reducible refine Keeps.fst ?_ (by assumption)
    | with_reducible rfl
    | split
    | dsimp only
    | with_reducible intro _

theorem runColl_keeps (e : RelayId) (x : Slot) (c : CollRun)  : RunKeeps (runColl e x c : Run (CollRun × Bool)) := by
  unfold runColl
  repeat' first
    | with_reducible exact RunKeeps.pure _
    | with_reducible exact RunKeeps.look _
    | with_reducible apply reduceLoop_keeps
    | with_reducible apply pumpColl_keeps
    | with_reducible apply postNotify_keeps
    | with_reducible refine RunKeeps.bind ?_ fun _ => ?_
    | split

theorem stopColl_keeps {sB : State} (s : State) (e : RelayId) (slot : Nat) (st : Status)  (hK : Keeps sB s) :
    Keeps sB (stopColl s e slot st) := by
  unfold stopColl
  repeat' first
    | with_reducible apply putRelay_keeps
    | with_reducible apply endColl_keeps
    | (rw [mk_built]; with_reducible apply Keeps.built)
    | with_reducible intro _
    | (apply_assumption; done)

theorem finishColl_keeps {sB : State} (s : State) (e : RelayId) (x : Slot) (c : CollRun)  (hK : Keeps sB s) :
    Keeps sB (finishColl s e x c) := by
  unfold finishColl
  repeat' first
    | with_reducible apply addNorm_keeps
    | with_reducible apply stopColl_keeps
    | with_reducible apply raiseTag_keeps
    | split
    | dsimp only
    | (apply_assumption; done)

theorem takeEarly_keeps (e : RelayId) (x : Slot) (c : CollRun)  : RunKeeps (takeEarly e x c : Run CollRun) := by
  unfold takeEarly
  repeat' first
    | with_reducible exact Keeps.refl _
    | with_reducible exact RunKeeps.look _
    | with_reducible apply putRelay_keeps
    | with_reducible apply takeSegment_keeps
    | with_reducible refine RunKeeps.act fun _ => ?_
    | with_reducible refine RunKeeps.bind ?_ fun _ => ?_
    | with_reducible refine RunKeeps.foldlM _ _ fun _ _ => ?_

theorem leaveColl_keeps {sB : State} (s : State) (e : RelayId) (x : Slot) (c0 : CollRun) (y0 : Except Status (CollRun × Bool))  (hK : Keeps sB s) :
    Keeps sB (leaveColl s e x c0 y0) := by
  unfold leaveColl
  repeat' first
    | with_reducible assumption
    | with_reducible apply stopColl_keeps
    | with_reducible apply finishColl_keeps
    | with_reducible apply putRelay_keeps
    | with_reducible apply putSlot_keeps
    | split

theorem goOn_keeps {sB : State} (s : State) (e : RelayId)  (hK : Keeps sB s) :
    Keeps sB (goOn s e) := by
  unfold goOn
  repeat' first
    | with_reducible assumption
    | with_reducible apply runColl_keeps
    | with_reducible apply takeEarly_keeps
    | with_reducible apply waitSlot_keeps
    | with_reducible apply leaveColl_keeps
    | with_reducible refine RunKeeps.bind ?_ fun _ => ?_
    | with_reducible refine Keeps.runValEq (by assumption) ?_ ?_
    | split

theorem abortColl_keeps {sB : State} (s : State) (e : RelayId)  (hK : Keeps sB s) :
    Keeps sB (abortColl s e) := by
  unfold abortColl
  repeat' first
    | with_reducible assumption
    | with_reducible apply stopColl_keeps
    | split

theorem noteSeg_keeps {sB : State} (s : State) (e : RelayId)  (hK : Keeps sB s) :
    Keeps sB (noteSeg s e) := by
  unfold noteSeg
  repeat' first
    | with_reducible assumption
    | with_reducible apply putRelay_keeps

theorem startColl_keeps {sB : State} (s : State) (e : RelayId) (x : Slot)  (hK : Keeps sB s) :
    Keeps sB (startColl s e x) := by
  unfold startColl
  repeat' first
    | with_reducible assumption
    | with_reducible apply goOn_keeps
    | with_reducible apply noteColl_keeps
    | with_reducible apply loadColl_keeps
    | with_reducible apply waitSlot_keeps
    | with_reducible apply endColl_keeps
    | with_reducible apply stopColl_keeps
    | with_reducible apply runColl_keeps
    | with_reducible apply takeEarly_keeps
    | with_reducible apply beginColl_keeps
    | with_reducible apply leaveColl_keeps
    | with_reducible refine RunKeeps.bind ?_ fun _ => ?_
    | with_reducible refine Keeps.runValEq (by assumption) ?_ ?_
    | split
    | dsimp only

theorem execKind_keeps {sB : State} (kind : Nat) (e : RelayId) (slot : Nat) (s : State)  (hK : Keeps sB s) :
    Keeps sB (execKind kind e slot s) := by
  unfold execKind
  repeat' first
    | with_reducible exact Keeps.refl _
    | with_reducible apply startCommand_keeps
    | with_reducible apply startColl_keeps
    | split
    | with_reducible intro _
    | (apply_assumption; done)

theorem execCollectiveReduce_keeps {sB : State} (e : RelayId) (slot : Nat) (s : State)  (hK : Keeps sB s) :
    OutKeeps sB (execCollectiveReduce e slot s) := by
  unfold execCollectiveReduce
  repeat' first
    | with_reducible refine OutKeeps.next ?_
    | with_reducible apply execKind_keeps
    | (apply_assumption; done)

theorem execAllReduce_keeps {sB : State} (e : RelayId) (slot : Nat) (s : State)  (hK : Keeps sB s) :
    OutKeeps sB (execAllReduce e slot s) := by
  unfold execAllReduce
  repeat' first
    | with_reducible refine OutKeeps.next ?_
    | with_reducible apply execKind_keeps
    | (apply_assumption; done)

theorem execReduceScatter_keeps {sB : State} (e : RelayId) (slot : Nat) (s : State)  (hK : Keeps sB s) :
    OutKeeps sB (execReduceScatter e slot s) := by
  unfold execReduceScatter
  repeat' first
    | with_reducible refine OutKeeps.next ?_
    | with_reducible apply execKind_keeps
    | (apply_assumption; done)

theorem execAllGather_keeps {sB : State} (e : RelayId) (slot : Nat) (s : State)  (hK : Keeps sB s) :
    OutKeeps sB (execAllGather e slot s) := by
  unfold execAllGather
  repeat' first
    | with_reducible refine OutKeeps.next ?_
    | with_reducible apply execKind_keeps
    | (apply_assumption; done)

theorem execBroadcast_keeps {sB : State} (e : RelayId) (slot : Nat) (s : State)  (hK : Keeps sB s) :
    OutKeeps sB (execBroadcast e slot s) := by
  unfold execBroadcast
  repeat' first
    | with_reducible refine OutKeeps.next ?_
    | with_reducible apply execKind_keeps
    | (apply_assumption; done)

theorem execAllToAll_keeps {sB : State} (e : RelayId) (slot : Nat) (s : State)  (hK : Keeps sB s) :
    OutKeeps sB (execAllToAll e slot s) := by
  unfold execAllToAll
  repeat' first
    | with_reducible refine OutKeeps.next ?_
    | with_reducible apply execKind_keeps
    | (apply_assumption; done)

theorem execPermute_keeps {sB : State} (e : RelayId) (slot : Nat) (s : State)  (hK : Keeps sB s) :
    OutKeeps sB (execPermute e slot s) := by
  unfold execPermute
  repeat' first
    | with_reducible refine OutKeeps.next ?_
    | with_reducible apply execKind_keeps
    | (apply_assumption; done)

theorem execMove_keeps {sB : State} (e : RelayId) (slot : Nat) (s : State)  (hK : Keeps sB s) :
    OutKeeps sB (execMove e slot s) := by
  unfold execMove
  repeat' first
    | with_reducible assumption
    | with_reducible refine OutKeeps.next ?_
    | with_reducible apply execKind_keeps

theorem sendSegAck_keeps {sB : State} (s : State) (e : RelayId) (g : Segment) (cls : SvcClass) (xid : Nat) (busy : Bool)  (hK : Keeps sB s) :
    Keeps sB (sendSegAck s e g cls xid busy) := by
  unfold sendSegAck
  repeat' first
    | with_reducible apply sendPacket_keeps
    | split
    | (apply_assumption; done)

theorem writeAtOnce_keeps {sB : State} (s : State) (e : RelayId) (g : Segment) (cls : SvcClass) (spare : Nat)  (hK : Keeps sB s) :
    Keeps sB (writeAtOnce s e g cls spare).1 := by
  unfold writeAtOnce
  repeat' first
    | with_reducible assumption
    | with_reducible apply postWrite_keeps
    | with_reducible apply readLocal_keeps
    | with_reducible refine Keeps.fst ?_ (by assumption)
    | split
    | dsimp only

theorem receiveSegment_keeps {sB : State} (s : State) (e : RelayId) (ok : Bool) (cls : SvcClass) (xid : Nat) (g : Segment)  (hK : Keeps sB s) :
    Keeps sB (receiveSegment s e ok cls xid g) := by
  unfold receiveSegment
  repeat' first
    | with_reducible assumption
    | with_reducible apply bump_keeps
    | with_reducible apply sendSegAck_keeps
    | with_reducible apply groupMismatch_keeps
    | with_reducible apply writeAtOnce_keeps
    | with_reducible apply putRelay_keeps
    | with_reducible apply goOn_keeps
    | with_reducible apply noteSeg_keeps
    | split
    | dsimp only

theorem arriveSegment_keeps {sB : State} (s : State) (p : NauloId) (xid : Nat) (g : Segment) (cls : Option SvcClass)  (hK : Keeps sB s) :
    Keeps sB (arriveSegment s p xid g cls) := by
  unfold arriveSegment
  repeat' first
    | with_reducible apply peekEntry_keeps
    | with_reducible apply receiveSegment_keeps
    | (apply_assumption; done)

theorem execSegment_keeps {sB : State} (p : NauloId) (xid : Nat) (g : Segment) (s : State)  (hK : Keeps sB s) :
    OutKeeps sB (execSegment p xid g s) := by
  unfold execSegment
  repeat' first
    | with_reducible refine OutKeeps.next ?_
    | with_reducible apply arriveSegment_keeps
    | (apply_assumption; done)

theorem execSegAck_keeps {sB : State} (_p : NauloId) (xid : Nat) (busy : Bool) (s : State)  (hK : Keeps sB s) :
    OutKeeps sB (execSegAck _p xid busy s) := by
  unfold execSegAck
  repeat' first
    | with_reducible assumption
    | with_reducible refine OutKeeps.next ?_
    | with_reducible apply goOn_keeps
    | (rw [mk_built]; with_reducible apply Keeps.built)
    | with_reducible rfl
    | split
    | with_reducible intro _

theorem execBusyResend_keeps {sB : State} (e : RelayId) (xid : Nat) (s : State)  (hK : Keeps sB s) :
    OutKeeps sB (execBusyResend e xid s) := by
  unfold execBusyResend
  repeat' first
    | with_reducible assumption
    | with_reducible refine OutKeeps.next ?_
    | with_reducible apply sendSegment_keeps
    | with_reducible apply goOn_keeps
    | with_reducible apply noteSeg_keeps
    | with_reducible apply bump_keeps
    | with_reducible apply abortColl_keeps
    | (rw [mk_built]; with_reducible apply Keeps.built)
    | with_reducible refine Keeps.fst ?_ (by assumption)
    | with_reducible rfl
    | split
    | dsimp only
    | with_reducible intro _

theorem execCollTimeout_keeps {sB : State} (e : RelayId) (s : State)  (hK : Keeps sB s) :
    OutKeeps sB (execCollTimeout e s) := by
  unfold execCollTimeout
  repeat' first
    | with_reducible refine OutKeeps.next ?_
    | with_reducible apply stopColl_keeps
    | with_reducible apply raiseTag_keeps
    | (rw [mk_built]; with_reducible apply Keeps.built)
    | split
    | with_reducible intro _
    | (apply_assumption; done)

end Sys2Proof.Machine
end

