-- ==== Sys2Proof/Laws/KeepNetwork.lean ====
section
/-!
SUPPORT. What the operations of Machine/Network.lean keep: the queue and the invariant.
-/
namespace Sys2Proof.Machine

theorem execFlitCrcError_keeps {sB : State} (d : DieId) (link : Fin 4) (_wire : Nat) (s : State)  (hK : Keeps sB s) :
    OutKeeps sB (execFlitCrcError d link _wire s) := by
  unfold execFlitCrcError
  repeat' first
    | with_reducible refine OutKeeps.next ?_
    | with_reducible apply putPath_keeps
    | with_reducible apply emit_keeps
    | with_reducible apply bump_keeps
    | split
    | (apply_assumption; done)

theorem execWireLimit_keeps {sB : State} (d : DieId) (link : Fin 4) (wire : Nat) (s : State)  (hK : Keeps sB s) :
    OutKeeps sB (execWireLimit d link wire s) := by
  unfold execWireLimit
  repeat' first
    | with_reducible refine OutKeeps.next ?_
    | with_reducible apply raiseWith_keeps
    | with_reducible apply bump_keeps
    | with_reducible apply putPath_keeps
    | with_reducible apply rputBit_keeps
    | split
    | dsimp only
    | (apply_assumption; done)

theorem endWireChange_keeps {sB : State} (s : State) (d : DieId) (link : Fin 4)  (hK : Keeps sB s) :
    Keeps sB (endWireChange s d link) := by
  unfold endWireChange
  repeat' first
    | with_reducible assumption
    | with_reducible apply useFresh_keeps
    | with_reducible apply emit_keeps
    | with_reducible apply putPath_keeps
    | (rw [mk_built]; with_reducible apply Keeps.built)
    | with_reducible rfl
    | split
    | dsimp only
    | with_reducible intro _

theorem execDirectoryWrite_keeps {sB : State} (who : Block) (offset : Nat) (data : List Byte) (s : State)  (hK : Keeps sB s) :
    OutKeeps sB (execDirectoryWrite who offset data s) := by
  unfold execDirectoryWrite
  repeat' first
    | with_reducible assumption
    | with_reducible refine OutKeeps.next ?_
    | with_reducible apply larderWriteCheck_keeps
    | with_reducible apply takeRequest_keeps
    | with_reducible apply respond_keeps
    | with_reducible apply raiseAtRequester_keeps
    | with_reducible refine Keeps.fst ?_ (by assumption)
    | split

end Sys2Proof.Machine
end

