-- ==== Sys2Proof/Laws/KeepSync.lean ====
section
/-!
SUPPORT. What the operations of Machine/Sync.lean keep: the queue and the invariant.
-/
namespace Sys2Proof.Machine

theorem setSync_keeps {sB : State} (s : State) (samples st : Nat)  (hK : Keeps sB s) :
    Keeps sB (setSync s samples st) := by
  unfold setSync
  repeat' first
    | with_reducible apply rput_keeps
    | (apply_assumption; done)

theorem writeTtParent_keeps {sB : State} (s : State) (v : Word)  (hK : Keeps sB s) :
    Keeps sB (writeTtParent s v) := by
  unfold writeTtParent
  repeat' first
    | with_reducible apply setSync_keeps
    | with_reducible apply rwrite_keeps
    | (rw [mk_built]; with_reducible apply Keeps.built)
    | with_reducible intro _
    | (apply_assumption; done)

theorem execTtParent_keeps {sB : State} (v : Word) (s : State)  (hK : Keeps sB s) :
    OutKeeps sB (execTtParent v s) := by
  unfold execTtParent
  repeat' first
    | with_reducible refine OutKeeps.next ?_
    | with_reducible apply writeTtParent_keeps
    | (apply_assumption; done)

theorem slewTime_keeps {sB : State} (s : State)  (hK : Keeps sB s) :
    Keeps sB (slewTime s) := by
  unfold slewTime
  repeat' first
    | with_reducible assumption
    | (rw [mk_built]; with_reducible apply Keeps.built)
    | with_reducible rfl
    | split
    | dsimp only
    | with_reducible intro _

theorem execSyncInterval_keeps {sB : State} (s : State)  (hK : Keeps sB s) :
    OutKeeps sB (execSyncInterval s) := by
  unfold execSyncInterval
  repeat' first
    | with_reducible assumption
    | with_reducible refine OutKeeps.next ?_
    | with_reducible apply slewTime_keeps
    | with_reducible apply sendControl_keeps
    | (rw [mk_built]; with_reducible apply Keeps.built)
    | with_reducible rfl
    | split
    | with_reducible intro _

theorem execSyncReq_keeps {sB : State} (from_ : DeviceId) (t1 : Nat) (s : State)  (hK : Keeps sB s) :
    OutKeeps sB (execSyncReq from_ t1 s) := by
  unfold execSyncReq
  repeat' first
    | with_reducible refine OutKeeps.next ?_
    | with_reducible apply sendControl_keeps
    | (apply_assumption; done)

theorem acceptSample_keeps {sB : State} (s : State) (θ d : Int)  (hK : Keeps sB s) :
    Keeps sB (acceptSample s θ d) := by
  unfold acceptSample
  repeat' first
    | with_reducible assumption
    | with_reducible apply rput_keeps
    | with_reducible apply bump_keeps
    | with_reducible apply setSync_keeps
    | (rw [mk_built]; with_reducible apply Keeps.built)
    | with_reducible rfl
    | split
    | dsimp only
    | with_reducible intro _

theorem execSyncResp_keeps {sB : State} (from_ : DeviceId) (t1 t2 t3 t4 : Nat) (s : State)  (hK : Keeps sB s) :
    OutKeeps sB (execSyncResp from_ t1 t2 t3 t4 s) := by
  unfold execSyncResp
  repeat' first
    | with_reducible assumption
    | with_reducible refine OutKeeps.next ?_
    | with_reducible apply bump_keeps
    | with_reducible apply slewTime_keeps
    | with_reducible apply acceptSample_keeps
    | (rw [mk_built]; with_reducible apply Keeps.built)
    | with_reducible rfl
    | split
    | dsimp only
    | with_reducible intro _

theorem execSyncLost_keeps {sB : State} (s : State)  (hK : Keeps sB s) :
    OutKeeps sB (execSyncLost s) := by
  unfold execSyncLost
  repeat' first
    | with_reducible refine OutKeeps.next ?_
    | with_reducible apply raise_keeps
    | with_reducible apply setSync_keeps
    | split
    | (apply_assumption; done)

end Sys2Proof.Machine
end

