-- ==== Sys2Proof/Laws/KeepPackets.lean ====
section
/-!
SUPPORT. What the operations of Machine/Packets.lean keep: the queue and the invariant.
-/
namespace Sys2Proof.Machine

theorem withPacket_keeps {sB : State} (s : State) (p : NauloId) (h : PacketHead) (good : Bool) (body : State → State) (hbody : ∀ (x0 : State), Keeps x0 (body x0)) (hK : Keeps sB s) :
    Keeps sB (withPacket s p h good body) := by
  unfold withPacket
  repeat' first
    | with_reducible refine Keeps.trans ?_ (hbody _)
    | with_reducible apply raiseWith_keeps
    | with_reducible apply bump_keeps
    | split
    | dsimp only
    | (apply_assumption; done)

theorem sendDelay_keeps {sB : State} (s0 s : State) (b : Block) (h : PacketHead)  (hK : Keeps sB s) :
    Keeps sB (sendDelay s0 s b h) := by
  unfold sendDelay
  repeat' first
    | with_reducible apply sendPacket_keeps
    | split
    | (apply_assumption; done)

theorem holdPacket_keeps {sB : State} (s t : State) (b : Block) (p : NauloId) (r : Req) (h : PacketHead) (acc : Access) (fmt : Option Nat)  (hK : Keeps sB s) :
    Keeps sB (holdPacket s t b p r h acc fmt) := by
  unfold holdPacket
  repeat' first
    | with_reducible assumption
    | with_reducible apply sendDelay_keeps
    | with_reducible apply holdReq_keeps

theorem answerRead_keeps {sB : State} (s t : State) (b : Block) (h : PacketHead) (st : Status) (d : List Byte)
    (hK : Keeps sB t) : Keeps sB (answerRead s t b h st d) :=
  sendReadResp_keeps _ _ _ _ _ _ (sendDelay_keeps _ _ _ _ hK)

theorem answerAck_keeps {sB : State} (s t : State) (b : Block) (h : PacketHead) (st : Status) (hK : Keeps sB t) :
    Keeps sB (answerAck s t b h st) := sendAck_keeps _ _ _ _ _ (sendDelay_keeps _ _ _ _ hK)

theorem onWay_keeps {sB : State} (s : State) (p : NauloId) (h : PacketHead) (serve answer : State) (hK : Keeps sB s)
    (hs : Keeps sB serve) (ha : Keeps sB answer) : Keeps sB (onWay s p h serve answer) := by
  unfold onWay
  split
  · exact hK
  · exact Keeps.leaf hs
  · exact ha

theorem takeRead_keeps {sB : State} (s : State) (p : NauloId) (h : PacketHead)  (hK : Keeps sB s) :
    Keeps sB (takeRead s p h) := by
  unfold takeRead
  repeat' first
    | with_reducible assumption
    | with_reducible exact Keeps.refl _
    | with_reducible apply withPacket_keeps
    | with_reducible apply readLocal_keeps
    | with_reducible apply holdPacket_keeps
    | with_reducible apply onWay_keeps
    | with_reducible apply answerRead_keeps
    | with_reducible refine Keeps.fst ?_ (by assumption)
    | split
    | dsimp only
    | with_reducible intro _

theorem execRead_keeps {sB : State} (p : NauloId) (h : PacketHead) (s : State)  (hK : Keeps sB s) :
    OutKeeps sB (execRead p h s) := by
  unfold execRead
  repeat' first
    | with_reducible refine OutKeeps.next ?_
    | with_reducible apply takeRead_keeps
    | (apply_assumption; done)

theorem takeWrite_keeps {sB : State} (s : State) (p : NauloId) (h : PacketHead) (data : List Byte)  (hK : Keeps sB s) :
    Keeps sB (takeWrite s p h data) := by
  unfold takeWrite
  repeat' first
    | with_reducible assumption
    | with_reducible exact Keeps.refl _
    | with_reducible apply withPacket_keeps
    | with_reducible apply writeLocal_keeps
    | with_reducible apply holdPacket_keeps
    | with_reducible apply onWay_keeps
    | with_reducible apply answerAck_keeps
    | with_reducible refine Keeps.fst ?_ (by assumption)
    | split
    | dsimp only
    | with_reducible intro _

theorem execWrite_keeps {sB : State} (p : NauloId) (h : PacketHead) (data : List Byte) (s : State)  (hK : Keeps sB s) :
    OutKeeps sB (execWrite p h data s) := by
  unfold execWrite
  repeat' first
    | with_reducible refine OutKeeps.next ?_
    | with_reducible apply takeWrite_keeps
    | (apply_assumption; done)

theorem takeAdd_keeps {sB : State} (s : State) (p : NauloId) (h : PacketHead) (fmt : Nat) (data : List Byte)  (hK : Keeps sB s) :
    Keeps sB (takeAdd s p h fmt data) := by
  unfold takeAdd
  repeat' first
    | with_reducible assumption
    | with_reducible exact Keeps.refl _
    | with_reducible apply withPacket_keeps
    | with_reducible apply sendAck_keeps
    | with_reducible apply fencedAnswer_keeps
    | with_reducible apply bump_keeps
    | with_reducible apply memoryAdd_keeps
    | with_reducible apply holdPacket_keeps
    | with_reducible apply onWay_keeps
    | with_reducible apply answerAck_keeps
    | with_reducible refine Keeps.fst ?_ (by assumption)
    | split
    | dsimp only
    | with_reducible intro _

theorem execAdd_keeps {sB : State} (p : NauloId) (h : PacketHead) (fmt : Fin 16) (data : List Byte) (s : State)  (hK : Keeps sB s) :
    OutKeeps sB (execAdd p h fmt data s) := by
  unfold execAdd
  repeat' first
    | with_reducible refine OutKeeps.next ?_
    | with_reducible apply takeAdd_keeps
    | (apply_assumption; done)

theorem takeSem_keeps {sB : State} (s : State) (p : NauloId) (h : PacketHead) (operand : Word) (baton : Bool)  (hK : Keeps sB s) :
    Keeps sB (takeSem s p h operand baton) := by
  unfold takeSem
  repeat' first
    | with_reducible assumption
    | with_reducible exact Keeps.refl _
    | with_reducible apply withPacket_keeps
    | with_reducible apply sendAck_keeps
    | (rw [mk_built]; with_reducible apply Keeps.built)
    | with_reducible rfl
    | split
    | dsimp only
    | with_reducible intro _

theorem execSem_keeps {sB : State} (p : NauloId) (h : PacketHead) (operand : Word) (baton : Bool) (s : State)  (hK : Keeps sB s) :
    OutKeeps sB (execSem p h operand baton s) := by
  unfold execSem
  repeat' first
    | with_reducible refine OutKeeps.next ?_
    | with_reducible apply takeSem_keeps
    | (apply_assumption; done)

theorem dropRemote_keeps {sB : State} (s : State) (r : RemoteReq)  (hK : Keeps sB s) :
    Keeps sB (dropRemote s r) := by
  unfold dropRemote
  repeat' first
    | (rw [mk_built]; with_reducible apply Keeps.built)
    | with_reducible intro _
    | (apply_assumption; done)

theorem answerRemote_keeps {sB : State} (s : State) (r : RemoteReq) (st : Status) (data : List Byte)  (hK : Keeps sB s) :
    Keeps sB (answerRemote s r st data) := by
  unfold answerRemote
  repeat' first
    | with_reducible assumption
    | with_reducible apply dropRemote_keeps
    | with_reducible apply bump_keeps
    | with_reducible apply raiseTag_keeps
    | with_reducible apply endSlot_keeps
    | with_reducible apply hostReadAnswer_keeps
    | with_reducible apply hostReads_keeps
    | with_reducible apply hostWriteAnswer_keeps
    | with_reducible apply dmaWritten_keeps
    | split
    | dsimp only

theorem badResponse_keeps {sB : State} (s : State) (p : NauloId)  (hK : Keeps sB s) :
    Keeps sB (badResponse s p) := by
  unfold badResponse
  repeat' first
    | with_reducible assumption
    | with_reducible apply raiseWith_keeps

theorem takeReadResp_keeps {sB : State} (s : State) (p : NauloId) (h : PacketHead) (status : Nat) (data : List Byte)  (hK : Keeps sB s) :
    Keeps sB (takeReadResp s p h status data) := by
  unfold takeReadResp
  repeat' first
    | with_reducible assumption
    | with_reducible exact Keeps.refl _
    | with_reducible apply withPacket_keeps
    | with_reducible apply badResponse_keeps
    | with_reducible apply answerRemote_keeps
    | with_reducible apply dmaLost_keeps
    | with_reducible apply dropRemote_keeps
    | split
    | with_reducible intro _

theorem execReadResp_keeps {sB : State} (p : NauloId) (h : PacketHead) (status : Fin 16) (data : List Byte) (s : State)  (hK : Keeps sB s) :
    OutKeeps sB (execReadResp p h status data s) := by
  unfold execReadResp
  repeat' first
    | with_reducible refine OutKeeps.next ?_
    | with_reducible apply takeReadResp_keeps
    | (apply_assumption; done)

theorem takeAck_keeps {sB : State} (s : State) (p : NauloId) (h : PacketHead) (status : Nat)  (hK : Keeps sB s) :
    Keeps sB (takeAck s p h status) := by
  unfold takeAck
  repeat' first
    | with_reducible assumption
    | with_reducible exact Keeps.refl _
    | with_reducible apply withPacket_keeps
    | with_reducible apply badResponse_keeps
    | with_reducible apply answerRemote_keeps
    | split
    | with_reducible intro _

theorem execAck_keeps {sB : State} (p : NauloId) (h : PacketHead) (status : Fin 16) (s : State)  (hK : Keeps sB s) :
    OutKeeps sB (execAck p h status s) := by
  unfold execAck
  repeat' first
    | with_reducible refine OutKeeps.next ?_
    | with_reducible apply takeAck_keeps
    | (apply_assumption; done)

theorem takeDelay_keeps {sB : State} (s : State) (p : NauloId) (h : PacketHead)  (hK : Keeps sB s) :
    Keeps sB (takeDelay s p h) := by
  unfold takeDelay
  repeat' first
    | with_reducible assumption
    | with_reducible exact Keeps.refl _
    | with_reducible apply withPacket_keeps
    | with_reducible apply countDelayed_keeps
    | split
    | with_reducible intro _

theorem execDelay_keeps {sB : State} (p : NauloId) (h : PacketHead) (s : State)  (hK : Keeps sB s) :
    OutKeeps sB (execDelay p h s) := by
  unfold execDelay
  repeat' first
    | with_reducible refine OutKeeps.next ?_
    | with_reducible apply takeDelay_keeps
    | (apply_assumption; done)

theorem execProtocol_keeps {sB : State} (p : NauloId) (op : BitVec 8) (s : State)  (hK : Keeps sB s) :
    OutKeeps sB (execProtocol p op s) := by
  unfold execProtocol
  repeat' first
    | with_reducible refine OutKeeps.next ?_
    | with_reducible apply raiseWith_keeps
    | split
    | (apply_assumption; done)

theorem nextOf_keeps {sB : State} (s : State) (o : Host.Outcome State Fault Refusal) (ho : OutKeeps sB o)
    (hK : Keeps sB s) : Keeps sB (nextOf s o) := by
  unfold nextOf
  split
  · exact ho _ rfl
  · exact hK

theorem takePacket_keeps {sB : State} (s : State) (p : NauloId) (units : List (List Byte))  (hK : Keeps sB s) :
    Keeps sB (takePacket s p units) := by
  unfold takePacket
  repeat' first
    | exact Keeps.refl _
    | with_reducible assumption
    | with_reducible apply takeRead_keeps
    | with_reducible apply takeWrite_keeps
    | with_reducible apply takeAdd_keeps
    | with_reducible apply takeSem_keeps
    | with_reducible apply takeReadResp_keeps
    | with_reducible apply takeAck_keeps
    | with_reducible apply takeDelay_keeps
    | with_reducible apply withPacket_keeps
    | with_reducible apply nextOf_keeps
    | with_reducible apply execTick_keeps
    | with_reducible apply execHold_keeps
    | with_reducible apply execSyncReq_keeps
    | with_reducible apply execSyncResp_keeps
    | with_reducible apply arriveSegment_keeps
    | with_reducible apply execSegAck_keeps
    | with_reducible apply execVote_keeps
    | with_reducible apply execVoteResult_keeps
    | split
    | dsimp only
    | with_reducible intro _

end Sys2Proof.Machine
end

