-- ==== Sys2Proof/Laws/KeepNaulo.lean ====
section
/-!
SUPPORT. What the operations of Machine/Naulo.lean keep: the queue and the invariant.
-/
namespace Sys2Proof.Machine

theorem takeAckSeq_keeps {sB : State} (s : State) (p : NauloId) (ack : Nat)  (hK : Keeps sB s) :
    Keeps sB (takeAckSeq s p ack) := by
  unfold takeAckSeq
  repeat' first
    | with_reducible apply putPort_keeps
    | split
    | dsimp only
    | (apply_assumption; done)

theorem takeCredit_keeps {sB : State} (s : State) (p : NauloId) (vc : Fin 8) (count : Nat)  (hK : Keeps sB s) :
    Keeps sB (takeCredit s p vc count) := by
  unfold takeCredit
  repeat' first
    | with_reducible apply putPort_keeps
    | (apply_assumption; done)

theorem pumpPort_keeps {sB : State} (s : State) (p : NauloId)  (hK : Keeps sB s) :
    Keeps sB (pumpPort s p) := by
  unfold pumpPort
  repeat' first
    | with_reducible apply pump_keeps
    | (apply_assumption; done)

theorem takeControl_keeps {sB : State} (s : State) (p : NauloId) (c : FlitControl)  (hK : Keeps sB s) :
    Keeps sB (takeControl s p c) := by
  unfold takeControl
  repeat' first
    | with_reducible assumption
    | with_reducible apply pumpPort_keeps
    | with_reducible apply takeCredit_keeps
    | with_reducible apply takeAckSeq_keeps

theorem abortRemotes_keeps {sB : State} (s : State) (p : NauloId)  (hK : Keeps sB s) :
    Keeps sB (abortRemotes s p) := by
  unfold abortRemotes
  repeat' first
    | with_reducible exact Keeps.refl _
    | with_reducible apply answerRemote_keeps
    | with_reducible refine Keeps.foldl _ (fun _ _ => ?_) ?_
    | (apply_assumption; done)

theorem abortCut_keeps {sB : State} (s : State)  (hK : Keeps sB s) :
    Keeps sB (abortCut s) := by
  unfold abortCut
  repeat' first
    | with_reducible exact Keeps.refl _
    | with_reducible apply stopColl_keeps
    | with_reducible refine Keeps.foldl _ (fun _ _ => ?_) ?_
    | split
    | (apply_assumption; done)

theorem loseKids_keeps {sB : State} (before s : State)  (hK : Keeps sB s) :
    Keeps sB (loseKids before s) := by
  unfold loseKids
  repeat' first
    | with_reducible exact Keeps.refl _
    | with_reducible apply loseChild_keeps
    | with_reducible refine Keeps.foldl _ (fun _ _ => ?_) ?_
    | split
    | (apply_assumption; done)

theorem portDown_keeps {sB : State} (s : State) (p : NauloId)  (hK : Keeps sB s) :
    Keeps sB (portDown s p) := by
  unfold portDown
  repeat' first
    | with_reducible apply putPort_keeps
    | with_reducible apply sendRecord_keeps
    | with_reducible apply raiseWith_keeps
    | with_reducible apply bump_keeps
    | with_reducible apply loseKids_keeps
    | with_reducible apply abortCut_keeps
    | with_reducible apply abortRemotes_keeps
    | (apply_assumption; done)

theorem writeChild_keeps {sB : State} (s : State) (off : Nat) (v : Word)  (hK : Keeps sB s) :
    Keeps sB (writeChild s off v) := by
  unfold writeChild
  repeat' first
    | with_reducible assumption
    | with_reducible exact Keeps.refl _
    | with_reducible apply rwrite_keeps
    | with_reducible apply modStride_keeps
    | with_reducible apply reportHold_keeps
    | with_reducible apply loseChild_keeps
    | (rw [mk_built]; with_reducible apply Keeps.built)
    | with_reducible refine Keeps.foldl _ (fun _ _ => ?_) ?_
    | with_reducible rfl
    | with_reducible intro _

theorem writeRoute_keeps {sB : State} (s : State) (v : Word)  (hK : Keeps sB s) :
    Keeps sB (writeRoute s v) := by
  unfold writeRoute
  repeat' first
    | with_reducible apply loseKids_keeps
    | with_reducible apply abortCut_keeps
    | (rw [mk_built]; with_reducible apply Keeps.built)
    | with_reducible exact keysRise_tset _ _ _ _ (by assumption)
    | with_reducible intro _
    | (apply_assumption; done)

theorem replayFlits_keeps {sB : State} (s : State) (p : NauloId)  (hK : Keeps sB s) :
    Keeps sB (replayFlits s p) := by
  unfold replayFlits
  repeat' first
    | with_reducible assumption
    | with_reducible exact Keeps.refl _
    | with_reducible apply portDown_keeps
    | with_reducible apply raiseWith_keeps
    | with_reducible apply putPort_keeps
    | with_reducible apply bump_keeps
    | with_reducible apply pumpPort_keeps
    | with_reducible apply sendFlit_keeps
    | with_reducible refine Keeps.foldl _ (fun _ _ => ?_) ?_
    | split
    | dsimp only

theorem execNak_keeps {sB : State} (p : NauloId) (c : FlitControl) (s : State)  (hK : Keeps sB s) :
    OutKeeps sB (execNak p c s) := by
  unfold execNak
  repeat' first
    | with_reducible assumption
    | with_reducible refine OutKeeps.next ?_
    | with_reducible apply takeCredit_keeps
    | with_reducible apply takeAckSeq_keeps
    | with_reducible apply replayFlits_keeps
    | split
    | dsimp only

theorem execReplayTimeout_keeps {sB : State} (p : NauloId) (s : State)  (hK : Keeps sB s) :
    OutKeeps sB (execReplayTimeout p s) := by
  unfold execReplayTimeout
  repeat' first
    | with_reducible refine OutKeeps.next ?_
    | with_reducible apply replayFlits_keeps
    | with_reducible apply bump_keeps
    | with_reducible apply putPort_keeps
    | (rw [mk_built]; with_reducible apply Keeps.built)
    | split
    | dsimp only
    | with_reducible intro _
    | (apply_assumption; done)

theorem execIdle_keeps {sB : State} (p : NauloId) (c : FlitControl) (s : State)  (hK : Keeps sB s) :
    OutKeeps sB (execIdle p c s) := by
  unfold execIdle
  repeat' first
    | with_reducible assumption
    | with_reducible refine OutKeeps.next ?_
    | with_reducible apply takeControl_keeps
    | split

theorem takeUnit_keeps {sB : State} (s : State) (p : NauloId) (vc : Fin 8) (u : List Byte)  (hK : Keeps sB s) :
    Keeps sB (takeUnit s p vc u) := by
  unfold takeUnit
  repeat' first
    | with_reducible apply putPort_keeps
    | with_reducible apply raiseWith_keeps
    | with_reducible apply takePacket_keeps
    | split
    | dsimp only
    | (apply_assumption; done)

theorem discardFlit_keeps {sB : State} (s : State) (p : NauloId)  (hK : Keeps sB s) :
    Keeps sB (discardFlit s p) := by
  unfold discardFlit
  repeat' first
    | with_reducible assumption
    | with_reducible apply bump_keeps
    | with_reducible apply putPort_keeps
    | with_reducible apply sendFlit_keeps
    | split
    | dsimp only

theorem acceptUnits_keeps {sB : State} (s : State) (p : NauloId) (us : List (Fin 8 × List Byte))  (hK : Keeps sB s) :
    Keeps sB (acceptUnits s p us) := by
  unfold acceptUnits
  repeat' first
    | with_reducible assumption
    | with_reducible exact Keeps.refl _
    | with_reducible apply takeUnit_keeps
    | with_reducible apply sendIdle_keeps
    | with_reducible refine Keeps.foldl _ (fun _ _ => ?_) ?_
    | split
    | dsimp only

theorem execDataFlit_keeps {sB : State} (p : NauloId) (f : Flit) (crc : BitVec 64) (s : State)  (hK : Keeps sB s) :
    OutKeeps sB (execDataFlit p f crc s) := by
  unfold execDataFlit
  repeat' first
    | with_reducible assumption
    | with_reducible refine OutKeeps.next ?_
    | with_reducible apply discardFlit_keeps
    | with_reducible apply bump_keeps
    | with_reducible apply takeControl_keeps
    | with_reducible apply putPort_keeps
    | with_reducible apply acceptUnits_keeps
    | split
    | dsimp only

theorem markLane_keeps {sB : State} (s : State) (p : NauloId) (lane : Fin 4)  (hK : Keeps sB s) :
    Keeps sB (markLane s p lane) := by
  unfold markLane
  repeat' first
    | with_reducible apply raiseWith_keeps
    | with_reducible apply countLife_keeps
    | with_reducible apply bump_keeps
    | with_reducible apply rputBit_keeps
    | (apply_assumption; done)

theorem degradePort_keeps {sB : State} (s : State) (p : NauloId) (lane : Fin 4)  (hK : Keeps sB s) :
    Keeps sB (degradePort s p lane) := by
  unfold degradePort
  repeat' first
    | with_reducible apply raiseWith_keeps
    | with_reducible apply rputBit_keeps
    | (apply_assumption; done)

theorem beginRetire_keeps {sB : State} (s : State) (p : NauloId) (lane : Fin 4) (peer : Bool)  (hK : Keeps sB s) :
    Keeps sB (beginRetire s p lane peer) := by
  unfold beginRetire
  repeat' first
    | with_reducible assumption
    | with_reducible apply putPort_keeps
    | with_reducible apply sendLink_keeps

theorem retireLane_keeps {sB : State} (s : State) (p : NauloId) (lane : Fin 4) (peer : Bool)  (hK : Keeps sB s) :
    Keeps sB (retireLane s p lane peer) := by
  unfold retireLane
  repeat' first
    | with_reducible assumption
    | with_reducible apply markLane_keeps
    | with_reducible apply portDown_keeps
    | with_reducible apply putPort_keeps
    | with_reducible apply beginRetire_keeps
    | split
    | dsimp only

theorem execLaneRetire_keeps {sB : State} (p : NauloId) (lane : Fin 4) (s : State)  (hK : Keeps sB s) :
    OutKeeps sB (execLaneRetire p lane s) := by
  unfold execLaneRetire
  repeat' first
    | with_reducible refine OutKeeps.next ?_
    | with_reducible apply retireLane_keeps
    | with_reducible apply rputField_keeps
    | (apply_assumption; done)

theorem execLaneLockLoss_keeps {sB : State} (p : NauloId) (lane : Fin 4) (s : State)  (hK : Keeps sB s) :
    OutKeeps sB (execLaneLockLoss p lane s) := by
  unfold execLaneLockLoss
  repeat' first
    | with_reducible refine OutKeeps.next ?_
    | with_reducible apply retireLane_keeps
    | (apply_assumption; done)

theorem execLaneLimit_keeps {sB : State} (p : NauloId) (lane : Fin 4) (uncorrectable : Nat) (s : State)  (hK : Keeps sB s) :
    OutKeeps sB (execLaneLimit p lane uncorrectable s) := by
  unfold execLaneLimit
  repeat' first
    | with_reducible refine OutKeeps.next ?_
    | with_reducible apply rputField_keeps
    | with_reducible apply bump_keeps
    | with_reducible apply retireLane_keeps
    | split
    | dsimp only
    | (apply_assumption; done)

theorem noteRetireAck_keeps {sB : State} (s : State) (p : NauloId) (lane : Fin 4)  (hK : Keeps sB s) :
    Keeps sB (noteRetireAck s p lane) := by
  unfold noteRetireAck
  repeat' first
    | with_reducible assumption
    | with_reducible apply putPort_keeps
    | split
    | dsimp only

theorem execRetire_keeps {sB : State} (p : NauloId) (lane : Fin 4) (c : FlitControl) (s : State)  (hK : Keeps sB s) :
    OutKeeps sB (execRetire p lane c s) := by
  unfold execRetire
  repeat' first
    | with_reducible assumption
    | with_reducible refine OutKeeps.next ?_
    | with_reducible apply takeControl_keeps
    | with_reducible apply sendLink_keeps
    | with_reducible apply noteRetireAck_keeps
    | with_reducible apply retireLane_keeps
    | split
    | dsimp only

theorem execRetireAck_keeps {sB : State} (p : NauloId) (lane : Fin 4) (c : FlitControl) (s : State)  (hK : Keeps sB s) :
    OutKeeps sB (execRetireAck p lane c s) := by
  unfold execRetireAck
  repeat' first
    | with_reducible assumption
    | with_reducible refine OutKeeps.next ?_
    | with_reducible apply noteRetireAck_keeps
    | with_reducible apply takeControl_keeps
    | split

theorem execLaneRetired_keeps {sB : State} (p : NauloId) (s : State)  (hK : Keeps sB s) :
    OutKeeps sB (execLaneRetired p s) := by
  unfold execLaneRetired
  repeat' first
    | with_reducible assumption
    | with_reducible exact Keeps.refl _
    | with_reducible refine OutKeeps.next ?_
    | with_reducible apply useFresh_keeps
    | with_reducible apply rput_keeps
    | with_reducible apply putPort_keeps
    | with_reducible apply replayFlits_keeps
    | with_reducible apply degradePort_keeps
    | (rw [mk_built]; with_reducible apply Keeps.built)
    | with_reducible refine Keeps.foldl _ (fun _ _ => ?_) ?_
    | with_reducible rfl
    | split
    | dsimp only
    | with_reducible intro _

theorem execLinkDown_keeps {sB : State} (p : NauloId) (s : State)  (hK : Keeps sB s) :
    OutKeeps sB (execLinkDown p s) := by
  unfold execLinkDown
  repeat' first
    | with_reducible refine OutKeeps.next ?_
    | with_reducible apply portDown_keeps
    | split
    | (apply_assumption; done)

theorem execNauloRetrain_keeps {sB : State} (p : NauloId) (lanes : BitVec 4) (s : State)  (hK : Keeps sB s) :
    OutKeeps sB (execNauloRetrain p lanes s) := by
  unfold execNauloRetrain
  repeat' first
    | with_reducible assumption
    | with_reducible refine OutKeeps.next ?_
    | with_reducible apply putPort_keeps
    | with_reducible apply rput_keeps
    | with_reducible apply loseKids_keeps
    | with_reducible apply abortCut_keeps
    | with_reducible apply abortRemotes_keeps
    | with_reducible apply sendLink_keeps
    | split
    | dsimp only

theorem execIdent_keeps {sB : State} (p : NauloId) (peer : DeviceId) (s : State)  (hK : Keeps sB s) :
    OutKeeps sB (execIdent p peer s) := by
  unfold execIdent
  repeat' first
    | with_reducible refine OutKeeps.next ?_
    | with_reducible apply rput_keeps
    | with_reducible apply pumpPort_keeps
    | with_reducible apply putPort_keeps
    | split
    | dsimp only
    | (apply_assumption; done)

end Sys2Proof.Machine
end

