-- ==== Sys2Proof/Laws/KeepRelease.lean ====
section
/-!
SUPPORT. What the operations of Machine/Release.lean keep: the queue and the invariant.
-/
namespace Sys2Proof.Machine

theorem answerHeld_keeps {sB : State} (s : State) (h : HeldReq) (st : Status) (data : List Byte)  (hK : Keeps sB s) :
    Keeps sB (answerHeld s h st data) := by
  unfold answerHeld
  repeat' first
    | with_reducible assumption
    | with_reducible apply respond_keeps
    | with_reducible apply bump_keeps
    | with_reducible apply hostReadAnswer_keeps
    | with_reducible apply hostReads_keeps
    | with_reducible apply hostWriteAnswer_keeps
    | with_reducible apply sendReadResp_keeps
    | with_reducible apply sendAck_keeps
    | split

theorem sendHeld_keeps {sB : State} (s : State) (h : HeldReq) (hK : Keeps sB s) :
    ∀ t, sendHeld s h = some t → Keeps sB t := by
  intro t e
  unfold sendHeld at e
  dsimp only at e
  split at e
  · cases e
  · cases e; exact hostSend_keeps _ _ _ _ _ _ hK
  · cases e; exact hostSend_keeps _ _ _ _ _ _ hK

theorem serveAgain_keeps {sB : State} (s : State) (h : HeldReq)  (hK : Keeps sB s) :
    Keeps sB (serveAgain s h).1 := by
  unfold serveAgain
  repeat' first
    | with_reducible assumption
    | with_reducible apply memoryAdd_keeps
    | with_reducible apply serveLocal_keeps
    | split

theorem serveHeld_keeps {sB : State} (s : State) (h : HeldReq) (hK : Keeps sB s) :
    ∀ t, serveHeld s h = some t → Keeps sB t := by
  intro u e
  unfold serveHeld at e
  have hp := serveAgain_keeps s h hK
  generalize serveAgain s h = p at e hp
  obtain ⟨t, st, data⟩ := p
  split at e
  · exact sendHeld_keeps _ _ hK _ e
  · dsimp only at e hp
    split at e
    · cases e
    · split at e
      · cases e; exact bump_keeps _ _ _ _ hK
      · cases e; exact answerHeld_keeps _ _ _ _ hp

theorem putBack_keeps {sB : State} (before rest : List HeldReq) (t : State)  (hK : Keeps sB t) :
    Keeps sB (putBack before rest t) := by
  unfold putBack
  repeat' first
    | with_reducible assumption
    | (rw [mk_built]; with_reducible apply Keeps.built)
    | with_reducible rfl
    | with_reducible intro _

theorem servable_keeps {sB : State} (s : State) (runs : List (Dest × Nat)) (hK : Keeps sB s) :
    ∀ x ∈ servable s runs, Keeps sB x.2.2 := by
  intro x hx
  unfold servable at hx
  obtain ⟨⟨h, i⟩, -, e⟩ := List.mem_filterMap.1 hx
  dsimp only at e
  split at e
  · rename_i t _ _ e2
    cases e
    exact putBack_keeps _ _ _ (serveHeld_keeps _ _ (Keeps.leaf hK) _ e2)
  · cases e

theorem lowest_mem {l : List (Nat × HeldReq × State)} {x : HeldReq × State} (e : lowest l = some x) :
    ∃ k, (k, x) ∈ l := by
  induction l with
  | nil => cases e
  | cons y t ih =>
    obtain ⟨k, y⟩ := y
    unfold lowest at e
    split at e
    · cases e
      exact ⟨k, by simp⟩
    · obtain ⟨j, h⟩ := ih e
      exact ⟨j, by simp [h]⟩

theorem releaseFrom_keeps {sB : State} (n : Nat) (runs : List (Dest × Nat)) (s : State) (hK : Keeps sB s) :
    Keeps sB (releaseFrom n runs s) := by
  induction n generalizing runs s with
  | zero => exact hK
  | succ n ih =>
    unfold releaseFrom
    split
    · exact hK
    · rename_i e
      obtain ⟨k, h⟩ := lowest_mem e
      exact ih _ _ (servable_keeps s runs hK _ h)

theorem releaseHeld_keeps {sB : State} (s : State)  (hK : Keeps sB s) :
    Keeps sB (releaseHeld s) := by
  unfold releaseHeld
  repeat' first
    | with_reducible assumption
    | with_reducible apply releaseFrom_keeps

theorem execPcRetired_keeps {sB : State} (st : StackId) (s : State)  (hK : Keeps sB s) :
    OutKeeps sB (execPcRetired st s) := by
  unfold execPcRetired
  repeat' first
    | with_reducible assumption
    | with_reducible refine OutKeeps.next ?_
    | with_reducible apply releaseHeld_keeps
    | with_reducible apply pcDone_keeps

theorem execExpanderResponse_keeps {sB : State} (p : CxlId) (xid : Nat) (late poison : Bool) (devLoad : Fin 4) (data : List Byte) (s : State)  (hK : Keeps sB s) :
    OutKeeps sB (execExpanderResponse p xid late poison devLoad data s) := by
  unfold execExpanderResponse
  repeat' first
    | with_reducible assumption
    | with_reducible refine OutKeeps.next ?_
    | with_reducible apply releaseHeld_keeps
    | with_reducible apply expanderAnswer_keeps

theorem execCxlLinkDown_keeps {sB : State} (p : CxlId) (s : State)  (hK : Keeps sB s) :
    OutKeeps sB (execCxlLinkDown p s) := by
  unfold execCxlLinkDown
  repeat' first
    | with_reducible assumption
    | with_reducible refine OutKeeps.next ?_
    | with_reducible apply releaseHeld_keeps
    | with_reducible apply cxlLost_keeps

theorem execCxlRetrain_keeps {sB : State} (p : CxlId) (t : LinkTrain) (capacity : Nat) (expId : Word) (s : State)  (hK : Keeps sB s) :
    OutKeeps sB (execCxlRetrain p t capacity expId s) := by
  unfold execCxlRetrain
  repeat' first
    | with_reducible assumption
    | with_reducible refine OutKeeps.next ?_
    | with_reducible apply releaseHeld_keeps
    | with_reducible apply trainCxl_keeps
    | split

theorem execWireChange_keeps {sB : State} (d : DieId) (link : Fin 4) (s : State)  (hK : Keeps sB s) :
    OutKeeps sB (execWireChange d link s) := by
  unfold execWireChange
  repeat' first
    | with_reducible assumption
    | with_reducible refine OutKeeps.next ?_
    | with_reducible apply releaseHeld_keeps
    | with_reducible apply endWireChange_keeps

theorem execRelock_keeps {sB : State} (d : DieId) (s : State)  (hK : Keeps sB s) :
    OutKeeps sB (execRelock d s) := by
  unfold execRelock
  repeat' first
    | with_reducible assumption
    | with_reducible refine OutKeeps.next ?_
    | with_reducible apply releaseHeld_keeps
    | with_reducible apply endRelock_keeps

end Sys2Proof.Machine
end

