-- ==== Sys2Proof/Laws/KeepFence.lean ====
section
/-!
SUPPORT. What the operations of Machine/Fence.lean keep: the queue and the invariant.
-/
namespace Sys2Proof.Machine

theorem answerFenced_keeps {sB : State} (s : State) (b : Block) (h : HeldReq)  (hK : Keeps sB s) :
    Keeps sB (answerFenced s b h) := by
  unfold answerFenced
  repeat' first
    | with_reducible assumption
    | with_reducible apply answerHeld_keeps
    | with_reducible apply raiseAtRequester_keeps
    | with_reducible apply bump_keeps

theorem abortDelivered_keeps {sB : State} (s : State) (b : Block)  (hK : Keeps sB s) :
    Keeps sB (abortDelivered s b) := by
  unfold abortDelivered
  repeat' first
    | with_reducible assumption
    | with_reducible exact Keeps.refl _
    | with_reducible apply respond_keeps
    | with_reducible apply raiseTag_keeps
    | with_reducible apply bump_keeps
    | with_reducible apply answerFenced_keeps
    | (rw [mk_built]; with_reducible apply Keeps.built)
    | with_reducible refine Keeps.foldl _ (fun _ _ => ?_) ?_
    | with_reducible rfl
    | split
    | with_reducible intro _

theorem dropResponses_keeps {sB : State} (s : State) (f : FrontId) (x : Slot)  (hK : Keeps sB s) :
    Keeps sB (dropResponses s f x) := by
  unfold dropResponses
  repeat' first
    | with_reducible assumption
    | with_reducible apply bump_keeps
    | (rw [mk_built]; with_reducible apply Keeps.built)
    | with_reducible rfl
    | split
    | dsimp only
    | with_reducible intro _

theorem giveUp_keeps {sB : State} (s : State) (f : FrontId) (x : Slot)  (hK : Keeps sB s) :
    Keeps sB (giveUp s f x) := by
  unfold giveUp
  repeat' first
    | with_reducible assumption
    | with_reducible apply dmaState_keeps
    | with_reducible apply putDma_keeps
    | with_reducible apply putPubs_keeps
    | with_reducible apply endParkHold_keeps
    | with_reducible apply putRelay_keeps
    | with_reducible apply decideAlone_keeps
    | (rw [mk_built]; with_reducible apply Keeps.built)
    | with_reducible rfl
    | split
    | dsimp only
    | with_reducible intro _

theorem fenceSlot_keeps {sB : State} (s : State) (f : FrontId) (x : Slot)  (hK : Keeps sB s) :
    Keeps sB (fenceSlot s f x) := by
  unfold fenceSlot
  repeat' first
    | with_reducible apply giveUp_keeps
    | with_reducible apply dropResponses_keeps
    | with_reducible apply bump_keeps
    | with_reducible apply completeSlot_keeps
    | with_reducible apply makePost_keeps
    | with_reducible apply abortSlot_keeps
    | with_reducible refine Keeps.fst ?_ (by assumption)
    | split
    | dsimp only
    | (apply_assumption; done)

theorem fenceSlots_keeps {sB : State} (s : State) (bs : List Block) (f : FrontId)  (hK : Keeps sB s) :
    Keeps sB (fenceSlots s bs f) := by
  unfold fenceSlots
  repeat' first
    | with_reducible exact Keeps.refl _
    | with_reducible apply fenceSlot_keeps
    | with_reducible apply bump_keeps
    | with_reducible apply makePost_keeps
    | with_reducible apply finishCommand_keeps
    | with_reducible apply putFront_keeps
    | with_reducible refine Keeps.fst ?_ (by assumption)
    | with_reducible refine Keeps.foldl _ (fun _ _ => ?_) ?_
    | split
    | dsimp only
    | (apply_assumption; done)

theorem dropPasses_keeps {sB : State} (s : State) (f : FrontId)  (hK : Keeps sB s) :
    Keeps sB (dropPasses s f) := by
  unfold dropPasses
  repeat' first
    | with_reducible exact Keeps.refl _
    | with_reducible apply completeSlot_keeps
    | with_reducible apply raiseTag_keeps
    | with_reducible apply finishCommand_keeps
    | with_reducible apply putFront_keeps
    | with_reducible refine Keeps.foldl _ (fun _ _ => ?_) ?_
    | split
    | dsimp only
    | (apply_assumption; done)

theorem fencePoison_keeps {sB : State} (s : State) (b : Block)  (hK : Keeps sB s) :
    Keeps sB (fencePoison s b) := by
  unfold fencePoison
  repeat' first
    | with_reducible exact Keeps.refl _
    | with_reducible apply replySem_keeps
    | with_reducible apply raiseAtIssuer_keeps
    | with_reducible apply dropPasses_keeps
    | with_reducible apply emptyBatons_keeps
    | with_reducible apply poisonBank_keeps
    | (rw [mk_built]; with_reducible apply Keeps.built)
    | with_reducible refine Keeps.foldl _ (fun _ _ => ?_) ?_
    | split
    | with_reducible intro _
    | (apply_assumption; done)

theorem dropHolds_keeps {sB : State} (s : State) (bs : List Block)  (hK : Keeps sB s) :
    Keeps sB (dropHolds s bs) := by
  unfold dropHolds
  repeat' first
    | with_reducible exact Keeps.refl _
    | with_reducible apply putFront_keeps
    | with_reducible apply reportHold_keeps
    | with_reducible apply putPark_keeps
    | with_reducible refine Keeps.foldl _ (fun _ _ => ?_) ?_
    | split
    | dsimp only
    | (apply_assumption; done)

theorem fenceBlocks_keeps {sB : State} (s : State) (bs : List Block) (wide : Bool)  (hK : Keeps sB s) :
    Keeps sB (fenceBlocks s bs wide) := by
  unfold fenceBlocks
  repeat' first
    | with_reducible exact Keeps.refl _
    | with_reducible apply rput_keeps
    | with_reducible apply bump_keeps
    | with_reducible apply abortDelivered_keeps
    | with_reducible apply fenceSlots_keeps
    | with_reducible apply fencePoison_keeps
    | with_reducible apply dropHolds_keeps
    | with_reducible apply stepSkip_keeps
    | with_reducible refine Keeps.foldl _ (fun _ _ => ?_) ?_
    | split
    | (apply_assumption; done)

theorem fenceBy_keeps {sB : State} (s : State) (bs : List Block) (wide : Bool) (mark : State → State) (hmark : ∀ (x0 : State), Keeps x0 (mark x0)) (hK : Keeps sB s) :
    Keeps sB (fenceBy s bs wide mark) := by
  unfold fenceBy
  repeat' first
    | with_reducible refine Keeps.trans ?_ (hmark _)
    | with_reducible apply fenceBlocks_keeps
    | (apply_assumption; done)

theorem fenceOne_keeps {sB : State} (s : State) (b : Block)  (hK : Keeps sB s) :
    Keeps sB (fenceOne s b) := by
  unfold fenceOne
  repeat' first
    | with_reducible exact Keeps.refl _
    | with_reducible apply fenceBy_keeps
    | with_reducible apply rputBit_keeps
    | with_reducible intro _
    | (apply_assumption; done)

theorem execFence_keeps {sB : State} (b : Block) (s : State)  (hK : Keeps sB s) :
    OutKeeps sB (execFence b s) := by
  unfold execFence
  repeat' first
    | with_reducible refine OutKeeps.next ?_
    | with_reducible apply fenceOne_keeps
    | split
    | (apply_assumption; done)

theorem fenceCore_keeps {sB : State} (s : State) (c : CoreId)  (hK : Keeps sB s) :
    Keeps sB (fenceCore s c) := by
  unfold fenceCore
  repeat' first
    | with_reducible exact Keeps.refl _
    | with_reducible apply fenceBy_keeps
    | with_reducible apply rputBit_keeps
    | with_reducible intro _
    | (apply_assumption; done)

theorem execCoreFence_keeps {sB : State} (c : CoreId) (s : State)  (hK : Keeps sB s) :
    OutKeeps sB (execCoreFence c s) := by
  unfold execCoreFence
  repeat' first
    | with_reducible refine OutKeeps.next ?_
    | with_reducible apply fenceCore_keeps
    | (apply_assumption; done)

theorem fenceDie_keeps {sB : State} (s : State) (d : DieId)  (hK : Keeps sB s) :
    Keeps sB (fenceDie s d) := by
  unfold fenceDie
  repeat' first
    | with_reducible exact Keeps.refl _
    | with_reducible apply fenceBy_keeps
    | with_reducible apply rputBit_keeps
    | with_reducible intro _
    | (apply_assumption; done)

theorem execDieFence_keeps {sB : State} (d : DieId) (s : State)  (hK : Keeps sB s) :
    OutKeeps sB (execDieFence d s) := by
  unfold execDieFence
  repeat' first
    | with_reducible refine OutKeeps.next ?_
    | with_reducible apply fenceDie_keeps
    | split
    | (apply_assumption; done)

theorem clockFromImage_keeps {sB : State} (s : State) (d : DieId) (i : Nat)  (hK : Keeps sB s) :
    Keeps sB (clockFromImage s d i) := by
  unfold clockFromImage
  repeat' first
    | with_reducible assumption
    | with_reducible apply rput_keeps

theorem resetRegs_keeps {sB : State} (s : State) (b : Block)  (hK : Keeps sB s) :
    Keeps sB (resetRegs s b) := by
  unfold resetRegs
  repeat' first
    | with_reducible assumption
    | with_reducible apply rputBit_keeps
    | with_reducible apply clockFromImage_keeps
    | (rw [mk_built]; with_reducible apply Keeps.built)
    | with_reducible rfl
    | with_reducible exact keysRise_filter _ _ (by assumption)
    | split
    | dsimp only
    | with_reducible intro _

theorem hostBase_keeps {sB : State} (s : State)  (hK : Keeps sB s) :
    Keeps sB (hostBase s) := by
  unfold hostBase
  repeat' first
    | with_reducible apply rput64_keeps
    | with_reducible apply rput_keeps
    | (rw [mk_built]; with_reducible apply Keeps.built)
    | with_reducible intro _
    | (apply_assumption; done)

theorem forgetAnswered_keeps {sB : State} (s : State) (b : Block)  (hK : Keeps sB s) :
    Keeps sB (forgetAnswered s b) := by
  unfold forgetAnswered
  repeat' first
    | with_reducible assumption
    | (rw [mk_built]; with_reducible apply Keeps.built)
    | with_reducible rfl
    | with_reducible intro _

theorem resetSegs_keeps {sB : State} (s : State) (c : CoreId) (m : CoreMem)  (hK : Keeps sB s) :
    Keeps sB (resetSegs s c m) := by
  unfold resetSegs
  repeat' first
    | with_reducible exact Keeps.refl _
    | with_reducible apply zeroRange_keeps
    | with_reducible apply putSeg_keeps
    | with_reducible refine Keeps.foldl _ (fun _ _ => ?_) ?_
    | split
    | (apply_assumption; done)

/-- Replacing the fills that run by ones whose values have 31 bits. -/
theorem filling_keeps {sB : State} (s : State) (l : List (Nat × Nat))
    (hl : s.Inv → l.all (fun e => decide (e.2 < 2 ^ 31)) = true) (hK : Keeps sB s) :
    Keeps sB { s with filling := l } :=
  ⟨hK.pending, hK.boot, hK.image, hK.mono, fun i =>
    let j := hK.inv i
    { j with filling := hl j }⟩

theorem resetFront_keeps {sB : State} (s : State) (f : FrontId) (hK : Keeps sB s) : Keeps sB (resetFront s f) := by
  unfold resetFront
  dsimp only
  split
  · exact Keeps.leaf hK
  · exact startFill_keeps _ _ (Keeps.leaf (fillBank_keeps _ _ _ (fun _ => by decide) (Keeps.leaf hK)))

theorem resetSems_keeps {sB : State} (s : State) (c : CoreId) (hK : Keeps sB s) : Keeps sB (resetSems s c) :=
  emptyBatons_keeps _ _ (fillBank_keeps _ _ _ (fun _ => by decide)
    (filling_keeps _ _ (fun j => all_filter _ _ _ j.filling) hK))

theorem resetUnit_keeps {sB : State} (s : State) (b : Block)  (hK : Keeps sB s) :
    Keeps sB (resetUnit s b) := by
  unfold resetUnit
  repeat' first
    | (rename_i h; exact keysRise_filter _ _ h)
    | with_reducible assumption
    | with_reducible exact Keeps.refl _
    | with_reducible apply resetFront_keeps
    | with_reducible apply resetSems_keeps
    | with_reducible apply startFill_keeps
    | with_reducible apply resetSegs_keeps
    | with_reducible apply putDma_keeps
    | with_reducible apply discardPubs_keeps
    | with_reducible apply putPark_keeps
    | with_reducible apply putRelay_keeps
    | with_reducible apply forgetAnswered_keeps
    | with_reducible apply releaseHeld_keeps
    | with_reducible apply putPath_keeps
    | with_reducible apply hostBase_keeps
    | with_reducible apply loseKids_keeps
    | with_reducible apply abortCut_keeps
    | with_reducible apply abortRemotes_keeps
    | with_reducible apply putPort_keeps
    | with_reducible apply closeHolds_keeps
    | (rw [mk_built]; with_reducible apply Keeps.built)
    | with_reducible refine Keeps.foldl _ (fun _ _ => ?_) ?_
    | with_reducible rfl
    | split
    | dsimp only
    | with_reducible intro _
    | (apply_assumption; done)

theorem softReset_keeps {sB : State} (s : State) (b : Block)  (hK : Keeps sB s) :
    Keeps sB (softReset s b) := by
  unfold softReset
  repeat' first
    | with_reducible exact Keeps.refl _
    | with_reducible apply fenceBy_keeps
    | with_reducible apply resetUnit_keeps
    | with_reducible apply resetRegs_keeps
    | (rw [mk_built]; with_reducible apply Keeps.built)
    | with_reducible intro _
    | (apply_assumption; done)

theorem softResetDone_keeps {sB : State} (s : State) (b : Block)  (hK : Keeps sB s) :
    Keeps sB (softResetDone s b) := by
  unfold softResetDone
  repeat' first
    | with_reducible apply rput_keeps
    | (rw [mk_built]; with_reducible apply Keeps.built)
    | split
    | with_reducible intro _
    | (apply_assumption; done)

theorem execSoftReset_keeps {sB : State} (b : Block) (s : State)  (hK : Keeps sB s) :
    OutKeeps sB (execSoftReset b s) := by
  unfold execSoftReset
  repeat' first
    | with_reducible refine OutKeeps.next ?_
    | with_reducible apply softReset_keeps
    | split
    | (apply_assumption; done)

theorem execSoftResetDone_keeps {sB : State} (b : Block) (s : State)  (hK : Keeps sB s) :
    OutKeeps sB (execSoftResetDone b s) := by
  unfold execSoftResetDone
  repeat' first
    | with_reducible refine OutKeeps.next ?_
    | with_reducible apply softResetDone_keeps
    | (apply_assumption; done)

theorem writeCtrl_keeps {sB : State} (s : State) (b : Block) (v : Word)  (hK : Keeps sB s) :
    Keeps sB (writeCtrl s b v) := by
  unfold writeCtrl
  repeat' first
    | with_reducible apply rput_keeps
    | with_reducible apply fenceOne_keeps
    | with_reducible apply rputBit_keeps
    | with_reducible apply softReset_keeps
    | split
    | dsimp only
    | (apply_assumption; done)

theorem execEnable_keeps {sB : State} (b : Block) (v : Bool) (s : State)  (hK : Keeps sB s) :
    OutKeeps sB (execEnable b v s) := by
  unfold execEnable
  repeat' first
    | with_reducible refine OutKeeps.next ?_
    | with_reducible apply rputBit_keeps
    | split
    | (apply_assumption; done)

theorem writeErrStatus_keeps {sB : State} (s : State) (b : Block) (v : Word)  (hK : Keeps sB s) :
    Keeps sB (writeErrStatus s b v) := by
  unfold writeErrStatus
  repeat' first
    | with_reducible assumption
    | with_reducible exact Keeps.refl _
    | with_reducible apply rput_keeps
    | with_reducible apply rputBit_keeps
    | with_reducible refine Keeps.foldl _ (fun _ _ => ?_) ?_
    | split
    | dsimp only

theorem execErrStatus_keeps {sB : State} (b : Block) (v : Word) (s : State)  (hK : Keeps sB s) :
    OutKeeps sB (execErrStatus b v s) := by
  unfold execErrStatus
  repeat' first
    | with_reducible refine OutKeeps.next ?_
    | with_reducible apply writeErrStatus_keeps
    | (apply_assumption; done)

theorem writeLatchCtrl_keeps {sB : State} (s : State) (b : Block) (v : Word)  (hK : Keeps sB s) :
    Keeps sB (writeLatchCtrl s b v) := by
  unfold writeLatchCtrl
  repeat' first
    | with_reducible apply latchCounters_keeps
    | with_reducible apply rputBit_keeps
    | split
    | (apply_assumption; done)

theorem execSnapshot_keeps {sB : State} (b : Block) (s : State)  (hK : Keeps sB s) :
    OutKeeps sB (execSnapshot b s) := by
  unfold execSnapshot
  repeat' first
    | with_reducible refine OutKeeps.next ?_
    | with_reducible apply latchCounters_keeps
    | (apply_assumption; done)

theorem clearChecks_keeps {sB : State} (s : State) (c : CoreId)  (hK : Keeps sB s) :
    Keeps sB (clearChecks s c) := by
  unfold clearChecks
  repeat' first
    | with_reducible exact Keeps.refl _
    | with_reducible apply rput_keeps
    | with_reducible refine Keeps.foldl _ (fun _ _ => ?_) ?_
    | (apply_assumption; done)

theorem execCheckClear_keeps {sB : State} (c : CoreId) (s : State)  (hK : Keeps sB s) :
    OutKeeps sB (execCheckClear c s) := by
  unfold execCheckClear
  repeat' first
    | with_reducible refine OutKeeps.next ?_
    | with_reducible apply clearChecks_keeps
    | (apply_assumption; done)

theorem finishSemFill_keeps {sB : State} (s : State) (c : CoreId) (hK : Keeps sB s) : Keeps sB (finishSemFill s c) := by
  unfold finishSemFill
  split
  · rename_i k n e
    dsimp only
    refine fillBank_keeps _ _ _ (fun i => ?_)
      (Keeps.leaf (filling_keeps s _ (fun j => all_filter _ _ _ j.filling) hK))
    have h := (hK.inv i).filling
    rw [List.all_eq_true] at h
    simpa using h _ (List.mem_of_find?_eq_some e)
  · exact hK

theorem bits31 (v : Word) : bits v 30 0 < 2 ^ 31 := Nat.mod_lt _ (by decide)

theorem writeSemData_keeps {sB : State} (s : State) (c : CoreId) (v : Word) (hK : Keeps sB s) :
    Keeps sB (writeSemData s c v) := by
  have h1 := fun i w => putSem_keeps (finishSemFill s c) (.cp c) i { count := bits v 30 0, poison := bit v 31, src := w }
    (fun _ => bits31 v) (finishSemFill_keeps s c hK)
  unfold writeSemData
  dsimp only
  split
  · exact noteFirstPoison_keeps _ _ _ _ (h1 _ _)
  · exact clearFirstPoison_keeps _ _ (h1 _ _)

theorem execSemData_keeps {sB : State} (c : CoreId) (v : Word) (s : State)  (hK : Keeps sB s) :
    OutKeeps sB (execSemData c v s) := by
  unfold execSemData
  repeat' first
    | with_reducible refine OutKeeps.next ?_
    | with_reducible apply writeSemData_keeps
    | (apply_assumption; done)

theorem writeSemFill_keeps {sB : State} (s : State) (c : CoreId) (v : Word) (hK : Keeps sB s) :
    Keeps sB (writeSemFill s c v) := by
  refine filling_keeps _ _ (fun j => ?_) (finishSemFill_keeps s c hK)
  rw [List.all_append, j.filling]
  simpa using bits31 v

theorem execSemFill_keeps {sB : State} (c : CoreId) (v : Word) (s : State)  (hK : Keeps sB s) :
    OutKeeps sB (execSemFill c v s) := by
  unfold execSemFill
  repeat' first
    | with_reducible refine OutKeeps.next ?_
    | with_reducible apply writeSemFill_keeps
    | (apply_assumption; done)

theorem execSemFillDone_keeps {sB : State} (c : CoreId) (s : State)  (hK : Keeps sB s) :
    OutKeeps sB (execSemFillDone c s) := by
  unfold execSemFillDone
  repeat' first
    | with_reducible refine OutKeeps.next ?_
    | with_reducible apply finishSemFill_keeps
    | (apply_assumption; done)

theorem writeBatonPass_keeps {sB : State} (s : State) (c : CoreId) (v : Word) (hK : Keeps sB s) :
    Keeps sB (writeBatonPass s c v) := by
  unfold writeBatonPass
  dsimp only
  split
  · exact bump_keeps _ _ _ _ hK
  · split
    · rename_i h
      exact batonPut_keeps _ _ _ _ _ (fun _ => by simpa [batonRoom] using h) hK
    · exact bump_keeps _ _ _ _ hK

theorem execBatonPass_keeps {sB : State} (c : CoreId) (v : Word) (s : State)  (hK : Keeps sB s) :
    OutKeeps sB (execBatonPass c v s) := by
  unfold execBatonPass
  repeat' first
    | with_reducible refine OutKeeps.next ?_
    | with_reducible apply writeBatonPass_keeps
    | (apply_assumption; done)

theorem writeBatonPop_keeps {sB : State} (s : State) (c : CoreId) (v : Word) (hK : Keeps sB s) :
    Keeps sB (writeBatonPop s c v) := by
  unfold writeBatonPop
  dsimp only
  split
  · exact rput_keeps _ _ _ _ hK
  · rename_i t l e
    refine rput_keeps _ _ _ _ (putBaton_keeps _ _ _ _ (fun j => ?_) hK)
    have := getBaton_le j c (bits v 3 0)
    rw [e] at this
    simp only [List.length_cons] at this
    omega

theorem execBatonPop_keeps {sB : State} (c : CoreId) (v : Word) (s : State)  (hK : Keeps sB s) :
    OutKeeps sB (execBatonPop c v s) := by
  unfold execBatonPop
  repeat' first
    | with_reducible refine OutKeeps.next ?_
    | with_reducible apply writeBatonPop_keeps
    | (apply_assumption; done)

end Sys2Proof.Machine
end

