-- ==== Sys2Proof/Laws/KeepSteward.lean ====
section
/-!
SUPPORT. What the operations of Machine/Steward.lean keep: the queue and the invariant.
-/
namespace Sys2Proof.Machine

theorem deliverRecord_keeps {sB : State} (s : State) (b : Block)  (hK : Keeps sB s) :
    Keeps sB (deliverRecord s b) := by
  unfold deliverRecord
  repeat' first
    | with_reducible apply raise_keeps
    | with_reducible apply bump_keeps
    | (rw [mk_built]; with_reducible apply Keeps.built)
    | split
    | with_reducible intro _
    | (apply_assumption; done)

theorem execErrorRecord_keeps {sB : State} (b : Block) (s : State)  (hK : Keeps sB s) :
    OutKeeps sB (execErrorRecord b s) := by
  unfold execErrorRecord
  repeat' first
    | with_reducible refine OutKeeps.next ?_
    | with_reducible apply deliverRecord_keeps
    | (apply_assumption; done)

theorem execRecordResend_keeps {sB : State} (b : Block) (s : State)  (hK : Keeps sB s) :
    OutKeeps sB (execRecordResend b s) := by
  unfold execRecordResend
  repeat' first
    | with_reducible refine OutKeeps.next ?_
    | with_reducible apply deliverRecord_keeps
    | (rw [mk_built]; with_reducible apply Keeps.built)
    | split
    | with_reducible intro _
    | (apply_assumption; done)

theorem putUnit_keeps {sB : State} (s : State) (e : UnitEntry)  (hK : Keeps sB s) :
    Keeps sB (putUnit s e) := by
  unfold putUnit
  repeat' first
    | (rw [mk_built]; with_reducible apply Keeps.built)
    | with_reducible intro _
    | (apply_assumption; done)

theorem addUnit_keeps {sB : State} (s : State) (e : UnitEntry)  (hK : Keeps sB s) :
    Keeps sB (addUnit s e) := by
  unfold addUnit
  repeat' first
    | (rw [mk_built]; with_reducible apply Keeps.built)
    | split
    | dsimp only
    | with_reducible intro _
    | (apply_assumption; done)

theorem retireCore_keeps {sB : State} (s : State) (c : CoreId)  (hK : Keeps sB s) :
    Keeps sB (retireCore s c) := by
  unfold retireCore
  repeat' first
    | with_reducible assumption
    | with_reducible exact Keeps.refl _
    | with_reducible apply fenceBy_keeps
    | with_reducible apply rputBit_keeps
    | with_reducible apply putChange_keeps
    | with_reducible apply noteScheduled_keeps
    | with_reducible apply raise_keeps
    | with_reducible refine Keeps.foldl _ (fun _ _ => ?_) ?_
    | with_reducible intro _

theorem retireArrayLane_keeps {sB : State} (s : State) (c : CoreId) (l : Fin 32)  (hK : Keeps sB s) :
    Keeps sB (retireArrayLane s c l) := by
  unfold retireArrayLane
  repeat' first
    | with_reducible assumption
    | with_reducible apply retireCore_keeps
    | with_reducible apply noteScheduled_keeps
    | with_reducible apply putChange_keeps
    | split
    | dsimp only

theorem retireColumn_keeps {sB : State} (s : State) (c : CoreId) (u : Fin 32)  (hK : Keeps sB s) :
    Keeps sB (retireColumn s c u) := by
  unfold retireColumn
  repeat' first
    | with_reducible assumption
    | with_reducible apply noteScheduled_keeps
    | with_reducible apply putChange_keeps

theorem limitPrecision_keeps {sB : State} (s : State) (c : CoreId)  (hK : Keeps sB s) :
    Keeps sB (limitPrecision s c) := by
  unfold limitPrecision
  repeat' first
    | with_reducible assumption
    | with_reducible apply noteScheduled_keeps
    | with_reducible apply putChange_keeps

theorem permanent_keeps {sB : State} (s : State) (e : UnitEntry)  (hK : Keeps sB s) :
    Keeps sB (permanent s e).1 := by
  unfold permanent
  repeat' first
    | with_reducible apply limitPrecision_keeps
    | with_reducible apply putUnit_keeps
    | with_reducible apply retireArrayLane_keeps
    | with_reducible apply countLife_keeps
    | with_reducible apply retireColumn_keeps
    | with_reducible apply retireCore_keeps
    | with_reducible apply startRetire_keeps
    | with_reducible apply raise_keeps
    | split
    | (apply_assumption; done)

theorem chargeKnown_keeps {sB : State} (s : State) (e : UnitEntry)  (hK : Keeps sB s) :
    Keeps sB (chargeKnown s e).1 := by
  unfold chargeKnown
  repeat' first
    | with_reducible assumption
    | with_reducible apply permanent_keeps
    | with_reducible apply raise_keeps
    | with_reducible apply bump_keeps
    | with_reducible apply putUnit_keeps
    | with_reducible refine marginStep_keeps (by assumption) ?_
    | split

theorem noteClass_keeps {sB : State} (s : State) (u : Unit_) (r : ErrRecord) (k : Nat)  (hK : Keeps sB s) :
    Keeps sB (noteClass s u r k) := by
  unfold noteClass
  repeat' first
    | (rw [mk_built]; with_reducible apply Keeps.built)
    | with_reducible intro _
    | (apply_assumption; done)

theorem chargeUnit_keeps {sB : State} (s : State) (u : Unit_) (r : ErrRecord)  (hK : Keeps sB s) :
    Keeps sB (chargeUnit s u r).1 := by
  unfold chargeUnit
  repeat' first
    | with_reducible apply addUnit_keeps
    | with_reducible apply permanent_keeps
    | with_reducible apply noteClass_keeps
    | with_reducible apply bump_keeps
    | with_reducible apply chargeKnown_keeps
    | with_reducible apply putUnit_keeps
    | split
    | (apply_assumption; done)

theorem raiseOwn_keeps {sB : State} (s : State) (cause cls : Nat)  (hK : Keeps sB s) :
    Keeps sB (raiseOwn s cause cls) := by
  unfold raiseOwn
  repeat' first
    | with_reducible assumption
    | with_reducible apply ownRecord_keeps
    | with_reducible apply setCause_keeps

theorem startSwitch_keeps {sB : State} (s : State)  (hK : Keeps sB s) :
    Keeps sB (startSwitch s) := by
  unfold startSwitch
  repeat' first
    | with_reducible apply haltStride_keeps
    | (rw [mk_built]; with_reducible apply Keeps.built)
    | split
    | with_reducible intro _
    | (apply_assumption; done)

theorem failStandby_keeps {sB : State} (s : State)  (hK : Keeps sB s) :
    Keeps sB (failStandby s) := by
  unfold failStandby
  repeat' first
    | with_reducible apply fenceDie_keeps
    | with_reducible apply raiseOwn_keeps
    | (rw [mk_built]; with_reducible apply Keeps.built)
    | split
    | with_reducible intro _
    | (apply_assumption; done)

theorem copyCounters_rise (a b : Block) (l : List (Nat × Nat)) (h : keysRise l = true) :
    keysRise (copyCounters a b l) = true := by
  unfold copyCounters
  induction List.range 24 generalizing l with
  | nil => exact h
  | cons k ks ih => exact ih _ (keysRise_tset _ _ _ _ h)

theorem copyCounters_ok (a b : Block) (l : List (Nat × Nat)) (h : l.all counterOk = true) :
    (copyCounters a b l).all counterOk = true := by
  unfold copyCounters
  induction List.range 24 generalizing l with
  | nil => exact h
  | cons k ks ih =>
    refine ih _ (all_tset _ _ _ _ ?_ _ h)
    have := tget_all (fun n => n < 2 ^ 64) 0 (by decide) (a.page * 24 + k) l (fun e he => by
      rw [List.all_eq_true] at h
      simpa [counterOk] using h e he)
    simpa [counterOk] using this

/-- The counters of a steward's page have its keys. -/
theorem stewardKey_cnt (b : Block) (k : Nat) (hb : stewardPage b = true) (hk : k < 24) : stewardKey (b.page * 24 + k) = true := by
  have h : (b.page * 24 + k) / 24 = b.page := by omega
  unfold stewardKey
  rw [h]
  cases b <;> simp_all [stewardPage]
  all_goals
    rename_i n
    have : n = 0 ∨ n = 1 := by omega
    rcases this with rfl | rfl <;> simp

theorem copyCounters_mono (a b : Block) (l : List (Nat × Nat)) (hb : stewardPage b = true) (h : keysRise l = true) (k : Nat)
    (hk : stewardKey k = false) : tget 0 (copyCounters a b l) k = tget 0 l k := by
  unfold copyCounters
  have key : ∀ ks : List Nat, (∀ j ∈ ks, j < 24) → ∀ l : List (Nat × Nat), keysRise l = true →
      tget 0 (ks.foldl (fun l k => tset 0 l (b.page * 24 + k) (tget 0 l (a.page * 24 + k))) l) k = tget 0 l k := by
    intro ks
    induction ks with
    | nil => intros; rfl
    | cons j ks ih =>
      intro hj l hl
      rw [List.foldl, ih (fun x m => hj x (by simp [m])) _ (keysRise_tset _ _ _ _ hl)]
      refine tget_tset_rise_ne _ _ _ _ _ ?_ 0 _ hl
      rintro rfl
      rw [stewardKey_cnt b j hb (hj j (by simp))] at hk
      cases hk
  exact key _ (by simp) l h

theorem counters_keeps {sB : State} (s : State) (c l : List (Nat × Nat)) (hc : s.Inv → keysRise c = true)
    (ha : s.Inv → c.all counterOk = true) (hl : s.Inv → keysRise l = true)
    (hm : s.Inv → ∀ k, stewardKey k = false → tget 0 s.counters k ≤ tget 0 c k) (hK : Keeps sB s) :
    Keeps sB { s with counters := c, latched := l } :=
  ⟨hK.pending, hK.boot, hK.image, fun i k hk => Nat.le_trans (hK.mono i k hk) (hm (hK.inv i) k hk), fun i =>
    let j := hK.inv i
    { j with
      counters := hc j
      counts := ha j
      latched := hl j }⟩

theorem mirrorCounters_keeps {sB : State} (s : State) (a b : Block) (hb : stewardPage b = true) (hK : Keeps sB s) :
    Keeps sB (mirrorCounters s a b) := by
  unfold mirrorCounters
  exact counters_keeps _ _ _ (fun j => copyCounters_rise _ _ _ j.counters) (fun j => copyCounters_ok _ _ _ j.counts)
    (fun j => copyCounters_rise _ _ _ j.latched) (fun j k hk => Nat.le_of_eq (copyCounters_mono _ _ _ hb j.counters k hk).symm) hK

theorem mirrorPage_keeps {sB : State} (s : State) (a b : Block) (hb : stewardPage b = true) (hK : Keeps sB s) :
    Keeps sB (mirrorPage s a b) := by
  unfold mirrorPage
  repeat' first
    | with_reducible exact Keeps.refl _
    | with_reducible apply mirrorCounters_keeps
    | with_reducible apply rput_keeps
    | (rw [mk_built]; with_reducible apply Keeps.built)
    | with_reducible refine Keeps.foldl _ (fun _ _ => ?_) ?_
    | with_reducible exact keysRise_filter _ _ (by assumption)
    | with_reducible intro _
    | (apply_assumption; done)

theorem switchOver_keeps {sB : State} (s : State)  (hK : Keeps sB s) :
    Keeps sB (switchOver s) := by
  unfold switchOver
  repeat' first
    | with_reducible assumption
    | with_reducible exact rfl
    | with_reducible apply useFresh_keeps
    | with_reducible apply mirrorPage_keeps
    | with_reducible apply stepSkip_keeps
    | with_reducible apply fenceDie_keeps
    | with_reducible apply rputField_keeps
    | with_reducible apply rput_keeps
    | with_reducible apply raiseOwn_keeps
    | with_reducible apply countLife_keeps
    | with_reducible apply bump_keeps
    | (rw [mk_built]; with_reducible apply Keeps.built)
    | split
    | with_reducible intro _
    | (apply_assumption; done)

theorem execSwitchover_keeps {sB : State} (s : State)  (hK : Keeps sB s) :
    OutKeeps sB (execSwitchover s) := by
  unfold execSwitchover
  repeat' first
    | with_reducible assumption
    | with_reducible refine OutKeeps.next ?_
    | with_reducible apply switchOver_keeps

theorem switchRequest_keeps {sB : State} (s : State)  (hK : Keeps sB s) :
    Keeps sB (switchRequest s) := by
  unfold switchRequest
  repeat' first
    | with_reducible apply startSwitch_keeps
    | split
    | (apply_assumption; done)

theorem execSwitchReq_keeps {sB : State} (s : State)  (hK : Keeps sB s) :
    OutKeeps sB (execSwitchReq s) := by
  unfold execSwitchReq
  repeat' first
    | with_reducible refine OutKeeps.next ?_
    | with_reducible apply switchRequest_keeps
    | (apply_assumption; done)

theorem execHeartbeat_keeps {sB : State} (delivered acked : Bool) (s : State)  (hK : Keeps sB s) :
    OutKeeps sB (execHeartbeat delivered acked s) := by
  unfold execHeartbeat
  repeat' first
    | with_reducible refine OutKeeps.next ?_
    | with_reducible apply bump_keeps
    | with_reducible apply startSwitch_keeps
    | with_reducible apply failStandby_keeps
    | (rw [mk_built]; with_reducible apply Keeps.built)
    | split
    | dsimp only
    | with_reducible intro _
    | (apply_assumption; done)

theorem stewardCharged_keeps {sB : State} (s : State) (c : Charge) (k : Nat)  (hK : Keeps sB s) :
    Keeps sB (stewardCharged s c k) := by
  unfold stewardCharged
  repeat' first
    | with_reducible apply startSwitch_keeps
    | with_reducible apply failStandby_keeps
    | split
    | (apply_assumption; done)

theorem execHandling_keeps {sB : State} (s : State)  (hK : Keeps sB s) :
    OutKeeps sB (execHandling s) := by
  unfold execHandling
  repeat' first
    | with_reducible assumption
    | with_reducible refine OutKeeps.next ?_
    | with_reducible apply chargeUnit_keeps
    | with_reducible apply writeLog_keeps
    | with_reducible apply countClass_keeps
    | with_reducible apply stewardCharged_keeps
    | (rw [mk_built]; with_reducible apply Keeps.built)
    | with_reducible rfl
    | split
    | dsimp only
    | with_reducible intro _

theorem writeLogSize_keeps {sB : State} (s : State) (v : Word)  (hK : Keeps sB s) :
    Keeps sB (writeLogSize s v) := by
  unfold writeLogSize
  repeat' first
    | with_reducible apply rput_keeps
    | with_reducible apply raise_keeps
    | (rw [mk_built]; with_reducible apply Keeps.built)
    | split
    | dsimp only
    | with_reducible intro _
    | (apply_assumption; done)

theorem execLogSize_keeps {sB : State} (v : Word) (s : State)  (hK : Keeps sB s) :
    OutKeeps sB (execLogSize v s) := by
  unfold execLogSize
  repeat' first
    | with_reducible refine OutKeeps.next ?_
    | with_reducible apply writeLogSize_keeps
    | (apply_assumption; done)

theorem marginExhausted_keeps {sB : State} (s : State) (b : Block) (o : Occur)  (hK : Keeps sB s) :
    Keeps sB (marginExhausted s b o) := by
  unfold marginExhausted
  repeat' first
    | with_reducible assumption
    | with_reducible apply raiseWith_keeps
    | with_reducible apply ownRecord_keeps
    | split
    | dsimp only

theorem sampleDie_keeps {sB : State} (s : State) (d : DieId) (x : Int) (failing : BitVec 8)  (hK : Keeps sB s) :
    Keeps sB (sampleDie s d x failing) := by
  unfold sampleDie
  repeat' first
    | with_reducible assumption
    | with_reducible apply rput_keeps
    | with_reducible apply bump_keeps
    | with_reducible apply raiseWith_keeps
    | with_reducible apply setCause_keeps
    | with_reducible apply marginExhausted_keeps
    | (rw [mk_built]; with_reducible apply Keeps.built)
    | with_reducible refine marginStep_keeps (by assumption) ?_
    | with_reducible rfl
    | split
    | dsimp only
    | with_reducible intro _

theorem execSentinelSample_keeps {sB : State} (slack : List Int) (failing : List (BitVec 8)) (s : State)  (hK : Keeps sB s) :
    OutKeeps sB (execSentinelSample slack failing s) := by
  unfold execSentinelSample
  repeat' first
    | with_reducible assumption
    | with_reducible exact Keeps.refl _
    | with_reducible refine OutKeeps.next ?_
    | with_reducible apply sampleDie_keeps
    | with_reducible refine Keeps.foldl _ (fun _ _ => ?_) ?_
    | split

end Sys2Proof.Machine
end

