-- ==== Sys2Proof/Laws/KeepStartup.lean ====
section
/-!
SUPPORT. What the operations of Machine/Startup.lean keep: the queue and the invariant.
-/
namespace Sys2Proof.Machine

theorem resetDevice_holds (s : State) (cause : Nat) (power : Bool) : Holds s (resetDevice s cause power) := by
  unfold resetDevice
  extract_lets seen trip held r0 x b r r1
  have h0 : Holds s r := ⟨rfl, fun _ =>
    { mem := rfl, regs := rfl, shadows := rfl, counters := rfl, counts := rfl, latched := rfl, banks := rfl, sems := rfl,
      filling := rfl, batons := rfl, tokens := rfl, fronts := rfl, segms := rfl, preds := rfl, beats := rfl, tables := rfl,
      dmas := rfl, routes := rfl, decisions := rfl, pubs := rfl, parks := rfl, relays := rfl, nauloPorts := rfl,
      changes := rfl, relocks := rfl, feeds := rfl, hotRuns := rfl, cvs := rfl, paths := rfl }⟩
  have h1 : Keeps r r1 := countLife_keeps _ _ (rput_keeps _ _ _ _ (Keeps.refl r))
  exact h0.keeps (Keeps.foldl _ (fun _ _ => bump_keeps _ _ _ _ (rput_keeps _ _ _ _ (Keeps.refl _))) h1)

theorem execPowerOn_holds (s : State) : OutHolds s (execPowerOn s) := OutHolds.next (resetDevice_holds s 0 true)

theorem execResetN_holds (asserted : Bool) (s : State) : OutHolds s (execResetN asserted s) := by
  refine OutHolds.next ?_
  split
  · split
    · exact (Keeps.refl s).holds
    · exact (Keeps.leaf (Keeps.refl s)).holds.trans (resetDevice_holds _ _ _)
  · split
    · exact ⟨rfl, fun i => { i with mem := i.mem }⟩
    · exact (Keeps.refl s).holds

theorem writeResetReq_keeps {sB : State} (s : State) (v : Word)  (hK : Keeps sB s) :
    Keeps sB (writeResetReq s v) := by
  unfold writeResetReq
  repeat' first
    | (rw [mk_built]; with_reducible apply Keeps.built)
    | split
    | with_reducible intro _
    | (apply_assumption; done)

theorem execResetReq_keeps {sB : State} (v : Word) (s : State)  (hK : Keeps sB s) :
    OutKeeps sB (execResetReq v s) := by
  unfold execResetReq
  repeat' first
    | with_reducible refine OutKeeps.next ?_
    | with_reducible apply writeResetReq_keeps
    | (apply_assumption; done)

theorem execDeviceReset_holds (s : State) : OutHolds s (execDeviceReset s) := by
  refine OutHolds.next ?_
  split
  · exact (Keeps.refl s).holds
  · exact (Keeps.leaf (Keeps.refl s)).holds.trans (resetDevice_holds _ _ _)

theorem brownOut_holds (s : State) (rail : Fin 4) : Holds s (brownOut s rail) := by
  unfold brownOut
  split <;> exact resetDevice_holds _ _ _

theorem execBrownOut_holds (rail : Fin 4) (s : State) : OutHolds s (execBrownOut rail s) := by
  refine OutHolds.next ?_
  split
  · exact (Keeps.refl s).holds
  · exact brownOut_holds _ _

theorem endsWithin_keeps {sB : State} (s : State) (bound : Nat)  (hK : Keeps sB s) :
    Keeps sB (endsWithin s bound) := by
  unfold endsWithin
  repeat' first
    | with_reducible apply useFresh_keeps
    | (rw [mk_built]; with_reducible apply Keeps.built)
    | with_reducible intro _
    | (apply_assumption; done)

/-- Going on from one phase to another, neither of them READY: what unlisted bytes read as does not change. -/
theorem phase_holds {sB : State} (s : State) (b : Boot) (hs : s.boot.phase ≠ .ready) (hb : b.phase ≠ .ready)
    (hK : Holds sB s) : Holds sB { s with boot := b } := by
  refine hK.trans ⟨rfl, fun j => { j with mem := ?_ }⟩
  have hu : unlistedByte { s with boot := b } = unlistedByte s := by
    funext a
    simp [unlistedByte, hs, hb]
  have hm := j.mem
  unfold memWf at hm ⊢
  rw [hu]
  exact hm

theorem toPhase_holds {sB : State} (s : State) (p : BootPhase) (hs : s.boot.phase ≠ .ready) (hp : p ≠ .ready)
    (hK : Holds sB s) : Holds sB (toPhase s p) := phase_holds s _ hs hp hK

theorem inPhase_ne {s : State} {p : BootPhase} (h : inPhase s p = true) (hp : p ≠ .ready) : s.boot.phase ≠ .ready := by
  simp only [inPhase, Bool.and_eq_true, decide_eq_true_eq] at h
  rw [h.1]
  exact hp

theorem noteBootTime_keeps {sB : State} (s : State)  (hK : Keeps sB s) :
    Keeps sB (noteBootTime s) := by
  unfold noteBootTime
  repeat' first
    | with_reducible apply rput_keeps
    | (apply_assumption; done)

theorem enterRecovery_holds {sB : State} (s : State) (reason : Nat) (hs : s.boot.phase ≠ .ready) (hK : Holds sB s) :
    Holds sB (enterRecovery s reason) := by
  unfold enterRecovery
  exact (phase_holds s _ hs (by simp) hK).keeps (hostBase_keeps _ (noteBootTime_keeps _ (Keeps.refl _)))

theorem execRom_holds (saGood sbGood : Bool) (s : State) : OutHolds s (execRom saGood sbGood s) := by
  refine OutHolds.next ?_
  split
  · exact (Keeps.refl s).holds
  · rename_i h
    have hp : s.boot.phase ≠ .ready := inPhase_ne (p := .rom) (by simp at h; exact h.1) (by simp)
    have h1 := endsWithin_keeps s 2000000 (Keeps.refl s)
    dsimp only
    split
    · exact (Keeps.leaf h1).holds
    · have h2 := fun x => phase_holds (sB := s) { (endsWithin s 2000000) with steward := x }
        { (endsWithin s 2000000).boot with romPassed := true, phase := .identity } (by rw [h1.phase]; exact hp) (by simp)
        (Keeps.leaf h1).holds
      split
      · exact h2 _
      · exact (h2 _).keeps (fenceDie_keeps _ _ (Keeps.refl _))

theorem execIdentity_holds (s : State) : OutHolds s (execIdentity s) := by
  refine OutHolds.next ?_
  split
  · exact (Keeps.refl s).holds
  · rename_i h
    have hp : s.boot.phase ≠ .ready := inPhase_ne (p := .identity) (by simpa using h) (by simp)
    have h1 := endsWithin_keeps s 5000000 (Keeps.refl s)
    have hq : (endsWithin s 5000000).boot.phase ≠ .ready := by rw [h1.phase]; exact hp
    dsimp only
    split
    · exact enterRecovery_holds _ _ hq h1.holds
    · have h2 := phase_holds (sB := s) (endsWithin s 5000000) { (endsWithin s 5000000).boot with secret := true } hq hq h1.holds
      split
      · exact enterRecovery_holds _ _ hq h2
      · exact toPhase_holds _ _ hq (by simp) h2

theorem acceptImage_holds (s : State) (i : Image) : Holds s (acceptImage s i) :=
  ⟨rfl, fun j => { j with mem := j.mem }⟩

theorem execImage_holds (s : State) : OutHolds s (execImage s) := by
  refine OutHolds.next ?_
  split
  · exact (Keeps.refl s).holds
  · rename_i h
    have hp : s.boot.phase ≠ .ready := inPhase_ne (p := .image) (by simpa using h) (by simp)
    dsimp only
    have h1 := endsWithin_keeps s (9000000 + 2700000 * s.flash.image.length / 2 ^ 20) (Keeps.refl s)
    split
    · exact enterRecovery_holds _ _ (by rw [h1.phase]; exact hp) h1.holds
    · rename_i i _
      have h2 := hostBase_keeps _ (Keeps.refl (acceptImage (endsWithin s (9000000 + 2700000 * s.flash.image.length / 2 ^ 20)) i))
      exact toPhase_holds _ _ (by rw [h2.phase]; show (endsWithin s _).boot.phase ≠ _; rw [h1.phase]; exact hp) (by simp)
        ((h1.holds.trans (acceptImage_holds _ i)).keeps h2)

theorem retireAtStart_keeps {sB : State} (s : State) (c : CoreId)  (hK : Keeps sB s) :
    Keeps sB (retireAtStart s c) := by
  unfold retireAtStart
  repeat' first
    | with_reducible exact Keeps.refl _
    | with_reducible apply rputBit_keeps
    | with_reducible refine Keeps.foldl _ (fun _ _ => ?_) ?_
    | (apply_assumption; done)

theorem applyRepair_keeps {sB : State} (s : State) (e : Nat × Nat × Nat × Nat)  (hK : Keeps sB s) :
    Keeps sB (applyRepair s e) := by
  unfold applyRepair
  repeat' first
    | with_reducible apply orReg_keeps
    | with_reducible apply retireAtStart_keeps
    | with_reducible apply rputBit_keeps
    | with_reducible apply putPath_keeps
    | split
    | (apply_assumption; done)

theorem applyClocks_keeps {sB : State} (s : State)  (hK : Keeps sB s) :
    Keeps sB (applyClocks s) := by
  unfold applyClocks
  repeat' first
    | with_reducible assumption
    | with_reducible exact Keeps.refl _
    | with_reducible apply clockFromImage_keeps
    | with_reducible refine Keeps.foldl _ (fun _ _ => ?_) ?_

/-- What CONFIGURE applies of the image: the node's number and the shared HBM, then only what `Keeps` allows. -/
theorem applyImage_from (s : State) : Keeps { s with boot := { s.boot with
    nodeId := Fin.ofNat 32768 (leNat (s.boot.config.take 2)), hbmShared := leNat (slice s.boot.config 2 1) } } (applyImage s) := by
  unfold applyImage
  exact Keeps.foldl _ (fun _ _ => applyRepair_keeps _ _ (Keeps.refl _))
    (applyClocks_keeps _ (hostBase_keeps _ (Keeps.refl _)))

theorem applyImage_holds (s : State) : Holds s (applyImage s) :=
  Holds.trans (s := { s with boot := { s.boot with
      nodeId := Fin.ofNat 32768 (leNat (s.boot.config.take 2)), hbmShared := leNat (slice s.boot.config 2 1) } })
    ⟨rfl, fun j => { j with mem := j.mem }⟩ (applyImage_from s).holds

theorem applyImage_phase (s : State) : (applyImage s).boot.phase = s.boot.phase := (applyImage_from s).phase

theorem putFeed_keeps {sB : State} (s : State) (rail : Fin 4) (feedB : Bool) (x : Feed)  (hK : Keeps sB s) :
    Keeps sB (putFeed s rail feedB x) := by
  unfold putFeed
  repeat' first
    | (rw [mk_built]; with_reducible apply Keeps.built)
    | with_reducible exact keysRise_tset _ _ _ _ (by assumption)
    | with_reducible intro _
    | (apply_assumption; done)

theorem execConfigure_holds (stacksGood : List Bool) (feedsA feedsB : BitVec 4) (s : State) :
    OutHolds s (execConfigure stacksGood feedsA feedsB s) := by
  refine OutHolds.next ?_
  split
  · exact (Keeps.refl s).holds
  · rename_i h
    have hp : s.boot.phase ≠ .ready := inPhase_ne (p := .configure) (by simpa using h) (by simp)
    dsimp only
    have h0 := endsWithin_keeps s (79000000 + 2700000 * s.flash.image.length / 2 ^ 20) (Keeps.refl s)
    have h1 := h0.holds.trans (applyImage_holds _)
    have hq := applyImage_phase (endsWithin s (79000000 + 2700000 * s.flash.image.length / 2 ^ 20))
    generalize applyImage _ = t at h1 hq ⊢
    replace hq : t.boot.phase ≠ .ready := by rw [hq, h0.phase]; exact hp
    split
    · exact enterRecovery_holds _ _ hq h1
    · split
      · exact enterRecovery_holds _ _ hq h1
      · have h2 := Keeps.foldl (List.finRange 4) (fun s r => putFeed_keeps _ r true (feedFound (feedsB.getLsbD r.val))
          (putFeed_keeps s r false (feedFound (feedsA.getLsbD r.val)) (Keeps.refl s))) (Keeps.refl t)
        exact toPhase_holds _ _ (by rw [h2.phase]; exact hq) (by simp) (h1.keeps h2)

theorem noteTestFailed_keeps {sB : State} (s : State) (c : CoreId)  (hK : Keeps sB s) :
    Keeps sB (noteTestFailed s c) := by
  unfold noteTestFailed
  repeat' first
    | with_reducible apply rputBit_keeps
    | with_reducible apply sendRecord_keeps
    | (apply_assumption; done)

theorem testCore_keeps {sB : State} (s : State) (c : CoreId) (r : Option (Tag × Tag))  (hK : Keeps sB s) :
    Keeps sB (testCore s c r) := by
  unfold testCore
  repeat' first
    | with_reducible apply bump_keeps
    | with_reducible apply noteTestFailed_keeps
    | with_reducible apply orReg_keeps
    | with_reducible apply retireAtStart_keeps
    | split
    | dsimp only
    | (apply_assumption; done)

/-- With the memory cleared below the slow tier, the device becomes READY: unlisted bytes read zero from now on. -/
theorem ready_holds (s : State) : Holds s (toPhase (clearMemories s) .ready) := by
  refine ⟨rfl, fun j => { j with mem := ?_, banks := rfl, sems := rfl, batons := rfl, tokens := rfl, filling := rfl }⟩
  refine twfFrom_filter (unlistedByte s) _ (fun x => slowBase ≤ x.1) (fun x hx => ?_) 0 s.mem j.mem
  simp only [decide_eq_true_eq] at hx
  simp only [unlistedByte, hx, if_true]
  rfl

theorem tablesFilled_keeps {sB : State} (s : State)  (hK : Keeps sB s) :
    Keeps sB (tablesFilled s) := by
  unfold tablesFilled
  repeat' first
    | with_reducible exact Keeps.refl _
    | with_reducible apply rputBit_keeps
    | with_reducible refine Keeps.foldl _ (fun _ _ => ?_) ?_
    | (apply_assumption; done)

theorem becomeReady_holds (s : State) : Holds s (becomeReady s) := by
  refine (ready_holds s).keeps ?_
  refine noteBootTime_keeps _ (Keeps.foldl _ (fun _ _ => putPort_keeps _ _ _ (Keeps.refl _)) ?_)
  exact Keeps.foldl _ (fun _ _ => rputBit_keeps _ _ _ _ _ (rputBit_keeps _ _ _ _ _ (Keeps.refl _)))
    (tablesFilled_keeps _ (Keeps.refl _))

theorem execTest_holds (results : List (Option (Tag × Tag))) (s : State) : OutHolds s (execTest results s) := by
  refine OutHolds.next ?_
  split
  · exact (Keeps.refl s).holds
  · refine Holds.trans ?_ (becomeReady_holds _)
    exact (Keeps.foldl _ (fun _ _ => testCore_keeps _ _ _ (Keeps.refl _)) (endsWithin_keeps _ _ (Keeps.refl s))).holds

end Sys2Proof.Machine
end

