-- ==== Sys2Proof/Laws/KeepBoard.lean ====
section
/-!
SUPPORT. What the operations of Machine/Board.lean keep: the queue and the invariant.
-/
namespace Sys2Proof.Machine

theorem raiseClass_keeps {sB : State} (s : State) (b : Block) (cause cls : Nat)  (hK : Keeps sB s) :
    Keeps sB (raiseClass s b cause cls) := by
  unfold raiseClass
  repeat' first
    | with_reducible apply setCause_keeps
    | with_reducible apply sendRecord_keeps
    | split
    | dsimp only
    | (apply_assumption; done)

theorem throttle_keeps {sB : State} (s : State)  (hK : Keeps sB s) :
    Keeps sB (throttle s) := by
  unfold throttle
  repeat' first
    | with_reducible apply bump_keeps
    | (rw [mk_built]; with_reducible apply Keeps.built)
    | with_reducible intro _
    | (apply_assumption; done)

theorem loseFeed_keeps {sB : State} (s : State) (rail : Fin 4) (feedB : Bool)  (hK : Keeps sB s) :
    Keeps sB (loseFeed s rail feedB) := by
  unfold loseFeed
  repeat' first
    | with_reducible apply putFeed_keeps
    | with_reducible apply rput_keeps
    | with_reducible apply throttle_keeps
    | with_reducible apply bump_keeps
    | with_reducible apply raise_keeps
    | split
    | dsimp only
    | (apply_assumption; done)

theorem execFeedLost_holds (rail : Fin 4) (feedB : Bool) (s : State) : OutHolds s (execFeedLost rail feedB s) := by
  refine OutHolds.next ?_
  split
  · exact (Keeps.refl s).holds
  · split
    · exact brownOut_holds _ _
    · exact (loseFeed_keeps _ _ _ (Keeps.refl s)).holds

theorem tellLoss_keeps {sB : State} (s : State) (f : Fin 4 × Bool)  (hK : Keeps sB s) :
    Keeps sB (tellLoss s f) := by
  unfold tellLoss
  repeat' first
    | with_reducible apply raiseClass_keeps
    | with_reducible apply rputBit_keeps
    | with_reducible apply putFeed_keeps
    | split
    | dsimp only
    | (apply_assumption; done)

theorem execThrottleEnd_keeps {sB : State} (s : State)  (hK : Keeps sB s) :
    OutKeeps sB (execThrottleEnd s) := by
  unfold execThrottleEnd
  repeat' first
    | with_reducible exact Keeps.refl _
    | with_reducible refine OutKeeps.next ?_
    | with_reducible apply tellLoss_keeps
    | (rw [mk_built]; with_reducible apply Keeps.built)
    | with_reducible refine Keeps.foldl _ (fun _ _ => ?_) ?_
    | split
    | with_reducible intro _
    | (apply_assumption; done)

theorem execFeedRejoin_keeps {sB : State} (rail : Fin 4) (feedB : Bool) (s : State)  (hK : Keeps sB s) :
    OutKeeps sB (execFeedRejoin rail feedB s) := by
  unfold execFeedRejoin
  repeat' first
    | with_reducible refine OutKeeps.next ?_
    | with_reducible apply putFeed_keeps
    | with_reducible apply bump_keeps
    | with_reducible apply rputBit_keeps
    | (rw [mk_built]; with_reducible apply Keeps.built)
    | split
    | dsimp only
    | with_reducible intro _
    | (apply_assumption; done)

theorem writeRearm_keeps {sB : State} (s : State)  (hK : Keeps sB s) :
    Keeps sB (writeRearm s) := by
  unfold writeRearm
  repeat' first
    | (rw [mk_built]; with_reducible apply Keeps.built)
    | (with_reducible refine keysRise_map _ ?_ _ (by assumption); intro _; rfl)
    | with_reducible intro _
    | (apply_assumption; done)

theorem execRearm_keeps {sB : State} (s : State)  (hK : Keeps sB s) :
    OutKeeps sB (execRearm s) := by
  unfold execRearm
  repeat' first
    | with_reducible refine OutKeeps.next ?_
    | with_reducible apply writeRearm_keeps
    | (apply_assumption; done)

theorem writeFeedShare_keeps {sB : State} (s : State) (v : Word)  (hK : Keeps sB s) :
    Keeps sB (writeFeedShare s v) := by
  unfold writeFeedShare
  repeat' first
    | with_reducible apply rput_keeps
    | (apply_assumption; done)

theorem execFeedShare_keeps {sB : State} (v : Word) (s : State)  (hK : Keeps sB s) :
    OutKeeps sB (execFeedShare v s) := by
  unfold execFeedShare
  repeat' first
    | with_reducible refine OutKeeps.next ?_
    | with_reducible apply writeFeedShare_keeps
    | (apply_assumption; done)

theorem modInputs_keeps {sB : State} (s : State) (f : Inputs → Inputs)  (hK : Keeps sB s) :
    Keeps sB (modInputs s f) := by
  unfold modInputs
  repeat' first
    | (rw [mk_built]; with_reducible apply Keeps.built)
    | with_reducible intro _
    | (apply_assumption; done)

theorem presenceEdge_keeps {sB : State} (s : State)  (hK : Keeps sB s) :
    Keeps sB (presenceEdge s) := by
  unfold presenceEdge
  repeat' first
    | with_reducible apply modInputs_keeps
    | with_reducible apply bump_keeps
    | split
    | dsimp only
    | (apply_assumption; done)

theorem execPresenceN_keeps {sB : State} (asserted : Bool) (s : State)  (hK : Keeps sB s) :
    OutKeeps sB (execPresenceN asserted s) := by
  unfold execPresenceN
  repeat' first
    | with_reducible refine OutKeeps.next ?_
    | with_reducible apply presenceEdge_keeps
    | with_reducible apply modInputs_keeps
    | split
    | (apply_assumption; done)

theorem execPresenceWindowClose_keeps {sB : State} (s : State)  (hK : Keeps sB s) :
    OutKeeps sB (execPresenceWindowClose s) := by
  unfold execPresenceWindowClose
  repeat' first
    | with_reducible refine OutKeeps.next ?_
    | with_reducible apply modInputs_keeps
    | (rw [mk_built]; with_reducible apply Keeps.built)
    | split
    | with_reducible intro _
    | (apply_assumption; done)

theorem execPresenceStuck_keeps {sB : State} (s : State)  (hK : Keeps sB s) :
    OutKeeps sB (execPresenceStuck s) := by
  unfold execPresenceStuck
  repeat' first
    | with_reducible refine OutKeeps.next ?_
    | with_reducible apply modInputs_keeps
    | with_reducible apply raise_keeps
    | with_reducible apply bump_keeps
    | (rw [mk_built]; with_reducible apply Keeps.built)
    | split
    | with_reducible intro _
    | (apply_assumption; done)

theorem execBoardAlarm_keeps {sB : State} (s : State)  (hK : Keeps sB s) :
    OutKeeps sB (execBoardAlarm s) := by
  unfold execBoardAlarm
  repeat' first
    | with_reducible refine OutKeeps.next ?_
    | with_reducible apply modInputs_keeps
    | with_reducible apply raise_keeps
    | with_reducible apply bump_keeps
    | split
    | dsimp only
    | (apply_assumption; done)

theorem endAlarm_keeps {sB : State} (s : State)  (hK : Keeps sB s) :
    Keeps sB (endAlarm s) := by
  unfold endAlarm
  repeat' first
    | with_reducible apply bump_keeps
    | with_reducible apply modInputs_keeps
    | split
    | (apply_assumption; done)

theorem execAlarmRelease_keeps {sB : State} (s : State)  (hK : Keeps sB s) :
    OutKeeps sB (execAlarmRelease s) := by
  unfold execAlarmRelease
  repeat' first
    | with_reducible refine OutKeeps.next ?_
    | with_reducible apply endAlarm_keeps
    | (rw [mk_built]; with_reducible apply Keeps.built)
    | split
    | with_reducible intro _
    | (apply_assumption; done)

theorem execAlarmStuck_keeps {sB : State} (s : State)  (hK : Keeps sB s) :
    OutKeeps sB (execAlarmStuck s) := by
  unfold execAlarmStuck
  repeat' first
    | with_reducible refine OutKeeps.next ?_
    | with_reducible apply raise_keeps
    | with_reducible apply bump_keeps
    | with_reducible apply modInputs_keeps
    | (rw [mk_built]; with_reducible apply Keeps.built)
    | split
    | with_reducible intro _
    | (apply_assumption; done)

theorem sampleDieTemp_keeps {sB : State} (s : State) (d : DieId) (t : Int)  (hK : Keeps sB s) :
    Keeps sB (sampleDieTemp s d t) := by
  unfold sampleDieTemp
  repeat' first
    | with_reducible apply rput_keeps
    | with_reducible apply raiseClass_keeps
    | with_reducible apply bump_keeps
    | with_reducible apply rputBit_keeps
    | split
    | dsimp only
    | (apply_assumption; done)

theorem sampleStackTemp_keeps {sB : State} (s : State) (st : StackId) (t : Int)  (hK : Keeps sB s) :
    Keeps sB (sampleStackTemp s st t) := by
  unfold sampleStackTemp
  repeat' first
    | with_reducible apply rput_keeps
    | with_reducible apply raise_keeps
    | with_reducible apply bump_keeps
    | with_reducible apply rputBit_keeps
    | split
    | dsimp only
    | (apply_assumption; done)

theorem noteHottest_keeps {sB : State} (s : State) (l : List (DieId × Int))  (hK : Keeps sB s) :
    Keeps sB (noteHottest s l) := by
  unfold noteHottest
  repeat' first
    | with_reducible apply rput_keeps
    | split
    | (apply_assumption; done)

theorem trip_keeps {sB : State} (s : State) (source : Nat) (t : Int)  (hK : Keeps sB s) :
    Keeps sB (trip s source t) := by
  unfold trip
  repeat' first
    | with_reducible assumption
    | with_reducible exact Keeps.refl _
    | with_reducible apply emit_keeps
    | with_reducible apply fenceDie_keeps
    | with_reducible apply rput_keeps
    | with_reducible apply raise_keeps
    | with_reducible apply bump_keeps
    | (rw [mk_built]; with_reducible apply Keeps.built)
    | with_reducible refine Keeps.foldl _ (fun _ _ => ?_) ?_
    | with_reducible rfl
    | split
    | with_reducible intro _

theorem tripSample_keeps {sB : State} (s : State) (source : Nat) (t limit : Int)  (hK : Keeps sB s) :
    Keeps sB (tripSample s source t limit) := by
  unfold tripSample
  repeat' first
    | with_reducible apply trip_keeps
    | (rw [mk_built]; with_reducible apply Keeps.built)
    | with_reducible exact keysRise_tset _ _ _ _ (by assumption)
    | split
    | dsimp only
    | with_reducible intro _
    | (apply_assumption; done)

theorem execTempSample_keeps {sB : State} (dies hot : List Int) (s : State)  (hK : Keeps sB s) :
    OutKeeps sB (execTempSample dies hot s) := by
  unfold execTempSample
  repeat' first
    | with_reducible exact Keeps.refl _
    | with_reducible refine OutKeeps.next ?_
    | with_reducible apply bump_keeps
    | with_reducible apply tripSample_keeps
    | with_reducible apply sampleDieTemp_keeps
    | with_reducible apply sampleStackTemp_keeps
    | with_reducible apply noteHottest_keeps
    | with_reducible refine Keeps.foldl _ (fun _ _ => ?_) ?_
    | split
    | (apply_assumption; done)

theorem writeTempLimit_keeps {sB : State} (s : State) (off : Nat) (hi : Int) (v : Word)  (hK : Keeps sB s) :
    Keeps sB (writeTempLimit s off hi v) := by
  unfold writeTempLimit
  repeat' first
    | with_reducible apply rput_keeps
    | (apply_assumption; done)

end Sys2Proof.Machine
end

