-- ==== Sys2Proof/Laws/KeepCheck.lean ====
section
/-!
SUPPORT. What the operations of Machine/Check.lean keep: the queue and the invariant.
-/
namespace Sys2Proof.Machine

theorem putCv_keeps {sB : State} (s : State) (ch : Fin 16) (v : CvChan)  (hK : Keeps sB s) :
    Keeps sB (putCv s ch v) := by
  unfold putCv
  repeat' first
    | (rw [mk_built]; with_reducible apply Keeps.built)
    | with_reducible exact keysRise_tset _ _ _ _ (by assumption)
    | with_reducible intro _
    | (apply_assumption; done)

theorem cvEnd_keeps {sB : State} (s : State) (ch : Fin 16) (st : Nat) (pass : Bool)  (hK : Keeps sB s) :
    Keeps sB (cvEnd s ch st pass) := by
  unfold cvEnd
  repeat' first
    | with_reducible apply rput_keeps
    | with_reducible apply rputBit_keeps
    | with_reducible apply sendMsi_keeps
    | split
    | dsimp only
    | (apply_assumption; done)

theorem cvGo_keeps {sB : State} (s : State) (ch : Fin 16)  (hK : Keeps sB s) :
    Keeps sB (cvGo s ch) := by
  unfold cvGo
  repeat' first
    | with_reducible exact Keeps.refl _
    | with_reducible apply bump_keeps
    | with_reducible apply cvEnd_keeps
    | with_reducible apply raise_keeps
    | with_reducible apply putCv_keeps
    | with_reducible apply rput_keeps
    | with_reducible apply rput64_keeps
    | with_reducible apply rputBit_keeps
    | with_reducible refine Keeps.foldl _ (fun _ _ => ?_) ?_
    | split
    | dsimp only
    | (apply_assumption; done)

theorem writeCvCtrl_keeps {sB : State} (s : State) (ch : Fin 16) (v : Word)  (hK : Keeps sB s) :
    Keeps sB (writeCvCtrl s ch v) := by
  unfold writeCvCtrl
  repeat' first
    | with_reducible apply rwrite_keeps
    | with_reducible apply cvGo_keeps
    | split
    | dsimp only
    | (apply_assumption; done)

theorem cvRead_keeps {sB : State} (s : State) (ch : Fin 16) (j : CvJob) (a n : Nat)  (hK : Keeps sB s) :
    Keeps sB (cvRead s ch j a n).1 := by
  unfold cvRead
  repeat' first
    | with_reducible assumption
    | with_reducible apply gRead_keeps
    | with_reducible apply bump_keeps
    | with_reducible refine Keeps.fst ?_ (by assumption)
    | split

theorem cvProgress_keeps {sB : State} (s : State) (ch : Fin 16) (n : Nat)  (hK : Keeps sB s) :
    Keeps sB (cvProgress s ch n) := by
  unfold cvProgress
  repeat' first
    | with_reducible apply rput64_keeps
    | (apply_assumption; done)

theorem cvCount_keeps {sB : State} (s : State) (ch : Fin 16) (off n : Nat)  (hK : Keeps sB s) :
    Keeps sB (cvCount s ch off n) := by
  unfold cvCount
  repeat' first
    | with_reducible apply rput_keeps
    | (apply_assumption; done)

theorem cvCrc_keeps {sB : State} (s : State) (ch : Fin 16) (k : Crc) (d : List Byte)  (hK : Keeps sB s) :
    Keeps sB (cvCrc s ch k d) := by
  unfold cvCrc
  repeat' first
    | with_reducible apply putCv_keeps
    | (apply_assumption; done)

theorem digestFrom_keeps {sB : State} (ch : Fin 16) (j : CvJob) (k : Crc) (y0 : List (Nat × Nat)) (y1 : State)  (hK : Keeps sB y1) :
    Keeps sB (digestFrom ch j k y0 y1).1 := by
  induction y0 generalizing y1 with
  | nil =>
  unfold digestFrom
  repeat' first
    | with_reducible assumption
  | cons a l ih =>
  unfold digestFrom
  repeat' first
    | with_reducible assumption
    | with_reducible apply ih
    | with_reducible apply cvRead_keeps
    | with_reducible apply cvProgress_keeps
    | with_reducible apply cvCrc_keeps
    | with_reducible refine Keeps.fst ?_ (by assumption)
    | split


theorem sealBlock_keeps {sB : State} (ch : Fin 16) (j : CvJob) (k : Crc) (a : Nat) (s : State)  (hK : Keeps sB s) :
    Keeps sB (sealBlock ch j k a s).1 := by
  unfold sealBlock
  repeat' first
    | with_reducible assumption
    | with_reducible apply cvRead_keeps
    | with_reducible apply gWrite_keeps
    | with_reducible apply cvCrc_keeps
    | with_reducible apply bump_keeps
    | with_reducible apply rput_keeps
    | with_reducible apply cvCount_keeps
    | with_reducible apply cvProgress_keeps
    | with_reducible apply putCv_keeps
    | with_reducible refine Keeps.fst ?_ (by assumption)
    | split
    | dsimp only

theorem cvFlag_keeps {sB : State} (s : State) (ch : Fin 16) (off n kind index : Nat)  (hK : Keeps sB s) :
    Keeps sB (cvFlag s ch off n kind index) := by
  unfold cvFlag
  repeat' first
    | with_reducible apply bump_keeps
    | with_reducible apply cvCount_keeps
    | with_reducible apply rput_keeps
    | split
    | dsimp only
    | (apply_assumption; done)

theorem cvAccept_keeps {sB : State} (s : State) (ch : Fin 16) (k : Crc) (alive : Nat) (d : List Byte)  (hK : Keeps sB s) :
    Keeps sB (cvAccept s ch k alive d) := by
  unfold cvAccept
  repeat' first
    | with_reducible apply cvCrc_keeps
    | with_reducible apply bump_keeps
    | with_reducible apply cvCount_keeps
    | with_reducible apply rput_keeps
    | with_reducible apply putCv_keeps
    | (apply_assumption; done)

theorem classifyBlock_keeps {sB : State} (s : State) (ch : Fin 16) (j : CvJob) (k : Crc) (index : Nat) (l : List Byte)  (hK : Keeps sB s) :
    Keeps sB (classifyBlock s ch j k index l) := by
  unfold classifyBlock
  repeat' first
    | with_reducible apply cvFlag_keeps
    | with_reducible apply cvAccept_keeps
    | split
    | dsimp only
    | (apply_assumption; done)

theorem verifyBlock_keeps {sB : State} (ch : Fin 16) (j : CvJob) (k : Crc) (a index : Nat) (s : State)  (hK : Keeps sB s) :
    Keeps sB (verifyBlock ch j k a index s).1 := by
  unfold verifyBlock
  repeat' first
    | with_reducible assumption
    | with_reducible apply cvRead_keeps
    | with_reducible apply cvProgress_keeps
    | with_reducible apply classifyBlock_keeps
    | with_reducible refine Keeps.fst ?_ (by assumption)
    | split

theorem blocksFrom_keeps {sB : State} (f : Nat → State → State × Status) (y0 : Nat) (y1 : Nat) (y2 : State) (hf : ∀ (x0 : Nat), ∀ (x1 : State), Keeps x1 (f x0 x1).1) (hK : Keeps sB y2) :
    Keeps sB (blocksFrom f y0 y1 y2).1 := by
  induction y0 generalizing y1 y2 with
  | zero =>
  unfold blocksFrom
  repeat' first
    | with_reducible assumption
  | succ n ih =>
  unfold blocksFrom
  repeat' first
    | with_reducible assumption
    | with_reducible apply ih
    | with_reducible refine Keeps.trans ?_ (hf _ _)
    | with_reducible refine Keeps.fst ?_ (by assumption)
    | split


theorem jobBody_keeps {sB : State} (s : State) (ch : Fin 16) (j : CvJob)  (hK : Keeps sB s) :
    Keeps sB (jobBody s ch j).1 := by
  unfold jobBody
  repeat' first
    | with_reducible assumption
    | with_reducible exact Keeps.refl _
    | with_reducible apply digestFrom_keeps
    | with_reducible apply blocksFrom_keeps
    | with_reducible apply sealBlock_keeps
    | with_reducible apply verifyBlock_keeps
    | split
    | with_reducible intro _

theorem jobDone_keeps {sB : State} (s0 : State) (ch : Fin 16) (x : State × Status) (h0 : Keeps sB s0)
    (hK : Keeps sB x.1) : Keeps sB (jobDone s0 ch x) := by
  obtain ⟨t, st⟩ := x
  unfold jobDone
  split
  · exact settleWaits_keeps _ _ h0
  · rename_i e
    cases e
    exact putCv_keeps _ _ _ hK

theorem runJob_keeps {sB : State} (s : State) (ch : Fin 16) (mode : Nat)  (hK : Keeps sB s) :
    Keeps sB (runJob s ch mode) := by
  unfold runJob
  repeat' first
    | with_reducible assumption
    | with_reducible apply jobDone_keeps
    | with_reducible apply jobBody_keeps
    | split
    | dsimp only

theorem execDigest_keeps {sB : State} (ch : Fin 16) (s : State)  (hK : Keeps sB s) :
    OutKeeps sB (execDigest ch s) := by
  unfold execDigest
  repeat' first
    | with_reducible refine OutKeeps.next ?_
    | with_reducible apply runJob_keeps
    | (apply_assumption; done)

theorem execSeal_keeps {sB : State} (ch : Fin 16) (s : State)  (hK : Keeps sB s) :
    OutKeeps sB (execSeal ch s) := by
  unfold execSeal
  repeat' first
    | with_reducible refine OutKeeps.next ?_
    | with_reducible apply runJob_keeps
    | (apply_assumption; done)

theorem execVerify_keeps {sB : State} (ch : Fin 16) (s : State)  (hK : Keeps sB s) :
    OutKeeps sB (execVerify ch s) := by
  unfold execVerify
  repeat' first
    | with_reducible refine OutKeeps.next ?_
    | with_reducible apply runJob_keeps
    | (apply_assumption; done)

theorem execJobEnd_keeps {sB : State} (ch : Fin 16) (s : State)  (hK : Keeps sB s) :
    OutKeeps sB (execJobEnd ch s) := by
  unfold execJobEnd
  repeat' first
    | with_reducible refine OutKeeps.next ?_
    | with_reducible apply cvEnd_keeps
    | with_reducible apply raise_keeps
    | with_reducible apply putCv_keeps
    | with_reducible apply rput64_keeps
    | split
    | dsimp only
    | (apply_assumption; done)

end Sys2Proof.Machine
end

