-- ==== Sys2Proof/Laws/KeepCollector.lean ====
section
/-!
SUPPORT. What the operations of Machine/Collector.lean keep: the queue and the invariant.
-/
namespace Sys2Proof.Machine

theorem writeSlot_keeps {sB : State} (s : State) (ws : List Word)  (hK : Keeps sB s) :
    Keeps sB (writeSlot s ws).1 := by
  unfold writeSlot
  repeat' first
    | with_reducible assumption
    | with_reducible apply postWrite_keeps
    | with_reducible apply rput_keeps
    | with_reducible refine Keeps.fst ?_ (by assumption)
    | split
    | dsimp only

theorem writeSlots_keeps {sB : State} (s : State) (y0 : List (List Word))  (hK : Keeps sB s) :
    Keeps sB (writeSlots s y0).1 := by
  induction y0 generalizing s with
  | nil =>
  unfold writeSlots
  repeat' first
    | (apply_assumption; done)
  | cons a l ih =>
  unfold writeSlots
  repeat' first
    | with_reducible apply ih
    | with_reducible apply writeSlot_keeps
    | with_reducible refine Keeps.fst ?_ (by assumption)
    | split
    | (apply_assumption; done)

theorem countRecord_keeps {sB : State} (s : State) (kind : Nat)  (hK : Keeps sB s) :
    Keeps sB (countRecord s kind) := by
  unfold countRecord
  repeat' first
    | with_reducible apply bump_keeps
    | (rw [mk_built]; with_reducible apply Keeps.built)
    | split
    | with_reducible intro _
    | (apply_assumption; done)

theorem writeLost_keeps {sB : State} (s : State)  (hK : Keeps sB s) :
    Keeps sB (writeLost s).1 := by
  unfold writeLost
  repeat' first
    | with_reducible assumption
    | with_reducible apply writeSlot_keeps
    | with_reducible apply countRecord_keeps
    | (rw [mk_built]; with_reducible apply Keeps.built)
    | with_reducible refine Keeps.fst ?_ (by assumption)
    | split
    | with_reducible intro _
    | (apply_assumption; done)

theorem traceIrq_keeps {sB : State} (s : State) (before : Nat)  (hK : Keeps sB s) :
    Keeps sB (traceIrq s before) := by
  unfold traceIrq
  repeat' first
    | with_reducible apply sendMsi_keeps
    | split
    | dsimp only
    | (apply_assumption; done)

theorem takeRecord_keeps {sB : State} (s : State) (r : TraceRec)  (hK : Keeps sB s) :
    Keeps sB (takeRecord s r) := by
  unfold takeRecord
  repeat' first
    | with_reducible assumption
    | with_reducible apply raise_keeps
    | with_reducible apply traceDrop_keeps
    | with_reducible apply writeLost_keeps
    | with_reducible apply writeSlots_keeps
    | with_reducible apply traceIrq_keeps
    | with_reducible apply countRecord_keeps
    | (rw [mk_built]; with_reducible apply Keeps.built)
    | with_reducible refine Keeps.fst ?_ (by assumption)
    | split
    | dsimp only
    | with_reducible intro _

theorem execTraceRecord_keeps {sB : State} (s : State)  (hK : Keeps sB s) :
    OutKeeps sB (execTraceRecord s) := by
  unfold execTraceRecord
  repeat' first
    | with_reducible refine OutKeeps.next ?_
    | with_reducible apply takeRecord_keeps
    | (rw [mk_built]; with_reducible apply Keeps.built)
    | split
    | with_reducible intro _
    | (apply_assumption; done)

theorem writeTraceCtrl_keeps {sB : State} (s : State) (v : Word)  (hK : Keeps sB s) :
    Keeps sB (writeTraceCtrl s v) := by
  unfold writeTraceCtrl
  repeat' first
    | with_reducible apply rwrite_keeps
    | with_reducible apply rputBit_keeps
    | with_reducible apply rput_keeps
    | with_reducible apply raise_keeps
    | (rw [mk_built]; with_reducible apply Keeps.built)
    | split
    | dsimp only
    | with_reducible intro _
    | (apply_assumption; done)

theorem execTraceCtrl_keeps {sB : State} (v : Word) (s : State)  (hK : Keeps sB s) :
    OutKeeps sB (execTraceCtrl v s) := by
  unfold execTraceCtrl
  repeat' first
    | with_reducible refine OutKeeps.next ?_
    | with_reducible apply writeTraceCtrl_keeps
    | (apply_assumption; done)

theorem writeTraceBase_keeps {sB : State} (s : State) (off : Nat) (v : Word)  (hK : Keeps sB s) :
    Keeps sB (writeTraceBase s off v) := by
  unfold writeTraceBase
  repeat' first
    | with_reducible apply raise_keeps
    | with_reducible apply rwrite_keeps
    | with_reducible apply rput_keeps
    | (rw [mk_built]; with_reducible apply Keeps.built)
    | split
    | with_reducible intro _
    | (apply_assumption; done)

theorem execTraceBase_keeps {sB : State} (offset : Fin 3) (v : Word) (s : State)  (hK : Keeps sB s) :
    OutKeeps sB (execTraceBase offset v s) := by
  unfold execTraceBase
  repeat' first
    | with_reducible refine OutKeeps.next ?_
    | with_reducible apply writeTraceBase_keeps
    | (apply_assumption; done)

end Sys2Proof.Machine
end

