-- ==== Sys2Proof/Laws/KeepSecurity.lean ====
section
/-!
SUPPORT. What the operations of Machine/Security.lean keep: the queue and the invariant.
-/
namespace Sys2Proof.Machine

theorem secEnd_keeps {sB : State} (s : State) (r : SecResult)  (hK : Keeps sB s) :
    Keeps sB (secEnd s r) := by
  unfold secEnd
  repeat' first
    | with_reducible apply rput_keeps
    | with_reducible apply rputBit_keeps
    | with_reducible apply raise_keeps
    | split
    | (apply_assumption; done)

theorem secGo_keeps {sB : State} (s : State)  (hK : Keeps sB s) :
    Keeps sB (secGo s) := by
  unfold secGo
  repeat' first
    | with_reducible apply rput_keeps
    | with_reducible apply useFresh_keeps
    | with_reducible apply raise_keeps
    | with_reducible apply secEnd_keeps
    | with_reducible apply countLife_keeps
    | with_reducible apply bump_keeps
    | with_reducible apply rputBit_keeps
    | split
    | dsimp only
    | (apply_assumption; done)

theorem secRun_keeps {sB : State} (s : State) (op : Nat) (f : State → State × SecResult) (hf : ∀ (x0 : State), Keeps x0 (f x0).1) (hK : Keeps sB s) :
    Keeps sB (secRun s op f) := by
  unfold secRun
  repeat' first
    | with_reducible assumption
    | with_reducible refine Keeps.trans ?_ (hf _)
    | with_reducible apply bump_keeps
    | with_reducible apply settleWaits_keeps
    | with_reducible apply secEnd_keeps
    | with_reducible refine Keeps.fst ?_ (by assumption)
    | split

theorem secArg_keeps {sB : State} (s : State)  (hK : Keeps sB s) :
    Keeps sB (secArg s).1 := by
  unfold secArg
  repeat' first
    | with_reducible assumption
    | with_reducible apply readLocal_keeps
    | with_reducible refine Keeps.fst ?_ (by assumption)
    | split
    | dsimp only

theorem secWrite_keeps {sB : State} (s : State) (a : Nat) (d : List Byte)  (hK : Keeps sB s) :
    Keeps sB (secWrite s a d).1 := by
  unfold secWrite
  repeat' first
    | with_reducible assumption
    | with_reducible apply writeLocal_keeps
    | with_reducible refine Keeps.fst ?_ (by assumption)
    | split

theorem secAnswer_keeps {sB : State} (s : State) (d : List Byte)  (hK : Keeps sB s) :
    Keeps sB (secAnswer s d).1 := by
  unfold secAnswer
  repeat' first
    | with_reducible apply secWrite_keeps
    | split
    | (apply_assumption; done)

theorem execAttest_keeps {sB : State} (s : State)  (hK : Keeps sB s) :
    OutKeeps sB (execAttest s) := by
  unfold execAttest
  repeat' first
    | with_reducible assumption
    | with_reducible exact Keeps.refl _
    | with_reducible refine OutKeeps.next ?_
    | with_reducible apply secRun_keeps
    | with_reducible apply secArg_keeps
    | with_reducible apply secAnswer_keeps
    | with_reducible apply useFresh_keeps
    | with_reducible refine Keeps.fst ?_ (by assumption)
    | split
    | with_reducible intro _

/-- Programming the flash changes the image, and of the rest only what `KeepsRest` allows. -/
theorem setFlash_rest (s : State) (f : Flash) : KeepsRest s { s with flash := f } :=
  ⟨rfl, rfl, fun _ _ _ => Nat.le_refl _, fun i => { i with mem := i.mem }⟩

theorem programImage_rest (s : State) (d : List Byte) (i : Image) (newOwner : Bool) :
    KeepsRest s (programImage s d i newOwner).1 := by
  have h0 : KeepsRest s (useFresh s) := (useFresh_keeps s (Keeps.refl s)).rest
  unfold programImage
  dsimp only
  split
  · exact h0.trans (setFlash_rest _ _)
  · have h1 := h0.trans (bump_keeps (useFresh s) (activeSecurity (useFresh s)) 3 d.length (Keeps.refl _)).rest
    have h2 := h1.trans (setFlash_rest _ { (bump (useFresh s) (activeSecurity (useFresh s)) 3 d.length).flash with
      image := d, minSerial := max (bump (useFresh s) (activeSecurity (useFresh s)) 3 d.length).flash.minSerial i.floor })
    refine KeepsRest.trans ?_ (countLife_keeps _ 4 (Keeps.refl _)).rest
    split
    · exact (h2.trans (setFlash_rest _ _)).trans (countLife_keeps _ 5 (Keeps.refl _)).rest
    · exact h2

theorem replaceImage_rest (newOwner : Bool) (s : State) : KeepsRest s (replaceImage newOwner s).1 := by
  have h := (secArg_keeps s (Keeps.refl s)).rest
  unfold replaceImage
  split
  · rename_i e
    rw [e] at h
    dsimp only at h ⊢
    split
    · exact h
    · split
      · exact h
      · exact h.trans (programImage_rest _ _ _ _)
  · rename_i e
    rw [e] at h
    exact h

theorem secRun_rest (s : State) (op : Nat) (f : State → State × SecResult) (hf : ∀ x, KeepsRest x (f x).1) :
    KeepsRest s (secRun s op f) := by
  unfold secRun
  split
  · have h := (bump_keeps s (activeSecurity s) 0 1 (Keeps.refl s)).rest.trans (hf _)
    split
    · exact (settleWaits_keeps _ _ (Keeps.refl s)).rest
    · rename_i e
      rw [e] at h
      exact h.trans (secEnd_keeps _ _ (Keeps.refl _)).rest
  · exact (Keeps.refl s).rest

theorem execImageReplace_rest (s : State) : OutRest s (execImageReplace s) :=
  OutRest.next (secRun_rest s 2 _ (replaceImage_rest false))

theorem execImageReplaceOwner_rest (s : State) : OutRest s (execImageReplaceOwner s) :=
  OutRest.next (secRun_rest s 3 _ (replaceImage_rest true))

theorem reenrolled_keeps {sB : State} (s : State) (hK : Keeps sB s) : Keeps sB (reenrolled s) := by
  refine hK.trans ⟨rfl, rfl, ?_, fun _ _ _ => Nat.le_refl _, fun i => { i with mem := i.mem }⟩
  unfold reenrolled
  dsimp only
  split <;> split <;> rfl

theorem execReenrol_keeps {sB : State} (s : State)  (hK : Keeps sB s) :
    OutKeeps sB (execReenrol s) := by
  unfold execReenrol
  repeat' first
    | with_reducible exact Keeps.refl _
    | with_reducible refine OutKeeps.next ?_
    | with_reducible apply secRun_keeps
    | with_reducible apply reenrolled_keeps
    | with_reducible apply secWrite_keeps
    | split
    | with_reducible intro _
    | (apply_assumption; done)

theorem execDebugNonce_keeps {sB : State} (s : State)  (hK : Keeps sB s) :
    OutKeeps sB (execDebugNonce s) := by
  unfold execDebugNonce
  repeat' first
    | with_reducible exact Keeps.refl _
    | with_reducible refine OutKeeps.next ?_
    | with_reducible apply secRun_keeps
    | with_reducible apply useFresh_keeps
    | with_reducible apply secWrite_keeps
    | (rw [mk_built]; with_reducible apply Keeps.built)
    | split
    | with_reducible intro _
    | (apply_assumption; done)

theorem unlock_keeps {sB : State} (s : State) (d : List Byte)  (hK : Keeps sB s) :
    Keeps sB (unlock s d).1 := by
  unfold unlock
  repeat' first
    | with_reducible apply countLife_keeps
    | (rw [mk_built]; with_reducible apply Keeps.built)
    | split
    | dsimp only
    | with_reducible intro _
    | (apply_assumption; done)

theorem execDebugUnlock_keeps {sB : State} (s : State)  (hK : Keeps sB s) :
    OutKeeps sB (execDebugUnlock s) := by
  unfold execDebugUnlock
  repeat' first
    | with_reducible assumption
    | with_reducible exact Keeps.refl _
    | with_reducible refine OutKeeps.next ?_
    | with_reducible apply secRun_keeps
    | with_reducible apply secArg_keeps
    | with_reducible apply unlock_keeps
    | with_reducible refine Keeps.fst ?_ (by assumption)
    | split
    | with_reducible intro _

theorem execReadLifetime_keeps {sB : State} (s : State)  (hK : Keeps sB s) :
    OutKeeps sB (execReadLifetime s) := by
  unfold execReadLifetime
  repeat' first
    | with_reducible exact Keeps.refl _
    | with_reducible refine OutKeeps.next ?_
    | with_reducible apply secRun_keeps
    | with_reducible apply secAnswer_keeps
    | with_reducible intro _
    | (apply_assumption; done)

theorem execClearLifetime_keeps {sB : State} (s : State)  (hK : Keeps sB s) :
    OutKeeps sB (execClearLifetime s) := by
  unfold execClearLifetime
  repeat' first
    | with_reducible exact Keeps.refl _
    | with_reducible refine OutKeeps.next ?_
    | with_reducible apply secRun_keeps
    | with_reducible apply countLife_keeps
    | (rw [mk_built]; with_reducible apply Keeps.built)
    | with_reducible intro _
    | (apply_assumption; done)

theorem execLifetimeRecord_keeps {sB : State} (s : State)  (hK : Keeps sB s) :
    OutKeeps sB (execLifetimeRecord s) := by
  unfold execLifetimeRecord
  repeat' first
    | with_reducible refine OutKeeps.next ?_
    | with_reducible apply countLife_keeps
    | (apply_assumption; done)

theorem writeSec_keeps {sB : State} (s : State) (off : Nat) (v : Word)  (hK : Keeps sB s) :
    Keeps sB (writeSec s off v) := by
  unfold writeSec
  repeat' first
    | with_reducible apply raise_keeps
    | with_reducible apply rwrite_keeps
    | split
    | dsimp only
    | (apply_assumption; done)

end Sys2Proof.Machine
end

