-- ==== Sys2Proof/Laws/KeepBus.lean ====
section
/-!
SUPPORT. What the operations of Machine/Bus.lean keep: the queue and the invariant.
-/
namespace Sys2Proof.Machine

theorem setShadow_keeps {sB : State} (s : State) (k : Nat) (v : Word)  (hK : Keeps sB s) :
    Keeps sB (setShadow s k v) := by
  unfold setShadow
  repeat' first
    | (rw [mk_built]; with_reducible apply Keeps.built)
    | with_reducible exact keysRise_tset _ _ _ _ (by assumption)
    | with_reducible intro _
    | (apply_assumption; done)

theorem regRead_keeps {sB : State} (s : State) (page : Block) (off : Nat)  (hK : Keeps sB s) :
    Keeps sB (regRead s page off).1 := by
  unfold regRead
  repeat' first
    | with_reducible apply setShadow_keeps
    | (rw [mk_built]; with_reducible apply Keeps.built)
    | with_reducible exact keysRise_filter _ _ (by assumption)
    | split
    | dsimp only
    | with_reducible intro _
    | (apply_assumption; done)

theorem regRead64_keeps {sB : State} (s : State) (page : Block) (off : Nat)  (hK : Keeps sB s) :
    Keeps sB (regRead64 s page off).1 := by
  unfold regRead64
  repeat' first
    | with_reducible apply regRead_keeps
    | split
    | (apply_assumption; done)

theorem writeFront_keeps {sB : State} (s : State) (f : FrontId) (off : Nat) (v : Word)  (hK : Keeps sB s) :
    Keeps sB (writeFront s f off v) := by
  unfold writeFront
  repeat' first
    | with_reducible apply writeRingTail_keeps
    | with_reducible apply writeRingCtrl_keeps
    | with_reducible apply rput_keeps
    | with_reducible apply rwrite_keeps
    | split
    | (apply_assumption; done)

theorem writeAllocAt_keeps {sB : State} (s : State) (f : FrontId) (off : Nat) (v : Word)  (hK : Keeps sB s) :
    Keeps sB (writeAllocAt s f off v) := by
  unfold writeAllocAt
  repeat' first
    | with_reducible apply armAlloc_keeps
    | with_reducible apply writeAlloc_keeps
    | split
    | dsimp only
    | (apply_assumption; done)

theorem writeCreate_keeps {sB : State} (s : State) (f : FrontId) (off : Nat) (v : Word)  (hK : Keeps sB s) :
    Keeps sB (writeCreate s f off v) := by
  unfold writeCreate
  repeat' first
    | with_reducible assumption
    | with_reducible apply raise_keeps
    | with_reducible apply rwrite_keeps
    | with_reducible apply rputBit_keeps
    | split

theorem writeEngineDesc_keeps {sB : State} (s : State) (f : FrontId) (off : Nat) (v : Word)  (hK : Keeps sB s) :
    Keeps sB (writeEngineDesc s f off v) := by
  unfold writeEngineDesc
  repeat' first
    | with_reducible assumption
    | with_reducible apply writeCreate_keeps
    | with_reducible apply commitTable_keeps
    | with_reducible apply writeAllocAt_keeps
    | with_reducible apply rwrite_keeps
    | split

theorem writeGme_keeps {sB : State} (s : State) (c : CoreId) (off : Nat) (v : Word)  (hK : Keeps sB s) :
    Keeps sB (writeGme s c off v) := by
  unfold writeGme
  repeat' first
    | with_reducible assumption
    | with_reducible apply writeCreate_keeps
    | with_reducible apply writeTableOffset_keeps
    | with_reducible apply writeTableLog2_keeps
    | with_reducible apply writeAllocAt_keeps
    | with_reducible apply rwrite_keeps
    | split

theorem writeSemPage_keeps {sB : State} (s : State) (c : CoreId) (off : Nat) (v : Word)  (hK : Keeps sB s) :
    Keeps sB (writeSemPage s c off v) := by
  unfold writeSemPage
  repeat' first
    | with_reducible apply writeSemData_keeps
    | with_reducible apply writeSemFill_keeps
    | with_reducible apply writeBatonPass_keeps
    | with_reducible apply writeBatonPop_keeps
    | with_reducible apply rwrite_keeps
    | split
    | (apply_assumption; done)

theorem writeSvc_keeps {sB : State} (s : State) (b : Block) (off : Nat) (v : Word)  (hK : Keeps sB s) :
    Keeps sB (writeSvc s b off v) := by
  unfold writeSvc
  repeat' first
    | with_reducible apply clearSvc_keeps
    | with_reducible apply rwrite_keeps
    | split
    | (apply_assumption; done)

theorem writeStride_keeps {sB : State} (s : State) (off : Nat) (v : Word)  (hK : Keeps sB s) :
    Keeps sB (writeStride s off v) := by
  unfold writeStride
  repeat' first
    | with_reducible apply writeStrideCtrl_keeps
    | with_reducible apply writePeriod_keeps
    | with_reducible apply writeTickLead_keeps
    | with_reducible apply writeHoldLead_keeps
    | with_reducible apply writeHoldBudget_keeps
    | with_reducible apply writeCount_keeps
    | with_reducible apply rwrite_keeps
    | split
    | (apply_assumption; done)

theorem writeQueue_keeps {sB : State} (s : State) (off : Nat) (v : Word)  (hK : Keeps sB s) :
    Keeps sB (writeQueue s off v) := by
  unfold writeQueue
  repeat' first
    | with_reducible apply writeLogSize_keeps
    | with_reducible apply rput_keeps
    | with_reducible apply switchRequest_keeps
    | with_reducible apply rwrite_keeps
    | split
    | (apply_assumption; done)

theorem writeLedger_keeps {sB : State} (s : State) (off : Nat) (v : Word)  (hK : Keeps sB s) :
    Keeps sB (writeLedger s off v) := by
  unfold writeLedger
  repeat' first
    | with_reducible apply writeSwSkip_keeps
    | with_reducible apply writeTornClear_keeps
    | with_reducible apply rwrite_keeps
    | split
    | (apply_assumption; done)

theorem writeFabric_keeps {sB : State} (s : State) (off : Nat) (v : Word)  (hK : Keeps sB s) :
    Keeps sB (writeFabric s off v) := by
  unfold writeFabric
  repeat' first
    | with_reducible assumption
    | with_reducible apply writeRoute_keeps
    | with_reducible apply writeTtParent_keeps
    | with_reducible apply writeChild_keeps
    | with_reducible apply rwrite_keeps
    | split

theorem writeTrace_keeps {sB : State} (s : State) (off : Nat) (v : Word)  (hK : Keeps sB s) :
    Keeps sB (writeTrace s off v) := by
  unfold writeTrace
  repeat' first
    | with_reducible apply writeTraceCtrl_keeps
    | with_reducible apply writeTraceBase_keeps
    | with_reducible apply rwrite_keeps
    | split
    | (apply_assumption; done)

theorem writeCv_keeps {sB : State} (s : State) (ch : Fin 16) (off : Nat) (v : Word)  (hK : Keeps sB s) :
    Keeps sB (writeCv s ch off v) := by
  unfold writeCv
  repeat' first
    | with_reducible apply raise_keeps
    | with_reducible apply writeCvCtrl_keeps
    | with_reducible apply rwrite_keeps
    | split
    | (apply_assumption; done)

theorem writeGlobal_keeps {sB : State} (s : State) (p : Fin 256) (off : Nat) (v : Word)  (hK : Keeps sB s) :
    Keeps sB (writeGlobal s p off v) := by
  unfold writeGlobal
  repeat' first
    | with_reducible apply writeFeedShare_keeps
    | with_reducible apply writeRearm_keeps
    | with_reducible apply writeTempLimit_keeps
    | with_reducible apply writeLedger_keeps
    | with_reducible apply writeFabric_keeps
    | with_reducible apply writeTrace_keeps
    | with_reducible apply writeCv_keeps
    | with_reducible apply rwrite_keeps
    | split
    | (apply_assumption; done)

theorem writeBar2Hi_keeps {sB : State} (s : State) (v : Word)  (hK : Keeps sB s) :
    Keeps sB (writeBar2Hi s v) := by
  unfold writeBar2Hi
  repeat' first
    | with_reducible apply rput_keeps
    | (rw [mk_built]; with_reducible apply Keeps.built)
    | with_reducible intro _
    | (apply_assumption; done)

theorem execBar2BaseHi_keeps {sB : State} (v : Word) (s : State)  (hK : Keeps sB s) :
    OutKeeps sB (execBar2BaseHi v s) := by
  unfold execBar2BaseHi
  repeat' first
    | with_reducible refine OutKeeps.next ?_
    | with_reducible apply writeBar2Hi_keeps
    | (apply_assumption; done)

theorem writeOwn_keeps {sB : State} (s : State) (b : Block) (off : Nat) (v : Word)  (hK : Keeps sB s) :
    Keeps sB (writeOwn s b off v) := by
  unfold writeOwn
  repeat' first
    | with_reducible assumption
    | with_reducible apply writeFront_keeps
    | with_reducible apply manualArm_keeps
    | with_reducible apply rwrite_keeps
    | with_reducible apply writeEngineDesc_keeps
    | with_reducible apply writeParkCfg_keeps
    | with_reducible apply writeGme_keeps
    | with_reducible apply clearChecks_keeps
    | with_reducible apply writeSegOff_keeps
    | with_reducible apply writeParityInject_keeps
    | with_reducible apply writeSemPage_keeps
    | with_reducible apply dmaResume_keeps
    | with_reducible apply writeSvc_keeps
    | with_reducible apply writeSpare_keeps
    | with_reducible apply rput_keeps
    | with_reducible apply writeResetReq_keeps
    | with_reducible apply writeStride_keeps
    | with_reducible apply writeQueue_keeps
    | with_reducible apply secGo_keeps
    | with_reducible apply writeSec_keeps
    | with_reducible apply writeBar2Hi_keeps
    | with_reducible apply writeGlobal_keeps
    | split

theorem writeHeader_keeps {sB : State} (s : State) (b : Block) (off : Nat) (v : Word)  (hK : Keeps sB s) :
    Keeps sB (writeHeader s b off v) := by
  unfold writeHeader
  repeat' first
    | with_reducible apply writeCtrl_keeps
    | with_reducible apply writeErrStatus_keeps
    | with_reducible apply writeLatchCtrl_keeps
    | with_reducible apply rwrite_keeps
    | split
    | (apply_assumption; done)

theorem regWrite_keeps {sB : State} (s : State) (page : Block) (off : Nat) (v : Word)  (hK : Keeps sB s) :
    Keeps sB (regWrite s page off v) := by
  unfold regWrite
  repeat' first
    | with_reducible assumption
    | with_reducible apply raise_keeps
    | with_reducible apply writeHeader_keeps
    | with_reducible apply writeOwn_keeps
    | split
    | dsimp only

theorem execRegisterWrite_keeps {sB : State} (b : Block) (offset : Nat) (v : Word) (s : State)  (hK : Keeps sB s) :
    OutKeeps sB (execRegisterWrite b offset v s) := by
  unfold execRegisterWrite
  repeat' first
    | with_reducible refine OutKeeps.next ?_
    | with_reducible apply regWrite_keeps
    | split
    | (apply_assumption; done)

end Sys2Proof.Machine
end

