-- ==== Sys2Proof/Laws/KeepGather.lean ====
section
/-!
SUPPORT. What the operations of Machine/Gather.lean keep: the queue and the invariant.
-/
namespace Sys2Proof.Machine

theorem gmeDefect_keeps {α : Type} (c : CoreId) (ws : List Word) (cause : Nat)  : RunKeeps (gmeDefect c ws cause : Run α) := by
  unfold gmeDefect
  repeat' first
    | with_reducible exact Keeps.refl _
    | with_reducible apply raiseTag_keeps
    | with_reducible refine RunKeeps.defectAt _ _ _ _ fun _ => ?_

theorem readCodesMaybe_keeps (r : Req) (d : Desc) (row j0 n : Nat)  : RunKeeps (readCodesMaybe r d row j0 n : Run (Option (List Nat))) := by
  unfold readCodesMaybe
  repeat' first
    | with_reducible exact Keeps.refl _
    | with_reducible exact RunKeeps.pure _
    | with_reducible exact RunKeeps.stop _
    | with_reducible exact RunKeeps.get
    | with_reducible apply attempt_keeps
    | with_reducible apply readCodes_keeps
    | with_reducible refine RunKeeps.modify fun _ => ?_
    | with_reducible refine RunKeeps.bind ?_ fun _ => ?_
    | split

theorem readSegs_keeps (r : Req) (d : Desc) (y0 : List (Nat × Nat × Nat))  : RunKeeps (readSegs r d y0 : Run (Option (List (List Nat)))) := by
  induction y0 with
  | nil =>
  unfold readSegs
  repeat' first
    | with_reducible exact RunKeeps.pure _
  | cons a l ih =>
  unfold readSegs
  repeat' first
    | with_reducible apply ih
    | with_reducible exact RunKeeps.pure _
    | with_reducible apply readCodesMaybe_keeps
    | with_reducible refine RunKeeps.bind ?_ fun _ => ?_
    | split

theorem writeSegs_keeps (r : Req) (d : Desc) (segs : List (Nat × Nat × Nat)) (codes : List (List Nat))  : RunKeeps (writeSegs r d segs codes : Run Unit) := by
  unfold writeSegs
  repeat' first
    | with_reducible apply writeCodes_keeps
    | with_reducible refine RunKeeps.forM _ fun _ => ?_

theorem pickIndex_keeps (c : CoreId) (ws : List Word) (policy n j : Nat) (i : Int)  : RunKeeps (pickIndex c ws policy n j i : Run Pick) := by
  unfold pickIndex
  repeat' first
    | with_reducible exact Keeps.refl _
    | with_reducible exact RunKeeps.pure _
    | with_reducible exact RunKeeps.markDefect
    | with_reducible apply bump_keeps
    | with_reducible apply rput_keeps
    | with_reducible apply raiseWith_keeps
    | with_reducible refine RunKeeps.act fun _ => ?_
    | with_reducible refine RunKeeps.bind ?_ fun _ => ?_
    | split

theorem readIndices_keeps (r : Req) (t : Tensor) (e0 n : Nat)  : RunKeeps (readIndices r t e0 n : Run (List (Int × Nat))) := by
  unfold readIndices
  repeat' first
    | with_reducible exact RunKeeps.pure _
    | with_reducible apply readCodes_keeps
    | with_reducible refine RunKeeps.bind ?_ fun _ => ?_

theorem writeBias_keeps (r : Req) (t : Option Tensor) (j b : Nat) (ok : Bool)  : RunKeeps (writeBias r t j b ok : Run Unit) := by
  unfold writeBias
  repeat' first
    | with_reducible exact RunKeeps.pure _
    | with_reducible apply writeCodes_keeps
    | with_reducible refine RunKeeps.forN fun _ => ?_
    | split

theorem fetchBlock_keeps (c : CoreId) (r : Req) (src : Desc) (axis b bytes i : Nat) (buf : MergeBuffer)  : RunKeeps (fetchBlock c r src axis b bytes i buf : Run (MergeBuffer × Option (List (List Nat)))) := by
  unfold fetchBlock
  repeat' first
    | with_reducible exact Keeps.refl _
    | with_reducible exact RunKeeps.pure _
    | with_reducible apply bump_keeps
    | with_reducible apply readSegs_keeps
    | with_reducible refine RunKeeps.act fun _ => ?_
    | with_reducible refine RunKeeps.bind ?_ fun _ => ?_
    | split

theorem gatherLoop_keeps (c : CoreId) (ws : List Word) (r : Req) (src out : Desc) (bias : Option Tensor) (axis b : Nat) (y0 : List (Int × Nat)) (y1 : MergeBuffer)  : RunKeeps (gatherLoop c ws r src out bias axis b y0 y1 : Run MergeBuffer) := by
  induction y0 generalizing y1 with
  | nil =>
  unfold gatherLoop
  repeat' first
    | with_reducible exact RunKeeps.pure _
  | cons a l ih =>
  unfold gatherLoop
  repeat' first
    | with_reducible apply ih
    | with_reducible apply pickIndex_keeps
    | with_reducible apply writeSegs_keeps
    | with_reducible apply writeBias_keeps
    | with_reducible apply fetchBlock_keeps
    | with_reducible refine RunKeeps.bind ?_ fun _ => ?_
    | split


theorem runGather_keeps (c : CoreId) (x : Slot)  : RunKeeps (runGather c x : Run Unit) := by
  unfold runGather
  repeat' first
    | with_reducible exact Keeps.refl _
    | with_reducible exact RunKeeps.pure _
    | with_reducible apply latchPage_keeps
    | with_reducible apply loadDesc_keeps
    | with_reducible apply loadOpt_keeps
    | with_reducible apply checkDest_keeps
    | with_reducible apply checkDestOpt_keeps
    | with_reducible apply gmeDefect_keeps
    | with_reducible apply gatherLoop_keeps
    | with_reducible apply readIndices_keeps
    | with_reducible refine RunKeeps.act fun _ => ?_
    | with_reducible refine RunKeeps.iteThen ?_ fun _ => ?_
    | with_reducible refine RunKeeps.bind ?_ fun _ => ?_
    | with_reducible refine RunKeeps.foldlM _ _ fun _ _ => ?_

theorem execGather_keeps {sB : State} (c : CoreId) (slot : Nat) (s : State)  (hK : Keeps sB s) :
    OutKeeps sB (execGather c slot s) := by
  unfold execGather
  repeat' first
    | with_reducible exact Keeps.refl _
    | with_reducible refine OutKeeps.next ?_
    | with_reducible apply startCommand_keeps
    | with_reducible apply runSlot_keeps
    | with_reducible apply runGather_keeps
    | with_reducible intro _
    | (apply_assumption; done)

theorem scatterBlock_keeps (c : CoreId) (ws : List Word) (r : Req) (src tgt : Desc) (axis b k : Nat) (js : List Nat)  : RunKeeps (scatterBlock c ws r src tgt axis b k js : Run Unit) := by
  unfold scatterBlock
  repeat' first
    | with_reducible exact Keeps.refl _
    | with_reducible exact RunKeeps.pure _
    | with_reducible exact RunKeeps.stop _
    | with_reducible apply readSegs_keeps
    | with_reducible apply readCodes_keeps
    | with_reducible apply raiseTag_keeps
    | with_reducible apply writeSegs_keeps
    | with_reducible apply reportNf_keeps
    | with_reducible apply bump_keeps
    | with_reducible refine RunKeeps.act fun _ => ?_
    | with_reducible refine RunKeeps.bind ?_ fun _ => ?_
    | with_reducible refine RunKeeps.forN fun _ => ?_
    | with_reducible refine RunKeeps.mapM _ fun _ => ?_
    | split

theorem scatterWindow_keeps (c : CoreId) (ws : List Word) (r : Req) (src tgt : Desc) (axis b : Nat) (es : List (Int × Nat))  : RunKeeps (scatterWindow c ws r src tgt axis b es : Run Unit) := by
  unfold scatterWindow
  repeat' first
    | with_reducible exact RunKeeps.pure _
    | with_reducible apply pickIndex_keeps
    | with_reducible apply scatterBlock_keeps
    | with_reducible refine RunKeeps.bind ?_ fun _ => ?_
    | with_reducible refine RunKeeps.forM _ fun _ => ?_
    | with_reducible refine RunKeeps.mapM _ fun _ => ?_

theorem runScatter_keeps (c : CoreId) (x : Slot)  : RunKeeps (runScatter c x : Run Unit) := by
  unfold runScatter
  repeat' first
    | with_reducible exact Keeps.refl _
    | with_reducible apply latchPage_keeps
    | with_reducible apply loadDesc_keeps
    | with_reducible apply checkDest_keeps
    | with_reducible apply gmeDefect_keeps
    | with_reducible apply scatterWindow_keeps
    | with_reducible apply readIndices_keeps
    | with_reducible refine RunKeeps.act fun _ => ?_
    | with_reducible refine RunKeeps.iteThen ?_ fun _ => ?_
    | with_reducible refine RunKeeps.bind ?_ fun _ => ?_
    | with_reducible refine RunKeeps.forM _ fun _ => ?_

theorem execScatterAdd_keeps {sB : State} (c : CoreId) (slot : Nat) (s : State)  (hK : Keeps sB s) :
    OutKeeps sB (execScatterAdd c slot s) := by
  unfold execScatterAdd
  repeat' first
    | with_reducible exact Keeps.refl _
    | with_reducible refine OutKeeps.next ?_
    | with_reducible apply startCommand_keeps
    | with_reducible apply runSlot_keeps
    | with_reducible apply runScatter_keeps
    | with_reducible intro _
    | (apply_assumption; done)

theorem loadPlan_keeps (f : FrontId) (ws : List Word) (i : Nat)  : RunKeeps (loadPlan f ws i : Run Plan) := by
  unfold loadPlan
  repeat' first
    | with_reducible exact RunKeeps.pure _
    | with_reducible apply loadDesc_keeps
    | with_reducible apply refuseDesc_keeps
    | with_reducible refine RunKeeps.bind ?_ fun _ => ?_
    | split

theorem transposeRow_keeps (r : Req) (p : Plan) (row : Nat)  : RunKeeps (transposeRow r p row : Run Unit) := by
  unfold transposeRow
  repeat' first
    | with_reducible exact RunKeeps.pure _
    | with_reducible apply writeCodes_keeps
    | with_reducible apply readCodes_keeps
    | with_reducible refine RunKeeps.bind ?_ fun _ => ?_
    | with_reducible refine RunKeeps.mapM _ fun _ => ?_
    | split

theorem transposeTileInPlace_keeps (r : Req) (d : Desc) (t : Nat)  : RunKeeps (transposeTileInPlace r d t : Run Unit) := by
  unfold transposeTileInPlace
  repeat' first
    | with_reducible apply readCodes_keeps
    | with_reducible apply writeCodes_keeps
    | with_reducible refine RunKeeps.bind ?_ fun _ => ?_
    | with_reducible refine RunKeeps.forN fun _ => ?_
    | with_reducible refine RunKeeps.mapM _ fun _ => ?_

theorem runTranspose_keeps (c : CoreId) (x : Slot)  : RunKeeps (runTranspose c x : Run Unit) := by
  unfold runTranspose
  repeat' first
    | with_reducible exact Keeps.refl _
    | with_reducible apply latchPage_keeps
    | with_reducible apply loadPlan_keeps
    | with_reducible apply checkDest_keeps
    | with_reducible apply transposeTileInPlace_keeps
    | with_reducible apply bump_keeps
    | with_reducible apply transposeRow_keeps
    | with_reducible refine RunKeeps.act fun _ => ?_
    | with_reducible refine RunKeeps.bind ?_ fun _ => ?_
    | with_reducible refine RunKeeps.forN fun _ => ?_
    | split

theorem execTransposeCopy_keeps {sB : State} (c : CoreId) (slot : Nat) (s : State)  (hK : Keeps sB s) :
    OutKeeps sB (execTransposeCopy c slot s) := by
  unfold execTransposeCopy
  repeat' first
    | with_reducible exact Keeps.refl _
    | with_reducible refine OutKeeps.next ?_
    | with_reducible apply startCommand_keeps
    | with_reducible apply runSlot_keeps
    | with_reducible apply runTranspose_keeps
    | with_reducible intro _
    | (apply_assumption; done)

end Sys2Proof.Machine
end

