-- ==== Sys2Proof/Laws/KeepGme.lean ====
section
/-!
SUPPORT. What the operations of Machine/Gme.lean keep: the queue and the invariant.
-/
namespace Sys2Proof.Machine

theorem raiseGme_keeps (c : CoreId) (ws : List Word) (cause : Nat) (syn : List Word)  : RunKeeps (raiseGme c ws cause syn : Run Unit) := by
  unfold raiseGme
  repeat' first
    | with_reducible exact Keeps.refl _
    | with_reducible apply raiseWith_keeps
    | with_reducible refine RunKeeps.act fun _ => ?_

theorem noteFaultEntry_keeps {sB : State} (s : State) (c : CoreId) (reg e : Nat)  (hK : Keeps sB s) :
    Keeps sB (noteFaultEntry s c reg e) := by
  unfold noteFaultEntry
  repeat' first
    | with_reducible apply rput_keeps
    | split
    | (apply_assumption; done)

theorem tileEntry_keeps (c : CoreId) (rq : Req) (g : Grid) (tn tk : Nat) (l : TileLoop)  : RunKeeps (tileEntry c rq g tn tk l : Run (TileLoop × DirEntry)) := by
  unfold tileEntry
  repeat' first
    | with_reducible exact Keeps.refl _
    | with_reducible exact RunKeeps.pure _
    | with_reducible apply readDirEntry_keeps
    | with_reducible apply bump_keeps
    | with_reducible refine RunKeeps.act fun _ => ?_
    | with_reducible refine RunKeeps.bind ?_ fun _ => ?_
    | split
    | dsimp only

theorem noteMalformed_keeps (c : CoreId) (ws : List Word) (e : Nat) (t : TileRead)  : RunKeeps (noteMalformed c ws e t : Run Unit) := by
  unfold noteMalformed
  repeat' first
    | with_reducible exact Keeps.refl _
    | with_reducible exact RunKeeps.pure _
    | with_reducible exact RunKeeps.look _
    | with_reducible exact RunKeeps.markDefect
    | with_reducible apply bump_keeps
    | with_reducible apply noteFaultEntry_keeps
    | with_reducible apply raiseGme_keeps
    | with_reducible refine RunKeeps.act fun _ => ?_
    | with_reducible refine RunKeeps.bind ?_ fun _ => ?_
    | split

theorem tileForward_keeps (c : CoreId) (ws : List Word) (rq : Req) (g : Grid) (tn tk : Nat) (l : TileLoop)  : RunKeeps (tileForward c ws rq g tn tk l : Run (TileLoop × List (List PodSlot))) := by
  unfold tileForward
  repeat' first
    | with_reducible exact Keeps.refl _
    | with_reducible exact RunKeeps.pure _
    | with_reducible apply tileEntry_keeps
    | with_reducible apply readForward_keeps
    | with_reducible apply bump_keeps
    | with_reducible apply noteMalformed_keeps
    | with_reducible refine RunKeeps.act fun _ => ?_
    | with_reducible refine RunKeeps.bind ?_ fun _ => ?_
    | split
    | dsimp only

theorem noteWindow_keeps (c : CoreId) (beats : Nat)  : RunKeeps (noteWindow c beats : Run Unit) := by
  unfold noteWindow
  repeat' first
    | with_reducible exact Keeps.refl _
    | with_reducible apply bump_keeps
    | with_reducible refine RunKeeps.act fun _ => ?_

theorem windowStep_keeps (c : CoreId) (rq : Req) (a : Tensor) (fmt m0 mn w : Nat) (rows : List (List PodSlot)) (st : Nat × List (List Acc))  : RunKeeps (windowStep c rq a fmt m0 mn w rows st : Run (Nat × List (List Acc))) := by
  unfold windowStep
  repeat' first
    | with_reducible exact RunKeeps.pure _
    | with_reducible apply noteWindow_keeps
    | with_reducible apply readElems_keeps
    | with_reducible apply noteFf_keeps
    | with_reducible refine RunKeeps.bind ?_ fun _ => ?_
    | with_reducible refine RunKeeps.mapM _ fun _ => ?_
    | split
    | dsimp only

theorem holdForLock_keeps (c : CoreId) (slot : Nat) (es : List Nat)  : RunKeeps (holdForLock c slot es : Run Unit) := by
  unfold holdForLock
  repeat' first
    | with_reducible exact Keeps.refl _
    | with_reducible exact RunKeeps.pure _
    | with_reducible exact RunKeeps.stop _
    | with_reducible exact RunKeeps.look _
    | with_reducible refine RunKeeps.modify fun _ => ?_
    | with_reducible refine RunKeeps.bind ?_ fun _ => ?_
    | split

theorem endLockWait_keeps {sB : State} (s : State) (c : CoreId) (x : Slot) (hK : Keeps sB s) :
    Keeps sB (endLockWait s c x) := by
  unfold endLockWait
  repeat' first
    | with_reducible assumption
    | with_reducible apply traceWait_keeps
    | split

theorem runHeld_keeps {sB : State} (s : State) (f : FrontId) (c : CoreId) (x : Slot) (body : Run Unit) (hbody : RunKeeps body) (hK : Keeps sB s) :
    Keeps sB (runHeld s f c x body) := by
  unfold runHeld
  repeat' first
    | with_reducible assumption
    | with_reducible apply waitSlot_keeps
    | with_reducible apply endLockWait_keeps
    | with_reducible apply endSlot_keeps
    | with_reducible refine Keeps.runFromEq (by assumption) ?_ ?_
    | split

theorem loadWindow_keeps (c : CoreId) (x : Slot)  : RunKeeps (loadWindow c x : Run WindowArgs) := by
  unfold loadWindow
  repeat' first
    | with_reducible exact Keeps.refl _
    | with_reducible exact RunKeeps.pure _
    | with_reducible apply latchPage_keeps
    | with_reducible apply loadDesc_keeps
    | with_reducible apply loadOpt_keeps
    | with_reducible apply checkDest_keeps
    | with_reducible apply checkDestOpt_keeps
    | with_reducible apply loadGrid_keeps
    | with_reducible refine RunKeeps.act fun _ => ?_
    | with_reducible refine RunKeeps.bind ?_ fun _ => ?_
    | split

theorem neuronCol_keeps (core : CoreId) (ws : List Word) (g : Grid) (i : Nat) (entry : Nat)  : RunKeeps (neuronCol core ws g i entry : Run NeuronCol) := by
  unfold neuronCol
  repeat' first
    | with_reducible exact Keeps.refl _
    | with_reducible exact RunKeeps.pure _
    | with_reducible exact RunKeeps.look _
    | with_reducible exact RunKeeps.markDefect
    | with_reducible apply bump_keeps
    | with_reducible apply rput_keeps
    | with_reducible apply raiseGme_keeps
    | with_reducible refine RunKeeps.act fun _ => ?_
    | with_reducible refine RunKeeps.bind ?_ fun _ => ?_
    | split
    | dsimp only

theorem columnRows_keeps (c : CoreId) (ws : List Word) (rq : Req) (g : Grid) (w : Nat) (ns : List NeuronCol)
    (l : TileLoop) : RunKeeps (columnRows c ws rq g w ns l) := by
  induction ns generalizing l with
  | nil => exact RunKeeps.pure _
  | cons n ns ih =>
    cases n with
    | row n a =>
      exact (tileForward_keeps _ _ _ _ _ _ _).bind fun _ => (ih _).bind fun _ => RunKeeps.pure _
    | _ => exact (ih _).bind fun _ => RunKeeps.pure _

theorem podChunk_keeps (c : CoreId) (ws : List Word) (rq : Req) (a : Tensor) (g : Grid) (m0 mn : Nat)
    (ns : List NeuronCol) (w0 wn : Nat) (l : TileLoop) : RunKeeps (podChunk c ws rq a g m0 mn ns w0 wn l) :=
  RunKeeps.foldlM _ _ fun _ _ => (columnRows_keeps _ _ _ _ _ _ _).bind fun _ =>
    (windowStep_keeps _ _ _ _ _ _ _ _ _).bind fun _ => RunKeeps.pure _

theorem podTiles_keeps (c : CoreId) (ws : List Word) (rq : Req) (lanes : List Nat) (a : Tensor) (g : Grid)
    (ns : List NeuronCol) (cols : Nat → List NeuronCol → List Col) :
    ∀ t ∈ podTiles c ws rq lanes a g ns cols, TileKeeps t := by
  intro t ht w hw l
  simp only [podTiles, List.mem_flatMap, List.mem_map] at ht
  obtain ⟨i, -, p, -, rfl⟩ := ht
  obtain ⟨k, -, rfl⟩ := List.mem_map.1 hw
  exact podChunk_keeps _ _ _ _ _ _ _ _ _ _ _

theorem bumpPred_keeps {sB : State} (s : State) (c : CoreId) (layer audited misses : Nat)  (hK : Keeps sB s) :
    Keeps sB (bumpPred s c layer audited misses) := by
  unfold bumpPred
  repeat' first
    | (rw [mk_built]; with_reducible apply Keeps.built)
    | with_reducible exact keysRise_tset _ _ _ _ (by assumption)
    | with_reducible intro _
    | (apply_assumption; done)

theorem noteAudit_keeps (c : CoreId) (ws : List Word) (kept : List (Nat × Val))  : RunKeeps (noteAudit c ws kept : Run Unit) := by
  unfold noteAudit
  repeat' first
    | with_reducible exact Keeps.refl _
    | with_reducible apply bumpPred_keeps
    | with_reducible apply bump_keeps
    | with_reducible refine RunKeeps.act fun _ => ?_

theorem podNeurons_keeps (c : CoreId) (ws : List Word) (rq : Req) (w : WindowArgs) (list : Option Tensor)  : RunKeeps (podNeurons c ws rq w list : Run (List NeuronCol)) := by
  unfold podNeurons
  repeat' first
    | with_reducible exact RunKeeps.pure _
    | with_reducible apply readCodes_keeps
    | with_reducible apply arrayDefect_keeps
    | with_reducible apply neuronCol_keeps
    | with_reducible refine RunKeeps.bind ?_ fun _ => ?_
    | with_reducible refine RunKeeps.mapM _ fun _ => ?_
    | split
    | dsimp only

theorem validatePod_keeps (c : CoreId) (ws : List Word) (w : WindowArgs) (list : Option Tensor)  : RunKeeps (validatePod c ws w list : Run Unit) := by
  unfold validatePod
  repeat' first
    | with_reducible exact RunKeeps.pure _
    | with_reducible exact RunKeeps.look _
    | with_reducible apply arrayDefect_keeps
    | with_reducible refine RunKeeps.iteThen ?_ fun _ => ?_
    | with_reducible refine RunKeeps.bind ?_ fun _ => ?_
    | split

theorem lanesFor_keeps (c : CoreId)  : RunKeeps (lanesFor c : Run (List Nat)) := by
  unfold lanesFor
  repeat' first
    | with_reducible exact RunKeeps.pure _
    | with_reducible exact RunKeeps.stop _
    | with_reducible exact RunKeeps.look _
    | with_reducible refine RunKeeps.bind ?_ fun _ => ?_
    | split

theorem windowDrain_keeps (c : CoreId) (ws : List Word) (w : WindowArgs) (tot : Option Tensor) (width : Nat) (cols : Bool)  : RunKeeps (windowDrain c ws w tot width cols : Run DrainCtx) := by
  unfold windowDrain
  repeat' first
    | with_reducible exact RunKeeps.pure _
    | with_reducible exact RunKeeps.look _
    | with_reducible refine RunKeeps.bind ?_ fun _ => ?_

theorem runPod_keeps (c : CoreId) (x : Slot)  : RunKeeps (runPod c x : Run Unit) := by
  unfold runPod
  repeat' first
    | exact plainStages_keep _ (podTiles_keeps _ _ _ _ _ _ _ _) _ (by assumption)
    | with_reducible exact Keeps.refl _
    | with_reducible apply loadWindow_keeps
    | with_reducible apply loadAnyOpt_keeps
    | with_reducible apply validatePod_keeps
    | with_reducible apply lanesFor_keeps
    | with_reducible apply podNeurons_keeps
    | with_reducible apply holdForLock_keeps
    | with_reducible apply latchPage_keeps
    | with_reducible apply windowDrain_keeps
    | with_reducible apply driveTiles_keeps
    | with_reducible apply noteAudit_keeps
    | with_reducible apply endTiles_keeps
    | with_reducible refine RunKeeps.act fun _ => ?_
    | with_reducible refine RunKeeps.iteThen ?_ fun _ => ?_
    | with_reducible refine RunKeeps.bind ?_ fun _ => ?_
    | split
    | with_reducible intro _

theorem execMatmulPod_keeps {sB : State} (c : CoreId) (slot : Nat) (s : State)  (hK : Keeps sB s) :
    OutKeeps sB (execMatmulPod c slot s) := by
  unfold execMatmulPod
  repeat' first
    | with_reducible assumption
    | with_reducible exact Keeps.refl _
    | with_reducible refine OutKeeps.next ?_
    | with_reducible apply startCommand_keeps
    | with_reducible apply runHeld_keeps
    | with_reducible apply runPod_keeps
    | with_reducible intro _

theorem tileForm_keeps (c : CoreId) (ws : List Word) (rq : Req) (g : Grid) (scr : Option Scratch) (tn tk : Nat) (l : TileLoop)  : RunKeeps (tileForm c ws rq g scr tn tk l : Run (TileLoop × Option Scratch × List (List PodSlot))) := by
  unfold tileForm
  repeat' first
    | with_reducible exact Keeps.refl _
    | with_reducible exact RunKeeps.pure _
    | with_reducible exact RunKeeps.stop _
    | with_reducible exact RunKeeps.look _
    | with_reducible exact RunKeeps.markDefect
    | with_reducible apply tileEntry_keeps
    | with_reducible apply noteMalformed_keeps
    | with_reducible apply bump_keeps
    | with_reducible apply readTransposed_keeps
    | with_reducible apply noteFaultEntry_keeps
    | with_reducible apply raiseGme_keeps
    | with_reducible apply readForward_keeps
    | with_reducible apply gWrite_keeps
    | with_reducible apply useFresh_keeps
    | with_reducible apply rput_keeps
    | with_reducible refine RunKeeps.act fun _ => ?_
    | with_reducible refine RunKeeps.need fun _ => ?_
    | with_reducible refine RunKeeps.bind ?_ fun _ => ?_
    | split
    | dsimp only

theorem columnForms_keeps (c : CoreId) (ws : List Word) (rq : Req) (g : Grid) (tk : Nat) (tns : List Nat)
    (scr : Option Scratch) (l : TileLoop) : RunKeeps (columnForms c ws rq g tk tns scr l) := by
  induction tns generalizing scr l with
  | nil => exact RunKeeps.pure _
  | cons n ns ih =>
    exact (tileForm_keeps _ _ _ _ _ _ _ _).bind fun _ => (ih _ _).bind fun _ => RunKeeps.pure _

theorem podTStage_keeps (c : CoreId) (ws : List Word) (rq : Req) (lanes : List Nat) (a : Tensor) (g : Grid)
    (scr : Option Scratch) (tk : Nat) : StageKeeps (podTStage c ws rq lanes a g scr tk) := by
  intro l
  refine (columnForms_keeps _ _ _ _ _ _ _ _).gives.bind fun p _ => RunGives.pure ?_
  intro t ht w hw l
  simp only [List.mem_flatMap, List.mem_map] at ht
  obtain ⟨i, -, j, -, rfl⟩ := ht
  obtain ⟨k, -, rfl⟩ := List.mem_map.1 hw
  exact (RunKeeps.foldlM _ _ fun _ _ => windowStep_keeps _ _ _ _ _ _ _ _ _).bind fun _ => RunKeeps.pure _

theorem podTStages_keep (c : CoreId) (ws : List Word) (rq : Req) (lanes : List Nat) (a : Tensor) (g : Grid)
    (scr : Option Scratch) (n : Nat) :
    ∀ x ∈ (List.range n).map (podTStage c ws rq lanes a g scr), StageKeeps x := by
  intro x hx
  obtain ⟨k, -, rfl⟩ := List.mem_map.1 hx
  exact podTStage_keeps _ _ _ _ _ _ _ _

theorem validatePodT_keeps (c : CoreId) (ws : List Word) (w : WindowArgs) (scr : Option Tensor)  : RunKeeps (validatePodT c ws w scr : Run Unit) := by
  unfold validatePodT
  repeat' first
    | with_reducible exact RunKeeps.pure _
    | with_reducible exact RunKeeps.look _
    | with_reducible apply arrayDefect_keeps
    | with_reducible refine RunKeeps.iteThen ?_ fun _ => ?_
    | with_reducible refine RunKeeps.bind ?_ fun _ => ?_
    | split

theorem runPodT_keeps (c : CoreId) (x : Slot)  : RunKeeps (runPodT c x : Run Unit) := by
  unfold runPodT
  repeat' first
    | exact podTStages_keep _ _ _ _ _ _ _ _ _ (by assumption)
    | with_reducible exact Keeps.refl _
    | with_reducible apply loadWindow_keeps
    | with_reducible apply loadOpt_keeps
    | with_reducible apply validatePodT_keeps
    | with_reducible apply lanesFor_keeps
    | with_reducible apply holdForLock_keeps
    | with_reducible apply rput_keeps
    | with_reducible apply latchPage_keeps
    | with_reducible apply windowDrain_keeps
    | with_reducible apply driveTiles_keeps
    | with_reducible apply endTiles_keeps
    | with_reducible refine RunKeeps.act fun _ => ?_
    | with_reducible refine RunKeeps.bind ?_ fun _ => ?_
    | dsimp only
    | with_reducible intro _

theorem execMatmulPodT_keeps {sB : State} (c : CoreId) (slot : Nat) (s : State)  (hK : Keeps sB s) :
    OutKeeps sB (execMatmulPodT c slot s) := by
  unfold execMatmulPodT
  repeat' first
    | with_reducible assumption
    | with_reducible exact Keeps.refl _
    | with_reducible refine OutKeeps.next ?_
    | with_reducible apply startCommand_keeps
    | with_reducible apply runHeld_keeps
    | with_reducible apply runPodT_keeps
    | with_reducible intro _

theorem maskedTile_keeps (ws : List Word) (c : CoreId) (rq : Req) (lanes : List Nat) (xt dy : Tensor)
    (q tn tk cap r0 : Nat) (rows : List (List PodSlot × Nat)) (p : Nat) :
    TileKeeps (maskedTile ws c rq lanes xt dy q tn tk cap r0 rows p) := by
  intro w hw l
  obtain ⟨k, -, rfl⟩ := List.mem_map.1 hw
  clear hw
  dsimp only
  repeat' first
    | with_reducible exact RunKeeps.pure _
    | with_reducible refine RunKeeps.act fun _ => ?_
    | with_reducible apply readElems_keeps
    | with_reducible apply noteFf_keeps
    | with_reducible refine RunKeeps.mapM _ fun _ => ?_
    | with_reducible refine RunKeeps.bind ?_ fun _ => ?_
    | with_reducible apply bump_keeps
    | with_reducible exact Keeps.refl _
    | split

theorem maskedStage_keeps (c : CoreId) (ws : List Word) (rq : Req) (lanes : List Nat) (xt dy : Tensor) (g : Grid)
    (cap tn tk : Nat) : StageKeeps (maskedStage c ws rq lanes xt dy g cap tn tk) := by
  intro l
  refine (tileForward_keeps _ _ _ _ _ _ _).gives.bind fun p _ => ?_
  dsimp only
  have key : ∀ m : TileLoop, RunGives (Pure.pure (m, (groups 128 lanes.length).flatMap (fun (r0, rn) =>
      ((List.range (windowBeats ((((p.2.zip (firstSlots p.2 0)).drop r0).take rn).map (·.1)))).filter
        (fun k => (passSlots cap k (((p.2.zip (firstSlots p.2 0)).drop r0).take rn)).any (· ≠ []))).map (fun k =>
          maskedTile ws c rq lanes xt dy (tn * g.cols + tk) tn tk cap r0
            (((p.2.zip (firstSlots p.2 0)).drop r0).take rn) k))) : Run (TileLoop × List OutTile))
      (fun q => ∀ t ∈ q.2, TileKeeps t) := by
    intro m
    refine RunGives.pure fun t ht => ?_
    simp only [List.mem_flatMap, List.mem_map] at ht
    obtain ⟨i, -, k, -, rfl⟩ := ht
    exact maskedTile_keeps _ _ _ _ _ _ _ _ _ _ _ _ _
  split
  · exact (raiseGme_keeps _ _ _ _).gives.bind fun _ _ => RunKeeps.markDefect.gives.bind fun _ _ => key _
  · exact key _

theorem maskedStages_keep (c : CoreId) (ws : List Word) (rq : Req) (lanes : List Nat) (xt dy : Tensor) (g : Grid)
    (cap : Nat) (l : List (Nat × Nat)) :
    ∀ x ∈ l.map (fun (y : Nat × Nat) => maskedStage c ws rq lanes xt dy g cap y.1 y.2), StageKeeps x := by
  intro x hx
  obtain ⟨k, -, rfl⟩ := List.mem_map.1 hx
  exact maskedStage_keeps _ _ _ _ _ _ _ _ _ _

theorem runMasked_keeps (c : CoreId) (x : Slot)  : RunKeeps (runMasked c x : Run Unit) := by
  unfold runMasked
  repeat' first
    | exact maskedStages_keep _ _ _ _ _ _ _ _ _ _ (by assumption)
    | with_reducible exact Keeps.refl _
    | with_reducible exact RunKeeps.look _
    | with_reducible apply loadWindow_keeps
    | with_reducible apply loadDesc_keeps
    | with_reducible apply arrayDefect_keeps
    | with_reducible apply lanesFor_keeps
    | with_reducible apply holdForLock_keeps
    | with_reducible apply latchPage_keeps
    | with_reducible apply windowDrain_keeps
    | with_reducible apply driveTiles_keeps
    | with_reducible apply endTiles_keeps
    | with_reducible refine RunKeeps.act fun _ => ?_
    | with_reducible refine RunKeeps.iteThen ?_ fun _ => ?_
    | with_reducible refine RunKeeps.bind ?_ fun _ => ?_
    | dsimp only
    | with_reducible intro _

theorem execMaskedProduct_keeps {sB : State} (c : CoreId) (slot : Nat) (s : State)  (hK : Keeps sB s) :
    OutKeeps sB (execMaskedProduct c slot s) := by
  unfold execMaskedProduct
  repeat' first
    | with_reducible assumption
    | with_reducible exact Keeps.refl _
    | with_reducible refine OutKeeps.next ?_
    | with_reducible apply startCommand_keeps
    | with_reducible apply runHeld_keeps
    | with_reducible apply runMasked_keeps
    | with_reducible intro _

theorem runPredict_keeps (c : CoreId) (x : Slot)  : RunKeeps (runPredict c x : Run Unit) := by
  unfold runPredict
  repeat' first
    | exact plainStages_keep _ (podTiles_keeps _ _ _ _ _ _ _ _) _ (by assumption)
    | with_reducible exact Keeps.refl _
    | with_reducible exact RunKeeps.look _
    | with_reducible apply latchPage_keeps
    | with_reducible apply loadDesc_keeps
    | with_reducible apply checkDest_keeps
    | with_reducible apply loadGrid_keeps
    | with_reducible apply arrayDefect_keeps
    | with_reducible apply lanesFor_keeps
    | with_reducible apply holdForLock_keeps
    | with_reducible apply windowDrain_keeps
    | with_reducible apply driveTiles_keeps
    | with_reducible apply endTiles_keeps
    | with_reducible apply writeCodes_keeps
    | with_reducible apply bump_keeps
    | with_reducible refine RunKeeps.act fun _ => ?_
    | with_reducible refine RunKeeps.iteThen ?_ fun _ => ?_
    | with_reducible refine RunKeeps.bind ?_ fun _ => ?_
    | with_reducible intro _

theorem execPredict_keeps {sB : State} (c : CoreId) (slot : Nat) (s : State)  (hK : Keeps sB s) :
    OutKeeps sB (execPredict c slot s) := by
  unfold execPredict
  repeat' first
    | with_reducible assumption
    | with_reducible exact Keeps.refl _
    | with_reducible refine OutKeeps.next ?_
    | with_reducible apply startCommand_keeps
    | with_reducible apply runHeld_keeps
    | with_reducible apply runPredict_keeps
    | with_reducible intro _

end Sys2Proof.Machine
end

