-- ==== Sys2Proof/Laws/KeepHostPort.lean ====
section
/-!
SUPPORT. What the operations of Machine/HostPort.lean keep: the queue and the invariant.
-/
namespace Sys2Proof.Machine

theorem hostReset_keeps {sB : State} (s : State)  (hK : Keeps sB s) :
    Keeps sB (hostReset s) := by
  unfold hostReset
  repeat' first
    | with_reducible apply hostBase_keeps
    | (rw [mk_built]; with_reducible apply Keeps.built)
    | with_reducible intro _
    | (apply_assumption; done)

theorem execHostLinkUp_keeps {sB : State} (t : LinkTrain) (flit : Bool) (s : State)  (hK : Keeps sB s) :
    OutKeeps sB (execHostLinkUp t flit s) := by
  unfold execHostLinkUp
  repeat' first
    | with_reducible refine OutKeeps.next ?_
    | with_reducible apply rput_keeps
    | split
    | (apply_assumption; done)

theorem execPerstN_keeps {sB : State} (asserted : Bool) (s : State)  (hK : Keeps sB s) :
    OutKeeps sB (execPerstN asserted s) := by
  unfold execPerstN
  repeat' first
    | with_reducible refine OutKeeps.next ?_
    | with_reducible apply modInputs_keeps
    | with_reducible apply hostReset_keeps
    | split
    | (apply_assumption; done)

theorem execHotReset_keeps {sB : State} (s : State)  (hK : Keeps sB s) :
    OutKeeps sB (execHotReset s) := by
  unfold execHotReset
  repeat' first
    | with_reducible refine OutKeeps.next ?_
    | with_reducible apply hostReset_keeps
    | (apply_assumption; done)

theorem execHostLinkDown_keeps {sB : State} (s : State)  (hK : Keeps sB s) :
    OutKeeps sB (execHostLinkDown s) := by
  unfold execHostLinkDown
  repeat' first
    | with_reducible refine OutKeeps.next ?_
    | with_reducible apply raise_keeps
    | with_reducible apply bump_keeps
    | with_reducible apply rput_keeps
    | with_reducible apply hostReset_keeps
    | split
    | (apply_assumption; done)

theorem execHostFlr_keeps {sB : State} (s : State)  (hK : Keeps sB s) :
    OutKeeps sB (execHostFlr s) := by
  unfold execHostFlr
  repeat' first
    | with_reducible refine OutKeeps.next ?_
    | with_reducible apply raise_keeps
    | with_reducible apply bump_keeps
    | with_reducible apply hostReset_keeps
    | (apply_assumption; done)

theorem enableMemory_keeps {sB : State} (s : State)  (hK : Keeps sB s) :
    Keeps sB (enableMemory s) := by
  unfold enableMemory
  repeat' first
    | with_reducible apply rputField_keeps
    | (rw [mk_built]; with_reducible apply Keeps.built)
    | split
    | with_reducible intro _
    | (apply_assumption; done)

theorem configWrite_keeps {sB : State} (s : State) (off : Nat) (v : Word) (hK : Keeps sB s) :
    Keeps sB (configWrite s off v) := by
  unfold configWrite
  extract_lets h0 s1
  have h1 : Keeps sB s1 := Keeps.leaf hK
  clear_value s1
  have h2 : ∀ x, Keeps sB { s1 with host := x } := fun x => Keeps.leaf h1
  split
  · split
    · exact enableMemory_keeps _ h1
    · exact h2 _
  · generalize (decide (off = Config.rebarControl) && decide (8 ≤ bits v 13 8) &&
      s1.boot.bar2Sizes.testBit (bits v 13 8 - 8)) = c
    cases c
    · exact h1
    · exact h2 _

theorem execConfigurationRequest_keeps {sB : State} (offset : Nat) (wr : Option Word) (s : State)  (hK : Keeps sB s) :
    OutKeeps sB (execConfigurationRequest offset wr s) := by
  unfold execConfigurationRequest
  repeat' first
    | with_reducible refine OutKeeps.next ?_
    | with_reducible apply emit_keeps
    | with_reducible apply configWrite_keeps
    | split
    | (apply_assumption; done)

theorem afterSwitch_keeps {sB : State} (s : State) (page : Nat)  (hK : Keeps sB s) :
    Keeps sB (afterSwitch s page) := by
  unfold afterSwitch
  repeat' first
    | with_reducible apply switchOver_keeps
    | split
    | (apply_assumption; done)

theorem bar0Read_keeps {sB : State} (s : State) (x n : Nat)  (hK : Keeps sB s) :
    Keeps sB (bar0Read s x n).1 := by
  unfold bar0Read
  repeat' first
    | with_reducible apply regRead64_keeps
    | with_reducible apply regRead_keeps
    | split
    | (apply_assumption; done)

theorem bar0Write_keeps {sB : State} (s : State) (x n : Nat) (v : BitVec 64)  (hK : Keeps sB s) :
    Keeps sB (bar0Write s x n v) := by
  unfold bar0Write
  repeat' first
    | with_reducible apply regWrite_keeps
    | split
    | (apply_assumption; done)

theorem execBar0Access_keeps {sB : State} (offset bytes : Nat) (wr : Option (BitVec 64)) (s : State)  (hK : Keeps sB s) :
    OutKeeps sB (execBar0Access offset bytes wr s) := by
  unfold execBar0Access
  repeat' first
    | with_reducible refine OutKeeps.next ?_
    | with_reducible apply afterSwitch_keeps
    | with_reducible apply bar0Write_keeps
    | with_reducible apply bump_keeps
    | with_reducible apply bar0Read_keeps
    | with_reducible apply emit_keeps
    | with_reducible apply raise_keeps
    | split
    | (apply_assumption; done)

theorem hostWrites_keeps {sB : State} (y0 : List (Nat × Nat)) (y1 : List Byte) (y2 : State)  (hK : Keeps sB y2) :
    Keeps sB (hostWrites y0 y1 y2) := by
  induction y0 generalizing y1 y2 with
  | nil =>
  unfold hostWrites
  repeat' first
    | (apply_assumption; done)
  | cons a l ih =>
  unfold hostWrites
  repeat' first
    | with_reducible apply ih
    | with_reducible apply hostWrite_keeps
    | (apply_assumption; done)

theorem execBar2Access_keeps {sB : State} (offset : Nat) (a : Access) (s : State)  (hK : Keeps sB s) :
    OutKeeps sB (execBar2Access offset a s) := by
  unfold execBar2Access
  repeat' first
    | with_reducible refine OutKeeps.next ?_
    | with_reducible apply hostReads_keeps
    | with_reducible apply hostWrites_keeps
    | (rw [mk_built]; with_reducible apply Keeps.built)
    | split
    | with_reducible intro _
    | (apply_assumption; done)

theorem execMsiXUnmask_keeps {sB : State} (vector : Fin 2048) (s : State)  (hK : Keeps sB s) :
    OutKeeps sB (execMsiXUnmask vector s) := by
  unfold execMsiXUnmask
  repeat' first
    | with_reducible refine OutKeeps.next ?_
    | with_reducible apply sendMsi_keeps
    | (rw [mk_built]; with_reducible apply Keeps.built)
    | split
    | dsimp only
    | with_reducible intro _
    | (apply_assumption; done)

end Sys2Proof.Machine
end

