-- ==== Sys2Proof/Laws/KeepLapse.lean ====
section
/-!
SUPPORT. What the operations of Machine/Lapse.lean keep: the queue and the invariant.
-/
namespace Sys2Proof.Machine

theorem timeoutSem_keeps {sB : State} (s : State) (f : FrontId) (x : Slot)  (hK : Keeps sB s) :
    Keeps sB (timeoutSem s f x) := by
  unfold timeoutSem
  repeat' first
    | with_reducible assumption
    | with_reducible apply raiseTag_keeps
    | with_reducible apply endSlot_keeps
    | (rw [mk_built]; with_reducible apply Keeps.built)
    | with_reducible rfl
    | with_reducible intro _

theorem endOwed_keeps {sB : State} (s : State) (who : Block) (y0 : Owed)  (hK : Keeps sB s) :
    Keeps sB (endOwed s who y0) := by
  unfold endOwed
  repeat' first
    | with_reducible assumption
    | with_reducible apply timeoutSem_keeps
    | with_reducible apply dmaLost_keeps
    | with_reducible apply dropRemote_keeps
    | with_reducible apply answerRemote_keeps
    | with_reducible apply raise_keeps
    | with_reducible apply raiseAtRequester_keeps
    | with_reducible apply answerHeld_keeps
    | with_reducible apply respond_keeps
    | with_reducible apply raiseTag_keeps
    | (rw [mk_built]; with_reducible apply Keeps.built)
    | with_reducible rfl
    | split
    | with_reducible intro _

theorem execRequestTimeout_keeps {sB : State} (who : Block) (k : Nat) (s : State)  (hK : Keeps sB s) :
    OutKeeps sB (execRequestTimeout who k s) := by
  unfold execRequestTimeout
  repeat' first
    | with_reducible assumption
    | with_reducible refine OutKeeps.next ?_
    | with_reducible apply endOwed_keeps
    | (rw [mk_built]; with_reducible apply Keeps.built)
    | with_reducible rfl
    | split
    | with_reducible intro _

end Sys2Proof.Machine
end

