-- ==== Sys2Proof/Laws/KeepTap.lean ====
section
/-!
SUPPORT. What the operations of Machine/Tap.lean keep: the queue and the invariant.
-/
namespace Sys2Proof.Machine

theorem execDbgTck_keeps {sB : State} (pins : TapPins) (s : State)  (hK : Keeps sB s) :
    OutKeeps sB (execDbgTck pins s) := by
  unfold execDbgTck
  repeat' first
    | with_reducible refine OutKeeps.next ?_
    | with_reducible exact OutKeeps.refused _
    | (rw [mk_built]; with_reducible apply Keeps.built)
    | split
    | with_reducible intro _
    | (apply_assumption; done)

end Sys2Proof.Machine
end

