-- ==== Sys2Proof/Laws/KeepVu.lean ====
section
/-!
SUPPORT. What the operations of Machine/Vu.lean keep: the queue and the invariant.
-/
namespace Sys2Proof.Machine

theorem vuDefect_keeps {α : Type} (c : CoreId) (ws : List Word) (cause : Nat)  : RunKeeps (vuDefect c ws cause : Run α) := by
  unfold vuDefect
  repeat' first
    | with_reducible exact Keeps.refl _
    | with_reducible apply raiseTag_keeps
    | with_reducible refine RunKeeps.defectAt _ _ _ _ fun _ => ?_

theorem readInputs_keeps (c : CoreId) (r : Req) (t : Tensor) (row j0 n : Nat)  : RunKeeps (readInputs c r t row j0 n : Run (List Val)) := by
  unfold readInputs
  repeat' first
    | with_reducible exact Keeps.refl _
    | with_reducible exact RunKeeps.pure _
    | with_reducible apply readElems_keeps
    | with_reducible apply bump_keeps
    | with_reducible refine RunKeeps.act fun _ => ?_
    | with_reducible refine RunKeeps.bind ?_ fun _ => ?_

theorem eltRow_keeps (c : CoreId) (ws : List Word) (r : Req) (x y z : Option Tensor) (out : Tensor) (row e0 : Nat)  : RunKeeps (eltRow c ws r x y z out row e0 : Run Unit) := by
  unfold eltRow
  repeat' first
    | with_reducible exact Keeps.refl _
    | with_reducible exact RunKeeps.pure _
    | with_reducible exact RunKeeps.look _
    | with_reducible exact RunKeeps.markDefect
    | with_reducible apply readInputs_keeps
    | with_reducible apply addBeats_keeps
    | with_reducible apply bump_keeps
    | with_reducible apply raiseTag_keeps
    | with_reducible apply writeOutRow_keeps
    | with_reducible apply reportNf_keeps
    | with_reducible refine RunKeeps.act fun _ => ?_
    | with_reducible refine RunKeeps.bind ?_ fun _ => ?_
    | with_reducible refine RunKeeps.forN fun _ => ?_
    | with_reducible refine RunKeeps.mapM _ fun _ => ?_
    | split
    | dsimp only

theorem loadUsed_keeps (f : FrontId) (ws : List Word) (used : Bool) (i : Nat)  : RunKeeps (loadUsed f ws used i : Run (Option Tensor)) := by
  unfold loadUsed
  repeat' first
    | with_reducible exact RunKeeps.pure _
    | with_reducible apply loadDesc_keeps
    | with_reducible refine RunKeeps.bind ?_ fun _ => ?_
    | split

theorem runEltwise_keeps (c : CoreId) (x : Slot)  : RunKeeps (runEltwise c x : Run Unit) := by
  unfold runEltwise
  repeat' first
    | with_reducible exact Keeps.refl _
    | with_reducible apply loadDesc_keeps
    | with_reducible apply loadUsed_keeps
    | with_reducible apply checkDest_keeps
    | with_reducible apply vuDefect_keeps
    | with_reducible apply latchPage_keeps
    | with_reducible apply eltRow_keeps
    | with_reducible refine RunKeeps.act fun _ => ?_
    | with_reducible refine RunKeeps.bind ?_ fun _ => ?_
    | with_reducible refine RunKeeps.forN fun _ => ?_
    | split
    | dsimp only

theorem execEltwise_keeps {sB : State} (c : CoreId) (slot : Nat) (s : State)  (hK : Keeps sB s) :
    OutKeeps sB (execEltwise c slot s) := by
  unfold execEltwise
  repeat' first
    | with_reducible exact Keeps.refl _
    | with_reducible refine OutKeeps.next ?_
    | with_reducible apply startCommand_keeps
    | with_reducible apply runSlot_keeps
    | with_reducible apply runEltwise_keeps
    | with_reducible intro _
    | (apply_assumption; done)

theorem reduceInputs_keeps (c : CoreId) (r : Req) (x : Tensor) (axis row : Nat)  : RunKeeps (reduceInputs c r x axis row : Run (List (List Val))) := by
  unfold reduceInputs
  repeat' first
    | with_reducible exact RunKeeps.pure _
    | with_reducible apply readInputs_keeps
    | with_reducible refine RunKeeps.bind ?_ fun _ => ?_
    | with_reducible refine RunKeeps.mapM _ fun _ => ?_
    | split
    | dsimp only

theorem reduceRow_keeps (c : CoreId) (ws : List Word) (r : Req) (x out : Tensor) (idx : Option Tensor) (row e0 : Nat)  : RunKeeps (reduceRow c ws r x out idx row e0 : Run Unit) := by
  unfold reduceRow
  repeat' first
    | with_reducible exact Keeps.refl _
    | with_reducible exact RunKeeps.pure _
    | with_reducible exact RunKeeps.look _
    | with_reducible exact RunKeeps.markDefect
    | with_reducible apply reduceInputs_keeps
    | with_reducible apply addBeats_keeps
    | with_reducible apply bump_keeps
    | with_reducible apply raiseTag_keeps
    | with_reducible apply writeOutRow_keeps
    | with_reducible apply writeCodes_keeps
    | with_reducible apply reportNf_keeps
    | with_reducible refine RunKeeps.act fun _ => ?_
    | with_reducible refine RunKeeps.bind ?_ fun _ => ?_
    | with_reducible refine RunKeeps.forN fun _ => ?_
    | with_reducible refine RunKeeps.mapM _ fun _ => ?_
    | split

theorem runReduce_keeps (c : CoreId) (x : Slot)  : RunKeeps (runReduce c x : Run Unit) := by
  unfold runReduce
  repeat' first
    | with_reducible exact Keeps.refl _
    | with_reducible exact RunKeeps.pure _
    | with_reducible apply loadDesc_keeps
    | with_reducible apply loadOpt_keeps
    | with_reducible apply checkDest_keeps
    | with_reducible apply checkDestOpt_keeps
    | with_reducible apply vuDefect_keeps
    | with_reducible apply latchPage_keeps
    | with_reducible apply reduceRow_keeps
    | with_reducible refine RunKeeps.act fun _ => ?_
    | with_reducible refine RunKeeps.iteThen ?_ fun _ => ?_
    | with_reducible refine RunKeeps.bind ?_ fun _ => ?_
    | with_reducible refine RunKeeps.forN fun _ => ?_
    | split

theorem execReduce_keeps {sB : State} (c : CoreId) (slot : Nat) (s : State)  (hK : Keeps sB s) :
    OutKeeps sB (execReduce c slot s) := by
  unfold execReduce
  repeat' first
    | with_reducible exact Keeps.refl _
    | with_reducible refine OutKeeps.next ?_
    | with_reducible apply startCommand_keeps
    | with_reducible apply runSlot_keeps
    | with_reducible apply runReduce_keeps
    | with_reducible intro _
    | (apply_assumption; done)

end Sys2Proof.Machine
end

