-- ==== Sys2Proof/Laws/Starts.lean ====
section
/-!
SUPPORT. How a command of an engine starts and ends, once it may start.
-/
namespace Sys2Proof.Machine

/-- A command that may start runs its body, with its slot started. -/
theorem startCommand_may {s : State} {f : FrontId} {n op : Nat} {one : Bool} {x : Slot} (body : State → Slot → State)
    (h : MayStart s f n op one x) : startCommand s f n [op] one body = body (running s f x) (started s f x) := by
  unfold startCommand
  rw [h.head]
  have e := h.enabled
  by_cases hh : x.phase = .held
  · simp [h.opcode, h.unfenced, hh, running, started]
  · simp [h.opcode, h.unfenced, e hh, hh, running, started]

/-- Starting a command keeps its slot number. -/
theorem started_id (s : State) (f : FrontId) (x : Slot) : (started s f x).id = x.id := by
  unfold started; split <;> rfl

/-- Starting a command keeps its words. -/
theorem started_words (s : State) (f : FrontId) (x : Slot) : (started s f x).words = x.words := by
  unfold started; split <;> rfl

/-- Starting a command keeps what it waits for. -/
theorem started_held (s : State) (f : FrontId) (x : Slot) : (started s f x).held = x.held := by
  unfold started; split <;> rfl

/-- A command whose run does not have to wait ends with it. -/
theorem runSlot_ends {s : State} {f : FrontId} {x : Slot} {body : Run Unit} (h : (runFrom body x.memo s).2 ≠ .delayed) :
    runSlot s f x body = endSlot (runFrom body x.memo s).1.st f x.id (runFrom body x.memo s).2 := by
  unfold runSlot
  generalize runFrom body x.memo s = r at *
  obtain ⟨r, st⟩ := r
  cases st <;> simp_all

/-- A command whose run must wait waits at its engine. -/
theorem runSlot_waits {s : State} {f : FrontId} {x : Slot} {body : Run Unit} (h : (runFrom body x.memo s).2 = .delayed) :
    runSlot s f x body = waitSlot s f x (runFrom body x.memo s).1 := by
  unfold runSlot
  generalize runFrom body x.memo s = r at *
  obtain ⟨r, st⟩ := r
  cases st <;> simp_all

/-- A command that a lock may hold ends with its run, where that does not have to wait. -/
theorem runHeld_ends {s : State} {f : FrontId} {c : CoreId} {x : Slot} {body : Run Unit}
    (h : (runFrom body x.memo s).2 ≠ .delayed) :
    runHeld s f c x body = endSlot (endLockWait (runFrom body x.memo s).1.st c x) f x.id (runFrom body x.memo s).2 := by
  unfold runHeld
  generalize runFrom body x.memo s = r at *
  obtain ⟨r, st⟩ := r
  cases st <;> simp_all

/-- And waits at its engine, where it must wait. -/
theorem runHeld_waits {s : State} {f : FrontId} {c : CoreId} {x : Slot} {body : Run Unit}
    (h : (runFrom body x.memo s).2 = .delayed) :
    runHeld s f c x body = waitSlot s f (heldBy s x (runFrom body x.memo s).1) (runFrom body x.memo s).1 := by
  unfold runHeld
  generalize runFrom body x.memo s = r at *
  obtain ⟨r, st⟩ := r
  cases st <;> simp_all

/-- A command of a hub or port engine whose run does not have to wait ends with it, unless its slot runs on. -/
theorem runEngine_ends {s : State} {f : FrontId} {x : Slot} {body : Run Unit}
    (h : (runFrom body x.memo s).2 ≠ .delayed) :
    runEngine s f x body =
      if (getSlot (runFrom body x.memo s).1.st f x.id).any (fun z => z.phase = .running) then
        (runFrom body x.memo s).1.st
      else endSlot (runFrom body x.memo s).1.st f x.id (runFrom body x.memo s).2 := by
  unfold runEngine
  generalize runFrom body x.memo s = r at *
  obtain ⟨r, st⟩ := r
  unfold endSlot
  cases hg : getSlot r.st f x.id <;> cases st <;> simp_all

/-- And waits at its engine, where it must wait. -/
theorem runEngine_waits {s : State} {f : FrontId} {x : Slot} {body : Run Unit}
    (h : (runFrom body x.memo s).2 = .delayed) :
    runEngine s f x body = waitSlot s f x (runFrom body x.memo s).1 := by
  unfold runEngine
  generalize runFrom body x.memo s = r at *
  obtain ⟨r, st⟩ := r
  cases st <;> simp_all

/-- An operation of the security block that may run leaves what `secDone` says of its work. -/
theorem secRun_runs {s : State} {op : Nat} (f : State → State × SecResult) (h : secRuns s op = true) :
    secRun s op f = secDone s (f (secBegun s)) := by
  unfold secRun secDone
  rw [if_pos h, show bump s (activeSecurity s) 0 1 = secBegun s from rfl]
  generalize f (secBegun s) = r
  obtain ⟨t, x⟩ := r
  cases x <;> rfl

/-- A job of a check-value channel that may run leaves what `jobDone` says of its requests. -/
theorem runJob_runs {s : State} {ch : Fin 16} {mode : Nat} (h1 : cvState s ch = 1) (h2 : (getCv s ch).finished = none)
    (h3 : isFenced s (cvPage ch) = false) (h4 : (cvJob s ch).mode = mode) :
    runJob s ch mode = jobDone s ch (jobBody s ch (cvJob s ch)) := by
  unfold runJob
  simp [h1, h2, h3, h4]

/-- A job whose requests did not have to wait has processed its range, or was stopped. -/
theorem jobDone_ends {s : State} {ch : Fin 16} {r : State × Status} (h : r.2 ≠ .delayed) :
    jobDone s ch r = putCv r.1 ch { getCv r.1 ch with finished := some (decide (r.2 = .ok)) } := by
  obtain ⟨t, st⟩ := r
  cases st <;> first | exact absurd rfl h | rfl

end Sys2Proof.Machine
end

