-- ==== Sys2Proof/Tests/Slice0.lean ====
section
/-!
SUPPORT. The model's own tests: small states; for every statement with hypotheses a concrete state and operands that meet
them, at the boundaries of its clauses; an ill-formed term for each check of WellFormed; values and places that the
specification's examples and tables work out; a few commands of one step.
-/
namespace Sys2Proof.Tests
set_option Elab.async false
open Machine

/-! ### Small states -/

/-- Does a state meet the invariant? -/
def invOk (s : State) : Bool :=
  memWf s && keysRise s.regs && keysRise s.shadows && keysRise s.counters && s.counters.all counterOk &&
  keysRise s.latched && keysRise s.banks && s.banks.all (fun e => bankOk e.2) &&
  s.filling.all (fun e => decide (e.2 < 2 ^ 31)) && keysRise s.batons && s.batons.all batonOk && keysRise s.fronts &&
  keysRise s.segms && keysRise s.preds && keysRise s.beats && keysRise s.tables && keysRise s.dmas && keysRise s.routes &&
  keysRise s.decisions && keysRise s.pubs && keysRise s.parks && keysRise s.relays && keysRise s.nauloPorts &&
  keysRise s.changes && keysRise s.relocks && keysRise s.feeds && keysRise s.hotRuns && keysRise s.cvs && keysRise s.paths

theorem inv_of {s : State} (h : invOk s = true) : s.Inv := by
  simp only [invOk, Bool.and_eq_true] at h
  constructor <;> tauto

/-- The device after start-up, with nothing in it. -/
def up : State := { State.reset with boot := { Boot.reset with phase := .ready } }

/-- A register with a value. -/
def reg (b : Block) (off v : Nat) (s : State) : State := rput s b off (wordOf v)

/-- A block that accepts work. -/
def enabled (s : State) (b : Block) : State := rputBit s b Reg.Hdr.CTRL 0 true

/-- The 16 words of a command. -/
def ws (op : Nat) (fs : List (Nat × Nat)) : List Word :=
  (List.range 16).map (fun n => wordOf ((((0, op) :: fs).find? (fun f => f.1 = n)).elim 0 (fun f => f.2)))

/-- A command in slot 0 of a front end. -/
def job (f : FrontId) (op : Nat) (fs : List (Nat × Nat)) (ph : Phase) : Slot :=
  { id := 0, words := ws op fs, queue := queueOf f (ws op fs), phase := ph, step := 0, startStride := 0, latches := [],
    waitFrom := none, held := none, began := none, memo := [] }

/-- A state with that command and its engine enabled. -/
def withJob (f : FrontId) (x : Slot) (s : State) : State :=
  (engineBlocks f x.queue (cmdOp x.words)).foldl enabled (putFront s f { Front.reset with slots := [x] })

/-- May a command start? -/
def canStart (s : State) (f : FrontId) (n op : Nat) (one : Bool) (x : Slot) : Bool :=
  startable s f n one = some x && cmdOp x.words = op && !engineFenced s f x.queue op && engineEnabled s f x.queue op

theorem mayStart_of {s : State} {f : FrontId} {n op : Nat} {one : Bool} {x : Slot} (h : canStart s f n op one x = true) :
    MayStart s f n op one x := by
  simp only [canStart, Bool.and_eq_true, decide_eq_true_eq, Bool.not_eq_true'] at h
  exact ⟨h.1.1.1, h.1.1.2, h.1.2, fun _ => h.2⟩

/-- A ready command of an opcode in slot 0, on a device that is otherwise idle, may start. -/
def ready (f : FrontId) (op : Nat) (fs : List (Nat × Nat)) : State := withJob f (job f op fs .ready) up

/-- A state in which a request to an address is held, and so holds back later ones to its block. -/
def blocked (a : Nat) (s : State) : State :=
  { s with held := [{ who := .host, tag := 0, opc := 0, cls := .bulk, addr := a, acc := .read 64, fmt := none, reply := .unit,
                      answered := false }] }

theorem pair_of {α β : Type} {x : α × β} {b : β} (h : x.2 = b) : x = (x.1, b) := by rw [← h]

theorem witness_ArrayAndVectorCommandsRun :
    let f := FrontId.cp 127
    let x := job f
    (∀ m, m < 3 → MayStart (ready f 1 [(4, 32 * m)]) f 0 0x01 false (x 1 [(4, 32 * m)] .ready) ∧
      cf (ws 1 [(4, 32 * m)]) 4 6 5 = m) ∧
    (∀ op ∈ [0x08, 0x09, 0x10, 0x11, 0x19], MayStart (ready f op []) f 0 op false (x op [] .ready)) ∧
    (∀ op ∈ [0x18, 0x1A], MayStart (ready f op []) f 0 op true (x op [] .ready)) ∧
    (ranAs (ready f 8 []) f (x 8 [] .ready) (runEltwise 127 (started (ready f 8 []) f (x 8 [] .ready)))).2 ≠ .delayed ∧
    (let s := blocked (coreAddr 127 .am 0) (ready f 8 [])
     MayStart s f 0 8 false (x 8 [] .ready) ∧
     (ranAs s f (x 8 [] .ready) (runEltwise 127 (started s f (x 8 [] .ready)))).2 = .delayed) := by
  refine ⟨fun m h => ⟨mayStart_of ?_, ?_⟩, fun op h => mayStart_of ?_, fun op h => mayStart_of ?_, ?_, mayStart_of ?_, ?_⟩
  · revert m; decide +kernel
  · revert m; decide +kernel
  · revert op; decide +kernel
  · revert op; decide +kernel
  all_goals decide +kernel

theorem witness_PodCommandsRun :
    let f := FrontId.cp 0
    let s := fun op => ready f op []
    let x := fun op => job f op [] .ready
    let y := fun op => started (s op) f (x op)
    let b := blocked (coreAddr 0 .am 0) (s 2)
    (∀ op ∈ [2, 3, 4, 5], MayStart (s op) f 0 op false (x op)) ∧
    (ranAs (s 2) f (x 2) (runPod 0 (y 2))).2 ≠ .delayed ∧ (ranAs (s 3) f (x 3) (runPodT 0 (y 3))).2 ≠ .delayed ∧
    (ranAs (s 4) f (x 4) (runMasked 0 (y 4))).2 ≠ .delayed ∧ (ranAs (s 5) f (x 5) (runPredict 0 (y 5))).2 ≠ .delayed ∧
    (MayStart b f 0 2 false (x 2) ∧ (ranAs b f (x 2) (runPod 0 (started b f (x 2)))).2 = .delayed) := by
  refine ⟨fun op h => mayStart_of ?_, ?_, ?_, ?_, ?_, mayStart_of ?_, ?_⟩
  · revert op; decide +kernel
  all_goals decide +kernel

theorem witness_UpdateEngineCommandsRun :
    let f := FrontId.hub 3
    let s := fun op fs => { ready f op fs with decisions := [(3, { Decision.reset with known := true })] }
    let x := fun op fs => job f op fs .ready
    let y := fun op fs => started (s op fs) f (x op fs)
    let b := blocked 0 (s 0x41 [])
    (MayStart (s 0x40 []) f 0 0x40 false (x 0x40 []) ∧ cf (x 0x40 []).words 5 6 5 = 0 ∧
      (ranAs (s 0x40 []) f (x 0x40 []) (runApply 3 (y 0x40 []))).2 ≠ .delayed) ∧
    (MayStart (s 0x40 [(5, 32)]) f 0 0x40 false (x 0x40 [(5, 32)]) ∧ cf (x 0x40 [(5, 32)]).words 5 6 5 = 1 ∧
      (ranAs (s 0x40 [(5, 32)]) f (x 0x40 [(5, 32)]) (runNorm 3 (y 0x40 [(5, 32)]))).2 ≠ .delayed) ∧
    (MayStart (s 0x41 []) f 0 0x41 false (x 0x41 []) ∧
      (ranAs (s 0x41 []) f (x 0x41 []) (runThin 3 false (y 0x41 []))).2 ≠ .delayed) ∧
    (MayStart (s 0x42 []) f 0 0x42 false (x 0x42 []) ∧
      (ranAs (s 0x42 []) f (x 0x42 []) (runThin 3 true (y 0x42 []))).2 ≠ .delayed) ∧
    (MayStart (s 0x43 []) f 0 0x43 false (x 0x43 []) ∧
      (ranAs (s 0x43 []) f (x 0x43 []) (runAudit 3 (y 0x43 []))).2 ≠ .delayed) ∧
    (MayStart b f 0 0x41 false (x 0x41 []) ∧
      (ranAs b f (x 0x41 []) (runThin 3 false (started b f (x 0x41 [])))).2 = .delayed) := by
  refine ⟨⟨mayStart_of ?_, ?_, ?_⟩, ⟨mayStart_of ?_, ?_, ?_⟩, ⟨mayStart_of ?_, ?_⟩, ⟨mayStart_of ?_, ?_⟩,
    ⟨mayStart_of ?_, ?_⟩, mayStart_of ?_, ?_⟩ <;> decide +kernel

theorem witness_SlowTierEngineCommandsRun :
    let f := FrontId.slow 1
    let s := fun fs => { ready f 0x48 fs with decisions := [(5, { Decision.reset with known := true })] }
    let x := fun fs => job f 0x48 fs .ready
    let y := fun fs => started (s fs) f (x fs)
    let b := fun fs => blocked 0 (s fs)
    (MayStart (s []) f 0 0x48 false (x []) ∧ cb (x []).words 5 5 = false ∧
      (ranAs (s []) f (x []) (runPark 1 (y []))).2 ≠ .delayed) ∧
    (MayStart (s [(5, 32)]) f 0 0x48 false (x [(5, 32)]) ∧ cb (x [(5, 32)]).words 5 5 = true ∧
      (ranAs (s [(5, 32)]) f (x [(5, 32)]) (Machine.runRun 1 (y [(5, 32)]))).2 ≠ .delayed) ∧
    (MayStart (b []) f 0 0x48 false (x []) ∧ (ranAs (b []) f (x []) (runPark 1 (started (b []) f (x [])))).2 = .delayed) ∧
    (MayStart (b [(5, 32)]) f 0 0x48 false (x [(5, 32)]) ∧
      (ranAs (b [(5, 32)]) f (x [(5, 32)]) (Machine.runRun 1 (started (b [(5, 32)]) f (x [(5, 32)])))).2 = .delayed) := by
  refine ⟨⟨mayStart_of ?_, ?_, ?_⟩, ⟨mayStart_of ?_, ?_, ?_⟩, ⟨mayStart_of ?_, ?_⟩, mayStart_of ?_, ?_⟩ <;> decide +kernel

theorem witness_CollectiveCommandsRun :
    ∀ k, k < 9 → MayStart (ready (.relay 15) 0x50 [(2, k)]) (.relay 15) 0 0x50 true (job (.relay 15) 0x50 [(2, k)] .ready) ∧
      cf (ws 0x50 [(2, k)]) 2 3 0 = k := by
  intro k h
  refine ⟨mayStart_of ?_, ?_⟩ <;> (revert k; decide +kernel)

/-- A front end with a ring of 64 commands at address 0 of HBM and one command in it. -/
def ring (f : FrontId) : State :=
  reg f.block Reg.Cp.RING_TAIL 1 (reg f.block Reg.Cp.RING_SIZE 6 (enabled up f.block))

theorem witness_SemOpAndDmaStart :
    let f := FrontId.cp 0
    let x := fun dev => job f 0x20 [(2, 0x03F00008), (3, 0x0200 + dev * 2 ^ 16), (4, 1)] .ready
    let s := fun dev => withJob f (x dev) up
    let far := job f 0x20 [(2, 0xFFF00008), (3, 0x0200), (4, 1)] .ready
    let on := fun y : PathState => { withJob f far up with paths := (List.range 136).map (fun k => (k, y)) }
    let way := fun t : State => (dieOf t f.block, dieOf t (semBlock (.cp 63)))
    let held := job f 0x28 [(2, 7)] .held
    (MayStart (s 0) f 0 0x20 false (x 0) ∧ targetOf (running (s 0) f (x 0)) (cf64 (x 0).words 2) = .here 0x020003F00008 ∧
      semTarget (running (s 0) f (x 0)) 0x020003F00008 (cb (x 0).words 5 0) = some (f, 2) ∧
      routeStopped (running (s 0) f (x 0)) (dieOf (running (s 0) f (x 0)) f.block) (dieOf (running (s 0) f (x 0)) (semBlock f)) = false ∧
      routeWaits (running (s 0) f (x 0)) (dieOf (running (s 0) f (x 0)) f.block) (dieOf (running (s 0) f (x 0)) (semBlock f)) = false) ∧
    (∀ y ∈ [{ PathState.reset with stopped := true }, { PathState.reset with paused := some 9 }],
      MayStart (on y) f 0 0x20 false far ∧ targetOf (running (on y) f far) (cf64 far.words 2) = .here 0x0200FFF00008 ∧
      semTarget (running (on y) f far) 0x0200FFF00008 (cb far.words 5 0) = some (.cp 63, 2) ∧
      routeStopped (running (on y) f far) (way (running (on y) f far)).1 (way (running (on y) f far)).2 = y.stopped ∧
      routeWaits (running (on y) f far) (way (running (on y) f far)).1 (way (running (on y) f far)).2 = y.paused.isSome) ∧
    (MayStart (s 1) f 0 0x20 false (x 1) ∧
      targetOf (running (s 1) f (x 1)) (cf64 (x 1).words 2) = .remote 1 0x020003F00008 ∧
      semTarget (running (s 1) f (x 1)) 0x020003F00008 (cb (x 1).words 5 0) = some (f, 2)) ∧
    MayStart (ready f 0x28 [(2, 7)]) f 0 0x28 true (job f 0x28 [(2, 7)] .ready) ∧
    MayStart (withJob f held up) f 0 0x28 true held := by
  refine ⟨⟨mayStart_of ?_, ?_, ?_, ?_, ?_⟩, fun y h => ?_, ⟨mayStart_of ?_, ?_, ?_⟩, mayStart_of ?_, mayStart_of ?_⟩
  case refine_6 =>
    simp only [List.mem_cons, List.not_mem_nil, or_false] at h
    rcases h with rfl | rfl <;> refine ⟨mayStart_of ?_, ?_, ?_, ?_, ?_⟩ <;> decide +kernel
  all_goals decide +kernel

theorem witness_SyncModeChangesOnlyWhenIdle :
    let busy := withJob (.cp 0) (job (.cp 0) 0x20 [] .ready) up
    (up.Inv ∧ frontIdle up (.cp 0) = true) ∧
    (busy.Inv ∧ frontIdle busy (.cp 0) = false ∧ rbit busy (.cp 0) Reg.Cp.RING_CTRL 1 = true) := by
  refine ⟨⟨inv_of ?_, ?_⟩, inv_of ?_, ?_, ?_⟩ <;> decide +kernel

theorem witness_RingIsFetchedAndDispatched :
    let f := FrontId.hub 0
    let s := ring f
    let x : Fetched := { words := ws 0x20 [(0, 0x10020)], fail := none }
    let u := putFront s f { getFront s f with fetched := [x] }
    (mayFetch s f = true ∧ ringPlaceOk s f (ringAddr s f (rget s f.block Reg.Cp.RING_HEAD).toNat) = true ∧
      (readLocal s (reqOf f.block .critical) (ringAddr s f (rget s f.block Reg.Cp.RING_HEAD).toNat) 64).2.1 = .ok) ∧
    (mayDispatch u f = true ∧ (getFront u f).fetched = [x] ∧ x.fail = none ∧
      badCommand f (batonMode u f) (ws 0x10020 []) = false ∧ cmdOp x.words ≠ 0x21 ∧ cmdOrdered x.words = false ∧
      nextSlot u f = some 0) := by
  refine ⟨⟨?_, ?_, ?_⟩, ?_, ?_, ?_, ?_, ?_, ?_, ?_⟩ <;> decide +kernel

theorem witness_WaitsAreTaken :
    let f := FrontId.hub 0
    let x := job f 0x40 [(1, 0x1005)] .waiting
    let acq := fun s : State => if cmdAcquire x.words && !batonMode s f then applyAdds s f (cmdWaitSem x.words) s.semMsgs.length else s
    let sat := { withJob f x up with banks := [(f.num, { dflt := { Sem.reset with count := 1 }, cells := [] })] }
    let poi := { withJob f x up with banks := [(f.num, { dflt := { Sem.reset with poison := true }, cells := [] })] }
    let uns := withJob f x up
    let g := FrontId.cp 0
    let y := job g 0x08 [(1, 0x1003)] .waiting
    let tok := { withJob g y up with batons := [(3, [{ value := 7, src := Source.none }])] }
    let w : StrideWaiter := { words := ws 0x21 [], waitDone := true, ended := none, latches := [], waitFrom := none }
    let str := putFront { up with stride := { StrideM.reset with state := 2 } } f { Front.reset with strideWait := some w }
    (∀ s ∈ [sat, poi, uns], queueHead s f 0 = some x ∧ takesBaton s f x.words = false ∧ x.phase = .waiting ∧
      engineFenced s f 0 (cmdOp x.words) = false ∧ haltedChannel s f 0 = none) ∧
    evalWait (acq sat) f 0 x.words = .satisfied ∧ evalWait (acq poi) f 0 x.words = .poisoned ∧
    evalWait (acq uns) f 0 x.words = .unsatisfied ∧
    (queueHead tok g 1 = some y ∧ takesBaton tok g y.words = true ∧ y.phase = .waiting ∧
      engineFenced tok g 1 (cmdOp y.words) = false ∧ haltedChannel tok g 1 = none ∧ evalWait tok g 1 y.words = .satisfied) ∧
    ((getFront str f).strideWait = some w ∧ w.ended = none ∧ w.waitDone = true ∧ str.stride.state ≠ 0 ∧
      strideTarget str f w.words ≤ str.stride.count) := by
  refine ⟨?_, ?_, ?_, ?_, ⟨?_, ?_, ?_, ?_, ?_, ?_⟩, ?_, ?_, ?_, ?_, ?_⟩
  · intro s h
    simp only [List.mem_cons, List.not_mem_nil, or_false] at h
    rcases h with rfl | rfl | rfl <;> refine ⟨?_, ?_, ?_, ?_, ?_⟩ <;> decide +kernel
  all_goals decide +kernel

theorem witness_CommandsComplete :
    let f := FrontId.cp 0
    let x := fun ph => job f 0x08 [(1, 2 ^ 28)] ph
    let s := fun ph => withJob f (x ph) up
    let p := fun ph => readyAdds (s ph) f (x ph).words
    let m : SemMsg := { ready := 0, target := f, index := 4095, baton := false, sub := false, amount := 1, port := 0,
                        src := Source.none, reply := .slot f 0 }
    let y := job f 0x20 [] .running
    let g := { withJob f y up with semMsgs := [m] }
    let late := { ring f with lapse := some (f.block, 0) }
    (getSlot (s (.ended .ok)) f 0 = some (x (.ended .ok)) ∧ ∃ u st', makePost (p (.ended .ok)) f (x (.ended .ok)).words .ok
      (postTokens (s (.ended .ok)) f (x (.ended .ok)).words) = (u, .made st')) ∧
    (getSlot (s (.passing .ok 1)) f 0 = some (x (.passing .ok 1)) ∧ ∃ u st', makePost (p (.passing .ok 1)) f
      (x (.passing .ok 1)).words .ok 1 = (u, .made st')) ∧
    (firstSemMsg { up with semMsgs := [m] } f 4095 = some 0) ∧
    ((owedOf g f.block)[0]? = some (.sem f 0) ∧ (owedOf g f.block)[1]? = none ∧ getSlot g f 0 = some y) ∧
    (mayFetch late f = true ∧ ringPlaceOk late f (ringAddr late f (rget late f.block Reg.Cp.RING_HEAD).toNat) = true ∧
      ∃ t d, readLocal late (reqOf f.block .critical) (ringAddr late f (rget late f.block Reg.Cp.RING_HEAD).toNat) 64 =
        (t, .aborted, d) ∧ t.now ≠ late.now) := by
  refine ⟨⟨?_, _, _, rfl⟩, ⟨?_, _, _, rfl⟩, ?_, ⟨?_, ?_, ?_⟩, ?_, ?_, _, _, pair_of (b := (Status.aborted, ([] : List Byte))) ?_, ?_⟩ <;> decide +kernel

/-- A stride master in a state, on a device after start-up. -/
def striding (st : Nat) (x : StrideM) : State := { up with stride := { x with state := st } }

/-- STRIDE_CTRL of the stride master that the active steward shows. -/
def strideCtrl (v : Nat) (s : State) : State := reg (.stride 0) Reg.Str.STRIDE_CTRL v s

theorem witness_TicksAnnounceAndFire :
    let m : TickMsg := { stride := 1, fire := 1000, planned := 2000, holdLead := 0, hurdle := false }
    let first := striding 2 { StrideM.reset with first := true }
    let later := striding 2 { StrideM.reset with planned := 5000, tickLead := 1000 }
    let held := strideCtrl 8 later
    let expired := strideCtrl 8 (striding 3 { StrideM.reset with holdOpen := true })
    let u := fun s : State => { openHolds s with now := max (openHolds s).now ((openHolds s).stride.planned - (openHolds s).stride.tickLead) }
    let coming := striding 2 { StrideM.reset with next := [{ msg := m, stretch := 0 }] }
    let child := strideCtrl 1 (reg fabricPage Reg.Fab.SYNC_STATE 1 (reg fabricPage Reg.Fab.TT_PARENT 0x8005 (striding 2 StrideM.reset)))
    let lone := strideCtrl 1 (reg fabricPage Reg.Fab.TT_PARENT 0x8005 (striding 2 StrideM.reset))
    let halted := { child with stride := StrideM.reset }
    (mayAnnounce first = true ∧ first.stride.first = true) ∧
    (mayAnnounce later = true ∧ later.stride.first = false ∧ heldWord (u later) = 0) ∧
    (mayAnnounce held = true ∧ held.stride.first = false ∧ heldWord (u held) ≠ 0 ∧ (u held).stride.state = 2) ∧
    (mayAnnounce expired = true ∧ expired.stride.state = 3 ∧ heldWord expired ≠ 0) ∧
    coming.stride.next = { msg := m, stretch := 0 } :: [] ∧
    (2 ≤ expired.stride.state ∧ expired.stride.holdOpen = true) ∧
    (strideSource child = 1 ∧ ttParent child = some 5 ∧ (sendTicks child m).stride.state ≠ 0 ∧
      rfield (sendTicks child m) fabricPage Reg.Fab.SYNC_STATE 1 0 ≠ 0 ∧ strideSource (sendTicks child m) = 1) ∧
    (ttParent lone = some 5 ∧ (sendTicks lone m).stride.state ≠ 0 ∧ rfield (sendTicks lone m) fabricPage Reg.Fab.SYNC_STATE 1 0 = 0) ∧
    (ttParent halted = some 5 ∧ (sendTicks halted m).stride.state = 0 ∧
      rfield (sendTicks halted m) fabricPage Reg.Fab.SYNC_STATE 1 0 ≠ 0) ∧
    (strideSource first = 0 ∧ strideSource lone ≠ 0 ∧ ttParent lone ≠ some 6) := by
  refine ⟨⟨?_, ?_⟩, ⟨?_, ?_, ?_⟩, ⟨?_, ?_, ?_, ?_⟩, ⟨?_, ?_, ?_⟩, ?_, ⟨?_, ?_⟩, ⟨?_, ?_, ?_, ?_, ?_⟩, ⟨?_, ?_, ?_⟩, ⟨?_, ?_, ?_⟩,
    ?_, ?_, ?_⟩ <;> decide +kernel

theorem witness_PinsTickTheDevice :
    let out := fun late : Bool => reg (.stride 0) Reg.Str.PIN_CTRL 1 (striding 2 { StrideM.reset with outDue := some (1000, 500, late) })
    let off := striding 2 { StrideM.reset with outDue := some (1000, 500, false) }
    let pinned := strideCtrl 2 (out false)
    let inn := reg (.stride 0) Reg.Str.PIN_CTRL 2 (strideCtrl 2 (striding 2 StrideM.reset))
    let seen := { inn with stride := { inn.stride with lastPulse := some 1000 } }
    let high := fun f : Option Nat => { inn with stride := { inn.stride with stuck := true, fell := f } }
    up.stride.outDue = none ∧
    (∀ b, (out b).stride.outDue = some (1000, 500, b) ∧ bit (sreg (out b) Reg.Str.PIN_CTRL) 0 = true ∧ strideSource (out b) ≤ 1) ∧
    (off.stride.outDue.isSome = true ∧ bit (sreg off Reg.Str.PIN_CTRL) 0 = false ∧
      pinned.stride.outDue.isSome = true ∧ strideSource pinned = 2) ∧
    pinIn up = false ∧ (pinIn inn = true ∧ inn.stride.stuck = false ∧ inn.stride.lastPulse = none) ∧
    (seen.stride.lastPulse = some 1000 ∧ pinIn seen = true ∧ seen.stride.missing = false ∧ seen.stride.state ≠ 0) ∧
    (let rise := 1000 + 7 * periodNs seen / 8
     8 * (rise - 1) < 8 * 1000 + 7 * periodNs seen ∧ ¬ 8 * rise < 8 * 1000 + 7 * periodNs seen) ∧
    (49 < 50 ∧ (50 ≤ 50 ∧ 99 < 100) ∧ (400 < 401 ∧ 449 < 450) ∧ (900 < 901 ∧ 2000 ≤ 2000) ∧ (100 ≤ 100 ∧ 400 ≤ 400) ∧
      (450 ≤ 450 ∧ 900 ≤ 900) ∧ 2000 < 2001) ∧
    (pinIn (high (some 0)) = true ∧ (high (some 0)).stride.stuck = true ∧ (high (some 0)).stride.fell = some 0 ∧
      0 + 1000 ≤ 1000 ∧ 999 < 0 + 1000 ∧ (high none).stride.fell = none) := by
  refine ⟨?_, ?_, ⟨?_, ?_, ?_, ?_⟩, ?_, ⟨?_, ?_, ?_⟩, ⟨?_, ?_, ?_, ?_⟩, ⟨?_, ?_⟩, ?_, ?_, ?_, ?_, ?_, ?_, ?_⟩ <;> decide +kernel

theorem witness_StrideRegistersAreWritten :
    let m : TickMsg := { stride := 1, fire := 1000, planned := 2000, holdLead := 0, hurdle := false }
    let child := strideCtrl 1 up
    let coming := striding 2 { StrideM.reset with next := [{ msg := m, stretch := 0 }] }
    let tree := reg fabricPage Reg.Fab.TT_CHILD 0x8005 up
    (up.Inv ∧ up.stride.state = 0 ∧ tickLeadNs up + holdLeadNs up < periodNs up ∧ strideSource up = 0 ∧ up.stride.count < 2 ^ 64) ∧
    (child.stride.state = 0 ∧ tickLeadNs child + holdLeadNs child < periodNs child ∧ strideSource child = 1) ∧
    (coming.stride.state ≠ 0 ∧ strideSource coming = 0 ∧ coming.stride.next ≠ []) ∧
    ((striding 2 StrideM.reset).stride.state ≠ 0 ∧ (striding 2 StrideM.reset).stride.next = []) ∧
    (10000 ≤ (10000#32).toNat ∧ (50000000#32).toNat ≤ 50000000) ∧ (1000 ≤ (1000#32).toNat ∧ (1000000#32).toNat ≤ 1000000) ∧
    (ttChildren tree).contains 5 = true := by
  refine ⟨⟨inv_of ?_, ?_, ?_, ?_, ?_⟩, ⟨?_, ?_, ?_⟩, ⟨?_, ?_, ?_⟩, ⟨?_, ?_⟩, ⟨?_, ?_⟩, ⟨?_, ?_⟩, ?_⟩ <;> decide +kernel

/-- A group of one child, device 5, in entry 0; the parent is device 7. -/
def group : State := putBytes up 0 (bytesOf ([1 + 2 ^ 8, 7, 2, 0, 0, 0, 5].map wordOf))

/-- A contribution with nothing to say of a step. -/
def quiet (n : Nat) : Contribution :=
  { stepMin := n, stepMax := n, skip := false, nonfinite := false, torn := false, firstDevice := none, norm := 0 }

/-- A vote of that group that has been sent up, or not yet. -/
def voteRun (sent : Option Nat) : VoteRun :=
  { slot := 0, group := 0, entry := [1 + 2 ^ 8, 7, 2, 0, 0, 0, 5].map wordOf, step := 0, sampled := 0, combined := quiet 0,
    heard := [], sent := sent }

theorem witness_VotesAndDecisions :
    let run := fun r : VoteRun => { group with relays := [(0, { Relay.reset with vote := some r })] }
    let voting := { run (voteRun (some 0)) with ledger := { Ledger.reset with phase := .voting } }
    let closing := { up with ledger := { Ledger.reset with phase := .decided }, stride := { StrideM.reset with count := 8 } }
    let d : Decision := { Decision.reset with step := 3, commit := true }
    let lost := reg fabricPage Reg.Fab.TT_PARENT 0 { (withJob (.relay 0) (job (.relay 0) 0x50 [(2, 8)] .running) group) with
      relays := [(0, { Relay.reset with vote := some (voteRun (some 0)) })],
      routes := [(7, 1)],
      nauloPorts := [(0, { NauloPort.reset with state := 2 })] }
    (∃ u ws, peekEntry group 0 0 = (u, some ws) ∧ (groupEntry ws).valid = true ∧ (groupEntry ws).kids.contains 5 = true ∧
      isFenced u (.relay (groupEntry ws).engine) = false ∧ repeated (getRelay u (groupEntry ws).engine) 0 5 (quiet 0) = false ∧
      stoodFor (getRelay u (groupEntry ws).engine) 0 5 (quiet 0) = false ∧ (getRelay u (groupEntry ws).engine).vote = none) ∧
    (∃ u ws, peekEntry voting 0 0 = (u, some ws) ∧ isFenced u (.relay (groupEntry ws).engine) = false ∧
      (getRelay u (groupEntry ws).engine).vote = some (voteRun (some 0)) ∧ (groupEntry ws).valid = true ∧
      (groupEntry ws).root = false ∧ (groupEntry ws).parent = 7 ∧ (voteRun (some 0)).group = 0 ∧
      stepDecided u.ledger (quiet 0) = false) ∧
    closeDue closing = true ∧
    (∀ h : HubId, [(h.val, d)].find? (fun m => m.1 = decEngine (.hub h)) = some (h.val, d)) ∧
    (∀ p : PortDieId, [(4 + p.val, d)].find? (fun m => m.1 = decEngine (.slow p)) = some (4 + p.val, d)) ∧
    ((getRelay (run (voteRun none)) 0).vote = some (voteRun none) ∧
      (groupEntry (voteRun none).entry).kids.contains 5 = true ∧ (voteRun none).heard.contains 5 = false ∧
      (voteRun none).sent = none) ∧
    ((getRelay lost 0).vote = some (voteRun (some 0)) ∧ routeUp lost (groupEntry (voteRun (some 0)).entry).parent = true ∧
      getSlot lost (.relay 0) 0 = some (job (.relay 0) 0x50 [(2, 8)] .running)) ∧
    up.ledger.phase = .open_ ∧ closing.ledger.phase ≠ .open_ := by
  refine ⟨⟨_, [1 + 2 ^ 8, 7, 2, 0, 0, 0, 5].map wordOf ++ List.replicate 25 0, pair_of ?_, ?_⟩,
    ⟨_, [1 + 2 ^ 8, 7, 2, 0, 0, 0, 5].map wordOf ++ List.replicate 25 0, pair_of ?_, ?_⟩, ?_, ?_, ?_, ⟨?_, ?_, ?_, ?_⟩, ⟨?_, ?_, ?_⟩, ?_, ?_⟩ <;> decide +kernel

/-- A list with its lock registered everywhere and its tick fired. -/
def pubList (old : List (Fin 16)) : PubList :=
  { id := 0, base := 0, count := 1, first := 0, last := 0, target := 0, late := false, waiting := [], slot := none, manual := false, status := .ok,
    oldDone := old, fired := true, fireNs := 0 }

theorem witness_ListsAreLockedAndPublished :
    let h : HubId := 0
    let s := reg (.hub h) Reg.Hub.PUB_ARM_COUNT 1 up
    let l : Lock := { holder := .proxy 15, hub := h, id := 0, first := 0, last := 0, target := 4, active := false, done := false,
                      old := [] }
    let late := { l with target := 0 }
    let pub := fun old => { up with pubs := [(0, [pubList old])] }
    let holds := withJob (.cp 127) (job (.cp 127) 2 [] .held) up
    (rbit s (.hub h) Reg.Hub.PUB_ARM_GO 0 = false ∧ ∃ u v recs, readList s (reqOf (.hub h) .critical)
      (rget64 s (.hub h) Reg.Hub.PUB_ARM_LIST_LO Reg.Hub.PUB_ARM_LIST_HI) (rfield s (.hub h) Reg.Hub.PUB_ARM_COUNT 21 0) 0 =
        (u, .ok, recs) ∧
      armList u h none .ok (rget64 s (.hub h) Reg.Hub.PUB_ARM_LIST_LO Reg.Hub.PUB_ARM_LIST_HI)
        (rfield s (.hub h) Reg.Hub.PUB_ARM_COUNT 21 0) (listRange recs)
        (rget64 s (.hub h) Reg.Hub.PUB_ARM_STRIDE_LO Reg.Hub.PUB_ARM_STRIDE_HI) = (v, true)) ∧
    ([l].find? (fun l => l.holder = .proxy 15 && l.hub = h) = some l ∧ 0 < l.target) ∧
    ([late].find? (fun l => l.holder = .proxy 15 && l.hub = h) = some late ∧ late.target ≤ 0) ∧
    (oldCommands up (.proxy 15) = [] ∧ oldCommands holds (.proxy 15) ≠ []) ∧ 2 ≤ (striding 2 StrideM.reset).stride.state ∧
    [((15 : Fin 16), h, 7)].find? (fun m => m.1 = 15 && m.2.1 = h) = some (15, h, 7) ∧
    (frontPub (pub (List.finRange 16)) h = some (pubList (List.finRange 16)) ∧ allOldDone (pubList (List.finRange 16)) = true) ∧
    (frontPub (pub []) h = some (pubList []) ∧ allOldDone (pubList []) = false) ∧
    [(LockHolder.proxy 15, h, 7)].find? (fun m => m.1 = LockHolder.proxy 15 && m.2.1 = h) = some (.proxy 15, h, 7) := by
  refine ⟨⟨?_, _, _, [stagedOf (List.replicate 16 0)], pair_of (b := (Status.ok, [stagedOf (List.replicate 16 0)])) ?_, pair_of ?_⟩, ⟨?_, ?_⟩, ⟨?_, ?_⟩, ⟨?_, ?_⟩, ?_, ?_, ⟨?_, ?_⟩, ⟨?_, ?_⟩, ?_⟩ <;> decide +kernel

/-- A core whose table fill has run: allocation 0 is one 64-byte unit at address 0, and a row of one E4M3 element is staged
for entry 1. -/
def staging : State :=
  reg (.gme 0) Reg.Gme.DESC_CREATE 1 (reg (.gme 0) (Reg.Gme.DESC_STAGE + 12) 1 (reg (.gme 0) Reg.Gme.DESC_STAGE 0x10
    (reg (.gme 0) Reg.Gme.ALLOC_CTRL (2 ^ 31) (reg (.gme 0) Reg.Gme.ALLOC_SIZE 1 (reg (.gme 0) Reg.Gme.DESC_TABLE_OFFSET 0 up)))))

theorem witness_DescriptorsAreCreated :
    let o : TableOwner := .cp 0
    let go := fun k => startCreate staging o k
    let batch := startCreate (reg (.gme 0) Reg.Gme.BATCH_SRC 0x1000000 (reg (.gme 0) Reg.Gme.BATCH_COUNT 1 staging)) o 2
    let s0 := rputField batch (descBlock o) (batchCountOff o) 31 16 0
    let zero : List Word := List.replicate 16 0
    (staging.Inv ∧ creating staging o = false) ∧
    (rfield (go 0) (descBlock o) (createOff o) 17 16 = 0 ∧
      ∃ u, createAt (go 0) o (createIndex (go 0) o) (stagedWords (go 0) o) = (u, .ok)) ∧
    (rfield (go 1) (descBlock o) (createOff o) 17 16 = 1 ∧ createIndex (go 1) o = 1 ∧ indexCode (go 1) o 1 = 0 ∧
      ∃ u v, tableEntry (go 1) o 1 = (u, .ok, zero) ∧ writeLocal u (createReq o) (entryAddr u o 1)
        (bytesOf ((zero.set 0 (withBit (wordAt zero 0) 31 false)).set 15 (withBits (wordAt (zero.set 0 (withBit (wordAt zero 0) 31 false)) 15) 7 0
          ((cf (zero.set 0 (withBit (wordAt zero 0) 31 false)) 15 7 0 + 1) % 256)))) = (v, .ok)) ∧
    (rfield batch (descBlock o) (createOff o) 17 16 = 2 ∧ rfield batch (descBlock o) (batchCountOff o) 15 0 = 1 ∧
      overlaps (batchSrc batch o) 64 (tablePlace s0 o).1 (tablePlace s0 o).2 = false ∧
      (batchFrom s0 o (batchSrc batch o) (rfield batch (descBlock o) (batchFirstOff o) 15 0) 1 0).2 ≠ .delayed) := by
  refine ⟨⟨inv_of ?_, ?_⟩, ⟨?_, _, pair_of ?_⟩, ⟨?_, ?_, ?_, _, _, pair_of (b := (Status.ok, List.replicate 16 0)) ?_, pair_of ?_⟩,
    ?_, ?_, ?_, ?_⟩ <;> decide +kernel

theorem witness_TablesAndAllocations :
    let c : CoreId := 127
    let e : Fin 128 := 127
    let a := reg (.gme c) (Reg.Gme.ALLOC_SIZE + 16 * 127) 1 up
    let shared := { up with boot := { up.boot with hbmShared := 1 } }
    let who : Block := .hub 0
    (frontIdle up (.cp c) = true ∧ amTableOk (bits (0x1000000#32) 24 6 * 64) (rfield up (.gme c) Reg.Gme.DESC_TABLE_LOG2 4 0) = true ∧
      amTableOk (rfield up (.gme c) Reg.Gme.DESC_TABLE_OFFSET 24 6 * 64) (bits (16#32) 4 0) = true) ∧
    (frontIdle shared (.hub 0) = true ∧ engineTableOk shared (.slow 1) (rget64 shared (descBlock (.slow 1))
      Reg.Upd.DESC_TABLE_BASE_LO Reg.Upd.DESC_TABLE_BASE_HI) (bits (16#32) 4 0) = true ∧ isCore (.slow 1) = false ∧
      frontIdle shared (.slow 1) = true) ∧
    tableFilling up (.cp c) = true ∧
    (a.Inv ∧ allocOk a (getAlloc a (.cp c) e.val) = true) ∧
    (∃ d off, placeOf up (directoryBase + 0) = .larder d off ∧
      (larderWriteCheck up (rowReq who 0 .critical) d off 32).2 = .ok ∧
      (larderWriteCheck up (rowReq (.dma 0 0) 0 .critical) d off 32).2 ≠ .ok) := by
  refine ⟨⟨?_, ?_, ?_⟩, ⟨?_, ?_, ?_, ?_⟩, ?_, ⟨inv_of ?_, ?_⟩, ⟨0, 0x52800000, ?_, ?_, ?_⟩⟩ <;> decide +kernel

theorem witness_CoreMemoriesServe :
    let c : CoreId := 127
    let m := CoreMem.pm
    let patrol := reg (.mem c m) Reg.Mem.PATROL_CTRL (2 ^ 31) up
    let bad := { patrol with badParity := [coreAddr c m 63] }
    let seg := fun ph => putSeg up c m 10 { Segm.reset with phase := ph }
    let stuck := blocked (coreAddr c m 0) up
    (memSize m - 64 + accessBytes (.read 64) ≤ memSize m ∧ memSize m < memSize m - 63 + accessBytes (.read 64) ∧
      (serveLocal up (rowReq (.vu c) 0 .critical) (coreAddr c m (memSize m - 64)) (.read 64)).2.1 ≠ .delayed ∧
      (serveLocal stuck (rowReq (.vu c) 0 .critical) (coreAddr c m 0) (.read 64)).2.1 = .delayed ∧
      isFenced (serveLocal up (rowReq (.vu c) 0 .critical) (coreAddr c m (memSize m - 64)) (.read 64)).1 (.vu c) = false) ∧
    (∀ s ∈ [patrol, bad], rbit s (.mem c m) Reg.Mem.PATROL_CTRL 31 = true ∧ isFenced s (.mem c m) = false ∧
      nextOn s c m (rfield s (.mem c m) Reg.Mem.PATROL_POS 24 6) 12 = some 0) ∧
    patrol.badParity.find? (fun x => coreAddr c m 0 ≤ x && x < coreAddr c m 0 + 64) = none ∧
    bad.badParity.find? (fun x => coreAddr c m 0 ≤ x && x < coreAddr c m 0 + 64) = some (coreAddr c m 63) ∧
    up.Inv ∧
    ((getSeg up c m 6).phase = .on ∧ segHoldsTable up c m 6 = false) ∧ segHoldsTable up c .am 0 = true ∧
    (getSeg (seg .draining) c m 10).phase = .draining ∧
    (getSeg (seg .off) c m 10).phase = .off ∧ (getSeg (seg .waking) c m 10).phase = .waking := by
  refine ⟨⟨?_, ?_, ?_, ?_, ?_⟩, fun s h => ?_, ?_, ?_, inv_of ?_, ⟨?_, ?_⟩, ?_, ?_, ?_, ?_⟩
  case refine_6 =>
    simp only [List.mem_cons, List.not_mem_nil, or_false] at h
    rcases h with rfl | rfl <;> refine ⟨?_, ?_, ?_⟩ <;> decide +kernel
  all_goals decide +kernel

theorem witness_LarderServes :
    let d : LarderId := 7
    let e : PendingRead := { die := d, block := 0, bulk := true, readers := [(.vu 0, 0, 64)], answered := false }
    let a := fun o => larderAlias d o
    let u := fun s : State => travel s (.vu 0) (a 0) 0 64
    let merged := { up with pendingReads := [e] }
    let busy := { up with pendingReads := (List.range 256).map (fun k => { e with block := k + 1 }) }
    let scrub := reg (.larder d) Reg.Ldr.SCRUB_CTRL (2 ^ 31) up
    let last := larderDieSize - 64
    (∀ s ∈ [up, merged, busy], 0 + 64 ≤ larderDieSize ∧ rowWay s (.vu 0) (a 0) 64 = .free ∧ larderFenced s d 0 64 = none ∧
      blockCuts 0 64 = [(0, 64)]) ∧
    (last + 64 ≤ larderDieSize ∧ rowWay up (.vu 0) (a last) 64 = .free ∧ larderFenced up d last 64 = none ∧
      blockCuts last 64 = [(last, 64)]) ∧
    (openEntry (u up) d 0 = none ∧ judge (u up) (reqOf (.vu 0) .bulk) [(.larder d, 0)] false = (false, none) ∧
      judge (u up) (reqOf (.vu 0) .speculative) [(.larder d, 0)] false = (false, none)) ∧
    (openEntry (u busy) d 0 = none ∧ ∃ x, judge (u busy) (reqOf (.vu 0) .speculative) [(.larder d, 0)] false = (true, some x)) ∧
    (openEntry (u merged) d 0 = some e ∧ ((diePending merged d).take 256).find? (fun e => e.block = 0) = some e) ∧
    (last + (List.replicate 64 (0 : Byte)).length ≤ larderDieSize ∧ larderDieSize < last + 1 + (List.replicate 64 (0 : Byte)).length) ∧
    (rbit scrub (.larder d) Reg.Ldr.SCRUB_CTRL 31 = true ∧ isFenced scrub (.larder d) = false) := by
  refine ⟨fun s h => ?_, ⟨?_, ?_, ?_, ?_⟩, ⟨?_, ?_, ?_⟩, ⟨?_, (.larder 7, 0), ?_⟩, ⟨?_, ?_⟩, ⟨?_, ?_⟩, ?_, ?_⟩
  case refine_1 =>
    simp only [List.mem_cons, List.not_mem_nil, or_false] at h
    rcases h with rfl | rfl | rfl <;> refine ⟨?_, ?_, ?_, ?_⟩ <;> decide +kernel
  all_goals decide +kernel

theorem witness_StacksServeAndRetire :
    let st : StackId := 15
    let pc : Fin 32 := 31
    let scrub := reg (.hbm st) Reg.Hbm.SCRUB_CTRL (2 ^ 31) up
    let going := { up with retiringPc := [(15, 31)] }
    let retired := { reg (.hbm st) Reg.Hbm.PC_RETIRED (2 ^ 31) up with retiringPc := [(15, 31)] }
    let used := reg (.hbm st) Reg.Hbm.SPARE_SLOTS 0x10 up
    let r := rowReq (.relay 15) 0 .critical
    let pc0 : Fin 32 := Fin.ofNat 32 (rfield scrub (.hbm st) Reg.Hbm.SCRUB_POS 28 24)
    let held := { scrub with retiringPc := [(15, pc0.val)] }
    let gone := reg (.hbm st) Reg.Hbm.PC_RETIRED 1 scrub
    hbmSize - 64 < hbmSize ∧
    ((serveLocal up r (hbmSize - 64) (.read 64)).2.1 ≠ .delayed ∧
      (serveLocal (blocked (hbmSize - 64) up) r (hbmSize - 64) (.read 64)).2.1 = .delayed) ∧
    ((∀ s ∈ [scrub, held, gone], rbit s (.hbm st) Reg.Hbm.SCRUB_CTRL 31 = true ∧ isFenced s (.hbm st) = false) ∧
      pcRetired scrub st pc0 = false ∧ pcRetired held st pc0 = false ∧ pcRetired gone st pc0 = true ∧
      (scrubArrival scrub st pc0 (hbmAddr scrub st pc0 0)).2 = false ∧
      (scrubArrival held st pc0 (hbmAddr held st pc0 0)).2 = true) ∧
    (rbit up (.hbm st) Reg.Hbm.PC_RETIRE 31 = false ∧ pcRetired up st pc = false ∧
      up.retiringPc.any (fun x => x.1 = st.val) = false) ∧
    (going.retiringPc.find? (fun x => x.1 = st.val) = some (st.val, pc.val) ∧ pcRetired going st pc = false) ∧
    (retired.retiringPc.find? (fun x => x.1 = st.val) = some (st.val, pc.val) ∧ pcRetired retired st pc = true) ∧
    up.Inv ∧
    ((memoryAdd (bump up (.relay 15) 20 1) r 0 0 [0, 0, 0, 0]).2 ≠ .delayed ∧
      (memoryAdd (bump (blocked 0 up) (.relay 15) 20 1) r 0 0 [0, 0, 0, 0]).2 = .delayed) ∧
    rfield used (.hbm st) Reg.Hbm.SPARE_SLOTS 6 4 ≤ bits (1#32) 2 0 ∧
    rfield up (.hbm st) Reg.Hbm.SPARE_SLOTS 6 4 = 0 ∧ rfield used (.hbm st) Reg.Hbm.SPARE_SLOTS 6 4 ≠ 0 := by
  refine ⟨?_, ⟨?_, ?_⟩, ⟨fun s h => ?_, ?_, ?_, ?_, ?_, ?_⟩, ⟨?_, ?_, ?_⟩, ⟨?_, ?_⟩, ⟨?_, ?_⟩, inv_of ?_, ⟨?_, ?_⟩, ?_, ?_, ?_⟩
  case refine_4 =>
    simp only [List.mem_cons, List.not_mem_nil, or_false] at h
    rcases h with rfl | rfl | rfl <;> refine ⟨?_, ?_⟩ <;> decide +kernel
  all_goals decide +kernel

theorem witness_SlowTierServes :
    let p : CxlId := 0
    let who : Block := .hub 0
    let q : CxlReq := { xid := 0, port := p, whole := 0, issued := true, done := none, who := who, tag := 0, cls := .critical,
                        addr := slowBase, acc := .read 64, issuedAt := 0, answered := false, lost := false }
    let w := { q with acc := .write [1] }
    let linked := reg (.cxl p) Reg.Cxl.EXP_CAPACITY 1 (reg (.cxl p) Reg.Cxl.LINK_STATUS 0x80100006 up)
    let down := reg (.cxl p) Reg.Cxl.EXP_CAPACITY 1 up
    let full := { linked with cxlReqs := (List.range 600).map (fun k => { q with xid := k, whole := k, issued := false }) }
    let t : LinkTrain := { linked := true, good := true, width := 16, speed := 6 }
    let parked := reg (.slow 0) Reg.Slow.PARK_SLOT_UNITS 1 (reg (.slow 0) Reg.Slow.PARK_CFG 0x201 up)
    (∀ s ∈ [linked, down, full], 0 + accessBytes (.read 64) ≤ expanderBytes s p ∧ rowWay s who slowBase 64 = .free ∧
      isFenced s (.cxl p) = false) ∧
    (cxlUp linked p = true ∧ cxlUp down p = false ∧ cxlUp full p = true) ∧
    ((judge linked (rowReq who 0 .bulk) [(.cxl p, 0)] false).1 = false ∧
      (judge full (rowReq who 0 .speculative) [(.cxl p, 0)] false).1 = true) ∧
    ([q].find? (fun q => q.port = p && q.xid = 0 && q.issued && q.done.isNone) = some q ∧ q.acc = .read 64) ∧
    ([w].find? (fun q => q.port = p && q.xid = 0 && q.issued && q.done.isNone) = some w ∧ w.acc = .write [1]) ∧
    (mayTrain (reg (.cxl p) Reg.Cxl.PORT_CTRL 2 up) p = true ∧ t.linked = true ∧ t.good = true ∧ t.width = 16 ∧ t.speed = 6) ∧
    (up.Inv ∧ hasSvc (.cxl p) = true) ∧
    (parkIdle parked 0 = true ∧ parkValid (rwrite parked (.slow 0) Reg.Slow.PARK_CFG 0x201) 0 = true) := by
  refine ⟨fun s h => ?_, ⟨?_, ?_, ?_⟩, ⟨?_, ?_⟩, ⟨?_, ?_⟩, ⟨?_, ?_⟩, ⟨?_, ?_, ?_, ?_, ?_⟩, ⟨inv_of ?_, ?_⟩, ?_, ?_⟩
  case refine_1 =>
    simp only [List.mem_cons, List.not_mem_nil, or_false] at h
    rcases h with rfl | rfl | rfl <;> refine ⟨?_, ?_, ?_⟩ <;> decide +kernel
  all_goals decide +kernel

/-- A port that is up, its link in a state, with its four lanes active. -/
def port (st : Nat) : NauloPort := { NauloPort.reset with state := st, active := 15 }

/-- A device with that port as port 0. -/
def linked (x : NauloPort) : State := { up with nauloPorts := [(0, x)] }

theorem witness_PathsReplayAndDegrade :
    let d : DieId := 0
    let s := fun x : PathState => { up with paths := [(1, x), (2, x)] }
    linkPresent d 1 = true ∧ (getPath (s PathState.reset) d 1).spares ≠ 0 ∧
    ((getPath (s { PathState.reset with spares := 0 }) d 1).spares = 0 ∧
      (getPath (s { PathState.reset with spares := 0 }) d 1).half = false) ∧
    ((getPath (s { PathState.reset with spares := 0, half := true }) d 1).spares = 0 ∧
      (getPath (s { PathState.reset with spares := 0, half := true }) d 1).half = true) ∧
    (getPath (s { PathState.reset with paused := some 9 }) d 1).paused = some 9 := by
  refine ⟨?_, ?_, ⟨?_, ?_⟩, ⟨?_, ?_⟩, ?_⟩ <;> decide +kernel

theorem witness_FlitsAreTaken :
    let p : NauloId := 0
    let s := linked (port 2)
    let again := linked { port 2 with replay := [{ seq := 0, units := [], sends := 1 }] }
    let c : FlitControl := { ack := 0, creditVc := 0, creditCount := 0 }
    let f := fun n => ({ seq := n, type := .data, units := [], ctl := c } : Flit)
    let u := fun t : State => takeCredit (takeAckSeq t p c.ack) p c.creditVc c.creditCount
    portUp s p = true ∧ (f 4096).seq % 4096 = (getPort (takeControl s p (f 4096).ctl) p).rxNext ∧
    (f 1).seq % 4096 ≠ (getPort (takeControl s p (f 1).ctl) p).rxNext ∧ flitCrc (f 0) + 1 ≠ flitCrc (f 0) ∧
    (getPort (u s) p).state = 2 ∧ (portUp (linked (port 3)) p = true ∧ (getPort (u (linked (port 3))) p).state = 3) ∧
    (portUp again p = true ∧ (getPort again p).state = 2 ∧ (getPort again p).replay ≠ []) ∧
    packetOps.contains (0xFF#8).toNat = false ∧ isFenced s (.naulo p) = false := by
  refine ⟨?_, ?_, ?_, by generalize flitCrc _ = x; bv_omega, ?_, ⟨?_, ?_⟩, ⟨?_, ?_, ?_⟩, ?_, ?_⟩ <;> decide +kernel

theorem witness_LanesRetire :
    let p : NauloId := 0
    let s := linked (port 2)
    let c : FlitControl := { ack := 0, creditVc := 0, creditCount := 0 }
    let going := linked { port 3 with retiring := some (3, 5) }
    let done := linked { port 3 with retiring := some (3, 5), retireAck := 3 }
    let gone := reg (.naulo p) Reg.Nau.LANE_RETIRED 8 s
    let left := fun t : State => lanesWithout (lanesLeft (getPort (markLane t p 3) p)) 3
    let u := fun n => bump (rputField s (.naulo p) (Reg.Nau.LANE_FEC + 4 * 3) 31 16 (sat 16 n)) (.naulo p) 9 n
    (portUp s p = true ∧ rbit (takeControl s p c) (.naulo p) Reg.Nau.LANE_RETIRED (3 : Fin 4).val = false ∧
      rbit (takeControl gone p c) (.naulo p) Reg.Nau.LANE_RETIRED (3 : Fin 4).val = true) ∧
    (rfield (u 65536) (.naulo p) Reg.Nau.LANE_LIMIT 15 0 < 65536 ∧ 0 ≤ rfield (u 0) (.naulo p) Reg.Nau.LANE_LIMIT 15 0) ∧
    ((getPort going p).retiring = some (3, 5) ∧ (getPort going p).state = 3 ∧ (3#4).getLsbD (1 : Fin 4).val = true) ∧
    rbit gone (.naulo p) Reg.Nau.LANE_RETIRED (3 : Fin 4).val = true ∧
    (∀ n ∈ [1, 2, 3], let t := linked (port n)
      rbit t (.naulo p) Reg.Nau.LANE_RETIRED (3 : Fin 4).val = false ∧ (getPort (markLane t p 3) p).state = n ∧
      (getPort (markLane t p 3) p).active.getLsbD (3 : Fin 4).val = true ∧ left t ≠ 0) ∧
    (let t := linked { port 2 with active := 8 }
     (getPort (markLane t p 3) p).state ≠ 0 ∧ (getPort (markLane t p 3) p).active.getLsbD (3 : Fin 4).val = true ∧ left t = 0) ∧
    ((getPort done p).retiring = some (3, 5) ∧ (getPort done p).state = 3 ∧ (getPort done p).retireAck &&& 3 = 3) ∧
    (getPort s p).state ≠ 0 ∧
    (isReady s = true ∧ 15#4 &&& ~~~ BitVec.ofNat 4 (rfield s (.naulo p) Reg.Nau.LANE_RETIRED 3 0) ≠ 0) ∧
    (getPort (linked (port 1)) p).state = 1 := by
  refine ⟨⟨?_, ?_, ?_⟩, ⟨?_, ?_⟩, ⟨?_, ?_, ?_⟩, ?_, fun n h => ?_, ⟨?_, ?_, ?_⟩, ⟨?_, ?_, ?_⟩, ?_, ⟨?_, ?_⟩, ?_⟩
  case refine_10 =>
    simp only [List.mem_cons, List.not_mem_nil, or_false] at h
    rcases h with rfl | rfl | rfl <;> refine ⟨?_, ?_, ?_, ?_⟩ <;> decide +kernel
  all_goals decide +kernel

/-- A packet to this device, device 0, from device 5. -/
def head (addr bytes : Nat) : PacketHead :=
  { cls := .critical, tag := 0, dst := 0, src := 5, unit := 0, xid := 9, addr := addr, bytes := bytes }

/-- A request to device 5 that waits for its answer. -/
def asked (use : RemoteUse) : State :=
  { linked (port 2) with remotes := [{ xid := 9, node := 5, port := 0, use := use }] }

theorem witness_PacketsAreServed :
    let p : NauloId := 0
    let s := linked (port 2)
    let r := fun use : RemoteUse => ({ xid := 9, node := 5, port := p, use := use } : RemoteReq)
    let a := 0x1000000
    let q := packetReq (.naulo p) (head a 64)
    let d : List Byte := List.replicate 64 0
    let cut := { s with paths := (List.range 136).map (fun k => (k, { PathState.reset with stopped := true })) }
    (takesPacket s p (head 0 1) = true ∧ packetBytes (head 0 1) = true ∧ packetBytes (head 0 512) = true ∧
      (List.replicate 512 (0 : Byte)).length = (head 0 512).bytes ∧ isFenced s (.relay p) = false) ∧
    ((readLocal s q a 64).2.1 ≠ .delayed ∧ (writeLocal s q a d).2 ≠ .delayed ∧ (memoryAdd s q a 0 d).2 ≠ .delayed ∧
      packetWay s p (head a 64) = .free ∧ packetWay (bump s (.relay p) 20 1) p (head a 64) = .free) ∧
    (takesPacket (blocked a s) p (head a 64) = true ∧ (readLocal (blocked a s) q a 64).2.1 = .delayed ∧
      (writeLocal (blocked a s) q a d).2 = .delayed ∧ (memoryAdd (blocked a s) q a 0 d).2 = .delayed) ∧
    (takesPacket cut p (head a 64) = true ∧ packetWay cut p (head a 64) = .lost ∧ (readLocal cut q a 64).2.1 ≠ .delayed) ∧
    (bit (1#32) 31 = false ∧ 1 ≤ bits (1#32) 30 0 ∧ bit (7#32) 31 = false ∧ bits (7#32) 30 0 ≤ 7) ∧
    (takesPacket s p (head 0x020003F00008 4) = true ∧ semTarget s (head 0x020003F00008 4).addr true = some (.cp 0, 2) ∧
      semTarget s (head 0x020003F00008 4).addr false = some (.cp 0, 2)) ∧
    (takesPacket (asked (.hostRead 2)) p (head 0 2) = true ∧ statusOf (0 : Fin 16).val = some .ok ∧
      answered (asked (.hostRead 2)) (head 0 2) = some (r (.hostRead 2)) ∧ ([1, 2] : List Byte).length = 2) ∧
    (takesPacket (asked (.semOp (.cp 0) 0)) p (head 0 0) = true ∧
      answered (asked (.semOp (.cp 0) 0)) (head 0 0) = some (r (.semOp (.cp 0) 0)) ∧
      (r (.semOp (.cp 0) 0)).use = .semOp (.cp 0) 0) ∧
    (takesPacket (asked (.dmaWrite 0 7)) p (head 0 0) = true ∧
      answered (asked (.dmaWrite 0 7)) (head 0 0) = some (r (.dmaWrite 0 7))) := by
  refine ⟨⟨?_, ?_, ?_, ?_, ?_⟩, ⟨?_, ?_, ?_, ?_, ?_⟩, ⟨?_, ?_, ?_, ?_⟩, ⟨?_, ?_, ?_⟩, ?_, ⟨?_, ?_, ?_⟩, ⟨?_, ?_, ?_, ?_⟩, ⟨?_, ?_, ?_⟩,
    ?_, ?_⟩ <;> decide +kernel

theorem witness_PacketsAreServed_uses :
    (∀ n, RemoteUse.semOp (.cp 0) 0 ≠ .hostRead n) ∧ (∀ f n, RemoteUse.hostRead 2 ≠ .semOp f n) ∧
    (∀ c ch, RemoteUse.hostRead 2 ≠ .dmaWrite c ch) :=
  ⟨fun _ => by simp, fun _ _ => by simp, fun _ _ => by simp⟩

theorem witness_PacketsAreTurnedAway :
    let p : NauloId := 0
    let s := linked (port 2)
    (portUp (linked (port 1)) p = false ∧ portUp up p = false ∧
      isFenced (reg (.naulo p) Reg.Hdr.CTRL 4 s) (.naulo p) = true) ∧
    (portUp s p = true ∧ isFenced s (.naulo p) = false ∧ s.steward.failed = false ∧ { head 0 1 with dst := 1 }.dst ≠ nodeId s) ∧
    takesPacket s p (head 0 1) = true := by
  refine ⟨⟨?_, ?_, ?_⟩, ⟨?_, ?_, ?_, ?_⟩, ?_⟩ <;> decide +kernel

theorem witness_TimeIsAligned :
    let s := strideCtrl 1 (reg fabricPage Reg.Fab.TT_PARENT 0x8005 up)
    let u := bump { s with now := max s.now 100 } fabricPage 0 1
    let far := { s with sync := { s.sync with delays := [0] } }
    let lost := { reg fabricPage Reg.Fab.SYNC_STATE 1 s with sync := { SyncM.reset with missed := 16 } }
    (syncParent s = some 5 ∧ syncAccepts u (syncSample 0 50 60 100).2 = true) ∧
    (syncParent far = some 5 ∧ syncAccepts (bump { far with now := max far.now 1000000 } fabricPage 0 1)
      (syncSample 0 50 60 1000000).2 = false) ∧
    syncParent s ≠ some 6 ∧ syncParent up ≠ some 6 ∧
    ((syncParent lost).isSome = true ∧ syncState lost = 1 ∧ 16 ≤ lost.sync.missed) ∧ up.Inv := by
  refine ⟨⟨?_, ?_⟩, ⟨?_, ?_⟩, ?_, ?_, ⟨?_, ?_, ?_⟩, inv_of ?_⟩ <;> decide +kernel

/-- A segment of an ALL_REDUCE of group 0. -/
def segment (data : List Byte) : Segment :=
  { group := 0, kind := 0, seqId := 0, offset := 0, total := 1, rank := 0, addr := 0, src := 5, poisoned := false, data := data }

/-- A collective of group 0 that runs on relay 0, with its command. -/
def collRun : CollRun :=
  { slot := 0, group := 0, kind := 0, seqId := 0, entry := [], members := [], descs := [], lastSeg := 0, unsent := [], parts := [],
    next := 0, got := 0, seen := [], unread := [], scratch := [], status := .ok, nf := false, sum := (0, false) }

theorem witness_SegmentsAreTaken :
    let x := job (.relay 0) 0x50 [(2, 1)] .running
    let q : SentSeg := { xid := 9, engine := 0, dst := 7, cls := .bulk, seg := segment [0, 0, 0, 0], busy := none }
    let r := { q with busy := some 0 }
    let many := fun n : Nat => { Relay.reset with early := (List.range n).map (fun k =>
      ({ seg := { segment [] with seqId := k + 1 }, bytes := 0, st := .ok } : EarlySeg)) }
    let full := { group with relays := [(0, many 64)] }
    let wait := { linked (port 2) with sentSegs := [r], routes := [(7, 32768)], nauloPorts := [(15, port 2)] }
    let held := { wait with paths := (List.range 136).map (fun k => (k, { PathState.reset with paused := some 0 })) }
    let lone := { wait with routes := [] }
    let run := { withJob (.relay 0) x up with relays := [(0, { Relay.reset with coll := some collRun })] }
    let ws := [1 + 2 ^ 8, 7, 2, 0, 0, 0, 5].map wordOf ++ List.replicate 25 0
    let g := fun k : Fin 16 => { segment [0, 0, 0, 0] with kind := k, addr := 0x1000000 }
    (∃ u, peekEntry group 0 0 = (u, some ws) ∧ (groupEntry ws).valid = true ∧ isFenced u (.relay (groupEntry ws).engine) = false ∧
      (getRelay u (groupEntry ws).engine).coll = none ∧
      (∀ k ∈ [0, 3, 5, 7], segRoom (getRelay u (groupEntry ws).engine) (g k) false = true) ∧
      (let e := (groupEntry ws).engine
       (writeAtOnce (bump (bump u (.relay e) 15 1) (.relay e) 17 4) e (g 5) .bulk 0).2 = .ok)) ∧
    (∃ u, peekEntry full 0 0 = (u, some ws) ∧ (groupEntry ws).valid = true ∧ isFenced u (.relay (groupEntry ws).engine) = false ∧
      (getRelay u (groupEntry ws).engine).coll = none ∧
      segRoom (getRelay u (groupEntry ws).engine) (segment [0, 0, 0, 0]) false = false) ∧
    [q].find? (fun q => q.xid = 9) = some q ∧
    (∀ s ∈ [wait, held, lone], s.sentSegs.find? (fun q => q.xid = 9 && q.engine = 0) = some r ∧ r.busy = some 0) ∧
    ((sendSegment { wait with now := max wait.now (0 + 1000) } 0 r).2 = .ok ∧
      (sendSegment { held with now := max held.now (0 + 1000) } 0 r).2 = .delayed ∧
      (sendSegment { lone with now := max lone.now (0 + 1000) } 0 r).2 = .aborted) ∧
    ((getRelay run 0).coll = some collRun ∧ getSlot run (.relay 0) collRun.slot = some x) := by
  refine ⟨⟨_, pair_of ?_, ?_, ?_, ?_, ?_, ?_⟩, ⟨_, pair_of ?_, ?_⟩, ?_, fun s h => ?_, ⟨?_, ?_, ?_⟩, ?_, ?_⟩
  case refine_10 =>
    simp only [List.mem_cons, List.not_mem_nil, or_false] at h
    rcases h with rfl | rfl | rfl <;> refine ⟨?_, ?_⟩ <;> decide +kernel
  all_goals decide +kernel

/-- An error record of a block with a cause. -/
def errRecord (b : Block) (cause : Nat) : ErrRecord :=
  { seq := 0, unit := b, opcode := 0, tag := 0, cause := cause, merged := 0, stride := 0, ns := 0, temp := 0, rail := 0,
    syndrome := [], sentAt := 0, cls := none, limit := false }

theorem witness_RecordsAreHandled :
    let r := errRecord (.vu 0) 0
    let u := errRecord (.larder 0) 2
    let s := { up with records := [(Block.page (.vu 0), r)] }
    let full := { s with steward := { Steward.reset with queue := List.replicate 64 r } }
    let one := fun x : ErrRecord => { up with steward := { Steward.reset with queue := [x], logBase := 65536 } }
    let taken := fun x : ErrRecord => { one x with steward := { (one x).steward with queue := [], handling := some x } }
    (s.records.find? (fun r => r.1 = Block.page (.vu 0)) = some (Block.page (.vu 0), r) ∧ s.steward.switching = none ∧
      s.steward.failed = false ∧ s.steward.queue.length < 64) ∧
    (full.records.find? (fun r => r.1 = Block.page (.vu 0)) = some (Block.page (.vu 0), r) ∧ full.steward.switching = none ∧
      full.steward.failed = false ∧ 64 ≤ full.steward.queue.length) ∧
    ((one r).steward.queue = r :: [] ∧ (one r).steward.switching = none ∧ (one r).steward.failed = false ∧
      chargeOf (taken r) r = .cls 5 ∧ ∃ v, writeLog (countClass (taken r) 5) r 5 = (v, true)) ∧
    (let ring := fun s : State => reg (.errq 0) Reg.Erq.LOG_TAIL 1024 s
     chargeOf (ring (taken r)) r = .cls 5 ∧ (writeLog (countClass (ring (taken r)) 5) r 5).2 = false) ∧
    ((one u).steward.queue = u :: [] ∧ ∃ x v w k, chargeOf (taken u) u = .unit x ∧ chargeUnit (taken u) x u = (v, k) ∧
      writeLog (countClass v k) u k = (w, true)) ∧
    (up.Inv ∧ (6 ≤ bits (6#32) 4 0 ∧ bits (16#32) 4 0 ≤ 16) ∧
      rget64 up (activeQueue up) Reg.Erq.LOG_BASE_LO Reg.Erq.LOG_BASE_HI + 64 * 2 ^ bits (16#32) 4 0 ≤ hbmSize) ∧
    bits (5#32) 4 0 < 6 ∧ 16 < bits (17#32) 4 0 := by
  refine ⟨⟨?_, ?_, ?_, ?_⟩, ⟨?_, ?_, ?_, ?_⟩, ⟨?_, ?_, ?_, ?_, _, pair_of ?_⟩, ⟨?_, ?_⟩,
    ⟨?_, .die (dieOf up (.larder 0)), _, _, 1, ?_, pair_of ?_, pair_of ?_⟩,
    ⟨inv_of ?_, ?_, ?_⟩, ?_, ?_⟩ <;> decide +kernel

theorem witness_StewardsSwitchOver :
    let s := fun b a => { up with steward := { Steward.reset with missedBeats := b, missedAcks := a } }
    let d : DieId := 32
    (∀ b ∈ [0, 2, 3], ∀ a ∈ [0, 2, 3], (s b a).steward.standbyOk = true ∧ (s b a).steward.failed = false ∧
      (s b a).steward.switching = none) ∧
    ((s 0 3).steward.missedAcks < 4 ∧ (s 0 2).steward.missedAcks + 1 < 4 ∧ 3 ≤ (s 0 3).steward.missedAcks ∧
      (s 2 3).steward.missedBeats + 1 < 4 ∧ 3 ≤ (s 3 0).steward.missedBeats) ∧
    { up with steward := { Steward.reset with standbyOk := false } }.steward.standbyOk = false ∧
    { up with steward := { Steward.reset with switching := some 7 } }.steward.switching = some 7 ∧
    { up with relocks := [(32, (5, 10))] }.relocks.find? (fun x => x.1 = d.val) = some (d.val, 5, 10) := by
  refine ⟨?_, ⟨?_, ?_, ?_, ?_, ?_⟩, ?_, ?_, ?_⟩ <;> decide +kernel

theorem witness_BlocksAreFenced :
    let b : Block := .vu 127
    up.Inv ∧ up.resetting.contains b.page = false ∧ (32 : DieId).val ≠ 31 ∧
    ({ up with resetting := [b.page] }.Inv ∧ { up with resetting := [b.page] }.resetting.contains b.page = true) := by
  refine ⟨inv_of ?_, ?_, ?_, inv_of ?_, ?_⟩ <;> decide +kernel

theorem witness_HeaderRegistersAreWritten :
    let b : Block := .vu 127
    let latched := reg b Reg.Hdr.LATCH_CTRL 2 up
    (up.Inv ∧ rbit up b Reg.Hdr.LATCH_CTRL 1 = false) ∧ rbit latched b Reg.Hdr.LATCH_CTRL 1 = true ∧
    (pageOpen up b = true ∧ shownBlock up b = b ∧ 0xFC % 4 = 0 ∧ 0xFC < 0x100 ∧ 0x100 ≤ 0xFFC ∧ 0xFFC % 4 = 0 ∧ 0xFFC < 4096) ∧
    (pageOpen up (.mgmt 1) = true ∧ shownBlock up (.mgmt 1) ≠ .mgmt 1) ∧ pageOpen State.reset b = false ∧
    (rget (reg b Reg.Hdr.ERR_STATUS 2 up) b Reg.Hdr.ERR_STATUS &&& ~~~ 0#32 ≠ 0 ∧
      rget (reg b Reg.Hdr.ERR_STATUS 2 up) b Reg.Hdr.ERR_STATUS &&& ~~~ 2#32 = 0) := by
  refine ⟨⟨inv_of ?_, ?_⟩, ?_, ⟨?_, ?_, ?_, ?_, ?_, ?_, ?_⟩, ⟨?_, ?_⟩, ?_, ?_, ?_⟩ <;> decide +kernel

theorem witness_SemaphorePageIsWritten :
    let c : CoreId := 127
    let t : Token := { value := 7, src := Source.none }
    let full := { up with batons := [(2032, List.replicate 32 t)] }
    let fill := { up with filling := [(127, 5)] }
    (up.Inv ∧ up.filling.find? (fun x => x.1 = c.val) = none ∧ 15 ≠ rfield up (.sem c) Reg.Sm.SEM_INDEX 11 0 ∧
      (getBaton up c (bits (0#32) 19 16)).length < 32 ∧ getBaton up c (bits (0#32) 3 0) = []) ∧
    (isFenced up (.sem c) = false ∧ isFenced (reg (.sem c) Reg.Hdr.CTRL 4 up) (.sem c) = true) ∧
    (fill.Inv ∧ fill.filling.find? (fun x => x.1 = c.val) = some (c.val, 5)) ∧
    (full.Inv ∧ 32 ≤ (getBaton full c (bits (0#32) 19 16)).length ∧
      getBaton full c (bits (0#32) 3 0) = t :: List.replicate 31 t) := by
  refine ⟨⟨inv_of ?_, ?_, ?_, ?_, ?_⟩, ⟨?_, ?_⟩, ⟨inv_of ?_, ?_⟩, inv_of ?_, ?_, ?_⟩ <;> decide +kernel

theorem witness_ChannelsRetryAndResume :
    let c : CoreId := 127
    let x := job (.cp c) 0x28 [] .running
    let s := putDma (withJob (.cp c) x up) c 7 { DmaRun.reset with retry := some 3 }
    let stopped := reg (.dma c 7) Reg.Dma.DMA_STATE 2 up
    (s.Inv ∧ (getDma s c 7).retry = some 3 ∧ getSlot s (.cp c) (getDma s c 7).slot = some x) ∧
    (stopped.Inv ∧ rfield stopped (.dma c 7) Reg.Dma.DMA_STATE 1 0 = 2) ∧
    (up.Inv ∧ rfield up (.dma c 7) Reg.Dma.DMA_STATE 1 0 ≠ 2) := by
  refine ⟨⟨inv_of ?_, ?_, ?_⟩, ⟨inv_of ?_, ?_⟩, inv_of ?_, ?_⟩ <;> decide +kernel

theorem witness_TraceIsCollected :
    let r : TraceRec := { source := .vu 0, words := List.replicate 16 0, slots := [] }
    let place := reg tracePage Reg.Trc.TRACE_BASE_LO 65536 up
    let one := { place with trace := { Trace.reset with queued := [r] } }
    let full := { reg tracePage Reg.Trc.TRACE_TAIL 1024 up with trace := { Trace.reset with fullSeen := true } }
    let far := reg tracePage Reg.Trc.TRACE_BASE_HI 0xFFFF up
    let on := reg tracePage Reg.Trc.TRACE_CTRL 1 up
    one.trace.queued = r :: [] ∧
    (place.trace.drops = 0 ∧ traceUsed place + (1 + r.slots.length) ≤ traceSlots place ∧
      ∃ v, writeSlots place (stampSeq place r.words :: r.slots) = (v, true)) ∧
    (full.trace.drops = 0 ∧ bit (treg full Reg.Trc.TRACE_CTRL) 1 = false ∧
      traceSlots full < traceUsed full + (1 + r.slots.length) ∧ full.trace.fullSeen = true) ∧
    (bit (1#32) 1 = bit (treg up Reg.Trc.TRACE_CTRL) 1 ∧ bit (1#32) 0 = true ∧ bit (treg up Reg.Trc.TRACE_CTRL) 0 = false ∧
      traceRingOk up = true ∧ bit (0#32) 1 = bit (treg up Reg.Trc.TRACE_CTRL) 1 ∧ bit (0#32) 0 = false) ∧
    (bit (1#32) 1 = bit (treg far Reg.Trc.TRACE_CTRL) 1 ∧ bit (treg far Reg.Trc.TRACE_CTRL) 0 = false ∧ traceRingOk far = false) ∧
    (traceIdle up = true ∧ 10 ≤ bits (10#32) 4 0 ∧ bits (24#32) 4 0 ≤ 24) ∧
    (traceIdle on = false ∧ bit (treg on Reg.Trc.TRACE_CTRL) 0 = true) := by
  refine ⟨?_, ⟨?_, ?_, _, pair_of ?_⟩, ⟨?_, ?_, ?_, ?_⟩, ⟨?_, ?_, ?_, ?_, ?_, ?_⟩, ⟨?_, ?_, ?_⟩, ⟨?_, ?_, ?_⟩, ?_, ?_⟩ <;>
    decide +kernel

theorem witness_CheckValueJobsRun :
    let ch : Fin 16 := 15
    let s := fun mode => reg (cvPage ch) Reg.Cv.CV_STATE 1 (reg (cvPage ch) Reg.Cv.CV_CTRL mode up)
    let e := fun (mode : Nat) (ok : Bool) => { s mode with cvs := [(15, { CvChan.reset with finished := some ok })] }
    let bad := reg (cvPage ch) Reg.Cv.CV_BAD_CRC 1 (e 2 true)
    let p := fun (t : State) => rput64 (putCv t ch { getCv t ch with finished := none, done := some ((cvJob t ch).mode,
      (cvJob t ch).poly, (cvJob t ch).stream) }) (cvPage ch) Reg.Cv.CV_RESULT_LO Reg.Cv.CV_RESULT_HI
      (((crcOf (cvJob t ch).poly).getD crc32c).finish (getCv t ch).crc)
    (∀ m, m < 3 → cvState (s m) ch = 1 ∧ (getCv (s m) ch).finished = none ∧ isFenced (s m) (cvPage ch) = false ∧
      (cvJob (s m) ch).mode = m) ∧
    (let b := blocked 0 (reg (cvPage ch) Reg.Cv.CV_LENGTH_LO 64 (s 0))
     (cvState b ch = 1 ∧ (getCv b ch).finished = none ∧ isFenced b (cvPage ch) = false ∧ (cvJob b ch).mode = 0) ∧
     (digestFrom ch (cvJob b ch) ((crcOf (cvJob b ch).poly).getD crc32c) (requestCuts (cvJob b ch).src (cvJob b ch).len) b).2 =
       .delayed ∧
     (digestFrom ch (cvJob (s 0) ch) crc32c (requestCuts (cvJob (s 0) ch).src (cvJob (s 0) ch).len) (s 0)).2 ≠ .delayed) ∧
    (getCv (e 0 false) ch).finished = some false ∧
    ((getCv (e 0 true) ch).finished = some true ∧ (cvJob (e 0 true) ch).mode ≠ 2) ∧
    ((getCv (e 2 true) ch).finished = some true ∧ cvPass (p (e 2 true)) ch = true) ∧
    ((getCv bad ch).finished = some true ∧ (cvJob bad ch).mode = 2 ∧ cvPass (p bad) ch = false) := by
  refine ⟨?_, ⟨?_, ?_, ?_⟩, ?_, ⟨?_, ?_⟩, ⟨?_, ?_⟩, ?_, ?_, ?_⟩ <;> decide +kernel

/-- A device in a phase of start-up. -/
def starting (ph : BootPhase) : State := { State.reset with boot := { Boot.reset with phase := ph } }

theorem witness_DeviceResets :
    State.reset.inputs.resetHeld = false ∧ { up with inputs := { Inputs.reset with resetHeld := true } }.inputs.resetHeld = true ∧
    (bits (0xB0070001#32) 31 16 = 0xB007 ∧ bit (0xB0070001#32) 0 = true ∧ up.resetReq = none) ∧
    bits (0xB0060001#32) 31 16 ≠ 0xB007 ∧ { up with resetReq := some 10000 }.resetReq = some 10000 ∧
    (1 : Fin 4).val < 2 ∧ 2 ≤ (2 : Fin 4).val := by
  refine ⟨?_, ?_, ⟨?_, ?_, ?_⟩, ?_, ?_, ?_, ?_⟩ <;> decide +kernel

theorem witness_StartUpGoesOn :
    let owned := { starting .identity with flash := { Flash.reset with owner := some (false, []) } }
    let lost := { starting .identity with flash := { Flash.reset with pufGood := (false, false) } }
    let good := List.replicate 16 true
    (∀ ph ∈ [BootPhase.rom, .identity, .image, .configure, .test],
      (starting ph).inputs.resetHeld = false ∧ (starting ph).boot.phase = ph ∧ (starting ph).steward.failed = false) ∧
    (secretKnown (starting .identity) = true ∧ (starting .identity).flash.owner = none) ∧ secretKnown lost = false ∧
    (secretKnown owned = true ∧ owned.flash.owner = some (false, [])) ∧
    ((List.range 16).all (fun i => (good.set 15 false).getD i true) = false ∧ (List.range 16).all (fun i => good.getD i true) = true ∧
      feedsEnough 15 7 false = false ∧ feedsEnough 15 15 false = true) := by
  refine ⟨?_, ⟨?_, ?_⟩, ?_, ⟨?_, ?_⟩, ?_, ?_, ?_, ?_⟩ <;> decide +kernel

/-- A feed that carries its rail. -/
def fed : Feed := { Feed.reset with good := true, ok := true }

/-- A device with feeds, by rail and feed. -/
def feeding (a b : Feed) : State := putFeed (putFeed up 3 false a) 3 true b

theorem witness_FeedsAreLostAndRejoin :
    let one := feeding fed Feed.reset
    let both := feeding fed fed
    let most := allFeeds.foldl (fun s f => if f = (3, true) then s else putFeed s f.1 f.2 fed) up
    let after := fun s : State => bump (putFeed { s with now := max s.now ((getFeed s 3 true).lostAt.headD s.now + 100000000) } 3 true
      { getFeed s 3 true with good := true, ok := true }) supplyPage 1 1
    (both.inputs.resetHeld = false ∧ (getFeed both 3 true).ok = true ∧ (getFeed both 3 (!true)).ok = true) ∧
    ((getFeed one 3 false).ok = true ∧ (getFeed one 3 (!false)).ok = false) ∧
    { up with throttleUntil := some 9 }.throttleUntil = some 9 ∧
    (most.inputs.resetHeld = false ∧ (getFeed most 3 true).ok = false ∧ (getFeed most 3 true).held = false ∧ most.feeds ≠ [] ∧
      allFeeds.all (fun f => (getFeed (after most) f.1 f.2).ok) = true) ∧
    (one.feeds ≠ [] ∧ (getFeed one 3 true).ok = false ∧ (getFeed one 3 true).held = false ∧
      allFeeds.all (fun f => (getFeed (after one) f.1 f.2).ok) = false) ∧ up.Inv := by
  refine ⟨⟨?_, ?_, ?_⟩, ⟨?_, ?_⟩, ?_, ⟨?_, ?_, ?_, ?_, ?_⟩, ⟨?_, ?_, ?_, ?_⟩, inv_of ?_⟩ <;> decide +kernel

/-- A device whose security block has been told to run an operation on an argument of `n` bytes. -/
def securing (op n : Nat) : State :=
  reg (.security 0) Reg.Sec.SEC_ARG_LEN n (reg (.security 0) Reg.Sec.SEC_OP op (reg (.security 0) Reg.Sec.SEC_GO 1
    (reg (.security 0) Reg.Sec.SEC_ARG_LO 65536 (reg (.security 0) Reg.Sec.SEC_OUT_LO 131072 up))))

theorem witness_SecurityOperationsRun :
    let unlock := { securing 6 200 with boot := { up.boot with nonce := some (List.replicate 32 0) } }
    let d : List Byte := List.replicate 200 0
    (∀ op, 1 ≤ op → op < 9 → secRuns (securing op 64) op = true) ∧
    (∃ u, secArg (secBegun (securing 1 64)) = (u, .ok, List.replicate 64 (0 : Byte)) ∧ (List.replicate 64 (0 : Byte)).length = 64) ∧
    (∃ u, secArg (secBegun (securing 2 64)) = (u, .ok, List.replicate 64 (0 : Byte)) ∧ u.flash.owner = none) ∧
    (∃ u, secArg (secBegun (securing 3 64)) = (u, .ok, List.replicate 64 (0 : Byte))) ∧
    (∃ a, secOut (secBegun (securing 4 64)) 133 = some a) ∧ (∃ a, secOut (secBegun (securing 5 64)) 32 = some a) ∧
    (secRuns unlock 6 = true ∧ ∃ u, secArg (secBegun unlock) = (u, .ok, d) ∧ d.length = 200 ∧ u.boot.nonce = some (d.take 32) ∧
      leNat (slice d 32 2) = (nodeId u).val ∧ zeroIn d 34 34 = true) := by
  refine ⟨?_, ⟨_, pair_of (b := (SecResult.ok, List.replicate 64 (0 : Byte))) ?_, ?_⟩, ⟨_, pair_of (b := (SecResult.ok, List.replicate 64 (0 : Byte))) ?_, ?_⟩, ⟨_, pair_of (b := (SecResult.ok, List.replicate 64 (0 : Byte))) ?_⟩, ⟨131072, ?_⟩, ⟨131072, ?_⟩, ?_, _, pair_of (b := (SecResult.ok, List.replicate 200 (0 : Byte))) ?_, ?_, ?_, ?_, ?_⟩
  case refine_1 =>
    intro op h1 h2
    interval_cases op <;> decide +kernel
  all_goals decide +kernel

theorem witness_PresenceOpensTheWindow :
    let s := fun t => { up with now := 1000000000, inputs := { Inputs.reset with presenceAt := some t } }
    ((s 0).inputs.resetHeld = false ∧ (s 0).inputs.presence = false ∧ (s 0).inputs.presenceAt = some 0 ∧
      0 + 1000000000 ≤ (s 0).now) ∧
    ((s 1).inputs.presenceAt = some 1 ∧ (s 1).now < 1 + 1000000000) ∧
    { up with inputs := { Inputs.reset with windowOpen := some 3 } }.inputs.windowOpen = some 3 ∧
    (let held := { up with inputs := { Inputs.reset with presenceAt := some 3, presence := true } }
     held.inputs.presenceAt = some 3 ∧ held.inputs.presence = true ∧ held.inputs.presenceStuck = false) := by
  refine ⟨⟨?_, ?_, ?_, ?_⟩, ⟨?_, ?_⟩, ?_, ?_, ?_, ?_⟩ <;> decide +kernel

theorem witness_HostPortResets :
    let s := reg .host Reg.Hst.LINK_STATUS (2 ^ 31) up
    let held := { up with inputs := { Inputs.reset with perst := true } }
    let t : LinkTrain := { linked := true, width := 16, speed := 6, good := true }
    rbit s .host Reg.Hst.LINK_STATUS 31 = true ∧ up.Inv ∧
    (up.inputs.resetHeld = false ∧ up.inputs.perst = false ∧ held.inputs.resetHeld = false ∧ held.inputs.perst = true) ∧
    (up.steward.failed = false ∧ rbit up .host Reg.Hst.LINK_STATUS 31 = false ∧ t.linked = true ∧ t.good = true ∧
      t.width ∈ [1, 4, 8, 16] ∧ 1 ≤ t.speed ∧ t.speed ≤ 6 ∧ 5 ≠ t.speed) := by
  refine ⟨?_, inv_of ?_, ⟨?_, ?_, ?_, ?_⟩, ?_, ?_, ?_, ?_, ?_, ?_, ?_, ?_⟩ <;> decide +kernel

theorem witness_HostAccessesAreServed :
    let waits := { up with host := { HostPort.reset with pendingMsi := [2047] } }
    (State.reset.steward.failed = false ∧ State.reset.inputs.resetHeld = false ∧ configRetry State.reset = true) ∧
    (up.steward.failed = false ∧ up.inputs.resetHeld = false ∧ configRetry up = false) ∧
    (0 % 8 = 0 ∧ (30 * 256 * 4096 - 8) % 8 = 0 ∧ 30 * 256 * 4096 - 4 < 30 * 256 * 4096) ∧ (2 ≠ 4 ∧ 2 ≠ 8 ∧ 4 % 8 ≠ 0) ∧
    (bar2Bytes up - 512 + 512 ≤ bar2Bytes up ∧ 0 + ([1, 2, 3] : List Byte).length ≤ bar2Bytes up) ∧
    waits.host.pendingMsi.contains (2047 : Fin 2048).val = true ∧ up.host.pendingMsi.contains (2047 : Fin 2048).val = false := by
  refine ⟨⟨?_, ?_, ?_⟩, ⟨?_, ?_, ?_⟩, ⟨?_, ?_, ?_⟩, ⟨?_, ?_, ?_⟩, ⟨?_, ?_⟩, ?_, ?_⟩ <;> decide +kernel

theorem witness_BoardAlarmsAreHandled :
    let s := fun l c => { up with now := 20000000, inputs := { Inputs.reset with alarm := true, alarmPin := true, alarmAt := l,
                                                                                  chatter := c } }
    (∀ l ∈ [[], [15000000, 10000000], [15000000, 9999999]], ∀ c, (s l c).inputs.resetHeld = false ∧
      (s l c).inputs.alarm = true ∧ (s l c).inputs.alarmPin = true ∧ (s l c).inputs.alarmStuck = false ∧ (s l c).inputs.chatter = c) ∧
    (((s [15000000, 10000000] false).now :: (s [15000000, 10000000] false).inputs.alarmAt).take 3)[2]? = some 10000000 ∧
    (s [15000000, 10000000] false).now ≤ 10000000 + 10000000 ∧
    (((s [15000000, 9999999] false).now :: (s [15000000, 9999999] false).inputs.alarmAt).take 3)[2]? = some 9999999 ∧
    ¬ (s [15000000, 9999999] false).now ≤ 9999999 + 10000000 := by
  refine ⟨?_, ?_, ?_, ?_, ?_⟩ <;> decide +kernel

theorem witness_TemperaturesAreSampled :
    let hot := { up with hotRuns := [(0, 9)] }
    (919 : Int) < 920 ∧ (920 : Int) ≤ 920 ∧ tget 0 up.hotRuns 0 < 9 ∧ (9 ≤ tget 0 hot.hotRuns 0 ∧ hot.tripped = false) ∧
    { up with tripped := true }.tripped = true := by
  refine ⟨?_, ?_, ?_, ⟨?_, ?_⟩, ?_⟩ <;> decide +kernel

theorem witness_DebugPortScans :
    let open_ := { Tap.reset with instr := .debugPort, state := .shiftDr }
    let pins := fun r t => ({ tms := false, tdi := false, trstN := t, rising := r } : TapPins)
    (pins true false).trstN = false ∧
    (∀ r, (pins r true).trstN = true ∧ debugEdge up.tap (pins r true).rising = false ∧
      debugEdge open_ (pins r true).rising = true) ∧ up.tap.instr ≠ .debugPort := by
  refine ⟨?_, ?_, ?_⟩ <;> decide +kernel

theorem witness_StepRunsFrontCommand :
    { up with pending := [.stop, .tickFire] }.pending = .stop :: [.tickFire] ∧ up.pending = [] := by
  refine ⟨?_, ?_⟩ <;> decide +kernel

theorem witness_CountersSaturate : up.Inv ∧ ctr (bump up (.vu 0) 23 (2 ^ 64)) (.vu 0) 23 = 2 ^ 64 - 1 := by
  refine ⟨inv_of ?_, ?_⟩ <;> decide +kernel

theorem witness_CauseIsRaised :
    let b : Block := .cp 127
    let off := reg b Reg.Hdr.ERR_ENABLE 0 up
    let again := reg b Reg.Hdr.ERR_FIRST (2 ^ 15) up
    (up.Inv ∧ 31 < 32 ∧ rbit up b Reg.Hdr.ERR_ENABLE 31 = true ∧ rbit up b Reg.Hdr.ERR_FIRST 15 = false ∧
      (b.page, 31, (0 : Tag), up.stride.count) ∉ up.events) ∧
    (again.Inv ∧ rbit again b Reg.Hdr.ERR_FIRST 15 = true) ∧
    (off.Inv ∧ ¬ (3 = 2 ∨ 3 = 5 ∨ 3 = 7 ∨ rbit off b Reg.Hdr.ERR_ENABLE 3 = true)) := by
  refine ⟨⟨inv_of ?_, ?_, ?_, ?_, ?_⟩, ⟨inv_of ?_, ?_⟩, inv_of ?_, ?_⟩ <;> decide +kernel

theorem witness_OnlyDebugEdgesStop : ∃ t, exec (.holdSw true) up = .next t := ⟨_, rfl⟩

theorem witness_InterleavesInvert :
    8 * larderDieSize - 1 < 8 * larderDieSize ∧ larderDieSize - 1 < larderDieSize ∧
    (sharedQ up ≤ 12 ∧ sharedQ { up with boot := { up.boot with hbmShared := 12 } } ≤ 12 ∧ hbmSize - 1 < hbmSize ∧
      ∃ st pc off, hbmPlace up (hbmSize - 1) = (st, pc, off)) := by
  refine ⟨?_, ?_, ?_, ?_, ?_, (hbmPlace up (hbmSize - 1)).1, _, _, rfl⟩ <;> decide +kernel

theorem witness_PagesNameTheirBlocks :
    hasPage (.proxy 32) = true ∧ hasPage (.glob 31) = true ∧ blockAt (Block.page (.vu 127)) = some (.vu 127) := by
  refine ⟨?_, ?_, ?_⟩ <;> decide +kernel

theorem witness_SemaphoresAddAndSubtract :
    let s := fun x : Sem => { up with banks := [(127, { dflt := Sem.reset, cells := [(4095, x)] })] }
    let f := FrontId.cp 127
    let n := fun k => ({ Sem.reset with count := k } : Sem)
    ((s { Sem.reset with poison := true }).Inv ∧ (getSem (s { Sem.reset with poison := true }) f 4095).poison = true) ∧
    ((s (n 5)).Inv ∧ (getSem (s (n 5)) f 4095).poison = false ∧ (getSem (s (n 5)) f 4095).count + (2 ^ 31 - 6) < 2 ^ 31 ∧
      2 ^ 31 ≤ (getSem (s (n 5)) f 4095).count + (2 ^ 31 - 5) ∧ 5 ≤ (getSem (s (n 5)) f 4095).count ∧
      (getSem (s (n 5)) f 4095).count < 6) := by
  refine ⟨⟨inv_of ?_, ?_⟩, inv_of ?_, ?_, ?_, ?_, ?_, ?_⟩ <;> decide +kernel

theorem witness_WakingWritesZeros :
    let s := putSeg up 127 .pm 10 { Segm.reset with phase := .waking }
    s.Inv ∧ (getSeg s 127 .pm (10 : Fin 11).val).phase = .waking ∧ 0 < segBytes .pm := by
  refine ⟨inv_of ?_, ?_, ?_⟩ <;> decide +kernel

theorem witness_StepKeepsInvariant : up.Inv ∧ ∃ t, step up = .next t := by
  refine ⟨inv_of ?_, _, rfl⟩
  decide +kernel

theorem witness_ExecKeepsConfiguration :
    startsUp .stop = false ∧ Instr.stop ≠ .imageReplace ∧ Instr.stop ≠ .imageReplaceOwner ∧ ∃ t, exec .stop up = .next t :=
  ⟨rfl, by decide, by decide, _, rfl⟩

theorem witness_CountersNeverFall :
    up.Inv ∧ (∃ t, exec .stop up = .next t) ∧ startsUp .stop = false ∧ stewardPage (.vu 127) = false ∧ 23 < 24 := by
  refine ⟨inv_of ?_, ⟨_, rfl⟩, rfl, rfl, ?_⟩ <;> decide +kernel

/-! ### Well-formedness: an ill-formed term for each check -/

theorem test_core_slot_out_of_range : Instr.wellFormed (.matmul 0 256) = false := by decide
theorem test_front_slot_out_of_range : Instr.wellFormed (.completion (.hub 0) 64) = false := by decide
theorem test_engine_slot_out_of_range : Instr.wellFormed (.stepVote 0 64) = false := by decide
theorem test_core_semaphore_out_of_range : Instr.wellFormed (.semOperation (.cp 0) 4096) = false := by decide
theorem test_engine_semaphore_out_of_range : Instr.wellFormed (.semOperation (.relay 0) 256) = false := by decide
theorem test_tick_lead_too_wide :
    Instr.wellFormed (.tick 0 0 { stride := 0, fire := 0, planned := 0, holdLead := 2097152, hurdle := false }) = false := by decide
theorem test_pulse_time_too_wide : Instr.wellFormed (.strideInPulse (2 ^ 64) 0) = false := by decide
theorem test_hold_stride_too_wide : Instr.wellFormed (.hold 0 (2 ^ 64) true 0) = false := by decide
theorem test_vote_step_too_wide : Instr.wellFormed (.vote 0 0 0 (quiet (2 ^ 64))) = false := by decide +kernel
theorem test_result_stride_too_wide : Instr.wellFormed (.voteResult 0 0 0 (quiet 0) (2 ^ 64)) = false := by decide +kernel
theorem test_core_table_not_committed : Instr.wellFormed (.tableCommit (.cp 0) 6) = false := by decide
theorem test_directory_write_of_nothing : Instr.wellFormed (.directoryWrite .host 0 []) = false := by decide
theorem test_core_offset_too_wide : Instr.wellFormed (.coreMemoryRequest 0 .wm .host 0 33554432 (.read 1)) = false := by decide
theorem test_read_of_nothing : Instr.wellFormed (.coreMemoryRequest 0 .wm .host 0 0 (.read 0)) = false := by decide
theorem test_write_ahead_past_the_memory :
    Instr.wellFormed (.segOff 0 .pm 0 [(.host, 0, 0x0700000, [0])]) = false := by decide
theorem test_response_too_long :
    Instr.wellFormed (.readResp 0 (head 0 1) 0 (List.replicate 513 0)) = false := by decide +kernel
theorem test_larder_read_past_the_die : Instr.wellFormed (.larderRead 0 .host .bulk 0x53000000 64) = false := by decide
theorem test_larder_write_of_nothing : Instr.wellFormed (.larderWrite 0 .host .bulk 0 []) = false := by decide
theorem test_merge_block_too_wide : Instr.wellFormed (.mergeWait 0 33554432) = false := by decide
theorem test_hbm_address_too_wide : Instr.wellFormed (.hbmRequest .host 0 .bulk (2 ^ 48) (.read 64)) = false := by decide
theorem test_memory_add_of_nothing : Instr.wellFormed (.memorySideAdd 0 0 .bulk 0 7 []) = false := by decide
theorem test_cxl_offset_past_the_window :
    Instr.wellFormed (.cxlRequest 0 .host 0 .bulk 0x020000000000 (.read 64)) = false := by decide
theorem test_cxl_identifier_too_wide : Instr.wellFormed (.expanderResponse 0 (2 ^ 32) false false 0 []) = false := by decide
theorem test_cxl_capacity_too_wide :
    Instr.wellFormed (.cxlRetrain 0 { linked := true, width := 16, speed := 6, good := true } 16384 0) = false := by decide
theorem test_wire_too_wide : Instr.wellFormed (.flitCrcError 0 1 65536) = false := by decide
/-- A DATA flit of no units, and its control fields. -/
def noCtl : FlitControl := { ack := 0, creditVc := 0, creditCount := 0 }
def noUnits : Flit := { seq := 0, type := .data, units := [], ctl := noCtl }

theorem test_flit_sequence_too_wide : Instr.wellFormed (.dataFlit 0 { noUnits with seq := 4096 } 0) = false := by decide
theorem test_flit_of_another_type : Instr.wellFormed (.dataFlit 0 { noUnits with type := .nak } 0) = false := by decide
theorem test_flit_of_five_units :
    Instr.wellFormed (.dataFlit 0 { noUnits with units := List.replicate 5 (0, List.replicate 64 0) } 0) = false := by decide
theorem test_nak_too_wide : Instr.wellFormed (.nak 0 { noCtl with ack := 4096 }) = false := by decide
theorem test_retire_too_wide : Instr.wellFormed (.retire 0 0 { noCtl with ack := 4096 }) = false := by decide
theorem test_packet_of_nothing : Instr.wellFormed (.read 0 (head 0 0)) = false := by decide
theorem test_packet_data_too_short : Instr.wellFormed (.write 0 (head 0 2) [0]) = false := by decide
theorem test_sync_time_too_wide : Instr.wellFormed (.syncReq 0 (2 ^ 64)) = false := by decide
theorem test_sync_answer_too_wide : Instr.wellFormed (.syncResp 0 0 0 0 (2 ^ 64)) = false := by decide
theorem test_segment_total_too_wide : Instr.wellFormed (.segment 0 0 { segment [] with total := 2 ^ 64 }) = false := by decide
theorem test_segment_answer_too_wide : Instr.wellFormed (.segAck 0 (2 ^ 32) true) = false := by decide
theorem test_sentinels_of_no_die : Instr.wellFormed (.sentinelSample [] []) = false := by decide
theorem test_configure_without_stacks : Instr.wellFormed (.configure [] 15 15) = false := by decide
theorem test_test_without_cores : Instr.wellFormed (.test []) = false := by decide
theorem test_configuration_offset_unaligned : Instr.wellFormed (.configurationRequest 2 none) = false := by decide
theorem test_bar0_access_too_long : Instr.wellFormed (.bar0Access 0 16 none) = false := by decide
theorem test_bar2_offset_too_wide : Instr.wellFormed (.bar2Access (2 ^ 48) (.read 4)) = false := by decide
theorem test_temperatures_of_no_die : Instr.wellFormed (.tempSample [] []) = false := by decide
theorem test_register_offset_unaligned : Instr.wellFormed (.registerWrite .host 0x102 0) = false := by decide
theorem test_park_offset_past_the_page : Instr.wellFormed (.parkCfg 0 0x1000 0) = false := by decide
theorem test_idle_count_too_wide : Instr.wellFormed (.idle 0 { noCtl with creditCount := 65536 }) = false := by decide

/-! ### The places that the specification's examples work out -/

/-- The example after R36: byte 0 of the AM of core 45. -/
theorem test_am_of_core_45 : coreAddr 45 .am 0 = 0x0200B5000000 := by decide +kernel

/-- The example after R36: larder address 0x0100_0012_3000 lies on LD3 at 0x2_4000. -/
theorem test_larder_granule : larderPlace 0x123000 = (3, 0x24000) := by decide +kernel

/-- The example after R178: directory entry 1,000,000 lies on LD6 at 0x52BD_0800. -/
theorem test_directory_entry : larderPlace (0x010295E84800 - larderBase) = (6, 0x52BD0800) := by decide +kernel

/-- The example after R39: ERR_STATUS of the GME of core 45. -/
theorem test_gme_of_core_45 : Block.reg (.gme 45) Reg.Hdr.ERR_STATUS = 0x00551010 := by decide +kernel

/-- The example after R341, with Q 8. -/
theorem test_shared_interleave :
    hbmPlace { up with boot := { up.boot with hbmShared := 8 } } 0x001234567840 = (6, 30, 0x091A2B40) := by decide +kernel
theorem test_hub_interleave :
    hbmPlace { up with boot := { up.boot with hbmShared := 8 } } 0x005201234500 = (8, 7, 0x24024600) := by decide +kernel

/-! ### Values that the specification states -/

/-- The check values of R467 over "123456789". -/
theorem test_crc32c : crc32c.of [0x31, 0x32, 0x33, 0x34, 0x35, 0x36, 0x37, 0x38, 0x39] = 0xE3069283 := by decide +kernel
theorem test_crc64 : crc64.of [0x31, 0x32, 0x33, 0x34, 0x35, 0x36, 0x37, 0x38, 0x39] = 0x6C40DF5F0B497347 := by decide +kernel
theorem test_crc16 : crc16.of [0x31, 0x32, 0x33, 0x34, 0x35, 0x36, 0x37, 0x38, 0x39] = 0x2189 := by decide +kernel

/-- The example after R280: the square root of 25,600 is 160. -/
theorem test_norm : normWord (25600 * 2 ^ 280) = 0x43200000#32 := by decide +kernel

/-! ### One step -/

/-- A part of the state that a command leaves; none where it stops. -/
def after {α : Type} (c : Instr) (s : State) (g : State → α) : Option α :=
  match step { s with pending := [c] } with
  | .next t => some (g t)
  | _ => none

/-- A pulse of 49 ns is a glitch: PIN_GLITCHES counts it, and no tick is accepted (R68). -/
theorem test_glitch :
    after (.strideInPulse 0 49) (reg (.stride 0) Reg.Str.PIN_CTRL 2 (strideCtrl 2 up))
      (fun t => (ctr t (.stride 0) 6, ctr t (.stride 0) 5)) = some (1, 0) := by decide +kernel

/-- FEED_SHARE is held between 32 and 224 (R493). -/
theorem test_feed_share_low : after (.feedShare 10) up (fun t => rget t supplyPage Reg.Sup.FEED_SHARE) = some 32 := by
  decide +kernel
theorem test_feed_share_high : after (.feedShare 255) up (fun t => rget t supplyPage Reg.Sup.FEED_SHARE) = some 224 := by
  decide +kernel

/-- Writing 1 to a bit of ERR_STATUS clears it, and that bit only (the header's table, R49). -/
theorem test_err_status_w1c :
    after (.errStatus (.vu 3) 4) (reg (.vu 3) Reg.Hdr.ERR_STATUS 6 up) (fun t => rget t (.vu 3) Reg.Hdr.ERR_STATUS) = some 2 := by
  decide +kernel

/-- The page-wide SNAPSHOT latches a counter's value (R454). -/
theorem test_snapshot :
    after (.snapshot (.vu 3)) (bump up (.vu 3) 2 77) (fun t => tget 0 t.latched (Block.cnt (.vu 3) 2)) = some 77 := by
  decide +kernel

/-- A store to HBM is read back. -/
theorem test_hbm_write :
    after (.hbmRequest (.vu 0) 0 .critical 0x100000 (.write [0xAB])) up (fun t => getByte t 0x100000) = some 0xAB := by
  decide +kernel

/-- A token that does not fit is dropped and counted (R82). -/
theorem test_baton_full :
    after (.batonPass 0 0x1234) { up with batons := [(0, List.replicate 32 { value := 7, src := Source.none })] }
      (fun t => ((getBaton t 0 0).length, ctr t (.sem 0) 10)) = some (32, 1) := by decide +kernel

/-- The waiting command is the next one: the queue's rest stays (first in, first out). -/
theorem test_queue :
    (match step { up with pending := [.swSkip, .stop] } with
     | .next t => some t.pending
     | _ => none) = some [.stop] := by decide +kernel

/-- A pulse of STRIDE_OUT leaves the device and is due no longer (R67). -/
theorem test_stride_out :
    after .strideOut (reg (.stride 0) Reg.Str.PIN_CTRL 1 (striding 2 { StrideM.reset with outDue := some (1000, 500, false) }))
      (fun t => (t.outputs, t.stride.outDue)) = some ([.strideOut 1000 500], none) := by decide +kernel

/-- An alarm of the board sets its cause and is counted (R521). -/
theorem test_board_alarm :
    after .boardAlarm up (fun t => (t.inputs.alarm, rbit t boardPage Reg.Hdr.ERR_STATUS 8, ctr t boardPage 4)) =
      some (true, true, 1) := by decide +kernel

/-- A write past the end of a larder die writes nothing and is answered ABORTED, with ADDRESS at its requester (R31). -/
theorem test_larder_write_past_the_die :
    after (.larderWrite 0 (.vu 0) .bulk 0x52FFFFFF [1, 2]) up
      (fun t => (t.outputs, rbit t (.vu 0) Reg.Hdr.ERR_STATUS Cause.ADDRESS, t.mem)) =
      some ([.response (.vu 0) .aborted []], true, []) := by decide +kernel

/-- A sum of zero is +0, whatever the signs (R118, R351): FP32 -0 added to -0. -/
theorem test_add_of_zeros :
    after (.memorySideAdd 0 0 .critical 0x1000000 0 [0, 0, 0, 0x80]) (putBytes up 0x1000000 [0, 0, 0, 0x80])
      (fun t => getByte t 0x1000003) = some 0 := by decide +kernel

end Sys2Proof.Tests
end

/-!
PROOFS. Every command keeps the invariant, and so every step does; what a count of a counter, a write of a header register,
a snapshot and a clear of the array's checks leave.
-/
namespace Sys2Proof.Machine

/-! ### The step (R24) -/

/-- Every command but a reset, a loss of supply, one of start-up and an image replacement answers a state that `Keeps`
allows. -/
theorem exec_keeps (c : Instr) (s : State) (up : startsUp c = false) (h : c ≠ .imageReplace)
    (hOwner : c ≠ .imageReplaceOwner) : OutKeeps s (exec c s) := by
  cases c with
  | powerOn | resetN | deviceReset | brownOut | rom | identity | image | configure | test | feedLost => cases up
  | imageReplace => exact absurd rfl h
  | imageReplaceOwner => exact absurd rfl hOwner
  | matmul => exact execMatmul_keeps _ _ s (.refl s)
  | matmulCascade => exact execMatmulCascade_keeps _ _ s (.refl s)
  | matmulElementWise => exact execMatmulElementWise_keeps _ _ s (.refl s)
  | matmulPod => exact execMatmulPod_keeps _ _ s (.refl s)
  | matmulPodT => exact execMatmulPodT_keeps _ _ s (.refl s)
  | maskedProduct => exact execMaskedProduct_keeps _ _ s (.refl s)
  | predict => exact execPredict_keeps _ _ s (.refl s)
  | eltwise => exact execEltwise_keeps _ _ s (.refl s)
  | reduce => exact execReduce_keeps _ _ s (.refl s)
  | gather => exact execGather_keeps _ _ s (.refl s)
  | scatterAdd => exact execScatterAdd_keeps _ _ s (.refl s)
  | copy => exact execCopy_keeps _ _ s (.refl s)
  | transposeCopy => exact execTransposeCopy_keeps _ _ s (.refl s)
  | fill => exact execFill_keeps _ _ s (.refl s)
  | semOp => exact execSemOp_keeps _ _ s (.refl s)
  | strideWait => exact execStrideWait_keeps _ s (.refl s)
  | dma => exact execDma_keeps _ _ s (.refl s)
  | apply => exact execApply_keeps _ _ s (.refl s)
  | normPass => exact execNormPass_keeps _ _ s (.refl s)
  | thin => exact execThin_keeps _ _ s (.refl s)
  | sprout => exact execSprout_keeps _ _ s (.refl s)
  | driftAudit => exact execDriftAudit_keeps _ _ s (.refl s)
  | park => exact execPark_keeps _ _ s (.refl s)
  | run => exact execRun_keeps _ _ s (.refl s)
  | collectiveReduce => exact execCollectiveReduce_keeps _ _ s (.refl s)
  | allReduce => exact execAllReduce_keeps _ _ s (.refl s)
  | reduceScatter => exact execReduceScatter_keeps _ _ s (.refl s)
  | allGather => exact execAllGather_keeps _ _ s (.refl s)
  | broadcast => exact execBroadcast_keeps _ _ s (.refl s)
  | allToAll => exact execAllToAll_keeps _ _ s (.refl s)
  | permute => exact execPermute_keeps _ _ s (.refl s)
  | move => exact execMove_keeps _ _ s (.refl s)
  | stepVote => exact execStepVote_keeps _ _ s (.refl s)
  | ringFetch => exact execRingFetch_keeps _ s (.refl s)
  | dispatch => exact execDispatch_keeps _ s (.refl s)
  | waitSatisfied => exact execWaitSatisfied_keeps _ _ s (.refl s)
  | batonTake => exact execBatonTake_keeps _ _ s (.refl s)
  | batonStall => exact execBatonStall_keeps _ _ s (.refl s)
  | completion => exact execCompletion_keeps _ _ s (.refl s)
  | semOperation => exact execSemOperation_keeps _ _ s (.refl s)
  | requestTimeout => exact execRequestTimeout_keeps _ _ s (.refl s)
  | ringTail => exact execRingTail_keeps _ _ s (.refl s)
  | syncMode => exact execSyncMode_keeps _ _ s (.refl s)
  | tickAnnounce => exact execTickAnnounce_keeps s (.refl s)
  | holdBudgetExpiry => exact execHoldBudgetExpiry_keeps s (.refl s)
  | tickFire => exact execTickFire_keeps s (.refl s)
  | holdPoint => exact execHoldPoint_keeps s (.refl s)
  | holdChange => exact execHoldChange_keeps _ s (.refl s)
  | tick => exact execTick_keeps _ _ _ s (.refl s)
  | strideOut => exact execStrideOut_keeps s (.refl s)
  | strideInPulse => exact execStrideInPulse_keeps _ _ s (.refl s)
  | strideInStuck => exact execStrideInStuck_keeps s (.refl s)
  | strideInMissing => exact execStrideInMissing_keeps s (.refl s)
  | start => exact execStart_keeps s (.refl s)
  | stop => exact execStop_keeps s (.refl s)
  | holdSw => exact execHoldSw_keeps _ s (.refl s)
  | stridePeriod => exact execStridePeriod_keeps _ s (.refl s)
  | tickLead => exact execTickLead_keeps _ s (.refl s)
  | holdLead => exact execHoldLead_keeps _ s (.refl s)
  | holdBudget => exact execHoldBudget_keeps _ s (.refl s)
  | strideCount => exact execStrideCount_keeps _ _ s (.refl s)
  | hold src n v first => exact execHold_keeps src n v first s (.refl s)
  | vote => exact execVote_keeps _ _ _ _ s (.refl s)
  | voteResult => exact execVoteResult_keeps _ _ _ _ _ s (.refl s)
  | stepClose => exact execStepClose_keeps s (.refl s)
  | decision => exact execDecision_keeps _ s (.refl s)
  | standIn => exact execStandIn_keeps _ _ s (.refl s)
  | voteResultLost => exact execVoteResultLost_keeps _ s (.refl s)
  | swSkip => exact execSwSkip_keeps s (.refl s)
  | tornClear => exact execTornClear_keeps s (.refl s)
  | pubArmGo => exact execPubArmGo_keeps _ s (.refl s)
  | pendingLock => exact execPendingLock_keeps _ _ s (.refl s)
  | lockActivate => exact execLockActivate_keeps _ s (.refl s)
  | oldDone => exact execOldDone_keeps _ _ s (.refl s)
  | publish => exact execPublish_keeps _ s (.refl s)
  | publishTimeout => exact execPublishTimeout_keeps _ s (.refl s)
  | unlock => exact execUnlock_keeps _ _ s (.refl s)
  | descCreate => exact execDescCreate_keeps _ s (.refl s)
  | descDelete => exact execDescDelete_keeps _ s (.refl s)
  | descBatch => exact execDescBatch_keeps _ s (.refl s)
  | descTableOffset => exact execDescTableOffset_keeps _ _ s (.refl s)
  | descTableLog2 => exact execDescTableLog2_keeps _ _ s (.refl s)
  | tableCommit => exact execTableCommit_keeps _ _ s (.refl s)
  | tableFill => exact execTableFill_keeps _ s (.refl s)
  | arm => exact execArm_keeps _ _ s (.refl s)
  | allocBase => exact execAllocBase_keeps _ _ _ _ s (.refl s)
  | allocSize => exact execAllocSize_keeps _ _ _ s (.refl s)
  | directoryWrite => exact execDirectoryWrite_keeps _ _ _ s (.refl s)
  | coreMemoryRequest => exact execCoreMemoryRequest_keeps _ _ _ _ _ _ s (.refl s)
  | patrolRead => exact execPatrolRead_keeps _ _ s (.refl s)
  | parityInject => exact execParityInject_keeps _ _ _ s (.refl s)
  | segOff => exact execSegOff_keeps _ _ _ _ s (.refl s)
  | drainComplete => exact execDrainComplete_keeps _ _ _ s (.refl s)
  | wakeComplete => exact execWakeComplete_keeps _ _ _ s (.refl s)
  | larderRead => exact execLarderRead_keeps _ _ _ _ _ s (.refl s)
  | larderWrite => exact execLarderWrite_keeps _ _ _ _ _ s (.refl s)
  | mergeWait => exact execMergeWait_keeps _ _ s (.refl s)
  | larderScrub => exact execLarderScrub_keeps _ s (.refl s)
  | hbmRequest => exact execHbmRequest_keeps _ _ _ _ _ s (.refl s)
  | hbmScrub => exact execHbmScrub_keeps _ s (.refl s)
  | pcRetire => exact execPcRetire_keeps _ _ s (.refl s)
  | pcRetired => exact execPcRetired_keeps _ s (.refl s)
  | stackTemp => exact execStackTemp_keeps _ _ _ _ s (.refl s)
  | refresh => exact execRefresh_keeps _ _ s (.refl s)
  | memorySideAdd => exact execMemorySideAdd_keeps _ _ _ _ _ _ s (.refl s)
  | cxlRequest => exact execCxlRequest_keeps _ _ _ _ _ _ s (.refl s)
  | expanderResponse => exact execExpanderResponse_keeps _ _ _ _ _ _ s (.refl s)
  | cxlLinkDown => exact execCxlLinkDown_keeps _ s (.refl s)
  | cxlRetrain => exact execCxlRetrain_keeps _ _ _ _ s (.refl s)
  | expEvent => exact execExpEvent_keeps _ s (.refl s)
  | svcClear => exact execSvcClear_keeps _ s (.refl s)
  | flitCrcError d link wire => exact execFlitCrcError_keeps d link wire s (.refl s)
  | wireLimit => exact execWireLimit_keeps _ _ _ s (.refl s)
  | wireChange => exact execWireChange_keeps _ _ s (.refl s)
  | dataFlit => exact execDataFlit_keeps _ _ _ s (.refl s)
  | nak => exact execNak_keeps _ _ s (.refl s)
  | replayTimeout => exact execReplayTimeout_keeps _ s (.refl s)
  | laneRetire => exact execLaneRetire_keeps _ _ s (.refl s)
  | laneLockLoss => exact execLaneLockLoss_keeps _ _ s (.refl s)
  | laneLimit => exact execLaneLimit_keeps _ _ _ s (.refl s)
  | retire => exact execRetire_keeps _ _ _ s (.refl s)
  | retireAck => exact execRetireAck_keeps _ _ _ s (.refl s)
  | laneRetired => exact execLaneRetired_keeps _ s (.refl s)
  | linkDown => exact execLinkDown_keeps _ s (.refl s)
  | nauloRetrain => exact execNauloRetrain_keeps _ _ s (.refl s)
  | ident => exact execIdent_keeps _ _ s (.refl s)
  | read => exact execRead_keeps _ _ s (.refl s)
  | write => exact execWrite_keeps _ _ _ s (.refl s)
  | add => exact execAdd_keeps _ _ _ _ s (.refl s)
  | sem => exact execSem_keeps _ _ _ _ s (.refl s)
  | readResp => exact execReadResp_keeps _ _ _ _ s (.refl s)
  | ack => exact execAck_keeps _ _ _ s (.refl s)
  | delay => exact execDelay_keeps _ _ s (.refl s)
  | syncInterval => exact execSyncInterval_keeps s (.refl s)
  | syncReq => exact execSyncReq_keeps _ _ s (.refl s)
  | syncResp => exact execSyncResp_keeps _ _ _ _ _ s (.refl s)
  | syncLost => exact execSyncLost_keeps s (.refl s)
  | segment => exact execSegment_keeps _ _ _ s (.refl s)
  | segAck p xid busy => exact execSegAck_keeps p xid busy s (.refl s)
  | busyResend => exact execBusyResend_keeps _ _ s (.refl s)
  | collTimeout => exact execCollTimeout_keeps _ s (.refl s)
  | errorRecord => exact execErrorRecord_keeps _ s (.refl s)
  | recordResend => exact execRecordResend_keeps _ s (.refl s)
  | handling => exact execHandling_keeps s (.refl s)
  | logSize => exact execLogSize_keeps _ s (.refl s)
  | heartbeat => exact execHeartbeat_keeps _ _ s (.refl s)
  | switchover => exact execSwitchover_keeps s (.refl s)
  | switchReq => exact execSwitchReq_keeps s (.refl s)
  | sentinelSample => exact execSentinelSample_keeps _ _ s (.refl s)
  | relock => exact execRelock_keeps _ s (.refl s)
  | fence => exact execFence_keeps _ s (.refl s)
  | coreFence => exact execCoreFence_keeps _ s (.refl s)
  | dieFence => exact execDieFence_keeps _ s (.refl s)
  | softReset => exact execSoftReset_keeps _ s (.refl s)
  | softResetDone => exact execSoftResetDone_keeps _ s (.refl s)
  | enable => exact execEnable_keeps _ _ s (.refl s)
  | errStatus => exact execErrStatus_keeps _ _ s (.refl s)
  | snapshot => exact execSnapshot_keeps _ s (.refl s)
  | checkClear => exact execCheckClear_keeps _ s (.refl s)
  | semData => exact execSemData_keeps _ _ s (.refl s)
  | semFill => exact execSemFill_keeps _ _ s (.refl s)
  | semFillDone => exact execSemFillDone_keeps _ s (.refl s)
  | batonPass => exact execBatonPass_keeps _ _ s (.refl s)
  | batonPop => exact execBatonPop_keeps _ _ s (.refl s)
  | dmaRetry => exact execDmaRetry_keeps _ _ s (.refl s)
  | resume => exact execResume_keeps _ _ s (.refl s)
  | traceRecord => exact execTraceRecord_keeps s (.refl s)
  | traceCtrl => exact execTraceCtrl_keeps _ s (.refl s)
  | traceBase => exact execTraceBase_keeps _ _ s (.refl s)
  | digest => exact execDigest_keeps _ s (.refl s)
  | verify => exact execVerify_keeps _ s (.refl s)
  | jobEnd => exact execJobEnd_keeps _ s (.refl s)
  | resetReq => exact execResetReq_keeps _ s (.refl s)
  | throttleEnd => exact execThrottleEnd_keeps s (.refl s)
  | feedRejoin => exact execFeedRejoin_keeps _ _ s (.refl s)
  | rearm => exact execRearm_keeps s (.refl s)
  | feedShare => exact execFeedShare_keeps _ s (.refl s)
  | attest => exact execAttest_keeps s (.refl s)
  | reenrol => exact execReenrol_keeps s (.refl s)
  | debugNonce => exact execDebugNonce_keeps s (.refl s)
  | debugUnlock => exact execDebugUnlock_keeps s (.refl s)
  | readLifetime => exact execReadLifetime_keeps s (.refl s)
  | clearLifetime => exact execClearLifetime_keeps s (.refl s)
  | lifetimeRecord => exact execLifetimeRecord_keeps s (.refl s)
  | presenceN => exact execPresenceN_keeps _ s (.refl s)
  | presenceWindowClose => exact execPresenceWindowClose_keeps s (.refl s)
  | presenceStuck => exact execPresenceStuck_keeps s (.refl s)
  | perstN => exact execPerstN_keeps _ s (.refl s)
  | hotReset => exact execHotReset_keeps s (.refl s)
  | hostLinkDown => exact execHostLinkDown_keeps s (.refl s)
  | hostFlr => exact execHostFlr_keeps s (.refl s)
  | configurationRequest => exact execConfigurationRequest_keeps _ _ s (.refl s)
  | bar0Access => exact execBar0Access_keeps _ _ _ s (.refl s)
  | bar2Access => exact execBar2Access_keeps _ _ s (.refl s)
  | bar2BaseHi => exact execBar2BaseHi_keeps _ s (.refl s)
  | msiXUnmask => exact execMsiXUnmask_keeps _ s (.refl s)
  | boardAlarm => exact execBoardAlarm_keeps s (.refl s)
  | alarmRelease => exact execAlarmRelease_keeps s (.refl s)
  | alarmStuck => exact execAlarmStuck_keeps s (.refl s)
  | tempSample => exact execTempSample_keeps _ _ s (.refl s)
  | registerWrite => exact execRegisterWrite_keeps _ _ _ s (.refl s)
  | ttParent => exact execTtParent_keeps _ s (.refl s)
  | spareSlots => exact execSpareSlots_keeps _ _ _ s (.refl s)
  | parkCfg => exact execParkCfg_keeps _ _ _ s (.refl s)
  | idle => exact execIdle_keeps _ _ s (.refl s)
  | protocol => exact execProtocol_keeps _ _ s (.refl s)
  | hostLinkUp => exact execHostLinkUp_keeps _ _ s (.refl s)
  | dbgTck => exact execDbgTck_keeps _ s (.refl s)
  -- The command left is SEAL, whose constructor has the name of a Lean command.
  | _ => exact execSeal_keeps _ s (.refl s)

/-- Every command but a reset, a loss of supply and one of start-up answers a state that `KeepsRest` allows. -/
theorem exec_keepsRest (c : Instr) (s : State) (up : startsUp c = false) : OutRest s (exec c s) := by
  by_cases h : c = .imageReplace
  · subst h; exact execImageReplace_rest s
  · by_cases hOwner : c = .imageReplaceOwner
    · subst hOwner; exact execImageReplaceOwner_rest s
    · exact (exec_keeps c s up h hOwner).rest

/-- A reset, a loss of supply and a command of start-up keep the queue and the invariant. -/
theorem exec_holds_of_startsUp (c : Instr) (s : State) (up : startsUp c = true) : OutHolds s (exec c s) := by
  cases c with
  | powerOn => exact execPowerOn_holds s
  | resetN => exact execResetN_holds _ s
  | deviceReset => exact execDeviceReset_holds s
  | brownOut => exact execBrownOut_holds _ s
  | rom => exact execRom_holds _ _ s
  | identity => exact execIdentity_holds s
  | image => exact execImage_holds s
  | configure => exact execConfigure_holds _ _ _ s
  | test => exact execTest_holds _ s
  | feedLost => exact execFeedLost_holds _ _ s
  | _ => cases up

/-- Every command keeps the queue and the invariant. -/
theorem exec_holds (c : Instr) (s : State) : OutHolds s (exec c s) := by
  cases up : startsUp c with
  | true => exact exec_holds_of_startsUp c s up
  | false => exact (exec_keepsRest c s up).holds

/-- The invariant does not speak of the queue. -/
theorem inv_pending {s : State} (l : List Instr) (i : s.Inv) : State.Inv { s with pending := l } := { i with mem := i.mem }

/-- The invariant does not speak of the time base. -/
theorem inv_idleStep {s : State} (i : s.Inv) : (idleStep s).Inv := { i with mem := i.mem }

/-- Settles O4: of a waiting command by what `exec` keeps, of an idle ns since no table changes. -/
theorem stepKeepsInvariant : Obligations.StepKeepsInvariant := by
  intro s t i h
  unfold step at h
  split at h
  · cases h; exact inv_idleStep i
  · exact (exec_holds _ _ t h).inv (inv_pending _ i)

/-- Settles O3: every table is empty after reset. -/
theorem resetMeetsInvariant : Obligations.ResetMeetsInvariant := by
  constructor <;> rfl

/-! ### Counters (R7) -/

/-- Settles O10: `bump` is one write of the counter table, of the saturated sum. -/
theorem countersSaturate : Obligations.CountersSaturate := fun s b k n i =>
  ⟨ctr_bump s b k n i, (CtrsBut.refl _ s).bump b k n i.counters (List.mem_singleton_self _), rfl⟩

/-! ### Frames of writes of registers alone -/

theorem OnlyRegs.refl (l : List Nat) (s : State) : OnlyRegs l s s := ⟨RegsBut.refl l s, rfl⟩

theorem OnlyRegs.trans {l : List Nat} {r s t : State} (h : OnlyRegs l r s) (g : OnlyRegs l s t) : OnlyRegs l r t :=
  ⟨h.regs.trans g.regs, by rw [g.rest, h.rest]⟩

theorem OnlyRegs.mono {l m : List Nat} {s t : State} (h : OnlyRegs l s t) (e : l ⊆ m) : OnlyRegs m s t :=
  ⟨h.regs.mono fun _ hx => e hx, h.rest⟩

theorem OnlyRegs.rput {l : List Nat} {s t : State} (b : Block) (off : Nat) (v : Word) (i : t.Inv) (m : b.reg off ∈ l)
    (h : OnlyRegs l s t) : OnlyRegs l s (rput t b off v) :=
  ⟨h.regs.rput b off v i.regs m, by rw [h.rest]; rfl⟩

/-- Writes of registers of one block, one for each entry of a list. -/
def rputAll {α : Type} (b : Block) (off : α → Nat) (v : State → α → Word) (l : List α) (s : State) : State :=
  l.foldl (fun s x => rput s b (off x) (v s x)) s

theorem inv_rputAll {α : Type} (b : Block) (off : α → Nat) (v : State → α → Word) (l : List α) {s : State} (i : s.Inv) :
    (rputAll b off v l s).Inv := by
  induction l generalizing s with
  | nil => exact i
  | cons x l ih => exact ih (inv_rput b _ _ i)

/-- Such writes change the registers of the list alone. -/
theorem rputAll_only {α : Type} (b : Block) (off : α → Nat) (v : State → α → Word) {m : List Nat} (l : List α) {s : State}
    (i : s.Inv) (h : ∀ x ∈ l, b.reg (off x) ∈ m) : OnlyRegs m s (rputAll b off v l s) := by
  induction l generalizing s with
  | nil => exact OnlyRegs.refl m s
  | cons x l ih =>
    have hx : OnlyRegs m s (Machine.rput s b (off x) (v s x)) := (OnlyRegs.refl m s).rput b _ _ i (h x List.mem_cons_self)
    exact hx.trans (ih (inv_rput b _ _ i) fun y hy => h y (List.mem_cons_of_mem x hy))

/-- Registers of one block at different offsets stand at different places. -/
theorem reg_inj (b : Block) (i j : Nat) : b.reg i = b.reg j ↔ i = j := by
  unfold Block.reg; omega

/-! ### ERR_STATUS (R49, R306) -/

/-- The register that is cleared as a whole with a page's captures: a core memory's PARITY_INFO. -/
def infoRegs : Block → List Nat
  | .mem _ _ => [Reg.Mem.PARITY_INFO]
  | _ => []

/-- The places of a page's capture registers and of PARITY_INFO. -/
def captureRegs (b : Block) : List Nat := (validRegs b).map (fun x => b.reg x.1) ++ (infoRegs b).map b.reg

/-- The captures of a page lose their VALID, and PARITY_INFO is cleared. -/
def clearCaptures (s : State) (b : Block) : State :=
  rputAll b id (fun _ _ => 0) (infoRegs b)
    (rputAll b Prod.fst (fun s x => withBit (rget s b x.1) x.2 false) (validRegs b) s)

theorem inv_rputBit {s : State} (b : Block) (off k : Nat) (v : Bool) (i : s.Inv) : (rputBit s b off k v).Inv :=
  inv_rput b off _ i

/-- A write of ERR_STATUS that leaves a bit set does nothing else; one that leaves none invalidates the captures. -/
theorem writeErrStatus_eq (s : State) (b : Block) (v : Word) (i : s.Inv) :
    writeErrStatus s b v =
      if rget s b Reg.Hdr.ERR_STATUS &&& ~~~ v = 0 then
        clearCaptures (rputBit (rput s b Reg.Hdr.ERR_STATUS (rget s b Reg.Hdr.ERR_STATUS &&& ~~~ v)) b
          Reg.Hdr.ERR_FIRST 15 false) b
      else rput s b Reg.Hdr.ERR_STATUS (rget s b Reg.Hdr.ERR_STATUS &&& ~~~ v) := by
  unfold writeErrStatus
  simp only [rget_rput _ _ _ _ i]
  split
  · cases b <;> rfl
  · rfl

theorem inv_clearCaptures {s : State} (b : Block) (i : s.Inv) : (clearCaptures s b).Inv :=
  inv_rputAll b _ _ _ (inv_rputAll b _ _ _ i)

theorem clearCaptures_only (s : State) (b : Block) (i : s.Inv) : OnlyRegs (captureRegs b) s (clearCaptures s b) := by
  have valid : ∀ x ∈ validRegs b, b.reg x.1 ∈ captureRegs b := fun x hx =>
    List.mem_append_left _ (List.mem_map_of_mem (f := fun x => b.reg x.1) hx)
  have info : ∀ off ∈ infoRegs b, b.reg (id off) ∈ captureRegs b := fun off hx =>
    List.mem_append_right _ (List.mem_map_of_mem hx)
  exact (rputAll_only b _ _ _ i valid).trans (rputAll_only b _ _ _ (inv_rputAll b _ _ _ i) info)

/-- The captures of a page lie beyond its common header. -/
theorem header_not_mem_captureRegs (b : Block) (off : Nat) (h : off < 0x100) : b.reg off ∉ captureRegs b := by
  have valid : (validRegs b).all (fun x => decide (0x100 ≤ x.1)) = true := by cases b <;> rfl
  have info : (infoRegs b).all (fun x => decide (0x100 ≤ x)) = true := by cases b <;> rfl
  simp only [List.all_eq_true, decide_eq_true_eq] at valid info
  intro hm
  simp only [captureRegs, List.mem_append, List.mem_map, reg_inj] at hm
  obtain ⟨x, hx, e⟩ | ⟨x, hx, e⟩ := hm
  · have := valid x hx; omega
  · have := info x hx; omega

/-- A register of the header reads as before the captures were cleared. -/
theorem rget_clearCaptures (s : State) (b : Block) (off : Nat) (i : s.Inv) (h : off < 0x100) :
    rget (clearCaptures s b) b off = rget s b off :=
  (clearCaptures_only s b i).regs b off (header_not_mem_captureRegs b off h)

theorem rget_clearCaptures_parityInfo (s : State) (c : CoreId) (m : CoreMem) (i : s.Inv) :
    rget (clearCaptures s (.mem c m)) (.mem c m) Reg.Mem.PARITY_INFO = 0 :=
  rget_rput _ _ _ _ (inv_rputAll _ _ _ _ i)

/-- What a write of ERR_STATUS leaves in ERR_STATUS. -/
theorem rget_writeErrStatus (s : State) (b : Block) (v : Word) (i : s.Inv) :
    rget (writeErrStatus s b v) b Reg.Hdr.ERR_STATUS = rget s b Reg.Hdr.ERR_STATUS &&& ~~~ v := by
  rw [writeErrStatus_eq s b v i]
  have i1 := inv_rput b Reg.Hdr.ERR_STATUS (rget s b Reg.Hdr.ERR_STATUS &&& ~~~ v) i
  split
  · rw [rget_clearCaptures _ _ _ (inv_rputBit _ _ _ _ i1) (by decide), rputBit, rget_rput_off _ _ _ _ _ i1 (by decide),
      rget_rput _ _ _ _ i]
  · exact rget_rput _ _ _ _ i

/-- With a bit of ERR_STATUS left, ERR_FIRST stands. -/
theorem rget_writeErrStatus_errFirst (s : State) (b : Block) (v : Word) (i : s.Inv)
    (h : rget s b Reg.Hdr.ERR_STATUS &&& ~~~ v ≠ 0) :
    rget (writeErrStatus s b v) b Reg.Hdr.ERR_FIRST = rget s b Reg.Hdr.ERR_FIRST := by
  rw [writeErrStatus_eq s b v i, if_neg h, rget_rput_off _ _ _ _ _ i (by decide)]

/-- With no bit of ERR_STATUS left, ERR_FIRST is not valid. -/
theorem rbit_writeErrStatus_errFirst (s : State) (b : Block) (v : Word) (i : s.Inv)
    (h : rget s b Reg.Hdr.ERR_STATUS &&& ~~~ v = 0) : rbit (writeErrStatus s b v) b Reg.Hdr.ERR_FIRST 15 = false := by
  have i1 := inv_rput b Reg.Hdr.ERR_STATUS (rget s b Reg.Hdr.ERR_STATUS &&& ~~~ v) i
  rw [writeErrStatus_eq s b v i, if_pos h, rbit, rget_clearCaptures _ _ _ (inv_rputBit _ _ _ _ i1) (by decide), rputBit,
    rget_rput _ _ _ _ i1, bit_withBit _ _ _ _ (by decide), if_pos rfl]

/-- With no bit of ERR_STATUS left, PARITY_INFO of a core memory is clear. -/
theorem rget_writeErrStatus_parityInfo (s : State) (c : CoreId) (m : CoreMem) (v : Word) (i : s.Inv)
    (h : rget s (.mem c m) Reg.Hdr.ERR_STATUS &&& ~~~ v = 0) :
    rget (writeErrStatus s (.mem c m) v) (.mem c m) Reg.Mem.PARITY_INFO = 0 := by
  rw [writeErrStatus_eq s _ v i, if_pos h]
  exact rget_clearCaptures_parityInfo _ c m (inv_rput _ _ _ (inv_rput _ _ _ i))

/-- A write of ERR_STATUS changes no register but it, ERR_FIRST and the page's captures. -/
theorem writeErrStatus_only (s : State) (b : Block) (v : Word) (i : s.Inv) :
    OnlyRegs ([b.reg Reg.Hdr.ERR_STATUS, b.reg Reg.Hdr.ERR_FIRST] ++ captureRegs b) s (writeErrStatus s b v) := by
  rw [writeErrStatus_eq s b v i]
  have i1 := inv_rput b Reg.Hdr.ERR_STATUS (rget s b Reg.Hdr.ERR_STATUS &&& ~~~ v) i
  have h1 := (OnlyRegs.refl ([b.reg Reg.Hdr.ERR_STATUS, b.reg Reg.Hdr.ERR_FIRST] ++ captureRegs b) s).rput b
    Reg.Hdr.ERR_STATUS (rget s b Reg.Hdr.ERR_STATUS &&& ~~~ v) i (by simp)
  split
  · exact (h1.rput b Reg.Hdr.ERR_FIRST _ i1 (by simp)).trans
      ((clearCaptures_only _ b (inv_rput _ _ _ i1)).mono (List.subset_append_right _ _))
  · exact h1

/-! ### The latches (R454, R455) -/

/-- A table after writes of `n` keys from `base` on; irreducible, or unification would run the writes. -/
@[irreducible] def tsetFrom (base n : Nat) (f : Nat → Nat) (l : List (Nat × Nat)) : List (Nat × Nat) :=
  (List.range n).foldl (fun l k => tset 0 l (base + k) (f k)) l

theorem tsetFrom_zero (base : Nat) (f : Nat → Nat) (l : List (Nat × Nat)) : tsetFrom base 0 f l = l := by
  unfold tsetFrom; rfl

theorem tsetFrom_succ (base n : Nat) (f : Nat → Nat) (l : List (Nat × Nat)) :
    tsetFrom base (n + 1) f l = tset 0 (tsetFrom base n f l) (base + n) (f n) := by
  unfold tsetFrom; simp [List.range_succ]

theorem keysRise_tsetFrom (base n : Nat) (f : Nat → Nat) (l : List (Nat × Nat)) (h : keysRise l = true) :
    keysRise (tsetFrom base n f l) = true := by
  induction n with
  | zero => rwa [tsetFrom_zero]
  | succ n ih => rw [tsetFrom_succ]; exact keysRise_tset _ _ _ _ ih

theorem tget_tsetFrom (base n : Nat) (f : Nat → Nat) (l : List (Nat × Nat)) (h : keysRise l = true) (k : Nat) (hk : k < n) :
    tget 0 (tsetFrom base n f l) (base + k) = f k := by
  induction n with
  | zero => exact absurd hk (Nat.not_lt_zero k)
  | succ n ih =>
    have rise := keysRise_tsetFrom base n f l h
    rw [tsetFrom_succ]
    by_cases e : k = n
    · subst e; exact tget_tset_rise _ _ _ 0 _ rise
    · rw [tget_tset_rise_ne _ _ _ _ _ (by omega) 0 _ rise, ih (by omega)]

theorem tget_tsetFrom_ne (base n : Nat) (f : Nat → Nat) (l : List (Nat × Nat)) (h : keysRise l = true) (j : Nat)
    (hj : j < base ∨ base + n ≤ j) : tget 0 (tsetFrom base n f l) j = tget 0 l j := by
  induction n with
  | zero => rw [tsetFrom_zero]
  | succ n ih =>
    rw [tsetFrom_succ, tget_tset_rise_ne _ _ _ _ _ (by omega) 0 _ (keysRise_tsetFrom base n f l h), ih (by omega)]

/-- The state with a page's 24 counters in its latched set. -/
def latchSet (s : State) (b : Block) : State := { s with latched := tsetFrom (b.page * 24) 24 (ctr s b) s.latched }

theorem inv_latched {s : State} (l : List (Nat × Nat)) (h : keysRise l = true) (i : s.Inv) :
    State.Inv { s with latched := l } := { i with mem := i.mem, latched := h }

theorem inv_latchSet {s : State} (b : Block) (i : s.Inv) : (latchSet s b).Inv :=
  inv_latched _ (keysRise_tsetFrom _ _ _ _ i.latched) i

/-- A latch while FREEZE is 1 does nothing. -/
theorem latchCounters_frozen (s : State) (b : Block) (tag : Tag) (h : rbit s b Reg.Hdr.LATCH_CTRL 1 = true) :
    latchCounters s b tag = s := by
  unfold latchCounters; rw [if_pos h]

/-- A latch while FREEZE is 0: the set, its tag, stride count and ns. -/
theorem latchCounters_eq (s : State) (b : Block) (tag : Tag) (h : rbit s b Reg.Hdr.LATCH_CTRL 1 = false) :
    latchCounters s b tag =
      rput (rput64 (rput (latchSet s b) b Reg.Hdr.LATCH_TAG (wordOf tag.toNat)) b Reg.Hdr.LATCH_STRIDE_LO
        Reg.Hdr.LATCH_STRIDE_HI s.stride.count) b Reg.Hdr.LATCH_NS (wordOf (nsSinceTick s)) := by
  unfold latchCounters; rw [if_neg (by simp [h])]; unfold latchSet tsetFrom; rfl

/-- The four registers of a latch. -/
theorem latchCounters_regs (s : State) (b : Block) (tag : Tag) (i : s.Inv) (h : rbit s b Reg.Hdr.LATCH_CTRL 1 = false) :
    rget (latchCounters s b tag) b Reg.Hdr.LATCH_TAG = wordOf tag.toNat ∧
    rget (latchCounters s b tag) b Reg.Hdr.LATCH_STRIDE_LO = wordOf s.stride.count ∧
    rget (latchCounters s b tag) b Reg.Hdr.LATCH_STRIDE_HI = wordHi s.stride.count ∧
    rget (latchCounters s b tag) b Reg.Hdr.LATCH_NS = wordOf (nsSinceTick s) := by
  have i0 := inv_latchSet b i
  have i1 := inv_rput b Reg.Hdr.LATCH_TAG (wordOf tag.toNat) i0
  have i2 := inv_rput b Reg.Hdr.LATCH_STRIDE_LO (wordOf s.stride.count) i1
  have i3 := inv_rput b Reg.Hdr.LATCH_STRIDE_HI (wordHi s.stride.count) i2
  rw [latchCounters_eq s b tag h, rput64]
  refine ⟨?_, ?_, ?_, rget_rput _ _ _ _ i3⟩
  · rw [rget_rput_off _ _ _ _ _ i3 (by decide), rget_rput_off _ _ _ _ _ i2 (by decide),
      rget_rput_off _ _ _ _ _ i1 (by decide), rget_rput _ _ _ _ i0]
  · rw [rget_rput_off _ _ _ _ _ i3 (by decide), rget_rput_off _ _ _ _ _ i2 (by decide), rget_rput _ _ _ _ i1]
  · rw [rget_rput_off _ _ _ _ _ i3 (by decide), rget_rput _ _ _ _ i2]

/-- A latch changes the latched set and those four registers. -/
theorem latchCounters_only (s : State) (b : Block) (tag : Tag) (i : s.Inv) (h : rbit s b Reg.Hdr.LATCH_CTRL 1 = false) :
    OnlyRegs [b.reg Reg.Hdr.LATCH_TAG, b.reg Reg.Hdr.LATCH_STRIDE_LO, b.reg Reg.Hdr.LATCH_STRIDE_HI, b.reg Reg.Hdr.LATCH_NS]
      (latchSet s b) (latchCounters s b tag) := by
  have i0 := inv_latchSet b i
  have i1 := inv_rput b Reg.Hdr.LATCH_TAG (wordOf tag.toNat) i0
  have i2 := inv_rput b Reg.Hdr.LATCH_STRIDE_LO (wordOf s.stride.count) i1
  have i3 := inv_rput b Reg.Hdr.LATCH_STRIDE_HI (wordHi s.stride.count) i2
  rw [latchCounters_eq s b tag h, rput64]
  exact ((((OnlyRegs.refl _ _).rput b _ _ i0 (by simp)).rput b _ _ i1 (by simp)).rput b _ _ i2 (by simp)).rput b _ _ i3
    (by simp)

/-- Two words read as the 64-bit number they were made from. -/
theorem wordOf_wordHi (n : Nat) : (wordOf n).toNat + 2 ^ 32 * (wordHi n).toNat = n % 2 ^ 64 := by
  simp only [wordOf, wordHi, BitVec.toNat_ofNat]; omega

/-! ### CHECK_CLEAR (R102) -/

/-- CHECK_CLEAR zeroes the two masks and the fault word. -/
theorem clearChecks_regs (s : State) (c : CoreId) (i : s.Inv) :
    rget (clearChecks s c) (.array c) Reg.Arr.CHECK_ROW_MASK = 0 ∧
    rget (clearChecks s c) (.array c) Reg.Arr.CHECK_COL_MASK = 0 ∧
    rget (clearChecks s c) (.array c) Reg.Arr.CHECK_FAULT = 0 := by
  have i1 := inv_rput (.array c) Reg.Arr.CHECK_ROW_MASK 0 i
  have i2 := inv_rput (.array c) Reg.Arr.CHECK_COL_MASK 0 i1
  simp only [clearChecks, List.foldl]
  refine ⟨?_, ?_, rget_rput _ _ _ _ i2⟩
  · rw [rget_rput_off _ _ _ _ _ i2 (by decide), rget_rput_off _ _ _ _ _ i1 (by decide), rget_rput _ _ _ _ i]
  · rw [rget_rput_off _ _ _ _ _ i2 (by decide), rget_rput _ _ _ _ i1]

theorem clearChecks_only (s : State) (c : CoreId) (i : s.Inv) :
    OnlyRegs [Block.reg (.array c) Reg.Arr.CHECK_ROW_MASK, Block.reg (.array c) Reg.Arr.CHECK_COL_MASK,
      Block.reg (.array c) Reg.Arr.CHECK_FAULT] s (clearChecks s c) :=
  rputAll_only (.array c) id (fun _ _ => 0) [Reg.Arr.CHECK_ROW_MASK, Reg.Arr.CHECK_COL_MASK, Reg.Arr.CHECK_FAULT] i
    (by simp)

/-! ### Writes of registers (R5, R39, R102) -/

/-- A write on a page that is not open. -/
theorem regWrite_closed (s : State) (b : Block) (off : Nat) (v : Word) (h : pageOpen s b = false) :
    regWrite s b off v = s := by
  simp [regWrite, h]

/-- A write on the page of a standby steward. -/
theorem regWrite_standby (s : State) (b : Block) (off : Nat) (v : Word) (h : pageOpen s b = true) (hs : shownBlock s b ≠ b) :
    regWrite s b off v = raise s (shownBlock s b) (standbyCause (shownBlock s b)) := by
  simp [regWrite, h, hs]

/-- A write on any other open page, of the header or of the page's own registers. -/
theorem regWrite_shown (s : State) (b : Block) (off : Nat) (v : Word) (h : pageOpen s b = true) (hs : shownBlock s b = b) :
    regWrite s b off v = if off < 0x100 then writeHeader s b off v else writeOwn s b off (byHost s b off v) := by
  simp [regWrite, h, hs]

/-- REGISTER_WRITE of a word of a page is `regWrite`. -/
theorem exec_registerWrite (s : State) (b : Block) (off : Nat) (v : Word) (ha : off % 4 = 0) (hp : off < 4096) :
    exec (.registerWrite b off v) s = .next (regWrite s b off v) := by
  show execRegisterWrite b off v s = _
  simp [execRegisterWrite, ha, hp]

/-- REGISTER_WRITE does nothing on a page that is not open. -/
theorem exec_registerWrite_closed (s : State) (b : Block) (off : Nat) (v : Word) (h : pageOpen s b = false) :
    exec (.registerWrite b off v) s = .next s := by
  show execRegisterWrite b off v s = _
  simp [execRegisterWrite, regWrite_closed s b off v h]

/-- The clauses of O12 on ERR_STATUS. -/
theorem errStatus_written (s : State) (b : Block) (v : Word) (i : s.Inv) : ∃ t, exec (.errStatus b v) s = .next t ∧
    rget t b Reg.Hdr.ERR_STATUS = (rget s b Reg.Hdr.ERR_STATUS &&& ~~~ v) ∧
    (rget t b Reg.Hdr.ERR_STATUS ≠ 0 → rget t b Reg.Hdr.ERR_FIRST = rget s b Reg.Hdr.ERR_FIRST) ∧
    (rget t b Reg.Hdr.ERR_STATUS = 0 → rbit t b Reg.Hdr.ERR_FIRST 15 = false) ∧
    (∀ c m, b = .mem c m → rget t b Reg.Hdr.ERR_STATUS = 0 → rget t b Reg.Mem.PARITY_INFO = 0) ∧
    OnlyRegs ([b.reg Reg.Hdr.ERR_STATUS, b.reg Reg.Hdr.ERR_FIRST] ++ captureRegs b) s t := by
  have status := rget_writeErrStatus s b v i
  refine ⟨writeErrStatus s b v, rfl, status, ?_, ?_, ?_, writeErrStatus_only s b v i⟩
  · rw [status]; exact rget_writeErrStatus_errFirst s b v i
  · rw [status]; exact rbit_writeErrStatus_errFirst s b v i
  · rintro c m rfl
    rw [status]; exact rget_writeErrStatus_parityInfo s c m v i

/-- The clause of O12 on SNAPSHOT. -/
theorem snapshot_taken (s : State) (b : Block) (i : s.Inv) (h : rbit s b Reg.Hdr.LATCH_CTRL 1 = false) :
    ∃ t, exec (.snapshot b) s = .next t ∧
    (∀ k, k < 24 → tget 0 t.latched (b.cnt k) = ctr s b k) ∧
    (∀ (c : Block) (k : Nat), c.page ≠ b.page → k < 24 → tget 0 t.latched (c.cnt k) = tget 0 s.latched (c.cnt k)) ∧
    rget t b Reg.Hdr.LATCH_TAG = 0 ∧ rget64 t b Reg.Hdr.LATCH_STRIDE_LO Reg.Hdr.LATCH_STRIDE_HI = s.stride.count % 2 ^ 64 ∧
    rget t b Reg.Hdr.LATCH_NS = wordOf (nsSinceTick s) ∧
    RegsBut [b.reg Reg.Hdr.LATCH_TAG, b.reg Reg.Hdr.LATCH_STRIDE_LO, b.reg Reg.Hdr.LATCH_STRIDE_HI, b.reg Reg.Hdr.LATCH_NS] s t ∧
    t = { s with regs := t.regs, latched := t.latched } := by
  obtain ⟨tag, lo, hi, ns⟩ := latchCounters_regs s b 0 i h
  obtain ⟨regs, rest⟩ := latchCounters_only s b 0 i h
  have latched : (latchCounters s b 0).latched = tsetFrom (b.page * 24) 24 (ctr s b) s.latched :=
    congrArg State.latched rest
  refine ⟨latchCounters s b 0, rfl, ?_, ?_, tag, ?_, ns, ((RegsBut.refl _ s).regs (u := latchSet s b) rfl).trans regs, ?_⟩
  · intro k hk
    rw [latched]; exact tget_tsetFrom _ _ _ _ i.latched k hk
  · intro c k hc hk
    rw [latched]; exact tget_tsetFrom_ne _ _ _ _ i.latched _ (by unfold Block.cnt; omega)
  · rw [rget64, lo, hi, wordOf_wordHi]
  · rw [latched]; exact rest

/-- Settles O12, clause by clause from the laws of `writeErrStatus`, `latchCounters`, `clearChecks` and `regWrite`. -/
theorem headerRegistersAreWritten : Obligations.HeaderRegistersAreWritten := by
  refine ⟨fun s b v i => ?_, snapshot_taken, ?_, fun s c i => ⟨clearChecks s c, rfl, ?_⟩, ?_, ?_, exec_registerWrite_closed⟩
  · obtain ⟨t, run, status, first, valid, info, only⟩ := errStatus_written s b v i
    exact ⟨t, run, status, first, valid, info, by cases b <;> exact only⟩
  · intro s b h
    exact congrArg Host.Outcome.next (latchCounters_frozen s b 0 h)
  · obtain ⟨row, col, fault⟩ := clearChecks_regs s c i
    exact ⟨row, col, fault, clearChecks_only s c i⟩
  · intro s b off v h hs ha hp
    rw [exec_registerWrite s b off v ha hp, regWrite_shown s b off v h hs]
    exact ⟨fun lt => by rw [if_pos lt], fun ge => by rw [if_neg (Nat.not_lt.mpr ge)]⟩
  · intro s b off v h hs ha hp
    rw [exec_registerWrite s b off v ha hp, regWrite_standby s b off v h hs]

end Sys2Proof.Machine

/-!
PROOFS. Pages and the blocks that they belong to; what keeps the counters of a page from falling.
-/
namespace Sys2Proof.Machine

/-! ### Pages of register space (R37, R38, R39, R528) -/

/-- Page `k` of a core belongs to the `k`-th of the core's blocks (R38). -/
theorem blockAt_core (c : CoreId) (k : Nat) (hk : k < 16) :
    blockAt (c.val / 8 * 256 + (16 * (c.val % 8) + k)) = some (coreBlock c k) := by
  have hc := c.isLt
  have die : (c.val / 8 * 256 + (16 * (c.val % 8) + k)) / 256 = c.val / 8 := by omega
  have page : (c.val / 8 * 256 + (16 * (c.val % 8) + k)) % 256 = 16 * (c.val % 8) + k := by omega
  have core : Fin.ofNat 128 (8 * (c.val / 8) + (16 * (c.val % 8) + k) / 16) = c := Fin.ext (by rw [Fin.val_ofNat]; omega)
  have block : (16 * (c.val % 8) + k) % 16 = k := by omega
  unfold blockAt
  simp only [die, page]
  rw [if_neg (by omega), if_neg (by omega), if_neg (by omega), if_neg (by simp; omega), if_pos (by omega),
    if_pos (by omega), core, block]

theorem coreBlock_dma (c : CoreId) (ch : Fin 8) : coreBlock c (8 + ch.val) = .dma c ch := by
  fin_cases ch <;> rfl

theorem page_coreBlock (c : CoreId) (k : Nat) (hk : k < 16) :
    (coreBlock c k).page = c.val / 8 * 256 + (16 * (c.val % 8) + k) := by
  by_cases h : k < 8
  · interval_cases k <;> rfl
  · have := coreBlock_dma c ⟨k - 8, by omega⟩
    rw [show 8 + (k - 8) = k by omega] at this
    rw [this]
    simp only [Block.page, Block.place]
    omega

/-- The four pages of a die's own blocks follow one another. -/
theorem page_dieBlock (d : DieId) (k : Nat) (b : Block) (h : dieBlock d k = some b) :
    b.page = (Block.proxy d).page + k := by
  unfold dieBlock at h
  split at h <;> cases h
  all_goals
    simp only [Block.page, Block.place]
    split_ifs <;> omega

theorem page_proxy (d : DieId) (h : d.val < 30) : (Block.proxy d).page = d.val * 256 + 0xF0 := by
  have h30 : d.val ≠ 30 := by omega
  have h32 : d.val ≠ 32 := by omega
  simp [Block.page, Block.place, h30, h32]

/-- The block of every block's page is that block. -/
theorem blockAt_page (b : Block) (h : hasPage b = true) : blockAt b.page = some b := by
  cases b with
  | cp c => exact blockAt_core c 0 (by decide)
  | gme c => exact blockAt_core c 1 (by decide)
  | vu c => exact blockAt_core c 2 (by decide)
  | array c => exact blockAt_core c 3 (by decide)
  | mem c m =>
    cases m with
    | wm => exact blockAt_core c 4 (by decide)
    | am => exact blockAt_core c 5 (by decide)
    | pm => exact blockAt_core c 6 (by decide)
  | sem c => exact blockAt_core c 7 (by decide)
  | dma c ch =>
    have := blockAt_core c (8 + ch.val) (by omega)
    rwa [coreBlock_dma, ← Nat.add_assoc (16 * (c.val % 8))] at this
  | larder d => revert d; decide
  | dir d => revert d; decide
  | hbm s => revert s; decide
  | adder s => revert s; decide
  | hub m => clear h; revert m; decide
  | host => decide
  | cxl p => revert p; decide
  | naulo p => revert p; decide
  | relay e => revert e; decide
  | slow p => revert p; decide
  | mgmt k => revert k; decide
  | stride k => revert k; decide
  | errq k => revert k; decide
  | security k => revert k; decide
  | proxy d => revert d; decide
  | router d => revert d; decide
  | clock d => revert d; decide
  | sensors d => revert d; decide
  | glob p =>
    have hp := p.isLt
    have die : (31 * 256 + p.val) / 256 = 31 := by omega
    have page : (31 * 256 + p.val) % 256 = p.val := by omega
    have alloc : globAllocated p.val = true := h
    simp [blockAt, Block.page, Block.place, die, page, alloc]

/-- The page of a page's block is that page. -/
theorem page_of_blockAt (n : Nat) (b : Block) (h : blockAt n = some b) : b.page = n := by
  unfold blockAt at h
  simp only [] at h
  have place : n = n / 256 * 256 + n % 256 := by omega
  have pgLt : n % 256 < 256 := by omega
  generalize n / 256 = die, n % 256 = pg at h place pgLt
  subst place
  rcases ite_eq_iff.mp h with ⟨_, h⟩ | ⟨_, h⟩
  · cases h
  rcases ite_eq_iff.mp h with ⟨_, h⟩ | ⟨_, h⟩
  · -- the global pages
    rcases ite_eq_iff.mp h with ⟨_, h⟩ | ⟨_, h⟩ <;> cases h
    simp only [Block.page, Block.place, Fin.val_ofNat]; omega
  rcases ite_eq_iff.mp h with ⟨_, h⟩ | ⟨_, h⟩
  · -- the steward dies: the stewards' pages, then the die's own blocks of SA and of SB
    rcases ite_eq_iff.mp h with ⟨steward, h⟩ | ⟨_, h⟩
    · simp only [Bool.or_eq_true, Bool.and_eq_true, decide_eq_true_eq] at steward
      have four : pg % 4 = 0 ∨ pg % 4 = 1 ∨ pg % 4 = 2 ∨ pg % 4 = 3 := by omega
      rcases four with e | e | e | e <;> rw [e] at h <;> cases h <;>
        simp only [Block.page, Block.place, Fin.val_ofNat] <;> omega
    have sa : (Block.proxy 30).page = 30 * 256 + 0x70 := rfl
    have sb : (Block.proxy 32).page = 30 * 256 + 0xF0 := rfl
    rcases ite_eq_iff.mp h with ⟨own, h⟩ | ⟨_, h⟩
    · simp only [Bool.and_eq_true, decide_eq_true_eq] at own
      rw [page_dieBlock _ _ _ h]; omega
    rcases ite_eq_iff.mp h with ⟨own, h⟩ | ⟨_, h⟩
    · simp only [Bool.and_eq_true, decide_eq_true_eq] at own
      rw [page_dieBlock _ _ _ h]; omega
    · cases h
  rcases ite_eq_iff.mp h with ⟨own, h⟩ | ⟨_, h⟩
  · -- a die's own blocks
    simp only [Bool.and_eq_true, decide_eq_true_eq] at own
    have die_val : (Fin.ofNat 33 die).val = die := by rw [Fin.val_ofNat]; omega
    rw [page_dieBlock _ _ _ h, page_proxy _ (by omega), die_val]
    omega
  rcases ite_eq_iff.mp h with ⟨_, h⟩ | ⟨_, h⟩
  · -- core dies
    rcases ite_eq_iff.mp h with ⟨_, h⟩ | ⟨_, h⟩ <;> cases h
    rw [page_coreBlock _ _ (by omega), Fin.val_ofNat]
    omega
  rcases ite_eq_iff.mp h with ⟨_, h⟩ | ⟨_, h⟩
  · -- larder dies
    rcases ite_eq_iff.mp h with ⟨_, h⟩ | ⟨_, h⟩
    · cases h; simp only [Block.page, Block.place, Fin.val_ofNat]; omega
    rcases ite_eq_iff.mp h with ⟨_, h⟩ | ⟨_, h⟩ <;> cases h
    simp only [Block.page, Block.place, Fin.val_ofNat]; omega
  rcases ite_eq_iff.mp h with ⟨_, h⟩ | ⟨_, h⟩
  · -- hub dies
    rcases ite_eq_iff.mp h with ⟨_, h⟩ | ⟨_, h⟩
    · cases h; simp only [Block.page, Block.place, Fin.val_ofNat]; omega
    rcases ite_eq_iff.mp h with ⟨_, h⟩ | ⟨_, h⟩
    · cases h; simp only [Block.page, Block.place, Fin.val_ofNat]; omega
    rcases ite_eq_iff.mp h with ⟨_, h⟩ | ⟨_, h⟩ <;> cases h
    simp only [Block.page, Block.place, Fin.val_ofNat]; omega
  -- port dies
  rcases ite_eq_iff.mp h with ⟨_, h⟩ | ⟨_, h⟩
  · rcases ite_eq_iff.mp h with ⟨_, h⟩ | ⟨_, h⟩ <;> cases h
    simp only [Block.page, Block.place]; omega
  rcases ite_eq_iff.mp h with ⟨_, h⟩ | ⟨_, h⟩
  · cases h; simp only [Block.page, Block.place, Fin.val_ofNat]; omega
  rcases ite_eq_iff.mp h with ⟨naulo, h⟩ | ⟨_, h⟩
  · simp only [Bool.and_eq_true, decide_eq_true_eq] at naulo
    cases h; simp only [Block.page, Block.place, Fin.val_ofNat]; omega
  rcases ite_eq_iff.mp h with ⟨relay, h⟩ | ⟨_, h⟩
  · simp only [Bool.and_eq_true, decide_eq_true_eq] at relay
    cases h; simp only [Block.page, Block.place, Fin.val_ofNat]; omega
  rcases ite_eq_iff.mp h with ⟨_, h⟩ | ⟨_, h⟩ <;> cases h
  simp only [Block.page, Block.place, Fin.val_ofNat]; omega

/-- Settles O8: each block's page by `blockAt_page`, each page's block by `page_of_blockAt`. -/
theorem pagesNameTheirBlocks : Obligations.PagesNameTheirBlocks := ⟨blockAt_page, page_of_blockAt⟩

/-! ### Counters never fall (R43, R453, R477) -/

/-- The pages that the stewards keep alike are pages 0–3 and 0x80–0x83 of die 30. -/
theorem page_of_not_stewardPage (b : Block) (h : stewardPage b = false) :
    b.page < 0x1E00 ∨ 0x1E04 ≤ b.page ∧ b.page < 0x1E80 ∨ 0x1E84 ≤ b.page := by
  cases b with
  | mgmt | stride | errq | security => cases h
  | mem c m => cases m <;> simp only [Block.page, Block.place] <;> omega
  | proxy d => revert d; decide
  | router d => revert d; decide
  | clock d => revert d; decide
  | sensors d => revert d; decide
  | _ => simp only [Block.page, Block.place]; omega

/-- A counter of any other page is not one that a switch-over copies. -/
theorem stewardKey_cnt_of_not_stewardPage (b : Block) (k : Nat) (h : stewardPage b = false) (hk : k < 24) :
    stewardKey (b.cnt k) = false := by
  have pages := page_of_not_stewardPage b h
  have page : b.cnt k / 24 = b.page := by unfold Block.cnt; omega
  simp only [stewardKey, page, Block.page, Block.place] at pages ⊢
  simp
  omega

/-- Settles O6: every such command keeps the counters outside the stewards' pages from falling (`exec_keepsRest`). -/
theorem countersNeverFall : Obligations.CountersNeverFall := fun c s t b k i run up page hk =>
  (exec_keepsRest c s up t run).mono i _ (stewardKey_cnt_of_not_stewardPage b k page hk)

end Sys2Proof.Machine

/-!
PROOFS. The interleaves of the larder and of HBM: a granule's place among the dies or pseudo-channels is its number with two
fields of the row mixed in, and mixing them in again takes them out.
-/
namespace Sys2Proof.Machine

/-! ### Mixing row bits into a granule's place (R27, R340, R341) -/

/-- A place `p` among `m` with the two lowest fields of row `h` mixed in. -/
def mixed (m p h : Nat) : Nat := p ^^^ (h % m) ^^^ (h / m % m)

theorem mixed_lt (k p h : Nat) (hp : p < 2 ^ k) : mixed (2 ^ k) p h < 2 ^ k :=
  Nat.xor_lt_two_pow (Nat.xor_lt_two_pow hp (Nat.mod_lt _ (Nat.two_pow_pos k))) (Nat.mod_lt _ (Nat.two_pow_pos k))

/-- Mixing twice changes nothing. -/
theorem mixed_mixed (m p h : Nat) : mixed m (mixed m p h) h = p := by
  unfold mixed
  rw [Nat.xor_right_comm (p ^^^ h % m), Nat.xor_assoc p, Nat.xor_self, Nat.xor_zero, Nat.xor_assoc, Nat.xor_self,
    Nat.xor_zero]

/-! ### The larder (R27) -/

theorem larderPlace_eq (o : Nat) :
    larderPlace o = (Fin.ofNat 8 (mixed 8 (o / 4096 % 8) (o / 4096 / 8)), o / 4096 / 8 * 4096 + o % 4096) := by
  simp only [larderPlace, mixed, Nat.div_div_eq_div_mul]

theorem larderAddr_eq (d : LarderId) (off : Nat) :
    larderAddr d off = larderBase + (off / 4096 * 8 + mixed 8 d.val (off / 4096)) * 4096 + off % 4096 := rfl

/-- An interleaved offset has its place within a die, and is found again from it. -/
theorem larderAddr_larderPlace (o : Nat) (h : o < 8 * larderDieSize) :
    (larderPlace o).2 < larderDieSize ∧ larderAddr (larderPlace o).1 (larderPlace o).2 = larderBase + o := by
  have size : larderDieSize = 0x53000000 := rfl
  have lt : mixed 8 (o / 4096 % 8) (o / 4096 / 8) < 8 := mixed_lt 3 _ _ (Nat.mod_lt _ (by decide))
  have row : (o / 4096 / 8 * 4096 + o % 4096) / 4096 = o / 4096 / 8 := by omega
  have die : (Fin.ofNat 8 (mixed 8 (o / 4096 % 8) (o / 4096 / 8))).val = mixed 8 (o / 4096 % 8) (o / 4096 / 8) :=
    Nat.mod_eq_of_lt lt
  rw [larderAddr_eq, larderPlace_eq]
  simp only [die, row, mixed_mixed]
  omega

/-- A place within a die has its interleaved address, and is found again from it. -/
theorem larderPlace_larderAddr (d : LarderId) (off : Nat) (h : off < larderDieSize) :
    larderAddr d off < larderBase + 8 * larderDieSize ∧ larderPlace (larderAddr d off - larderBase) = (d, off) := by
  have lt : mixed 8 d.val (off / 4096) < 8 := mixed_lt 3 _ _ d.isLt
  have size : larderDieSize = 0x53000000 := rfl
  rw [larderAddr_eq]
  generalize hm : mixed 8 d.val (off / 4096) = m at lt
  have granule : (larderBase + (off / 4096 * 8 + m) * 4096 + off % 4096 - larderBase) / 4096 = off / 4096 * 8 + m := by omega
  have place : (off / 4096 * 8 + m) % 8 = m := by omega
  have row : (off / 4096 * 8 + m) / 8 = off / 4096 := by omega
  refine ⟨by omega, ?_⟩
  rw [larderPlace_eq, granule, place, row, ← hm, mixed_mixed]
  exact Prod.ext (Fin.ext (Nat.mod_eq_of_lt d.isLt)) (by simp only []; omega)

/-! ### HBM (R339, R340, R341) -/

theorem hbmPlace_shared (s : State) (a : Nat) (h : a < sharedBytes s) :
    hbmPlace s a = (Fin.ofNat 16 (mixed 512 (a / 256 % 512) (a / 256 / 512) / 32),
      Fin.ofNat 32 (mixed 512 (a / 256 % 512) (a / 256 / 512)), a / 256 / 512 * 256 + a % 256) := by
  have range : hubRange s a = none := if_pos (.inl h)
  simp only [hbmPlace, range, mixed, Nat.div_div_eq_div_mul]

theorem hbmAddr_shared (s : State) (st : StackId) (pc : Fin 32) (off : Nat) (h : off < 0x4000000 * sharedQ s) :
    hbmAddr s st pc off = (off / 256 * 512 + mixed 512 (st.val * 32 + pc.val) (off / 256)) * 256 + off % 256 := if_pos h

/-- An address in the shared range has its place in a pseudo-channel, and is found again from it (R340). -/
theorem hbmAddr_hbmPlace_shared (s : State) (a : Nat) (q : sharedQ s ≤ 12) (h : a < sharedBytes s) :
    (hbmPlace s a).2.2 < 0x30000000 ∧ hbmAddr s (hbmPlace s a).1 (hbmPlace s a).2.1 (hbmPlace s a).2.2 = a := by
  have lt : mixed 512 (a / 256 % 512) (a / 256 / 512) < 512 :=
    mixed_lt 9 _ _ (Nat.mod_lt _ (by decide))
  have row : (a / 256 / 512 * 256 + a % 256) / 256 = a / 256 / 512 := by omega
  have off : a / 256 / 512 * 256 + a % 256 < 0x4000000 * sharedQ s := by unfold sharedBytes at h; omega
  rw [hbmPlace_shared s a h]
  generalize hm : mixed 512 (a / 256 % 512) (a / 256 / 512) = m at lt
  have channel : m / 32 % 16 * 32 + m % 32 = m := by omega
  simp only [hbmAddr_shared s _ _ _ off, row, Fin.val_ofNat, channel]
  rw [← hm, mixed_mixed]
  omega

theorem hbmPlace_hub (s : State) (a : Nat) (h : sharedBytes s ≤ a) (ha : a < hbmSize) :
    let o := (a - sharedBytes s) % hubBytes s
    let m := mixed 128 (o / 256 % 128) (o / 256 / 128)
    hbmPlace s a = (Fin.ofNat 16 (4 * (Fin.ofNat 4 ((a - sharedBytes s) / hubBytes s)).val + m / 32), Fin.ofNat 32 m,
      0x4000000 * sharedQ s + o / 256 / 128 * 256 + o % 256) := by
  have range : hubRange s a = some (Fin.ofNat 4 ((a - sharedBytes s) / hubBytes s)) := if_neg (by omega)
  simp only [hbmPlace, range, mixed, Nat.div_div_eq_div_mul]

theorem hbmAddr_hub (s : State) (st : StackId) (pc : Fin 32) (o : Nat) :
    hbmAddr s st pc (0x4000000 * sharedQ s + o) = sharedBytes s + st.val / 4 * hubBytes s +
      (o / 256 * 128 + mixed 128 (st.val % 4 * 32 + pc.val) (o / 256)) * 256 + o % 256 := by
  unfold hbmAddr
  simp only [Nat.add_sub_cancel_left]
  exact if_neg (by omega)

/-- An address in a hub's range has its place in a pseudo-channel of that hub, and is found again from it (R341). -/
theorem hbmAddr_hbmPlace_hub (s : State) (a : Nat) (q : sharedQ s ≤ 12) (h : sharedBytes s ≤ a) (ha : a < hbmSize) :
    (hbmPlace s a).2.2 < 0x30000000 ∧ hbmAddr s (hbmPlace s a).1 (hbmPlace s a).2.1 (hbmPlace s a).2.2 = a := by
  have total : sharedBytes s + 4 * hubBytes s = hbmSize := by unfold sharedBytes hubBytes hbmSize; omega
  have hubLt : (a - sharedBytes s) / hubBytes s < 4 := Nat.div_lt_of_lt_mul (by omega)
  have oLt : (a - sharedBytes s) % hubBytes s < hubBytes s := Nat.mod_lt _ (by omega)
  have split := Nat.div_add_mod' (a - sharedBytes s) (hubBytes s)
  rw [hbmPlace_hub s a h ha]
  generalize (a - sharedBytes s) / hubBytes s = hub at hubLt split
  generalize (a - sharedBytes s) % hubBytes s = o at oLt split
  have lt : mixed 128 (o / 256 % 128) (o / 256 / 128) < 128 :=
    mixed_lt 7 _ _ (Nat.mod_lt _ (by decide))
  have row : (o / 256 / 128 * 256 + o % 256) / 256 = o / 256 / 128 := by omega
  generalize hm : mixed 128 (o / 256 % 128) (o / 256 / 128) = m at lt
  have stack : (4 * (hub % 4) + m / 32) % 16 / 4 = hub := by omega
  have channel : (4 * (hub % 4) + m / 32) % 16 % 4 * 32 + m % 32 = m := by omega
  simp only [Nat.add_assoc (0x4000000 * sharedQ s), hbmAddr_hub, row, Fin.val_ofNat, stack, channel]
  rw [← hm, mixed_mixed]
  unfold hubBytes at oLt
  omega

/-- An HBM address has its place in a pseudo-channel, and is found again from it. -/
theorem hbmAddr_hbmPlace (s : State) (a : Nat) (q : sharedQ s ≤ 12) (ha : a < hbmSize) :
    (hbmPlace s a).2.2 < 0x30000000 ∧ hbmAddr s (hbmPlace s a).1 (hbmPlace s a).2.1 (hbmPlace s a).2.2 = a := by
  by_cases h : a < sharedBytes s
  · exact hbmAddr_hbmPlace_shared s a q h
  · exact hbmAddr_hbmPlace_hub s a q (by omega) ha

/-- Settles O9: mixing the row bits in a second time takes them out again. -/
theorem interleavesInvert : Obligations.InterleavesInvert := by
  refine ⟨larderAddr_larderPlace, larderPlace_larderAddr, fun s a off st pc q ha place => ?_⟩
  have := hbmAddr_hbmPlace s a q ha
  rwa [place] at this

end Sys2Proof.Machine

/-!
PROOFS. A step and the state after reset; what an occurrence of a cause leaves; descriptor tables, allocations and
directory writes.
-/
namespace Sys2Proof.Machine

/-! ### The front of the queue, and reset (R24, R477) -/

/-- Settles O1: the two branches of `step`. -/
theorem stepRunsFrontCommand : Obligations.StepRunsFrontCommand := by
  constructor
  · intro s c rest h
    unfold step
    rw [h]
  · intro s h
    unfold step
    split
    · rfl
    · rename_i front
      rw [h] at front
      cases front

/-- Settles O2: every table of `State.reset` is empty, so each entry reads its unlisted value. -/
theorem resetLeaves : Obligations.ResetLeaves :=
  ⟨fun _ _ => rfl, fun _ _ => rfl, fun _ _ => ⟨rfl, rfl⟩, fun _ _ => rfl, fun _ => rfl, fun _ _ _ => rfl, fun _ => rfl,
    rfl, rfl, rfl, rfl, rfl, rfl, by decide, by decide, by decide, by decide⟩

/-! ### Causes (R48, R49, R418, R421) -/

/-- Whether an occurrence of a cause sends a record, in the words of R48. -/
theorem alwaysSent_or_enabled (s : State) (b : Block) (cause : Nat) :
    (alwaysSent cause || rbit s b Reg.Hdr.ERR_ENABLE cause) = true ↔
      (cause = 2 ∨ cause = 5 ∨ cause = 7 ∨ rbit s b Reg.Hdr.ERR_ENABLE cause = true) := by
  simp only [alwaysSent, Bool.or_eq_true, decide_eq_true_eq, or_assoc]

/-- Setting a cause leaves ERR_ENABLE. -/
theorem rbit_setCause_enable (s : State) (b : Block) (cause k : Nat) (tag : Tag) (i : s.Inv) :
    rbit (setCause s b cause tag) b Reg.Hdr.ERR_ENABLE k = rbit s b Reg.Hdr.ERR_ENABLE k := by
  obtain ⟨_, _, _, only, _, _⟩ := setCause_spec s b cause tag i
  unfold rbit
  rw [only b Reg.Hdr.ERR_ENABLE (by simp [reg_inj])]

/-- A cause that sends a record. -/
theorem raiseWith_sent (s : State) (b : Block) (cause : Nat) (o : Occur) (i : s.Inv)
    (h : cause = 2 ∨ cause = 5 ∨ cause = 7 ∨ rbit s b Reg.Hdr.ERR_ENABLE cause = true) :
    raiseWith s b cause o = sendRecord (setCause s b cause o.tag) b cause o none := by
  unfold raiseWith
  rw [← rbit_setCause_enable s b cause cause o.tag i] at h
  exact if_pos ((alwaysSent_or_enabled _ b cause).mpr h)

/-- A cause that sends none. -/
theorem raiseWith_unsent (s : State) (b : Block) (cause : Nat) (o : Occur) (i : s.Inv)
    (h : ¬ (cause = 2 ∨ cause = 5 ∨ cause = 7 ∨ rbit s b Reg.Hdr.ERR_ENABLE cause = true)) :
    raiseWith s b cause o = setCause s b cause o.tag := by
  unfold raiseWith
  rw [← rbit_setCause_enable s b cause cause o.tag i] at h
  exact if_neg (mt (alwaysSent_or_enabled _ b cause).mp h)

/-- Sending a record changes no register. -/
theorem sendRecord_regs (s : State) (b : Block) (cause : Nat) (o : Occur) (cls : Option Nat) (i : s.Inv) :
    (sendRecord s b cause o cls).regs = s.regs := by
  obtain ⟨_, _, _, rest, _⟩ := sendRecord_spec s b cause o cls i
  rw [rest]

/-- The registers after an occurrence are those after setting its cause. -/
theorem raiseWith_regs (s : State) (b : Block) (cause : Nat) (o : Occur) (i : s.Inv) :
    (raiseWith s b cause o).regs = (setCause s b cause o.tag).regs := by
  obtain ⟨_, _, _, _, _, j⟩ := setCause_spec s b cause o.tag i
  unfold raiseWith
  dsimp only
  split
  · exact sendRecord_regs _ b cause o none j
  · rfl

theorem rget_raiseWith (s : State) (b c : Block) (cause off : Nat) (o : Occur) (i : s.Inv) :
    rget (raiseWith s b cause o) c off = rget (setCause s b cause o.tag) c off := by
  unfold rget; rw [raiseWith_regs s b cause o i]

/-- ERR_FIRST as it is loaded: VALID, the cause and the tag. -/
theorem errFirst_loaded (tag : Tag) (cause : Nat) (h : cause < 32) :
    let w := wordOf (tag.toNat * 65536 + 32768 + cause)
    bit w 15 = true ∧ bits w 14 0 = cause ∧ bits w 31 16 = tag.toNat := by
  have ht := tag.isLt
  refine ⟨?_, ?_, ?_⟩
  · rw [bit_wordOf _ _ (by decide), Nat.testBit_eq_decide_div_mod_eq, decide_eq_true_eq]; omega
  · rw [bits_wordOf _ _ _ (by decide) (by decide)]; omega
  · rw [bits_wordOf _ _ _ (by decide) (by decide)]; omega

/-- What an occurrence leaves in ERR_STATUS, ERR_COUNT and ERR_FIRST, and in no other register. -/
theorem raiseWith_header (s : State) (b : Block) (cause : Nat) (o : Occur) (i : s.Inv) (h : cause < 32) :
    let t := raiseWith s b cause o
    (∀ k, k < 32 → rbit t b Reg.Hdr.ERR_STATUS k = (decide (k = cause) || rbit s b Reg.Hdr.ERR_STATUS k)) ∧
    (rget t b Reg.Hdr.ERR_COUNT).toNat = min ((rget s b Reg.Hdr.ERR_COUNT).toNat + 1) (2 ^ 32 - 1) ∧
    (rbit s b Reg.Hdr.ERR_FIRST 15 = true → rget t b Reg.Hdr.ERR_FIRST = rget s b Reg.Hdr.ERR_FIRST) ∧
    (rbit s b Reg.Hdr.ERR_FIRST 15 = false →
      rbit t b Reg.Hdr.ERR_FIRST 15 = true ∧ rfield t b Reg.Hdr.ERR_FIRST 14 0 = cause ∧
      rfield t b Reg.Hdr.ERR_FIRST 31 16 = o.tag.toNat) ∧
    RegsBut [b.reg Reg.Hdr.ERR_STATUS, b.reg Reg.Hdr.ERR_COUNT, b.reg Reg.Hdr.ERR_FIRST] s t := by
  obtain ⟨status, count, first, only, _, _⟩ := setCause_spec s b cause o.tag i
  simp only [rbit, rfield, rget_raiseWith s b b cause _ o i, status, count]
  refine ⟨fun k hk => ?_, ?_, fun valid => first.trans (if_pos valid), fun invalid => ?_, only.regs (raiseWith_regs s b cause o i)⟩
  · rw [bit_withBit _ _ _ _ hk]
    by_cases e : k = cause <;> simp [e]
  · exact toNat_wordOf _ (by unfold sat; omega)
  · have no : ¬ rbit s b Reg.Hdr.ERR_FIRST 15 = true := by simp [rbit, invalid]
    rw [first, if_neg no]
    exact errFirst_loaded o.tag cause h

/-- What an occurrence that sends a record leaves in events, records and counters. -/
theorem raiseWith_sent_record (s : State) (b : Block) (cause : Nat) (o : Occur) (i : s.Inv)
    (h : cause = 2 ∨ cause = 5 ∨ cause = 7 ∨ rbit s b Reg.Hdr.ERR_ENABLE cause = true) :
    let t := raiseWith s b cause o
    (b.page, cause, o.tag, s.stride.count) ∈ t.events ∧
    ((b.page, cause, o.tag, s.stride.count) ∉ s.events → ∃ r ∈ t.records, r.1 = b.page) ∧
    CtrsBut [(activeQueue s).cnt 2] s t ∧
    t = { s with regs := t.regs, counters := t.counters, events := t.events, records := t.records,
                 steward := { s.steward with seqNo := t.steward.seqNo } } := by
  obtain ⟨_, _, _, _, set, j⟩ := setCause_spec s b cause o.tag i
  obtain ⟨event, record, ctrs, rest, _⟩ := sendRecord_spec (setCause s b cause o.tag) b cause o none j
  rw [raiseWith_sent s b cause o i h]
  have regs := sendRecord_regs (setCause s b cause o.tag) b cause o none j
  generalize sendRecord (setCause s b cause o.tag) b cause o none = t at event record ctrs rest regs
  dsimp only
  rw [← regs] at set
  rw [set] at event record ctrs rest
  exact ⟨event, record, ctrs, rest⟩

/-- Settles O11: setting the cause writes the three registers (`raiseWith_header`), and a record that is sent makes the event
(`raiseWith_sent_record`). -/
theorem causeIsRaised : Obligations.CauseIsRaised := by
  intro s b cause o i hc t
  obtain ⟨status, count, kept, loaded, only⟩ := raiseWith_header s b cause o i hc
  by_cases h : cause = 2 ∨ cause = 5 ∨ cause = 7 ∨ rbit s b Reg.Hdr.ERR_ENABLE cause = true
  · obtain ⟨event, record, ctrs, rest⟩ := raiseWith_sent_record s b cause o i h
    exact ⟨status, count, kept, loaded, fun _ => ⟨event, record⟩, fun no => absurd h no, only, ctrs, rest⟩
  · have unsent : t = setCause s b cause o.tag := raiseWith_unsent s b cause o i h
    obtain ⟨_, _, _, _, set, _⟩ := setCause_spec s b cause o.tag i
    rw [← unsent] at set
    refine ⟨status, count, kept, loaded, fun yes => absurd yes h, fun _ => ?_, only, ?_, ?_⟩
    · rw [set]; exact ⟨rfl, rfl⟩
    · exact (CtrsBut.refl _ s).counters (by rw [set])
    · rw [set]

end Sys2Proof.Machine


/-!
PROOFS. Descriptor tables, allocations and directory writes.
-/
namespace Sys2Proof.Machine

/-! ### Descriptor tables (R153, R154, R294) -/

/-- A write of a core's table registers is taken while the CP is idle and the table lies in the AM. -/
theorem writeAmTable_taken (s : State) (c : CoreId) (off log2 : Nat) (idle : frontIdle s (.cp c) = true)
    (ok : amTableOk (off * 64) log2 = true) :
    writeAmTable s c (off * 64) log2 = startFill (rputField (rputField s (.gme c) Reg.Gme.DESC_TABLE_OFFSET 24 6 off)
      (.gme c) Reg.Gme.DESC_TABLE_LOG2 4 0 log2) (.cp c) := by
  simp [writeAmTable, idle, ok]

/-- An engine's table is taken while its front end is idle and the table lies where it may. -/
theorem commitTable_taken (s : State) (o : TableOwner) (v : Word) (engine : isCore o = false) (idle : frontIdle s o = true) :
    let a := rget64 s (descBlock o) Reg.Upd.DESC_TABLE_BASE_LO Reg.Upd.DESC_TABLE_BASE_HI
    engineTableOk s o a (bits v 4 0) = true →
    commitTable s o v = startFill (rputField { s with tables := tset (0, 6) s.tables o.num (a, bits v 4 0) }
      (descBlock o) Reg.Upd.DESC_TABLE_LOG2 4 0 (bits v 4 0)) o := by
  intro a ok
  simp [commitTable, engine, idle, a, ok]

/-! ### Allocations (R151) -/

theorem getAlloc_valid (s : State) (o : TableOwner) (e : Nat) :
    (getAlloc s o e).valid = rbit s (descBlock o) (allocCtrl e) 31 := rfl

theorem getAlloc_gen (s : State) (o : TableOwner) (e : Nat) :
    (getAlloc s o e).gen = rfield s (descBlock o) (allocCtrl e) 23 8 := rfl

/-- A good allocation that is armed is VALID. -/
theorem armAlloc_ok (s : State) (o : TableOwner) (e : Nat) (i : s.Inv) (ok : allocOk s (getAlloc s o e) = true) :
    (getAlloc (armAlloc s o e) o e).valid = true ∧
    OnlyRegs [(descBlock o).reg (allocCtrl e)] s (armAlloc s o e) := by
  have armed : armAlloc s o e = rputBit s (descBlock o) (allocCtrl e) 31 true := if_pos ok
  rw [armed]
  refine ⟨?_, (OnlyRegs.refl _ s).rput _ _ _ i (by simp)⟩
  rw [getAlloc_valid, rbit, rputBit, rget_rput _ _ _ _ i, bit_withBit _ _ _ _ (by decide), if_pos rfl]

/-- A write of an allocation's base or size makes it not VALID and counts its generation. -/
theorem writeAlloc_spec (s : State) (o : TableOwner) (e off : Nat) (v : Word) (i : s.Inv) (h : allocCtrl e ≠ off) :
    (getAlloc (writeAlloc s o e off v) o e).valid = false ∧
    (getAlloc (writeAlloc s o e off v) o e).gen = ((getAlloc s o e).gen + 1) % 65536 ∧
    OnlyRegs [(descBlock o).reg (allocCtrl e), (descBlock o).reg off] s (writeAlloc s o e off v) := by
  have i1 : (rwrite s (descBlock o) off v).Inv := inv_rput _ _ _ i
  have i2 := inv_rputBit (descBlock o) (allocCtrl e) 31 false i1
  have gen : rfield (rwrite s (descBlock o) off v) (descBlock o) (allocCtrl e) 23 8 = (getAlloc s o e).gen := by
    rw [getAlloc_gen, rfield, rwrite, rget_rput_off _ _ _ _ _ i h, rfield]
  refine ⟨?_, ?_, ?_⟩
  · rw [getAlloc_valid]
    simp only [writeAlloc, rputField, rbit, rget_rput _ _ _ _ i2]
    rw [bit_withBits _ _ _ _ _ (by decide) (by decide), if_neg (by decide), rputBit, rget_rput _ _ _ _ i1,
      bit_withBit _ _ _ _ (by decide), if_pos rfl]
  · rw [getAlloc_gen, ← gen]
    simp only [writeAlloc, rputField, rfield, rget_rput _ _ _ _ i2]
    rw [bits_withBits _ _ _ _ (by decide) (by decide)]
    omega
  · exact (((OnlyRegs.refl _ s).rput _ _ _ i (by simp)).rput _ _ _ i1 (by simp)).rput _ _ _ i2 (by simp)

/-- ALLOC_CTRL of an entry is none of its other registers. -/
theorem allocCtrl_ne (e off : Nat) (h : Reg.Gme.ALLOC_CTRL ≠ off) : allocCtrl e ≠ off + 16 * e :=
  fun same => h (Nat.add_right_cancel same)

/-! ### Directory writes (R28, R180) -/

/-- A directory write that the checks let through, and one that they refuse. -/
theorem exec_directoryWrite (s u : State) (who : Block) (offset off : Nat) (d : LarderId) (data : List Byte) (st : Status)
    (place : placeOf s (directoryBase + offset) = .larder d off)
    (check : larderWriteCheck s (rowReq who 0 .critical) d off data.length = (u, st)) :
    (st = .ok → exec (.directoryWrite who offset data) s =
      .next (takeRequest s (rowReq who 0 .critical) (directoryBase + offset) (.write data))) ∧
    (st ≠ .ok → exec (.directoryWrite who offset data) s = .next (respond who (u, st, []))) := by
  have run : exec (.directoryWrite who offset data) s = execDirectoryWrite who offset data s := rfl
  rw [run]
  unfold execDirectoryWrite
  simp only [place, check]
  cases st <;> simp

/-- Settles O27, from what each register write leaves. -/
theorem tablesAndAllocations : Obligations.TablesAndAllocations := by
  refine ⟨fun s c v idle ok => ?_, fun s c v idle ok => ?_, fun s o v engine idle ok => ?_, fun s o filling => ?_,
    fun s o e i ok => ⟨_, rfl, armAlloc_ok s o e.val i ok⟩, fun s o e hi v i => ⟨_, rfl, ?_⟩, fun s o e v i => ⟨_, rfl, ?_⟩,
    fun s u who offset off d data st place check => exec_directoryWrite s u who offset off d data st place check⟩
  · exact congrArg Host.Outcome.next (writeAmTable_taken s c _ _ idle ok)
  · exact congrArg Host.Outcome.next (writeAmTable_taken s c _ _ idle ok)
  · exact congrArg Host.Outcome.next (commitTable_taken s o v engine idle ok)
  · have taken : exec (.tableFill o) s = .next (finishFill s o) := congrArg Host.Outcome.next (if_pos filling)
    rw [taken]
    cases o <;> rfl
  · exact writeAlloc_spec s o e.val _ v i (allocCtrl_ne e.val _ (by cases hi <;> decide))
  · exact writeAlloc_spec s o e.val _ v i (allocCtrl_ne e.val _ (by decide))

end Sys2Proof.Machine

/-!
PROOFS. The end of a command, timeouts and failed fetches; the start of a SEM_OP and of a DMA command.
-/
namespace Sys2Proof.Machine

/-! ### Completion (R84, R99) -/

/-- A command whose post is made completes. -/
theorem tryComplete_made {s u : State} {f : FrontId} {x : Slot} {st st' : Status} {n : Nat}
    (h : makePost (readyAdds s f x.words) f x.words st n = (u, .made st')) : tryComplete s f x st n = completeSlot u f x st' := by
  unfold tryComplete
  rw [h]

/-- COMPLETION of a command whose work has ended. -/
theorem exec_completion_made {s u : State} {f : FrontId} {slot : Nat} {x : Slot} {st st' : Status}
    (hx : getSlot s f slot = some x) (phase : x.phase = .ended st)
    (post : makePost (readyAdds s f x.words) f x.words st (postTokens s f x.words) = (u, .made st')) :
    exec (.completion f slot) s = .next (completeSlot u f x st') := by
  have run : exec (.completion f slot) s = execCompletion f slot s := rfl
  rw [run]
  simp only [execCompletion, hx, phase, tryComplete_made post]

/-- BATON_STALL of a command whose pass waited for room. -/
theorem exec_batonStall_made {s u : State} {c : CoreId} {slot n : Nat} {x : Slot} {st st' : Status}
    (hx : getSlot s (.cp c) slot = some x) (phase : x.phase = .passing st n)
    (post : makePost (readyAdds s (.cp c) x.words) (.cp c) x.words st n = (u, .made st')) :
    exec (.batonStall c slot) s = .next (completeSlot u (.cp c) x st') := by
  have run : exec (.batonStall c slot) s = execBatonStall c slot s := rfl
  rw [run]
  simp only [execBatonStall, hx, phase, tryComplete_made post]

/-! ### Operations, timeouts and failed fetches (R77, R90) -/

/-- SEM_OPERATION of the operation that stands first. -/
theorem exec_semOperation_first {s : State} {f : FrontId} {i k : Nat} {m : SemMsg} (first : firstSemMsg s f i = some k)
    (hm : s.semMsgs[k]? = some m) :
    exec (.semOperation f i) s = .next (applySemMsg { s with semMsgs := s.semMsgs.eraseIdx k } m) := by
  have run : exec (.semOperation f i) s = execSemOperation f i s := rfl
  rw [run]
  simp only [execSemOperation, first, deliverSemMsg, hm]

/-- REQUEST_TIMEOUT of a request that waits, and of one that the block is still to make. -/
theorem exec_requestTimeout (s : State) (who : Block) (k : Nat) :
    (∀ o, (owedOf s who)[k]? = some o → exec (.requestTimeout who k) s = .next (endOwed s who o)) ∧
    ((owedOf s who)[k]? = none →
      exec (.requestTimeout who k) s = .next { s with lapse := some (who, k - (owedOf s who).length) }) := by
  have run : exec (.requestTimeout who k) s = execRequestTimeout who k s := rfl
  rw [run]
  unfold execRequestTimeout
  constructor
  · intro o h
    simp only [h]
  · intro h
    simp only [h]

/-- A SEM_OP that gets no answer ends by its own rule. -/
theorem endOwed_sem {s : State} {f : FrontId} {slot : Nat} {x : Slot} (hx : getSlot s f slot = some x) :
    endOwed s f.block (.sem f slot) = timeoutSem s f x := by
  simp only [endOwed, hx]

/-- A front end that may fetch has not reached TAIL. -/
theorem head_ne_tail_of_mayFetch {s : State} {f : FrontId} (h : mayFetch s f = true) :
    rget s f.block Reg.Cp.RING_HEAD ≠ rget s f.block Reg.Cp.RING_TAIL := by
  simp only [mayFetch, Bool.and_eq_true, decide_eq_true_eq] at h
  exact h.2

/-- RING_FETCH of a front end that may fetch. -/
theorem exec_ringFetch_may {s : State} {f : FrontId} (h : mayFetch s f = true) : exec (.ringFetch f) s = .next (fetchOne s f) := by
  have run : exec (.ringFetch f) s = execRingFetch f s := rfl
  rw [run]
  simp [execRingFetch, head_ne_tail_of_mayFetch h, h]

/-- A fetch whose time has run out is made once more, and is then a failed fetch. -/
theorem fetchOne_lapsed {s t : State} {f : FrontId} {d : List Byte}
    (place : ringPlaceOk s f (ringAddr s f (rget s f.block Reg.Cp.RING_HEAD).toNat) = true)
    (read : readLocal s (reqOf f.block .critical) (ringAddr s f (rget s f.block Reg.Cp.RING_HEAD).toNat) 64 = (t, .aborted, d))
    (late : t.now ≠ s.now) :
    fetchOne s f = if (getFront t f).retried then pushFetched t f { words := [], fail := some .timeout }
      else putFront t f { getFront t f with retried := true } := by
  unfold fetchOne
  simp only [place, read, fetchAborted, if_pos late]
  exact if_neg (by decide)

/-- Of two statuses the one that R89 names first prevails. -/
theorem worse_eq_min : ∀ i j : Fin 6,
    let l : List Status := [.poisoned, .aborted, .bankOff, .defect, .refused, .ok]
    worse (l.getD i .ok) (l.getD j .ok) = l.getD (min i.val j.val) .ok := by decide

/-- Settles O19, row by row. -/
theorem commandsComplete : Obligations.CommandsComplete := by
  refine ⟨fun s u f slot x st st' hx phase post => exec_completion_made hx phase post,
    fun s u c slot n x st st' hx phase post => exec_batonStall_made hx phase post,
    fun s f i k m first hm => exec_semOperation_first first hm, exec_requestTimeout,
    fun s f slot x hx => endOwed_sem hx, fun s t f d may place read late => ?_, fun i j hi hj => worse_eq_min ⟨i, hi⟩ ⟨j, hj⟩⟩
  rw [exec_ringFetch_may may, fetchOne_lapsed place read late]

/-! ### SEM_OP (R77, R92, R98, R441) -/

/-- A SEM_OP that may start is started. -/
theorem exec_semOp_may {s : State} {f : FrontId} {slot : Nat} {x : Slot} (may : MayStart s f slot 0x20 false x) :
    exec (.semOp f slot) s = .next (startSemOp (running s f x) f (started s f x)) :=
  congrArg Host.Outcome.next (startCommand_may (fun s x => startSemOp s f x) may)

/-- A SEM_OP to a semaphore of this device. -/
theorem startSemOp_here {s : State} {f t : FrontId} {x : Slot} {a i : Nat}
    (target : targetOf s (cf64 x.words 2) = .here a) (sem : semTarget s a (cb x.words 5 0) = some (t, i)) :
    startSemOp s f x = sendSemHere s f x t i (cb x.words 5 0) := by
  simp only [startSemOp, target, sem]

/-- A SEM_OP to a semaphore of another device. -/
theorem startSemOp_remote {s : State} {f : FrontId} {x : Slot} {dev a : Nat} {ti : FrontId × Nat}
    (target : targetOf s (cf64 x.words 2) = .remote dev a) (sem : semTarget s a (cb x.words 5 0) = some ti) :
    startSemOp s f x = sendSem s f x dev a := by
  simp [startSemOp, target, sem]

/-- Its way is free: the operation is on its way, and its slot runs. -/
theorem sendSemHere_free {s : State} {f t : FrontId} {x : Slot} {i : Nat} {baton : Bool}
    (go : routeStopped s (dieOf s f.block) (dieOf s (semBlock t)) = false)
    (free : routeWaits s (dieOf s f.block) (dieOf s (semBlock t)) = false) :
    sendSemHere s f x t i baton =
      let u := passFlits (putSlot s f { x with phase := .running }) (dieOf s f.block) (dieOf s (semBlock t)) 1
      { u with semMsgs := u.semMsgs ++ [{
        ready := s.now, target := t, index := i, baton := baton, sub := cb x.words 4 31, amount := cf x.words 4 30 0,
        port := arrivalPort (dieOf s f.block) (dieOf s (semBlock t)), src := sourceOf s f x.words,
        reply := .slot f x.id }] } := by
  simp [sendSemHere, go, free]

/-- A path of its way is paused: the command waits at its engine. -/
theorem sendSemHere_paused {s : State} {f t : FrontId} {x : Slot} {i : Nat} {baton : Bool}
    (go : routeStopped s (dieOf s f.block) (dieOf s (semBlock t)) = false)
    (waits : routeWaits s (dieOf s f.block) (dieOf s (semBlock t)) = true) :
    sendSemHere s f x t i baton = putSlot s f { x with phase := .held } := by
  simp [sendSemHere, go, waits]

/-- A path of its way has stopped: no answer will come. -/
theorem sendSemHere_stopped {s : State} {f t : FrontId} {x : Slot} {i : Nat} {baton : Bool}
    (stop : routeStopped s (dieOf s f.block) (dieOf s (semBlock t)) = true) :
    sendSemHere s f x t i baton = putSlot s f { x with phase := .running } := by
  simp [sendSemHere, stop]

/-! ### DMA (R328) -/

/-- A DMA command that may start begins its channel's work, or goes on with it. -/
theorem exec_dma_may {s : State} {c : CoreId} {slot : Nat} {x : Slot} (may : MayStart s (.cp c) slot 0x28 true x) :
    exec (.dma c slot) s = .next (
      if (started s (.cp c) x).phase = .held then
        dmaGo (running s (.cp c) x) c (dmaChannel (started s (.cp c) x).words) (started s (.cp c) x)
      else dmaStart (running s (.cp c) x) c (started s (.cp c) x)) :=
  congrArg Host.Outcome.next (startCommand_may
    (fun s x => if x.phase = .held then dmaGo s c (dmaChannel x.words) x else dmaStart s c x) may)

theorem started_of_held {s : State} {f : FrontId} {x : Slot} (h : x.phase = .held) : started s f x = x := if_pos h

theorem started_phase (s : State) (f : FrontId) (x : Slot) : (started s f x).phase = x.phase := by
  unfold started; split <;> rfl

/-- Settles O20: the start of the command, then the state of its way. -/
theorem semOpAndDmaStart : Obligations.SemOpAndDmaStart := by
  refine ⟨fun s f slot x a i t may target sem => ?_, fun s f slot x dev a ti may target sem => ?_, fun s c slot x may => ?_⟩
  · rw [← started_words s f x] at target sem
    rw [exec_semOp_may may, startSemOp_here target sem]
    refine ⟨fun go free => ?_, fun go waits => ?_, fun stop => ?_⟩
    · rw [sendSemHere_free go free, started_id, started_words]
    · rw [sendSemHere_paused go waits]
    · rw [sendSemHere_stopped stop]
  · rw [← started_words s f x] at target sem
    rw [exec_semOp_may may, startSemOp_remote target sem]
  · rw [exec_dma_may may, started_phase]
    refine ⟨fun fresh => by rw [if_neg fresh], fun held => ?_⟩
    rw [if_pos held, started_of_held held]

end Sys2Proof.Machine

/-!
PROOFS. The core memories' rows: requests, patrol reads, parity injection, and the segments' power states.
-/
namespace Sys2Proof.Machine

/-! ### Requests (R31, R300) -/

/-- A request that is answered at once, to a unit whose answers are not dropped. -/
theorem takeRequest_served {s : State} {r : Req} {a : Nat} {acc : Access} (served : (serveLocal s r a acc).2.1 ≠ .delayed)
    (heard : isFenced (serveLocal s r a acc).1 r.who = false) :
    takeRequest s r a acc =
      emit (serveLocal s r a acc).1 (.response r.who (serveLocal s r a acc).2.1 (serveLocal s r a acc).2.2) := by
  unfold takeRequest
  generalize serveLocal s r a acc = x at served heard
  obtain ⟨t, st, d⟩ := x
  cases st
  case delayed => exact absurd rfl served
  all_goals simp [respond, heard]

/-- A request that must wait is held. -/
theorem takeRequest_waits {s : State} {r : Req} {a : Nat} {acc : Access} (waits : (serveLocal s r a acc).2.1 = .delayed) :
    takeRequest s r a acc = holdReq s (serveLocal s r a acc).1 r a acc none .unit := by
  unfold takeRequest
  generalize serveLocal s r a acc = x at waits
  obtain ⟨t, st, d⟩ := x
  cases waits
  rfl

/-- CORE_MEMORY_REQUEST within the memory. -/
theorem exec_coreMemoryRequest_within {s : State} {c : CoreId} {m : CoreMem} {who : Block} {tag : Tag} {offset : Nat}
    {a : Access} (h : offset + accessBytes a ≤ memSize m) :
    exec (.coreMemoryRequest c m who tag offset a) s = .next (takeRequest s (rowReq who tag .critical) (coreAddr c m offset) a) :=
  congrArg Host.Outcome.next (if_neg (Nat.not_lt.mpr h))

/-- CORE_MEMORY_REQUEST past the memory's end. -/
theorem exec_coreMemoryRequest_past {s : State} {c : CoreId} {m : CoreMem} {who : Block} {tag : Tag} {offset : Nat}
    {a : Access} (h : memSize m < offset + accessBytes a) :
    exec (.coreMemoryRequest c m who tag offset a) s =
      .next (respond who (raiseAtRequester s (rowReq who tag .critical) Cause.ADDRESS, .aborted, [])) :=
  congrArg Host.Outcome.next (if_pos h)

/-! ### Patrol reads (R305) -/

/-- The patrol reader has read block `k`: it is counted, and the next one comes next. -/
def patrolled (s : State) (c : CoreId) (m : CoreMem) (k : Nat) : State :=
  rput (bump s (.mem c m) 4 1) (.mem c m) Reg.Mem.PATROL_POS (wordOf ((k + 1) % (memSize m / 64) * 64))

/-- PATROL_READ of the next block that lies in a segment that is ON. -/
theorem exec_patrolRead {s : State} {c : CoreId} {m : CoreMem} {k : Nat} (on : rbit s (.mem c m) Reg.Mem.PATROL_CTRL 31 = true)
    (unfenced : isFenced s (.mem c m) = false)
    (next : nextOn s c m (rfield s (.mem c m) Reg.Mem.PATROL_POS 24 6) 12 = some k) :
    exec (.patrolRead c m) s = .next (
      match firstBad s (coreAddr c m (64 * k)) 64 with
      | some a => parityError (patrolled s c m k) c m (a - coreAddr c m 0) 7 (reqOf (.mem c m) .bulk)
      | none => patrolled s c m k) := by
  have run : exec (.patrolRead c m) s = execPatrolRead c m s := rfl
  rw [run]
  simp only [execPatrolRead, on, unfenced, next] <;> rfl

/-! ### PARITY_INJECT (R307) -/

/-- A write of PARITY_INJECT takes the block, and ARM where it is written as 1. -/
theorem writeParityInject_spec (s : State) (c : CoreId) (m : CoreMem) (v : Word) (i : s.Inv) :
    rfield (writeParityInject s c m v) (.mem c m) Reg.Mem.PARITY_INJECT 24 6 = bits v 24 6 ∧
    rbit (writeParityInject s c m v) (.mem c m) Reg.Mem.PARITY_INJECT 31 =
      (bit v 31 || rbit s (.mem c m) Reg.Mem.PARITY_INJECT 31) ∧
    OnlyRegs [Block.reg (.mem c m) Reg.Mem.PARITY_INJECT] s (writeParityInject s c m v) := by
  have width : bits v 24 6 % 2 ^ (24 - 6 + 1) = bits v 24 6 := Nat.mod_mod _ _
  have i1 := inv_rput (.mem c m) Reg.Mem.PARITY_INJECT
    (withBits (rget s (.mem c m) Reg.Mem.PARITY_INJECT) 24 6 (bits v 24 6)) i
  have block := (OnlyRegs.refl [Block.reg (.mem c m) Reg.Mem.PARITY_INJECT] s).rput (.mem c m) Reg.Mem.PARITY_INJECT
    (withBits (rget s (.mem c m) Reg.Mem.PARITY_INJECT) 24 6 (bits v 24 6)) i (by simp)
  unfold writeParityInject rputField rputBit
  dsimp only
  cases arm : bit v 31 with
  | true =>
    rw [if_pos rfl, rfield, rbit, rget_rput _ _ _ _ i1, rget_rput _ _ _ _ i]
    refine ⟨?_, ?_, block.rput _ _ _ i1 (by simp)⟩
    · rw [withBit, bits_withBits_ne _ _ _ _ _ _ (by decide) (by decide) (by decide) (by decide),
        bits_withBits _ _ _ _ (by decide) (by decide), width]
    · rw [bit_withBit _ _ _ _ (by decide), if_pos rfl, Bool.true_or]
  | false =>
    rw [if_neg (by decide), rfield, rbit, rget_rput _ _ _ _ i]
    refine ⟨?_, ?_, block⟩
    · rw [bits_withBits _ _ _ _ (by decide) (by decide), width]
    · rw [bit_withBits _ _ _ _ _ (by decide) (by decide), if_neg (by decide), Bool.false_or, rbit]

/-! ### SEG_OFF (R308, R310, R312) -/

/-- A segment that holds the core's descriptor table is not put off. -/
theorem writeSegBit_table {s : State} {c : CoreId} {m : CoreMem} {k : Nat} (h : segHoldsTable s c m k = true) :
    writeSegBit s c m k true = raise s (.mem c m) 8 := by
  simp [writeSegBit, h]

theorem writeSegBit_drain {s : State} {c : CoreId} {m : CoreMem} {k : Nat} (on : (getSeg s c m k).phase = .on)
    (h : segHoldsTable s c m k = false) :
    writeSegBit s c m k true =
      putSeg (rputBit s (.mem c m) Reg.Mem.SEG_OFF k true) c m k { getSeg s c m k with phase := .draining } := by
  simp [writeSegBit, h, on]

theorem writeSegBit_resume {s : State} {c : CoreId} {m : CoreMem} {k : Nat} (draining : (getSeg s c m k).phase = .draining) :
    writeSegBit s c m k false =
      landWrites (putSeg (rputBit s (.mem c m) Reg.Mem.SEG_OFF k false) c m k { getSeg s c m k with phase := .on }) c m k := by
  simp [writeSegBit, draining]

theorem writeSegBit_wake {s : State} {c : CoreId} {m : CoreMem} {k : Nat} (off : (getSeg s c m k).phase = .off) :
    writeSegBit s c m k false =
      putSeg (rputBit s (.mem c m) Reg.Mem.SEG_OFF k false) c m k { getSeg s c m k with phase := .waking } := by
  simp [writeSegBit, off]

/-- Settles O28, row by row. -/
theorem coreMemoriesServe : Obligations.CoreMemoriesServe := by
  refine ⟨fun s c m who tag offset a within => ⟨fun served heard => ?_, fun waits => ?_⟩,
    fun s c m who tag offset a past => exec_coreMemoryRequest_past past,
    fun s c m k on unfenced next => ⟨fun good => ?_, fun x bad => ?_⟩,
    fun s c m v i => ⟨_, rfl, writeParityInject_spec s c m v i⟩, fun s c m v => rfl, fun s c m v l => rfl,
    fun s c m k => ⟨writeSegBit_drain, writeSegBit_table, writeSegBit_resume, writeSegBit_wake⟩,
    fun s c m k draining => congrArg Host.Outcome.next (if_pos draining),
    fun s c m k waking => congrArg Host.Outcome.next (if_pos waking)⟩
  · rw [exec_coreMemoryRequest_within within, takeRequest_served served heard]
    rfl
  · rw [exec_coreMemoryRequest_within within, takeRequest_waits waits]
  · rw [exec_patrolRead on unfenced next, firstBad, good]
    rfl
  · rw [exec_patrolRead on unfenced next, firstBad, bad]
    rfl

end Sys2Proof.Machine

/-!
PROOFS. The larder's rows, the package network's paths and the host's accesses.
-/
namespace Sys2Proof.Machine

/-! ### Larder reads (R324, R327, R364, R365) -/

/-- LARDER_READ of one block that nothing keeps from the die. -/
theorem exec_larderRead_block {s : State} {d : LarderId} {who : Block} {cls : SvcClass} {offset n : Nat}
    (within : offset + n ≤ larderDieSize) (way : rowWay s who (larderAlias d offset) n = .free)
    (unfenced : larderFenced s d offset n = none) (one : blockCuts offset n = [(offset, n)]) :
    exec (.larderRead d who cls offset n) s =
      .next (larderReadBlock (travel s who (larderAlias d offset) 0 n) d who cls offset n) := by
  have run : exec (.larderRead d who cls offset n) s = execLarderRead d who cls offset n s := rfl
  rw [run]
  simp only [execLarderRead, if_neg (Nat.not_lt.mpr within), way, unfenced, one, List.foldl]

/-- The entry of a read that joins none. -/
def newEntry (d : LarderId) (who : Block) (cls : SvcClass) (off n : Nat) : PendingRead :=
  { die := d, block := off / 64, bulk := decide (cls = .bulk), readers := [(who, off, n)], answered := false }

/-- A read that no destination refuses or delays takes an entry of its own. -/
theorem larderReadBlock_new {u : State} {d : LarderId} {who : Block} {cls : SvcClass} {off n : Nat}
    (none_ : openEntry u d (off / 64) = none) (free : judge u (reqOf who cls) [(.larder d, 0)] false = (false, none)) :
    larderReadBlock u d who cls off n =
      let v := noteServed { u with pendingReads := u.pendingReads ++ [newEntry d who cls off n] } (reqOf who cls) [(.larder d, 0)]
      if cls = .critical then serveEntry v (newEntry d who cls off n) else v := by
  simp [larderReadBlock, none_, free, arrive, newEntry]

/-- A read that its destination refuses. -/
theorem larderReadBlock_refused {u : State} {d : LarderId} {who : Block} {cls : SvcClass} {off n : Nat} {x : Dest}
    (none_ : openEntry u d (off / 64) = none) (refused : judge u (reqOf who cls) [(.larder d, 0)] false = (true, some x)) :
    larderReadBlock u d who cls off n = respond who (noteRefused u (reqOf who cls) x.1, .refused, []) := by
  simp [larderReadBlock, none_, refused, arrive]

/-- A read that joins the entry of its block. -/
theorem larderReadBlock_joins {u : State} {d : LarderId} {who : Block} {cls : SvcClass} {off n : Nat} {e : PendingRead}
    (entry : openEntry u d (off / 64) = some e) :
    larderReadBlock u d who cls off n =
      let f := { e with readers := e.readers ++ [(who, off, n)], bulk := e.bulk || decide (cls = .bulk) }
      let v := bump { u with pendingReads := u.pendingReads.map (fun x => if x = e then f else x) } (.larder d) 1 1
      if cls = .critical then serveEntry v f else v := by
  simp [larderReadBlock, entry]

/-- A stride-critical read is neither refused nor delayed. -/
theorem judge_critical (s : State) (who : Block) (ds : List Dest) (joins : Bool) :
    judge s (reqOf who .critical) ds joins = (false, none) := rfl

/-- Settles O30, row by row. -/
theorem larderServes : Obligations.LarderServes := by
  refine ⟨fun s d who offset n within way unfenced one => ⟨fun cls e bulk entry free he => ?_, fun e entry he => ?_,
      fun x entry refused => ?_, fun cls e f entry hf => ?_⟩,
    fun s d who cls offset data => ⟨fun within => congrArg Host.Outcome.next (if_neg (Nat.not_lt.mpr within)),
      fun past => congrArg Host.Outcome.next (if_pos past)⟩,
    fun s d block e entry => ?_, fun s d on unfenced => ?_⟩
  · rw [exec_larderRead_block within way unfenced one, larderReadBlock_new entry free, he, newEntry]
    exact congrArg Host.Outcome.next (if_neg bulk)
  · rw [exec_larderRead_block within way unfenced one, larderReadBlock_new entry (judge_critical _ _ _ _), he, newEntry]
    exact congrArg Host.Outcome.next (if_pos rfl)
  · rw [exec_larderRead_block within way unfenced one, larderReadBlock_refused entry refused]
  · rw [exec_larderRead_block within way unfenced one, larderReadBlock_joins entry, hf]
  · have run : exec (.mergeWait d block) s = execMergeWait d block s := rfl
    rw [run]
    simp only [execMergeWait, entry]
  · have run : exec (.larderScrub d) s = execLarderScrub d s := rfl
    rw [run]
    simp [execLarderScrub, on, unfenced]

/-! ### Paths of the package network (R12, R441) -/

/-- FLIT_CRC_ERROR at a link that is there. -/
theorem exec_flitCrcError_present {s : State} {d : DieId} {link : Fin 4} {wire : Nat} (present : linkPresent d link = true) :
    exec (.flitCrcError d link wire) s = .next (
      let x := getPath s d link
      let errs := if s.now < x.errs.1 + 1000000 then (x.errs.1, x.errs.2 + 1) else (s.now, 1)
      let run := if s.now ≤ x.run.1 + 80 then (s.now, x.run.2 + 1) else (s.now, 1)
      emit (bump (bump (putPath s d link
        { x with errs := errs, run := run, stopped := x.stopped || (x.fatal && 16 ≤ run.2) }) (.router d) 1 1) (.router d) 2 1)
        (.replay d link)) :=
  congrArg Host.Outcome.next (if_neg (by simp [present]))

/-- WIRE_LIMIT of a path that has a spare wire. -/
theorem exec_wireLimit_spare {s : State} {d : DieId} {link : Fin 4} {wire : Nat} (present : linkPresent d link = true)
    (spare : (getPath s d link).spares ≠ 0) :
    exec (.wireLimit d link wire) s = .next (raiseWith (bump (putPath s d link
      { getPath s d link with spares := (getPath s d link).spares - 1, paused := some s.now }) (.router d) 3 1) (.router d) 8
      (pathOccur s d link wire)) := by
  have run : exec (.wireLimit d link wire) s = execWireLimit d link wire s := rfl
  rw [run]
  simp [execWireLimit, present, spare]

/-- WIRE_LIMIT of a path at full width without a spare wire. -/
theorem exec_wireLimit_half {s : State} {d : DieId} {link : Fin 4} {wire : Nat} (present : linkPresent d link = true)
    (none_ : (getPath s d link).spares = 0) (full : (getPath s d link).half = false) :
    exec (.wireLimit d link wire) s = .next (raiseWith (bump (rputBit (putPath s d link
      { getPath s d link with half := true, paused := some s.now }) (.router d) Reg.Hdr.STATUS 5 true) (.router d) 4 1)
      (.router d) 9 (pathOccur s d link wire)) := by
  have run : exec (.wireLimit d link wire) s = execWireLimit d link wire s := rfl
  rw [run]
  simp [execWireLimit, present, none_, full]

/-- WIRE_LIMIT of a path at half width. -/
theorem exec_wireLimit_fatal {s : State} {d : DieId} {link : Fin 4} {wire : Nat} (present : linkPresent d link = true)
    (none_ : (getPath s d link).spares = 0) (half : (getPath s d link).half = true) :
    exec (.wireLimit d link wire) s = .next (raiseWith (putPath s d link { getPath s d link with fatal := true }) (.router d) 10
      (pathOccur s d link wire)) := by
  have run : exec (.wireLimit d link wire) s = execWireLimit d link wire s := rfl
  rw [run]
  simp [execWireLimit, present, none_, half]

/-- The pause of a path ends within 5 µs, and the path replays. -/
theorem endWireChange_paused {s : State} {d : DieId} {link : Fin 4} {t : Nat} (paused : (getPath s d link).paused = some t) :
    ∃ n, n ≤ 5000 ∧ endWireChange s d link = emit (putPath { s with fresh := s.fresh + 1, now := max s.now (t + n) } d link
      { getPath s d link with paused := none }) (.replay d link) := by
  refine ⟨Config.pauseNs s.fresh % 5001, Nat.le_of_lt_succ (Nat.mod_lt _ (by decide)), ?_⟩
  simp only [endWireChange, paused, useFresh]

/-- Settles O39, row by row. -/
theorem pathsReplayAndDegrade : Obligations.PathsReplayAndDegrade := by
  refine fun s d link wire present => ⟨exec_flitCrcError_present present, exec_wireLimit_spare present,
    exec_wireLimit_half present, exec_wireLimit_fatal present, fun t paused => ?_⟩
  obtain ⟨n, hn, ended⟩ := endWireChange_paused paused
  exact ⟨n, hn, congrArg (fun u => Host.Outcome.next (releaseHeld u)) ended⟩

end Sys2Proof.Machine

/-!
PROOFS. The host's accesses: configuration space, BAR0, BAR2 and MSI-X.
-/
namespace Sys2Proof.Machine

/-! ### Configuration requests (R505, R507) -/

/-- CONFIGURATION_REQUEST while the image is not known. -/
theorem exec_configurationRequest_retry {s : State} {offset : Nat} {w : Option Word} (works : s.steward.failed = false)
    (up : s.inputs.resetHeld = false) (retry : configRetry s = true) :
    exec (.configurationRequest offset w) s = .next (emit s .hostRetry) := by
  have run : exec (.configurationRequest offset w) s = execConfigurationRequest offset w s := rfl
  rw [run]
  simp [execConfigurationRequest, works, up, retry]

/-- CONFIGURATION_REQUEST once the image is known: a write. -/
theorem exec_configurationRequest_write {s : State} {offset : Nat} {v : Word} (works : s.steward.failed = false)
    (up : s.inputs.resetHeld = false) (known : configRetry s = false) :
    exec (.configurationRequest offset (some v)) s = .next (emit (configWrite s offset v) (.hostData false [])) := by
  have run : exec (.configurationRequest offset (some v)) s = execConfigurationRequest offset (some v) s := rfl
  rw [run]
  simp [execConfigurationRequest, works, up, known]

/-- CONFIGURATION_REQUEST once the image is known: a read. -/
theorem exec_configurationRequest_read {s : State} {offset : Nat} (works : s.steward.failed = false)
    (up : s.inputs.resetHeld = false) (known : configRetry s = false) :
    exec (.configurationRequest offset none) s =
      .next (emit s (.hostData false (leBytes 4 (configRead s offset).toNat))) := by
  have run : exec (.configurationRequest offset none) s = execConfigurationRequest offset none s := rfl
  rw [run]
  simp [execConfigurationRequest, works, up, known]

/-! ### BAR0 (R33) -/

/-- An access to a page below die 30 does not wait for a switch-over. -/
theorem afterSwitch_below (s : State) (offset : Nat) (h : offset < 30 * 256 * 4096) : afterSwitch s (offset / 4096) = s :=
  if_neg (by omega)

/-- An aligned access of 4 or 8 bytes below die 30. -/
theorem execBar0Access_aligned {s : State} {offset bytes : Nat} (wr : Option (BitVec 64)) (up : s.inputs.resetHeld = false)
    (works : s.steward.failed = false) (size : bytes = 4 ∨ bytes = 8) (aligned : offset % bytes = 0)
    (below : offset < 30 * 256 * 4096) :
    execBar0Access offset bytes wr s = .next (match wr with
      | some v => bar0Write (bump s .host 1 1) offset bytes v
      | none => emit (bar0Read (bump s .host 0 1) offset bytes).1
          (.hostData false (leBytes bytes (bar0Read (bump s .host 0 1) offset bytes).2))) := by
  have taken : ((bytes = 4 || bytes = 8) && offset % bytes = 0) = true := by simp [size, aligned]
  unfold execBar0Access
  rw [if_neg (by simp [up, works]), if_pos taken, afterSwitch_below s offset below] <;> cases wr <;> rfl

/-- Any other access raises ADDRESS. -/
theorem execBar0Access_bad {s : State} {offset bytes : Nat} (wr : Option (BitVec 64)) (up : s.inputs.resetHeld = false)
    (works : s.steward.failed = false) (bad : bytes ≠ 4 ∧ bytes ≠ 8 ∨ offset % bytes ≠ 0) :
    execBar0Access offset bytes wr s = .next (match wr with
      | some _ => raise s .host Cause.ADDRESS
      | none => emit (raise s .host Cause.ADDRESS) (.hostData false (leBytes bytes 0))) := by
  have refused : ¬ ((bytes = 4 || bytes = 8) && offset % bytes = 0) = true := by simp; omega
  unfold execBar0Access
  rw [if_neg (by simp [up, works]), if_neg refused] <;> cases wr <;> rfl

/-! ### BAR2 (R508, R509) -/

/-- An access inside the window. -/
theorem execBar2Access_within {s : State} {offset : Nat} {a : Access} (up : s.inputs.resetHeld = false)
    (known : configRetry s = false) (within : offset + accessBytes a ≤ bar2Bytes s) :
    execBar2Access offset a s = .next (
      let ga := (s.host.bar2Base + offset) % 2 ^ 64
      match a with
      | .read n => hostReads { s with host := { s.host with reads := s.host.reads ++ requestCuts ga n } }
      | .write d => hostWrites (requestCuts ga d.length) d s) := by
  unfold execBar2Access
  rw [if_neg (by simp [up, known, within])] <;> cases a <;> rfl

/-! ### MSI-X (R511) -/

/-- A vector is unmasked. -/
def unmasked (s : State) (v : Nat) : State :=
  { s with host := { s.host with unmasked := sinsert s.host.unmasked v, pendingMsi := sremove s.host.pendingMsi v } }

theorem exec_msiXUnmask (s : State) (v : Fin 2048) :
    exec (.msiXUnmask v) s =
      .next (if s.host.pendingMsi.contains v.val then sendMsi (unmasked s v.val) v.val else unmasked s v.val) := rfl

/-- Settles O57, row by row. -/
theorem hostAccessesAreServed : Obligations.HostAccessesAreServed := by
  refine ⟨fun s offset w works up => ⟨exec_configurationRequest_retry works up, ?_, ?_⟩, fun _ => rfl,
    fun s offset bytes up works size aligned below => ⟨fun v => ?_, ?_⟩,
    fun s offset bytes up works bad => ⟨fun v => ?_, ?_⟩,
    fun s offset up known => ⟨fun n within => execBar2Access_within (a := .read n) up known within,
      fun d within => execBar2Access_within (a := .write d) up known within⟩,
    fun s v pending => ?_, fun s v none_ => ?_⟩
  · rintro v known rfl
    exact exec_configurationRequest_write works up known
  · rintro known rfl
    exact exec_configurationRequest_read works up known
  · exact execBar0Access_aligned (some v) up works size aligned below
  · exact execBar0Access_aligned none up works size aligned below
  · exact execBar0Access_bad (some v) up works bad
  · exact execBar0Access_bad none up works bad
  · rw [exec_msiXUnmask, if_pos pending]
    rfl
  · rw [exec_msiXUnmask, if_neg (by rw [none_]; decide)]
    rfl

end Sys2Proof.Machine

/-!
PROOFS. The semaphores and batons: what an operation leaves in a semaphore, and what the writes of the semaphore memory page
leave.
-/
namespace Sys2Proof.Machine

/-! ### What an occurrence of a cause leaves of semaphores and batons (R48) -/

/-- Sending a record changes no semaphore and no baton. -/
theorem sendRecord_sync (s : State) (b : Block) (cause : Nat) (o : Occur) (cls : Option Nat) :
    (sendRecord s b cause o cls).banks = s.banks ∧ (sendRecord s b cause o cls).batons = s.batons := by
  unfold sendRecord
  split
  · exact ⟨rfl, rfl⟩
  · dsimp only
    split <;> exact ⟨rfl, rfl⟩

/-- Setting a cause changes no semaphore and no baton. -/
theorem setCause_sync (s : State) (b : Block) (cause : Nat) (tag : Tag) :
    (setCause s b cause tag).banks = s.banks ∧ (setCause s b cause tag).batons = s.batons := by
  unfold setCause
  dsimp only
  split <;> exact ⟨rfl, rfl⟩

/-- An occurrence of a cause changes no semaphore and no baton. -/
theorem raiseWith_sync (s : State) (b : Block) (cause : Nat) (o : Occur) :
    (raiseWith s b cause o).banks = s.banks ∧ (raiseWith s b cause o).batons = s.batons := by
  have set := setCause_sync s b cause o.tag
  unfold raiseWith
  dsimp only
  split
  · have sent := sendRecord_sync (setCause s b cause o.tag) b cause o none
    exact ⟨sent.1.trans set.1, sent.2.trans set.2⟩
  · exact set

/-! ### Reading semaphores (R73) -/

/-- Semaphores are read from the banks alone. -/
theorem getSem_congr {s t : State} (h : t.banks = s.banks) (f : FrontId) (j : Nat) : getSem t f j = getSem s f j := by
  unfold getSem getBank
  rw [h]

theorem semBump_banks (s : State) (f : FrontId) (k n : Nat) : (semBump s f k n).banks = s.banks := by
  cases f <;> rfl

/-- FIRST_POISON alone may change where a poisoning is noted. -/
theorem noteFirstPoison_rest (s : State) (f : FrontId) (i : Nat) (tag : Tag) :
    noteFirstPoison s f i tag = { s with firstPoison := (noteFirstPoison s f i tag).firstPoison } := by
  unfold noteFirstPoison
  split
  · split <;> rfl
  · rfl

/-- FIRST_POISON alone may change where its VALID is looked at. -/
theorem clearFirstPoison_rest (s : State) (f : FrontId) :
    clearFirstPoison s f = { s with firstPoison := (clearFirstPoison s f).firstPoison } := by
  unfold clearFirstPoison
  split <;> rfl

theorem noteFirstPoison_banks (s : State) (f : FrontId) (i : Nat) (tag : Tag) : (noteFirstPoison s f i tag).banks = s.banks := by
  rw [noteFirstPoison_rest]

theorem clearFirstPoison_banks (s : State) (f : FrontId) : (clearFirstPoison s f).banks = s.banks := by
  rw [clearFirstPoison_rest]

/-! ### ADD and SUB (R74, R76, R78) -/

/-- The refusal of R76 leaves the banks of the poisoning. -/
theorem semFault_banks (s : State) (f : FrontId) (i : Nat) (sub : Bool) (amount : Nat) (src : Source) :
    (semFault s f i sub amount src).banks = (poisonSem s f i src).banks := by
  unfold semFault
  cases f with
  | cp c => exact (raiseWith_sync _ _ _ _).1
  | hub | slow | relay => rfl

/-- A refused operation poisons its semaphore, count kept, and leaves every other of the owner. -/
theorem getSem_semFault (s : State) (f : FrontId) (i j : Nat) (sub : Bool) (amount : Nat) (src : Source) (h : s.Inv) :
    getSem (semFault s f i sub amount src) f j =
      if j = i then { getSem s f i with poison := true, src := src } else getSem s f j := by
  have banks : (semFault s f i sub amount src).banks = (putSem s f i { getSem s f i with poison := true, src := src }).banks :=
    (semFault_banks s f i sub amount src).trans (noteFirstPoison_banks _ f i src.tag)
  rw [getSem_congr banks, getSem_putSem _ _ _ _ _ h]

/-- The state after an operation that has set semaphore `i` to `v`, and has been counted. -/
def semSet (s : State) (f : FrontId) (i : Nat) (v : Sem) : State := semBump (putSem s f i v) f 0 1

/-- An applied operation leaves its semaphore as set, and every other of the owner as it was. -/
theorem getSem_semSet (s : State) (f : FrontId) (i j : Nat) (v : Sem) (h : s.Inv) :
    getSem (semSet s f i v) f j = if j = i then v else getSem s f j := by
  unfold semSet
  rw [getSem_congr (semBump_banks _ _ _ _), getSem_putSem _ _ _ _ _ h]

/-- An operation on a poisoned semaphore changes nothing. -/
theorem semApply_poisoned {s : State} {f : FrontId} {i : Nat} (sub : Bool) (amount : Nat) (src : Source)
    (h : (getSem s f i).poison = true) : semApply s f i sub amount src = (s, .wasPoisoned) :=
  if_pos h

/-- An ADD to a semaphore that is not poisoned: applied below 2^31, refused from there on. -/
theorem semApply_add {s : State} {f : FrontId} {i : Nat} (amount : Nat) (src : Source)
    (h : (getSem s f i).poison = false) : semApply s f i false amount src =
      if 2 ^ 31 ≤ (getSem s f i).count + amount then (semFault s f i false amount src, .overflow)
      else (semSet s f i { count := (getSem s f i).count + amount, poison := false, src := src }, .applied) := by
  simp [semApply, semSet, h]

/-- A SUB from a semaphore that is not poisoned: applied down to zero, refused below. -/
theorem semApply_sub {s : State} {f : FrontId} {i : Nat} (amount : Nat) (src : Source)
    (h : (getSem s f i).poison = false) : semApply s f i true amount src =
      if (getSem s f i).count < amount then (semFault s f i true amount src, .overflow)
      else (semSet s f i { count := (getSem s f i).count - amount, poison := false, src := src }, .applied) := by
  simp [semApply, semSet, h]

/-- Every semaphore of the owner but the one operated on reads as before. -/
theorem getSem_semApply_ne (s : State) (f : FrontId) (i j : Nat) (sub : Bool) (amount : Nat) (src : Source) (h : s.Inv)
    (ne : j ≠ i) : getSem (semApply s f i sub amount src).1 f j = getSem s f j := by
  have fault := getSem_semFault s f i j sub amount src h
  have set (v : Sem) := getSem_semSet s f i j v h
  simp only [if_neg ne] at fault set
  cases poison : (getSem s f i).poison with
  | true => rw [semApply_poisoned sub amount src poison]
  | false =>
    cases sub with
    | false =>
      rw [semApply_add amount src poison]
      split
      · exact fault
      · exact set _
    | true =>
      rw [semApply_sub amount src poison]
      split
      · exact fault
      · exact set _

/-- Settles O14: the two cases of an ADD and of a SUB, and the poisoned one. -/
theorem semaphoresAddAndSubtract : Obligations.SemaphoresAddAndSubtract := by
  intro s f i sub amount src h r x
  have fault := getSem_semFault s f i i sub amount src h
  have set (v : Sem) := getSem_semSet s f i i v h
  simp only [if_pos] at fault set
  refine ⟨fun poison => semApply_poisoned sub amount src poison, fun poison add fits => ?_, fun poison isSub fits => ?_,
    fun poison out => ?_, fun j ne => getSem_semApply_ne s f i j sub amount src h ne⟩
  · subst add
    have applied : r = _ := (semApply_add amount src poison).trans (if_neg (Nat.not_le.mpr fits))
    rw [applied]
    exact ⟨rfl, set _⟩
  · subst isSub
    have applied : r = _ := (semApply_sub amount src poison).trans (if_neg (Nat.not_lt.mpr fits))
    rw [applied]
    exact ⟨rfl, set _⟩
  · have refused : r = (semFault s f i sub amount src, .overflow) := by
      obtain ⟨rfl, above⟩ | ⟨rfl, below⟩ := out
      · exact (semApply_add amount src poison).trans (if_pos above)
      · exact (semApply_sub amount src poison).trans (if_pos below)
    rw [refused]
    exact ⟨rfl, fault⟩

/-! ### Writes of semaphores (R79, R80, R460) -/

/-- SEM_DATA while no fill runs: a write of the indexed semaphore and, of the rest, of FIRST_POISON alone. -/
theorem writeSemData_spec (s : State) (c : CoreId) (v : Word) (h : s.Inv)
    (idle : s.filling.find? (fun x => x.1 = c.val) = none) :
    (∀ j, getSem (writeSemData s c v) (.cp c) j = if j = rfield s (.sem c) Reg.Sm.SEM_INDEX 11 0 then
        { count := bits v 30 0, poison := bit v 31, src := writeSource s c } else getSem s (.cp c) j) ∧
    writeSemData s c v =
      { s with banks := (writeSemData s c v).banks, firstPoison := (writeSemData s c v).firstPoison } := by
  have put (j : Nat) := getSem_putSem s (.cp c) (rfield s (.sem c) Reg.Sm.SEM_INDEX 11 0) j
    { count := bits v 30 0, poison := bit v 31, src := writeSource s c } h
  unfold writeSemData finishSemFill
  simp only [idle]
  split
  · refine ⟨fun j => (getSem_congr (noteFirstPoison_banks _ _ _ _) _ j).trans (put j), ?_⟩
    rw [noteFirstPoison_rest]
    rfl
  · refine ⟨fun j => (getSem_congr (clearFirstPoison_banks _ _) _ j).trans (put j), ?_⟩
    rw [clearFirstPoison_rest]
    rfl

/-- A write of SEM_FILL while no fill runs starts one. -/
theorem writeSemFill_idle {s : State} {c : CoreId} (v : Word) (idle : s.filling.find? (fun x => x.1 = c.val) = none) :
    writeSemFill s c v = { s with filling := s.filling ++ [(c.val, bits v 30 0)] } := by
  unfold writeSemFill finishSemFill
  simp only [idle]

/-- A filled bank reads everywhere as the value of the fill. -/
theorem getSem_fillBank (s : State) (f : FrontId) (v : Sem) (j : Nat) (h : s.Inv) : getSem (fillBank s f v) f j = v := by
  unfold fillBank
  rw [getSem_congr (clearFirstPoison_banks _ _)]
  unfold getSem getBank
  rw [tget_tset_rise _ _ _ 0 _ h.banks]
  rfl

/-- A fill changes the banks and, of the rest, FIRST_POISON alone. -/
theorem fillBank_rest (s : State) (f : FrontId) (v : Sem) :
    fillBank s f v = { s with banks := (fillBank s f v).banks, firstPoison := (fillBank s f v).firstPoison } := by
  unfold fillBank
  rw [clearFirstPoison_rest]

/-- The state in which the value of a fill is written: the fill is over, and the operations that it held off are ready from
now on (R77, R80). -/
def fillOver (s : State) (c : CoreId) : State :=
  { s with
    filling := s.filling.filter (fun x => x.1 ≠ c.val),
    semMsgs := s.semMsgs.map (fun m => if m.target = .cp c && !m.baton then { m with ready := s.now } else m) }

theorem inv_fillOver {s : State} (c : CoreId) (h : s.Inv) : (fillOver s c).Inv :=
  { h with mem := h.mem, filling := all_filter _ _ _ h.filling }

/-- The end of a fill that runs writes its value to the whole bank. -/
theorem finishSemFill_runs {s : State} {c : CoreId} {n : Nat}
    (runs : s.filling.find? (fun x => x.1 = c.val) = some (c.val, n)) :
    finishSemFill s c = fillBank (fillOver s c) (.cp c) { count := n, poison := false, src := writeSource s c } := by
  unfold finishSemFill
  simp only [runs]
  rfl

/-- What the end of a fill leaves. -/
theorem finishSemFill_spec (s : State) (c : CoreId) (n : Nat) (h : s.Inv)
    (runs : s.filling.find? (fun x => x.1 = c.val) = some (c.val, n)) :
    let t := finishSemFill s c
    (∀ j, getSem t (.cp c) j = { count := n, poison := false, src := writeSource s c }) ∧
    t.filling = s.filling.filter (fun x => x.1 ≠ c.val) ∧
    t.semMsgs = s.semMsgs.map (fun m => if m.target = .cp c && !m.baton then { m with ready := s.now } else m) ∧
    t = { s with banks := t.banks, firstPoison := t.firstPoison, filling := t.filling, semMsgs := t.semMsgs } := by
  rw [finishSemFill_runs runs]
  have rest := fillBank_rest (fillOver s c) (.cp c) { count := n, poison := false, src := writeSource s c }
  refine ⟨fun j => getSem_fillBank _ _ _ j (inv_fillOver c h), congrArg State.filling rest, congrArg State.semMsgs rest, ?_⟩
  rw [rest]
  rfl

/-! ### Batons (R82, R86) -/

/-- A baton just written reads as written. -/
theorem getBaton_putBaton (s : State) (c : CoreId) (i : Nat) (l : List Token) (h : s.Inv) :
    getBaton (putBaton s c i l) c i = l :=
  tget_tset_rise _ _ _ 0 _ h.batons

/-- Another baton of the core reads as before. -/
theorem getBaton_putBaton_ne (s : State) (c : CoreId) (i j : Nat) (l : List Token) (h : s.Inv) (ne : j ≠ i) :
    getBaton (putBaton s c i l) c j = getBaton s c j :=
  tget_tset_rise_ne _ _ _ _ _ (by unfold batonKey; omega) 0 _ h.batons

/-- BATON_PASS to a fenced memory: the proxy answers. -/
theorem writeBatonPass_fenced {s : State} {c : CoreId} (v : Word) (fenced : isFenced s (.sem c) = true) :
    writeBatonPass s c v = bump s (proxyOf s (.sem c)) 1 1 :=
  if_pos fenced

theorem batonRoom_one (s : State) (c : CoreId) (i : Nat) : batonRoom s c i 1 = true ↔ (getBaton s c i).length < 32 := by
  unfold batonRoom
  rw [decide_eq_true_eq, Nat.succ_le_iff]

/-- BATON_PASS to a full baton: a stall. -/
theorem writeBatonPass_full {s : State} {c : CoreId} {v : Word} (free : isFenced s (.sem c) = false)
    (full : 32 ≤ (getBaton s c (bits v 19 16)).length) : writeBatonPass s c v = bump s (.sem c) 10 1 := by
  have no : ¬ batonRoom s c (bits v 19 16) 1 = true := by rw [batonRoom_one]; omega
  simp [writeBatonPass, free, no]

/-- BATON_PASS to a baton with room: one token behind the others. -/
theorem writeBatonPass_room {s : State} {c : CoreId} {v : Word} (free : isFenced s (.sem c) = false)
    (room : (getBaton s c (bits v 19 16)).length < 32) :
    writeBatonPass s c v = bump (putBaton s c (bits v 19 16) (getBaton s c (bits v 19 16) ++
      [{ value := BitVec.ofNat 16 (bits v 15 0), src := writeSource s c }])) (.sem c) 7 1 := by
  have yes := (batonRoom_one s c (bits v 19 16)).mpr room
  simp [writeBatonPass, batonPut, free, yes]

/-- What a pass leaves: the token, one count, and nothing else. -/
theorem passedToken_spec (s : State) (c : CoreId) (i : Nat) (l : List Token) (h : s.Inv) :
    let t := bump (putBaton s c i l) (.sem c) 7 1
    getBaton t c i = l ∧ ctr t (.sem c) 7 = min (ctr s (.sem c) 7 + 1) (2 ^ 64 - 1) ∧
    (∀ j, j ≠ i → getBaton t c j = getBaton s c j) ∧
    CtrsBut [Block.cnt (.sem c) 7] s t ∧ t = { s with batons := t.batons, counters := t.counters } := by
  refine ⟨getBaton_putBaton s c i l h, ?_, fun j ne => getBaton_putBaton_ne s c i j l h ne, ?_, rfl⟩
  · exact ctr_bump s (.sem c) 7 1 h
  · exact ((CtrsBut.refl _ s).bump (.sem c) 7 1 h.counters (List.mem_singleton_self _)).counters rfl

/-- BATON_POP of a baton that holds a token. -/
theorem writeBatonPop_cons {s : State} {c : CoreId} {v : Word} {x : Token} {l : List Token}
    (head : getBaton s c (bits v 3 0) = x :: l) : writeBatonPop s c v =
      rput (putBaton s c (bits v 3 0) l) (.sem c) Reg.Sm.BATON_TOKEN (wordOf (2 ^ 16 + x.value.toNat)) := by
  unfold writeBatonPop
  simp only [head]

/-- BATON_POP of an empty baton. -/
theorem writeBatonPop_nil {s : State} {c : CoreId} {v : Word} (empty : getBaton s c (bits v 3 0) = []) :
    writeBatonPop s c v = rput s (.sem c) Reg.Sm.BATON_TOKEN 0 := by
  unfold writeBatonPop
  simp only [empty]

/-- What a pop leaves: the baton without its first token, the register, and nothing else. -/
theorem poppedToken_spec (s : State) (c : CoreId) (i off : Nat) (l : List Token) (w : Word) (h : s.Inv) :
    let t := rput (putBaton s c i l) (.sem c) off w
    getBaton t c i = l ∧ rget t (.sem c) off = w ∧ RegsBut [Block.reg (.sem c) off] s t ∧
    t = { s with batons := t.batons, regs := t.regs } :=
  ⟨getBaton_putBaton s c i l h, rget_rput s _ _ _ h,
    ((RegsBut.refl _ s).rput (.sem c) off w h.regs (List.mem_singleton_self _)).regs rfl, rfl⟩

/-- Settles O15, row by row. -/
theorem semaphorePageIsWritten : Obligations.SemaphorePageIsWritten := by
  intro s c v h
  refine ⟨fun i hi idle => ?_, fun idle => ?_, fun n runs => ⟨_, rfl, finishSemFill_spec s c n h runs⟩, fun free room => ?_,
    fun fenced => ?_, fun free full => ?_, fun x l head => ?_, fun empty => ?_⟩
  · obtain ⟨sems, rest⟩ := writeSemData_spec s c v h idle
    subst hi
    exact ⟨_, rfl, (sems _).trans (if_pos rfl), fun j ne => (sems j).trans (if_neg ne), rest⟩
  · exact congrArg Host.Outcome.next (writeSemFill_idle v idle)
  · refine ⟨_, congrArg Host.Outcome.next (writeBatonPass_room free room), ?_⟩
    obtain ⟨passed, count, others, ctrs, rest⟩ := passedToken_spec s c (bits v 19 16) _ h
    exact ⟨passed, count, fun j _ ne => others j ne, ctrs, rest⟩
  · exact congrArg Host.Outcome.next (writeBatonPass_fenced v fenced)
  · exact congrArg Host.Outcome.next (writeBatonPass_full free full)
  · exact ⟨_, congrArg Host.Outcome.next (writeBatonPop_cons head), poppedToken_spec s c _ _ l _ h⟩
  · exact ⟨_, congrArg Host.Outcome.next (writeBatonPop_nil empty), rget_rput s _ _ _ h,
      (OnlyRegs.refl _ s).rput _ _ _ h (List.mem_singleton_self _)⟩

end Sys2Proof.Machine

/-!
PROOFS. The front ends: SYNC_MODE, ring fetch and dispatch, and the waits of commands and of STRIDE_WAIT.
-/
namespace Sys2Proof.Machine

/-! ### SYNC_MODE (R85) -/

/-- A write of SYNC_MODE that changes nothing. -/
theorem writeSyncMode_same {s : State} {c : CoreId} {v : Bool} (same : rbit s (.cp c) Reg.Cp.RING_CTRL 1 = v) :
    writeSyncMode s (.cp c) v = s :=
  if_pos same

/-- A write of SYNC_MODE while the CP is idle. -/
theorem writeSyncMode_idle {s : State} {c : CoreId} {v : Bool} (new : rbit s (.cp c) Reg.Cp.RING_CTRL 1 ≠ v)
    (idle : frontIdle s (.cp c) = true) : writeSyncMode s (.cp c) v = rputBit s (.cp c) Reg.Cp.RING_CTRL 1 v :=
  (if_neg new).trans (if_pos idle)

/-- A change of SYNC_MODE while the CP is not idle: MODE_BUSY. -/
theorem writeSyncMode_busy {s : State} {c : CoreId} {v : Bool} (new : rbit s (.cp c) Reg.Cp.RING_CTRL 1 ≠ v)
    (busy : frontIdle s (.cp c) = false) : writeSyncMode s (.cp c) v = raise s (.cp c) 11 :=
  (if_neg new).trans (if_neg (Bool.not_eq_true _ ▸ busy))

/-- While the CP is idle SYNC_MODE reads as written, and no other register changes. -/
theorem writeSyncMode_taken (s : State) (c : CoreId) (v : Bool) (h : s.Inv) (idle : frontIdle s (.cp c) = true) :
    rbit (writeSyncMode s (.cp c) v) (.cp c) Reg.Cp.RING_CTRL 1 = v ∧
    OnlyRegs [Block.reg (.cp c) Reg.Cp.RING_CTRL] s (writeSyncMode s (.cp c) v) := by
  by_cases same : rbit s (.cp c) Reg.Cp.RING_CTRL 1 = v
  · rw [writeSyncMode_same same]
    exact ⟨same, OnlyRegs.refl _ s⟩
  · rw [writeSyncMode_idle same idle]
    refine ⟨?_, (OnlyRegs.refl _ s).rput _ _ _ h (List.mem_singleton_self _)⟩
    rw [rbit, rputBit, rget_rput _ _ _ _ h, bit_withBit _ _ _ _ (by decide), if_pos rfl]

/-- A write of SYNC_MODE touches neither semaphores nor batons. -/
theorem writeSyncMode_sync (s : State) (c : CoreId) (v : Bool) :
    (writeSyncMode s (.cp c) v).banks = s.banks ∧ (writeSyncMode s (.cp c) v).batons = s.batons := by
  by_cases same : rbit s (.cp c) Reg.Cp.RING_CTRL 1 = v
  · rw [writeSyncMode_same same]
    exact ⟨rfl, rfl⟩
  · cases idle : frontIdle s (.cp c) with
    | true =>
      rw [writeSyncMode_idle same idle]
      exact ⟨rfl, rfl⟩
    | false =>
      rw [writeSyncMode_busy same idle]
      exact raiseWith_sync s (.cp c) 11 Occur.none

/-- Settles O16, from the three cases of `writeSyncMode`. -/
theorem syncModeChangesOnlyWhenIdle : Obligations.SyncModeChangesOnlyWhenIdle := by
  intro s c v h
  refine ⟨fun idle => ⟨_, rfl, writeSyncMode_taken s c v h idle⟩, fun busy new => ?_, fun _ same => ?_, fun t run => ?_⟩
  · exact congrArg Host.Outcome.next (writeSyncMode_busy new busy)
  · exact congrArg Host.Outcome.next (writeSyncMode_same same)
  · cases run
    exact writeSyncMode_sync s c v

/-! ### Fetch and dispatch (R94, R97, R98) -/

/-- A fetch that the memory answers OK: the command's words, behind the fetched ones. -/
theorem fetchOne_ok {s : State} {f : FrontId}
    (place : ringPlaceOk s f (ringAddr s f (rget s f.block Reg.Cp.RING_HEAD).toNat) = true)
    (ok : (readLocal s (reqOf f.block .critical) (ringAddr s f (rget s f.block Reg.Cp.RING_HEAD).toNat) 64).2.1 = .ok) :
    fetchOne s f =
      let r := readLocal s (reqOf f.block .critical) (ringAddr s f (rget s f.block Reg.Cp.RING_HEAD).toNat) 64
      pushFetched r.1 f { words := wordsOf 16 r.2.2, fail := none } := by
  unfold fetchOne
  simp only [place]
  generalize readLocal s (reqOf f.block .critical) (ringAddr s f (rget s f.block Reg.Cp.RING_HEAD).toNat) 64 = r at ok ⊢
  obtain ⟨t, st, d⟩ := r
  subst ok
  exact if_neg (by decide)

/-- A good command other than a STRIDE_WAIT that need not wait for the slots in flight goes to the lowest free slot. -/
theorem dispatchWords_placed {s : State} {f : FrontId} {ws : List Word} {n : Nat}
    (good : badCommand f (batonMode s f) ws = false) (op : cmdOp ws ≠ 0x21)
    (order : cmdOrdered ws = true → (getFront s f).slots = []) (slot : nextSlot s f = some n) :
    dispatchWords s f ws = placeCommand (popFetched s f) f ws n .waiting := by
  have go : ¬ (cmdOrdered ws && (getFront s f).slots ≠ []) = true := by
    simpa using order
  unfold dispatchWords
  simp only [if_neg go, if_neg op, slot, good]
  rfl

/-- DISPATCH of the first fetched command, fetched whole. -/
theorem exec_dispatch_whole {s : State} {f : FrontId} {x : Fetched} {rest : List Fetched} (may : mayDispatch s f = true)
    (first : (getFront s f).fetched = x :: rest) (whole : x.fail = none) :
    exec (.dispatch f) s = .next (dispatchWords s f x.words) := by
  have run : exec (.dispatch f) s = execDispatch f s := rfl
  rw [run]
  simp only [execDispatch, if_pos may, first, whole]

/-- Settles O17, row by row. -/
theorem ringIsFetchedAndDispatched : Obligations.RingIsFetchedAndDispatched := by
  refine ⟨fun s f may place ok => ?_, fun s f x rest n may first whole good op order slot => ?_, fun s f v => rfl⟩
  · rw [exec_ringFetch_may may, fetchOne_ok place ok]
  · rw [exec_dispatch_whole may first whole, dispatchWords_placed good op order slot]

/-! ### Waits (R74, R78, R83) -/

/-- The ready remote ADDs come before the subtraction of an ACQUIRE (R77). -/
def acquireAdds (s : State) (f : FrontId) (x : Slot) : State :=
  if cmdAcquire x.words && !batonMode s f then applyAdds s f (cmdWaitSem x.words) s.semMsgs.length else s

/-- In baton mode an ACQUIRE has no ADDs to wait for. -/
theorem acquireAdds_baton {s : State} {f : FrontId} {x : Slot} (baton : batonMode s f = true) : acquireAdds s f x = s := by
  simp [acquireAdds, baton]

/-- The command at the head of its queue, with its wait still to be evaluated: neither its engine is fenced nor its channel
halted. -/
structure AwaitsHead (s : State) (f : FrontId) (q : Nat) (x : Slot) : Prop where
  head : queueHead s f q = some x
  waiting : x.phase = .waiting
  unfenced : engineFenced s f q (cmdOp x.words) = false
  going : haltedChannel s f q = none

/-- What each result of the evaluation of its wait, in state `u`, leaves. -/
def afterWait (u : State) (f : FrontId) (q : Nat) (x : Slot) : WaitEval → State
  | .unsatisfied => noteWait u f q
  | .satisfied => putSlot (takeWait u f q x.words x.waitFrom) f { x with phase := .ready }
  | .poisoned => putSlot (poisonedWait u f q x.words x.waitFrom) f { x with phase := .ended .poisoned }

/-- Its wait is evaluated after the ready ADDs of its ACQUIRE. -/
theorem evaluateHead_eq {s : State} {f : FrontId} {q : Nat} {x : Slot} (h : AwaitsHead s f q x) :
    evaluateHead s f q = afterWait (acquireAdds s f x) f q x (evalWait (acquireAdds s f x) f q x.words) := by
  unfold evaluateHead
  simp only [h.head, h.waiting, h.unfenced, h.going]
  rw [← acquireAdds]
  cases evalWait (acquireAdds s f x) f q x.words <;> rfl

/-- WAIT_SATISFIED of a command that takes no tokens. -/
theorem exec_waitSatisfied_head {s : State} {f : FrontId} {q : Fin 12} {x : Slot} (head : queueHead s f q.val = some x)
    (plain : takesBaton s f x.words = false) : exec (.waitSatisfied f q) s = .next (evaluateHead s f q.val) := by
  have run : exec (.waitSatisfied f q) s = execWaitSatisfied f q s := rfl
  rw [run]
  simp [execWaitSatisfied, head, plain]

/-- BATON_TAKE of a command that takes tokens. -/
theorem exec_batonTake_head {s : State} {c : CoreId} {q : Fin 12} {x : Slot} (head : queueHead s (.cp c) q.val = some x)
    (takes : takesBaton s (.cp c) x.words = true) : exec (.batonTake c q) s = .next (evaluateHead s (.cp c) q.val) := by
  have run : exec (.batonTake c q) s = execBatonTake c q s := rfl
  rw [run]
  simp [execBatonTake, head, takes]

theorem batonMode_of_takesBaton {s : State} {f : FrontId} {ws : List Word} (h : takesBaton s f ws = true) :
    batonMode s f = true := by
  unfold takesBaton at h
  exact (Bool.and_eq_true_iff.mp h).1

/-! ### STRIDE_WAIT (R93) -/

/-- STRIDE_WAIT of a waiter whose own wait is over looks at the stride count. -/
theorem exec_strideWait_condition {s : State} {f : FrontId} {w : StrideWaiter} (stands : (getFront s f).strideWait = some w)
    (unended : w.ended = none) (done : w.waitDone = true) : exec (.strideWait f) s = .next (strideCondition s f w) := by
  have run : exec (.strideWait f) s = .next (evaluateStrideWait s f) := rfl
  rw [run]
  unfold evaluateStrideWait
  simp only [stands, unended, done]
  rfl

/-- Settles O18: the three results of the evaluation at the head of a queue, and the stride condition. -/
theorem waitsAreTaken : Obligations.WaitsAreTaken := by
  refine ⟨fun s f q x head plain waiting unfenced going => ?_, fun s c q x head takes waiting unfenced going found => ?_,
    fun s f w stands unended done runs reached => ?_⟩
  · have run (r : WaitEval) (found : evalWait (acquireAdds s f x) f q.val x.words = r) :
        exec (.waitSatisfied f q) s = .next (afterWait (acquireAdds s f x) f q.val x r) := by
      rw [exec_waitSatisfied_head head plain, evaluateHead_eq ⟨head, waiting, unfenced, going⟩, found]
    exact ⟨run .satisfied, run .poisoned, run .unsatisfied⟩
  · rw [exec_batonTake_head head takes, evaluateHead_eq ⟨head, waiting, unfenced, going⟩,
      acquireAdds_baton (batonMode_of_takesBaton takes), found, afterWait]
  · rw [exec_strideWait_condition stands unended done]
    exact congrArg Host.Outcome.next (if_pos ⟨runs, reached⟩)

end Sys2Proof.Machine

/-!
PROOFS. The stride master: announcing, receiving and firing ticks, the pins, and the writes of its registers.
-/
namespace Sys2Proof.Machine

/-! ### Announce and fire (R54–R56, R61–R63) -/

/-- A root that may announce its first tick announces it one lead before START_AT. -/
theorem exec_tickAnnounce_first {s : State} (may : mayAnnounce s = true) (first : s.stride.first = true) :
    exec .tickAnnounce s =
      .next (announce { s with now := max s.now (s.stride.startAt - s.stride.tickLead) } false) := by
  have run : exec .tickAnnounce s = execTickAnnounce s := rfl
  rw [run]
  simp [execTickAnnounce, may, first]

/-- The state at A(n+1), its holds sampled. -/
def atAnnounce (s : State) : State :=
  { openHolds s with now := max (openHolds s).now ((openHolds s).stride.planned - (openHolds s).stride.tickLead) }

/-- A root that may announce a later tick announces it where no hold stands, and defers it in state RUNNING where one
does. -/
theorem exec_tickAnnounce_later {s : State} (may : mayAnnounce s = true) (later : s.stride.first = false) :
    exec .tickAnnounce s = .next (
      if heldWord (atAnnounce s) = 0 then announce (atAnnounce s) false
      else if (atAnnounce s).stride.state = 2 then defer (atAnnounce s) else atAnnounce s) := by
  have allowed : ¬ (!mayAnnounce s) = true := by simp [may]
  have notFirst : ¬ s.stride.first = true := by simp [later]
  exact congrArg Host.Outcome.next ((if_neg allowed).trans (if_neg notFirst))

/-- At the end of HOLD_BUDGET a held root announces a hurdle tick. -/
theorem exec_holdBudgetExpiry_held {s : State} (may : mayAnnounce s = true) (stretch : s.stride.state = 3)
    (held : heldWord s ≠ 0) : exec .holdBudgetExpiry s =
      .next (announce { s with now := max s.now (s.stride.planned - s.stride.tickLead + s.stride.budget) } true) := by
  have due : (mayAnnounce s && s.stride.state = 3 && heldWord s ≠ 0) = true := by
    rw [may, decide_eq_true stretch, decide_eq_true held]
    rfl
  exact congrArg Host.Outcome.next (if_pos due)

/-- The first planned tick fires. -/
theorem exec_tickFire_cons {s : State} {p : PlannedTick} {rest : List PlannedTick} (planned : s.stride.next = p :: rest) :
    exec .tickFire s = .next (fireTick { s with now := max s.now p.msg.fire } p) := by
  have run : exec .tickFire s = execTickFire s := rfl
  rw [run]
  simp only [execTickFire, planned]

/-! ### Holds (R62, R395) -/

/-- The hold of a front end, while the master runs past its hold point. -/
theorem exec_holdChange_front {s : State} (f : FrontId) (runs : 2 ≤ s.stride.state) (opened : s.stride.holdOpen = true) :
    exec (.holdChange (.front f)) s = .next (
      let u := assertHold s f (frontHolds s f)
      reportHold (putFront u f { getFront u f with seen := frontHolds s f })) := by
  have run : exec (.holdChange (.front f)) s = execHoldChange (.front f) s := rfl
  rw [run]
  simp [execHoldChange, runs, opened]

/-- The hold of a parking ring, while the master runs past its hold point. -/
theorem exec_holdChange_park {s : State} (p : PortDieId) (runs : 2 ≤ s.stride.state) (opened : s.stride.holdOpen = true) :
    exec (.holdChange (.park p)) s =
      .next (reportHold (putPark s p { getPark s p with seen := (getPark s p).hold })) := by
  have run : exec (.holdChange (.park p)) s = execHoldChange (.park p) s := rfl
  rw [run]
  simp [execHoldChange, runs, opened]

/-! ### Tick messages (R54, R58, R394) -/

/-- What a tick of the parent leaves at a device that is no root, once it has been forwarded: applied on a follower of the
fabric that runs; counted at the port while UNLOCKED, and on the stride master's page while STOPPED. -/
def afterForward (u : State) (p : NauloId) (m : TickMsg) : State :=
  let unlocked := decide (rfield u fabricPage Reg.Fab.SYNC_STATE 1 0 = 0)
  let v := if unlocked then bump u (.naulo p) 14 1 else u
  if v.stride.state = 0 then bump v (activeStride v) 12 1
  else if !unlocked && strideSource v = 1 then applyTick v m
  else v

/-- A tick of the parent is forwarded first. -/
theorem exec_tick_parent {s : State} {d : DeviceId} (p : NauloId) (m : TickMsg) (follows : strideSource s ≠ 0)
    (parent : ttParent s = some d) : exec (.tick p d m) s = .next (afterForward (sendTicks s m) p m) := by
  have run : exec (.tick p d m) s = execTick p d m s := rfl
  rw [run]
  simp only [execTick, if_neg follows, parent, ne_eq, not_true_eq_false, if_false]
  rfl

theorem afterForward_locked {u : State} {m : TickMsg} (p : NauloId)
    (locked : rfield u fabricPage Reg.Fab.SYNC_STATE 1 0 ≠ 0) (runs : u.stride.state ≠ 0) (fabric : strideSource u = 1) :
    afterForward u p m = applyTick u m := by
  simp [afterForward, locked, runs, fabric]

theorem afterForward_unlocked {u : State} {m : TickMsg} (p : NauloId)
    (unlocked : rfield u fabricPage Reg.Fab.SYNC_STATE 1 0 = 0) (runs : u.stride.state ≠ 0) :
    afterForward u p m = bump u (.naulo p) 14 1 := by
  simp [afterForward, unlocked, runs]

theorem afterForward_stopped {u : State} {m : TickMsg} (p : NauloId)
    (locked : rfield u fabricPage Reg.Fab.SYNC_STATE 1 0 ≠ 0) (stopped : u.stride.state = 0) :
    afterForward u p m = bump u (activeStride u) 12 1 := by
  simp [afterForward, locked, stopped]

/-- A tick that is not the parent's. -/
theorem exec_tick_other {s : State} {d : DeviceId} (p : NauloId) (m : TickMsg) (follows : strideSource s ≠ 0)
    (other : ttParent s ≠ some d) : exec (.tick p d m) s = .next (raise s fabricPage Cause.PROTOCOL) := by
  have run : exec (.tick p d m) s = execTick p d m s := rfl
  rw [run]
  simp only [execTick, if_neg follows, if_pos other]

/-- A tick at a root. -/
theorem exec_tick_root {s : State} (p : NauloId) (d : DeviceId) (m : TickMsg) (root : strideSource s = 0) :
    exec (.tick p d m) s = .next (raise s (activeStride s) 10) :=
  congrArg Host.Outcome.next (if_pos root)

/-- Settles O33, row by row. -/
theorem ticksAnnounceAndFire : Obligations.TicksAnnounceAndFire := by
  refine ⟨fun s may first => exec_tickAnnounce_first may first, fun s may later => ?_,
    fun s may stretch held => exec_holdBudgetExpiry_held may stretch held, fun s p rest planned => exec_tickFire_cons planned,
    fun s => rfl, fun s f runs opened => exec_holdChange_front f runs opened,
    fun s p runs opened => exec_holdChange_park p runs opened, fun s p d m follows parent => ?_,
    fun s p d m root => exec_tick_root p d m root, fun s p d m follows other => exec_tick_other p m follows other⟩
  · rw [exec_tickAnnounce_later may later]
    refine ⟨fun clear => congrArg Host.Outcome.next (if_pos clear), fun held runs => ?_⟩
    exact congrArg Host.Outcome.next ((if_neg held).trans (if_pos runs))
  · rw [exec_tick_parent p m follows parent]
    refine ⟨fun locked runs fabric => ?_, fun unlocked runs => ?_, fun locked stopped => ?_⟩
    · rw [afterForward_locked p locked runs fabric]
    · rw [afterForward_unlocked p unlocked runs]
    · rw [afterForward_stopped p locked stopped]

/-! ### STRIDE_OUT (R67) -/

/-- No pulse is due. -/
theorem exec_strideOut_none {s : State} (due : s.stride.outDue = none) : exec .strideOut s = .next s := by
  have run : exec .strideOut s = execStrideOut s := rfl
  rw [run]
  simp only [execStrideOut, due]

/-- The time of a pulse that is due has come. -/
def atRise (s : State) (rise : Nat) : State :=
  { s with now := max s.now rise, stride := { s.stride with outDue := none } }

/-- The pulse that is due leaves where the output is enabled and SOURCE is LOCAL or FABRIC. -/
theorem exec_strideOut_due {s : State} {rise width : Nat} {late : Bool} (due : s.stride.outDue = some (rise, width, late)) :
    exec .strideOut s = .next (
      if bit (sreg s Reg.Str.PIN_CTRL) 0 = true ∧ strideSource s ≤ 1 then
        emit (if late then bump (atRise s rise) (activeStride s) 13 1 else atRise s rise) (.strideOut rise width)
      else atRise s rise) := by
  have run : exec .strideOut s = execStrideOut s := rfl
  rw [run]
  simp only [execStrideOut, due, Bool.and_eq_true, decide_eq_true_eq]
  rfl

/-! ### STRIDE_IN (R68–R71) -/

/-- A pulse rises too soon: less than 7/8 of a period after the last one accepted (R70). -/
def earlyPulse (s : State) (rise : Nat) : Prop := ∃ p, s.stride.lastPulse = some p ∧ 8 * rise < 8 * p + 7 * periodNs s

theorem any_lastPulse_iff (s : State) (rise : Nat) :
    s.stride.lastPulse.any (fun p => 8 * rise < 8 * p + 7 * periodNs s) = true ↔ earlyPulse s rise := by
  simp [earlyPulse, Option.any_eq_true]

theorem classify_glitch {s : State} {rise width : Nat} (short : width < 50) :
    classify s rise width = bump s (activeStride s) 6 1 := by
  have high : ¬ 2000 < width := by omega
  simp [classify, short, high]

/-- A width between the classes. -/
theorem classify_badWidth {s : State} {rise width : Nat}
    (between : 50 ≤ width ∧ width < 100 ∨ 400 < width ∧ width < 450 ∨ 900 < width ∧ width ≤ 2000) :
    classify s rise width = bump s (activeStride s) 7 1 := by
  have high : ¬ 2000 < width := by omega
  have long : ¬ width < 50 := by omega
  have bad : (width < 100 ∨ 400 < width ∧ width < 450) ∨ 900 < width := by omega
  simp [classify, high, long, bad]

/-- A width of a tick or of a hurdle tick: the pulse is early, or it is accepted as one of the two. -/
theorem classify_goodWidth {s : State} {rise width : Nat} (good : 100 ≤ width ∧ width ≤ 400 ∨ 450 ≤ width ∧ width ≤ 900) :
    classify s rise width =
      if s.stride.lastPulse.any (fun p => 8 * rise < 8 * p + 7 * periodNs s) then bump s (activeStride s) 8 1
      else acceptPulse s rise (450 ≤ width) := by
  have high : ¬ 2000 < width := by omega
  have long : ¬ width < 50 := by omega
  have fine : ¬ ((width < 100 ∨ 400 < width ∧ width < 450) ∨ 900 < width) := by omega
  simp [classify, high, long, fine]

theorem classify_early {s : State} {rise width : Nat} (good : 100 ≤ width ∧ width ≤ 400 ∨ 450 ≤ width ∧ width ≤ 900)
    (early : earlyPulse s rise) : classify s rise width = bump s (activeStride s) 8 1 := by
  rw [classify_goodWidth good, if_pos ((any_lastPulse_iff s rise).mpr early)]

theorem classify_tick {s : State} {rise width : Nat} (lo : 100 ≤ width) (hi : width ≤ 400) (due : ¬ earlyPulse s rise) :
    classify s rise width = acceptPulse s rise false := by
  rw [classify_goodWidth (.inl ⟨lo, hi⟩), if_neg (mt (any_lastPulse_iff s rise).mp due), decide_eq_false (by omega)]

theorem classify_hurdle {s : State} {rise width : Nat} (lo : 450 ≤ width) (hi : width ≤ 900) (due : ¬ earlyPulse s rise) :
    classify s rise width = acceptPulse s rise true := by
  rw [classify_goodWidth (.inr ⟨lo, hi⟩), if_neg (mt (any_lastPulse_iff s rise).mp due), decide_eq_true lo]

theorem classify_stuck {s : State} {rise width : Nat} (high : 2000 < width) :
    classify s rise width = modStride (stuckHigh s) (fun x => { x with fell := some (rise + width) }) :=
  if_pos high

/-- The time base goes on to the end of a pulse. -/
def atFall (s : State) (rise width : Nat) : State := { s with now := max s.now (rise + width) }

/-- STRIDE_IN is not sampled. -/
theorem exec_strideInPulse_off {s : State} (rise width : Nat) (off : pinIn s = false) :
    exec (.strideInPulse rise width) s = .next s := by
  have run : exec (.strideInPulse rise width) s = execStrideInPulse rise width s := rfl
  rw [run]
  simp [execStrideInPulse, off]

/-- A pulse at an input that is not stuck is classified at its end. -/
theorem exec_strideInPulse_free {s : State} (rise width : Nat) (on : pinIn s = true) (free : s.stride.stuck = false) :
    exec (.strideInPulse rise width) s = .next (classify (atFall s rise width) rise width) := by
  have run : exec (.strideInPulse rise width) s = execStrideInPulse rise width s := rfl
  rw [run]
  simp [execStrideInPulse, on, free, atFall]

/-- A pulse at a stuck input that has been low for 1,000 ns is classified, and the input stuck no more. -/
theorem exec_strideInPulse_freed {s : State} {rise width f : Nat} (on : pinIn s = true) (stuck : s.stride.stuck = true)
    (fell : s.stride.fell = some f) (low : f + 1000 ≤ rise) :
    exec (.strideInPulse rise width) s = .next (classify { s with
      now := max s.now (rise + width), stride := { s.stride with stuck := false, fell := none } } rise width) := by
  have run : exec (.strideInPulse rise width) s = execStrideInPulse rise width s := rfl
  rw [run]
  simp [execStrideInPulse, on, stuck, fell, low, modStride]

/-- A pulse at a stuck input that has not been low so long is ignored, but for the time at which the input fell. -/
theorem exec_strideInPulse_stuck {s : State} {rise width : Nat} (on : pinIn s = true) (stuck : s.stride.stuck = true)
    (soon : ∀ f, s.stride.fell = some f → rise < f + 1000) :
    exec (.strideInPulse rise width) s = .next { s with
      now := max s.now (rise + width), stride := { s.stride with fell := some (rise + width) } } := by
  have run : exec (.strideInPulse rise width) s = execStrideInPulse rise width s := rfl
  rw [run]
  cases fell : s.stride.fell with
  | none => simp [execStrideInPulse, on, stuck, fell, modStride]
  | some f =>
    have short : ¬ f + 1000 ≤ rise := Nat.not_le.mpr (soon f fell)
    simp [execStrideInPulse, on, stuck, fell, short, modStride]

/-- STRIDE_IN_STUCK is reported once, at an input that is sampled. -/
theorem exec_strideInStuck (s : State) :
    exec .strideInStuck s = .next (if pinIn s = true ∧ s.stride.stuck = false then stuckHigh s else s) := by
  have run : exec .strideInStuck s = execStrideInStuck s := rfl
  rw [run]
  simp [execStrideInStuck]

/-- No pulse has been accepted yet. -/
theorem exec_strideInMissing_none {s : State} (last : s.stride.lastPulse = none) : exec .strideInMissing s = .next s := by
  have run : exec .strideInMissing s = execStrideInMissing s := rfl
  rw [run]
  simp only [execStrideInMissing, last]

/-- What a missing pulse leaves: cause, count, step-skip flag and record, after the time within which it was due (R71). -/
def pulseMissed (s : State) (p : Nat) : State :=
  let b := activeStride s
  let u := { s with now := max s.now (p + periodNs s + holdBudgetNs s + 2000) }
  modStride (sendRecord (stepSkip (bump (raise u b 13) b 10 1) 2) b 13 Occur.none none) (fun x => { x with missing := true })

/-- STRIDE_IN_MISSING is reported once, at a sampled input of a master that is not STOPPED. -/
theorem exec_strideInMissing_some {s : State} {p : Nat} (last : s.stride.lastPulse = some p) :
    exec .strideInMissing s = .next (
      if pinIn s = true ∧ s.stride.missing = false ∧ s.stride.state ≠ 0 then pulseMissed s p else s) := by
  have run : exec .strideInMissing s = execStrideInMissing s := rfl
  rw [run]
  simp only [execStrideInMissing, last, Bool.and_eq_true, Bool.not_eq_true', decide_eq_true_eq, and_assoc]
  rfl

/-- Settles O34: the pulse out, the classes of a pulse in, and the two reports. -/
theorem pinsTickTheDevice : Obligations.PinsTickTheDevice := by
  refine ⟨fun s due => exec_strideOut_none due, fun s rise width late due => ?_,
    fun s rise width off => exec_strideInPulse_off rise width off, fun s rise width on free => ?_,
    fun s rise width on stuck => ⟨fun f fell low => exec_strideInPulse_freed on stuck fell low,
      fun soon => exec_strideInPulse_stuck on stuck soon⟩, fun s => ?_, fun s last => exec_strideInMissing_none last,
    fun s p last => ?_⟩
  · rw [exec_strideOut_due due]
    refine ⟨fun enabled => ?_, fun disabled => congrArg Host.Outcome.next (if_neg disabled)⟩
    rw [if_pos enabled]
    cases late <;> rfl
  · rw [exec_strideInPulse_free rise width on free]
    refine ⟨fun short => ?_, fun between => ?_, fun good early => ?_, fun lo hi due => ?_, fun lo hi due => ?_, fun high => ?_⟩
    · rw [classify_glitch short]; rfl
    · rw [classify_badWidth between]; rfl
    · rw [classify_early (s := atFall s rise width) good early]; rfl
    · rw [classify_tick (s := atFall s rise width) lo hi due]; rfl
    · rw [classify_hurdle (s := atFall s rise width) lo hi due]; rfl
    · rw [classify_stuck high]; rfl
  · rw [exec_strideInStuck]
    exact ⟨fun due => congrArg Host.Outcome.next (if_pos due), fun idle => congrArg Host.Outcome.next (if_neg idle)⟩
  · rw [exec_strideInMissing_some last]
    exact ⟨fun due => congrArg Host.Outcome.next (if_pos due), fun idle => congrArg Host.Outcome.next (if_neg idle)⟩

/-! ### START and STOP (R51, R60, R61, R103, R532) -/

/-- START with good periods leaves STOPPED as a root. -/
theorem writeStart_root {s : State} (stopped : s.stride.state = 0) (good : tickLeadNs s + holdLeadNs s < periodNs s)
    (root : strideSource s = 0) :
    writeStart s = allFronts.foldl evaluateStrideWait { s with stride := { s.stride with
      state := 2, first := true,
      startAt := max (rget64 s (activeStride s) Reg.Str.START_AT_LO Reg.Str.START_AT_HI) (s.now + tickLeadNs s),
      tickLead := tickLeadNs s, budget := holdBudgetNs s, afterHurdle := false, holdOpen := false } } := by
  unfold writeStart
  rw [if_neg (not_not.mpr stopped), if_neg (Nat.not_le.mpr good), root]
  rfl

/-- START with good periods leaves a follower of the fabric or of the pin ARMED. -/
theorem writeStart_follower {s : State} (stopped : s.stride.state = 0)
    (good : tickLeadNs s + holdLeadNs s < periodNs s) (follows : strideSource s = 1 ∨ strideSource s = 2) :
    writeStart s =
      allFronts.foldl evaluateStrideWait { s with stride := { s.stride with state := 1, holdOpen := false } } := by
  unfold writeStart
  rw [if_neg (not_not.mpr stopped), if_neg (Nat.not_le.mpr good)]
  obtain fabric | pin := follows
  · rw [fabric]; rfl
  · rw [pin]; rfl

/-- STOP of a root that has announced a tick waits for it. -/
theorem writeStop_announced {s : State} (runs : s.stride.state ≠ 0) (root : strideSource s = 0) (due : s.stride.next ≠ []) :
    writeStop s =
      modStride (rputBit s (activeStride s) Reg.Str.STRIDE_CTRL 5 true) (fun x => { x with stopping := true }) := by
  simp [writeStop, runs, root, due]

/-- STOP of any other running master is done at once. -/
theorem writeStop_halts {s : State} (runs : s.stride.state ≠ 0) (free : strideSource s ≠ 0 ∨ s.stride.next = []) :
    writeStop s = haltStride s := by
  have now : ¬ (strideSource s = 0 ∧ s.stride.next ≠ []) := by tauto
  simp [writeStop, runs, now]

/-! ### Timing registers, STRIDE_COUNT and holds (R51, R53, R60, R395) -/

/-- A timing register is taken while STOPPED within its limits, and no other register changes. -/
theorem writeTiming_stopped {s : State} (off lo hi : Nat) {v : Word} (h : s.Inv) (stopped : s.stride.state = 0)
    (low : lo ≤ v.toNat) (high : v.toNat ≤ hi) :
    sreg (writeTiming s off lo hi v) off = v ∧ OnlyRegs [(activeStride s).reg off] s (writeTiming s off lo hi v) := by
  have taken : writeTiming s off lo hi v = rput s (activeStride s) off v := by
    simp [writeTiming, stopped, Nat.not_lt.mpr low, Nat.not_lt.mpr high]
  rw [taken]
  exact ⟨rget_rput s (activeStride s) off v h, (OnlyRegs.refl _ s).rput _ _ _ h (List.mem_singleton_self _)⟩

/-- A half of STRIDE_COUNT is taken while STOPPED. -/
theorem writeCount_stopped {s : State} (high : Bool) (v : Word) (stopped : s.stride.state = 0) :
    writeCount s high v = { s with stride := { s.stride with count :=
      if high then v.toNat * 2 ^ 32 + s.stride.count % 2 ^ 32 else s.stride.count / 2 ^ 32 * 2 ^ 32 + v.toNat } } :=
  if_neg (not_not.mpr stopped)

/-- A half of STRIDE_COUNT is ignored otherwise. -/
theorem writeCount_running {s : State} (high : Bool) (v : Word) (runs : s.stride.state ≠ 0) : writeCount s high v = s :=
  if_pos runs

/-- A child's release of its hold. -/
theorem exec_hold_release {s : State} {d : DeviceId} (first : DeviceId) (n : Nat) (child : (ttChildren s).contains d = true) :
    exec (.hold d n false first) s = .next (reportHold
      { bump s (activeStride s) 11 1 with
        lost := s.lost.filter (· ≠ d),
        stride := { s.stride with childHolds := s.stride.childHolds.filter (fun c => c.1 ≠ d) } }) := by
  have known : ¬ (ttChildren s).contains d = false := by rw [child]; decide
  exact congrArg Host.Outcome.next (if_neg known)

/-- Settles O35, register by register. -/
theorem strideRegistersAreWritten : Obligations.StrideRegistersAreWritten := by
  refine ⟨fun s stopped good root => ?_, fun s stopped good follows => ?_, fun s runs root due => ?_,
    fun s runs free => ?_, fun s v => rfl, fun s v h stopped => ⟨fun low high => ?_, fun low high => ?_, fun high => ?_,
      fun high => ?_⟩, fun s v stopped _ => ⟨?_, ?_⟩, fun s high v runs => ?_, fun s d first n child => ?_⟩
  · exact congrArg Host.Outcome.next (writeStart_root stopped good root)
  · exact congrArg Host.Outcome.next (writeStart_follower stopped good follows)
  · exact congrArg Host.Outcome.next (writeStop_announced runs root due)
  · exact congrArg Host.Outcome.next (writeStop_halts runs free)
  · exact ⟨_, rfl, writeTiming_stopped Reg.Str.STRIDE_PERIOD 10000 50000000 h stopped low high⟩
  · exact ⟨_, rfl, writeTiming_stopped Reg.Str.TICK_LEAD 1000 1000000 h stopped low high⟩
  · exact ⟨_, rfl, writeTiming_stopped Reg.Str.HOLD_LEAD 0 1000000 h stopped (Nat.zero_le _) high⟩
  · exact ⟨_, rfl, writeTiming_stopped Reg.Str.HOLD_BUDGET 0 50000000 h stopped (Nat.zero_le _) high⟩
  · exact congrArg Host.Outcome.next (writeCount_stopped true v stopped)
  · exact congrArg Host.Outcome.next (writeCount_stopped false v stopped)
  · exact congrArg Host.Outcome.next (writeCount_running high v runs)
  · exact exec_hold_release first n child

end Sys2Proof.Machine

/-!
PROOFS. The commands of a core that run in one piece: the products of MATMUL, the vector commands, gather and scatter,
copies and fills.
-/
namespace Sys2Proof.Machine

/-! ### A command's run (R89, R98) -/

/-- A command that starts and runs its body leaves that run's state with its slot at the run's status, where the run does
not have to wait. -/
theorem runSlot_started_ends {s : State} {f : FrontId} {x : Slot} {body : Run Unit} (finished : (ranAs s f x body).2 ≠ .delayed) :
    runSlot (running s f x) f (started s f x) body = ended s f x body := by
  rw [runSlot_ends finished, started_id]
  rfl

/-- Where the run has to wait, the command stays started and waits at its engine with the copies of its start. -/
theorem runSlot_started_waits {s : State} {f : FrontId} {x : Slot} {body : Run Unit} (waits : (ranAs s f x body).2 = .delayed) :
    runSlot (running s f x) f (started s f x) body = waitSlot (running s f x) f (started s f x) (ranAs s f x body).1 :=
  runSlot_waits waits

/-- The row of a command that may start runs its body on the started slot. -/
theorem exec_slot_may {s : State} {f : FrontId} {slot op : Nat} {one : Bool} {x : Slot} {i : Instr} {body : Slot → Run Unit}
    (row : exec i s = .next (startCommand s f slot [op] one (fun s x => runSlot s f x (body x))))
    (may : MayStart s f slot op one x) :
    exec i s = .next (runSlot (running s f x) f (started s f x) (body (started s f x))) := by
  rw [row, startCommand_may _ may]

/-! ### MATMUL (R104, R121, R123) -/

/-- The row of a mode of MATMUL runs the command that may start and has that mode. -/
theorem exec_matmul_may {s : State} {c : CoreId} {slot mode : Nat} {x : Slot} {i : Instr}
    (row : exec i s = .next (startMatmul c slot mode s)) (may : MayStart s (.cp c) slot 0x01 false x)
    (chosen : cf x.words 4 6 5 = mode) :
    exec i s = .next (runSlot (running s (.cp c) x) (.cp c) (started s (.cp c) x) (runMatmul c (started s (.cp c) x))) := by
  have starts : startMatmul c slot mode s =
      startCommand s (.cp c) slot [0x01] false (fun s x => runSlot s (.cp c) x (runMatmul c x)) := by
    simp only [startMatmul, may.head, if_pos chosen]
  exact exec_slot_may (body := runMatmul c) (row.trans (congrArg Host.Outcome.next starts)) may

/-! ### The rows (R104, R138, R142, R145, R210, R214, R313, R315) -/

/-- Settles O21: each row runs its command's body on the started slot, and that run ends or has to wait. -/
theorem arrayAndVectorCommandsRun : Obligations.ArrayAndVectorCommandsRun := by
  intro s c slot op one x body i y r may row
  have runs : exec i s = .next (runSlot (running s (.cp c) x) (.cp c) y body) := by
    obtain ⟨rfl, rfl, mode, rfl, rfl⟩ | ⟨rfl, rfl, mode, rfl, rfl⟩ | ⟨rfl, rfl, mode, rfl, rfl⟩ | ⟨rfl, rfl, rfl, rfl⟩ |
      ⟨rfl, rfl, rfl, rfl⟩ | ⟨rfl, rfl, rfl, rfl⟩ | ⟨rfl, rfl, rfl, rfl⟩ | ⟨rfl, rfl, rfl, rfl⟩ | ⟨rfl, rfl, rfl, rfl⟩ |
      ⟨rfl, rfl, rfl, rfl⟩ := row
    · exact exec_matmul_may rfl may mode
    · exact exec_matmul_may rfl may mode
    · exact exec_matmul_may rfl may mode
    · exact exec_slot_may (body := runEltwise c) rfl may
    · exact exec_slot_may (body := runReduce c) rfl may
    · exact exec_slot_may (body := runGather c) rfl may
    · exact exec_slot_may (body := runScatter c) rfl may
    · exact exec_slot_may (body := runCopy c) rfl may
    · exact exec_slot_may (body := runTranspose c) rfl may
    · exact exec_slot_may (body := runFill c) rfl may
  rw [runs]
  exact ⟨fun finished => congrArg Host.Outcome.next (runSlot_started_ends finished),
    fun waits => congrArg Host.Outcome.next (runSlot_started_waits waits)⟩

end Sys2Proof.Machine

/-!
PROOFS. The pod-tiled products and PREDICT, the commands of a core that a publish lock may hold.
-/
namespace Sys2Proof.Machine

/-- The row of a command that a lock may hold runs the body of one that may start on the started slot. -/
theorem exec_held_may {s : State} {c : CoreId} {slot op : Nat} {x : Slot} {i : Instr} {body : Slot → Run Unit}
    (row : exec i s = .next (startCommand s (.cp c) slot [op] false (fun s x => runHeld s (.cp c) c x (body x))))
    (may : MayStart s (.cp c) slot op false x) :
    exec i s = .next (runHeld (running s (.cp c) x) (.cp c) c (started s (.cp c) x) (body (started s (.cp c) x))) := by
  rw [row, startCommand_may _ may]

/-- A started command that a lock may hold ends its wait and its slot with its run, where that does not have to wait. -/
theorem runHeld_started_ends {s : State} {c : CoreId} {x : Slot} {body : Run Unit}
    (finished : (ranAs s (.cp c) x body).2 ≠ .delayed) :
    runHeld (running s (.cp c) x) (.cp c) c (started s (.cp c) x) body =
      endSlot (endLockWait (ranAs s (.cp c) x body).1.st c (started s (.cp c) x)) (.cp c) x.id (ranAs s (.cp c) x body).2 := by
  rw [runHeld_ends finished, started_id]
  rfl

/-- Settles O22: each row runs its command's body on the started slot, and that run ends or is held. -/
theorem podCommandsRun : Obligations.PodCommandsRun := by
  intro s c slot op x body i y r s0 may row
  have runs : exec i s = .next (runHeld s0 (.cp c) c y body) := by
    obtain ⟨rfl, rfl, rfl⟩ | ⟨rfl, rfl, rfl⟩ | ⟨rfl, rfl, rfl⟩ | ⟨rfl, rfl, rfl⟩ := row
    · exact exec_held_may (body := runPod c) rfl may
    · exact exec_held_may (body := runPodT c) rfl may
    · exact exec_held_may (body := runMasked c) rfl may
    · exact exec_held_may (body := runPredict c) rfl may
  rw [runs]
  exact ⟨fun finished => congrArg Host.Outcome.next (runHeld_started_ends finished),
    fun waits => congrArg Host.Outcome.next (runHeld_waits waits)⟩

end Sys2Proof.Machine

/-!
PROOFS. Descriptor creation, deletion and batches.
-/
namespace Sys2Proof.Machine

/-! ### DESC_CREATE (R156) -/

/-- A write with GO that is taken leaves the operation written, and the index as it is. -/
theorem startCreate_fields {s : State} {o : TableOwner} {k : Nat} (i : s.Inv) (h : k < 4) (free : creating s o = false) :
    rfield (startCreate s o k) (descBlock o) (createOff o) 17 16 = k ∧
    createIndex (startCreate s o k) o = createIndex s o := by
  have taken : startCreate s o k = rputBit (setCreateOp s o k) (descBlock o) (createOff o) 31 true :=
    if_neg (by simp [free])
  have word : rget (startCreate s o k) (descBlock o) (createOff o) =
      withBits (withBits (rget s (descBlock o) (createOff o)) 17 16 k) 31 31 1 := by
    rw [taken, rputBit, setCreateOp, rputField, rget_rput _ _ _ _ (inv_rput _ _ _ i), rget_rput _ _ _ _ i]
    rfl
  simp only [createIndex, rfield, word]
  constructor
  · rw [bits_withBits_ne _ _ _ _ _ _ (by decide) (by decide) (by decide) (by decide),
      bits_withBits _ _ _ _ (by decide) (by decide)]
    exact Nat.mod_eq_of_lt h
  · rw [bits_withBits_ne _ _ _ _ _ _ (by decide) (by decide) (by decide) (by decide),
      bits_withBits_ne _ _ _ _ _ _ (by decide) (by decide) (by decide) (by decide)]

theorem inv_startCreate {s : State} (o : TableOwner) (k : Nat) (i : s.Inv) : (startCreate s o k).Inv :=
  (startCreate_keeps s o k (.refl s)).inv i

/-- The operation that GO has started clears GO when it has run without having to wait. -/
theorem runCreate_ends {s t : State} {o : TableOwner} {k : Nat} {x : State → State × Status} {st : Status}
    (op : rfield (startCreate s o k) (descBlock o) (createOff o) 17 16 = k) (run : x (startCreate s o k) = (t, st))
    (finished : st ≠ .delayed) : runCreate s o k x = rputBit t (descBlock o) (createOff o) 31 false := by
  unfold runCreate
  simp only [op, run]
  cases st <;> simp_all

/-! ### Creation (R156, R158, R159, R164) -/

/-- The index of DESC_CREATE is a number of 16 bits. -/
theorem createIndex_lt (s : State) (o : TableOwner) : createIndex s o < 65536 := Nat.mod_lt _ (by decide)

/-- A success shows its index in DESC_RESULT. -/
theorem createDone_result {s : State} (o : TableOwner) (n : Nat) (i : s.Inv) :
    rfield (createDone s o n) (descBlock o) (resultOff o) 30 0 = n % 65536 := by
  rw [createDone, rputField, rfield, rget_rput _ _ _ _ i, bits_withBits _ _ _ _ (by decide) (by decide)]
  omega

/-- A written entry shows its index in DESC_RESULT. -/
theorem writeEntry_result {s u : State} {o : TableOwner} {n : Nat} {w : List Word} (i : s.Inv)
    (h : writeEntry s o n w = (u, .ok)) : rfield u (descBlock o) (resultOff o) 30 0 = n % 65536 := by
  have kept := writeLocal_keeps s (createReq o) (entryAddr s o n) (bytesOf w) (.refl s)
  unfold writeEntry at h
  split at h
  next t e =>
    obtain ⟨rfl, -⟩ := Prod.mk.inj h
    exact createDone_result o n ((kept.fst e).inv i)
  next => simp at h
  next => simp at h

/-- A descriptor created over the entry read shows its index there: counting a core's creation changes no register. -/
theorem createOver_result {s u : State} {o : TableOwner} {l : Lookup} {n : Nat} {w : List Word}
    {r : State × Status × List Word} (i : r.1.Inv) (h : createOver s o l n w r = (u, .ok)) :
    rfield u (descBlock o) (resultOff o) 30 0 = n % 65536 := by
  unfold createOver at h
  split at h
  next t old =>
    split at h
    next t' e =>
      obtain ⟨rfl, -⟩ := Prod.mk.inj h
      have done := writeEntry_result i e
      split <;> exact done
    next => exact writeEntry_result i h
  next => simp at h
  next => simp at h

/-- A descriptor that has been created shows its index in DESC_RESULT. -/
theorem createAt_result {s u : State} {o : TableOwner} {n : Nat} {w : List Word} (i : s.Inv)
    (h : createAt s o n w = (u, .ok)) : rfield u (descBlock o) (resultOff o) 30 0 = n % 65536 := by
  have members := readMembers_keeps s o (membersOf w) (.refl s)
  unfold createAt at h
  split at h
  next => simp at h
  next t _ m _ e =>
    have entry := (tableEntry_keeps t o n (members.fst e)).inv i
    obtain ⟨-, failed⟩ | ⟨-, created⟩ := ite_eq_iff.mp h
    · simp at failed
    · exact createOver_result entry created

/-! ### Deletion and batches (R156, R157) -/

/-- A deletion whose entry can be read and written writes it back not VALID, with its generation counted. -/
theorem deleteOp_done {s u v : State} {o : TableOwner} {w d : List Word} (index : indexCode s o (createIndex s o) = 0)
    (entry : tableEntry s o (createIndex s o) = (u, .ok, w)) (cleared : d = w.set 0 (withBit (wordAt w 0) 31 false))
    (write : writeLocal u (createReq o) (entryAddr u o (createIndex s o))
      (bytesOf (d.set 15 (withBits (wordAt d 15) 7 0 ((cf d 15 7 0 + 1) % 256)))) = (v, .ok)) :
    deleteOp s o = (createDone v o (createIndex s o), .ok) := by
  subst cleared
  simp [deleteOp, index, entry, writeEntry, write]

/-- A batch of some slots that does not overlap the table goes through them with its count of done ones at 0. -/
theorem batchOp_apart {s s0 : State} {o : TableOwner} {n : Nat} (count : n = rfield s (descBlock o) (batchCountOff o) 15 0)
    (nonempty : n ≠ 0) (start : s0 = rputField s (descBlock o) (batchCountOff o) 31 16 0)
    (apart : overlaps (batchSrc s o) (64 * n) (tablePlace s0 o).1 (tablePlace s0 o).2 = false) :
    batchOp s o = batchFrom s0 o (batchSrc s o) (rfield s (descBlock o) (batchFirstOff o) 15 0) n 0 := by
  subst start
  simp [batchOp, ← count, nonempty, apart]

/-- Settles O26: the write of GO by its fields, then each operation by what it leaves before GO is cleared. -/
theorem descriptorsAreCreated : Obligations.DescriptorsAreCreated := by
  intro s o inv go clearGo op
  refine ⟨fun k h free => startCreate_fields inv h free, fun u create made => ⟨?_, ?_⟩,
    fun u v i w d delete index good entry cleared write => ?_, fun s0 n v st batch count nonempty start apart run finished => ?_⟩
  · exact congrArg Host.Outcome.next (runCreate_ends (x := (createOp · o)) create made (by decide))
  · rw [createAt_result (inv_startCreate o 0 inv) made, Nat.mod_eq_of_lt (createIndex_lt _ o)]
  · subst index
    exact congrArg Host.Outcome.next
      (runCreate_ends (x := (deleteOp · o)) delete (deleteOp_done good entry cleared write) (by decide))
  · exact congrArg Host.Outcome.next
      (runCreate_ends (x := (batchOp · o)) batch ((batchOp_apart count nonempty start apart).trans run) finished)

end Sys2Proof.Machine

/-!
PROOFS. The commands of an update-and-thinning engine: UPDATE in APPLY and NORM mode, THIN, SPROUT and DRIFT_AUDIT.
-/
namespace Sys2Proof.Machine

/-! ### A command's run at its engine (R89, R98) -/

/-- A command that starts at its engine and runs its body leaves that run's state, with its slot at the run's status unless
the run leaves it running, where the run does not have to wait. -/
theorem runEngine_started_ends {s : State} {f : FrontId} {x : Slot} {body : Run Unit}
    (finished : (ranAs s f x body).2 ≠ .delayed) :
    runEngine (running s f x) f (started s f x) body =
      if (getSlot (ranAs s f x body).1.st f x.id).any (fun z => z.phase = .running) then (ranAs s f x body).1.st
      else endSlot (ranAs s f x body).1.st f x.id (ranAs s f x body).2 := by
  rw [runEngine_ends finished, started_id]
  rfl

/-- The row of an engine's command that may start runs its body on the started slot. -/
theorem exec_engine_may {s : State} {f : FrontId} {slot op : Nat} {x : Slot} {i : Instr} {body : Slot → Run Unit}
    (row : exec i s = .next (startCommand s f slot [op] false (fun s x => runEngine s f x (body x))))
    (may : MayStart s f slot op false x) :
    exec i s = .next (runEngine (running s f x) f (started s f x) (body (started s f x))) := by
  rw [row, startCommand_may _ may]

/-- The row of a mode of UPDATE runs the command that may start and has that mode: starting it keeps its mode. -/
theorem exec_update_may {s : State} {f : FrontId} {slot op mode : Nat} {x : Slot} {i : Instr} {body : Slot → Run Unit}
    (row : exec i s = .next (startCommand s f slot [op] false (fun s x =>
      if cf x.words 5 6 5 = mode then runEngine s f x (body x) else s)))
    (may : MayStart s f slot op false x) (chosen : cf x.words 5 6 5 = mode) :
    exec i s = .next (runEngine (running s f x) f (started s f x) (body (started s f x))) := by
  rw [row, startCommand_may _ may, started_words, if_pos chosen]

/-! ### The rows (R230, R242, R271, R280, R281) -/

/-- Settles O23: each row runs its command's body on the started slot, and that run ends or has to wait. -/
theorem updateEngineCommandsRun : Obligations.UpdateEngineCommandsRun := by
  intro s h slot op x body i y r may row
  have runs : exec i s = .next (runEngine (running s (.hub h) x) (.hub h) y body) := by
    obtain ⟨rfl, mode, rfl, rfl⟩ | ⟨rfl, mode, rfl, rfl⟩ | ⟨rfl, rfl, rfl⟩ | ⟨rfl, rfl, rfl⟩ | ⟨rfl, rfl, rfl⟩ := row
    · exact exec_update_may (body := runApply h) rfl may mode
    · exact exec_update_may (body := runNorm h) rfl may mode
    · exact exec_engine_may (body := runThin h false) rfl may
    · exact exec_engine_may (body := runThin h true) rfl may
    · exact exec_engine_may (body := runAudit h) rfl may
  rw [runs]
  exact ⟨fun finished => congrArg Host.Outcome.next (runEngine_started_ends finished),
    fun waits => congrArg Host.Outcome.next (runEngine_waits waits)⟩

end Sys2Proof.Machine

/-!
PROOFS. Publishing: the arming of a list, the locks at their receivers, "old done", the publish and the unlock.
-/
namespace Sys2Proof.Machine

/-! ### A lock becomes active (R248) -/

/-- A receiver without old commands has nothing to wait for: its lock is done at once. -/
theorem activated_free {s : State} {r : LockHolder} {l : Lock} (holder : l.holder = r) (free : oldCommands s r = []) :
    activated s l = { l with active := true, done := true, old := [] } := by
  simp [activated, holder, free]

/-- A receiver with old commands keeps them in its lock, which is not done. -/
theorem activated_old {s : State} {r : LockHolder} {l : Lock} (holder : l.holder = r) (old : oldCommands s r ≠ []) :
    activated s l = { l with active := true, done := false, old := oldCommands s r } := by
  simp [activated, holder, old]

/-- A due lock is one of its receiver. -/
theorem holder_of_dueLock {s : State} {r : LockHolder} {l : Lock} (due : dueLock s r l = true) : l.holder = r := by
  simp only [dueLock, Bool.and_eq_true, decide_eq_true_eq] at due
  exact due.1.1

/-- The locks of which the due ones become active, where activation changes a lock of this receiver by `g`. -/
theorem map_activated {s : State} {r : LockHolder} {g : Lock → Lock} (act : ∀ l : Lock, l.holder = r → activated s l = g l) :
    s.locks.map (fun l => if dueLock s r l then activated s l else l) =
      s.locks.map (fun l => if dueLock s r l then g l else l) :=
  List.map_congr_left fun l _ => ite_congr rfl (fun due => act l (holder_of_dueLock due)) (fun _ => rfl)

/-! ### The report of a lock that has become active (R248) -/

/-- An engine reports "old done" to nobody. -/
theorem reportActive_engine {s t : State} {l : Lock} {h : HubId} (holder : l.holder = .engine h) :
    reportActive t (activated s l) = t := by
  simp [reportActive, reportOldDone, activated, holder]

/-- A proxy with old commands has nothing to report yet. -/
theorem reportActive_old {s t : State} {l : Lock} {r : LockHolder} (holder : l.holder = r) (old : oldCommands s r ≠ []) :
    reportActive t (activated s l) = t := by
  simp [reportActive, activated, holder, old]

/-- A proxy without old commands reports "old done" to the engine that sent the lock. -/
theorem reportActive_free {s t : State} {l : Lock} {cd : Fin 16} (holder : l.holder = .proxy cd)
    (free : oldCommands s (.proxy cd) = []) :
    reportActive t (activated s l) = { t with oldMsgs := t.oldMsgs ++ [(cd, l.hub, l.id)] } := by
  simp [reportActive, reportOldDone, activated, holder, free]

/-- Locks that have no report to make leave the state. -/
theorem foldl_reportActive_silent {s : State} (ls : List Lock) (t : State)
    (silent : ∀ l ∈ ls, reportActive t (activated s l) = t) : (ls.map (activated s)).foldl reportActive t = t := by
  induction ls with
  | nil => rfl
  | cons l ls ih =>
    rw [List.map_cons, List.foldl_cons, silent l (.head _)]
    exact ih fun k member => silent k (.tail _ member)

/-- The locks of a proxy without old commands are reported one behind the other. -/
theorem foldl_reportActive_free {s : State} {cd : Fin 16} (ls : List Lock) (t : State)
    (holders : ∀ l ∈ ls, l.holder = .proxy cd) (free : oldCommands s (.proxy cd) = []) :
    (ls.map (activated s)).foldl reportActive t =
      { t with oldMsgs := t.oldMsgs ++ ls.map (fun l => (cd, l.hub, l.id)) } := by
  induction ls generalizing t with
  | nil => simp
  | cons l ls ih =>
    rw [List.map_cons, List.foldl_cons, reportActive_free (holders l (.head _)) free,
      ih _ fun k member => holders k (.tail _ member)]
    simp

/-! ### LOCK_ACTIVATE (R248, R253) -/

/-- The state in which a receiver's due locks have become active and reported. -/
def locksActivated (s : State) (r : LockHolder) : State :=
  ((s.locks.filter (dueLock s r)).map (activated s)).foldl reportActive
    { s with locks := s.locks.map (fun l => if dueLock s r l then activated s l else l) }

/-- While the stride master runs, a proxy's row is the activation of its due locks. -/
theorem exec_lockActivate_proxy {s : State} {cd : Fin 16} (runs : 2 ≤ s.stride.state) :
    exec (.lockActivate (.proxy cd)) s = .next (locksActivated s (.proxy cd)) :=
  congrArg Host.Outcome.next (if_neg (by omega))

/-- And at an engine its lists have their tick behind it. -/
theorem exec_lockActivate_engine {s : State} {h : HubId} (runs : 2 ≤ s.stride.state) :
    exec (.lockActivate (.engine h)) s = .next (firePubs (locksActivated s (.engine h)) h) :=
  congrArg Host.Outcome.next (if_neg (by omega))

/-- An engine has no old commands, and no report to make. -/
theorem locksActivated_engine (s : State) (h : HubId) : locksActivated s (.engine h) = { s with
    locks := s.locks.map (fun l => if dueLock s (.engine h) l then { l with active := true, done := true, old := [] } else l) } := by
  rw [locksActivated, map_activated fun l holder => activated_free holder rfl]
  exact foldl_reportActive_silent _ _ fun l member => reportActive_engine (holder_of_dueLock (List.of_mem_filter member))

/-- A proxy without old commands reports each of its due locks. -/
theorem locksActivated_free {s : State} {cd : Fin 16} (free : oldCommands s (.proxy cd) = []) :
    locksActivated s (.proxy cd) = { s with
      locks := s.locks.map (fun l => if dueLock s (.proxy cd) l then { l with active := true, done := true, old := [] } else l),
      oldMsgs := s.oldMsgs ++ (s.locks.filter (dueLock s (.proxy cd))).map (fun l => (cd, l.hub, l.id)) } := by
  rw [locksActivated, map_activated fun l holder => activated_free holder free,
    foldl_reportActive_free _ _ (fun l member => holder_of_dueLock (List.of_mem_filter member)) free]

/-- A proxy with old commands keeps them in each of its due locks, and reports nothing. -/
theorem locksActivated_old {s : State} {cd : Fin 16} (old : oldCommands s (.proxy cd) ≠ []) :
    locksActivated s (.proxy cd) = { s with locks := s.locks.map (fun l => if dueLock s (.proxy cd) l then
      { l with active := true, done := false, old := oldCommands s (.proxy cd) } else l) } := by
  rw [locksActivated, map_activated fun l holder => activated_old holder old]
  exact foldl_reportActive_silent _ _ fun l member => reportActive_old (holder_of_dueLock (List.of_mem_filter member)) old

/-! ### PENDING_LOCK (R247, R248) -/

/-- The next lock that an engine has sent to a receiver names both. -/
theorem ends_of_lockMsg {s : State} {r : LockHolder} {h : HubId} {l : Lock}
    (next : s.lockMsgs.find? (fun l => l.holder = r && l.hub = h) = some l) : l.holder = r ∧ l.hub = h := by
  simpa using List.find?_some next

/-- A lock whose stride has not come is registered as pending. -/
theorem exec_pendingLock_early {s : State} {r : LockHolder} {h : HubId} {l : Lock}
    (next : s.lockMsgs.find? (fun l => l.holder = r && l.hub = h) = some l) (early : s.stride.count < l.target) :
    exec (.pendingLock r h) s = .next (lockReply { s with
      lockMsgs := s.lockMsgs.erase l, locks := s.locks ++ [l] } h r l.id false) := by
  refine congrArg Host.Outcome.next ?_
  simp [next, Nat.not_le.mpr early]

/-- A lock whose stride has come is registered as active, with the report that is due. -/
theorem exec_pendingLock_late {s : State} {r : LockHolder} {h : HubId} {l : Lock}
    (next : s.lockMsgs.find? (fun l => l.holder = r && l.hub = h) = some l) (late : l.target ≤ s.stride.count) :
    exec (.pendingLock r h) s = .next (lockReply (reportActive { s with
      lockMsgs := s.lockMsgs.erase l, locks := s.locks ++ [activated s l] } (activated s l)) h r l.id true) := by
  refine congrArg Host.Outcome.next ?_
  simp [next, late]

/-- A late lock at a proxy without old commands is done, and reported at once. -/
theorem exec_pendingLock_free {s : State} {cd : Fin 16} {h : HubId} {l : Lock}
    (next : s.lockMsgs.find? (fun l => l.holder = .proxy cd && l.hub = h) = some l) (late : l.target ≤ s.stride.count)
    (free : oldCommands s (.proxy cd) = []) :
    exec (.pendingLock (.proxy cd) h) s = .next (lockReply { s with
      lockMsgs := s.lockMsgs.erase l, locks := s.locks ++ [{ l with active := true, done := true, old := [] }],
      oldMsgs := s.oldMsgs ++ [(cd, h, l.id)] } h (.proxy cd) l.id true) := by
  obtain ⟨holder, rfl⟩ := ends_of_lockMsg next
  rw [exec_pendingLock_late next late, reportActive_free holder free, activated_free holder free]

/-- A late lock at a proxy with old commands is kept with them, and not reported. -/
theorem exec_pendingLock_old {s : State} {cd : Fin 16} {h : HubId} {l : Lock}
    (next : s.lockMsgs.find? (fun l => l.holder = .proxy cd && l.hub = h) = some l) (late : l.target ≤ s.stride.count)
    (old : oldCommands s (.proxy cd) ≠ []) :
    exec (.pendingLock (.proxy cd) h) s = .next (lockReply { s with
      lockMsgs := s.lockMsgs.erase l,
      locks := s.locks ++ [{ l with active := true, done := false, old := oldCommands s (.proxy cd) }] }
      h (.proxy cd) l.id true) := by
  obtain ⟨holder, -⟩ := ends_of_lockMsg next
  rw [exec_pendingLock_late next late, reportActive_old holder old, activated_old holder old]

/-! ### Arming, "old done", publish and unlock (R247, R249, R251, R256) -/

/-- A write of PUB_ARM_GO whose list can be read and is armed leaves GO set. -/
theorem exec_pubArmGo_armed {s u v : State} {h : HubId} {l : List StagedRec}
    (free : rbit s (.hub h) Reg.Hub.PUB_ARM_GO 0 = false)
    (read : readList s (reqOf (.hub h) .critical) (rget64 s (.hub h) Reg.Hub.PUB_ARM_LIST_LO Reg.Hub.PUB_ARM_LIST_HI)
      (rfield s (.hub h) Reg.Hub.PUB_ARM_COUNT 21 0) 0 = (u, .ok, l))
    (armed : armList u h none .ok (rget64 s (.hub h) Reg.Hub.PUB_ARM_LIST_LO Reg.Hub.PUB_ARM_LIST_HI)
      (rfield s (.hub h) Reg.Hub.PUB_ARM_COUNT 21 0) (listRange l)
      (rget64 s (.hub h) Reg.Hub.PUB_ARM_STRIDE_LO Reg.Hub.PUB_ARM_STRIDE_HI) = (v, true)) :
    exec (.pubArmGo h) s = .next (rputBit v (.hub h) Reg.Hub.PUB_ARM_GO 0 true) := by
  refine congrArg Host.Outcome.next ?_
  simp [manualArm, free, read, armManual, armed]

/-- The report of a proxy is noted in the list that it is for. -/
theorem exec_oldDone_noted {s : State} {cd : Fin 16} {h : HubId} {id : Nat}
    (next : s.oldMsgs.find? (fun m => m.1 = cd && m.2.1 = h) = some (cd, h, id)) :
    exec (.oldDone cd h) s = .next (modPub { s with oldMsgs := s.oldMsgs.erase (cd, h, id) } h id
      (fun p => { p with oldDone := p.oldDone ++ [cd] })) := by
  refine congrArg Host.Outcome.next ?_
  simp [next]

/-- The list whose tick has fired is published with the last report. -/
theorem exec_publish_done {s : State} {h : HubId} {p : PubList} (front : frontPub s h = some p) (done : allOldDone p = true) :
    exec (.publish h) s = .next (runPublish s h p) := by
  refine congrArg Host.Outcome.next ?_
  simp [front, done]

/-- Without the last report it is published at the wait limit, with the cause and the step's skip flag. -/
theorem exec_publishTimeout_undone {s : State} {h : HubId} {p : PubList} (front : frontPub s h = some p)
    (undone : allOldDone p = false) :
    exec (.publishTimeout h) s = .next (runPublish (modPub (stepSkip (raise
      { s with now := max s.now (p.fireNs + rfield s (.hub h) Reg.Hub.PUB_WAIT_LIMIT 25 0) } (.hub h) 20) 3) h p.id
        (fun _ => { p with oldDone := List.finRange 16 })) h { p with oldDone := List.finRange 16 }) := by
  refine congrArg Host.Outcome.next ?_
  simp [front, undone]

/-- An unlock behind its lock removes it. -/
theorem exec_unlock_removes {s : State} {r : LockHolder} {h : HubId} {id : Nat}
    (next : s.unlockMsgs.find? (fun m => m.1 = r && m.2.1 = h) = some (r, h, id))
    (behind : s.lockMsgs.any (fun l => l.holder = r && l.hub = h && l.id = id) = false) :
    exec (.unlock r h) s = .next { s with
      unlockMsgs := s.unlockMsgs.erase (r, h, id),
      locks := s.locks.filter (fun l => !(l.holder = r && l.hub = h && l.id = id)) } := by
  refine congrArg Host.Outcome.next ?_
  simp only [next, behind]
  rfl

/-! ### The rows -/

/-- Settles O38, row by row. -/
theorem listsAreLockedAndPublished : Obligations.ListsAreLockedAndPublished := by
  refine ⟨fun s u v h l free read armed => exec_pubArmGo_armed free read armed,
    fun s r h l next => ⟨exec_pendingLock_early next, ?_⟩, fun s h runs => ?_, fun s cd runs => ⟨fun free => ?_, fun old => ?_⟩,
    fun s cd h id => exec_oldDone_noted,
    fun s h p front => ⟨exec_publish_done front, exec_publishTimeout_undone front⟩,
    fun s r h id => exec_unlock_removes⟩
  · rintro cd late rfl
    exact ⟨exec_pendingLock_free next late, exec_pendingLock_old next late⟩
  · rw [exec_lockActivate_engine runs, locksActivated_engine]
  · rw [exec_lockActivate_proxy runs, locksActivated_free free]
  · rw [exec_lockActivate_proxy runs, locksActivated_old old]

end Sys2Proof.Machine

/-!
PROOFS. The step ledger and the votes on a step: what a result makes of the ledger, and where votes, results and decisions go.
-/
namespace Sys2Proof.Machine

/-! ### What an occurrence of a cause leaves of the ledger (R48) -/

theorem sendRecord_ledger (s : State) (b : Block) (cause : Nat) (o : Occur) (cls : Option Nat) :
    (sendRecord s b cause o cls).ledger = s.ledger ∧ (sendRecord s b cause o cls).decisionMsgs = s.decisionMsgs := by
  unfold sendRecord
  split
  · exact ⟨rfl, rfl⟩
  · dsimp only
    split <;> exact ⟨rfl, rfl⟩

theorem setCause_ledger (s : State) (b : Block) (cause : Nat) (tag : Tag) :
    (setCause s b cause tag).ledger = s.ledger ∧ (setCause s b cause tag).decisionMsgs = s.decisionMsgs := by
  unfold setCause
  dsimp only
  split <;> exact ⟨rfl, rfl⟩

/-- An occurrence of a cause changes neither the ledger nor the decisions on their way. -/
theorem raiseWith_ledger (s : State) (b : Block) (cause : Nat) (o : Occur) :
    (raiseWith s b cause o).ledger = s.ledger ∧ (raiseWith s b cause o).decisionMsgs = s.decisionMsgs := by
  obtain ⟨setLedger, setMsgs⟩ := setCause_ledger s b cause o.tag
  unfold raiseWith
  dsimp only
  split
  · obtain ⟨sentLedger, sentMsgs⟩ := sendRecord_ledger (setCause s b cause o.tag) b cause o none
    exact ⟨sentLedger.trans setLedger, sentMsgs.trans setMsgs⟩
  · exact ⟨setLedger, setMsgs⟩

@[simp] theorem raise_ledger (s : State) (b : Block) (cause : Nat) : (raise s b cause).ledger = s.ledger :=
  (raiseWith_ledger s b cause Occur.none).1

@[simp] theorem raise_decisionMsgs (s : State) (b : Block) (cause : Nat) :
    (raise s b cause).decisionMsgs = s.decisionMsgs :=
  (raiseWith_ledger s b cause Occur.none).2

@[simp] theorem commitUnits_ledger (s : State) : (commitUnits s).ledger = s.ledger := rfl

/-! ### The decision (R261, R262, R265) -/

/-- Does a result commit the step (R265)? -/
def commits (c : Contribution) : Bool := !c.skip && !c.nonfinite && !c.torn && decide (c.stepMin = c.stepMax)

/-- The ledger that has decided on a result. -/
def decidedLedger (l : Ledger) (c : Contribution) (n : Nat) : Ledger :=
  { l with
    lastDecision := some (commits c), lastStep := l.stepId, norm := normWord c.norm,
    committed := if commits c then l.committed + 1 else l.committed, phase := .decided, voteStride := n,
    lastFirst := c.firstDevice, lastFlags := (c.skip, c.nonfinite, c.torn, decide (c.stepMin ≠ c.stepMax)) }

/-- The close of a step that was already due when it was decided: at once, with skip set in the step that opens (R266). -/
def closeLate (s : State) : State :=
  stepSkip { (closeStep (raise (bump s ledgerPage 6 1) ledgerPage 10)) with replan := true } 4

/-- A result commits where it flags nothing and all voted for the same step. -/
theorem commits_eq (c : Contribution) :
    (!Contribution.flags c && !decide (c.stepMin ≠ c.stepMax)) = commits c := by
  simp [commits, Contribution.flags, Bool.and_assoc]

/-- Deciding leaves the decided ledger with counts and causes noted, sends the decision, and closes a step that is already
due. -/
theorem decide_result_spec (s : State) (c : Contribution) (n : Nat) :
    ∃ u : State, u.ledger = decidedLedger s.ledger c n ∧
      decide_ s c n = if closeDue (sendDecision u) then closeLate (sendDecision u) else sendDecision u := by
  unfold decide_
  refine ⟨_, ?_, rfl⟩
  simp only [apply_ite State.ledger, raise_ledger, commitUnits_ledger, bump_ledger, ite_self, commits_eq]
  rfl

/-- The decision goes to each of the six engines. -/
theorem mem_sendDecision {s : State} {k : Nat} (engine : k < 6) :
    (k, { known := true, step := s.ledger.lastStep, commit := s.ledger.lastDecision = some true,
          committed := s.ledger.committed, norm := s.ledger.norm }) ∈ (sendDecision s).decisionMsgs :=
  List.mem_append_right _ (List.mem_map_of_mem (List.mem_range.mpr engine))

/-- A late close opens the next step with skip set. -/
theorem closeLate_ledger (s : State) :
    (closeLate s).ledger = { s.ledger with
      stepId := (s.ledger.stepId + 1) % 2 ^ 64, phase := .open_, next := LedgerSet.clear,
      current := { s.ledger.next with skip := true, sources := s.ledger.next.sources ||| (1#11 <<< 4) } } := by
  simp [closeLate, stepSkip, closeStep]

theorem closeLate_decisionMsgs (s : State) : (closeLate s).decisionMsgs = s.decisionMsgs := by
  simp [closeLate, stepSkip, closeStep]

/-- Settles O37: the decided ledger and its decision, which a close that is already due leaves but for the step that opens. -/
theorem ledgerDecides : Obligations.LedgerDecides := by
  intro s c n commit count d t
  obtain ⟨u, ledger, decided⟩ := decide_result_spec s c n
  have sent : ∀ k, k < 6 → (k, d) ∈ (sendDecision u).decisionMsgs := fun k engine => by
    have mem := mem_sendDecision (s := u) engine
    rw [ledger] at mem
    simp only [decidedLedger, Option.some.injEq, Bool.decide_eq_true] at mem
    exact mem
  have sentLedger : (sendDecision u).ledger = decidedLedger s.ledger c n := ledger
  have run : t = _ := decided
  rw [run]
  by_cases late : closeDue (sendDecision u) = true
  · rw [if_pos late, closeLate_ledger, closeLate_decisionMsgs, sentLedger]
    exact ⟨rfl, rfl, rfl, rfl, rfl, rfl, rfl, sent, .inr ⟨rfl, rfl, rfl⟩⟩
  · rw [if_neg late, sentLedger]
    exact ⟨rfl, rfl, rfl, rfl, rfl, rfl, rfl, sent, .inl ⟨rfl, rfl⟩⟩

/-! ### Votes and results (R264, R413, R533, R534) -/

/-- VOTE of a child of a valid group at an engine that has sampled nothing: a first vote is kept. -/
theorem exec_vote_kept {s u : State} {p : NauloId} {g : Fin 256} {d : DeviceId} {v : Contribution} {ws : List Word}
    (entry : peekEntry s p g = (u, some ws)) (valid : (groupEntry ws).valid = true)
    (child : (groupEntry ws).kids.contains d = true) (unfenced : isFenced u (.relay (groupEntry ws).engine) = false)
    (first : repeated (getRelay u (groupEntry ws).engine) g d v = false)
    (awaited : stoodFor (getRelay u (groupEntry ws).engine) g d v = false)
    (idle : (getRelay u (groupEntry ws).engine).vote = none) :
    exec (.vote p g d v) s = .next (putRelay u (groupEntry ws).engine
      { getRelay u (groupEntry ws).engine with
        votes := (getRelay u (groupEntry ws).engine).votes ++ [{ group := g, child := d, vote := v }] }) := by
  have run : exec (.vote p g d v) s = execVote p g d v s := rfl
  have taken : (Option.map groupEntry (some ws)).filter (fun x => x.valid && x.kids.contains d) = some (groupEntry ws) := by
    simp only [Option.map_some, Option.filter_some, valid, child, Bool.and_self, if_true]
  rw [run, execVote, entry]
  simp only [messageEngine, takeVote, taken, unfenced, first, awaited, idle]
  rfl

/-- VOTE_RESULT from the parent, of a step that is not decided, at an engine that has sampled for the group. -/
theorem exec_voteResult_parent {s u : State} {p : NauloId} {g : Fin 256} {d : DeviceId} {v : Contribution} {n : Nat}
    {ws : List Word} {r : VoteRun} (entry : peekEntry s p g = (u, some ws))
    (unfenced : isFenced u (.relay (groupEntry ws).engine) = false)
    (sampled : (getRelay u (groupEntry ws).engine).vote = some r) (valid : (groupEntry ws).valid = true)
    (inner : (groupEntry ws).root = false) (parent : (groupEntry ws).parent = d)
    (current : stepDecided u.ledger v = false) (group : r.group = g) :
    exec (.voteResult p g d v n) s = .next (finishVote u (groupEntry ws).engine r v n) := by
  have run : exec (.voteResult p g d v n) s = execVoteResult p g d v n s := rfl
  rw [run, execVoteResult, entry]
  simp [messageEngine, takeResult, unfenced, sampled, valid, inner, parent, current, group]

/-- STAND_IN for a child that has not been heard from, before the vote has gone up. -/
theorem exec_standIn_missing {s : State} {e : RelayId} {child : DeviceId} {r : VoteRun} (runs : (getRelay s e).vote = some r)
    (mine : (groupEntry r.entry).kids.contains child = true) (missing : r.heard.contains child = false)
    (unsent : r.sent = none) :
    exec (.standIn e child) s = .next (
      let u := if routeUp s child then { s with now := max s.now (r.sampled + collTimeout s e) } else s
      let w := putRelay u e { getRelay u e with stood := noteVote (getRelay u e).stood r.group.val child r.step }
      voteUp (loseChild (bump w (.relay e) 22 1) child) e
        { r with combined := Contribution.join r.combined (standInVote r child), heard := r.heard ++ [child] }) := by
  have run : exec (.standIn e child) s = execStandIn e child s := rfl
  rw [run]
  simp only [execStandIn, runs, mine, missing, unsent]
  rfl

/-- VOTE_RESULT_LOST while the parent's route has a port up: the ledger decides alone once the time is over. -/
theorem exec_voteResultLost_routed {s : State} {e : RelayId} {r : VoteRun} {t : Nat} {x : Slot}
    (runs : (getRelay s e).vote = some r) (sent : r.sent = some t) (routed : routeUp s (groupEntry r.entry).parent = true)
    (slot : getSlot s (.relay e) r.slot = some x) :
    exec (.voteResultLost e) s = .next (
      let u := { s with now := max s.now (t + collTimeout s e) }
      let w := putRelay u e { getRelay u e with vote := none }
      endColl (decideAlone (raiseTag w (.relay e) 16 (cmdTag x.words) 0x50)) e r.slot .aborted) := by
  have run : exec (.voteResultLost e) s = execVoteResultLost e s := rfl
  have kept : ∀ (now : Nat) (y : Relay), getSlot (putRelay { s with now := now } e y) (.relay e) r.slot = some x :=
    fun _ _ => slot
  rw [run]
  simp only [execVoteResultLost, runs, sent, routed, if_true, kept]

/-! ### The close, decisions on their way, SW_SKIP and TORN_CLEAR (R261, R265, R266, R268) -/

theorem exec_stepClose_due {s : State} (due : closeDue s = true) : exec .stepClose s = .next (closeStep s) :=
  congrArg Host.Outcome.next (if_pos due)

/-- The state in which an engine has received a decision on its way to it. -/
def decisionArrived (s : State) (k : Nat) (d : Decision) : State :=
  { s with decisionMsgs := s.decisionMsgs.erase (k, d),
           decisions := tset Decision.reset s.decisions k { d with known := true } }

/-- The oldest decision on its way to an engine arrives; a slow-tier engine files it in its parking ring. -/
theorem exec_decision_found {s : State} {e : DecisionEngine} {k : Nat} {d : Decision}
    (oldest : s.decisionMsgs.find? (fun m => m.1 = decEngine e) = some (k, d)) :
    exec (.decision e) s = .next (match e with
      | .slow p => fileDecision (decisionArrived s k d) p d
      | .hub _ => decisionArrived s k d) := by
  have run : exec (.decision e) s = .next (deliverDecision s e) := rfl
  rw [run, deliverDecision, oldest]
  cases e <;> rfl

/-- SW_SKIP counts, and sets skip with its source in the set that receives events. -/
theorem exec_swSkip (s : State) : exec .swSkip s = .next (bump (stepSkip s 5) ledgerPage 8 1) := by
  have run : exec .swSkip s = .next (stepSkip (bump s ledgerPage 8 1) 5) := rfl
  rw [run]
  unfold stepSkip
  cases phase : s.ledger.phase <;> simp only [bump_ledger, phase] <;> rfl

theorem stepSkip_open {s : State} (src : Nat) (phase : s.ledger.phase = .open_) :
    stepSkip s src = { s with ledger := { s.ledger with
      current := { s.ledger.current with skip := true, sources := s.ledger.current.sources ||| (1#11 <<< src) } } } := by
  simp only [stepSkip, phase]

theorem stepSkip_not_open {s : State} (src : Nat) (phase : s.ledger.phase ≠ .open_) :
    stepSkip s src = { s with ledger := { s.ledger with
      next := { s.ledger.next with skip := true, sources := s.ledger.next.sources ||| (1#11 <<< src) } } } := by
  unfold stepSkip
  split
  · contradiction
  · rfl

/-- Settles O36, row by row. -/
theorem votesAndDecisions : Obligations.VotesAndDecisions := by
  refine ⟨fun s u p g d v ws entry valid child unfenced first awaited idle =>
      exec_vote_kept entry valid child unfenced first awaited idle,
    fun s u p g d v n ws r entry unfenced sampled valid inner parent current group =>
      exec_voteResult_parent entry unfenced sampled valid inner parent current group,
    fun s due => exec_stepClose_due due, fun s h k d oldest => exec_decision_found oldest,
    fun s p k d oldest => exec_decision_found oldest,
    fun s e child r runs mine missing unsent => exec_standIn_missing runs mine missing unsent,
    fun s e r t x runs sent routed slot => exec_voteResultLost_routed runs sent routed slot,
    fun s phase => ?_, fun s phase => ?_, fun s => rfl⟩
  · rw [exec_swSkip, stepSkip_open 5 phase]
    rfl
  · rw [exec_swSkip, stepSkip_not_open 5 phase]
    rfl

end Sys2Proof.Machine

/-!
PROOFS. The slow tier: the commands of its engines and their parking rings, the CXL ports with their expanders, and the
service-class windows.
-/
namespace Sys2Proof.Machine

/-! ### LAP (R285, R286, R288) -/

/-- A PARK that may start and does not have to wait ends its engine's hold and its slot. -/
theorem exec_park_ends {s : State} {p : PortDieId} {slot : Nat} {x : Slot} (may : MayStart s (.slow p) slot 0x48 false x)
    (park : cb x.words 5 5 = false)
    (finished : (ranAs s (.slow p) x (runPark p (started s (.slow p) x))).2 ≠ .delayed) :
    exec (.park p slot) s = .next (
      endSlot (endParkHold (ranAs s (.slow p) x (runPark p (started s (.slow p) x))).1.st p) (.slow p) x.id
        (ranAs s (.slow p) x (runPark p (started s (.slow p) x))).2) := by
  have run : exec (.park p slot) s = execPark p slot s := rfl
  rw [run, execPark, startCommand_may _ may]
  simp only [started_words, park, started_id]
  unfold ranAs at finished ⊢
  split
  next => contradiction
  next =>
    split
    next e => exact absurd (congrArg Prod.snd e) finished
    next e => rw [e]

/-- A PARK that has to wait waits at its engine, which holds the stride where the ring had no free slot. -/
theorem exec_park_waits {s : State} {p : PortDieId} {slot : Nat} {x : Slot} (may : MayStart s (.slow p) slot 0x48 false x)
    (park : cb x.words 5 5 = false)
    (waits : (ranAs s (.slow p) x (runPark p (started s (.slow p) x))).2 = .delayed) :
    exec (.park p slot) s = .next (
      let r := (ranAs s (.slow p) x (runPark p (started s (.slow p) x))).1
      let w := waitSlot (running s (.slow p) x) (.slow p) (started s (.slow p) x) r
      if r.full then startParkHold w p else w) := by
  have run : exec (.park p slot) s = execPark p slot s := rfl
  rw [run, execPark, startCommand_may _ may]
  simp only [started_words, park]
  unfold ranAs at waits ⊢
  split
  next => contradiction
  next =>
    split
    next e => rw [e]
    next no e =>
      rw [e] at waits
      exact (no waits).elim

/-- A RUN that may start runs its body on the started slot. -/
theorem exec_run_may {s : State} {p : PortDieId} {slot : Nat} {x : Slot} (may : MayStart s (.slow p) slot 0x48 false x)
    (run : cb x.words 5 5 = true) :
    exec (.run p slot) s = .next (runEngine (running s (.slow p) x) (.slow p) (started s (.slow p) x)
      (Sys2Proof.Machine.runRun p (started s (.slow p) x))) := by
  have row : exec (.run p slot) s = execRun p slot s := rfl
  rw [row, execRun, startCommand_may _ may, started_words, if_pos run]

/-- Settles O24: PARK and RUN, each by whether its run has to wait. -/
theorem slowTierEngineCommandsRun : Obligations.SlowTierEngineCommandsRun := by
  intro s p slot x y s0 rp rr wp may
  refine ⟨fun park => ⟨exec_park_ends may park, exec_park_waits may park⟩, fun run => ?_⟩
  rw [exec_run_may may run]
  exact ⟨fun finished => congrArg Host.Outcome.next (runEngine_started_ends finished),
    fun waits => congrArg Host.Outcome.next (runEngine_waits waits)⟩

/-! ### The parking ring's registers (R283) -/

/-- The registers of a parking ring's configuration. -/
def parkRegs : List Nat := [Reg.Slow.PARK_BASE_LO, Reg.Slow.PARK_BASE_HI, Reg.Slow.PARK_SLOT_UNITS, Reg.Slow.PARK_CFG]

theorem exec_parkCfg_taken {s : State} {p : PortDieId} {off : Nat} {v : Word} (reg : off ∈ parkRegs)
    (idle : parkIdle s p = true) (valid : parkValid (rwrite s (.slow p) off v) p = true) :
    exec (.parkCfg p off v) s = .next (rwrite s (.slow p) off v) := by
  have row : exec (.parkCfg p off v) s = .next (if parkRegs.contains off then writeParkCfg s p off v else s) := rfl
  have taken : writeParkCfg s p off v = rwrite s (.slow p) off v := if_pos (by rw [idle, valid]; rfl)
  rw [row, if_pos (List.contains_iff_mem.mpr reg), taken]

/-! ### Requests to an expander (R356, R357, R365) -/

section
variable {s : State} {p : CxlId} {who : Block} {tag : Tag} {cls : SvcClass} {offset : Nat} {a : Access}

/-- A request within the expander on a free way to a port that is not fenced, while the link is down. -/
theorem exec_cxlRequest_down (within : offset + accessBytes a ≤ expanderBytes s p)
    (way : rowWay s who (slowBase + slowWindow * p.val + offset) (accessBytes a) = .free)
    (unfenced : isFenced s (.cxl p) = false) (down : cxlUp s p = false) :
    exec (.cxlRequest p who tag cls offset a) s = .next (respond who (s, .aborted, [])) := by
  have row : exec (.cxlRequest p who tag cls offset a) s = execCxlRequest p who tag cls offset a s := rfl
  rw [row]
  simp [execCxlRequest, Nat.not_lt.mpr within, way, unfenced, down]

/-- Such a request while the link is up, which a speculative one that would wait does not pass. -/
theorem exec_cxlRequest_up {j : Bool × Option Dest} (within : offset + accessBytes a ≤ expanderBytes s p)
    (way : rowWay s who (slowBase + slowWindow * p.val + offset) (accessBytes a) = .free)
    (unfenced : isFenced s (.cxl p) = false) (up : cxlUp s p = true)
    (judged : judge s (rowReq who tag cls) [(.cxl p, 0)] false = j) :
    exec (.cxlRequest p who tag cls offset a) s = .next (
      let u := arrive s (rowReq who tag cls) j
      if j.1 then respond who (u, .refused, [])
      else
        let flits : Nat × Nat := match a with
          | .read n => (0, n)
          | .write d => (d.length, 0)
        splitCxl (travel (noteServed u (rowReq who tag cls) [(.cxl p, 0)]) who (slowBase + slowWindow * p.val + offset)
          flits.1 flits.2) p who tag cls offset a) := by
  have row : exec (.cxlRequest p who tag cls offset a) s = execCxlRequest p who tag cls offset a s := rfl
  subst judged
  rw [row]
  cases a <;> simp [execCxlRequest, Nat.not_lt.mpr within, way, unfenced, up]

end

/-! ### The expander's answers (R357, R358, R364, R367) -/

/-- What a port notes of an answer to a transaction: the time, DEVLOAD, and the counts of overload and of late responses. -/
def responseNoted (s : State) (p : CxlId) (q : CxlReq) (late : Bool) (load : Fin 4) : State :=
  let limit := q.issuedAt + rfield s (.cxl p) Reg.Cxl.RESP_LIMIT 19 0
  let t := { s with now := if late then max s.now (limit + 1) else s.now }
  let u := rput t (.cxl p) Reg.Cxl.DEVLOAD (wordOf load.val)
  let v := if 2 ≤ load.val then bump u (.cxl p) 9 1 else u
  if limit < v.now then bump v (.cxl p) 7 1 else v

section
variable {s : State} {p : CxlId} {xid : Nat} {q : CxlReq}

theorem exec_expanderResponse_read (late poison : Bool) (load : Fin 4) (data : List Byte) {n : Nat}
    (found : s.cxlReqs.find? (fun q => q.port = p && q.xid = xid && q.issued && q.done.isNone) = some q)
    (read : q.acc = .read n) :
    exec (.expanderResponse p xid late poison load data) s = .next (releaseHeld (pumpCxl
      (doneCxl (cxlReadDone (responseNoted s p q late load) q poison data).1 q
        (cxlReadDone (responseNoted s p q late load) q poison data).2) p 2)) := by
  have row : exec (.expanderResponse p xid late poison load data) s =
      .next (releaseHeld (expanderAnswer s p xid late poison load data)) := rfl
  rw [row, expanderAnswer, found]
  simp only [read]
  rfl

theorem exec_expanderResponse_write (late poison : Bool) (load : Fin 4) (data : List Byte) {d : List Byte}
    (found : s.cxlReqs.find? (fun q => q.port = p && q.xid = xid && q.issued && q.done.isNone) = some q)
    (write : q.acc = .write d) :
    exec (.expanderResponse p xid late poison load data) s = .next (releaseHeld (pumpCxl
      (doneCxl (cxlWriteDone (responseNoted s p q late load) q d) q (.ok, [])) p 2)) := by
  have row : exec (.expanderResponse p xid late poison load data) s =
      .next (releaseHeld (expanderAnswer s p xid late poison load data)) := rfl
  rw [row, expanderAnswer, found]
  simp only [write]
  rfl

end

/-! ### Link loss and training (R356, R359) -/

theorem cxlLost_up {s : State} {p : CxlId} (up : cxlUp s p = true) :
    cxlLost s p = sendRecord (bump (raise (cxlDown s p) (.cxl p) 8) (.cxl p) 8 1) (.cxl p) 8 Occur.none none :=
  if_neg (by simp [up])

/-- A good training at the full width and rate. -/
theorem trainCxl_full {s : State} {p : CxlId} {t : LinkTrain} {capacity : Nat} {id : Word} (linked : t.linked = true)
    (good : t.good = true) (width : t.width = 16) (speed : t.speed = 6) :
    trainCxl s p t capacity id =
      let u := rputBit (rput (rput (cxlDown s p) (.cxl p) Reg.Cxl.LINK_STATUS 0) (.cxl p) Reg.Cxl.EXP_CAPACITY 0) (.cxl p)
        Reg.Hdr.STATUS 5 false
      let v := rput (rput u (.cxl p) Reg.Cxl.PORT_CTRL 0) (.cxl p) Reg.Cxl.LINK_STATUS 0x80100006#32
      rput (rput v (.cxl p) Reg.Cxl.EXP_CAPACITY (wordOf (min capacity 8192))) (.cxl p) Reg.Cxl.EXP_ID id := by
  have status : wordOf 0x80100006 = 0x80100006#32 := by decide
  simp [trainCxl, linked, good, width, speed, status]

/-! ### The service-class window (R368) -/

/-- The counts of a service-class window. -/
def svcRegs : List Nat :=
  [Reg.Svc.DELAYED_COUNT, Reg.Svc.REFUSED_COUNT, Reg.Svc.LAST_REFUSED, Reg.Svc.LAST_REFUSED_NODE, Reg.Svc.LAST_DELAYED,
    Reg.Svc.LAST_DELAYED_NODE, Reg.Svc.WORST_CRIT_NS, Reg.Svc.WORST_BULK_NS]

/-- Registers that all take one word hold it. -/
theorem rget_rputAll_const (b : Block) (w : Word) {k : Nat} (l : List Nat) {s : State} (i : s.Inv) (m : k ∈ l) :
    rget (rputAll b id (fun _ _ => w) l s) b k = w := by
  induction l generalizing s with
  | nil => cases m
  | cons x l ih =>
    have j : (rput s b x w).Inv := inv_rput b x w i
    by_cases later : k ∈ l
    · exact ih j later
    · obtain rfl : k = x := (List.mem_cons.mp m).resolve_right later
      have kept := (rputAll_only b id (fun _ _ => w) (m := l.map b.reg) l j fun y hy => List.mem_map_of_mem hy).regs b k
        (by simpa [reg_inj] using later)
      exact kept.trans (rget_rput s b k w i)

theorem clearSvc_eq {s : State} {b : Block} (svc : hasSvc b = true) :
    clearSvc s b = rputAll b id (fun _ _ => 0) svcRegs s := if_pos svc

/-- Settles O32, row by row. -/
theorem slowTierServes : Obligations.SlowTierServes := by
  refine ⟨fun s p who tag cls offset a within way unfenced => ⟨exec_cxlRequest_down within way unfenced,
      fun x up judged => ⟨?_, ?_⟩, fun x up judged => ?_⟩,
    fun s p xid late poison load data q found => ⟨fun n read => exec_expanderResponse_read late poison load data found read,
      fun d write => exec_expanderResponse_write late poison load data found write⟩,
    fun s p up => ?_, fun s p t capacity id may linked good width speed => ?_, fun s p => rfl, fun s b k i svc m => ?_,
    fun s p off v reg idle valid => exec_parkCfg_taken reg idle valid⟩
  · rintro n rfl
    exact exec_cxlRequest_up within way unfenced up judged
  · rintro d rfl
    exact exec_cxlRequest_up within way unfenced up judged
  · exact exec_cxlRequest_up within way unfenced up judged
  · exact congrArg (fun t => Host.Outcome.next (releaseHeld t)) (cxlLost_up up)
  · have trains : exec (.cxlRetrain p t capacity id) s = .next (releaseHeld (trainCxl s p t capacity id)) :=
      congrArg Host.Outcome.next (if_pos may)
    rw [trains, trainCxl_full linked good width speed]
  · exact ⟨rputAll b id (fun _ _ => 0) svcRegs s, congrArg Host.Outcome.next (clearSvc_eq svc),
      rget_rputAll_const b 0 svcRegs i m, rputAll_only b id _ svcRegs i fun y hy => List.mem_map_of_mem hy⟩

end Sys2Proof.Machine

/-!
PROOFS. The waking of a core memory's segment; the retry and the resumption of a DMA channel.
-/
namespace Sys2Proof.Machine

/-! ### Waking (R308, R311) -/

theorem outside_iff (k n x : Nat) : outside k n x = true ↔ x < k ∨ k + n ≤ x := by
  simp [outside]

/-- After a fill with zeros the bytes with bad parity are those that had it outside the range. -/
theorem mem_badParity_zeroRange (s : State) (k n x : Nat) :
    x ∈ (zeroRange s k n).badParity ↔ x ∈ s.badParity ∧ (x < k ∨ k + n ≤ x) := by
  rw [zeroRange_rest, List.mem_filter, outside_iff]

/-- The bytes of memory do not depend on the segments' power states. -/
theorem getByte_putSeg (s : State) (c : CoreId) (m : CoreMem) (k : Nat) (x : Segm) (j : Nat) :
    getByte (putSeg s c m k x) j = getByte s j := rfl

/-- The state after a WAKING segment has woken: its range holds zeros, and it is ON, or DRAINING where its bit of SEG_OFF
is set again. -/
def woken (s : State) (c : CoreId) (m : CoreMem) (k : Nat) : State :=
  putSeg (zeroRange s (coreAddr c m (k * segBytes m)) (segBytes m)) c m k { getSeg s c m k with
    phase := if rbit (zeroRange s (coreAddr c m (k * segBytes m)) (segBytes m)) (.mem c m) Reg.Mem.SEG_OFF k
      then .draining else .on }

theorem exec_wakeComplete {s : State} {c : CoreId} {m : CoreMem} {k : Fin 11} (waking : (getSeg s c m k.val).phase = .waking) :
    exec (.wakeComplete c m k) s = .next (woken s c m k.val) :=
  congrArg Host.Outcome.next (if_pos waking)

/-- Settles O29, from what a fill with zeros leaves of the bytes and of the marks. -/
theorem wakingWritesZeros : Obligations.WakingWritesZeros := by
  intro s c m k i waking
  refine ⟨woken s c m k.val, exec_wakeComplete waking, fun o within => ⟨?_, fun bad => ?_⟩, fun j apart => ?_,
    fun j apart => ?_, ?_⟩
  · rw [woken, getByte_putSeg, getByte_zeroRange _ _ _ _ i, if_pos (by omega)]
  · obtain ⟨-, apart⟩ := (mem_badParity_zeroRange ..).mp bad
    omega
  · rw [woken, getByte_putSeg, getByte_zeroRange _ _ _ _ i, if_neg (by omega)]
  · exact (mem_badParity_zeroRange ..).trans (and_iff_left apart)
  · rw [woken, zeroRange_rest]
    rfl

/-! ### DMA channels (R333, R334) -/

/-- A field of a register, after it has been written. -/
theorem rfield_rputField (s : State) (b : Block) {off hi lo : Nat} (v : Nat) (i : s.Inv) (h : lo ≤ hi) (h32 : hi < 32) :
    rfield (rputField s b off hi lo v) b off hi lo = v % 2 ^ (hi - lo + 1) := by
  rw [rfield, rputField, rget_rput _ _ _ _ i, bits_withBits _ _ _ _ h h32]

/-- A channel whose request is to be made again makes it, with one retry fewer left. -/
theorem dmaReissue_request {s : State} {c : CoreId} {ch : Fin 8} {left : Nat} {x : Slot}
    (again : (getDma s c ch).retry = some left) (slot : getSlot s (.cp c) (getDma s c ch).slot = some x) :
    dmaReissue s c ch =
      dmaGo (putDma (countRetry s c ch) c ch { getDma s c ch with retry := some (left - 1) }) c ch x := by
  simp only [dmaReissue, slot, again]

theorem dmaResume_halted {s : State} {c : CoreId} {ch : Fin 8} (halted : rfield s (.dma c ch) Reg.Dma.DMA_STATE 1 0 = 2) :
    dmaResume s c ch = dmaState s c ch 0 := if_pos halted

theorem dmaResume_other {s : State} {c : CoreId} {ch : Fin 8} (other : rfield s (.dma c ch) Reg.Dma.DMA_STATE 1 0 ≠ 2) :
    dmaResume s c ch = s := if_neg other

/-- A channel's state after it has been set, which changes its register alone. -/
theorem dmaState_spec {s : State} (c : CoreId) (ch : Fin 8) (v : Nat) (i : s.Inv) :
    rfield (dmaState s c ch v) (.dma c ch) Reg.Dma.DMA_STATE 1 0 = v % 4 ∧
      OnlyRegs [Block.reg (.dma c ch) Reg.Dma.DMA_STATE] s (dmaState s c ch v) :=
  ⟨rfield_rputField s _ v i (by decide) (by decide), (OnlyRegs.refl _ s).rput _ _ _ i (List.mem_singleton_self _)⟩

theorem exec_resume {s : State} {c : CoreId} {ch : Fin 8} : exec (.resume c ch) s = .next (dmaResume s c ch) := rfl

/-- Settles O48, by the retry and by the channel's state. -/
theorem channelsRetryAndResume : Obligations.ChannelsRetryAndResume := by
  intro s c ch i
  refine ⟨fun left x again slot => congrArg Host.Outcome.next (dmaReissue_request again slot), fun halted => ?_,
    fun other => ?_⟩
  · rw [exec_resume, dmaResume_halted halted]
    exact ⟨_, rfl, dmaState_spec c ch 0 i⟩
  · rw [exec_resume, dmaResume_other other]

end Sys2Proof.Machine

/-!
PROOFS. The HBM stacks' rows: requests, the scrubber, retirement, readings and refresh, spare slots; and the memory-side
adders'.
-/
namespace Sys2Proof.Machine

/-! ### Frames of registers and counters -/

/-- What changes registers alone changes no counter. -/
theorem OnlyRegs.onlyRegsCtrs {l : List Nat} {s t : State} (m : List Nat) (h : OnlyRegs l s t) : OnlyRegsCtrs l m s t :=
  ⟨h.regs, (CtrsBut.refl m s).counters (by rw [h.rest]), by rw [h.rest]⟩

theorem OnlyRegsCtrs.bump {l m : List Nat} {s t : State} (b : Block) (k n : Nat) (i : t.Inv) (listed : b.cnt k ∈ m)
    (h : OnlyRegsCtrs l m s t) : OnlyRegsCtrs l m s (bump t b k n) :=
  ⟨h.regs.regs rfl, h.ctrs.bump b k n i.counters listed, by rw [h.rest]; rfl⟩

/-! ### Requests (R340, R345) -/

/-- An address below the end of HBM lies in HBM. -/
theorem placeOf_hbm {s : State} {a : Nat} (h : a < hbmSize) :
    placeOf s a = .hbm (hbmPlace s a).1 (hbmPlace s a).2.1 (hbmPlace s a).2.2 := if_pos h

theorem hbmServe_within {s : State} {r : Req} {a : Nat} {acc : Access} (h : a < hbmSize) :
    hbmServe s r a acc = takeRequest s r a acc := by
  simp only [hbmServe, placeOf_hbm h]

/-- A request that does not have to wait is answered with what the memory gives. -/
theorem takeRequest_answered {s u : State} {r : Req} {a : Nat} {acc : Access} {st : Status} {d : List Byte}
    (served : serveLocal s r a acc = (u, st, d)) (h : st ≠ .delayed) : takeRequest s r a acc = respond r.who (u, st, d) := by
  rw [takeRequest, served]
  cases st with
  | delayed => exact absurd rfl h
  | ok | refused | aborted | bankOff | poisoned | defect => rfl

theorem takeRequest_held {s u : State} {r : Req} {a : Nat} {acc : Access} {d : List Byte}
    (served : serveLocal s r a acc = (u, .delayed, d)) : takeRequest s r a acc = holdReq s u r a acc none .unit := by
  rw [takeRequest_waits (congrArg (·.2.1) served), served]

/-! ### The scrubber (R347) -/

/-- The pseudo-channel whose turn it is at a stack's scrubber. -/
def scrubPc (s : State) (st : StackId) : Fin 32 := Fin.ofNat 32 (rfield s (.hbm st) Reg.Hbm.SCRUB_POS 28 24)

/-- The block that it reads there. -/
def scrubBlk (s : State) (st : StackId) : Nat := rfield s (.hbm st) Reg.Hbm.SCRUB_POS 23 0

/-- The position that comes next: the block's number goes up once it has been read in every pseudo-channel. -/
def scrubNext (s : State) (st : StackId) : Word :=
  wordOf (((scrubPc s st).val + 1) % 32 * 2 ^ 24 +
    if (scrubPc s st).val = 31 then (scrubBlk s st + 1) % 0xC00000 else scrubBlk s st)

section
variable {s : State} {st : StackId} (on : rbit s (.hbm st) Reg.Hbm.SCRUB_CTRL 31 = true)
  (unfenced : isFenced s (.hbm st) = false)
include on unfenced

/-- The scrubber passes over a retired pseudo-channel. -/
theorem exec_hbmScrub_retired (retired : pcRetired s st (scrubPc s st) = true) :
    exec (.hbmScrub st) s = .next (rput s (.hbm st) Reg.Hbm.SCRUB_POS (scrubNext s st)) := by
  have row : exec (.hbmScrub st) s = execHbmScrub st s := rfl
  rw [scrubPc] at retired
  simp only [row, execHbmScrub, on, unfenced, retired] <;> rfl

variable {u : State} (serving : pcRetired s st (scrubPc s st) = false)
include serving

theorem exec_hbmScrub_reads
    (served : scrubArrival s st (scrubPc s st) (hbmAddr s st (scrubPc s st) (64 * scrubBlk s st)) = (u, false)) :
    exec (.hbmScrub st) s = .next (rput (hbmBlock (bump u (.hbm st) 6 1) st (scrubPc s st) (64 * scrubBlk s st)
      (hbmAddr s st (scrubPc s st) (64 * scrubBlk s st)) 0 Occur.none).1 (.hbm st) Reg.Hbm.SCRUB_POS (scrubNext s st)) := by
  have row : exec (.hbmScrub st) s = execHbmScrub st s := rfl
  simp only [scrubPc, scrubBlk] at serving served
  simp only [row, execHbmScrub, on, unfenced, serving, served] <;> rfl

theorem exec_hbmScrub_waits
    (waits : scrubArrival s st (scrubPc s st) (hbmAddr s st (scrubPc s st) (64 * scrubBlk s st)) = (u, true)) :
    exec (.hbmScrub st) s = .next u := by
  have row : exec (.hbmScrub st) s = execHbmScrub st s := rfl
  simp only [scrubPc, scrubBlk] at serving waits
  simp only [row, execHbmScrub, on, unfenced, serving, waits] <;> rfl

end

/-! ### Retirement (R349) -/

theorem startRetire_begins {s : State} {st : StackId} {pc : Fin 32} (idle : rbit s (.hbm st) Reg.Hbm.PC_RETIRE 31 = false)
    (serving : pcRetired s st pc = false) (free : s.retiringPc.any (fun x => x.1 = st.val) = false) :
    startRetire s st pc = { rput s (.hbm st) Reg.Hbm.PC_RETIRE (wordOf (2 ^ 31 + pc.val)) with
      retiringPc := s.retiringPc ++ [(st.val, pc.val)] } := by
  rw [startRetire, idle, serving, free]
  rfl

/-- The end of the retirement that goes on at a stack. -/
theorem pcDone_found {s : State} {st : StackId} {pc : Fin 32}
    (found : s.retiringPc.find? (fun x => x.1 = st.val) = some (st.val, pc.val)) :
    pcDone s st =
      let u := { s with retiringPc := s.retiringPc.filter (fun x => x.1 ≠ st.val) }
      if pcRetired s st pc then u else finishRetire u st pc := by
  have same : Fin.ofNat 32 pc.val = pc := Fin.ofNat_val_eq_self pc
  simp only [pcDone, found, same] <;> rfl

theorem exec_pcRetired {s : State} {st : StackId} : exec (.pcRetired st) s = .next (releaseHeld (pcDone s st)) := rfl

/-! ### Readings and refresh (R338, R343) -/

/-- A stack's reading is stored and its corrections are counted. -/
theorem stackRead_spec (s : State) (st : StackId) (temp : BitVec 16) (n : Nat) (i : s.Inv) :
    let t := bump (rput s (.hbm st) Reg.Hbm.STACK_TEMP (wordOf temp.toNat)) (.hbm st) 5 n
    rget t (.hbm st) Reg.Hbm.STACK_TEMP = wordOf temp.toNat ∧
    ctr t (.hbm st) 5 = min (ctr s (.hbm st) 5 + n) (2 ^ 64 - 1) ∧
    OnlyRegsCtrs [Block.reg (.hbm st) Reg.Hbm.STACK_TEMP] [Block.cnt (.hbm st) 5] s t := by
  have stored := inv_rput (.hbm st) Reg.Hbm.STACK_TEMP (wordOf temp.toNat) i
  have reading := (OnlyRegs.refl [Block.reg (.hbm st) Reg.Hbm.STACK_TEMP] s).rput (.hbm st) Reg.Hbm.STACK_TEMP
    (wordOf temp.toNat) i (List.mem_singleton_self _)
  refine ⟨?_, ?_, (reading.onlyRegsCtrs _).bump _ _ _ stored (List.mem_singleton_self _)⟩
  · rw [rget_bump, rget_rput _ _ _ _ i]
  · rw [ctr_bump _ _ _ _ stored, ctr_rput, sat]

/-- One count is one change, of a counter alone. -/
theorem bump_only (s : State) (b : Block) (k n : Nat) (i : s.Inv) : OnlyRegsCtrs [] [b.cnt k] s (bump s b k n) :=
  ((OnlyRegs.refl [] s).onlyRegsCtrs _).bump b k n i (List.mem_singleton_self _)

/-! ### Memory-side addition (R351, R352) -/

section
variable {s u : State} {e : RelayId} {tag : Tag} {cls : SvcClass} {addr : Nat} {fmt : Fin 16} {data : List Byte}

/-- An add request that does not have to wait is answered with the adder's status. -/
theorem exec_memorySideAdd_answered {st : Status}
    (added : memoryAdd (bump s (.relay e) 20 1) (rowReq (.relay e) tag cls) addr fmt.val data = (u, st)) (h : st ≠ .delayed) :
    exec (.memorySideAdd e tag cls addr fmt data) s = .next (respond (.relay e) (u, st, [])) := by
  have row : exec (.memorySideAdd e tag cls addr fmt data) s = execMemorySideAdd e tag cls addr fmt data s := rfl
  rw [row, execMemorySideAdd, added]
  cases st with
  | delayed => exact absurd rfl h
  | ok | refused | aborted | bankOff | poisoned | defect => rfl

theorem exec_memorySideAdd_held
    (added : memoryAdd (bump s (.relay e) 20 1) (rowReq (.relay e) tag cls) addr fmt.val data = (u, .delayed)) :
    exec (.memorySideAdd e tag cls addr fmt data) s =
      .next (holdReq (bump s (.relay e) 20 1) u (rowReq (.relay e) tag cls) addr (.write data) (some fmt.val) .unit) := by
  have row : exec (.memorySideAdd e tag cls addr fmt data) s = execMemorySideAdd e tag cls addr fmt data s := rfl
  rw [row, execMemorySideAdd, added]

end

/-! ### Spare slots (R348) -/

theorem writeSpare_count {s : State} {st : StackId} {v : Word}
    (enough : rfield s (.hbm st) Reg.Hbm.SPARE_SLOTS 6 4 ≤ bits v 2 0) :
    writeSpare s st Reg.Hbm.SPARE_SLOTS v =
      checkSpares (rputField s (.hbm st) Reg.Hbm.SPARE_SLOTS 2 0 (bits v 2 0)) st := by
  simp only [writeSpare, if_true, if_neg (Nat.not_lt.mpr enough)]

/-- A write of the base is taken while no slot is in use. -/
theorem writeSpare_base {s : State} {st : StackId} {off : Nat} {v : Word}
    (base : off = Reg.Hbm.SPARE_BASE_LO ∨ off = Reg.Hbm.SPARE_BASE_HI) :
    writeSpare s st off v =
      if rfield s (.hbm st) Reg.Hbm.SPARE_SLOTS 6 4 ≠ 0 then s else checkSpares (rwrite s (.hbm st) off v) st := by
  obtain rfl | rfl := base <;> rfl

/-! ### The stacks (R338, R345 to R352) -/

/-- Settles O31, row by row. -/
theorem stacksServeAndRetire : Obligations.StacksServeAndRetire := by
  refine ⟨fun s who tag cls addr a within => congrArg Host.Outcome.next (hbmServe_within within),
    fun s u r a acc st d served => ⟨takeRequest_answered served, ?_⟩,
    fun s st on unfenced => ⟨exec_hbmScrub_retired on unfenced, fun u => exec_hbmScrub_reads on unfenced,
      fun u => exec_hbmScrub_waits on unfenced⟩,
    fun s st pc idle serving free => congrArg Host.Outcome.next (startRetire_begins idle serving free),
    fun s st pc found => ⟨fun serving => ?_, fun retired => ?_⟩,
    fun s st temp n i => ⟨_, rfl, rfl, stackRead_spec s st temp n i⟩,
    fun s st i => ⟨_, rfl, rfl, rfl, ctr_bump s (.hbm st) 7 1 i, bump_only s (.hbm st) 7 1 i⟩,
    fun s u e tag cls addr fmt data st added => ⟨exec_memorySideAdd_answered added, ?_⟩,
    fun s st v enough => congrArg Host.Outcome.next (writeSpare_count enough),
    fun s st off v base => ⟨fun unused => ?_, fun used => ?_⟩⟩
  · rintro rfl
    exact takeRequest_held served
  · rw [exec_pcRetired, pcDone_found found, serving]
    rfl
  · rw [exec_pcRetired, pcDone_found found, retired]
    rfl
  · rintro rfl
    exact exec_memorySideAdd_held added
  · exact congrArg Host.Outcome.next ((writeSpare_base base).trans (if_neg (not_not_intro unused)))
  · exact congrArg Host.Outcome.next ((writeSpare_base base).trans (if_pos used))

end Sys2Proof.Machine

/-!
PROOFS. COLLECTIVE at a relay engine: the collectives, the move and the vote that its KIND names.
-/
namespace Sys2Proof.Machine

/-- The row of a kind of COLLECTIVE starts the command that may start and has that kind: starting it keeps its kind. -/
theorem exec_kind_may {s : State} {e : RelayId} {slot kind : Nat} {x : Slot} {i : Instr}
    (row : exec i s = .next (execKind kind e slot s)) (may : MayStart s (.relay e) slot 0x50 true x)
    (chosen : cf x.words 2 3 0 = kind) :
    exec i s = .next (startColl (running s (.relay e) x) e (started s (.relay e) x)) := by
  rw [row, execKind, startCommand_may _ may, started_words, if_pos chosen]

theorem exec_stepVote_may {s : State} {e : RelayId} {slot : Nat} {x : Slot}
    (may : MayStart s (.relay e) slot 0x50 true x) (vote : cf x.words 2 3 0 = 8) :
    exec (.stepVote e slot) s = .next (startVote (running s (.relay e) x) e (started s (.relay e) x)) := by
  have row : exec (.stepVote e slot) s = execStepVote e slot s := rfl
  rw [row, execStepVote, startCommand_may _ may, started_words, if_pos vote]

/-- Settles O25, kind by kind. -/
theorem collectiveCommandsRun : Obligations.CollectiveCommandsRun := by
  intro s e slot x y s0 may
  exact ⟨exec_kind_may rfl may, exec_kind_may rfl may, exec_kind_may rfl may, exec_kind_may rfl may, exec_kind_may rfl may,
    exec_kind_may rfl may, exec_kind_may rfl may, exec_kind_may rfl may, exec_stepVote_may may⟩

end Sys2Proof.Machine

/-!
PROOFS. Naulo ports: their flits, their lanes, and the packets that they drop.
-/
namespace Sys2Proof.Machine

/-! ### Flits at a port that is up (R372, R375, R377, R383) -/

section
variable {s : State} {p : NauloId}

/-- A flit with a good CRC is judged by its sequence number once its acknowledgement and credit have taken effect. -/
theorem exec_dataFlit_good (f : Flit) (up : portUp s p = true) :
    exec (.dataFlit p f (flitCrc f)) s = .next (
      let u := takeControl s p f.ctl
      if f.seq % 4096 ≠ (getPort u p).rxNext then discardFlit u p
      else acceptUnits (bump (bump (putPort u p
          { getPort u p with rxNext := ((getPort u p).rxNext + 1) % 4096, nakSent := false })
        (.naulo p) 1 1) (.naulo p) 3 (f.units.take 4).length) p (f.units.take 4)) := by
  have row : exec (.dataFlit p f (flitCrc f)) s = execDataFlit p f (flitCrc f) s := rfl
  simp only [row, execDataFlit, up, Bool.not_true, Bool.false_eq_true, if_false, ne_eq, not_true_eq_false]

theorem exec_dataFlit_badCrc {f : Flit} {crc : BitVec 64} (up : portUp s p = true) (bad : crc ≠ flitCrc f) :
    exec (.dataFlit p f crc) s = .next (discardFlit (bump s (.naulo p) 4 1) p) := by
  have row : exec (.dataFlit p f crc) s = execDataFlit p f crc s := rfl
  simp only [row, execDataFlit, up, bad, Bool.not_true, Bool.false_eq_true, if_false, ne_eq, not_false_eq_true, if_true]

theorem exec_idle_up (c : FlitControl) (up : portUp s p = true) : exec (.idle p c) s = .next (takeControl s p c) :=
  congrArg Host.Outcome.next (if_pos up)

/-- A NAK sends again what is not acknowledged, where the port sends DATA flits. -/
theorem exec_nak_up (c : FlitControl) (up : portUp s p = true) : exec (.nak p c) s = .next (
    let u := takeCredit (takeAckSeq s p c.ack) p c.creditVc c.creditCount
    if (getPort u p).state = 2 then replayFlits u p else u) := by
  have row : exec (.nak p c) s = execNak p c s := rfl
  simp only [row, execNak, up, Bool.not_true, Bool.false_eq_true, if_false]

theorem exec_replayTimeout_due (sends : (getPort s p).state = 2) (unacked : (getPort s p).replay ≠ []) :
    exec (.replayTimeout p) s = .next (
      let w := max s.now ((getPort s p).ackMoved + rfield s (.naulo p) Reg.Nau.REPLAY_TIMEOUT 15 0)
      replayFlits (bump (putPort { s with now := w } p { getPort s p with ackMoved := w }) (.naulo p) 7 1) p) := by
  have row : exec (.replayTimeout p) s = execReplayTimeout p s := rfl
  simp only [row, execReplayTimeout, sends, unacked, ne_eq, not_true_eq_false, decide_false, Bool.or_false, Bool.false_eq_true,
    if_false]

theorem exec_protocol_undefined {op : BitVec 8} (undefined : packetOps.contains op.toNat = false) (up : portUp s p = true)
    (unfenced : isFenced s (.naulo p) = false) :
    exec (.protocol p op) s = .next (raiseWith s (.naulo p) Cause.PROTOCOL (portOccur s p 0)) := by
  have row : exec (.protocol p op) s = execProtocol p op s := rfl
  simp only [row, execProtocol, undefined, up, unfenced, Bool.not_true, Bool.or_false, Bool.false_eq_true, if_false]

end

/-- Settles O40, flit by flit. -/
theorem flitsAreTaken : Obligations.FlitsAreTaken := by
  intro s p up
  refine ⟨fun f next => ?_, fun f other => ?_, fun f crc => exec_dataFlit_badCrc up, fun c => exec_idle_up c up,
    fun c => ⟨fun sends => ?_, fun retiring => ?_⟩, exec_replayTimeout_due,
    fun op undefined unfenced => exec_protocol_undefined undefined up unfenced⟩
  · exact (exec_dataFlit_good f up).trans (congrArg Host.Outcome.next (if_neg (not_not_intro next)))
  · exact (exec_dataFlit_good f up).trans (congrArg Host.Outcome.next (if_pos other))
  · exact (exec_nak_up c up).trans (congrArg Host.Outcome.next (if_pos sends))
  · exact (exec_nak_up c up).trans (congrArg Host.Outcome.next (if_neg (ne_of_eq_of_ne retiring (by decide))))

/-! ### Lanes (R379, R380, R381) -/

section
variable {s : State} {p : NauloId} {lane : Fin 4}

/-- The peer's message of a lane is answered, where the lane is retired here, or retires it. -/
theorem exec_retire_up (c : FlitControl) (up : portUp s p = true) : exec (.retire p lane c) s = .next (
    let u := takeControl s p c
    if rbit u (.naulo p) Reg.Nau.LANE_RETIRED lane.val then sendLink (noteRetireAck u p lane) p 3 lane.val
    else retireLane u p lane true) := by
  have row : exec (.retire p lane c) s = execRetire p lane c s := rfl
  simp only [row, execRetire, up, Bool.not_true, Bool.false_eq_true, if_false]

theorem exec_retireAck_up (c : FlitControl) (up : portUp s p = true) :
    exec (.retireAck p lane c) s = .next (noteRetireAck (takeControl s p c) p lane) :=
  congrArg Host.Outcome.next (if_pos up)

/-- A report of a lane's uncorrectable codewords is counted, and retires the lane above LANE_LIMIT. -/
theorem exec_laneLimit (s : State) (p : NauloId) (lane : Fin 4) (n : Nat) : exec (.laneLimit p lane n) s = .next (
    let u := bump (rputField s (.naulo p) (Reg.Nau.LANE_FEC + 4 * lane.val) 31 16 (sat 16 n)) (.naulo p) 9 n
    if rfield u (.naulo p) Reg.Nau.LANE_LIMIT 15 0 < n then retireLane u p lane false else u) := rfl

theorem noteRetireAck_retiring {m : BitVec 4} {t : Nat} (retiring : (getPort s p).retiring = some (m, t))
    (stopped : (getPort s p).state = 3) (named : m.getLsbD lane.val = true) : noteRetireAck s p lane =
      putPort s p { getPort s p with retireAck := (getPort s p).retireAck ||| (1#4 <<< lane.val) } := by
  simp only [noteRetireAck, retiring, stopped, named, decide_true, Bool.and_self, if_true]

theorem retireLane_again (retired : rbit s (.naulo p) Reg.Nau.LANE_RETIRED lane.val = true) (peer : Bool) :
    retireLane s p lane peer = s := if_pos retired

/-- A lane in use that is not retired is marked; what stays of the lanes in use decides how the port goes on. -/
theorem retireLane_active (fresh : rbit s (.naulo p) Reg.Nau.LANE_RETIRED lane.val = false) (peer : Bool)
    (active : (getPort (markLane s p lane) p).active.getLsbD lane.val = true)
    (trains : (getPort (markLane s p lane) p).state ≠ 0) : retireLane s p lane peer =
      (let u := markLane s p lane
      let left := lanesWithout (lanesLeft (getPort u p)) lane
      if left = 0 then portDown u p
      else if (getPort u p).state = 1 then putPort u p { getPort u p with active := left }
      else beginRetire u p lane peer) := by
  simp only [retireLane, fresh, active, trains, decide_false, Bool.not_true, Bool.or_self, Bool.false_eq_true, if_false]

/-- The end, at the state's time, of the retirement of the lanes `m` that was decided at `t`: the port runs on the others,
the interruption is noted, and replay resumes (R380). -/
def lanesRetired (s : State) (p : NauloId) (m : BitVec 4) (t : Nat) : State :=
  let x := { getPort s p with state := 2, active := (getPort s p).active &&& ~~~ m, retiring := none,
                              retireAck := 0, ackMoved := s.now }
  replayFlits ((activeLanesOf m).foldl (fun s l => degradePort s p l)
    (rput (putPort s p x) (.naulo p) Reg.Nau.LAST_INTERRUPT (wordOf (sat 16 (s.now - t))))) p

/-- A retirement whose lanes are all acknowledged ends within 12 us of its decision (log entry 92). -/
theorem exec_laneRetired_acked {m : BitVec 4} {t : Nat} (retiring : (getPort s p).retiring = some (m, t))
    (stopped : (getPort s p).state = 3) (acked : (getPort s p).retireAck &&& m = m) : exec (.laneRetired p) s = .next
      (lanesRetired { s with fresh := s.fresh + 1, now := max s.now (t + Config.pauseNs s.fresh % 12001) } p m t) := by
  have row : exec (.laneRetired p) s = execLaneRetired p s := rfl
  simp only [row, execLaneRetired, retiring, stopped, acked, ne_eq, not_true_eq_false, decide_false, Bool.or_self,
    Bool.false_eq_true, if_false]
  rfl

/-! ### Ports train, come up and go down (R371, R381) -/

theorem exec_linkDown_on (on : (getPort s p).state ≠ 0) : exec (.linkDown p) s = .next (portDown s p) :=
  congrArg Host.Outcome.next (if_neg on)

theorem exec_nauloRetrain_lanes {lanes : BitVec 4} (ready : isReady s = true)
    (stay : lanes &&& ~~~ BitVec.ofNat 4 (rfield s (.naulo p) Reg.Nau.LANE_RETIRED 3 0) ≠ 0) :
    exec (.nauloRetrain p lanes) s = .next (
      let u := putPort s p { NauloPort.reset with
        state := 1, active := lanes &&& ~~~ BitVec.ofNat 4 (rfield s (.naulo p) Reg.Nau.LANE_RETIRED 3 0) }
      let v := loseKids s (abortCut (abortRemotes u p))
      sendLink (rput (rput v (.naulo p) Reg.Nau.PEER_ID 0) (.naulo p) Reg.Nau.PORT_CTRL 0) p 1 0) := by
  have row : exec (.nauloRetrain p lanes) s = execNauloRetrain p lanes s := rfl
  simp only [row, execNauloRetrain, ready, stay, Bool.not_true, Bool.false_eq_true, if_false]

theorem exec_ident_training (peer : DeviceId) (trains : (getPort s p).state = 1) : exec (.ident p peer) s = .next (
    pumpPort (putPort (rput s (.naulo p) Reg.Nau.PEER_ID (wordOf (32768 + peer.val))) p
      { getPort s p with state := 2, ackMoved := s.now }) p) := by
  have row : exec (.ident p peer) s = execIdent p peer s := rfl
  simp only [row, execIdent, trains, Nat.one_ne_zero, if_false, if_true, rput_now]

end

/-- Settles O41, event by event. -/
theorem lanesRetire : Obligations.LanesRetire := by
  refine ⟨fun s p lane => ⟨rfl, rfl, fun c up => ⟨fun fresh => ?_, fun retired => ?_, exec_retireAck_up c up⟩,
      fun n => ⟨fun above => ?_, fun within => ?_⟩⟩,
    fun s p lane m t => noteRetireAck_retiring, fun s p lane => retireLane_again,
    fun s p lane peer fresh active => ⟨fun on last => ?_, fun trains stays => ?_, fun runs stays => ?_⟩,
    fun s p m t retiring stopped acked => ⟨_, Nat.le_of_lt_succ (Nat.mod_lt _ (by decide)),
      exec_laneRetired_acked retiring stopped acked⟩,
    fun s p => exec_linkDown_on, fun s p lanes ready stay => exec_nauloRetrain_lanes ready stay,
    fun s p peer => exec_ident_training peer⟩
  · exact (exec_retire_up c up).trans (congrArg Host.Outcome.next (if_neg (ne_true_of_eq_false fresh)))
  · exact (exec_retire_up c up).trans (congrArg Host.Outcome.next (if_pos retired))
  · exact (exec_laneLimit s p lane n).trans (congrArg Host.Outcome.next (if_pos above))
  · exact (exec_laneLimit s p lane n).trans (congrArg Host.Outcome.next (if_neg (Nat.not_lt_of_le within)))
  · exact (retireLane_active fresh peer active on).trans (if_pos last)
  · have on := ne_of_eq_of_ne trains Nat.one_ne_zero
    exact (retireLane_active fresh peer active on).trans ((if_neg stays).trans (if_pos trains))
  · have on := Nat.ne_zero_of_lt runs
    have trained := Nat.ne_of_gt runs
    exact (retireLane_active fresh peer active on).trans ((if_neg stays).trans (if_neg trained))

/-! ### Packets that are dropped (R383, R386, R443, R450) -/

section
variable {s : State} {p : NauloId} {h : PacketHead} {good : Bool} {body : State → State}

theorem withPacket_unserved (away : portUp s p = false ∨ isFenced s (.naulo p) = true ∨ s.steward.failed = true) :
    withPacket s p h good body = s := by
  obtain down | fenced | failed := away
  · simp only [withPacket, down, Bool.not_false, Bool.true_or, if_true]
  · simp only [withPacket, fenced, Bool.or_true, Bool.true_or, if_true]
  · simp only [withPacket, failed, Bool.or_true, if_true]

/-- A packet at a port that serves it: misrouted, malformed or taken. -/
theorem withPacket_served (up : portUp s p = true) (unfenced : isFenced s (.naulo p) = false)
    (works : s.steward.failed = false) : withPacket s p h good body =
      if h.dst ≠ nodeId s then raiseWith (bump s (.naulo p) 12 1) (.naulo p) 11 (portOccur s p 0)
      else if !good then raiseWith s (.naulo p) Cause.PROTOCOL (portOccur s p 0)
      else body s := by
  simp only [withPacket, up, unfenced, works, Bool.not_true, Bool.or_self, Bool.false_eq_true, if_false]

theorem takesPacket_iff : takesPacket s p h = true ↔
    portUp s p = true ∧ isFenced s (.naulo p) = false ∧ s.steward.failed = false ∧ h.dst = nodeId s := by
  simp only [takesPacket, Bool.and_eq_true, Bool.not_eq_true', decide_eq_true_eq, and_assoc]

end

/-- Settles O43, by the order in which a port judges a packet. -/
theorem packetsAreTurnedAway : Obligations.PacketsAreTurnedAway := by
  intro s p h good body
  refine ⟨withPacket_unserved, fun up unfenced works other => (withPacket_served up unfenced works).trans (if_pos other),
    fun takes => ?_⟩
  obtain ⟨up, unfenced, works, mine⟩ := takesPacket_iff.mp takes
  exact ⟨(withPacket_served up unfenced works).trans (if_neg (not_not_intro mine)),
    (withPacket_served up unfenced works).trans (if_neg (not_not_intro mine))⟩

end Sys2Proof.Machine

/-!
PROOFS. Time alignment with the parent.
-/
namespace Sys2Proof.Machine

/-! ### The slew (R393) -/

/-- What the time base may have slewed by now, which is one ns in every 2000. -/
def slewBound (s : State) : Int := ((s.now - s.sync.slewAt) / 2000 : Nat)

/-- What the time base has slewed by now. -/
def slewedBy (s : State) : Int := max (-slewBound s) (min (slewBound s) s.sync.slew)

theorem slewedBy_eq_zero {s : State} (still : s.sync.slew = 0 ∨ slewBound s = 0) : slewedBy s = 0 := by
  have forward : 0 ≤ slewBound s := Int.natCast_nonneg _
  unfold slewedBy
  omega

theorem slewTime_still {s : State} (still : slewedBy s = 0) : slewTime s = s := if_pos still

theorem slewTime_moves {s : State} (moves : slewedBy s ≠ 0) : slewTime s = { s with
    now := ((s.now : Int) + slewedBy s).toNat,
    sync := { s.sync with slew := s.sync.slew - slewedBy s, slewAt := ((s.now : Int) + slewedBy s).toNat } } :=
  if_neg moves

/-! ### Requests and samples (R392, R393) -/

section
variable {s : State} {p : DeviceId}

theorem exec_syncInterval_follower (follows : syncParent s = some p) : exec .syncInterval s = .next (
    let u := slewTime { s with now := max s.now (s.sync.sentAt + rfield s fabricPage Reg.Fab.SYNC_INTERVAL 19 0) }
    sendControl { u with sync := { u.sync with sentAt := u.now, missed := u.sync.missed + 1 } } (activeStride u) 0x12 p
      (words64 u.now) [] (.syncReq p u.now)) := by
  have row : exec .syncInterval s = execSyncInterval s := rfl
  simp only [row, execSyncInterval, follows]
  rfl

/-- A sample from the parent is counted and accepted or rejected, its delay now the newest. -/
theorem exec_syncResp_parent (follows : syncParent s = some p) (t1 t2 t3 t4 : Nat) :
    exec (.syncResp p t1 t2 t3 t4) s = .next (
      let u := bump (slewTime { s with now := max s.now t4 }) fabricPage 0 1
      let x := syncSample t1 t2 t3 t4
      let v := { u with sync := { u.sync with delays := (x.2 :: u.sync.delays).take 16 } }
      if syncAccepts u x.2 then acceptSample v x.1 x.2 else bump v fabricPage 1 1) := by
  have row : exec (.syncResp p t1 t2 t3 t4) s = execSyncResp p t1 t2 t3 t4 s := rfl
  simp only [row, execSyncResp, follows, ne_eq, not_true_eq_false, if_false]

theorem exec_syncResp_other (other : syncParent s ≠ some p) (t1 t2 t3 t4 : Nat) :
    exec (.syncResp p t1 t2 t3 t4) s = .next s := congrArg Host.Outcome.next (if_pos other)

theorem exec_syncLost_due (follows : (syncParent s).isSome = true) (locked : syncState s = 1) (missed : 16 ≤ s.sync.missed) :
    exec .syncLost s = .next (raise (setSync s (rfield s fabricPage Reg.Fab.SYNC_STATE 7 4) 2) fabricPage 9) := by
  have row : exec .syncLost s = execSyncLost s := rfl
  simp only [row, execSyncLost, follows, locked, missed, decide_true, Bool.and_self, if_true]

end

/-! ### TT_PARENT (R391, R393) -/

/-- A write of TT_PARENT leaves the follower unlocked and changes, of the registers, its own and the state. -/
theorem writeTtParent_spec (s : State) (v : Word) (i : s.Inv) :
    syncState (writeTtParent s v) = 0 ∧
    (writeTtParent s v).sync = { SyncM.reset with sentAt := s.sync.sentAt } ∧
    RegsBut [Block.reg fabricPage Reg.Fab.TT_PARENT, Block.reg fabricPage Reg.Fab.SYNC_STATE] s (writeTtParent s v) ∧
    writeTtParent s v = { s with regs := (writeTtParent s v).regs, sync := (writeTtParent s v).sync } := by
  have written : (rwrite s fabricPage Reg.Fab.TT_PARENT v).Inv := inv_rput _ _ _ i
  have again : State.Inv
      { rwrite s fabricPage Reg.Fab.TT_PARENT v with sync := { SyncM.reset with sentAt := s.sync.sentAt } } :=
    { written with mem := written.mem }
  refine ⟨?_, rfl, ?_, rfl⟩
  · rw [syncState, rfield, writeTtParent, setSync, rget_rput _ _ _ _ again]
    decide
  · have first : RegsBut [Block.reg fabricPage Reg.Fab.TT_PARENT, Block.reg fabricPage Reg.Fab.SYNC_STATE] s
        (rwrite s fabricPage Reg.Fab.TT_PARENT v) := (RegsBut.refl _ s).rput _ _ _ i.regs List.mem_cons_self
    exact (first.regs rfl).rput _ _ _ again.regs (List.mem_cons_of_mem _ (List.mem_singleton_self _))

/-- Settles O44, event by event. -/
theorem timeIsAligned : Obligations.TimeIsAligned := by
  refine ⟨fun s p => exec_syncInterval_follower,
    fun s => ⟨fun still => slewTime_still (slewedBy_eq_zero still), fun k slewed moves => ?_⟩, fun s d t1 => rfl,
    fun s p t1 t2 t3 t4 follows => ⟨fun accepted => ?_, fun rejected => ?_⟩,
    fun s d t1 t2 t3 t4 other => exec_syncResp_other other t1 t2 t3 t4, fun s => exec_syncLost_due,
    fun s v i => ⟨_, rfl, writeTtParent_spec s v i⟩⟩
  · subst slewed
    exact slewTime_moves moves
  · exact (exec_syncResp_parent follows t1 t2 t3 t4).trans (congrArg Host.Outcome.next (if_pos accepted))
  · exact (exec_syncResp_parent follows t1 t2 t3 t4).trans (congrArg Host.Outcome.next (if_neg (ne_true_of_eq_false rejected)))

end Sys2Proof.Machine

/-!
PROOFS. Segments of a collective, their answers, and its timeout.
-/
namespace Sys2Proof.Machine

/-! ### A segment whose command has not started (R407, R414) -/

section
variable {s u : State} {p : NauloId} {xid : Nat} {g : Segment} {ws : List Word}

/-- A segment that reaches an engine without a collective: counted, and then BUSY, done with its write, or kept. -/
theorem receiveSegment_early {e : RelayId} (unfenced : isFenced u (.relay e) = false) (idle : (getRelay u e).coll = none) :
    receiveSegment u e true .bulk xid g =
      (let v := bump (bump u (.relay e) 15 1) (.relay e) 17 g.data.length
      if segRoom (getRelay u e) g false = false then sendSegAck (bump v (.relay e) 18 1) e g .bulk xid true
      else
        let r := writeAtOnce v e g .bulk 0
        let w := sendSegAck r.1 e g .bulk xid false
        if g.kind.val = 7 ∨ g.kind.val = 5 ∧ r.2 = .ok then w
        else putRelay w e { getRelay w e with early := (getRelay w e).early ++
          [{ seg := if g.kind.val = 3 ∨ g.kind.val = 5 then { g with data := [] } else g,
             bytes := g.data.length, st := r.2 }] }) := by
  have counted (m n : Nat) : getRelay (bump (bump u (.relay e) 15 m) (.relay e) 17 n) e = getRelay u e := rfl
  have whole : spareBits (getRelay u e) g false = 0 := by simp only [spareBits, idle]
  simp [receiveSegment, unfenced, counted, idle, whole]

/-- The engine that a valid group's entry names takes a segment of a command that has not started. -/
theorem exec_segment_early (entry : peekEntry s p g.group = (u, some ws)) (valid : (groupEntry ws).valid = true)
    (idle : (getRelay u (groupEntry ws).engine).coll = none) :
    exec (.segment p xid g) s = .next (receiveSegment u (groupEntry ws).engine true .bulk xid g) := by
  have row : exec (.segment p xid g) s = execSegment p xid g s := rfl
  simp only [row, execSegment, arriveSegment, entry, messageEngine, valid, idle, Option.getD_none]

end

/-! ### Answers (R414) -/

section
variable {s : State} {p : NauloId} {xid : Nat} {q : SentSeg}

/-- An answer to a segment that was sent: BUSY, it waits for its resend; good, it is done with and the collective goes on. -/
theorem exec_segAck_sent (busy : Bool) (sent : s.sentSegs.find? (fun q => q.xid = xid) = some q) :
    exec (.segAck p xid busy) s = .next (
      if busy then { s with sentSegs := s.sentSegs.map (fun y => if y.xid = xid then { y with busy := some s.now } else y) }
      else goOn { s with sentSegs := s.sentSegs.filter (fun y => y.xid ≠ xid) } q.engine) := by
  have row : exec (.segAck p xid busy) s = execSegAck p xid busy s := rfl
  rw [row, execSegAck, sent]

end

/-- How the collective of engine `e` goes on from `u`, where sending segment `xid` again has answered `st` with state `v`. -/
def resent (u v : State) (e : RelayId) (xid : Nat) : Status → State
  | .delayed => u
  | .ok => goOn (noteSeg (bump { v with sentSegs := v.sentSegs.map (fun y =>
      if y.xid = xid then { y with busy := none } else y) } (.relay e) 19 1) e) e
  | _ => abortColl v e

/-- A segment answered BUSY is sent again 1 us later. -/
theorem exec_busyResend_busy {s v : State} {e : RelayId} {xid t : Nat} {q : SentSeg} {st : Status}
    (sent : s.sentSegs.find? (fun q => q.xid = xid && q.engine = e) = some q) (busy : q.busy = some t)
    (again : sendSegment { s with now := max s.now (t + 1000) } e q = (v, st)) :
    exec (.busyResend e xid) s = .next (resent { s with now := max s.now (t + 1000) } v e xid st) := by
  have row : exec (.busyResend e xid) s = execBusyResend e xid s := rfl
  simp only [row, execBusyResend, sent, busy, again]
  cases st <;> rfl

/-! ### COLL_TIMEOUT (R415) -/

theorem exec_collTimeout_runs {s : State} {e : RelayId} {c : CollRun} {x : Slot} (runs : (getRelay s e).coll = some c)
    (slot : getSlot s (.relay e) c.slot = some x) : exec (.collTimeout e) s = .next
      (stopColl (raiseTag { s with now := max s.now (c.lastSeg + collTimeout s e) } (.relay e) 16 (cmdTag x.words) 0x50)
        e c.slot (worse c.status .aborted)) := by
  have row : exec (.collTimeout e) s = execCollTimeout e s := rfl
  have later (n : Nat) : getSlot { s with now := n } (.relay e) c.slot = some x := slot
  simp only [row, execCollTimeout, runs, later]

/-- Settles O45, row by row. -/
theorem segmentsAreTaken : Obligations.SegmentsAreTaken := by
  refine ⟨fun s u p xid g ws entry valid unfenced idle => ?_,
    fun s p xid q sent => ⟨exec_segAck_sent false sent, exec_segAck_sent true sent⟩,
    fun s v e xid t q st sent busy again => ⟨?_, ?_, ?_⟩, fun s e c x => exec_collTimeout_runs⟩
  · have taken := (exec_segment_early (xid := xid) entry valid idle).trans
      (congrArg Host.Outcome.next (receiveSegment_early unfenced idle))
    refine ⟨fun full => taken.trans (congrArg Host.Outcome.next (if_pos full)), fun room => ?_⟩
    have served := taken.trans (congrArg Host.Outcome.next (if_neg (ne_false_of_eq_true room)))
    refine ⟨fun done => served.trans (congrArg Host.Outcome.next (if_pos done)), fun moved unwritten => ?_⟩
    exact served.trans (congrArg Host.Outcome.next (if_neg fun done => done.elim moved fun ⟨toAll, ok⟩ => unwritten toAll ok))
  all_goals
    rintro rfl
    exact exec_busyResend_busy sent busy again

end Sys2Proof.Machine

/-!
PROOFS. Error records on their way to the queue, their handling, and the ring of the log.
-/
namespace Sys2Proof.Machine

/-- A steward in force takes records while no switch-over is under way. -/
theorem steward_takes {s : State} (steady : s.steward.switching = none) (works : s.steward.failed = false) :
    (s.steward.switching.isSome || s.steward.failed) = false := by
  rw [steady, works]
  rfl

/-! ### A record on its way (R421) -/

section
variable {s : State} {b : Block} {r : ErrRecord}
  (waits : s.records.find? (fun r => r.1 = b.page) = some (b.page, r))
include waits

/-- A record that waits at its block, while a steward takes records: acknowledged, or refused by a full queue. -/
theorem deliverRecord_waiting (steady : s.steward.switching = none) (works : s.steward.failed = false) :
    deliverRecord s b =
      if 64 ≤ s.steward.queue.length then raise (bump s (activeQueue s) 1 1) (activeQueue s) 8
      else bump { s with
        records := s.records.filter (fun x => x.1 ≠ b.page),
        steward := { s.steward with queue := s.steward.queue ++ [r],
                                    peak := max s.steward.peak (s.steward.queue.length + 1) } } (activeQueue s) 0 1 := by
  simp only [deliverRecord, waits, steward_takes steady works, Bool.false_eq_true, if_false, List.length_append]
  rfl

theorem exec_recordResend_waiting : exec (.recordResend b) s = .next (deliverRecord
    { s with now := max s.now (r.sentAt + 1000), records := s.records.map (fun x =>
      if x.1 = b.page then (x.1, { x.2 with sentAt := max s.now (r.sentAt + 1000) }) else x) } b) := by
  have row : exec (.recordResend b) s = execRecordResend b s := rfl
  simp only [row, execRecordResend, waits]

end

/-! ### Handling (R420, R423, R427) -/

theorem countClass_counted {k : Nat} (counted : k ≤ 5) (s : State) : countClass s k = bump s (activeQueue s) (3 + k) 1 :=
  if_pos counted

theorem countClass_other {k : Nat} (other : 5 < k) (s : State) : countClass s k = s := if_neg (Nat.not_le.mpr other)

/-- A record that has been charged and found of class `k`, after it has been counted: it leaves HANDLING if it has been
logged. -/
def loggedAs (s : State) (r : ErrRecord) (k : Nat) : State :=
  let x := writeLog (countClass s k) r k
  if x.2 then { x.1 with steward := { x.1.steward with handling := none } } else x.1

theorem loggedAs_written {s v : State} {r : ErrRecord} {k : Nat} (written : writeLog (countClass s k) r k = (v, true)) :
    loggedAs s r k = { v with steward := { v.steward with handling := none } } := by
  rw [loggedAs, written]
  exact if_pos rfl

theorem loggedAs_kept {s v : State} {r : ErrRecord} {k : Nat} (kept : writeLog (countClass s k) r k = (v, false)) :
    loggedAs s r k = v := by
  rw [loggedAs, kept]
  exact if_neg Bool.false_ne_true

section
variable {s : State} {r : ErrRecord} {rest : List ErrRecord} {k : Nat} (first : s.steward.queue = r :: rest)
  (steady : s.steward.switching = none) (works : s.steward.failed = false)
include first steady works

theorem exec_handling_class
    (charge : chargeOf { s with steward := { s.steward with queue := rest, handling := some r } } r = .cls k) :
    exec .handling s =
      .next (loggedAs { s with steward := { s.steward with queue := rest, handling := some r } } r k) := by
  have row : exec .handling s = execHandling s := rfl
  simp only [row, execHandling, first, steward_takes steady works, charge, Bool.false_eq_true, if_false]
  rfl

theorem exec_handling_unit {x : Unit_} {v : State}
    (charge : chargeOf { s with steward := { s.steward with queue := rest, handling := some r } } r = .unit x)
    (charged : chargeUnit { s with steward := { s.steward with queue := rest, handling := some r } } x r = (v, k)) :
    exec .handling s = .next (stewardCharged (loggedAs v r k) (.unit x) k) := by
  have row : exec .handling s = execHandling s := rfl
  simp only [row, execHandling, first, steward_takes steady works, charge, charged, Bool.false_eq_true, if_false]
  rfl

end

/-! ### The ring of the log (R424) -/

/-- The base of the log ring that software has staged. -/
def stagedBase (s : State) : Nat := rget64 s (activeQueue s) Reg.Erq.LOG_BASE_LO Reg.Erq.LOG_BASE_HI

section
variable {s : State} {v : Word}

theorem writeLogSize_accepted (least : 6 ≤ bits v 4 0) (most : bits v 4 0 ≤ 16)
    (inside : stagedBase s + 64 * 2 ^ bits v 4 0 ≤ hbmSize) :
    writeLogSize s v =
      rput (rput (rput { s with steward := { s.steward with logBase := stagedBase s, logLog2 := bits v 4 0 } }
        (activeQueue s) Reg.Erq.LOG_SIZE (wordOf (bits v 4 0))) (activeQueue s) Reg.Erq.LOG_HEAD 0)
        (activeQueue s) Reg.Erq.LOG_TAIL 0 :=
  if_pos (by rw [decide_eq_true least, decide_eq_true most]; exact decide_eq_true inside)

theorem writeLogSize_badSize (bad : bits v 4 0 < 6 ∨ 16 < bits v 4 0) : writeLogSize s v = raise s (activeQueue s) 17 := by
  refine if_neg fun accepted => ?_
  simp only [Bool.and_eq_true, decide_eq_true_eq] at accepted
  omega

/-- What three writes to registers of one block leave of them and of the others. -/
theorem rput_three_spec (b : Block) {j k l : Nat} (x y z : Word) (i : s.Inv) (jk : j ≠ k) (jl : j ≠ l) (kl : k ≠ l) :
    let t := rput (rput (rput s b j x) b k y) b l z
    rget t b j = x ∧ rget t b k = y ∧ rget t b l = z ∧ RegsBut [b.reg j, b.reg k, b.reg l] s t := by
  have one : (rput s b j x).Inv := inv_rput _ _ _ i
  have two : (rput (rput s b j x) b k y).Inv := inv_rput _ _ _ one
  refine ⟨?_, ?_, rget_rput _ _ _ _ two, ?_⟩
  · rw [rget_rput_off _ _ _ _ _ two jl, rget_rput_off _ _ _ _ _ one jk, rget_rput _ _ _ _ i]
  · rw [rget_rput_off _ _ _ _ _ two kl, rget_rput _ _ _ _ one]
  · exact (((RegsBut.refl _ s).rput _ _ _ i.regs (by simp)).rput _ _ _ one.regs (by simp)).rput _ _ _ two.regs (by simp)

end

/-- Settles O46: a record on its way by the room of the queue, its handling by its charge and by whether it has been logged,
and LOG_SIZE by the registers it writes. -/
theorem recordsAreHandled : Obligations.RecordsAreHandled := by
  refine ⟨fun s b r waits steady works => ⟨fun room => ?_, fun full => ?_, exec_recordResend_waiting waits⟩, ?_, ?_,
    fun s k => ⟨fun counted => countClass_counted counted s, fun other => countClass_other other s⟩, ?_,
    fun s v bad => congrArg Host.Outcome.next (writeLogSize_badSize bad)⟩
  · exact congrArg Host.Outcome.next ((deliverRecord_waiting waits steady works).trans (if_neg (Nat.not_le.mpr room)))
  · exact congrArg Host.Outcome.next ((deliverRecord_waiting waits steady works).trans (if_pos full))
  · intro s r rest k first steady works u charge
    have handled := exec_handling_class first steady works charge
    exact ⟨fun v written => handled.trans (congrArg Host.Outcome.next (loggedAs_written written)),
      fun v kept => handled.trans (congrArg Host.Outcome.next (loggedAs_kept kept))⟩
  · intro s r rest x v w k first steady works u charge charged written
    rw [exec_handling_unit first steady works charge charged, loggedAs_written written]
  · intro s v i least most base inside
    have committed : State.Inv { s with steward := { s.steward with logBase := base, logLog2 := bits v 4 0 } } :=
      { i with mem := i.mem }
    obtain ⟨size, head, tail, others⟩ := rput_three_spec (activeQueue s) (j := Reg.Erq.LOG_SIZE) (k := Reg.Erq.LOG_HEAD)
      (l := Reg.Erq.LOG_TAIL) (wordOf (bits v 4 0)) 0 0 committed (by decide) (by decide) (by decide)
    exact ⟨_, congrArg Host.Outcome.next (writeLogSize_accepted least most inside), rfl, rfl, size, head, tail, others, rfl⟩

end Sys2Proof.Machine

/-!
PROOFS. The pair of stewards: heartbeats, the switch-over, sentinels and relocks.
-/
namespace Sys2Proof.Machine

/-- A pause that the model draws ends within its bound. -/
theorem pauseNs_within (s : State) (bound : Nat) : Config.pauseNs s.fresh % (bound + 1) ≤ bound :=
  Nat.le_of_lt_succ (Nat.mod_lt _ (Nat.succ_pos bound))

/-! ### Heartbeats (R447, R450) -/

section
variable {s : State} (standby : s.steward.standbyOk = true) (works : s.steward.failed = false)
  (steady : s.steward.switching = none)
include standby works steady

theorem startSwitch_standby : startSwitch s = { s with steward := { s.steward with switching := some s.now } } :=
  (if_neg (ne_true_of_eq_false (steward_takes steady works))).trans (if_pos standby)

/-- Heartbeats go on while both stewards work. -/
theorem heartbeats_run : (!s.steward.standbyOk || s.steward.failed || s.steward.switching.isSome) = false := by
  rw [standby, works, steady]
  rfl

/-- A heartbeat that reaches the standby ends the run of missed ones, and is acknowledged or not. -/
theorem exec_heartbeat_delivered (acked : Bool) : exec (.heartbeat true acked) s = .next (
    let acks := if acked then 0 else s.steward.missedAcks + 1
    let u := { s with steward := { s.steward with missedBeats := 0, missedAcks := acks } }
    if 4 ≤ acks then failStandby u else u) := by
  have row : exec (.heartbeat true acked) s = execHeartbeat true acked s := rfl
  simp only [row, execHeartbeat, heartbeats_run standby works steady, Bool.false_eq_true, if_false, if_true, Bool.true_and]
  rfl

/-- A heartbeat that does not reach the standby is counted, and the fourth in a row starts a switch-over. -/
theorem exec_heartbeat_missed (acked : Bool) : exec (.heartbeat false acked) s = .next (
    let u := { bump s (activeQueue s) 14 1 with
      steward := { s.steward with missedBeats := s.steward.missedBeats + 1 } }
    if 4 ≤ s.steward.missedBeats + 1 then { u with steward := { u.steward with switching := some u.now } }
    else if 4 ≤ s.steward.missedAcks then failStandby u else u) := by
  have row : exec (.heartbeat false acked) s = execHeartbeat false acked s := rfl
  have started := startSwitch_standby (s := { bump s (activeQueue s) 14 1 with
    steward := { s.steward with missedBeats := s.steward.missedBeats + 1 } }) standby works steady
  rw [row, execHeartbeat, if_neg (ne_true_of_eq_false (heartbeats_run standby works steady))]
  exact congrArg Host.Outcome.next (congrArg (fun t => ite (4 ≤ s.steward.missedBeats + 1) t _) started)

end

/-! ### Switch-over (R448, R449) -/

theorem switchRequest_standby {s : State} (standby : s.steward.standbyOk = true) : switchRequest s = startSwitch s :=
  if_pos standby

theorem switchRequest_alone {s : State} (alone : s.steward.standbyOk = false) : switchRequest s = s :=
  if_neg (ne_true_of_eq_false alone)

/-! ### Sentinels and relocks (R436, R439) -/

theorem exec_sentinelSample_works {s : State} (works : s.steward.failed = false) (slack : List Int)
    (failing : List (BitVec 8)) : exec (.sentinelSample slack failing) s = .next ((List.finRange 33).foldl (fun u d =>
      if d.val = 31 then u else (slack[d.val]?).elim u (fun x => sampleDie u d x (failing.getD d.val 0))) s) := by
  refine congrArg Host.Outcome.next ((if_neg (ne_true_of_eq_false works)).trans ?_)
  congr 1
  funext u d
  cases slack[d.val]? with
  | none => exact (ite_self u).symm
  | some x => rfl

theorem endRelock_due {s : State} {d : DieId} {t0 bound : Nat}
    (due : s.relocks.find? (fun x => x.1 = d.val) = some (d.val, t0, bound)) :
    endRelock s d =
      (let n := Config.pauseNs s.fresh % (bound + 1)
      bump (rput { s with fresh := s.fresh + 1, now := max s.now (t0 + n),
                          relocks := tset (0, 0) s.relocks d.val (0, 0) }
        (.clock d) Reg.Clk.LAST_CHANGE (wordOf n)) (.clock d) 2 n) := by
  simp only [endRelock, due]
  rfl

/-- Settles O47: a heartbeat by whether it arrives and is acknowledged, each other event by its own function, and the length of a
pause by the bound of what is drawn. -/
theorem stewardsSwitchOver : Obligations.StewardsSwitchOver := by
  refine ⟨fun s standby works steady => ⟨fun _ => ?_, fun few => ?_, fun many => ?_, fun acked few answered => ?_,
      fun acked many => ?_⟩, fun s standby works steady => ?_,
    fun s alone => congrArg Host.Outcome.next (switchRequest_alone alone),
    fun s t started => ⟨_, pauseNs_within s 30000, ?_⟩,
    fun s slack failing works => exec_sentinelSample_works works slack failing,
    fun s d t0 bound due => ⟨_, pauseNs_within s bound,
      congrArg (fun t => Host.Outcome.next (releaseHeld t)) (endRelock_due due)⟩⟩
  · exact exec_heartbeat_delivered standby works steady true
  · exact (exec_heartbeat_delivered standby works steady false).trans
      (congrArg Host.Outcome.next (if_neg (Nat.not_le.mpr few)))
  · exact (exec_heartbeat_delivered standby works steady false).trans
      (congrArg Host.Outcome.next (if_pos (Nat.succ_le_succ many)))
  · exact (exec_heartbeat_missed standby works steady acked).trans (congrArg Host.Outcome.next
      ((if_neg (Nat.not_le.mpr few)).trans (if_neg (Nat.not_le.mpr answered))))
  · exact (exec_heartbeat_missed standby works steady acked).trans
      (congrArg Host.Outcome.next (if_pos (Nat.succ_le_succ many)))
  · exact congrArg Host.Outcome.next
      ((switchRequest_standby standby).trans (startSwitch_standby standby works steady))
  · have row : exec .switchover s = .next (switchOver s) := rfl
    rw [row, switchOver, started]
    rfl

end Sys2Proof.Machine

/-!
PROOFS. The states of start-up.
-/
namespace Sys2Proof.Machine

section
variable {s : State} {p : BootPhase}

/-- A state of start-up, while the device is not held in reset. -/
theorem inPhase_free (free : s.inputs.resetHeld = false) (phase : s.boot.phase = p) : inPhase s p = true := by
  simp [inPhase, free, phase]

/-! ### ROM and IDENTITY (R478, R490, R496) -/

theorem exec_rom_runs (rom : inPhase s .rom = true) (works : s.steward.failed = false) (sa sb : Bool) :
    exec (.rom sa sb) s = .next (
      let u := endsWithin s 2000000
      let v := { u with steward := { s.steward with saPassed := sa, sbPassed := sb, activeSb := !sa, standbyOk := sa && sb } }
      let w := toPhase { v with boot := { v.boot with romPassed := true } } .identity
      if !sa && !sb then { v with steward := { v.steward with failed := true, activeSb := false } }
      else if sa && sb then w else fenceDie w (standbyDie w)) := by
  have entered : (!inPhase s .rom || s.steward.failed) = false := by rw [rom, works]; rfl
  exact congrArg Host.Outcome.next (if_neg (ne_true_of_eq_false entered))

theorem exec_identity_runs (identity : inPhase s .identity = true) : exec .identity s = .next (
    let u := endsWithin s 5000000
    let v := { u with boot := { u.boot with secret := true } }
    if secretKnown s then
      match s.flash.owner with
      | some (false, _) => enterRecovery v 4
      | _ => toPhase v .image
    else enterRecovery u 5) := by
  have row : exec .identity s = execIdentity s := rfl
  have drawn : secretKnown (endsWithin s 5000000) = secretKnown s := rfl
  simp only [row, execIdentity, identity, drawn, Bool.not_true, Bool.false_eq_true, if_false]
  cases secretKnown s <;> rfl

/-! ### IMAGE and CONFIGURE (R489, R491, R492) -/

theorem exec_image_runs (image : inPhase s .image = true) : exec .image s = .next (
    let u := endsWithin s (9000000 + 2700000 * s.flash.image.length / 2 ^ 20)
    match checkImage s.flash.image s.flash.minSerial (ownerHash s) with
    | .ok i => toPhase (hostBase (acceptImage u i)) .configure
    | .error r => enterRecovery u r) := by
  have row : exec .image s = execImage s := rfl
  have drawn (n : Nat) : (endsWithin s n).flash = s.flash := rfl
  have owner (n : Nat) : ownerHash (endsWithin s n) = ownerHash s := rfl
  simp only [row, execImage, image, drawn, owner, Bool.not_true, Bool.false_eq_true, if_false]
  cases checkImage s.flash.image s.flash.minSerial (ownerHash s) <;> rfl

/-- CONFIGURE judges the training of the stacks before the feeds. -/
theorem exec_configure_runs (configure : inPhase s .configure = true) (good : List Bool) (a b : BitVec 4) :
    exec (.configure good a b) s = .next (
      let u := applyImage (endsWithin s (79000000 + 2700000 * s.flash.image.length / 2 ^ 20))
      if (List.range 16).all (fun i => good.getD i true) then
        if feedsEnough a b (decide (leNat (slice s.boot.config 3 1) = 1)) then
          toPhase ((List.finRange 4).foldl (fun s r => putFeed (putFeed s r false (feedFound (a.getLsbD r.val))) r true
            (feedFound (b.getLsbD r.val))) u) .test
        else enterRecovery u 8
      else enterRecovery u 6) := by
  have row : exec (.configure good a b) s = execConfigure good a b s := rfl
  have untrained : (List.range 16).any (fun i => !good.getD i true) = !(List.range 16).all (fun i => good.getD i true) :=
    List.not_all_eq_any_not.symm
  have drawn (n : Nat) : (endsWithin s n).boot = s.boot := rfl
  simp only [row, execConfigure, configure, drawn, untrained, Bool.not_true, Bool.false_eq_true, if_false]
  cases (List.range 16).all (fun i => good.getD i true) with
  | false => rfl
  | true => cases feedsEnough a b (decide (leNat (slice s.boot.config 3 1) = 1)) <;> rfl

/-! ### TEST (R480, R535) -/

theorem exec_test_runs (test : inPhase s .test = true) (results : List (Option (Tag × Tag))) :
    exec (.test results) s = .next (becomeReady ((List.finRange 128).foldl (fun s c => testCore s c (results.getD c.val none))
      (endsWithin s (239000000 + 2700000 * s.flash.image.length / 2 ^ 20)))) := by
  refine congrArg Host.Outcome.next (if_neg ?_)
  rw [test]
  exact Bool.false_ne_true

end

/-- Settles O52, state by state: each runs in its phase, and its branches are told apart by what it has found. -/
theorem startUpGoesOn : Obligations.StartUpGoesOn := by
  intro s free
  refine ⟨fun rom works => ⟨_, pauseNs_within s _, ?_⟩, fun identity => ⟨_, pauseNs_within s _, ?_⟩,
    fun image => ⟨_, pauseNs_within s _, exec_image_runs (inPhase_free free image)⟩,
    fun configure => ⟨_, pauseNs_within s _, fun good a b => ?_⟩,
    fun test => ⟨_, pauseNs_within s _, exec_test_runs (inPhase_free free test)⟩⟩
  · have runs := exec_rom_runs (inPhase_free free rom) works
    refine ⟨runs true true, fun sa => ?_, runs false false⟩
    cases sa with
    | true => exact runs true false
    | false => exact runs false true
  · have runs := exec_identity_runs (inPhase_free free identity)
    refine ⟨fun known whole => ?_, fun unknown => runs.trans (congrArg Host.Outcome.next (if_neg (ne_true_of_eq_false unknown))),
      fun h known broken => ?_⟩
    · refine runs.trans (congrArg Host.Outcome.next ((if_pos known).trans ?_))
      split
      next h broken => exact absurd broken (whole h)
      next => rfl
    · refine runs.trans (congrArg Host.Outcome.next ((if_pos known).trans ?_))
      rw [broken]
      rfl
  · have runs := exec_configure_runs (inPhase_free free configure) good a b
    refine ⟨fun untrained => ?_, fun trained few => ?_, fun trained enough => ?_⟩
    · exact runs.trans (congrArg Host.Outcome.next (if_neg (ne_true_of_eq_false untrained)))
    · exact runs.trans (congrArg Host.Outcome.next ((if_pos trained).trans (if_neg (ne_true_of_eq_false few))))
    · exact runs.trans (congrArg Host.Outcome.next ((if_pos trained).trans (if_pos enough)))

end Sys2Proof.Machine

/-!
PROOFS. What every command answers: a next state, but for an edge of the debug clock that reaches a debug port; and what no
command in service changes.
-/
namespace Sys2Proof.Machine

/-! ### The debug clock (R503, R520) -/

/-- Only an edge at a debug port's instruction acts on its data register. -/
theorem debugEdge_other {t : Tap} (other : t.instr ≠ .debugPort) (rising : Bool) : debugEdge t rising = false := by
  rw [debugEdge, decide_eq_false other, Bool.false_and]

section
variable {s : State} {x : TapPins}

theorem exec_dbgTck_reset (held : x.trstN = false) : exec (.dbgTck x) s = .next { s with tap := Tap.reset } :=
  if_pos (by rw [held]; rfl)

/-- With TRST_N released an edge that acts on no debug port moves the TAP. -/
theorem exec_dbgTck_moves (free : x.trstN = true) (harmless : debugEdge s.tap x.rising = false) :
    exec (.dbgTck x) s =
      if x.rising then .next { s with tap := tapRise s.tap x.tms x.tdi }
      else .next { s with tap := tapFall s.tap s.boot.debug } :=
  (if_neg (by rw [free]; decide)).trans (if_neg (ne_true_of_eq_false harmless))

theorem exec_dbgTck_debugPort (free : x.trstN = true) (acts : debugEdge s.tap x.rising = true) :
    exec (.dbgTck x) s = .refused .debugPort :=
  (if_neg (by rw [free]; decide)).trans (if_pos acts)

end

/-- Settles O60: TRST_N first, then the debug ports, then the direction of the edge. -/
theorem debugPortScans : Obligations.DebugPortScans := fun _ x =>
  ⟨exec_dbgTck_reset, fun free harmless rises => (exec_dbgTck_moves free harmless).trans (if_pos rises),
    fun free harmless falls => (exec_dbgTck_moves free harmless).trans (if_neg (ne_true_of_eq_false falls)),
    exec_dbgTck_debugPort, fun other => debugEdge_other other x.rising⟩

/-! ### What every command answers (R503, R520) -/

/-- An edge of the debug clock answers a next state or reaches a debug port. -/
theorem exec_dbgTck_answers (s : State) (x : TapPins) : (∃ t, exec (.dbgTck x) s = .next t) ∨
    x.trstN = true ∧ debugEdge s.tap x.rising = true ∧ exec (.dbgTck x) s = .refused .debugPort := by
  cases free : x.trstN with
  | false => exact .inl ⟨_, exec_dbgTck_reset free⟩
  | true =>
    cases acts : debugEdge s.tap x.rising with
    | true => exact .inr ⟨rfl, rfl, exec_dbgTck_debugPort free acts⟩
    | false =>
      rw [exec_dbgTck_moves free acts]
      cases x.rising with
      | true => exact .inl ⟨_, rfl⟩
      | false => exact .inl ⟨_, rfl⟩

/-- Settles O7: the meaning of every command but DBG_TCK is a next state. -/
theorem onlyDebugEdgesStop : Obligations.OnlyDebugEdgesStop := by
  intro c s
  cases c with
  | dbgTck x => exact (exec_dbgTck_answers s x).imp_right fun stops => ⟨x, rfl, stops⟩
  | _ => exact .inl ⟨_, rfl⟩

/-! ### What no command in service changes (R477, R482, R491, R502, R503) -/

/-- Boot states that differ at most in the nonce and DEBUG. -/
theorem eq_of_bootRest_eq {a b : Boot} (h : bootRest a = bootRest b) : a = { b with nonce := a.nonce, debug := a.debug } :=
  congrArg (fun x : Boot => { x with nonce := a.nonce, debug := a.debug }) h

/-- Settles O5: the queue by what every command keeps, the boot state and the image by what one in service keeps. -/
theorem execKeepsConfiguration : Obligations.ExecKeepsConfiguration := fun c s t run =>
  ⟨(exec_holds c s t run).pending, fun up => eq_of_bootRest_eq (exec_keepsRest c s up t run).boot,
    fun up replace owner => (exec_keeps c s up replace owner t run).image⟩

end Sys2Proof.Machine

/-!
PROOFS. Resets of the device and of the host port.
-/
namespace Sys2Proof.Machine

/-! ### Resets of the device (R453, R477, R526) -/

/-- The state that a device reset of `s` starts from: work in progress is lost, and no register and no counter is listed. -/
structure Cleared (s r : State) : Prop where
  inv : r.Inv
  phase : r.boot.phase = .rom
  now : r.now = s.now
  image : r.flash.image = s.flash.image
  secret : r.flash.secretNo = s.flash.secretNo
  regs : ∀ (b : Block) (off : Nat), rget r b off = resetValue b off
  ctrs : ∀ (b : Block) (k : Nat), ctr r b k = 0

/-- A management page notes the cause of a reset, and counts it with the `seen` ones before. -/
def noteReset (s : State) (b : Block) (cause seen : Nat) : State :=
  bump (rput s b Reg.Mgm.RESET_CAUSE (wordOf cause)) b 0 (seen + 1)

/-- A device reset clears the state, keeps TRIP_INFO unless the power was off, and is noted on both management pages. -/
theorem resetDevice_cleared (s : State) (cause : Nat) (power : Bool) : ∃ r, Cleared s r ∧
    resetDevice s cause power =
      (let seen := if power then 0 else ctr s (activeMgmt s) 0
      let u := countLife (rput r thermalPage Reg.Thm.TRIP_INFO (if power then 0 else rget s thermalPage Reg.Thm.TRIP_INFO)) 1
      noteReset (noteReset u (.mgmt 0) cause seen) (.mgmt 1) cause seen) := by
  refine ⟨_, ?_, rfl⟩
  exact ⟨by constructor <;> rfl, rfl, rfl, rfl, rfl, fun _ _ => rfl, fun _ _ => rfl⟩

/-- Counting a lifetime event touches no table. -/
theorem inv_countLife {s : State} (k : Nat) (i : s.Inv) : (countLife s k).Inv := (countLife_keeps s k (Keeps.refl s)).inv i

section
variable {s r : State} (start : Cleared s r) (trip : Word) (cause seen : Nat)
include start

/-- What TRIP_INFO and the two notes leave of a cleared state. -/
theorem noteReset_cleared :
    let u := countLife (rput r thermalPage Reg.Thm.TRIP_INFO trip) 1
    let t := noteReset (noteReset u (.mgmt 0) cause seen) (.mgmt 1) cause seen
    (∀ b, b = Block.mgmt 0 ∨ b = Block.mgmt 1 → rget t b Reg.Mgm.RESET_CAUSE = wordOf cause ∧
      ctr t b 0 = min (seen + 1) (2 ^ 64 - 1)) ∧
    rget t thermalPage Reg.Thm.TRIP_INFO = trip ∧
    RegsBut [Block.reg (.mgmt 0) Reg.Mgm.RESET_CAUSE, Block.reg (.mgmt 1) Reg.Mgm.RESET_CAUSE,
      Block.reg thermalPage Reg.Thm.TRIP_INFO] r t ∧
    CtrsBut [Block.cnt (.mgmt 0) 0, Block.cnt (.mgmt 1) 0] r t := by
  intro u t
  have i : u.Inv := inv_countLife 1 (inv_rput _ _ _ start.inv)
  have i0 : (rput u (.mgmt 0) Reg.Mgm.RESET_CAUSE (wordOf cause)).Inv := inv_rput _ _ _ i
  have i1 : (noteReset u (.mgmt 0) cause seen).Inv := inv_bump _ _ _ i0
  have i2 : (rput (noteReset u (.mgmt 0) cause seen) (.mgmt 1) Reg.Mgm.RESET_CAUSE (wordOf cause)).Inv := inv_rput _ _ _ i1
  have counted (b : Block) (k : Nat) : ctr u b k = 0 := start.ctrs b k
  refine ⟨fun b page => ?_, ?_, ?_, ?_⟩
  · rcases page with rfl | rfl
    · refine ⟨(rget_rput_ne _ _ _ _ _ _ i1 (by decide)).trans (rget_rput _ _ _ _ i), ?_⟩
      refine (ctr_bump_ne _ _ _ _ _ _ i2 (by decide)).trans ((ctr_bump _ _ _ _ i0).trans ?_)
      rw [ctr_rput, counted, Nat.zero_add, sat]
    · refine ⟨rget_rput _ _ _ _ i1, (ctr_bump _ _ _ _ i2).trans ?_⟩
      rw [ctr_rput, noteReset, ctr_bump_ne _ _ _ _ _ _ i0 (by decide), ctr_rput, counted, Nat.zero_add, sat]
  · exact (rget_rput_ne _ _ _ _ _ _ i1 (by decide)).trans
      ((rget_rput_ne _ _ _ _ _ _ i (by decide)).trans (rget_rput r _ _ _ start.inv))
  · have kept : RegsBut [Block.reg (.mgmt 0) Reg.Mgm.RESET_CAUSE, Block.reg (.mgmt 1) Reg.Mgm.RESET_CAUSE,
        Block.reg thermalPage Reg.Thm.TRIP_INFO] r u := ((RegsBut.refl _ r).rput _ _ _ start.inv.regs (by simp)).regs rfl
    exact (((kept.rput _ _ _ i.regs (by simp)).regs rfl).rput _ _ _ i1.regs (by simp)).regs rfl
  · have kept : CtrsBut [Block.cnt (.mgmt 0) 0, Block.cnt (.mgmt 1) 0] r u := fun _ _ _ => rfl
    exact (((kept.counters rfl).bump _ _ _ i0.counters (by simp)).counters rfl).bump _ _ _ i2.counters (by simp)

end

/-- Settles O51: each cause by its row, and what a reset leaves from the cleared state that it notes itself in. -/
theorem deviceResets : Obligations.DeviceResets := by
  refine ⟨fun s => rfl, fun s up => congrArg Host.Outcome.next (if_neg (ne_true_of_eq_false up)),
    fun s held => ⟨congrArg Host.Outcome.next (if_pos held), congrArg Host.Outcome.next (if_pos held)⟩,
    fun s v key go idle => ?_, fun s v other => ?_, fun s t asked => ?_, fun s rail up => ?_, fun s cause power _ => ?_⟩
  · exact congrArg Host.Outcome.next (if_pos (by simp [key, go, idle]))
  · exact congrArg Host.Outcome.next (if_neg (by simp [other]))
  · have row : exec .deviceReset s = execDeviceReset s := rfl
    rw [row, execDeviceReset, asked]
  · have lost : exec (.brownOut rail) s = .next (brownOut s rail) := congrArg Host.Outcome.next (if_neg (ne_true_of_eq_false up))
    exact ⟨fun main => lost.trans (congrArg Host.Outcome.next (if_pos main)),
      fun other => lost.trans (congrArg Host.Outcome.next (if_neg (Nat.not_lt.mpr other)))⟩
  · obtain ⟨r, start, reset⟩ := resetDevice_cleared s cause power
    obtain ⟨noted, trip, regs, ctrs⟩ := noteReset_cleared start (if power then 0 else rget s thermalPage Reg.Thm.TRIP_INFO) cause
      (if power then 0 else ctr s (activeMgmt s) 0)
    rw [reset]
    exact ⟨start.phase, start.now, start.image, start.secret, noted, trip,
      fun b off other => (regs b off other).trans (start.regs b off),
      fun b k other => (ctrs b k other).trans (start.ctrs b k)⟩

/-! ### Resets of the host port (R505, R508, R512) -/

/-- Two registers that hold a 64-bit number, low word first. -/
theorem rget64_of_words {s : State} {b : Block} {j k n : Nat} (low : rget s b j = wordOf n) (high : rget s b k = wordHi n)
    (fits : n < 2 ^ 64) : rget64 s b j k = n := by
  rw [rget64, low, high, wordOf_wordHi, Nat.mod_eq_of_lt fits]

/-- BAR2's base at a reset has 64 bits. -/
theorem resetBase_lt (node : DeviceId) : 0x010000000000 + node.val * 2 ^ 48 < 2 ^ 64 := by
  have := node.isLt
  omega

/-- What a reset of the host port leaves in the three registers of BAR2. -/
theorem hostReset_spec (s : State) (i : s.Inv) : let t := hostReset s
    let base := 0x010000000000 + (nodeId s).val * 2 ^ 48
    rget64 t .host Reg.Hst.BAR2_BASE_LO Reg.Hst.BAR2_BASE_HI = base ∧
    rget t .host Reg.Hst.BAR2_CTRL = wordOf (s.boot.bar2Default * 256 + 1) ∧
    RegsBut [Block.reg .host Reg.Hst.BAR2_BASE_LO, Block.reg .host Reg.Hst.BAR2_BASE_HI,
      Block.reg .host Reg.Hst.BAR2_CTRL] s t := by
  intro t base
  have cleared : State.Inv { s with host := { HostPort.reset with bar2Base := base, bar2Size := s.boot.bar2Default } } :=
    { i with mem := i.mem }
  obtain ⟨lo, hi, ctrl, others⟩ := rput_three_spec .host (j := Reg.Hst.BAR2_BASE_LO) (k := Reg.Hst.BAR2_BASE_HI)
    (l := Reg.Hst.BAR2_CTRL) (wordOf base) (wordHi base) (wordOf (s.boot.bar2Default * 256 + 1)) cleared
    (by decide) (by decide) (by decide)
  exact ⟨rget64_of_words lo hi (resetBase_lt _), ctrl, others⟩

/-- A good link trains while it is down, to one of its widths and speeds, and to 64 GT/s in Flit mode alone. -/
theorem exec_hostLinkUp_trains {s : State} {t : LinkTrain} {flit : Bool} (works : s.steward.failed = false)
    (up : s.inputs.resetHeld = false) (down : rbit s .host Reg.Hst.LINK_STATUS 31 = false) (linked : t.linked = true)
    (good : t.good = true) (width : t.width ∈ [1, 4, 8, 16]) (least : 1 ≤ t.speed) (most : t.speed ≤ 6)
    (mode : flit = true ∨ t.speed ≠ 6) :
    exec (.hostLinkUp t flit) s = .next (rput s .host Reg.Hst.LINK_STATUS
      (wordOf (2 ^ 31 + (if flit then 2 ^ 30 else 0) + t.width * 2 ^ 16 + t.speed))) := by
  refine congrArg Host.Outcome.next ((if_neg ?_).trans (if_pos ?_))
  · rw [works, up, down]; decide
  · simp only [linked, good, List.contains_iff_mem.mpr width, least, most, mode, decide_true, Bool.true_and,
      Bool.or_eq_true, decide_eq_true_eq]

/-- Settles O56: each reset by its row, and what one leaves from the three registers that it writes. -/
theorem hostPortResets : Obligations.HostPortResets := by
  refine ⟨fun s => rfl, fun s => rfl, fun s up => congrArg Host.Outcome.next (if_pos up),
    fun s down => congrArg Host.Outcome.next (if_neg (ne_true_of_eq_false down)), fun s free => ?_,
    fun s i => ?_, fun s t flit => exec_hostLinkUp_trains, fun s v i => ?_⟩
  · have accepted (asserted : Bool) : exec (.perstN asserted) s = .next (
        let t := { s with inputs := { s.inputs with perst := asserted } }
        if asserted && !s.inputs.perst then hostReset t else t) :=
      congrArg Host.Outcome.next (if_neg (ne_true_of_eq_false free))
    exact ⟨fun edge => (accepted true).trans (congrArg Host.Outcome.next (if_pos (by rw [edge]; rfl))),
      fun again => (accepted true).trans (congrArg Host.Outcome.next (if_neg (by rw [again]; decide))), accepted false⟩
  · obtain ⟨base, ctrl, others⟩ := hostReset_spec s i
    exact ⟨rfl, base, ctrl, others, rfl⟩
  · refine ⟨_, rfl, rget_rput s _ _ _ i, ?_, ((RegsBut.refl _ s).rput _ _ _ i.regs (by simp)).regs rfl, rfl⟩
    have high : rget (rput s .host Reg.Hst.BAR2_BASE_HI v) .host Reg.Hst.BAR2_BASE_HI = v := rget_rput s _ _ _ i
    have low : rget (rput s .host Reg.Hst.BAR2_BASE_HI v) .host Reg.Hst.BAR2_BASE_LO = rget s .host Reg.Hst.BAR2_BASE_LO :=
      rget_rput_off s _ _ _ _ i (by decide)
    simp only [writeBar2Hi, rget64, high, low]
    rfl

end Sys2Proof.Machine

/-!
PROOFS. The trace collector and the jobs of the check-value channels.
-/
namespace Sys2Proof.Machine

/-! ### A record at the collector (R461, R462, R463) -/

section
variable {s : State} {r : TraceRec}

theorem exec_traceRecord_waiting {rest : List TraceRec} (waits : s.trace.queued = r :: rest) :
    exec .traceRecord s = .next (takeRecord { s with trace := { s.trace with queued := rest } } r) := by
  have row : exec .traceRecord s = execTraceRecord s := rfl
  rw [row, execTraceRecord, waits]

variable (kept : s.trace.drops = 0)
include kept

/-- With nothing dropped before, no LOST record goes ahead. -/
theorem writeLost_kept : writeLost s = (s, true) := if_pos kept

/-- A record that finds room, or overwrites, is counted once its slots are written. -/
theorem takeRecord_room {v : State}
    (room : bit (treg s Reg.Trc.TRACE_CTRL) 1 = true ∨ traceUsed s + (1 + r.slots.length) ≤ traceSlots s)
    (written : writeSlots s (stampSeq s r.words :: r.slots) = (v, true)) :
    takeRecord s r = traceIrq (countRecord v (bits (wordAt r.words 0) 7 0)) (traceUsed s) := by
  have fits : (!bit (treg s Reg.Trc.TRACE_CTRL) 1 &&
      decide (traceSlots s < traceUsed s + (1 + r.slots.length + 0))) = false := by
    rcases room with overwrites | room
    · rw [overwrites]; rfl
    · rw [Nat.add_zero, decide_eq_false (Nat.not_lt.mpr room), Bool.and_false]
  rw [takeRecord]
  simp only [kept, if_true, fits, writeLost_kept kept, written, Bool.false_eq_true, if_false]
  rfl

/-- A record that finds the ring full is dropped, silently once TRACE_FULL has been raised. -/
theorem takeRecord_full (stops : bit (treg s Reg.Trc.TRACE_CTRL) 1 = false)
    (full : traceSlots s < traceUsed s + (1 + r.slots.length)) (said : s.trace.fullSeen = true) :
    takeRecord s r = traceDrop s 2 := by
  have drops : (!bit (treg s Reg.Trc.TRACE_CTRL) 1 &&
      decide (traceSlots s < traceUsed s + (1 + r.slots.length + 0))) = true := by
    rw [stops, Nat.add_zero, decide_eq_true full]; rfl
  rw [takeRecord]
  simp only [kept, if_true, drops, said]

end

/-! ### The collector's registers (R465) -/

section
variable {s : State} {v : Word}

section
variable (same : bit v 1 = bit (treg s Reg.Trc.TRACE_CTRL) 1)
include same

/-- A write of TRACE_CTRL with the MODE that it has is never busy: only the rising of EN is judged. -/
theorem writeTraceCtrl_sameMode : writeTraceCtrl s v =
    let u := rwrite s tracePage Reg.Trc.TRACE_CTRL v
    if bit v 0 && !bit (treg s Reg.Trc.TRACE_CTRL) 0 then
      if traceRingOk s then rput { u with trace := { s.trace with fullSeen := false } } tracePage Reg.Trc.TRACE_DROPPED 0
      else raise (rputBit u tracePage Reg.Trc.TRACE_CTRL 0 false) tracePage 10
    else u := by
  have quiet : (!traceIdle s && decide (bit v 1 ≠ bit (treg s Reg.Trc.TRACE_CTRL) 1)) = false := by
    rw [decide_eq_false (not_not_intro same), Bool.and_false]
  rw [writeTraceCtrl]
  simp only [quiet, Bool.false_eq_true, if_false]
  cases bit v 0 && !bit (treg s Reg.Trc.TRACE_CTRL) 0 with
  | false => rfl
  | true => cases traceRingOk s <;> rfl

end

/-- While the collector is idle, a write of the ring's place returns HEAD, TAIL and SEQ to 0. -/
theorem writeTraceBase_idle {off : Nat} (idle : traceIdle s = true)
    (ok : off = Reg.Trc.TRACE_SIZE → 10 ≤ bits v 4 0 ∧ bits v 4 0 ≤ 24) :
    writeTraceBase s off v =
      (let u := rput (rput (rwrite s tracePage off v) tracePage Reg.Trc.TRACE_HEAD 0) tracePage Reg.Trc.TRACE_TAIL 0
      { u with trace := { s.trace with seq := 0 } }) := by
  refine (if_neg (by rw [idle]; decide)).trans (if_neg fun bad => ?_)
  simp only [Bool.and_eq_true, Bool.or_eq_true, decide_eq_true_eq] at bad
  obtain ⟨size, range⟩ := bad
  have := ok size
  omega

theorem writeTraceBase_busy (off : Nat) (busy : traceIdle s = false) : writeTraceBase s off v = raise s tracePage 8 :=
  if_pos (by rw [busy]; rfl)

end

/-- Settles O49: a record by the room of the ring, TRACE_CTRL by whether EN rises, the ring's place by whether the collector
is idle. -/
theorem traceIsCollected : Obligations.TraceIsCollected := by
  refine ⟨fun s r rest waits => exec_traceRecord_waiting waits,
    fun s v r kept room written => takeRecord_room kept room written,
    fun s r kept stops full said => takeRecord_full kept stops full said,
    fun s v same => ?_, fun s v idle => ?_, fun s k v busy => ?_⟩
  · have written : exec (.traceCtrl v) s = .next (writeTraceCtrl s v) := rfl
    rw [written, writeTraceCtrl_sameMode same]
    refine ⟨fun steady => ?_, fun on off ring => ?_, fun on off far => ?_⟩
    · refine congrArg Host.Outcome.next (if_neg ?_)
      rcases steady with off | on
      · rw [off, Bool.false_and]; decide
      · rw [on, Bool.not_true, Bool.and_false]; decide
    · exact congrArg Host.Outcome.next ((if_pos (by rw [on, off]; rfl)).trans (if_pos ring))
    · exact congrArg Host.Outcome.next ((if_pos (by rw [on, off]; rfl)).trans (if_neg (ne_true_of_eq_false far)))
  · have base {off : Nat} (other : off ≠ Reg.Trc.TRACE_SIZE) := writeTraceBase_idle (v := v) idle fun size => absurd size other
    exact ⟨congrArg Host.Outcome.next (base (by decide)), congrArg Host.Outcome.next (base (by decide)),
      fun least most => congrArg Host.Outcome.next (writeTraceBase_idle idle fun _ => ⟨least, most⟩)⟩
  · exact congrArg Host.Outcome.next (writeTraceBase_busy _ busy)

/-! ### Check-value jobs (R468, R469, R470, R471) -/

section
variable {s : State} {ch : Fin 16}

/-- A started job of an unfenced channel makes its requests, once. -/
theorem runJob_unfenced {mode : Nat} (busy : cvState s ch = 1) (fresh : (getCv s ch).finished = none)
    (free : isFenced s (cvPage ch) = false) (kind : (cvJob s ch).mode = mode) :
    runJob s ch mode = jobDone s ch (jobBody s ch (cvJob s ch)) := by
  refine (if_neg ?_).trans (congrArg (jobDone s ch) (if_neg (ne_true_of_eq_false free)))
  simp [busy, fresh, kind]

theorem jobBody_digest {j : CvJob} (kind : j.mode = 0) :
    jobBody s ch j = digestFrom ch j ((crcOf j.poly).getD crc32c) (requestCuts j.src j.len) s := by
  rw [jobBody, kind]
  rfl

theorem jobBody_seal {j : CvJob} (kind : j.mode = 1) :
    jobBody s ch j = blocksFrom (fun i => sealBlock ch j ((crcOf j.poly).getD crc32c) (j.src + i * j.block))
      (j.len / j.block) 0 s := by
  rw [jobBody, kind]
  rfl

theorem jobBody_verify {j : CvJob} (kind : j.mode = 2) :
    jobBody s ch j = blocksFrom (fun i => verifyBlock ch j ((crcOf j.poly).getD crc32c) (j.src + i * j.block) i)
      (j.len / j.block) 0 s := by
  rw [jobBody, kind]
  rfl

/-- Requests that have all been answered finish the job, with whether they went well. -/
theorem jobDone_answered {r : State × Status} (answered : r.2 ≠ .delayed) :
    jobDone s ch r = putCv r.1 ch { getCv r.1 ch with finished := some (decide (r.2 = .ok)) } := by
  obtain ⟨t, st⟩ := r
  cases st with
  | delayed => exact absurd rfl answered
  | _ => rfl

/-- A request that must wait leaves the job to be run again. -/
theorem jobDone_delayed {r : State × Status} (waits : r.2 = .delayed) : jobDone s ch r = settleWaits s r.1 := by
  obtain ⟨t, st⟩ := r
  cases waits
  rfl

/-- A job's row, whose requests come to `r`. -/
theorem runJob_body {mode : Nat} {r : State × Status} (busy : cvState s ch = 1) (fresh : (getCv s ch).finished = none)
    (free : isFenced s (cvPage ch) = false) (kind : (cvJob s ch).mode = mode) (body : jobBody s ch (cvJob s ch) = r) :
    (r.2 ≠ .delayed → runJob s ch mode = putCv r.1 ch { getCv r.1 ch with finished := some (decide (r.2 = .ok)) }) ∧
    (r.2 = .delayed → runJob s ch mode = settleWaits s r.1) := by
  have runs := (runJob_unfenced busy fresh free kind).trans (congrArg (jobDone s ch) body)
  exact ⟨fun answered => runs.trans (jobDone_answered answered), fun waits => runs.trans (jobDone_delayed waits)⟩

/-- A job that has been stopped ends FAILED, with CV_ACCESS. -/
theorem exec_jobEnd_stopped (stopped : (getCv s ch).finished = some false) : exec (.jobEnd ch) s =
    .next (cvEnd (raise (putCv s ch { getCv s ch with finished := none, done := none }) (cvPage ch) 10) ch 3 false) := by
  have row : exec (.jobEnd ch) s = execJobEnd ch s := rfl
  simp only [row, execJobEnd, stopped]

/-- The result of a job that has gone over its range, and what a job that goes on from it must match (R471, R474). -/
def jobResult (s : State) (ch : Fin 16) : State :=
  let j := cvJob s ch
  rput64 (putCv s ch { getCv s ch with finished := none, done := some (j.mode, j.poly, j.stream) }) (cvPage ch)
    Reg.Cv.CV_RESULT_LO Reg.Cv.CV_RESULT_HI (((crcOf j.poly).getD crc32c).finish (getCv s ch).crc)

/-- A job that has gone over its range ends DONE with its result, after the mismatch cause of a VERIFY that fails. -/
theorem exec_jobEnd_done (finished : (getCv s ch).finished = some true) : exec (.jobEnd ch) s = .next (cvEnd
    (if (cvJob s ch).mode = 2 && !cvPass (jobResult s ch) ch then raise (jobResult s ch) (cvPage ch) 11 else jobResult s ch)
    ch 2 (cvPass (jobResult s ch) ch)) := by
  have row : exec (.jobEnd ch) s = execJobEnd ch s := rfl
  simp only [row, execJobEnd, finished]
  rfl

end

/-- Settles O50: each mode by its own requests, the end of a job by how it finished. -/
theorem checkValueJobsRun : Obligations.CheckValueJobsRun := by
  refine ⟨fun s ch busy fresh free => ⟨fun kind => ?_, fun kind => ?_, fun kind => ?_⟩,
    fun s ch stopped => exec_jobEnd_stopped stopped, fun s ch finished => ⟨fun quiet => ?_, fun kind failed => ?_⟩⟩
  · obtain ⟨answered, waits⟩ := runJob_body busy fresh free kind (jobBody_digest kind)
    exact ⟨fun h => congrArg Host.Outcome.next (answered h), fun h => congrArg Host.Outcome.next (waits h)⟩
  · obtain ⟨answered, waits⟩ := runJob_body busy fresh free kind (jobBody_seal kind)
    exact ⟨fun h => congrArg Host.Outcome.next (answered h), fun h => congrArg Host.Outcome.next (waits h)⟩
  · obtain ⟨answered, waits⟩ := runJob_body busy fresh free kind (jobBody_verify kind)
    exact ⟨fun h => congrArg Host.Outcome.next (answered h), fun h => congrArg Host.Outcome.next (waits h)⟩
  · refine (exec_jobEnd_done finished).trans (congrArg (fun t => Host.Outcome.next (cvEnd t ch 2 _)) (if_neg ?_))
    rcases quiet with other | passed
    · rw [decide_eq_false other]; exact Bool.false_ne_true
    · rw [show cvPass (jobResult s ch) ch = true from passed, Bool.not_true, Bool.and_false]; exact Bool.false_ne_true
  · have fails : cvPass (jobResult s ch) ch = false := failed
    have ended := exec_jobEnd_done finished
    rw [fails, kind] at ended
    exact ended

end Sys2Proof.Machine

/-!
PROOFS. The supplies, the board inputs and the temperature limits.
-/
namespace Sys2Proof.Machine

/-! ### Supplies (R493, R494, R495) -/

section
variable {s : State} {rail : Fin 4} {b : Bool}

theorem exec_feedLost_inUse (up : s.inputs.resetHeld = false) (inUse : (getFeed s rail b).ok = true) :
    exec (.feedLost rail b) s =
      .next (if !(getFeed s rail (!b)).ok then brownOut s rail else loseFeed s rail b) :=
  congrArg Host.Outcome.next (if_neg (by rw [up, inUse]; decide))

theorem exec_throttleEnd_due {t : Nat} (till : s.throttleUntil = some t) : exec .throttleEnd s =
    .next (allFeeds.foldl tellLoss { s with now := max s.now t, throttleUntil := none }) := by
  have row : exec .throttleEnd s = execThrottleEnd s := rfl
  rw [row, execThrottleEnd, till]

/-- A feed that rejoins, 100 ms after its latest loss. -/
theorem exec_feedRejoin_rejoins (up : s.inputs.resetHeld = false) (lost : (getFeed s rail b).ok = false)
    (free : (getFeed s rail b).held = false) (found : s.feeds ≠ []) : exec (.feedRejoin rail b) s = .next (
      let w := max s.now ((getFeed s rail b).lostAt.headD s.now + 100000000)
      let u := bump (putFeed { s with now := w } rail b { getFeed s rail b with good := true, ok := true }) supplyPage 1 1
      if allFeeds.all (fun f => (getFeed u f.1 f.2).ok) then rputBit u supplyPage Reg.Hdr.STATUS 5 false else u) :=
  congrArg Host.Outcome.next (if_neg (by rw [up, lost, free, decide_eq_false found]; decide))

end

/-- Settles O53: a loss by whether its partner stands, a rejoining by whether it is the last, FEED_SHARE by its one register. -/
theorem feedsAreLostAndRejoin : Obligations.FeedsAreLostAndRejoin := by
  refine ⟨fun s rail b up inUse => ⟨fun partner => ?_, fun alone => ?_⟩, fun s t till => exec_throttleEnd_due till,
    fun s rail b up lost free found => ⟨fun last => ?_, fun others => ?_⟩, fun s => rfl,
    fun s v i => ⟨_, rfl, rget_rput s _ _ _ i, (OnlyRegs.refl _ s).rput _ _ _ i (List.mem_singleton_self _)⟩,
    fun now a b c d l => ⟨rfl, rfl, rfl, rfl, rfl⟩⟩
  · exact (exec_feedLost_inUse up inUse).trans (congrArg Host.Outcome.next (if_neg (by rw [partner]; decide)))
  · exact (exec_feedLost_inUse up inUse).trans (congrArg Host.Outcome.next (if_pos (by rw [alone]; rfl)))
  · exact (exec_feedRejoin_rejoins up lost free found).trans (congrArg Host.Outcome.next (if_pos last))
  · exact (exec_feedRejoin_rejoins up lost free found).trans (congrArg Host.Outcome.next (if_neg (ne_true_of_eq_false others)))

/-! ### Presence (R500, R521) -/

section
variable {s : State}

/-- An assertion of PRESENCE_N makes an edge once it has been released. -/
theorem exec_presenceN_edge (up : s.inputs.resetHeld = false) (released : s.inputs.presence = false) :
    exec (.presenceN true) s = .next (presenceEdge s) :=
  congrArg Host.Outcome.next ((if_neg (ne_true_of_eq_false up)).trans (if_neg (ne_true_of_eq_false released)))

/-- An edge that comes a second after the one before, or is the first, opens the window. -/
theorem presenceEdge_opens (apart : ∀ t, s.inputs.presenceAt = some t → t + 1000000000 ≤ s.now) :
    presenceEdge s = bump { s with
      inputs := { s.inputs with presence := true, presenceAt := some s.now, windowOpen := some s.now } }
      (activeSecurity s) 2 1 := by
  unfold presenceEdge
  cases before : s.inputs.presenceAt with
  | none => rfl
  | some t => exact if_neg (by simpa using apart t before)

/-- One that comes sooner is counted instead. -/
theorem presenceEdge_counted {t : Nat} (before : s.inputs.presenceAt = some t) (soon : s.now < t + 1000000000) :
    presenceEdge s = bump { s with inputs := { s.inputs with presence := true, presenceAt := some s.now } } boardPage 2 1 := by
  simp only [presenceEdge, before]
  exact if_pos (decide_eq_true soon)

theorem exec_presenceWindowClose_open {t : Nat} (opened : s.inputs.windowOpen = some t) : exec .presenceWindowClose s =
    .next { s with now := max s.now (t + 120000000000), inputs := { s.inputs with windowOpen := none } } := by
  have row : exec .presenceWindowClose s = execPresenceWindowClose s := rfl
  rw [row, execPresenceWindowClose, opened]
  rfl

theorem exec_presenceStuck_held {t : Nat} (since : s.inputs.presenceAt = some t) (held : s.inputs.presence = true)
    (unsaid : s.inputs.presenceStuck = false) : exec .presenceStuck s =
      .next (raise (bump { s with now := max s.now (t + 600000000000),
                                  inputs := { s.inputs with presenceStuck := true } } boardPage 8 1) boardPage 11) := by
  have row : exec .presenceStuck s = execPresenceStuck s := rfl
  rw [row, execPresenceStuck, since]
  exact congrArg Host.Outcome.next (if_pos (by rw [held, unsaid]; rfl))

end

/-- Settles O55: an edge by the time since the one before, the rest row by row. -/
theorem presenceOpensTheWindow : Obligations.PresenceOpensTheWindow :=
  ⟨fun _ up released =>
      have edge := exec_presenceN_edge up released
      ⟨fun apart => edge.trans (congrArg Host.Outcome.next (presenceEdge_opens apart)),
        fun _ before soon => edge.trans (congrArg Host.Outcome.next (presenceEdge_counted before soon))⟩,
    fun _ up => congrArg Host.Outcome.next (if_neg (ne_true_of_eq_false up)),
    fun _ _ opened => exec_presenceWindowClose_open opened,
    fun _ _ since held unsaid => exec_presenceStuck_held since held unsaid⟩

/-! ### The board alarm (R521) -/

/-- Is an alarm at `now` the third of the three `l` within 10 ms? -/
def thirdAlarm (now : Nat) (l : List Nat) : Bool := (l[2]?).any (fun u => decide (now ≤ u + 10000000))

theorem thirdAlarm_iff (now : Nat) (l : List Nat) :
    thirdAlarm now l = true ↔ ∃ t, l[2]? = some t ∧ now ≤ t + 10000000 := by
  simp [thirdAlarm, Option.any_eq_true]

/-- The state with an alarm taken up, in a chatter hold or not. -/
def alarmed (s : State) (chatter : Bool) : State :=
  raise (bump { s with inputs := { s.inputs with
    alarm := true, alarmPin := true, alarmAt := (s.now :: s.inputs.alarmAt).take 3, alarmStuck := false,
    alarmSince := if s.inputs.alarm then s.inputs.alarmSince else s.now, chatter := chatter } } boardPage 4 1) boardPage 8

section
variable {s : State}

theorem exec_boardAlarm_accepted (up : s.inputs.resetHeld = false) : exec .boardAlarm s = .next (
    if thirdAlarm s.now ((s.now :: s.inputs.alarmAt).take 3) && !s.inputs.chatter then
      raise (bump (alarmed s true) boardPage 5 1) boardPage 9
    else alarmed s s.inputs.chatter) := by
  refine (congrArg Host.Outcome.next (if_neg (ne_true_of_eq_false up))).trans ?_
  unfold thirdAlarm alarmed
  dsimp only
  cases ((s.now :: s.inputs.alarmAt).take 3)[2]? with
  | none => simp only [Bool.or_false]; rfl
  | some u =>
    simp only [Option.any_some]
    by_cases chatters : (decide (s.now ≤ u + 10000000) && !s.inputs.chatter) = true
    · simp only [chatters, Bool.or_true]; rfl
    · simp only [eq_false_of_ne_true chatters, Bool.or_false]; rfl

theorem exec_alarmRelease_asserted (up : s.inputs.resetHeld = false) (alarm : s.inputs.alarm = true) : exec .alarmRelease s =
    .next (if s.inputs.chatter then endAlarm { s with now := max s.now (s.inputs.alarmAt.headD 0 + 100000000) }
      else endAlarm s) :=
  congrArg Host.Outcome.next (if_neg (by rw [up, alarm]; decide))

end

/-- Settles O58: an alarm by whether it is the third of three, its release by the chatter hold. -/
theorem boardAlarmsAreHandled : Obligations.BoardAlarmsAreHandled := by
  refine ⟨fun s up => ⟨fun third calm => ?_, fun single => ?_⟩, fun s held => congrArg Host.Outcome.next (if_pos held),
    fun s => ⟨fun up alarm chatter => ?_, fun up alarm calm => ?_, fun idle => ?_⟩,
    fun s => ⟨fun pin unsaid => ?_, fun said => ?_⟩, fun s => ?_⟩
  · refine (exec_boardAlarm_accepted up).trans (congrArg Host.Outcome.next (if_pos ?_))
    rw [(thirdAlarm_iff _ _).mpr third, calm]
    rfl
  · refine (exec_boardAlarm_accepted up).trans (congrArg Host.Outcome.next (if_neg ?_))
    rcases single with few | holds
    · rw [eq_false_of_ne_true (mt (thirdAlarm_iff _ _).mp few), Bool.false_and]; exact Bool.false_ne_true
    · rw [holds, Bool.not_true, Bool.and_false]; exact Bool.false_ne_true
  · exact (exec_alarmRelease_asserted up alarm).trans (congrArg Host.Outcome.next (if_pos chatter))
  · exact (exec_alarmRelease_asserted up alarm).trans (congrArg Host.Outcome.next (if_neg (ne_true_of_eq_false calm)))
  · refine congrArg Host.Outcome.next (if_pos ?_)
    rcases idle with held | released
    · rw [held, Bool.true_or]
    · rw [released, Bool.not_false, Bool.or_true]
  · exact congrArg Host.Outcome.next (if_pos (by rw [pin, unsaid]; rfl))
  · refine congrArg Host.Outcome.next (if_neg ?_)
    rcases said with free | said
    · rw [free, Bool.false_and]; exact Bool.false_ne_true
    · rw [said, Bool.not_true, Bool.and_false]; exact Bool.false_ne_true
  · unfold endAlarm
    cases rbit s boardPage Reg.Brd.ALARM_CTRL 0 <;> rfl

/-! ### Temperatures (R526) -/

section
variable {s : State} {n : Nat} {t limit : Int}

theorem tripSample_below (below : t < limit) : tripSample s n t limit = { s with hotRuns := tset 0 s.hotRuns n 0 } := by
  rw [tripSample, if_neg (not_le.mpr below)]
  rfl

/-- A reading at or above the limit is counted, and trips a device that has not tripped once ten have been. -/
theorem tripSample_reached (reached : limit ≤ t) : tripSample s n t limit =
    let u := { s with hotRuns := tset 0 s.hotRuns n (tget 0 s.hotRuns n + 1) }
    if 10 ≤ tget 0 s.hotRuns n + 1 && !s.tripped then trip u n t else u := by
  rw [tripSample, if_pos reached]

end

/-- Settles O59: a sample is its row; a trip limit is reached or not, and reached for the tenth time or before. -/
theorem temperaturesAreSampled : Obligations.TemperaturesAreSampled := by
  refine ⟨fun s dies hot => rfl, fun s n t limit => ⟨tripSample_below, fun reached few => ?_, fun reached tenth first => ?_,
    fun tripped => ?_⟩⟩
  · refine (tripSample_reached reached).trans (if_neg ?_)
    rw [decide_eq_false (by omega), Bool.false_and]
    exact Bool.false_ne_true
  · refine (tripSample_reached reached).trans (if_pos ?_)
    rw [first, decide_eq_true (Nat.succ_le_succ tenth)]
    rfl
  · rcases lt_or_ge t limit with below | reached
    · exact ⟨0, tripSample_below below⟩
    · refine ⟨tget 0 s.hotRuns n + 1, (tripSample_reached reached).trans (if_neg ?_)⟩
      rw [tripped, Bool.not_true, Bool.and_false]
      exact Bool.false_ne_true

end Sys2Proof.Machine

/-!
PROOFS. The privileged operations of the steward.
-/
namespace Sys2Proof.Machine

/-! ### Operations that run (R501) -/

section
variable {s : State}

/-- An accepted operation is counted, and what its work leaves ends it or has it run again. -/
theorem secRun_accepted {op : Nat} (runs : secRuns s op = true) (f : State → State × SecResult) :
    secRun s op f = secDone s (f (secBegun s)) := by
  refine (if_pos runs).trans ?_
  rw [secBegun]
  generalize f (bump s (activeSecurity s) 0 1) = work
  obtain ⟨t, result⟩ := work
  cases result <;> rfl

/-- The row of an accepted operation whose work comes to `r`. -/
theorem next_secRun_accepted {op : Nat} (runs : secRuns s op = true) {f : State → State × SecResult}
    {r : State × SecResult} (work : f (secBegun s) = r) :
    (Host.Outcome.next (secRun s op f) : Host.Outcome State Fault Refusal) = .next (secDone s r) :=
  congrArg Host.Outcome.next ((secRun_accepted runs f).trans (congrArg (secDone s) work))

/-! ### The work of each operation (R498, R499, R502, R503) -/

variable {u : State} {d : List Byte} (taken : secArg s = (u, .ok, d))
include taken

/-- A new owner's image is judged by itself. -/
theorem replaceImage_newOwner : replaceImage true s =
    match checkImage d u.flash.minSerial none with
    | .ok i => programImage u d i true
    | .error e => (u, imageResult e) := by
  simp only [replaceImage, taken, if_true]
  cases checkImage d u.flash.minSerial none <;> rfl

/-- An image of the owner, whose record stands or is absent. -/
theorem replaceImage_owner (whole : ∀ h, u.flash.owner ≠ some (false, h)) : replaceImage false s =
    match checkImage d u.flash.minSerial (ownerHash u) with
    | .ok i => programImage u d i false
    | .error e => (u, imageResult e) := by
  have stands : u.flash.owner.map (fun x : Bool × List Byte => x.1) ≠ some false := by
    intro broken
    obtain ⟨⟨valid, h⟩, record, rfl⟩ := Option.map_eq_some_iff.mp broken
    exact whole h record
  simp only [replaceImage, taken, Bool.false_eq_true, if_false]
  cases checkImage d u.flash.minSerial (ownerHash u) with
  | error e => rfl
  | ok i =>
    refine if_neg ?_
    rw [decide_eq_false stands, Bool.and_false]
    exact Bool.false_ne_true

end

/-- A token for this device with its nonce: the nonce is spent, and DEBUG set where the signature verifies. -/
theorem unlock_named {s : State} {d : List Byte} (size : d.length = 200) (nonce : s.boot.nonce = some (d.take 32))
    (node : leNat (slice d 32 2) = (nodeId s).val) (zeros : zeroIn d 34 34 = true) :
    unlock s d = if verifyBytes s.boot.ownerKey (slice d 68 132) (sha512 (d.take 68)) = true
      then (countLife { s with boot := { s.boot with nonce := none, debug := true } } 6, .ok)
      else ({ s with boot := { s.boot with nonce := none } }, .signature) := by
  have named : (!decide (s.boot.nonce = some (d.take 32)) || decide (leNat (slice d 32 2) ≠ (nodeId s).val) ||
      !zeroIn d 34 34) = false := by
    rw [decide_eq_true nonce, decide_eq_false (not_not_intro node), zeros]; rfl
  refine (if_neg (not_not_intro size)).trans ((if_neg (ne_true_of_eq_false named)).trans ?_)
  cases verifyBytes s.boot.ownerKey (slice d 68 132) (sha512 (d.take 68)) <;> rfl

/-- Settles O54: each operation by its work on the argument or the output that it has. -/
theorem securityOperationsRun : Obligations.SecurityOperationsRun := by
  refine fun s => ⟨fun runs u d taken size => next_secRun_accepted runs ?_,
    fun runs u d taken whole => next_secRun_accepted runs (replaceImage_owner taken whole),
    fun runs u d taken => next_secRun_accepted runs (replaceImage_newOwner taken),
    fun runs a out => next_secRun_accepted runs ?_, fun runs a out => next_secRun_accepted runs ?_,
    fun runs u d taken size nonce node zeros => next_secRun_accepted runs ?_,
    fun runs => next_secRun_accepted runs rfl, fun runs => next_secRun_accepted runs rfl, rfl⟩
  · rw [taken]; exact if_pos size
  · rw [out]
  · rw [out]; rfl
  · rw [taken]; exact unlock_named size nonce node zeros

end Sys2Proof.Machine
